-- ==== Sys2Proof/Word.lean ====
section
/-! DEFINITION. The word types of Wytre Pasis and the shape of a sparse table. -/

namespace Sys2Proof

/-- One byte (R5). -/
abbrev Byte := BitVec 8
/-- A 64-bit register value or word. -/
abbrev Word := BitVec 64
/-- A vector register (R24). -/
abbrev VReg := BitVec 1024
/-- A predicate register (R25). -/
abbrev PReg := BitVec 128

/-- A sparse table: key and value pairs, keys strictly rising, no pair holding the table's default
value.  The operations that keep this form are in Machine/Tbl.lean. -/
abbrev Tbl (α : Type) := List (Nat × α)

end Sys2Proof
end

