-- ==== Sys2Proof/Syntax.lean ====
section
/-! DEFINITION. The syntax of the machine's steps: one constructor of `Instr` for every row of
spec/opcode_table.json.  A row that is an instruction carries the fields of its encoding (R83); a row
that is an event of the package carries what the event brings with it. -/

namespace Sys2Proof

/-! ## Operand formats (R83) -/

/-- Format V, vector register form, with the `wait` and `sig` bytes of R79. -/
structure FmtV where
  wait : BitVec 8
  sig : BitVec 8
  ty : BitVec 5
  pe : Bool
  pg : BitVec 3
  sm : BitVec 2
  fx : Bool
  c : BitVec 5
  b : BitVec 5
  a : BitVec 5
  d : BitVec 5
  deriving DecidableEq, Repr

/-- Format VI, vector immediate form. -/
structure FmtVI where
  wait : BitVec 8
  sig : BitVec 8
  ty : BitVec 5
  pe : Bool
  pg : BitVec 3
  sm : BitVec 2
  imm : BitVec 11
  a : BitVec 5
  d : BitVec 5
  deriving DecidableEq, Repr

/-- Format VL, three-input logic. -/
structure FmtVL where
  wait : BitVec 8
  sig : BitVec 8
  tt : BitVec 8
  c : BitVec 5
  b : BitVec 5
  a : BitVec 5
  d : BitVec 5
  deriving DecidableEq, Repr

/-- Format VM, vector memory form. -/
structure FmtVM where
  wait : BitVec 8
  sig : BitVec 8
  ty : BitVec 5
  pe : Bool
  pg : BitVec 3
  sm : BitVec 2
  off : BitVec 6
  b : BitVec 5
  a : BitVec 5
  d : BitVec 5
  deriving DecidableEq, Repr

/-- Format D, deadline-bearing form. -/
structure FmtD where
  wait : BitVec 8
  sig : BitVec 8
  x : Bool
  aux : BitVec 6
  st : BitVec 5
  dl : BitVec 5
  b : BitVec 5
  a : BitVec 5
  d : BitVec 5
  deriving DecidableEq, Repr

/-- Format Q, plain sequencer form. -/
structure FmtQ where
  wait : BitVec 8
  sig : BitVec 8
  imm : BitVec 12
  c : BitVec 5
  b : BitVec 5
  a : BitVec 5
  d : BitVec 5
  deriving DecidableEq, Repr

/-- Format M, Mangle form. -/
structure FmtM where
  wait : BitVec 8
  sig : BitVec 8
  fa : BitVec 5
  fb : BitVec 5
  fm : BitVec 3
  aux : BitVec 4
  b : BitVec 5
  a : BitVec 5
  t : BitVec 3
  deriving DecidableEq, Repr

/-- Format C, copy command word. -/
structure FmtC where
  wait : BitVec 8
  sig : BitVec 8
  cr : Bool
  dc : Bool
  eng : BitVec 2
  fl : BitVec 8
  aux : BitVec 16
  deriving DecidableEq, Repr

/-- A copy packet (R94): its command word and its 56 bytes of parameters, as five words and the
24 bytes of `par`. -/
structure Packet where
  cmd : FmtC
  dst : Word
  src : Word
  par : BitVec 192
  rcd : Word
  dep : Word
  deriving DecidableEq, Repr

/-! ## RISC-V operations (R14) -/

/-- Which encoding an RV64 instruction was read from: its 32-bit form, or a 16-bit form (the halfword). -/
inductive RvEnc where
  | w32
  | c16 (h : BitVec 16)
  deriving DecidableEq, Repr

/-- Register-register operations of RV64I, M, Zba and Zbb. -/
inductive RvAlu where
  | add | sub | sll | slt | sltu | xor | srl | sra | or | and
  | mul | mulh | mulhsu | mulhu | div | divu | rem | remu
  | sh1add | sh2add | sh3add | andn | orn | xnor | max | maxu | min | minu | rol | ror
  deriving DecidableEq, Repr

/-- Register-register operations on words (the W forms) and on zero-extended words (the `.uw` forms). -/
inductive RvAluW where
  | addw | subw | sllw | srlw | sraw | mulw | divw | divuw | remw | remuw
  | adduw | sh1adduw | sh2adduw | sh3adduw | rolw | rorw
  deriving DecidableEq, Repr

/-- Operations with a 12-bit signed immediate. -/
inductive RvImm where
  | addi | slti | sltiu | xori | ori | andi | addiw
  deriving DecidableEq, Repr

/-- Operations with a shift amount: 6 bits, or 5 bits for the W forms. -/
inductive RvShift where
  | slli | srli | srai | rori | slliuw | slliw | srliw | sraiw | roriw
  deriving DecidableEq, Repr

/-- One-source operations of Zbb. -/
inductive RvUnary where
  | clz | ctz | cpop | clzw | ctzw | cpopw | sextb | sexth | zexth | rev8 | orcb
  deriving DecidableEq, Repr

inductive RvBranch where
  | beq | bne | blt | bge | bltu | bgeu
  deriving DecidableEq, Repr

/-- Every instruction of RV64I, M, C, Zba and Zbb but the scalar loads and stores, the fences, the
CSR instructions, `ECALL` and `EBREAK`. -/
inductive RvOp where
  | alu (k : RvAlu) (rd rs1 rs2 : BitVec 5)
  | aluw (k : RvAluW) (rd rs1 rs2 : BitVec 5)
  | imm (k : RvImm) (rd rs1 : BitVec 5) (i : BitVec 12)
  | shift (k : RvShift) (rd rs1 : BitVec 5) (sh : BitVec 6)
  | unary (k : RvUnary) (rd rs1 : BitVec 5)
  | lui (rd : BitVec 5) (i : BitVec 20)
  | auipc (rd : BitVec 5) (i : BitVec 20)
  | jal (rd : BitVec 5) (off : BitVec 21)
  | jalr (rd rs1 : BitVec 5) (off : BitVec 12)
  | branch (k : RvBranch) (rs1 rs2 : BitVec 5) (off : BitVec 13)
  deriving DecidableEq, Repr

/-- A scalar load: `f3` is the RISC-V width code (0 LB, 1 LH, 2 LW, 3 LD, 4 LBU, 5 LHU, 6 LWU). -/
structure LoadF where
  f3 : BitVec 3
  rd : BitVec 5
  rs1 : BitVec 5
  off : BitVec 12
  enc : RvEnc
  deriving DecidableEq, Repr

/-- A scalar store: `f3` is 0 SB, 1 SH, 2 SW, 3 SD. -/
structure StoreF where
  f3 : BitVec 3
  rs1 : BitVec 5
  rs2 : BitVec 5
  off : BitVec 12
  enc : RvEnc
  deriving DecidableEq, Repr

/-- A CSR instruction: `f3` is 1 CSRRW, 2 CSRRS, 3 CSRRC, 5 to 7 the same with an immediate in `rs1`. -/
structure CsrF where
  csr : BitVec 12
  f3 : BitVec 3
  rs1 : BitVec 5
  rd : BitVec 5
  deriving DecidableEq, Repr

/-- The fields `FENCE` and `FENCE.I` ignore (R106, R107): bits [31:15] and rd [11:7]. -/
structure FenceF where
  hi : BitVec 17
  rd : BitVec 5
  deriving DecidableEq, Repr

/-! ## Agents and events -/

/-- The engines of a core, in the numbering of `ENGRING` (R296). -/
inductive Eng where
  | vx | mt | ce0 | ce1
  deriving DecidableEq, Repr

/-- An agent that issues instructions: a compute core, numbered 256 × cluster + coreid, or a Hamper
thread (R330). -/
inductive Agent where
  | core (n : Nat)
  | thread (h : Nat)
  deriving DecidableEq, Repr

/-- Who runs a copy packet: CE0 or CE1 of a core, or one of the 16 engines of the Hamper. -/
inductive CopyAgent where
  | core (n : Nat) (ce1 : Bool)
  | hamper (e : Nat)
  deriving DecidableEq, Repr

/-- A barrier: its job slot, its scope code, the group of that scope, and its number (R205). -/
structure BarKey where
  job : Nat
  scope : Nat
  grp : Nat
  num : Nat
  deriving DecidableEq, Repr

/-- What a barrier home answers (R207 to R212). -/
inductive BarAns where
  | joined (phase : BitVec 16)
  | completed (phase : BitVec 16)
  | broken (phase : BitVec 16)
  | withdrawn
  | mismatch
  | noRecord
  deriving DecidableEq, Repr

/-- A barrier message between a core and a home: an arrival, a withdrawal, or an answer. -/
structure BarArr where
  key : BarKey
  core : Nat
  n : BitVec 32
  wait : Bool
  due : Nat := 0
  deriving DecidableEq, Repr

structure BarWdr where
  key : BarKey
  core : Nat
  phase : BitVec 16
  known : Bool := true
  due : Nat := 0
  deriving DecidableEq, Repr

structure BarReply where
  key : BarKey
  core : Nat
  ans : BarAns
  due : Nat := 0
  deriving DecidableEq, Repr

/-- A Hamper message (R337) with its payload. -/
structure Msg where
  tag : Word
  jobid : BitVec 32
  src : BitVec 16
  kind : Byte
  fl : Byte
  ctr : BitVec 16
  port : BitVec 16
  len : BitVec 32
  imm : Word
  payload : List Byte
  deriving DecidableEq, Repr

/-- What answers a read that left the core (R255): its bytes, a poisoned address divided by 32, a
refusal with its cause, or a stale handle. -/
inductive ReadAns where
  | data (bs : List Byte)
  | poison (detail : Word)
  | refused (cause : Byte)
  | stale
  deriving DecidableEq, Repr

/-- A fabric packet (R430).  Two things that the header has no place for travel beside the bytes
(notes/assumptions/13.md): `pois` lists the payload bytes that carry poison (R244), and `part` the payload bytes of a write of
which only the given bits are written. -/
structure FabPkt where
  kind : BitVec 16
  src : BitVec 16
  dst : BitVec 16
  via : BitVec 16
  path : Byte
  hop : Byte
  seq : BitVec 16
  mid : BitVec 16
  len : BitVec 16
  addr : Word
  aux : Word
  payload : List Byte
  pois : List Nat := []
  part : List (Nat × Byte) := []
  deriving DecidableEq, Repr

/-- A flit (R433): 56 data bytes, `fsq`, `ack` and the CRC. -/
structure Flit where
  data : List Byte
  fsq : BitVec 16
  ack : BitVec 16
  crc : BitVec 32
  deriving DecidableEq, Repr

/-- A member's handshake to a collective's coordinator (R457). -/
structure Handshake where
  job : Nat
  crc : BitVec 32
  ordinal : Nat
  rank : Nat
  fp : Word
  utag : Word
  root : BitVec 16
  deriving DecidableEq, Repr

/-- One step of the machine, whole and indivisible: one constructor per row of the table of operations
and events. -/
inductive Instr where
  -- scalar instructions (R14 to R45)
  | scalarLoad (f : LoadF)
  | scalarStore (f : StoreF)
  | rv64IntegerOp (o : RvOp) (enc : RvEnc)
  | instructionFetch
  | fence (f : FenceF)
  | fenceI (f : FenceF)
  | ecall
  | ebreak
  | cEbreak
  | csrAccess (f : CsrF)
  | bfmtWrite (f : CsrF)
  | bfmtTakesEffect (n : Nat)
  -- class SQ
  | sleepu (f : FmtD)
  | engdl (f : FmtQ)
  | engst (f : FmtQ)
  | engsync (f : FmtD)
  | semwait (f : FmtD)
  | semsig (f : FmtQ)
  | semadd (f : FmtQ)
  | semrd (f : FmtQ)
  | engringOff (f : FmtQ)
  | engringOn (f : FmtQ)
  | engringGo (f : FmtQ)
  | engringSkip (f : FmtQ)
  | engringDrop (f : FmtQ)
  | slcfg (f : FmtQ)
  | sladvCons (f : FmtQ)
  | sladvProd (f : FmtQ)
  | sltokRd (f : FmtQ)
  | sltokPut (f : FmtQ)
  | sltokTake (f : FmtQ)
  | bar (f : FmtD)
  | bara (f : FmtQ)
  | barw (f : FmtD)
  | barx (f : FmtQ)
  | barrierArrivalAtHome (a : BarArr)
  | barrierWithdrawalAtHome (w : BarWdr)
  | barrierReply (r : BarReply)
  | tlaunch (f : FmtD)
  | texit (f : FmtQ)
  | taskEnd (n : Nat)
  | tyield (f : FmtQ)
  | tarm (f : FmtQ)
  | depCounterDecrement (cl slot amt : Nat)
  | mark (f : FmtQ)
  | pfence (f : FmtD)
  | xfence (f : FmtD)
  | dld (f : FmtD)
  | taglk (f : FmtQ)
  | tagset (f : FmtQ)
  | tagclr (f : FmtQ)
  | tagclrAll (f : FmtQ)
  | tagvic (f : FmtQ)
  | cpput (f : FmtD)
  | cpputP (f : FmtD)
  | tret (f : FmtQ)
  | tretSkip (f : FmtQ)
  | cutrd (f : FmtQ)
  -- class SY and the context events
  | ctxswap (f : FmtQ)
  | contextExchangeComplete (n : Nat)
  | ctxsave (f : FmtD)
  | ctxsaveKeep (f : FmtD)
  | contextSaveComplete (n : Nat)
  | ctxload (f : FmtD)
  | contextFillComplete (n : Nat)
  | sbset (f : FmtQ)
  | tkill (f : FmtQ)
  | matset (f : FmtQ)
  | tlbinvPg (f : FmtD)
  | tlbinvAs (f : FmtD)
  | tlbinvAll (f : FmtD)
  | hreq (f : FmtQ)
  -- class VX
  | vadd (f : FmtV)
  | vsub (f : FmtV)
  | vmul (f : FmtV)
  | vmulh (f : FmtV)
  | vfma (f : FmtV)
  | vfms (f : FmtV)
  | vfnma (f : FmtV)
  | vdiv (f : FmtV)
  | vsqrt (f : FmtV)
  | vmin (f : FmtV)
  | vmax (f : FmtV)
  | vabs (f : FmtV)
  | vneg (f : FmtV)
  | vadds (f : FmtV)
  | vsubs (f : FmtV)
  | vshl (f : FmtV)
  | vshr (f : FmtV)
  | vsra (f : FmtV)
  | vaddi (f : FmtVI)
  | vcmp (f : FmtV)
  | vredsum (f : FmtV)
  | vredmin (f : FmtV)
  | vredmax (f : FmtV)
  | vand (f : FmtV)
  | vandNb (f : FmtV)
  | vor (f : FmtV)
  | vorNb (f : FmtV)
  | vxor (f : FmtV)
  | vxorNb (f : FmtV)
  | vlut3 (f : FmtVL)
  | vfsh (f : FmtV)
  | vfshw (f : FmtV)
  | vrot (f : FmtV)
  | vpopc (f : FmtV)
  | vclz (f : FmtV)
  | vlrot (f : FmtVI)
  | vshuf (f : FmtV)
  | vslide (f : FmtVI)
  | vbcast (f : FmtV)
  | vbcastEl (f : FmtV)
  | vzip (f : FmtV)
  | vzipHi (f : FmtV)
  | vunzip (f : FmtV)
  | vunzipOdd (f : FmtV)
  | vsel (f : FmtV)
  | vmvx (f : FmtV)
  | vmxv (f : FmtV)
  | pand (f : FmtV)
  | por (f : FmtV)
  | pxor (f : FmtV)
  | pandn (f : FmtV)
  | pset (f : FmtVI)
  | pcnt (f : FmtV)
  | vcvt (f : FmtV)
  | vcvtSat (f : FmtV)
  | vpack (f : FmtV)
  | vunpk (f : FmtV)
  | vqmx (f : FmtV)
  | vdqmx (f : FmtV)
  | vcbl (f : FmtV)
  | vcblEnc (f : FmtV)
  | vld (f : FmtVM)
  | vlds (f : FmtVM)
  | vldx (f : FmtVM)
  | vst (f : FmtVM)
  | vsts (f : FmtVM)
  | vstx (f : FmtVM)
  | vldw (f : FmtD)
  | vtrd (f : FmtD)
  | readReplyArrival (n k : Nat) (r : Option ReadAns)
  | postedWritePerformed (n : Nat)
  | postedWriteAck (n w : Nat)
  -- class MT
  | mmaAcc (f : FmtM)
  | mmaOvw (f : FmtM)
  | mmaSacc (f : FmtM)
  | mmaSovw (f : FmtM)
  | mzero (f : FmtM)
  | mcfg (f : FmtM)
  | mgetr (f : FmtM)
  | msetr (f : FmtM)
  | mgetc (f : FmtM)
  | msetc (f : FmtM)
  | mload (f : FmtM)
  | mhadRow (f : FmtM)
  | mhadCol (f : FmtM)
  | mdrain (f : FmtM)
  | mcbld (f : FmtM)
  | mbind (f : FmtM)
  | mcopy (f : FmtM)
  | mcopyAdd (f : FmtM)
  -- class CP
  | copy (p : Packet)
  | tcopyRd (p : Packet)
  | tcopyWr (p : Packet)
  | im2colw (p : Packet)
  | fill (p : Packet)
  | accw (p : Packet)
  | fop (p : Packet)
  | cas (p : Packet)
  | redcopy (p : Packet)
  | mcast (p : Packet)
  | amcast (p : Packet)
  | multicastTileArrival (n : Nat)
  | amcastRetry (e : Nat)
  | spfill (p : Packet)
  | spdrain (p : Packet)
  | qappend (p : Packet)
  | qappendAtTarget (c : CopyAgent)
  | sigrem (p : Packet)
  | remoteSignalArrival (n sem amt : Nat)
  | copyPacketCompletion (c : CopyAgent)
  | missedPromise (n : Nat) (ce1 : Bool)
  -- engine queues
  | wordForward (w : Word) (rest : BitVec 448)
  | forwardHoldRelease (n : Nat)
  | forwardHoldTimeout (n : Nat)
  | engineEntryStart (n : Nat) (e : Eng)
  | engineWaitTimeout (n : Nat) (e : Eng)
  | engineCommandComplete (n : Nat) (e : Eng)
  -- waits, traps, containment
  | waitConditionMet (a : Agent)
  | deadlineExpiry (a : Agent)
  | trapTake (n : Nat)
  | containmentDecision (n : Nat)
  | inFlightReinject (n : Nat)
  -- scheduling and the write lane
  | launchDivide
  | leafLaunchTake (cl : Nat)
  | steal (die job num : Nat)
  | taskDispatch (cl : Nat)
  | completionReport (cl job num : Nat)
  | hbmFrameBoundary
  | storePerformedInSlot (stack n : Nat) (bad : BitVec 4)
  | storeBackpressure (n : Nat) (ce1 : Bool)
  | migrationCheck (page : Nat)
  | migrationSwitch (page : Nat)
  -- the Hamper
  | hamperScalarAccess (store : Bool) (f3 : BitVec 3) (r rs1 : BitVec 5) (off : BitVec 12) (enc : RvEnc)
  | hamperThreadTrap (h : Nat) (cause : Byte) (val : Word)
  | messageArrivalData (m : Msg)
  | messageArrivalCtrl (m : Msg)
  | messageArrivalCount (m : Msg)
  | nrecv (f : FmtD)
  | nsend (f : FmtD)
  | nprobe (f : FmtD)
  | npost (f : FmtQ)
  | npostCancel (f : FmtQ)
  | trgarm (f : FmtQ)
  | trgdis (f : FmtQ)
  | trgrd (f : FmtQ)
  | trgrdBlk (f : FmtQ)
  | ctradd (f : FmtQ)
  | ctrrd (f : FmtQ)
  | ctrwait (f : FmtD)
  | ctrset (f : FmtQ)
  | nlaunch (f : FmtQ)
  | ncopy (f : FmtD)
  | collst (f : FmtQ)
  | jcfgHandle (f : FmtQ)
  | jcfgWindowTemplate (f : FmtQ)
  | jcfgWindowContext (f : FmtQ)
  | haltgo (f : FmtQ)
  | hstep (f : FmtQ)
  | stepEnd (n : Nat)
  | hresume (f : FmtQ)
  | hcause (f : FmtQ)
  | hcauseCore (f : FmtQ)
  | tailWrite (page : Nat) (t : BitVec 32)
  | ecallReply (n : Nat) (reply : List Byte)
  | retentionEnter (u : Nat)
  | retentionWake (u : Nat)
  -- timed domains and power
  | domainDeclare (rcd : List Byte)
  | swallowRateUpdate (dom s : Nat)
  | rampWindowBoundary (n : Nat)
  -- stops, the halt wave and resume
  | jobStopInstant (job : Nat)
  | gangResumeInstant (job : Nat)
  | gangGraceExpiry (job : Nat)
  | haltWaveArrival (job : Nat) (origin jt : Word)
  | haltReport (job : Nat)
  | causeRecordSettle (job : Nat)
  | resumeWaveArrival (job : Nat) (tr jz : Word)
  | resumeInstant (job : Nat)
  -- links and the fabric
  | seamLinkFail (link : Nat)
  | fabricPacketReceive (p : FabPkt)
  | fabricAckTimer (src : Nat)
  | packetResendTimeout (dst : Nat)
  | flitReceive (port : Nat) (f : Flit)
  | laneDown (port lane : Nat)
  | retrainComplete (port : Nat)
  | retrainTimeout (port : Nat)
  | timeSyncMeasure (t0 t1 t2 t3 : Word)
  -- collectives
  | collectiveHandshake (h : Handshake)
  | collectiveGo (job num : Nat) (ok : Bool)
  | collectiveCompletion (job num : Nat)
  -- host, boot, management
  | hostWindowAccess (func off : Nat) (write : Bool) (data : List Byte)
  | queuePageWrite (func page off : Nat) (data : List Byte)
  | vecStoreMsix (page : Nat)
  | ident
  | read
  | attest
  | hbmerr
  | window
  | link
  | commit
  | bootld
  | power
  | therm
  | powerStateChange
  | powerMeasure (share watts : Nat)
  | thermalThreshold (temp : Nat)
  | deviceReset
  | cxlLinkDownAccess (port : Nat)
  | spoolOrAmcastWaitPassesD (c : CopyAgent)
  | uetWriteOrRead (job region off : Nat) (write : Bool) (data : List Byte)
  | receivedFrameDropped (port : Nat)
  | doorbellWrite (v : BitVec 32)
  | spareCoreRemap (n : Nat)
  | scrubbing (granule : Nat) (ok : Bool)
  deriving DecidableEq, Repr

end Sys2Proof
end

