-- ==== Sys2Proof/Machine/State.lean ====
section
/-! DEFINITION. The state of one OJ-WP4 package, as plain data: its cores and their two context banks,
its memories, the Hamper, the schedulers, the fabric ports, the host interface, and the input that says
which agent moves next.  Other packages, hosts and devices appear as what reaches the package from
outside: the events of `sched`. -/

namespace Sys2Proof.Machine

/-! ## A core's context (R31, R400) -/

/-- A spool descriptor (R300).  `early` holds the claimed slots that were written before a slot claimed
earlier, and so are not yet counted as filled (R301).  `at_` is 1 + the cycle in which slots were last claimed, filled
or freed, `cnt0` and `free0` the filled and free slots at the start of that cycle, and `cons` and `prod` the slots
claimed in it so far: claims see the descriptor as it stood then (R301). -/
structure Spool where
  cfg : Bool := false
  ssz : Nat := 0
  nsl : Nat := 0
  base : Nat := 0
  hd : Nat := 0
  tl : Nat := 0
  cnt : Nat := 0
  prs : Nat := 0
  tok : BitVec 64 := 0
  early : List Nat := []
  at_ : Nat := 0
  cnt0 : Nat := 0
  free0 : Nat := 0
  cons : Nat := 0
  prod : Nat := 0
  deriving DecidableEq, Repr

/-- A cached translation (R238): its ASID, the page's base, its size and its leaf entry. -/
structure Tlb where
  asid : Nat
  va : Nat
  size : Nat
  pte : Word
  deriving DecidableEq, Repr

/-- An entry of an engine queue: the command word (with the packet's 56 bytes for a copy engine), the
values program order gives its scalar operands and `vfmode` (R12, R63), the deadline it carries (R112),
its place in program order, and, for a packet that has started, its progress (R315, R327): the pieces issued, the
writes still to be performed, in `blk` the bytes it holds, in `agg` the bytes of its pieces that its
next store or fabric packet will hold (R233, R463), with those of which only some bits are written (`aggM`) and those that
carry poison (`aggP`) and their translation (`aggT`), in `hent` the handle entry that its present box was checked against (R231), in `fullAt` since when,
and at which address, a store waits for an entry of the store queue (R235), in `held` and `heldP` the bytes of a slot that it has claimed and not yet written out, with those that carry poison
(R301, R324), and in `fin` that nothing is left to issue.  `promise` is its promise (R328); `missed`
says that the promise is not, or no longer, watched.  `ring` is the cycle in which an entry from a ring started, else
0 (R262). -/
structure QEntry where
  word : Word
  rest : BitVec 448 := 0
  xa : Word := 0
  xb : Word := 0
  xc : Word := 0
  vfm : Word := 0
  dl : Word := 0
  ord : Nat := 0
  t0 : Option Word := none
  started : Bool := false
  piece : Nat := 0
  outst : Nat := 0
  res : Word := 0
  flg : BitVec 6 := 0
  code : Nat := 0
  det : Word := 0
  wt0 : Option Word := none
  claim : Option Nat := none
  mask : Nat := 0
  promise : Word := 0
  missed : Bool := false
  sub : Nat := 0
  blk : BitVec 512 := 0
  agg : List (Nat × Byte) := []
  fin : Bool := false
  pc : Word := 0
  ring : Nat := 0
  fullAt : Option (Word × Word) := none
  aggM : List (Nat × Byte) := []
  aggP : List Nat := []
  aggT : Option Tlb := none
  hent : BitVec 512 := 0
  held : List Byte := []
  heldP : List Nat := []
  deriving DecidableEq, Repr

/-- A command that has started and is not yet ready: what lands when it completes (R81, R381).  `kind`
is coded as R413 codes it, and 0 for a command that writes no register.  `keys` lists what it will still write beside
its register: codebooks, the binding, `vflags` (R12), and `fl` the flags it raises.  A Mangle command that reads or
writes memory over its issue interval holds its place in it (R172, R177, R178): `pos` is its next cycle, `step` the
next step or piece, `snap` the lines read and not yet used, `pz` that one was poisoned, `work` that it still reads, and
`wr` the pieces a drain has still to write; `ring` is the start cycle of an entry from a ring, else 0 (R262); `drain` says that a freeze has yet to bring it to where R381 leaves it, and `uses` lists the banks it reads or writes (R45). -/
structure Pending where
  eng : Eng
  kind : Nat
  dst : Nat := 0
  val : VReg := 0
  r2 : Nat := 0
  v2 : Word := 0
  sig : BitVec 8 := 0
  ready : Nat := 0
  lease : Nat := 0
  banks : List Nat := []
  spool : Option (Nat × Nat) := none
  ord : Nat := 0
  keys : List Nat := []
  fl : BitVec 6 := 0
  pos : Nat := 0
  step : Nat := 0
  snap : Tbl (BitVec 512) := []
  pz : Bool := false
  wr : List (List (Nat × List Byte)) := []
  work : Bool := false
  drain : Bool := false
  ring : Nat := 0
  uses : List Nat := []
  deriving DecidableEq, Repr

/-- The engine states of R113 that a queue can be in; ring mode is state 3. -/
inductive EngState where
  | idle | running | stopped | ring
  deriving DecidableEq, Repr

/-- One engine of a core (R113, R286, R384, R413). -/
structure Engine where
  q : List QEntry := []
  lane : List QEntry := []
  run : List Pending := []
  st : EngState := .idle
  r : Bool := false
  ev : Bool := false
  code : Nat := 0
  cause : Byte := 0
  seq : BitVec 32 := 0
  wcnt : BitVec 32 := 0
  rOff : Nat := 0
  rCnt : Nat := 0
  rIdx : Nat := 0
  gate : Nat := 0
  trap : Option (Byte × Word) := none
  missed : Option Word := none
  deriving DecidableEq, Repr

/-- The register files and the Mangle's stores.  Keys: `tile` 2048·t + 32·row + column, `cb`
16·codebook + code.  `pois` lists poisoned registers and control entries by array code (R393). -/
structure Regs where
  x : Tbl Word := []
  v : Tbl VReg := []
  p : Tbl PReg := []
  tile : Tbl (BitVec 32) := []
  tilePois : Tbl Bool := []
  tcfg : Tbl Word := []
  cb : Tbl (BitVec 16) := []
  bind : Option (Nat × Nat × Nat × Nat) := none
  pois : List (Nat × Nat) := []
  deriving DecidableEq, Repr

/-- The CSRs of R42 that belong to a context. -/
structure Csrs where
  vfmode : Word := 0
  vflags : Word := 0
  tvec : Word := 0
  tcause : Word := 0
  tepc : Word := 0
  tval : Word := 0
  dlesc : Word := 0
  sdl : Word := 0x1000
  srseed : Word := 1
  bfmt : Tbl Word := []
  edl : Tbl Word := []
  sbud : Word := 0
  deriving DecidableEq, Repr

/-- The trap record (R378). -/
structure TrapRec where
  cpc : Word := 0
  cvx : Word := 0
  cmt : Word := 0
  cce0 : Word := 0
  cce1 : Word := 0
  cw : Word := 0
  cval : Word := 0
  cjt : Word := 0
  cdc : Word := 0
  cifq : Word := 0
  cerr : Word := 0
  deriving DecidableEq, Repr

/-- A launch descriptor (R190, R191), read into its fields. -/
structure Desc where
  entry : Word := 0
  args : Word := 0
  count : Nat := 0
  prio : Nat := 0
  timed : Bool := false
  sup : Bool := false
  pers : Bool := false
  img : Bool := false
  span : Nat := 0
  policy : BitVec 14 := 0
  tdom : Nat := 0
  edl : Word := 0
  done : Word := 0
  dep : Word := 0
  sbud : Nat := 0
  deriving DecidableEq, Repr

/-- Which task a context holds: its job slot, launch number, `taskid`, and the descriptor it runs under. -/
structure Ident where
  job : Nat := 0
  num : Nat := 0
  taskid : BitVec 32 := 0
  desc : Desc := {}
  named : Option Nat := none
  deriving DecidableEq, Repr

/-- A task's arrival record for a barrier (R205): the phase joined, and what the home has answered. -/
structure BarRec where
  key : BarKey
  phase : BitVec 16 := 0
  known : Bool := false
  ans : Option BarAns := none
  withdrawn : Bool := false
  deriving DecidableEq, Repr

/-- A deadline-bearing instruction that waits (R37): the instruction, its address, its operands as read
at issue, its deadline instant D, and what the instruction has obtained so far.  `fresh` says that a resume, or a
wake from retention, grants it one test whatever D is (R447, R361). -/
structure Wait where
  instr : Instr
  pc : Word
  d : Word
  a : Word := 0
  b : Word := 0
  since : Nat := 0
  ord : Nat := 0
  bytes : List Byte := []
  ans : Option ReadAns := none
  sent : Bool := false
  fresh : Bool := false
  tlb : Option Tlb := none
  deriving DecidableEq, Repr

/-- A word held at a full queue (R283). -/
structure Hold where
  eng : Eng
  any : Bool
  entry : QEntry
  pc : Word
  len : Nat
  d : Word
  deriving DecidableEq, Repr

/-- A read of the vector unit under way (R254): `key` is what a reply from outside the package names it by, and a reply
that has come completes it at `dcyc` `rdy`. -/
structure VRead where
  id : Nat
  instr : Instr
  entry : QEntry
  d : Word
  pc : Word
  since : Nat := 0
  ans : Option ReadAns := none
  loc : Nat := 0
  hent : Nat := 0
  blk : List Byte := []
  key : Nat := 0
  rdy : Nat := 0
  tlb : Option Tlb := none
  deriving DecidableEq, Repr

/-- Why a core is stopped (R380, R402, R440). -/
inductive Stop where
  | containment | haltWave | preempt
  deriving DecidableEq, Repr

/-- A pending write of a bank format (R45). -/
structure BfmtPend where
  bank : Nat
  val : Word
  rd : BitVec 5
  ord : Nat
  deriving DecidableEq, Repr

/-- Everything a context bank holds (R31, R400).  `ord` numbers the entries forwarded so far, and `xord` holds,
for each scalar register, that number at the sequencer's latest write of it: an earlier entry's result no longer
lands there (R12).  `begun` says that the task has issued its first instruction (R194).  `dlWait` keeps completions that R40 counts only after earlier ones. -/
structure Ctx where
  pc : Word := 0
  regs : Regs := {}
  csr : Csrs := {}
  vx : Engine := {}
  mt : Engine := {}
  ce0 : Engine := {}
  ce1 : Engine := {}
  sem : Tbl (BitVec 16) := []
  sl : Tbl Spool := []
  tag : Tbl Word := []
  tvp : Nat := 0
  win : Tbl Word := []
  winCnt : Tbl Nat := []
  winFail : Tbl Byte := []
  rcd : TrapRec := {}
  hact : Bool := false
  inflight : List Pending := []
  dirty : BitVec 128 := 0
  tdirty : BitVec 8 := 0
  ihome : Word := 0
  gsz : Word := 0
  jimg : Word := 0
  jmask : BitVec 128 := 0
  imgBad : Bool := false
  dcSave : Nat := 0
  dcMark : Nat := 0
  ident : Ident := {}
  wait : Option Wait := none
  hold : Option Hold := none
  vreads : List VRead := []
  bfmtPend : Option BfmtPend := none
  exiting : Bool := false
  dlPrev : Option Word := none
  dlWait : List (Nat × Word × Nat) := []
  begun : Bool := false
  bars : List BarRec := []
  baraTo : List (BarKey × Bool × BitVec 5) := []
  storeErr : Option Word := none
  late : List (Nat × Nat × Word) := []
  marks : List Nat := []
  stop : Option Stop := none
  bpkLen : Nat := 4
  ord : Nat := 0
  xord : Tbl Nat := []
  deriving DecidableEq, Repr

/-! ## A core -/

/-- The states of a shadow bank (R401). -/
inductive ShadowSt where
  | empty | loading | held | saving
  deriving DecidableEq, Repr

/-- A store in a core's store queue (R233), or the marker of `MARK` (R261).  `atom` is the op, the
type and the compare value of an atomic performed at the stack, and the offset of its result; the operands
are then the data.  `pm` lists the bytes that carry poison, `part` the bytes of which only some bits are written, with
those bits, and `tlb` is the translation that the store used (R239). -/
structure SqEntry where
  marker : Bool := false
  ce1 : Bool := false
  addr : Nat := 0
  data : List (Nat × Byte) := []
  atom : Option (Nat × Nat × Nat × Option Nat) := none
  pm : List Nat := []
  ord : Nat := 0
  t0 : Nat := 0
  part : List (Nat × Byte) := []
  tlb : Option Tlb := none
  deriving DecidableEq, Repr

/-- A copy engine's access that has left for another package and is not yet answered: the packet it belongs to, its
target, and the translation it used; one to HBM holds an entry of the store queue (R233, R239, R463). -/
structure FarWr where
  ce1 : Bool
  ord : Nat
  pkg : Nat
  addr : Nat
  tlb : Option Tlb := none
  t0 : Nat := 0
  deriving DecidableEq, Repr

/-- A posted write on its way to its target (R226, R252).  `own` says which task sent it (`Ctx.key`), and `ring` is the
start cycle of an entry from a ring, else 0 (R262). -/
structure Posted where
  win : Nat
  pkg : Nat
  tgt : Nat
  data : List (Nat × Byte)
  t0 : Nat := 0
  own : Nat := 0
  ring : Nat := 0
  deriving DecidableEq, Repr

/-- An acknowledgement of a posted write on its way to its core. -/
structure PostAck where
  win : Nat
  own : Nat := 0
  ring : Nat := 0
  deriving DecidableEq, Repr

/-- A multicast tile on its way to a receiver (R322, R323). -/
structure Tile where
  src : CopyAgent
  bit : Nat
  off : Nat
  data : List Byte
  pois : List Nat := []
  rsem : Nat
  asem : Nat
  ord : Nat := 0
  deriving DecidableEq, Repr

/-- One core: its two banks and what belongs to the core and not to a context. -/
structure Core where
  busy : Bool := false
  fg : Ctx := {}
  shSt : ShadowSt := .empty
  sh : Option Ctx := none
  shKeep : Bool := false
  shImg : Word := 0
  exch : Option Nat := none
  sjob : Option Nat := none
  sq : List SqEntry := []
  farw : List FarWr := []
  credit : Nat := 0
  cframe : Nat := 0
  posted : List Posted := []
  acks : List PostAck := []
  tiles : List Tile := []
  utlb : List Tlb := []
  icache : List (Nat × Byte) := []
  rampPrev : Nat := 0
  rampCur : Nat := 0
  rampWin : Nat := 0
  retired : Bool := false
  asked : Bool := false
  ecall : Option (BitVec 8 × Word) := none
  stepping : Option (Nat × Stop) := none
  stepRes : Option (Nat × Byte) := none
  deriving DecidableEq, Repr

/-! ## The Hamper -/

/-- A Hamper thread (R330, R332). -/
structure Thread where
  pc : Word := 0
  x : Tbl Word := []
  hjob : Word := 0
  hvec : Word := 0
  hcause : Word := 0
  hepc : Word := 0
  hval : Word := 0
  wait : Option Wait := none
  deriving DecidableEq, Repr

/-- A counter (R340). -/
structure Ctr where
  val : Nat := 0
  exp : Nat := 0
  deriving DecidableEq, Repr

inductive TrgSt where
  | free | armed | fired | held
  deriving DecidableEq, Repr

/-- A Trigger Table entry (R341). -/
structure Trg where
  st : TrgSt := .free
  act : Nat := 0
  grp : Nat := 0
  thr : Nat := 0
  ctr : Nat := 0
  blk : Nat := 0
  job : Nat := 0
  deriving DecidableEq, Repr

/-- A live post (R344): its block, the messages it still expects and those it has taken. -/
structure Post where
  num : Nat
  job : Nat
  tag : Word
  ign : Word
  dst : Word
  str : Nat
  max : Nat
  left : Nat
  took : Nat
  pc : Nat
  deriving DecidableEq, Repr

/-- A copy packet running on one of the Hamper's copy engines (R356). -/
structure HCopy where
  eng : Nat
  job : Nat
  thread : Option Nat
  entry : QEntry
  d : Word
  fin : Bool := false
  deriving DecidableEq, Repr

/-- A memory region of Ultra Ethernet Transport (R359). -/
structure Region where
  tw : Word := 0
  len : Nat := 0
  ctr : Nat := 0
  deriving DecidableEq, Repr

/-- What a member has sent to another in a step of a collective (R458): the step, the sender's rank, which of how many
parts it is, and the elements, none where one is poisoned. -/
structure CollMsg where
  ph : Nat
  rank : Nat
  part : Nat := 0
  of : Nat := 1
  els : List (Option Nat)
  deriving DecidableEq, Repr

/-- A collective this package is a member of (R453, R456): its number, its parameters as read at issue, what
the coordinator has answered, and its standing: the step it is in (9 when its outputs are final), what has
reached it, and its partial results.  `told` says that the cause of its fault has been passed on. -/
structure Coll where
  num : Nat
  thread : Nat
  crc : BitVec 32
  ordinal : Nat
  op : Nat
  rop : Nat
  ty : Nat
  root : Nat
  count : Nat
  utag : Word
  gsz : Nat
  rank : Nat
  nloc : Nat
  ltab : List (Word × Word)
  mlist : List Word
  stg : Word
  dep : Word
  cfl : Byte
  ctr : Nat
  crec : Nat
  d : Word
  go : Option Bool := none
  ph : Nat := 0
  inbox : List CollMsg := []
  acc : List (Option Nat) := []
  code : Nat := 0
  det : Word := 0
  flg : BitVec 6 := 0
  res : Nat := 0
  told : Bool := false
  deriving DecidableEq, Repr

inductive HaltPh where
  | run | freezing | frozen | armed
  deriving DecidableEq, Repr

/-- One job as the hardware of this package holds it, beside its job-table entry in Hamper memory:
its clock, its packages, its set-up, its stops.  `more` counts the origins of a settled record that `origins` does not
list (R443), and `coord` holds the collectives that this package coordinated and has itself completed (R460). -/
structure Job where
  base : Word := 0
  stopped : Word := 0
  pkgs : List (Nat × Nat) := []
  launches : Nat := 0
  tmpl : Tbl Word := []
  bfmt0 : Tbl Word := []
  cb0 : Tbl (BitVec 16) := []
  sl0 : Tbl Spool := []
  img : Word := 0
  imask : BitVec 128 := 0
  ph : HaltPh := .run
  origins : List (Word × Word) := []
  first : Option (Word × Word) := none
  settled : Bool := false
  more : Nat := 0
  jz : Word := 0
  tr : Word := 0
  reports : List (Nat × Word) := []
  ts : Option Word := none
  gang : Option (Word × Word) := none
  late : List Nat := []
  colls : List Coll := []
  ordinals : List (BitVec 32 × Nat) := []
  shakes : List Handshake := []
  coord : List Coll := []
  collNext : Nat := 0
  deriving DecidableEq, Repr

/-! ## Launches and scheduling -/

/-- A range of task indices held unplaced at a cluster (R363), ready since `rdy`. -/
structure Range where
  cl : Nat
  lo : Nat
  n : Nat
  rdy : Nat
  deriving DecidableEq, Repr

/-- A live launch (R193, R363, R368); `home` says that this package accepted it. -/
structure Launch where
  job : Nat
  num : Nat
  desc : Desc
  grp : Nat
  rdy : Nat
  ranges : List Range := []
  assigned : Tbl Nat := []
  ended : Tbl Nat := []
  reported : Tbl Nat := []
  sum : Nat := 0
  home : Bool := true
  deriving DecidableEq, Repr

inductive SlotSt where
  | free | armed | ready | running
  deriving DecidableEq, Repr

/-- A named-task slot (R203). -/
structure NSlot where
  st : SlotSt := .free
  cnt : Nat := 0
  pend : Nat := 0
  desc : Desc := {}
  job : Nat := 0
  rdy : Nat := 0
  deriving DecidableEq, Repr

/-- A task that has yielded its core and waits to run again (R202, R406), with the bytes of its dirty
granules, and which of their 32-byte units are poisoned. -/
structure Yielded where
  cl : Nat
  rdy : Nat
  rd : BitVec 5
  ctx : Ctx
  pad : List Host.Cell := []
  pz : List Nat := []
  deriving DecidableEq, Repr

/-- A barrier instance at its home (R205): the open phase's count is the length of `who`; `wdAt` is
1 + the cycle of its latest withdrawal (R212). -/
structure Bar where
  key : BarKey
  phase : BitVec 16 := 0
  n : Option Nat := none
  who : List Nat := []
  wdAt : Nat := 0
  deriving DecidableEq, Repr

/-- A timed domain (R369) with its swallow rate: `s0` up to cycle `fr`, `s` from there (R372). -/
structure Dom where
  num : Nat
  job : Nat
  kind : Nat
  clm : Nat
  qm : Nat
  rds : Nat
  wrs : Nat
  nts : Nat
  sms : Nat
  s : Nat := 0
  s0 : Nat := 0
  fr : Nat := 0
  deriving DecidableEq, Repr

/-! ## Links, host, management -/

inductive LinkSt where
  | x16 | x8 | x4 | retrain | lost
  deriving DecidableEq, Repr

/-- A fabric port (R433, R434): `wait` holds the packets of its output queue that may not be sent yet, and `owed` counts
the flits received since one sent carried an `ack`. -/
structure Port where
  st : LinkSt := .x16
  lanes : BitVec 16 := 0xFFFF
  grp : Nat := 0
  full : Bool := true
  since : Nat := 0
  txNext : Nat := 0
  replay : List Flit := []
  rxNext : Nat := 0
  replays : Nat := 0
  errs : Nat := 0
  wait : List FabPkt := []
  owed : Nat := 0
  deriving DecidableEq, Repr

/-- A fabric packet sent and not yet acknowledged (R431, R432). -/
structure TxPkt where
  pkt : FabPkt
  sent : Nat
  tries : Nat
  deriving DecidableEq, Repr

/-- The fabric as this package holds it (R428 to R435).  `lost` keeps the route entries as they stood before a port
was lost, by port × 2,048 + destination (R435, R476); `parts` the bytes of a message that has not arrived whole, by
its source; `rxAt` is 1 + the cycle since which a source's packets are delivered and not acknowledged (R431); `seam` is 0 for a Seam link that works, else 1 + the cycle it failed in (R424). -/
structure Fabric where
  route : Tbl Word := []
  ports : Tbl Port := []
  seam : Tbl Nat := []
  txSeq : Tbl Nat := []
  tx : List TxPkt := []
  rxNext : Tbl Nat := []
  rxBuf : List FabPkt := []
  rxOwed : Tbl Nat := []
  rxAt : Tbl Nat := []
  out : List FabPkt := []
  parts : Tbl (List Byte) := []
  lost : Tbl Word := []
  discards : Nat := 0
  deriving DecidableEq, Repr

/-- How a host's request completes (R466, R467). -/
inductive CplSt where
  | ok | poisoned | abort | unsupported
  deriving DecidableEq, Repr

/-- The mailbox of BAR0 (R475) and the state behind its commands.  `cpl` is the completion of the host's
latest read; `msix` the MSI-X messages sent, as function and vector, and `due` those that a thread's store asked for,
as queue page and vector; `owner` is 1 + the owning function of a queue page, 0 for none; `memErr` counts corrected errors of the second tier (0) and of Hamper memory (1) (R243); `pnext` a power state that
is to take effect, as 4 × its instant + the state; `up` says that boot has released the threads and the compute
dies. -/
structure Mgmt where
  cpl : Option (CplSt × List Byte) := none
  req : List Byte := []
  resp : List Byte := []
  busy : Bool := false
  res : Byte := 0
  boot : Byte := 0
  up : Bool := false
  measure : List Byte := []
  ver : BitVec 32 := 0
  svn : Nat := 0
  fusedSvn : Nat := 0
  report : List Byte := []
  offered : List Byte := []
  msix : List (Nat × Nat) := []
  due : List (Nat × Nat) := []
  wbase : Tbl Word := []
  tails : Tbl (BitVec 32) := []
  owner : Tbl Nat := []
  hbmErr : Tbl Nat := []
  memErr : Tbl Nat := []
  ethDrop : Tbl Nat := []
  ethDown : Tbl Bool := []
  cxlDown : Tbl Bool := []
  cxlCap : Tbl Nat := []
  pstate : Nat := 0
  pnext : Option Nat := none
  watts : Tbl Nat := []
  temp : Nat := 0
  hot : Bool := false
  dieCeil : Tbl Nat := []
  errs : Tbl Nat := []
  off : Bool := false
  deriving DecidableEq, Repr

/-- What the home of a page counts (R241), by the page's first 16 KiB frame: the job and the virtual page
it was reached by, the page's size, the atomics of each of the nine agents since the last check, and the
number of the last check. -/
structure PgCnt where
  job : Nat := 0
  va : Nat := 0
  size : Nat := 0
  cnt : Tbl Nat := []
  per : Nat := 0
  deriving DecidableEq, Repr

/-- A page that is being moved (R241): its virtual page, its leaf entry, its old and new frame. -/
structure Mig where
  va : Nat
  asid : Nat
  pteAt : Nat
  old : Nat
  new : Nat
  size : Nat
  deriving DecidableEq, Repr

/-- What an HBM stack has served of the frame `frame` (R232, R371): its read and write slots, those of them that each
timed domain took, and the initiator that a write slot went to last. -/
structure Stack where
  frame : Nat := 0
  rd : Nat := 0
  wr : Nat := 0
  domRd : Tbl Nat := []
  domWr : Tbl Nat := []
  last : Nat := 0
  deriving DecidableEq, Repr

/-- A write or an atomic of this package's HBM that another package sent, on its way to a write slot (R233): `addr` is where it is performed, `pos` counts
the bytes performed, and `bad` is the first granule of them whose read failed. -/
structure InStore where
  pkt : FabPkt
  addr : Nat
  pos : Nat := 0
  bad : Option Nat := none
  deriving DecidableEq, Repr

/-- An invalidation that another package asked for (R239): its requester and operands, and when it came. -/
structure TlbReq where
  pkg : Nat
  kind : Nat
  va : Nat
  asid : Nat
  since : Nat
  deriving DecidableEq, Repr

/-- Which agent moves next: the input from outside the state's own rules.  With none listed, the current
agent moves. -/
inductive Turn where
  | run (a : Agent)
  | event (i : Instr)
  | pass (n : Nat)
  deriving DecidableEq, Repr

/-- A message on its way out of the Hamper (R346): its destination word, whom its acknowledgement
concerns, a waiting thread or a Trigger Table entry, its number among the messages sent, and the rail of one that goes
by Ultra Ethernet Transport (R359). -/
structure Sent where
  dest : Word
  msg : Msg
  thr : Option Nat := none
  trg : Option Nat := none
  num : Nat := 0
  rail : Option Nat := none
  deriving DecidableEq, Repr

/-- The Hamper's own units; `frozen` lists the counters (0), triggers (1) and posts (2) that an error has frozen (R393),
and `sendNo` counts the messages that have left. -/
structure Hamper where
  threads : Tbl Thread := []
  ctr : Tbl Ctr := []
  trg : Tbl Trg := []
  posts : List Post := []
  unexp : List (Msg × Bool) := []
  ports : Tbl (List Msg) := []
  copies : List HCopy := []
  regions : Tbl Region := []
  permits : Tbl Nat := []
  links : List (Nat × Sent) := []
  sent : List Sent := []
  retained : List Nat := []
  frozen : List (Nat × Nat) := []
  waking : Tbl Nat := []
  sendNo : Nat := 0
  deriving DecidableEq, Repr

/-- An increment of a semaphore, or a decrement of a dependence counter, on its way: the core and the semaphore, or the
cluster and the slot; the amount; and who issued it, a package and its agent (R277). -/
structure Sig where
  unit : Nat
  idx : Nat
  amt : Nat
  src : Nat := 0
  mid : Nat := 0
  deriving DecidableEq, Repr

/-- A task that a kill has ended while writes of it were still on their way: it counts once they are performed (R193). -/
structure Ending where
  core : Nat
  key : Nat
  ident : Ident
  t0 : Nat
  deriving DecidableEq, Repr

/-- The schedulers' state: launches, their queues, named tasks, barriers, domains. -/
structure Sched where
  launches : List Launch := []
  leafQ : Tbl (List (Nat × Nat)) := []
  globQ : List (Nat × Nat) := []
  slots : Tbl NSlot := []
  yielded : List Yielded := []
  parked : List Ctx := []
  bars : List Bar := []
  barArr : List BarArr := []
  barWdr : List BarWdr := []
  barAns : List BarReply := []
  depOut : List Sig := []
  sigIn : List Sig := []
  doms : List Dom := []
  ending : List Ending := []
  retries : Tbl Nat := []
  deriving DecidableEq, Repr

/-- The package.  `hbm` holds what the stacks have served in the present frame, `inq` the stores of other packages that
wait for a write slot, `moved` the pages that have left a frame (R241), `tlbWant` the acknowledgements of other packages that
invalidations wait for, as kind, address, ASID and package, and `tlbOwed` those that this package owes (R239).  `lockstep` chooses how engines move (notes/assumptions/2.md); where they run beside their sequencers,
`seen` is the first cycle whose engine starts are still to be made. -/
structure State where
  now : Nat := 0
  slew : Word := 0
  slewTodo : Int := 0
  slewAt : Nat := 0
  pkgid : Nat := 0
  podid : BitVec 16 := 0
  cur : Agent := .core 0
  lockstep : Bool := true
  free : Nat := 0
  seen : Nat := 0
  sched : List Turn := []
  cores : Tbl Core := []
  mem : List Host.Cell := []
  poison : Tbl Bool := []
  jobs : Tbl Job := []
  hamper : Hamper := {}
  sch : Sched := {}
  mat : Tbl Word := []
  ctlb : Tbl (List Tlb) := []
  handles : Tbl (Option (BitVec 512)) := []
  pages : Tbl PgCnt := []
  migs : List Mig := []
  moved : List Mig := []
  hbm : Tbl Stack := []
  inq : List InStore := []
  tlbWant : List (Nat × Nat × Nat × Nat) := []
  tlbOwed : List TlbReq := []
  fab : Fabric := {}
  mgmt : Mgmt := {}
  frame : Nat := 0
  spares : Tbl Nat := []
  deriving DecidableEq, Repr

/-- Why the machine stops for good. -/
inductive Fault where
  /-- Raised by `step` once the module has reached 115 °C (R479): power is removed and all volatile
  state is lost, so there is no machine to step.  Safe: the model stops where the hardware does. -/
  | powerRemoved
  deriving DecidableEq, Repr

/-- Why a step is refused. -/
inductive Refusal where
  /-- Raised by an arm of `exec` whose instruction has no meaning yet.  Safe: nothing is claimed of it. -/
  | notModelled (mnemonic : String)
  deriving DecidableEq, Repr

/-- The package right after device reset (R8, R473). -/
def State.reset : State := {}

end Sys2Proof.Machine
end

