-- ==== Sys2Proof/Machine/Tbl.lean ====
section
/-! DEFINITION. Reading and writing a sparse table, keeping its canonical form: keys strictly rising and
no pair that holds the default. -/

namespace Sys2Proof.Machine

/-- The value at key `k`, or the default `d`. -/
def tget {α : Type} (d : α) : Tbl α → Nat → α
  | [], _ => d
  | (j, w) :: r, k => if j = k then w else tget d r k

/-- Puts a pair in its place, over one that has the same key. -/
def tput {α : Type} : Tbl α → Nat → α → Tbl α
  | [], k, v => [(k, v)]
  | (j, w) :: r, k, v =>
    if j < k then (j, w) :: tput r k v
    else if j = k then (k, v) :: r
    else (k, v) :: (j, w) :: r

/-- Writes the value at key `k`; writing the default removes the pair. -/
def tset {α : Type} [DecidableEq α] (d : α) (t : Tbl α) (k : Nat) (v : α) : Tbl α :=
  if v = d then t.filter (fun c => decide (c.1 ≠ k)) else tput t k v

/-- The canonical form, checked over the list. -/
def tableOk {α : Type} [DecidableEq α] (d : α) : Tbl α → Bool
  | [] => true
  | [(_, v)] => decide (v ≠ d)
  | (j, v) :: (k, w) :: r => decide (j < k) && decide (v ≠ d) && tableOk d ((k, w) :: r)

end Sys2Proof.Machine
end

