-- ==== Sys2Proof/Machine/Bits.lean ====
section
/-! DEFINITION. Bit fields, sign extension and byte order (R5, R10, R11). -/

namespace Sys2Proof.Machine

/-- `x[hi:lo]` of a natural number (R5). -/
def fld (x hi lo : Nat) : Nat := x / 2 ^ lo % 2 ^ (hi + 1 - lo)

/-- `x[hi:lo]` of a word. -/
def wfld (x : Word) (hi lo : Nat) : Nat := fld x.toNat hi lo

/-- A word from a natural number: a destination field keeps the low bits (R10). -/
def wOf (n : Nat) : Word := BitVec.ofNat 64 n

/-- A word from an integer, modulo 2⁶⁴. -/
def wOfInt (i : Int) : Word := BitVec.ofInt 64 i

def boolNat (b : Bool) : Nat := if b then 1 else 0

/-- `sext(x, n)` of R11. -/
def sextN (x n : Nat) : Int :=
  let y := x % 2 ^ n
  if 2 ^ (n - 1) ≤ y then (y : Int) - (2 ^ n : Nat) else (y : Int)

/-- `wrap(x, n)` of R11 for an integer. -/
def wrapI (x : Int) (n : Nat) : Nat := (x % ((2 ^ n : Nat) : Int)).toNat

/-- The value of bytes in little-endian order (R5). -/
def leNat : List Byte → Nat
  | [] => 0
  | b :: r => b.toNat + 256 * leNat r

/-- The k low bytes of a number in little-endian order (R5). -/
def leBytes : Nat → Nat → List Byte
  | 0, _ => []
  | k + 1, n => BitVec.ofNat 8 n :: leBytes k (n / 256)

/-- `status(d, code, detail)`: the status word (R11, R39). -/
def statusWord (code : Nat) (detail : Nat) : Word := wOf (code % 16 + detail % 2 ^ 48 * 2 ^ 16)

/-- All ones. -/
def ones64 : Word := 0xFFFFFFFFFFFFFFFF

/-- 2⁶³ | code: how a refusal is written to a result register. -/
def refusal63 (c : Nat) : Word := wOf (2 ^ 63 + c)

/-- Splits a list into its first n elements and the rest, by index: the list without element k. -/
def dropAt {α : Type} : List α → Nat → List α
  | [], _ => []
  | _ :: r, 0 => r
  | a :: r, k + 1 => a :: dropAt r k

/-- Replaces element k of a list. -/
def setAt {α : Type} : List α → Nat → α → List α
  | [], _, _ => []
  | _ :: r, 0, v => v :: r
  | a :: r, k + 1, v => a :: setAt r k v

/-- Element i, of width w bits, of a vector of bits (R24). -/
def getEl {n : Nat} (v : BitVec n) (w i : Nat) : Nat := v.toNat / 2 ^ (w * i) % 2 ^ w

/-- A register made of elements of w bits: element i is `f i`, for i below k (R24). -/
def mkEls (n w : Nat) (f : Nat → Nat) : Nat → BitVec n
  | 0 => 0
  | k + 1 => mkEls n w f k ||| (BitVec.ofNat n (f k % 2 ^ w) <<< (w * k))

end Sys2Proof.Machine
end

