-- ==== Sys2Proof/Machine/Mem.lean ====
section
/-! DEFINITION. The package's memory: HBM, the second tier and Hamper memory at their physical addresses
(R237), and every core's scratchpad (R217) at a key of the model's own, above every physical address
(notes/assumptions/5.md).  A byte that nothing has written reads 0 (notes/assumptions/4.md). -/

namespace Sys2Proof.Machine

/-- What an unlisted byte reads as (notes/assumptions/4.md, DESIGN CHOICE). -/
def memDefault : Byte := 0

/-- Reads one byte. -/
def memByte (m : List Host.Cell) (a : Nat) : Byte := tget memDefault m a

/-- Writes one byte, keeping the canonical form. -/
def memSet (m : List Host.Cell) (a : Nat) (b : Byte) : List Host.Cell := tset memDefault m a b

/-- The canonical form of memory: addresses strictly rising, and no entry that holds the default. -/
abbrev Memory.wf (m : List Host.Cell) : Bool := tableOk memDefault m

/-- Reads k bytes from address a upward. -/
def memRead (m : List Host.Cell) (a : Nat) : Nat → List Byte
  | 0 => []
  | k + 1 => memByte m a :: memRead m (a + 1) k

/-- Writes bytes from address a upward. -/
def memWrite (m : List Host.Cell) (a : Nat) : List Byte → List Host.Cell
  | [] => m
  | b :: r => memWrite (memSet m a b) (a + 1) r

/-- The little-endian number held by k bytes at a (R5). -/
def memNat (m : List Host.Cell) (a k : Nat) : Nat := leNat (memRead m a k)

/-- Writes (address, byte) pairs in list order. -/
def memWriteCells (m : List Host.Cell) : List (Nat × Byte) → List Host.Cell
  | [] => m
  | (a, b) :: r => memWriteCells (memSet m a b) r

/-- The key of byte `off` of core n's scratchpad. -/
def spadKey (n off : Nat) : Nat := 2 ^ 60 + n * 2 ^ 19 + off % 2 ^ 19

/-- The physical address of the second tier and of Hamper memory within a package (R237). -/
def cxlBase : Nat := 0x040000000000
def hamperBase : Nat := 0x100000000000

inductive MemKind where
  | hbm | cxl | hamper | spad | none
  deriving DecidableEq, Repr

/-- Which memory a local address lies in (R237). -/
def memKind (a : Nat) : MemKind :=
  if a < 0x010000000000 then .hbm
  else if 0x040000000000 ≤ a ∧ a < 0x080000000000 then .cxl
  else if 0x100000000000 ≤ a ∧ a < 0x100004000000 then .hamper
  else if 2 ^ 60 ≤ a ∧ a < 2 ^ 60 + 2 ^ 31 then .spad
  else .none

/-- The size of the poison granule that holds an address (R243). -/
def granule (a : Nat) : Nat := if memKind a = .cxl then 64 else 32

/-- The base of the granule that holds an address. -/
def granuleBase (a : Nat) : Nat := a / granule a * granule a

/-- Marks the granule at an address poisoned (R243). -/
def poisonGranule (p : Tbl Bool) (a : Nat) : Tbl Bool := tset false p (granuleBase a / 32) true

/-- Whether a byte lies in a poisoned granule. -/
def poisonedByte (p : Tbl Bool) (a : Nat) : Bool := tget false p (granuleBase a / 32)

/-- The first poisoned byte among k bytes from a upward. -/
def firstPoison (p : Tbl Bool) (a : Nat) : Nat → Option Nat
  | 0 => none
  | k + 1 => if poisonedByte p a then some a else firstPoison p (a + 1) k

/-- Clears the poison of each granule that the bytes [a, a + k) cover whole (R244): k bytes are walked,
and a granule is cleared at its first byte when its last byte is covered too. -/
def clearCovered (p : Tbl Bool) (a : Nat) : Nat → Tbl Bool
  | 0 => p
  | k + 1 =>
    let p := if granuleBase a = a ∧ granule a ≤ k + 1 then tset false p (a / 32) false else p
    clearCovered p (a + 1) k

/-- A write of bytes by a means that owns its memory: contents, and the poison it clears (R244). -/
def State.putBytes (s : State) (a : Nat) (bs : List Byte) : State :=
  { s with mem := memWrite s.mem a bs, poison := clearCovered s.poison a bs.length }

/-- Bytes of the package's memory. -/
def State.bytes (s : State) (a k : Nat) : List Byte := memRead s.mem a k

/-- A number in the package's memory. -/
def State.num (s : State) (a k : Nat) : Nat := memNat s.mem a k

end Sys2Proof.Machine
end

