-- ==== Sys2Proof/Machine/Flags.lean ====
section
/-! DEFINITION. Number formats, rounding and the arithmetic flags: the chapter Number formats and
arithmetic (R46 to R68).  A value is exact until `enc` rounds it (R54, R55). -/

namespace Sys2Proof.Machine

/-- A floating-point format (R47): exponent bits, fraction bits, bias, and which special values it has:
0 infinities and NaNs, 1 the one NaN of E4M3, 2 none. -/
structure Fmt where
  eb : Nat
  mb : Nat
  bias : Nat
  kind : Nat
  deriving DecidableEq, Repr

/-- The format of a type code of R84, for the codes 0 to 7. -/
def fmtOf (ty : Nat) : Fmt :=
  match ty with
  | 0 => ⟨8, 23, 127, 0⟩
  | 1 => ⟨8, 7, 127, 0⟩
  | 2 => ⟨5, 10, 15, 0⟩
  | 3 => ⟨4, 3, 7, 1⟩
  | 4 => ⟨5, 2, 15, 0⟩
  | 5 => ⟨3, 2, 3, 2⟩
  | 6 => ⟨2, 3, 1, 2⟩
  | _ => ⟨2, 1, 1, 2⟩

/-- A value (R46).  A finite magnitude is m·2^e; with `st` it lies strictly between m·2^e and (m+1)·2^e,
which is how a quotient or a root that is no binary fraction is held. -/
inductive Val where
  | nan (s : Bool) (signalling : Bool)
  | inf (s : Bool)
  | fin (s : Bool) (m : Nat) (e : Int) (st : Bool)
  deriving DecidableEq, Repr

/-- The flags in the bit order of `vflags`, and the state of the stochastic generator. -/
structure FpSt where
  fl : BitVec 6 := 0
  seed : Word := 1
  deriving DecidableEq, Repr

def flNx : BitVec 6 := 1
def flUf : BitVec 6 := 2
def flOf : BitVec 6 := 4
def flDz : BitVec 6 := 8
def flNv : BitVec 6 := 16
def flSat : BitVec 6 := 32

/-- Raises flags: they are only ever set (R62). -/
def FpSt.raise (s : FpSt) (f : BitVec 6) : FpSt := { s with fl := s.fl ||| f }

/-- One draw of the generator (R57). -/
def srand (s : FpSt) : Nat × FpSt :=
  let a := s.seed ^^^ (s.seed <<< 13)
  let b := a ^^^ (a >>> 7)
  let c := b ^^^ (b <<< 17)
  ((c >>> 48).toNat, { s with seed := c })

/-- The value of a pattern (R48), for the floating-point formats. -/
def dec (f : Fmt) (b : Nat) : Val :=
  let s := b.testBit (f.eb + f.mb)
  let ex := (b >>> f.mb) % 2 ^ f.eb
  let fr := b % 2 ^ f.mb
  if f.kind = 0 ∧ ex = 2 ^ f.eb - 1 then
    if fr = 0 then .inf s else .nan s (!fr.testBit (f.mb - 1))
  else if f.kind = 1 ∧ ex = 2 ^ f.eb - 1 ∧ fr = 2 ^ f.mb - 1 then .nan s false
  else if ex = 0 then .fin s fr (1 - (f.bias : Int) - f.mb) false
  else .fin s (fr + 2 ^ f.mb) ((ex : Int) - f.bias - f.mb) false

/-- The largest finite pattern, without its sign (R47). -/
def maxPat (f : Fmt) : Nat :=
  if f.kind = 0 then (2 ^ f.eb - 1) * 2 ^ f.mb - 1
  else if f.kind = 1 then 2 ^ (f.eb + f.mb) - 2
  else 2 ^ (f.eb + f.mb) - 1

/-- The sign bit of a format. -/
def signPat (f : Fmt) (s : Bool) : Nat := if s then 2 ^ (f.eb + f.mb) else 0

/-- The canonical NaN of a format that has one (R49). -/
def nanPat (f : Fmt) : Nat :=
  if f.kind = 0 then (2 ^ f.eb - 1) * 2 ^ f.mb + 2 ^ (f.mb - 1) else 2 ^ (f.eb + f.mb) - 1

/-- The infinity of a format that has one. -/
def infPat (f : Fmt) : Nat := (2 ^ f.eb - 1) * 2 ^ f.mb

/-- m·2^e as a multiple of 2^k: the floor, and whether something was left over. -/
def scaleTo (m : Nat) (e : Int) (st : Bool) (k : Int) : Nat × Bool :=
  if e ≥ k then (m <<< (e - k).toNat, st)
  else (m >>> (k - e).toNat, st || decide (m % 2 ^ (k - e).toNat ≠ 0))

/-- Whether a magnitude is above M·2^E. -/
def magAbove (m : Nat) (e : Int) (st : Bool) (M : Nat) (E : Int) : Bool :=
  let k := min e E
  let a := m <<< (e - k).toNat
  let b := M <<< (E - k).toNat
  decide (b < a) || (decide (a = b) && st)

/-- floor(log2 |x|) of a non-zero magnitude. -/
def magLog (m : Nat) (e : Int) : Int := (Nat.log2 m : Int) + e

/-- The rounding step shared by the float and integer targets: the magnitude in units of 2^k, rounded by
`rm`, and whether it was inexact.  `r` is the draw of mode 4 (R55, R56). -/
def roundUnits (s : Bool) (m : Nat) (e : Int) (st : Bool) (k : Int) (rm r : Nat) : Nat × Bool :=
  let (t, rest) := scaleTo m e st (k - 17)
  let lo := t >>> 17
  let fr := t % 2 ^ 17
  let inexact := decide (fr ≠ 0) || rest
  let up : Bool :=
    match rm with
    | 0 => decide (fr > 2 ^ 16) || (decide (fr = 2 ^ 16) && (rest || decide (lo % 2 = 1)))
    | 1 => false
    | 2 => inexact && !s
    | 3 => inexact && s
    | _ => inexact && decide (r < fr >>> 1)
  (if up then lo + 1 else lo, inexact)

/-- The result of a rounded magnitude above the largest finite one (R58). -/
def overflowPat (f : Fmt) (s : Bool) (rm : Nat) : Nat :=
  let toInf : Bool := decide (f.kind = 0) && (match rm with | 1 => false | 2 => !s | 3 => s | _ => true)
  signPat f s + (if toInf then infPat f else maxPat f)

/-- `special` of R55: the pattern for a NaN or an infinity, by the conversion matrix (R60). -/
def specialPat (f : Fmt) (x : Val) (nanz : Bool) (st : FpSt) : Nat × FpSt :=
  match x with
  | .nan s sig =>
    if f.kind = 2 then (if nanz then 0 else signPat f s + maxPat f, st.raise flNv)
    else (signPat f s + nanPat f, if sig then st.raise flNv else st)
  | .inf s =>
    if f.kind = 0 then (signPat f s + infPat f, st)
    else (signPat f s + maxPat f, st.raise flNv)
  | .fin _ _ _ _ => (0, st)

/-- `enc(f, x, rm)` for a floating-point format (R55 to R60). -/
def enc (f : Fmt) (x : Val) (rm : Nat) (nanz : Bool) (st : FpSt) : Nat × FpSt :=
  let (r, st) := if rm = 4 then srand st else (0, st)
  match x with
  | .fin s m e stk =>
    if m = 0 ∧ stk = false then (signPat f s, st) else
    let p : Int := f.mb + 1
    let emin : Int := 1 - f.bias
    let maxE : Int := (maxPat f >>> f.mb : Nat) - (f.bias : Int) - f.mb
    let maxM := maxPat f % 2 ^ f.mb + 2 ^ f.mb
    let rm' := if rm = 4 ∧ magAbove m e stk maxM maxE = true then 0 else rm
    let lg := magLog m e
    let ee := max lg emin
    let (n, inexact) := roundUnits s m e stk (ee - p + 1) rm' r
    let pat := (ee - emin).toNat * 2 ^ f.mb + n
    if pat > maxPat f then (overflowPat f s rm', st.raise (flOf ||| flNx))
    else
      let st := if inexact then st.raise flNx else st
      let st := if inexact ∧ lg < emin then st.raise flUf else st
      (signPat f s + pat, st)
  | _ => specialPat f x nanz st

/-- The limit of an integer type on the side of a sign (R55). -/
def intLimit (w : Nat) (signed s : Bool) : Nat :=
  if signed then (if s then 2 ^ (w - 1) else 2 ^ (w - 1) - 1) else (if s then 0 else 2 ^ w - 1)

/-- The w-bit pattern of a magnitude with a sign. -/
def intPat (w : Nat) (s : Bool) (n : Nat) : Nat := if s then (2 ^ w - n % 2 ^ w) % 2 ^ w else n % 2 ^ w

/-- `enc` for an integer target of w bits (R55, column D of R60). -/
def encInt (w : Nat) (signed : Bool) (x : Val) (rm : Nat) (st : FpSt) : Nat × FpSt :=
  let (r, st) := if rm = 4 then srand st else (0, st)
  match x with
  | .nan _ _ => (0, st.raise flNv)
  | .inf s => (intPat w s (intLimit w signed s), st.raise flNv)
  | .fin s m e stk =>
    let lim := intLimit w signed s
    let rm' := if rm = 4 ∧ magAbove m e stk lim 0 = true then 0 else rm
    let (n, inexact) := roundUnits s m e stk 0 rm' r
    if n > lim then (intPat w s lim, st.raise flNv)
    else (intPat w s n, if inexact then st.raise flNx else st)

/-! ## The arithmetic helpers (R54) -/

def Val.isNan : Val → Bool
  | .nan _ _ => true
  | _ => false

def Val.isSig : Val → Bool
  | .nan _ sig => sig
  | _ => false

def Val.isInf : Val → Bool
  | .inf _ => true
  | _ => false

def Val.sign : Val → Bool
  | .nan s _ => s
  | .inf s => s
  | .fin s _ _ _ => s

def Val.isZero : Val → Bool
  | .fin _ m _ st => decide (m = 0) && !st
  | _ => false

def Val.negate : Val → Val
  | .nan s g => .nan (!s) g
  | .inf s => .inf (!s)
  | .fin s m e st => .fin (!s) m e st

def Val.abs : Val → Val
  | .nan _ g => .nan false g
  | .inf _ => .inf false
  | .fin _ m e st => .fin false m e st

/-- The value of an integer. -/
def valOfInt (i : Int) : Val := .fin (decide (i < 0)) i.natAbs 0 false

/-- A signed magnitude as an integer multiple of 2^k, for k at or below its exponent. -/
def signedUnits (s : Bool) (m : Nat) (e k : Int) : Int :=
  let n : Int := (m <<< (e - k).toNat : Nat)
  if s then -n else n

def quietNan : Val := .nan false false

/-- `fadd(x, y, rm)`: the exact sum. -/
def fadd (x y : Val) (rm : Nat) (st : FpSt) : Val × FpSt :=
  let st := if x.isSig || y.isSig then st.raise flNv else st
  match x, y with
  | .nan _ _, _ => (quietNan, st)
  | _, .nan _ _ => (quietNan, st)
  | .inf a, .inf b => if a = b then (.inf a, st) else (quietNan, st.raise flNv)
  | .inf a, _ => (.inf a, st)
  | _, .inf b => (.inf b, st)
  | .fin a m e _, .fin b n g _ =>
    let k := min e g
    let t := signedUnits a m e k + signedUnits b n g k
    if t = 0 then
      (.fin (if a = b then a else decide (rm = 3)) 0 0 false, st)
    else (.fin (decide (t < 0)) t.natAbs k false, st)

/-- `fmul(x, y)`: the exact product. -/
def fmul (x y : Val) (st : FpSt) : Val × FpSt :=
  let st := if x.isSig || y.isSig then st.raise flNv else st
  let s := xor x.sign y.sign
  match x, y with
  | .nan _ _, _ => (quietNan, st)
  | _, .nan _ _ => (quietNan, st)
  | .inf _, y => if y.isZero then (quietNan, st.raise flNv) else (.inf s, st)
  | x, .inf _ => if x.isZero then (quietNan, st.raise flNv) else (.inf s, st)
  | .fin _ m e _, .fin _ n g _ => (.fin s (m * n) (e + g) false, st)

/-- `ffma(x, y, z, rm)`: the exact x·y + z. -/
def ffma (x y z : Val) (rm : Nat) (st : FpSt) : Val × FpSt :=
  let st := if x.isSig || y.isSig || z.isSig then st.raise flNv else st
  if (x.isInf && y.isZero) || (x.isZero && y.isInf) then (quietNan, st.raise flNv)
  else if x.isNan || y.isNan || z.isNan then (quietNan, st)
  else
    let (p, st) := fmul x y st
    fadd p z rm st

/-- `fdiv(x, y)`: the exact quotient. -/
def fdiv (x y : Val) (st : FpSt) : Val × FpSt :=
  let st := if x.isSig || y.isSig then st.raise flNv else st
  let s := xor x.sign y.sign
  match x, y with
  | .nan _ _, _ => (quietNan, st)
  | _, .nan _ _ => (quietNan, st)
  | .inf _, .inf _ => (quietNan, st.raise flNv)
  | .inf _, _ => (.inf s, st)
  | _, .inf _ => (.fin s 0 0 false, st)
  | .fin _ m e _, .fin _ n g _ =>
    if n = 0 then
      if m = 0 then (quietNan, st.raise flNv) else (.inf s, st.raise flDz)
    else if m = 0 then (.fin s 0 0 false, st)
    else
      let sh := 97 + Nat.log2 n
      let t := m <<< sh
      (.fin s (t / n) (e - g - sh) (decide (t % n ≠ 0)), st)

/-- The integer square root by trial bits, from bit k down. -/
def isqrtGo (n : Nat) : Nat → Nat → Nat
  | 0, r => if (r + 1) * (r + 1) ≤ n then r + 1 else r
  | k + 1, r =>
    let c := r + 2 ^ (k + 1)
    isqrtGo n k (if c * c ≤ n then c else r)

def isqrt (n : Nat) : Nat := isqrtGo n (Nat.log2 n / 2 + 1) 0

/-- `fsqrt(x)`: the exact square root. -/
def fsqrt (x : Val) (st : FpSt) : Val × FpSt :=
  match x with
  | .nan _ sig => (quietNan, if sig then st.raise flNv else st)
  | .inf s => if s then (quietNan, st.raise flNv) else (.inf false, st)
  | .fin s m e _ =>
    if m = 0 then (.fin s 0 0 false, st)
    else if s then (quietNan, st.raise flNv)
    else
      let (m, e) := if e % 2 = 0 then (m, e) else (2 * m, e - 1)
      let n := m <<< 160
      let r := isqrt n
      (.fin false r (e / 2 - 80) (decide (r * r ≠ n)), st)

/-- Orders two non-NaN values, with −0 below +0 when `zeros` is set (R122, R127). -/
def valLt (x y : Val) (zeros : Bool) : Bool :=
  match x, y with
  | .inf a, .inf b => a && !b
  | .inf a, _ => a
  | _, .inf b => !b
  | .fin a m e _, .fin b n g _ =>
    let k := min e g
    let i := signedUnits a m e k
    let j := signedUnits b n g k
    decide (i < j) || (zeros && decide (i = j) && a && !b)
  | _, _ => false

/-! ## Block scales and codebooks (R52, R53, R61, R64 to R68) -/

/-- `s24dec(b)` (R65). -/
def s24dec (b : Nat) : Val :=
  let s := b.testBit 23
  let e := (b >>> 15) % 256
  let f := b % 2 ^ 15
  if e = 255 then .nan s false
  else if e = 0 then .fin s f (-126 - 15) false
  else .fin s (f + 2 ^ 15) ((e : Int) - 127 - 15) false

/-- A BF16 pattern of a codebook entry as a value: a NaN entry decodes as a quiet NaN (R52). -/
def cbVal (pat : Nat) : Val :=
  match dec (fmtOf 1) pat with
  | .nan s _ => .nan s false
  | v => v

/-- The distance comparison of R61 between x and two entries: whether e is strictly nearer than g.
The comparison is exact: it is made on doubled magnitudes with the part beyond a held quotient as one
half unit. -/
def nearer (x e g : Val) : Bool :=
  match x, e, g with
  | .inf a, .inf b, .inf c => decide (a = b) && decide (a ≠ c)
  | .inf a, .inf b, _ => decide (a = b)
  | .inf _, _, _ => false
  | _, .inf _, _ => false
  | _, _, .inf _ => true
  | .fin a m i st, .fin b n j _, .fin c l k _ =>
    let q := min i (min j k) - 1
    let xv := signedUnits a (2 * m + (if st then 1 else 0)) (i - 1) q
    let ev := signedUnits b n j q
    let gv := signedUnits c l k q
    decide ((xv - ev).natAbs < (xv - gv).natAbs)
  | _, _, _ => false

/-- The value equality that decides `nx` in R61: a chosen entry that differs from x. -/
def sameVal (x e : Val) : Bool :=
  match x, e with
  | .inf a, .inf b => decide (a = b)
  | .fin a m i st, .fin b n j _ =>
    let q := min i j
    !st && decide (signedUnits a m i q = signedUnits b n j q)
  | _, _ => false

/-- Chooses the code of R61 among the entries, scanned from code k up: the best so far. -/
def cb4Go (x : Val) : List Nat → Nat → Option (Nat × Val) → Option (Nat × Val)
  | [], _, best => best
  | p :: r, k, best =>
    let v := cbVal p
    let best' := if v.isNan then best else
      match best with
      | none => some (k, v)
      | some (j, w) => if nearer x v w then some (k, v) else some (j, w)
    cb4Go x r (k + 1) best'

/-- The lowest code whose entry is a NaN. -/
def cbNanGo : List Nat → Nat → Option Nat
  | [], _ => none
  | p :: r, k => if (cbVal p).isNan then some k else cbNanGo r (k + 1)

/-- Encodes a value into CB4 with a codebook's sixteen entries (R61). -/
def encCb4 (cb : List Nat) (x : Val) (st : FpSt) : Nat × FpSt :=
  if x.isNan then
    match cbNanGo cb 0 with
    | some k => (k, st)
    | none => (0, st.raise flNv)
  else
    match cb4Go x cb 0 none with
    | some (k, v) => (k, if sameVal x v then st else st.raise flNx)
    | none => (0, st.raise flNv)

/-- fmax of R68 as a magnitude m·2^e: by format, 127·2⁻⁶ for I8, and the largest finite entry for CB4. -/
def cbMax (cb : List Nat) : Nat × Int :=
  cb.foldl (fun acc p =>
    match cbVal p with
    | .fin _ m e _ => if magAbove m e false acc.1 acc.2 then (m, e) else acc
    | _ => acc) (0, 0)

def fmaxOf (ty : Nat) (cb : List Nat) : Nat × Int :=
  if ty = 16 then (127, -6)
  else if ty = 8 then (let c := cbMax cb; if c.1 = 0 then (1, 0) else c)
  else
    let f := fmtOf ty
    (maxPat f % 2 ^ f.mb + 2 ^ f.mb, (maxPat f >>> f.mb : Nat) - (f.bias : Int) - f.mb)

/-- The least S24 pattern at or above num·2^e / den, for a non-zero num (R68). -/
def s24Ceil (num den : Nat) (e : Int) : Nat :=
  -- the exponent of the ratio, within one: |num/den| lies in [2^g, 2^(g+2))
  let g0 : Int := (Nat.log2 num : Int) - Nat.log2 den - 1 + e
  let fits (g : Int) : Bool :=  -- num·2^e ≥ den·2^g
    let k := min e g
    decide (num <<< (e - k).toNat ≥ den <<< (g - k).toNat)
  let g := if fits (g0 + 1) then g0 + 1 else g0
  let gg := max g (-126)
  -- the ratio in units of 2^(gg − 15), rounded up
  let k := min e (gg - 15)
  let a := num <<< (e - k).toNat
  let b := den <<< (gg - 15 - k).toNat
  let n := (a + b - 1) / b
  let pat := (gg + 126).toNat * 2 ^ 15 + n
  if pat > 0x7F7FFF then 0x7F7FFF else pat

/-- `mxscale(f, amax)` (R68). -/
def mxscale (ty : Nat) (cb : List Nat) (amax : Val) : Nat :=
  match amax with
  | .fin _ m e _ =>
    if m = 0 then 0x3F8000 else
    let (fm, fe) := fmaxOf ty cb
    s24Ceil m fm (e - fe)
  | _ => 0x7FC000

/-- The larger magnitude of two, a NaN winning (R157). -/
def amaxOf (x y : Val) : Val :=
  if x.isNan then x else if y.isNan then y
  else if valLt x.abs y.abs false then y.abs else x.abs

/-- x·2^k: exact, with no flag. -/
def Val.scaleBy (x : Val) (k : Int) : Val :=
  match x with
  | .fin s m e st => .fin s m (e + k) st
  | v => v

/-- The value of a code of an MX element type (R66); `cb` is the codebook of CB4. -/
def mxElem (ty : Nat) (cb : List Nat) (code : Nat) : Val :=
  if ty = 16 then (valOfInt (if code % 256 < 128 then (code % 256 : Nat) else (code % 256 : Nat) - 256)).scaleBy (-6)
  else if ty = 8 then cbVal (cb.getD (code % 16) 0)
  else dec (fmtOf ty) code

/-- The code an MX quantiser writes for a quotient (R157). -/
def mxCode (ty : Nat) (cb : List Nat) (q : Val) (rm : Nat) (nanz : Bool) (st : FpSt) : Nat × FpSt :=
  if ty = 16 then encInt 8 true (q.scaleBy 6) rm st
  else if ty = 8 then encCb4 cb q st
  else enc (fmtOf ty) q rm nanz st

end Sys2Proof.Machine
end

