-- ==== Sys2Proof/Machine/RvCode.lean ====
section
/-! DEFINITION. The RISC-V encodings of R14: the 32-bit words of RV64I, M, Zicsr, Zifencei, Zba and Zbb, and
the compressed forms, each expanded to the 32-bit word it stands for. -/

namespace Sys2Proof

/-! ## The 32-bit forms -/

/-- The codes of an operation in the OP and OP-32 opcodes: funct7 and funct3. -/
def aluCode : RvAlu → Nat × Nat
  | .add => (0, 0)
  | .sub => (0x20, 0)
  | .sll => (0, 1)
  | .slt => (0, 2)
  | .sltu => (0, 3)
  | .xor => (0, 4)
  | .srl => (0, 5)
  | .sra => (0x20, 5)
  | .or => (0, 6)
  | .and => (0, 7)
  | .mul => (1, 0)
  | .mulh => (1, 1)
  | .mulhsu => (1, 2)
  | .mulhu => (1, 3)
  | .div => (1, 4)
  | .divu => (1, 5)
  | .rem => (1, 6)
  | .remu => (1, 7)
  | .sh1add => (0x10, 2)
  | .sh2add => (0x10, 4)
  | .sh3add => (0x10, 6)
  | .andn => (0x20, 7)
  | .orn => (0x20, 6)
  | .xnor => (0x20, 4)
  | .max => (5, 6)
  | .maxu => (5, 7)
  | .min => (5, 4)
  | .minu => (5, 5)
  | .rol => (0x30, 1)
  | .ror => (0x30, 5)

def aluwCode : RvAluW → Nat × Nat
  | .addw => (0, 0)
  | .subw => (0x20, 0)
  | .sllw => (0, 1)
  | .srlw => (0, 5)
  | .sraw => (0x20, 5)
  | .mulw => (1, 0)
  | .divw => (1, 4)
  | .divuw => (1, 5)
  | .remw => (1, 6)
  | .remuw => (1, 7)
  | .adduw => (4, 0)
  | .sh1adduw => (0x10, 2)
  | .sh2adduw => (0x10, 4)
  | .sh3adduw => (0x10, 6)
  | .rolw => (0x30, 1)
  | .rorw => (0x30, 5)

def aluAll : List RvAlu :=
  [.add, .sub, .sll, .slt, .sltu, .xor, .srl, .sra, .or, .and, .mul, .mulh, .mulhsu, .mulhu, .div, .divu,
   .rem, .remu, .sh1add, .sh2add, .sh3add, .andn, .orn, .xnor, .max, .maxu, .min, .minu, .rol, .ror]

def aluwAll : List RvAluW :=
  [.addw, .subw, .sllw, .srlw, .sraw, .mulw, .divw, .divuw, .remw, .remuw, .adduw, .sh1adduw, .sh2adduw,
   .sh3adduw, .rolw, .rorw]

/-- Opcode and funct3 of an operation with an immediate. -/
def immCode : RvImm → Nat × Nat
  | .addi => (0x13, 0)
  | .slti => (0x13, 2)
  | .sltiu => (0x13, 3)
  | .xori => (0x13, 4)
  | .ori => (0x13, 6)
  | .andi => (0x13, 7)
  | .addiw => (0x1B, 0)

/-- Opcode, funct3 and the bits [31:26] above a six-bit shift amount. -/
def shiftCode : RvShift → Nat × Nat × Nat
  | .slli => (0x13, 1, 0)
  | .srli => (0x13, 5, 0)
  | .srai => (0x13, 5, 0x10)
  | .rori => (0x13, 5, 0x18)
  | .slliuw => (0x1B, 1, 2)
  | .slliw => (0x1B, 1, 0)
  | .srliw => (0x1B, 5, 0)
  | .sraiw => (0x1B, 5, 0x10)
  | .roriw => (0x1B, 5, 0x18)

/-- Whether a shift takes five bits of amount only. -/
def shiftIsW : RvShift → Bool
  | .slliw => true
  | .srliw => true
  | .sraiw => true
  | .roriw => true
  | _ => false

/-- Opcode, funct3 and the immediate field [31:20] of a one-source operation. -/
def unaryCode : RvUnary → Nat × Nat × Nat
  | .clz => (0x13, 1, 0x600)
  | .ctz => (0x13, 1, 0x601)
  | .cpop => (0x13, 1, 0x602)
  | .sextb => (0x13, 1, 0x604)
  | .sexth => (0x13, 1, 0x605)
  | .rev8 => (0x13, 5, 0x6B8)
  | .orcb => (0x13, 5, 0x287)
  | .clzw => (0x1B, 1, 0x600)
  | .ctzw => (0x1B, 1, 0x601)
  | .cpopw => (0x1B, 1, 0x602)
  | .zexth => (0x3B, 4, 0x080)

def unaryAll : List RvUnary := [.clz, .ctz, .cpop, .sextb, .sexth, .rev8, .orcb, .clzw, .ctzw, .cpopw, .zexth]
def immAll : List RvImm := [.addi, .slti, .sltiu, .xori, .ori, .andi, .addiw]
def shiftAll : List RvShift := [.slli, .srli, .srai, .rori, .slliuw, .slliw, .srliw, .sraiw, .roriw]

def branchCode : RvBranch → Nat
  | .beq => 0
  | .bne => 1
  | .blt => 4
  | .bge => 5
  | .bltu => 6
  | .bgeu => 7

def branchAll : List RvBranch := [.beq, .bne, .blt, .bge, .bltu, .bgeu]

/-- Bits [hi:lo] of a 32-bit word. -/
def b32 (w : BitVec 32) (hi lo : Nat) : Nat := w.toNat / 2 ^ lo % 2 ^ (hi + 1 - lo)
def r32 (w : BitVec 32) (lo : Nat) : BitVec 5 := w.extractLsb' lo 5

/-- The B-type offset, in bytes. -/
def offB (w : BitVec 32) : BitVec 13 :=
  w.extractLsb' 31 1 ++ w.extractLsb' 7 1 ++ w.extractLsb' 25 6 ++ w.extractLsb' 8 4 ++ 0#1

/-- The J-type offset, in bytes. -/
def offJ (w : BitVec 32) : BitVec 21 :=
  w.extractLsb' 31 1 ++ w.extractLsb' 12 8 ++ w.extractLsb' 20 1 ++ w.extractLsb' 21 10 ++ 0#1

/-- The word of an RV64 operation in its 32-bit form. -/
def encRv (o : RvOp) : BitVec 32 :=
  match o with
  | .alu k rd rs1 rs2 =>
    BitVec.ofNat 7 (aluCode k).1 ++ rs2 ++ rs1 ++ BitVec.ofNat 3 (aluCode k).2 ++ rd ++ 0x33#7
  | .aluw k rd rs1 rs2 =>
    BitVec.ofNat 7 (aluwCode k).1 ++ rs2 ++ rs1 ++ BitVec.ofNat 3 (aluwCode k).2 ++ rd ++ 0x3B#7
  | .imm k rd rs1 i => i ++ rs1 ++ BitVec.ofNat 3 (immCode k).2 ++ rd ++ BitVec.ofNat 7 (immCode k).1
  | .shift k rd rs1 sh =>
    BitVec.ofNat 6 (shiftCode k).2.2 ++ sh ++ rs1 ++ BitVec.ofNat 3 (shiftCode k).2.1 ++ rd ++
      BitVec.ofNat 7 (shiftCode k).1
  | .unary k rd rs1 =>
    BitVec.ofNat 12 (unaryCode k).2.2 ++ rs1 ++ BitVec.ofNat 3 (unaryCode k).2.1 ++ rd ++
      BitVec.ofNat 7 (unaryCode k).1
  | .lui rd i => i ++ rd ++ 0x37#7
  | .auipc rd i => i ++ rd ++ 0x17#7
  | .jal rd off =>
    off.extractLsb' 20 1 ++ off.extractLsb' 1 10 ++ off.extractLsb' 11 1 ++ off.extractLsb' 12 8 ++ rd ++ 0x6F#7
  | .jalr rd rs1 off => off ++ rs1 ++ 0#3 ++ rd ++ 0x67#7
  | .branch k rs1 rs2 off =>
    off.extractLsb' 12 1 ++ off.extractLsb' 5 6 ++ rs2 ++ rs1 ++ BitVec.ofNat 3 (branchCode k) ++
      off.extractLsb' 1 4 ++ off.extractLsb' 11 1 ++ 0x63#7

def encLoad (f : LoadF) : BitVec 32 := f.off ++ f.rs1 ++ f.f3 ++ f.rd ++ 0x03#7
def encStore (f : StoreF) : BitVec 32 :=
  f.off.extractLsb' 5 7 ++ f.rs2 ++ f.rs1 ++ f.f3 ++ f.off.extractLsb' 0 5 ++ 0x23#7
def encCsr (f : CsrF) : BitVec 32 := f.csr ++ f.rs1 ++ f.f3 ++ f.rd ++ 0x73#7
def encFence (f : FenceF) (f3 : BitVec 3) : BitVec 32 := f.hi ++ f3 ++ f.rd ++ 0x0F#7

/-- What an RV64 word is: an operation, or one of the instructions with a row of their own. -/
inductive RvDec where
  | op (o : RvOp)
  | load (f3 : BitVec 3) (rd rs1 : BitVec 5) (off : BitVec 12)
  | store (f3 : BitVec 3) (rs1 rs2 : BitVec 5) (off : BitVec 12)
  | csr (f : CsrF)
  | fence (f : FenceF)
  | fenceI (f : FenceF)
  | ecall
  | ebreak
  deriving DecidableEq, Repr

/-- Decodes the OP-IMM and OP-IMM-32 opcodes and zext.h: the one-source forms, the shifts, then the
immediates. -/
def decImm (w : BitVec 32) : Option RvDec :=
  let op := b32 w 6 0
  let f3 := b32 w 14 12
  let rd := r32 w 7
  let rs1 := r32 w 15
  match unaryAll.find? (fun k => decide (unaryCode k = (op, f3, b32 w 31 20))) with
  | some k => some (.op (.unary k rd rs1))
  | none =>
    match shiftAll.find? (fun k =>
        decide (shiftCode k = (op, f3, b32 w 31 26)) && (!shiftIsW k || decide (b32 w 25 25 = 0))) with
    | some k => some (.op (.shift k rd rs1 (w.extractLsb' 20 6)))
    | none =>
      match immAll.find? (fun k => decide (immCode k = (op, f3))) with
      | some k => some (.op (.imm k rd rs1 (w.extractLsb' 20 12)))
      | none => none

/-- Decodes a 32-bit word of R14; none for every other encoding (R15). -/
def decRv (w : BitVec 32) : Option RvDec :=
  let f3 := b32 w 14 12
  let f7 := b32 w 31 25
  let rd := r32 w 7
  let rs1 := r32 w 15
  let rs2 := r32 w 20
  match b32 w 6 0 with
  | 0x37 => some (.op (.lui rd (w.extractLsb' 12 20)))
  | 0x17 => some (.op (.auipc rd (w.extractLsb' 12 20)))
  | 0x6F => some (.op (.jal rd (offJ w)))
  | 0x67 => if f3 = 0 then some (.op (.jalr rd rs1 (w.extractLsb' 20 12))) else none
  | 0x63 => (branchAll.find? (fun k => decide (branchCode k = f3))).map (fun k => .op (.branch k rs1 rs2 (offB w)))
  | 0x03 => if f3 < 7 then some (.load (w.extractLsb' 12 3) rd rs1 (w.extractLsb' 20 12)) else none
  | 0x23 => if f3 < 4 then some (.store (w.extractLsb' 12 3) rs1 rs2 (w.extractLsb' 25 7 ++ rd)) else none
  | 0x13 => decImm w
  | 0x1B => decImm w
  | 0x33 => (aluAll.find? (fun k => decide (aluCode k = (f7, f3)))).map (fun k => .op (.alu k rd rs1 rs2))
  | 0x3B =>
    if f7 = 4 ∧ f3 = 4 then (if rs2 = 0 then some (.op (.unary .zexth rd rs1)) else none)
    else (aluwAll.find? (fun k => decide (aluwCode k = (f7, f3)))).map (fun k => .op (.aluw k rd rs1 rs2))
  | 0x0F =>
    if f3 = 0 then some (.fence ⟨w.extractLsb' 15 17, rd⟩)
    else if f3 = 1 then some (.fenceI ⟨w.extractLsb' 15 17, rd⟩) else none
  | 0x73 =>
    if w = 0x00000073 then some .ecall
    else if w = 0x00100073 then some .ebreak
    else if f3 ≠ 0 ∧ f3 ≠ 4 then some (.csr ⟨w.extractLsb' 20 12, w.extractLsb' 12 3, rs1, rd⟩)
    else none
  | _ => none

/-! ## The compressed forms -/

def c5 (h : BitVec 16) (lo : Nat) : BitVec 5 := h.extractLsb' lo 5
/-- A register of the three-bit fields: x8 to x15. -/
def c3 (h : BitVec 16) (lo : Nat) : BitVec 5 := 1#2 ++ h.extractLsb' lo 3

def cImm6 (h : BitVec 16) : BitVec 6 := h.extractLsb' 12 1 ++ h.extractLsb' 2 5
def cOffJ (h : BitVec 16) : BitVec 12 :=
  h.extractLsb' 12 1 ++ h.extractLsb' 8 1 ++ h.extractLsb' 9 2 ++ h.extractLsb' 6 1 ++ h.extractLsb' 7 1 ++
    h.extractLsb' 2 1 ++ h.extractLsb' 11 1 ++ h.extractLsb' 3 3 ++ 0#1
def cOffB (h : BitVec 16) : BitVec 9 :=
  h.extractLsb' 12 1 ++ h.extractLsb' 5 2 ++ h.extractLsb' 2 1 ++ h.extractLsb' 10 2 ++ h.extractLsb' 3 2 ++ 0#1
def cOffW (h : BitVec 16) : BitVec 12 :=
  0#5 ++ h.extractLsb' 5 1 ++ h.extractLsb' 10 3 ++ h.extractLsb' 6 1 ++ 0#2
def cOffD (h : BitVec 16) : BitVec 12 := 0#4 ++ h.extractLsb' 5 2 ++ h.extractLsb' 10 3 ++ 0#3

/-- Quadrant 0. -/
def expand0 (h : BitVec 16) : Option RvDec :=
  match (h.extractLsb' 13 3).toNat with
  | 0 =>
    let i : BitVec 12 := 0#2 ++ h.extractLsb' 7 4 ++ h.extractLsb' 11 2 ++ h.extractLsb' 5 1 ++ h.extractLsb' 6 1 ++ 0#2
    if i = 0 then none else some (.op (.imm .addi (c3 h 2) 2 i))
  | 2 => some (.load 2 (c3 h 2) (c3 h 7) (cOffW h))
  | 3 => some (.load 3 (c3 h 2) (c3 h 7) (cOffD h))
  | 6 => some (.store 2 (c3 h 7) (c3 h 2) (cOffW h))
  | 7 => some (.store 3 (c3 h 7) (c3 h 2) (cOffD h))
  | _ => none

/-- Quadrant 1. -/
def expand1 (h : BitVec 16) : Option RvDec :=
  let rd := c5 h 7
  let i6 := cImm6 h
  match (h.extractLsb' 13 3).toNat with
  | 0 => some (.op (.imm .addi rd rd (i6.signExtend 12)))
  | 1 => if rd = 0 then none else some (.op (.imm .addiw rd rd (i6.signExtend 12)))
  | 2 => some (.op (.imm .addi rd 0 (i6.signExtend 12)))
  | 3 =>
    if rd = 2 then
      let i : BitVec 10 := h.extractLsb' 12 1 ++ h.extractLsb' 3 2 ++ h.extractLsb' 5 1 ++ h.extractLsb' 2 1 ++
        h.extractLsb' 6 1 ++ 0#4
      if i = 0 then none else some (.op (.imm .addi 2 2 (i.signExtend 12)))
    else if i6 = 0 then none else some (.op (.lui rd (i6.signExtend 20)))
  | 4 =>
    let r := c3 h 7
    let r2 := c3 h 2
    match (h.extractLsb' 10 2).toNat with
    | 0 => some (.op (.shift .srli r r i6))
    | 1 => some (.op (.shift .srai r r i6))
    | 2 => some (.op (.imm .andi r r (i6.signExtend 12)))
    | _ =>
      match (h.extractLsb' 12 1 ++ h.extractLsb' 5 2).toNat with
      | 0 => some (.op (.alu .sub r r r2))
      | 1 => some (.op (.alu .xor r r r2))
      | 2 => some (.op (.alu .or r r r2))
      | 3 => some (.op (.alu .and r r r2))
      | 4 => some (.op (.aluw .subw r r r2))
      | 5 => some (.op (.aluw .addw r r r2))
      | _ => none
  | 5 => some (.op (.jal 0 ((cOffJ h).signExtend 21)))
  | 6 => some (.op (.branch .beq (c3 h 7) 0 ((cOffB h).signExtend 13)))
  | _ => some (.op (.branch .bne (c3 h 7) 0 ((cOffB h).signExtend 13)))

/-- Quadrant 2. -/
def expand2 (h : BitVec 16) : Option RvDec :=
  let rd := c5 h 7
  let r2 := c5 h 2
  match (h.extractLsb' 13 3).toNat with
  | 0 => some (.op (.shift .slli rd rd (cImm6 h)))
  | 2 =>
    if rd = 0 then none
    else some (.load 2 rd 2 (0#4 ++ h.extractLsb' 2 2 ++ h.extractLsb' 12 1 ++ h.extractLsb' 4 3 ++ 0#2))
  | 3 =>
    if rd = 0 then none
    else some (.load 3 rd 2 (0#3 ++ h.extractLsb' 2 3 ++ h.extractLsb' 12 1 ++ h.extractLsb' 5 2 ++ 0#3))
  | 4 =>
    if h.getLsbD 12 then
      if r2 = 0 then (if rd = 0 then some .ebreak else some (.op (.jalr 1 rd 0)))
      else some (.op (.alu .add rd rd r2))
    else if r2 = 0 then (if rd = 0 then none else some (.op (.jalr 0 rd 0)))
    else some (.op (.alu .add rd 0 r2))
  | 6 => some (.store 2 2 r2 (0#4 ++ h.extractLsb' 7 2 ++ h.extractLsb' 9 4 ++ 0#2))
  | 7 => some (.store 3 2 r2 (0#3 ++ h.extractLsb' 7 3 ++ h.extractLsb' 10 3 ++ 0#3))
  | _ => none

/-- What a 16-bit form stands for; none for an encoding that RV64C leaves reserved, the all-zero halfword
among them, and for the floating-point forms (R14, R78). -/
def expand16 (h : BitVec 16) : Option RvDec :=
  match (h.extractLsb' 0 2).toNat with
  | 0 => expand0 h
  | 1 => expand1 h
  | 2 => expand2 h
  | _ => none

end Sys2Proof
end

