-- ==== Sys2Proof/WellFormed.lean ====
section
/-! DEFINITION. Which instructions are well formed: every field rule of R82 to R86 and of the encoding
tables of the entries (R110, R117, R132, R163, R199, R246, R292, R296, R305, R314, R348, R396, R403, R449). -/

namespace Sys2Proof

/-! ## Type groups (R84, R116, R133) -/

/-- The width in bits of a type's element in a register; 0 for a reserved code.  A six-bit type has an
8-bit lane (R50). -/
def tyWidth (t : BitVec 5) : Nat :=
  match t.toNat with
  | 0 => 32
  | 1 => 16
  | 2 => 16
  | 3 => 8
  | 4 => 8
  | 5 => 8
  | 6 => 8
  | 7 => 4
  | 8 => 4
  | 16 => 8
  | 17 => 16
  | 18 => 32
  | 19 => 64
  | 20 => 8
  | 21 => 16
  | 22 => 32
  | 23 => 64
  | _ => 0

def tyF (t : BitVec 5) : Bool := decide (t.toNat ≤ 2)
def tyI (t : BitVec 5) : Bool := decide (16 ≤ t.toNat ∧ t.toNat ≤ 19)
def tyN (t : BitVec 5) : Bool := decide (20 ≤ t.toNat ∧ t.toNat ≤ 23)
def tyB (t : BitVec 5) : Bool := tyI t || tyN t
def tyFIN (t : BitVec 5) : Bool := tyF t || tyB t
def tyW (t : BitVec 5) : Bool := decide (tyWidth t ≠ 0)
def tyW8 (t : BitVec 5) : Bool := decide (8 ≤ tyWidth t)
def tyS6 (t : BitVec 5) : Bool := decide (t = 5 ∨ t = 6)
def tyMX (t : BitVec 5) : Bool := decide ((3 ≤ t.toNat ∧ t.toNat ≤ 8) ∨ t = 16)
/-- The types of `VCVT` (R151): every floating-point type but CB4, and the integers. -/
def tyCvt (t : BitVec 5) : Bool := decide (t.toNat ≤ 7) || tyB t
/-- The types of a vector load or store (R246). -/
def tyM (t : BitVec 5) : Bool := tyW t && !tyS6 t

/-! ## Format V (R83, R86) -/

/-- A predicate field: without `pe`, `pg` is 0. -/
def pgOk (pe : Bool) (pg : BitVec 3) : Bool := pe || decide (pg = 0)

/-- A register field that may name a spool: then bit 4 is 0. -/
def spoolField (isSpool : Bool) (r : BitVec 5) : Bool := !isSpool || decide (r.toNat < 16)

/-- The spool mode: `sa` and `sd` say whether the entry takes a spool as `a` and as `d`. A predicate never
stands with a spool destination (R119). -/
def smOk (sa sd : Bool) (pe : Bool) (sm : BitVec 2) (a d : BitVec 5) : Bool :=
  (sa || !sm.getLsbD 0) && (sd || !sm.getLsbD 1) && spoolField (sm.getLsbD 0) a &&
    spoolField (sm.getLsbD 1) d && (!(pe && sm.getLsbD 1))

/-- The fields every word of Format V is checked for: the type, the predicate, the spool mode. -/
def vBase (f : FmtV) (ty sa sd pred : Bool) : Bool :=
  ty && pgOk f.pe f.pg && (pred || !f.pe) && smOk sa sd f.pe f.sm f.a f.d

/-- Three-operand arithmetic: no `c`, no `fx`. -/
def vAB (f : FmtV) (ty : Bool) : Bool :=
  vBase f ty true true true && decide (f.c = 0) && !f.fx
def vABC (f : FmtV) (ty : Bool) : Bool := vBase f ty true true true && !f.fx
def vA (f : FmtV) (ty : Bool) : Bool :=
  vBase f ty true true true && decide (f.c = 0) && decide (f.b = 0) && !f.fx
/-- A shift or rotate: `fx` selects the scalar amount. -/
def vABx (f : FmtV) (ty : Bool) : Bool := vBase f ty true true true && decide (f.c = 0)
/-- A form selected by `fx`. -/
def vABfx (f : FmtV) (ty fx : Bool) : Bool :=
  vBase f ty true true true && decide (f.c = 0) && decide (f.fx = fx)
/-- A predicate operand's field. -/
def pField (r : BitVec 5) : Bool := decide (r.toNat < 8)
def vP3 (f : FmtV) : Bool :=
  decide (f.ty = 0) && !f.pe && decide (f.pg = 0) && decide (f.sm = 0) && !f.fx && decide (f.c = 0) &&
    pField f.d && pField f.a && pField f.b
def viBase (f : FmtVI) (ty sa sd pred : Bool) : Bool :=
  ty && pgOk f.pe f.pg && (pred || !f.pe) && smOk sa sd f.pe f.sm f.a f.d
/-- A vector load: a spool only as `d`, and never with a predicate (R119, R246). -/
def vmLd (f : FmtVM) (ty b0 : Bool) : Bool :=
  ty && pgOk f.pe f.pg && smOk false true f.pe f.sm f.a f.d && (!b0 || decide (f.b = 0))
/-- A vector store: a spool `d` is a source, so a predicate may stand with it (R119). -/
def vmSt (f : FmtVM) (ty b0 : Bool) : Bool :=
  ty && pgOk f.pe f.pg && smOk false true false f.sm f.a f.d && (!b0 || decide (f.b = 0))

/-- The part h of `VCVT` (R151). -/
def cvtParts (td ts : BitVec 5) : Nat :=
  let a := tyWidth td
  let b := tyWidth ts
  max a b / min a b

/-! ## Classes SQ, SY and NT (R80): `wait` and `sig` are 0 -/

def dBase (f : FmtD) : Bool := decide (f.wait = 0) && decide (f.sig = 0)
def qBase (f : FmtQ) : Bool := decide (f.wait = 0) && decide (f.sig = 0)

/-- Which operand fields of a Format D word must be 0. -/
def dZero (f : FmtD) (b a d : Bool) : Bool :=
  dBase f && (!b || decide (f.b = 0)) && (!a || decide (f.a = 0)) && (!d || decide (f.d = 0))
/-- Which operand fields of a Format Q word must be 0. -/
def qZero (f : FmtQ) (c b a d : Bool) : Bool :=
  qBase f && (!c || decide (f.c = 0)) && (!b || decide (f.b = 0)) && (!a || decide (f.a = 0)) &&
    (!d || decide (f.d = 0))

def barScope (n : Nat) : Bool := decide (2 ≤ n ∧ n ≤ 7)
/-- A barrier in Format D (R199). -/
def dBar (f : FmtD) : Bool := dZero f true false false && barScope f.aux.toNat
def qBar (f : FmtQ) : Bool := qZero f true true false false && barScope f.imm.toNat
def dFence (f : FmtD) (b : Bool) : Bool := dZero f b false true && decide (1 ≤ f.aux.toNat ∧ f.aux.toNat ≤ 8)
/-- `ENGRING` (R296): the operation in `imm`[6:4], the engine in `imm`[2:0]. -/
def qRing (f : FmtQ) (op : Nat) (ab : Bool) : Bool :=
  qZero f true ab ab false && decide (f.imm.toNat / 16 = op) && decide (f.imm.toNat % 16 < 4)
/-- A spool instruction (R305). -/
def qSpool (f : FmtQ) (a : Bool) (op : Nat) : Bool := qZero f true true a false && decide (f.imm.toNat / 16 = op)
def dTlb (f : FmtD) (kind : Nat) : Bool :=
  dZero f false false true && decide (f.aux.toNat / 16 = kind) &&
    decide (3 ≤ f.aux.toNat % 16 ∧ f.aux.toNat % 16 ≤ 6)

/-! ## Class MT (R163, R164, R178) -/

/-- The operand class of an MMA type: 1 16-bit, 2 8-bit, 3 4-bit, 0 none (R164). -/
def mmaClass (t : BitVec 5) : Nat :=
  if t = 1 ∨ t = 2 then 1
  else if (3 ≤ t.toNat ∧ t.toNat ≤ 6) ∨ t = 16 then 2
  else if t = 7 ∨ t = 8 then 3
  else 0

/-- `MMA`: both types of one class, and `.i8` only with a scaled form. -/
def mMma (f : FmtM) (fm : Nat) : Bool :=
  decide (f.fm.toNat = fm) && decide (f.aux = 0) && decide (mmaClass f.fa ≠ 0) &&
    decide (mmaClass f.fa = mmaClass f.fb) && (decide (2 ≤ fm) || (decide (f.fa ≠ 16) && decide (f.fb ≠ 16)))

/-- Which fields of a Format M word must be 0. -/
def mZero (f : FmtM) (fa fb fm aux b a t : Bool) : Bool :=
  (!fa || decide (f.fa = 0)) && (!fb || decide (f.fb = 0)) && (!fm || decide (f.fm = 0)) &&
    (!aux || decide (f.aux = 0)) && (!b || decide (f.b = 0)) && (!a || decide (f.a = 0)) && (!t || decide (f.t = 0))

def drainTy (t : BitVec 5) : Bool := decide (t.toNat ≤ 8) || decide (t = 16)

/-- `MHAD` (R163): the order in `aux`[1:0]; order 64 is for columns only. -/
def mHad (f : FmtM) (fm : Nat) : Bool :=
  mZero f true true false false true true false && decide (f.fm.toNat = fm) &&
    decide (f.aux.toNat ≤ (if fm = 0 then 1 else 2))
def mCopy (f : FmtM) (fm : Nat) : Bool :=
  mZero f true true false false true true false && decide (f.fm.toNat = fm) && decide (f.aux.toNat < 8)

/-! ## Class CP (R93, R314, R317) -/

/-- The pairs of op and type that R317 lists. -/
def atomPair (op ty : Nat) : Bool :=
  match op with
  | 0 => decide (ty = 18 ∨ ty = 19 ∨ ty = 0 ∨ ty = 1)
  | 1 => decide (ty = 18 ∨ ty = 19 ∨ ty = 22 ∨ ty = 23 ∨ ty = 0 ∨ ty = 1)
  | 2 => decide (ty = 18 ∨ ty = 19 ∨ ty = 22 ∨ ty = 23 ∨ ty = 0 ∨ ty = 1)
  | 3 => decide (ty = 22 ∨ ty = 23)
  | 4 => decide (ty = 22 ∨ ty = 23)
  | 5 => decide (ty = 22 ∨ ty = 23)
  | 6 => decide (ty = 22 ∨ ty = 23)
  | _ => false

/-- The fields of a command word for which the op's row of R314 gives a meaning and accepts the value. -/
def cmdFields (major : Nat) (f : FmtC) : Bool :=
  let fl := f.fl.toNat
  let aux := f.aux.toNat
  match major with
  | 1 => decide (fl < 2) && decide (aux = 0)
  | 2 => decide (fl < 2) && decide (aux < 4) && (decide (fl = 0) || decide (aux = 0))
  | 4 => decide (fl < 4) && decide (aux = 0)
  | 5 => decide (fl = 0) && decide (aux < 512) && atomPair (aux % 16) (aux / 16)
  | 6 => decide (fl = 0) && decide (aux < 512) && atomPair (aux % 16) (aux / 16)
  | 7 => decide (fl = 0) && (decide (aux = 22 * 16) || decide (aux = 23 * 16))
  | 8 => decide (fl = 0) && decide (aux < 512) && decide (aux % 16 < 3) && atomPair (aux % 16) (aux / 16)
  | 11 => decide (fl < 2) && decide (aux = 0)
  | 12 => decide (fl < 2) && decide (aux = 0)
  | 13 => decide (fl < 2) && decide (aux = 0)
  | _ => decide (fl = 0) && decide (aux = 0)

/-- The head of a copy packet as R93 checks it. -/
def headOk (major : Nat) (f : FmtC) : Bool := decide (f.eng ≠ 3) && cmdFields major f
def cpOk (p : Packet) (major : Nat) : Bool := headOk major p.cmd

/-! ## RISC-V -/

/-- The operands a 32-bit form can hold: even branch and jump offsets, five-bit amounts for the W shifts. -/
def rvOk : RvOp → Bool
  | .shift k _ _ sh => !shiftIsW k || decide (sh.toNat < 32)
  | .jal _ off => decide (off.toNat % 2 = 0)
  | .branch _ _ _ off => decide (off.toNat % 2 = 0)
  | _ => true

/-- A compressed form is well formed when it stands for the instruction that carries it. -/
def encOk (e : RvEnc) (d : RvDec) : Bool :=
  match e with
  | .w32 => true
  | .c16 h => decide (expand16 h = some d)

def csrF3 (f : BitVec 3) : Bool := decide (f ≠ 0) && decide (f ≠ 4)

/-- Whether a CSR instruction writes (R42): with rs1 = x0, or a zero immediate, the set and clear forms do
not. -/
def CsrF.writes (f : CsrF) : Bool := decide (f.f3 = 1) || decide (f.f3 = 5) || decide (f.rs1 ≠ 0)

/-- A write of a bank format: the row of its own that R45 gives it. -/
def CsrF.isBfmtWrite (f : CsrF) : Bool := decide (0x820 ≤ f.csr.toNat ∧ f.csr.toNat ≤ 0x82F) && f.writes

/-- Every field of an instruction is one that its entry accepts (R82).  A step that is not an instruction
has no encoding and is always well formed (notes/assumptions/15.md). -/
def Instr.wf : Instr → Bool
  | .scalarLoad f => decide (f.f3 ≠ 7) && encOk f.enc (.load f.f3 f.rd f.rs1 f.off)
  | .scalarStore f => decide (f.f3.toNat < 4) && encOk f.enc (.store f.f3 f.rs1 f.rs2 f.off)
  | .rv64IntegerOp o e => rvOk o && encOk e (.op o)
  | .csrAccess f => csrF3 f.f3 && !f.isBfmtWrite
  | .bfmtWrite f => csrF3 f.f3 && f.isBfmtWrite
  | .sleepu f => dZero f true true true && decide (f.aux = 0)
  | .engdl f => qZero f true true false true && decide (f.imm.toNat < 5)
  | .engst f => qZero f true true true false && decide (f.imm.toNat < 16) && !f.imm.getLsbD 2
  | .engsync f => dZero f true true true && decide (1 ≤ f.aux.toNat ∧ f.aux.toNat < 16)
  | .semwait f => dZero f false true false && decide (f.b.toNat < 4)
  | .semsig f => qZero f true true true true && decide (f.imm.toNat < 256)
  | .semadd f => qZero f true true false true && decide (f.imm.toNat < 256)
  | .semrd f => qZero f true true true false && decide (f.imm.toNat < 256)
  | .engringOff f => qRing f 0 true
  | .engringOn f => qRing f 1 false
  | .engringGo f => qRing f 2 true
  | .engringSkip f => qRing f 3 true
  | .engringDrop f => qRing f 4 true
  | .slcfg f => qSpool f false 0
  | .sladvCons f => qSpool f false 0
  | .sladvProd f => qSpool f false 1
  | .sltokRd f => qSpool f true 0
  | .sltokPut f => qSpool f true 1
  | .sltokTake f => qSpool f true 2
  | .bar f => dBar f
  | .bara f => qBar f
  | .barw f => dBar f
  | .barx f => qBar f
  | .tlaunch f => dZero f true false false && decide (f.aux = 0)
  | .texit f => qZero f true true true true && decide (f.imm = 0)
  | .tyield f => qZero f true true true false && decide (f.imm = 0)
  | .tarm f => qZero f true false false false && decide (f.imm = 0)
  | .mark f => qZero f true true true true && decide (f.imm = 0)
  | .pfence f => dFence f true
  | .xfence f => dFence f false
  | .dld f => dZero f true false false && decide (f.aux.toNat < 7)
  | .taglk f => qZero f true true false false && decide (f.imm = 0)
  | .tagset f => qZero f true false false false && decide (f.imm = 0)
  | .tagclr f => qZero f true true false false && decide (f.imm = 0)
  | .tagclrAll f => qZero f true true false false && decide (f.imm = 1)
  | .tagvic f => qZero f true true true false && decide (f.imm = 0)
  | .cpput f => dZero f true false false && decide (f.aux = 0)
  | .cpputP f => dZero f true false false && decide (f.aux = 1)
  | .tret f => qZero f true true true true && decide (f.imm = 0)
  | .tretSkip f => qZero f true true true true && decide (f.imm = 1)
  | .cutrd f => qZero f true true true false && decide (f.imm.toNat < 11)
  | .ctxswap f => qZero f true false false false && decide (f.imm = 0)
  | .ctxsave f => dZero f true false true && decide (f.aux = 0)
  | .ctxsaveKeep f => dZero f true false true && decide (f.aux = 1)
  | .ctxload f => dZero f false false true && decide (f.aux = 0)
  | .sbset f => qZero f true false false false && decide (f.imm = 0)
  | .tkill f => qZero f true false false false && decide (f.imm = 0)
  | .matset f => qZero f true false false false && decide (f.imm = 0)
  | .tlbinvPg f => dTlb f 0
  | .tlbinvAs f => dTlb f 1
  | .tlbinvAll f => dTlb f 2
  | .hreq f => qZero f true true false false && decide (f.imm = 0)
  | .vadd f => vAB f (tyFIN f.ty)
  | .vsub f => vAB f (tyFIN f.ty)
  | .vmul f => vAB f (tyFIN f.ty)
  | .vmulh f => vAB f (tyB f.ty)
  | .vfma f => vABC f (tyF f.ty)
  | .vfms f => vABC f (tyF f.ty)
  | .vfnma f => vABC f (tyF f.ty)
  | .vdiv f => vAB f (tyFIN f.ty)
  | .vsqrt f => vA f (tyF f.ty)
  | .vmin f => vAB f (tyFIN f.ty)
  | .vmax f => vAB f (tyFIN f.ty)
  | .vabs f => vA f (tyF f.ty || tyI f.ty)
  | .vneg f => vA f (tyF f.ty || tyI f.ty)
  | .vadds f => vAB f (tyB f.ty)
  | .vsubs f => vAB f (tyB f.ty)
  | .vshl f => vABx f (tyB f.ty)
  | .vshr f => vABx f (tyB f.ty)
  | .vsra f => vABx f (tyI f.ty)
  | .vaddi f => viBase f (tyB f.ty) true true true
  | .vcmp f => vBase f (tyFIN f.ty) true false true && !f.fx && pField f.d &&
      decide (f.c.toNat < (if tyF f.ty then 8 else 6))
  | .vredsum f => vA f (tyFIN f.ty)
  | .vredmin f => vA f (tyFIN f.ty)
  | .vredmax f => vA f (tyFIN f.ty)
  | .vand f => vABfx f (tyB f.ty) false
  | .vandNb f => vABfx f (tyB f.ty) true
  | .vor f => vABfx f (tyB f.ty) false
  | .vorNb f => vABfx f (tyB f.ty) true
  | .vxor f => vABfx f (tyB f.ty) false
  | .vxorNb f => vABfx f (tyB f.ty) true
  | .vfsh f => vBase f (tyB f.ty) true true true
  | .vfshw f => vBase f (decide (f.ty = 0)) true true false && !f.fx
  | .vrot f => vABx f (tyB f.ty)
  | .vpopc f => vA f (tyB f.ty)
  | .vclz f => vA f (tyB f.ty)
  | .vlrot f => viBase f (tyW f.ty) true true true
  | .vshuf f => vAB f (tyW8 f.ty)
  | .vslide f => viBase f (tyW f.ty) true true true
  | .vbcast f => vBase f (tyW f.ty) false true true && decide (f.c = 0) && !f.fx
  | .vbcastEl f => vBase f (tyW f.ty) false true true && decide (f.c = 0) && f.fx
  | .vzip f => vABfx f (tyW f.ty) false
  | .vzipHi f => vABfx f (tyW f.ty) true
  | .vunzip f => vABfx f (tyW f.ty) false
  | .vunzipOdd f => vABfx f (tyW f.ty) true
  | .vsel f => vBase f (tyW f.ty) true false true && decide (f.c = 0) && !f.fx && f.pe
  | .vmvx f => vBase f (tyW8 f.ty) false false false && decide (f.c = 0) && !f.fx
  | .vmxv f => vBase f (tyW8 f.ty) false false false && decide (f.c = 0) && !f.fx
  | .pand f => vP3 f
  | .por f => vP3 f
  | .pxor f => vP3 f
  | .pandn f => vP3 f
  | .pset f => viBase f (tyW f.ty) false false false && pField f.d
  | .pcnt f => vBase f (tyW f.ty) false false false && decide (f.c = 0) && decide (f.b = 0) && !f.fx && pField f.a
  | .vcvt f => vBase f (tyCvt f.ty) true true true && tyCvt f.c && !f.fx && decide (f.b.toNat < cvtParts f.ty f.c)
  | .vcvtSat f => vBase f (tyB f.ty) true true true && tyB f.c && f.fx && decide (f.b.toNat < cvtParts f.ty f.c)
  | .vpack f => vBase f (tyS6 f.ty) false true false && decide (f.c = 0) && !f.fx && decide (f.a.toNat ≤ 28) &&
      decide (f.b.toNat < 3)
  | .vunpk f => vBase f (tyS6 f.ty) false true false && decide (f.c = 0) && !f.fx && decide (f.a.toNat ≤ 29) &&
      decide (f.b.toNat < 4)
  | .vqmx f => vBase f (tyMX f.ty) true true false && !f.fx
  | .vdqmx f => vBase f (tyMX f.ty) true true true && !f.fx
  | .vcbl f => vBase f (decide (f.ty.toNat < 2)) true true true && !f.fx && decide (f.c.toNat < 16) &&
      decide (f.b.toNat < tyWidth f.ty / 4)
  | .vcblEnc f => vBase f (decide (f.ty.toNat < 2)) true true true && f.fx && decide (f.c.toNat < 16) &&
      decide (f.b.toNat < tyWidth f.ty / 4)
  | .vld f => vmLd f (tyM f.ty) true
  | .vlds f => vmLd f (tyM f.ty && tyW8 f.ty) false
  | .vldx f => vmLd f (tyM f.ty && tyW8 f.ty) false
  | .vst f => vmSt f (tyM f.ty) true
  | .vsts f => vmSt f (tyM f.ty && tyW8 f.ty) false
  | .vstx f => vmSt f (tyM f.ty && tyW8 f.ty) false
  | .vldw f => decide (f.aux = 0) && decide (f.b = 0)
  | .vtrd f => decide (f.aux = 0) && decide (f.b = 0)
  | .mmaAcc f => mMma f 0
  | .mmaOvw f => mMma f 1
  | .mmaSacc f => mMma f 2
  | .mmaSovw f => mMma f 3
  | .mzero f => mZero f true true true true true true false
  | .mcfg f => mZero f true true true true true false false
  | .mgetr f => mZero f true true true true false false false
  | .msetr f => mZero f true true true true false false false
  | .mgetc f => mZero f true true true false false false false && decide (f.aux.toNat < 2)
  | .msetc f => mZero f true true true false false false false && decide (f.aux.toNat < 2)
  | .mload f => mZero f false true true true false false false && decide (f.fa.toNat < 3)
  | .mhadRow f => mHad f 0
  | .mhadCol f => mHad f 1
  | .mdrain f => mZero f false true true false false false false && drainTy f.fa && decide (f.aux.toNat % 8 < 5)
  | .mcbld f => mZero f true true true false true false true
  | .mbind f => mZero f false false true true true false true && decide (mmaClass f.fa = 3) &&
      decide (mmaClass f.fb = 3)
  | .mcopy f => mCopy f 0
  | .mcopyAdd f => mCopy f 1
  | .copy p => cpOk p 1
  | .tcopyRd p => cpOk p 2 && !p.cmd.fl.getLsbD 0
  | .tcopyWr p => cpOk p 2 && p.cmd.fl.getLsbD 0
  | .im2colw p => cpOk p 3
  | .fill p => cpOk p 4
  | .accw p => cpOk p 5
  | .fop p => cpOk p 6
  | .cas p => cpOk p 7
  | .redcopy p => cpOk p 8
  | .mcast p => cpOk p 9
  | .amcast p => cpOk p 10
  | .spfill p => cpOk p 11
  | .spdrain p => cpOk p 12
  | .qappend p => cpOk p 13
  | .sigrem p => cpOk p 14
  | .hamperScalarAccess st f3 r rs1 off e =>
    if st then decide (f3.toNat < 4) && encOk e (.store f3 rs1 r off)
    else decide (f3 ≠ 7) && encOk e (.load f3 r rs1 off)
  | .nrecv f => dBase f
  | .nsend f => dZero f false false true && decide (f.aux = 0)
  | .nprobe f => dZero f true false false
  | .npost f => qZero f true true false false && decide (f.imm = 0)
  | .npostCancel f => qZero f true true false false && decide (f.imm = 1)
  | .trgarm f => qZero f false false false false && decide (f.imm = 0)
  | .trgdis f => qZero f true true false false && decide (f.imm = 0)
  | .trgrd f => qZero f true true false false && decide (f.imm = 0)
  | .trgrdBlk f => qZero f true true false false && decide (f.imm = 1)
  | .ctradd f => qZero f true false false false && decide (f.imm = 0)
  | .ctrrd f => qZero f true true false false && decide (f.imm = 0)
  | .ctrwait f => dZero f false false false && decide (f.aux = 0)
  | .ctrset f => qZero f true false false false && decide (f.imm = 0)
  | .nlaunch f => qZero f true false false false && decide (f.imm = 0)
  | .ncopy f => dZero f true false false && decide (f.aux = 0)
  | .collst f => qZero f true true false false && decide (f.imm = 0)
  | .jcfgHandle f => qZero f true false false false && decide (f.imm = 0)
  | .jcfgWindowTemplate f => qZero f true false false false && decide (f.imm = 0)
  | .jcfgWindowContext f => qZero f true false false false && decide (f.imm = 0)
  | .haltgo f => qZero f true true true false && decide (f.imm = 0)
  | .hstep f => qZero f true true false false && decide (f.imm.toNat < 5)
  | .hresume f => qZero f true true false false && decide (f.imm = 0)
  | .hcause f => qZero f true true false false && decide (f.imm.toNat < 12)
  | .hcauseCore f => qZero f true true false false && decide (16 ≤ f.imm.toNat ∧ f.imm.toNat < 27)
  | _ => true

end Sys2Proof
end

