-- ==== Sys2Proof/Machine/Operands.lean ====
section
/-! DEFINITION. Operands: elements, predicates, what a vector instruction reads and what it makes, and the
element-wise effect (R24, R25, R118 to R120). -/

namespace Sys2Proof.Machine

/-- Whether element i of width w is active under a predicate (R25). -/
def activeEl (p : PReg) (w i : Nat) : Bool := if w = 4 then p.getLsbD (i / 2) else p.getLsbD (i * w / 8)

/-- The number of elements of width w (R24). -/
def elCount (w : Nat) : Nat := 1024 / w

/-- Replaces element i of width w. -/
def setEl (v : VReg) (w i x : Nat) : VReg :=
  (v &&& ~~~(BitVec.ofNat 1024 (2 ^ w - 1) <<< (w * i))) ||| (BitVec.ofNat 1024 (x % 2 ^ w) <<< (w * i))

/-- What a vector instruction reads at its start: its sources, the predicate (all ones when there is none),
its scalar operands, the rounding mode and `nanz` at issue, the codebooks, and the flags and the
generator (R12, R57, R63). -/
structure VIn where
  a : VReg := 0
  b : VReg := 0
  c : VReg := 0
  d : VReg := 0
  a1 : VReg := 0
  a2 : VReg := 0
  a3 : VReg := 0
  act : PReg := BitVec.allOnes 128
  pa : PReg := 0
  pb : PReg := 0
  pd : PReg := 0
  xa : Word := 0
  xb : Word := 0
  xc : Word := 0
  rm : Nat := 0
  nanz : Bool := false
  cb : Nat → List Nat := fun _ => []
  fp : FpSt := {}

/-- What a vector instruction makes: a vector, a predicate, a scalar, a vector with a scale (`VQMX`), or
one vector element of an otherwise unchanged register. -/
inductive VDst where
  | vec (v : VReg)
  | pred (p : PReg)
  | scal (x : Word)
  | vecScal (v : VReg) (x : Word)
  deriving DecidableEq, Repr

structure VOut where
  dst : VDst
  fp : FpSt
  deriving DecidableEq, Repr

/-- The element-wise effect (R120): the active elements below k, in ascending order. -/
def elemGo (w : Nat) (act : Nat → Bool) (f : Nat → FpSt → Nat × FpSt) : Nat → VReg × FpSt → VReg × FpSt
  | 0, r => r
  | k + 1, r =>
    let r := elemGo w act f k r
    if act k then
      let o := f k r.2
      (setEl r.1 w k o.1, o.2)
    else r

/-- An element-wise instruction at width w (R120). -/
def elementwise (o : VIn) (w : Nat) (f : Nat → FpSt → Nat × FpSt) : VOut :=
  let r := elemGo w (activeEl o.act w) f (elCount w) (o.d, o.fp)
  { dst := .vec r.1, fp := r.2 }

/-- The same for an operation without flags. -/
def elementwise' (o : VIn) (w : Nat) (f : Nat → Nat) : VOut := elementwise o w (fun i st => (f i, st))

/-- Element i of an operand at width w, as the unsigned pattern. -/
def el (v : VReg) (w i : Nat) : Nat := getEl v w i

/-- Element i as an integer of a type (R120). -/
def elInt (t : BitVec 5) (v : VReg) (i : Nat) : Int :=
  let w := tyWidth t
  if tyI t then sextN (getEl v w i) w else (getEl v w i : Int)

/-- Element i decoded in a floating-point type (R120). -/
def elVal (t : BitVec 5) (v : VReg) (i : Nat) : Val := dec (fmtOf t.toNat) (getEl v (tyWidth t) i)

/-- Encodes a floating-point result (R120, R121). -/
def encEl (o : VIn) (t : BitVec 5) (x : Val) (st : FpSt) : Nat × FpSt := enc (fmtOf t.toNat) x o.rm o.nanz st

/-- `sat_i` and `sat_n` of R11, by type. -/
def satTo (t : BitVec 5) (x : Int) (st : FpSt) : Nat × FpSt :=
  let w := tyWidth t
  let lo : Int := if tyI t then -(2 ^ (w - 1) : Nat) else 0
  let hi : Int := if tyI t then (2 ^ (w - 1) : Nat) - 1 else (2 ^ w : Nat) - 1
  if x < lo then (wrapI lo w, st.raise flSat)
  else if hi < x then (wrapI hi w, st.raise flSat)
  else (wrapI x w, st)

/-! ## Copy packets -/

/-- k bytes of the parameters, from byte `lo` of the packet (R94). -/
def Packet.par' (p : Packet) (lo k : Nat) : Nat := p.par.toNat / 2 ^ (8 * (lo - 24)) % 2 ^ (8 * k)

end Sys2Proof.Machine
end

