-- ==== Sys2Proof/Machine/VArith.lean ====
section
/-! DEFINITION. Vector arithmetic: the effect of each instruction of R117 on what it reads (R120 to R128). -/

namespace Sys2Proof.Machine

/-- A floating-point operation of two operands, or an integer one, by type (R121, R124). -/
def arith2 (t : BitVec 5) (o : VIn) (ff : Val → Val → FpSt → Val × FpSt) (fi : Int → Int → Int) : VOut :=
  let w := tyWidth t
  elementwise o w (fun i st =>
    if tyF t then
      let r := ff (elVal t o.a i) (elVal t o.b i) st
      encEl o t r.1 r.2
    else (wrapI (fi (elInt t o.a i) (elInt t o.b i)) w, st))

def effVadd (f : FmtV) (o : VIn) : VOut := arith2 f.ty o (fun x y st => fadd x y o.rm st) (fun x y => x + y)
def effVsub (f : FmtV) (o : VIn) : VOut := arith2 f.ty o (fun x y st => fadd x y.negate o.rm st) (fun x y => x - y)
def effVmul (f : FmtV) (o : VIn) : VOut := arith2 f.ty o fmul (fun x y => x * y)

/-- `VMULH`: the high w bits of the exact product (R124). -/
def effVmulh (f : FmtV) (o : VIn) : VOut :=
  let w := tyWidth f.ty
  elementwise' o w (fun i => wrapI (elInt f.ty o.a i * elInt f.ty o.b i / (2 ^ w : Nat)) w)

/-- A fused multiply-add with optional sign flips of the product and the addend (R121). -/
def fused (t : BitVec 5) (o : VIn) (na nc : Bool) : VOut :=
  elementwise o (tyWidth t) (fun i st =>
    let x := elVal t o.a i
    let z := elVal t o.c i
    let r := ffma (if na then x.negate else x) (elVal t o.b i) (if nc then z.negate else z) o.rm st
    encEl o t r.1 r.2)

def effVfma (f : FmtV) (o : VIn) : VOut := fused f.ty o false false
def effVfms (f : FmtV) (o : VIn) : VOut := fused f.ty o false true
def effVfnma (f : FmtV) (o : VIn) : VOut := fused f.ty o true false

/-- Integer division (R125). -/
def intDiv (t : BitVec 5) (x y : Int) (st : FpSt) : Nat × FpSt :=
  let w := tyWidth t
  if y = 0 then (2 ^ w - 1, st.raise flDz)
  else if tyI t ∧ x = -(2 ^ (w - 1) : Nat) ∧ y = -1 then (2 ^ (w - 1), st.raise flSat)
  else (wrapI (Int.tdiv x y) w, st)

def effVdiv (f : FmtV) (o : VIn) : VOut :=
  elementwise o (tyWidth f.ty) (fun i st =>
    if tyF f.ty then
      let r := fdiv (elVal f.ty o.a i) (elVal f.ty o.b i) st
      encEl o f.ty r.1 r.2
    else intDiv f.ty (elInt f.ty o.a i) (elInt f.ty o.b i) st)

def effVsqrt (f : FmtV) (o : VIn) : VOut :=
  elementwise o (tyWidth f.ty) (fun i st =>
    let r := fsqrt (elVal f.ty o.a i) st
    encEl o f.ty r.1 r.2)

/-- The lesser or the greater of two patterns of a floating-point type (R122). -/
def minmaxF (t : BitVec 5) (mx : Bool) (x y : Nat) (st : FpSt) : Nat × FpSt :=
  let vx := dec (fmtOf t.toNat) x
  let vy := dec (fmtOf t.toNat) y
  let st := if vx.isSig || vy.isSig then st.raise flNv else st
  if vx.isNan then (if vy.isNan then (nanPat (fmtOf t.toNat), st) else (y, st))
  else if vy.isNan then (x, st)
  else if mx then (if valLt vx vy true then y else x, st)
  else (if valLt vy vx true then y else x, st)

def minmax (t : BitVec 5) (o : VIn) (mx : Bool) : VOut :=
  let w := tyWidth t
  elementwise o w (fun i st =>
    if tyF t then minmaxF t mx (el o.a w i) (el o.b w i) st
    else
      let x := elInt t o.a i
      let y := elInt t o.b i
      (wrapI (if mx then max x y else min x y) w, st))

def effVmin (f : FmtV) (o : VIn) : VOut := minmax f.ty o false
def effVmax (f : FmtV) (o : VIn) : VOut := minmax f.ty o true

/-- The pattern of a NaN element after `VABS` or `VNEG` (R123). -/
def signOp (t : BitVec 5) (neg : Bool) (x : Nat) : Nat :=
  let fm := fmtOf t.toNat
  let v := dec fm x
  let s := if neg then !v.sign else false
  match v with
  | .nan _ _ => signPat fm s + nanPat fm
  | _ => signPat fm s + x % 2 ^ (fm.eb + fm.mb)

def effVabs (f : FmtV) (o : VIn) : VOut :=
  let w := tyWidth f.ty
  elementwise o w (fun i st =>
    if tyF f.ty then (signOp f.ty false (el o.a w i), st)
    else satTo f.ty ((elInt f.ty o.a i).natAbs : Int) st)

def effVneg (f : FmtV) (o : VIn) : VOut :=
  let w := tyWidth f.ty
  elementwise o w (fun i st =>
    if tyF f.ty then (signOp f.ty true (el o.a w i), st) else satTo f.ty (-elInt f.ty o.a i) st)

def effVadds (f : FmtV) (o : VIn) : VOut :=
  elementwise o (tyWidth f.ty) (fun i st => satTo f.ty (elInt f.ty o.a i + elInt f.ty o.b i) st)
def effVsubs (f : FmtV) (o : VIn) : VOut :=
  elementwise o (tyWidth f.ty) (fun i st => satTo f.ty (elInt f.ty o.a i - elInt f.ty o.b i) st)

/-- The shift amount of element i: the element of vb, or the whole scalar (R126). -/
def shiftBy (f : FmtV) (o : VIn) (i : Nat) : Nat := if f.fx then o.xb.toNat else el o.b (tyWidth f.ty) i

def effVshl (f : FmtV) (o : VIn) : VOut :=
  let w := tyWidth f.ty
  elementwise' o w (fun i => let k := shiftBy f o i; if w ≤ k then 0 else el o.a w i * 2 ^ k)
def effVshr (f : FmtV) (o : VIn) : VOut :=
  let w := tyWidth f.ty
  elementwise' o w (fun i => let k := shiftBy f o i; if w ≤ k then 0 else el o.a w i / 2 ^ k)
def effVsra (f : FmtV) (o : VIn) : VOut :=
  let w := tyWidth f.ty
  elementwise' o w (fun i =>
    let k := min (shiftBy f o i) w
    wrapI (sextN (el o.a w i) w / (2 ^ k : Nat)) w)

def effVaddi (f : FmtVI) (o : VIn) : VOut :=
  let w := tyWidth f.ty
  elementwise' o w (fun i => wrapI (elInt f.ty o.a i + sextN f.imm.toNat 11) w)

/-- The result of a comparison of two floating-point values and its flag (R127). -/
def cmpF (cc : Nat) (x y : Val) (st : FpSt) : Bool × FpSt :=
  let nan := x.isNan || y.isNan
  let sig := x.isSig || y.isSig
  let lt := !nan && valLt x y false
  let gt := !nan && valLt y x false
  let eq := !nan && !lt && !gt
  let st := if sig || (nan && decide (2 ≤ cc ∧ cc ≤ 5)) then st.raise flNv else st
  let r :=
    match cc with
    | 0 => eq
    | 1 => !eq
    | 2 => lt
    | 3 => lt || eq
    | 4 => gt
    | 5 => gt || eq
    | 6 => nan
    | _ => !nan
  (r, st)

def cmpI (cc : Nat) (x y : Int) : Bool :=
  match cc with
  | 0 => decide (x = y)
  | 1 => decide (x ≠ y)
  | 2 => decide (x < y)
  | 3 => decide (x ≤ y)
  | 4 => decide (y < x)
  | _ => decide (y ≤ x)

/-- Writes the k predicate bits of an element of w/8 bytes from bit j (R127). -/
def setPBits (p : PReg) (j k : Nat) (b : Bool) : PReg :=
  let m : PReg := BitVec.ofNat 128 (2 ^ k - 1) <<< j
  if b then p ||| m else p &&& ~~~m

/-- `VCMP` over the elements below k (R127). -/
def cmpGo (f : FmtV) (o : VIn) : Nat → PReg × FpSt → PReg × FpSt
  | 0, r => r
  | k + 1, r =>
    let r := cmpGo f o k r
    let w := tyWidth f.ty
    if activeEl o.act w k then
      let c :=
        if tyF f.ty then cmpF f.c.toNat (elVal f.ty o.a k) (elVal f.ty o.b k) r.2
        else (cmpI f.c.toNat (elInt f.ty o.a k) (elInt f.ty o.b k), r.2)
      (setPBits r.1 (k * w / 8) (w / 8) c.1, c.2)
    else r

def effVcmp (f : FmtV) (o : VIn) : VOut :=
  let r := cmpGo f o (elCount (tyWidth f.ty)) (o.pd, o.fp)
  { dst := .pred r.1, fp := r.2 }

/-! ## Reductions (R128) -/

/-- The indices of the active elements, ascending. -/
def activeList (o : VIn) (w : Nat) : List Nat := (List.range (elCount w)).filter (fun i => activeEl o.act w i)

/-- The exact sum of the finite active elements as a multiple of 2^k, k the least exponent. -/
def exactSum (l : List Val) : Int × Int :=
  let k := l.foldl (fun a x => match x with | .fin _ _ e _ => min a e | _ => a) 0
  (l.foldl (fun a x => match x with | .fin s m e _ => a + signedUnits s m e k | _ => a) 0, k)

/-- The float sum of R128: NaNs, infinities, and the sign of an exact zero. -/
def sumF (l : List Val) (rm : Nat) (st : FpSt) : Val × FpSt :=
  let st := if l.any Val.isSig then st.raise flNv else st
  let pos := l.any (fun x => x.isInf && !x.sign)
  let neg := l.any (fun x => x.isInf && x.sign)
  let st := if pos && neg then st.raise flNv else st
  if l.any Val.isNan || (pos && neg) then (quietNan, st)
  else
    if pos then (.inf false, st)
    else if neg then (.inf true, st)
    else
      let r := exactSum l
      if r.1 = 0 then
        let allNeg := !l.isEmpty && l.all (fun x => x.isZero && x.sign)
        let allPos := l.all (fun x => x.isZero && !x.sign)
        (.fin (if allNeg then true else if allPos then false else decide (rm = 3)) 0 0 false, st)
      else (.fin (decide (r.1 < 0)) r.1.natAbs r.2 false, st)

def effVredsum (f : FmtV) (o : VIn) : VOut :=
  let l := activeList o (tyWidth f.ty)
  if tyF f.ty then
    let r := sumF (l.map (elVal f.ty o.a)) o.rm o.fp
    let e := encEl o f.ty r.1 r.2
    { dst := .vec (BitVec.ofNat 1024 e.1), fp := e.2 }
  else
    { dst := .vec (BitVec.ofNat 1024 (wrapI (l.foldl (fun a i => a + elInt f.ty o.a i) 0) 64)), fp := o.fp }

/-- The result of a min or max reduction with no active element (R128). -/
def redEmpty (t : BitVec 5) (mx : Bool) : Nat :=
  let w := tyWidth t
  if tyF t then signPat (fmtOf t.toNat) mx + infPat (fmtOf t.toNat)
  else if tyI t then (if mx then 2 ^ (w - 1) else 2 ^ (w - 1) - 1)
  else (if mx then 0 else 2 ^ w - 1)

def redminmax (f : FmtV) (o : VIn) (mx : Bool) : VOut :=
  let w := tyWidth f.ty
  match activeList o w with
  | [] => { dst := .vec (BitVec.ofNat 1024 (redEmpty f.ty mx)), fp := o.fp }
  | i :: r =>
    if tyF f.ty then
      let st := if (dec (fmtOf f.ty.toNat) (el o.a w i)).isSig then o.fp.raise flNv else o.fp
      let z := r.foldl (fun a j => minmaxF f.ty mx a.1 (el o.a w j) a.2) (el o.a w i, st)
      let p := if (dec (fmtOf f.ty.toNat) z.1).isNan then nanPat (fmtOf f.ty.toNat) else z.1
      { dst := .vec (BitVec.ofNat 1024 p), fp := z.2 }
    else
      let z := r.foldl (fun a j => let y := elInt f.ty o.a j; if mx then max a y else min a y) (elInt f.ty o.a i)
      { dst := .vec (BitVec.ofNat 1024 (wrapI z w)), fp := o.fp }

def effVredmin (f : FmtV) (o : VIn) : VOut := redminmax f o false
def effVredmax (f : FmtV) (o : VIn) : VOut := redminmax f o true

end Sys2Proof.Machine
end

