-- ==== Sys2Proof/Machine/Atom.lean ====
section
/-! DEFINITION. The atomic ops of the destination's memory port (R317, R318). -/

namespace Sys2Proof.Machine

/-- The new value of an element: d is the old one, x the operand (R317); op 7 is `CAS` with a compare value
(R318).  Float results round to nearest even with `nanz` = 0. -/
def atomNew (op ty cmp d x : Nat) (st : FpSt) : Nat × FpSt :=
  let t : BitVec 5 := BitVec.ofNat 5 ty
  let w := tyWidth t
  let i (b : Nat) : Int := if tyI t then sextN b w else (b : Int)
  match op with
  | 0 =>
    if tyF t then
      let r := fadd (dec (fmtOf ty) d) (dec (fmtOf ty) x) 0 st
      enc (fmtOf ty) r.1 0 false r.2
    else ((d + x) % 2 ^ w, st)
  | 1 => if tyF t then minmaxF t false d x st else (if i x < i d then x else d, st)
  | 2 => if tyF t then minmaxF t true d x st else (if i d < i x then x else d, st)
  | 3 => (d &&& x, st)
  | 4 => (d ||| x, st)
  | 5 => (d ^^^ x, st)
  | 6 => (x, st)
  | _ => (if d = cmp then x else d, st)

/-- The payload of an atomic's packet: op, type, compare value, operands; the layout is the model's
(notes/assumptions/13.md). -/
def atomPayload (op ty cmp : Nat) (bs : List Byte) : List Byte := leBytes 1 op ++ leBytes 1 ty ++ leBytes 8 cmp ++ bs

/-- What the atomics of a run of elements come to: the state, the flags, the old elements, and the first
granule whose read met an uncorrectable error (R245). -/
structure Atomic where
  st : State
  fl : BitVec 6 := 0
  old : List Nat := []
  bad : Option Nat := none

/-- Carries out one op on each element of a run from address a upward, each one atomic unit.  `fuel` bounds
the number of elements. -/
def atomsGo (op ty cmp wb : Nat) (fresh : Nat → Bool) : Nat → State → Nat → List Byte → Atomic
  | 0, s, _, _ => { st := s }
  | k + 1, s, a, bs =>
    if bs.length < wb ∨ wb = 0 then { st := s }
    else
      let d := s.num a wb
      let g := granuleBase a
      if (firstPoison s.poison a wb).isSome || fresh g then
        let r := atomsGo op ty cmp wb fresh k { s with poison := poisonGranule s.poison g } (a + wb) (bs.drop wb)
        { r with old := d :: r.old, bad := some g }
      else
        let x := atomNew op ty cmp d (leNat (bs.take wb)) {}
        let r := atomsGo op ty cmp wb fresh k (s.putBytes a (leBytes wb x.1)) (a + wb) (bs.drop wb)
        { r with fl := x.2.fl ||| r.fl, old := d :: r.old }

def State.atomsAt (s : State) (op ty cmp a : Nat) (bs : List Byte) (fresh : Nat → Bool) : Atomic :=
  atomsGo op ty cmp (tyWidth (BitVec.ofNat 5 ty) / 8) fresh bs.length s a bs

end Sys2Proof.Machine
end

