-- ==== Sys2Proof/Decode.lean ====
section
/-! DEFINITION. Decoding (R78 to R93) and, after it, the encoder: the same fields laid out by the same maps. -/

namespace Sys2Proof

/-! ## The fields of a 64-bit word (R79, R83) -/

def getWait (w : Word) : BitVec 8 := w.extractLsb' 56 8
def getSig (w : Word) : BitVec 8 := w.extractLsb' 48 8
def getMajor (w : Word) : Nat := w.toNat / 2 ^ 10 % 64
def getClass (w : Word) : Nat := w.toNat / 2 ^ 7 % 8
def getLen (w : Word) : Nat := w.toNat % 128
def getF5 (w : Word) (lo : Nat) : BitVec 5 := w.extractLsb' lo 5

def getV (w : Word) : FmtV :=
  { wait := getWait w, sig := getSig w, ty := getF5 w 43, pe := w.getLsbD 42, pg := w.extractLsb' 39 3,
    sm := w.extractLsb' 37 2, fx := w.getLsbD 36, c := getF5 w 31, b := getF5 w 26, a := getF5 w 21, d := getF5 w 16 }
def getVI (w : Word) : FmtVI :=
  { wait := getWait w, sig := getSig w, ty := getF5 w 43, pe := w.getLsbD 42, pg := w.extractLsb' 39 3,
    sm := w.extractLsb' 37 2, imm := w.extractLsb' 26 11, a := getF5 w 21, d := getF5 w 16 }
def getVL (w : Word) : FmtVL :=
  { wait := getWait w, sig := getSig w, tt := w.extractLsb' 40 8, c := getF5 w 31, b := getF5 w 26, a := getF5 w 21,
    d := getF5 w 16 }
def getVM (w : Word) : FmtVM :=
  { wait := getWait w, sig := getSig w, ty := getF5 w 43, pe := w.getLsbD 42, pg := w.extractLsb' 39 3,
    sm := w.extractLsb' 37 2, off := w.extractLsb' 31 6, b := getF5 w 26, a := getF5 w 21, d := getF5 w 16 }
def getD (w : Word) : FmtD :=
  { wait := getWait w, sig := getSig w, x := w.getLsbD 47, aux := w.extractLsb' 41 6, st := getF5 w 36, dl := getF5 w 31,
    b := getF5 w 26, a := getF5 w 21, d := getF5 w 16 }
def getQ (w : Word) : FmtQ :=
  { wait := getWait w, sig := getSig w, imm := w.extractLsb' 36 12, c := getF5 w 31, b := getF5 w 26, a := getF5 w 21,
    d := getF5 w 16 }
def getM (w : Word) : FmtM :=
  { wait := getWait w, sig := getSig w, fa := getF5 w 43, fb := getF5 w 38, fm := w.extractLsb' 35 3,
    aux := w.extractLsb' 31 4, b := getF5 w 26, a := getF5 w 21, t := w.extractLsb' 16 3 }
def getC (w : Word) : FmtC :=
  { wait := getWait w, sig := getSig w, cr := w.getLsbD 43, dc := w.getLsbD 42, eng := w.extractLsb' 40 2,
    fl := w.extractLsb' 32 8, aux := w.extractLsb' 16 16 }

/-- The reserved bits of Formats VL, M and C (R83). -/
def resVL (w : Word) : Bool := decide (w.extractLsb' 36 4 = 0)
def resM (w : Word) : Bool := decide (w.extractLsb' 19 2 = 0)
def resC (w : Word) : Bool := decide (w.extractLsb' 44 4 = 0)

/-- The packet a head and its 56 parameter bytes make (R93, R94). -/
def getPacket (w : Word) (r : BitVec 448) : Packet :=
  { cmd := getC w, dst := r.extractLsb' 0 64, src := r.extractLsb' 64 64, par := r.extractLsb' 128 192,
    rcd := r.extractLsb' 320 64, dep := r.extractLsb' 384 64 }

/-! ## The opcode maps (R87 to R92) -/

/-- Class SQ: the constructor that a major op and its form bits name. -/
def majorSQ (w : Word) : Option Instr :=
  match getMajor w with
  | 1 => some (.sleepu (getD w))
  | 2 => some (.semwait (getD w))
  | 3 => some (.semsig (getQ w))
  | 4 => some (.semadd (getQ w))
  | 5 => some (.semrd (getQ w))
  | 6 => some (.engdl (getQ w))
  | 7 => some (.engst (getQ w))
  | 8 =>
    if decide ((getQ w).imm.toNat / 16 = 0) then some (.engringOff (getQ w))
    else if decide ((getQ w).imm.toNat / 16 = 1) then some (.engringOn (getQ w))
    else if decide ((getQ w).imm.toNat / 16 = 2) then some (.engringGo (getQ w))
    else if decide ((getQ w).imm.toNat / 16 = 3) then some (.engringSkip (getQ w))
    else some (.engringDrop (getQ w))
  | 9 => some (.engsync (getD w))
  | 10 => some (.slcfg (getQ w))
  | 11 =>
    if decide ((getQ w).imm.toNat / 16 = 0) then some (.sladvCons (getQ w))
    else some (.sladvProd (getQ w))
  | 12 =>
    if decide ((getQ w).imm.toNat / 16 = 0) then some (.sltokRd (getQ w))
    else if decide ((getQ w).imm.toNat / 16 = 1) then some (.sltokPut (getQ w))
    else some (.sltokTake (getQ w))
  | 16 => some (.bar (getD w))
  | 17 => some (.bara (getQ w))
  | 18 => some (.barw (getD w))
  | 19 => some (.barx (getQ w))
  | 20 => some (.tlaunch (getD w))
  | 21 => some (.texit (getQ w))
  | 22 => some (.tyield (getQ w))
  | 23 => some (.tarm (getQ w))
  | 24 => some (.mark (getQ w))
  | 25 => some (.pfence (getD w))
  | 26 => some (.xfence (getD w))
  | 27 => some (.dld (getD w))
  | 32 => some (.taglk (getQ w))
  | 33 => some (.tagset (getQ w))
  | 34 => if decide ((getQ w).imm = 0) then some (.tagclr (getQ w)) else some (.tagclrAll (getQ w))
  | 35 => some (.tagvic (getQ w))
  | 36 => if decide ((getD w).aux = 0) then some (.cpput (getD w)) else some (.cpputP (getD w))
  | 40 => if decide ((getQ w).imm = 0) then some (.tret (getQ w)) else some (.tretSkip (getQ w))
  | 41 => some (.cutrd (getQ w))
  | _ => none

/-- Class VX: the constructor that a major op and its form bits name. -/
def majorVX (w : Word) : Option Instr :=
  match getMajor w with
  | 1 => some (.vadd (getV w))
  | 2 => some (.vsub (getV w))
  | 3 => some (.vmul (getV w))
  | 4 => some (.vmulh (getV w))
  | 5 => some (.vfma (getV w))
  | 6 => some (.vfms (getV w))
  | 7 => some (.vfnma (getV w))
  | 8 => some (.vdiv (getV w))
  | 9 => some (.vsqrt (getV w))
  | 10 => some (.vmin (getV w))
  | 11 => some (.vmax (getV w))
  | 12 => some (.vabs (getV w))
  | 13 => some (.vneg (getV w))
  | 14 => some (.vadds (getV w))
  | 15 => some (.vsubs (getV w))
  | 16 => some (.vshl (getV w))
  | 17 => some (.vshr (getV w))
  | 18 => some (.vsra (getV w))
  | 19 => some (.vaddi (getVI w))
  | 20 => some (.vcmp (getV w))
  | 21 => some (.vredsum (getV w))
  | 22 => some (.vredmin (getV w))
  | 23 => some (.vredmax (getV w))
  | 24 => if !(getV w).fx then some (.vand (getV w)) else some (.vandNb (getV w))
  | 25 => if !(getV w).fx then some (.vor (getV w)) else some (.vorNb (getV w))
  | 26 => if !(getV w).fx then some (.vxor (getV w)) else some (.vxorNb (getV w))
  | 27 => if resVL w then some (.vlut3 (getVL w)) else none
  | 28 => some (.vfsh (getV w))
  | 29 => some (.vfshw (getV w))
  | 30 => some (.vrot (getV w))
  | 31 => some (.vpopc (getV w))
  | 32 => some (.vclz (getV w))
  | 33 => some (.vlrot (getVI w))
  | 34 => some (.vshuf (getV w))
  | 35 => some (.vslide (getVI w))
  | 36 => if !(getV w).fx then some (.vbcast (getV w)) else some (.vbcastEl (getV w))
  | 37 => if !(getV w).fx then some (.vzip (getV w)) else some (.vzipHi (getV w))
  | 38 => if !(getV w).fx then some (.vunzip (getV w)) else some (.vunzipOdd (getV w))
  | 39 => some (.vsel (getV w))
  | 40 => some (.vmvx (getV w))
  | 41 => some (.vmxv (getV w))
  | 42 => some (.pand (getV w))
  | 43 => some (.por (getV w))
  | 44 => some (.pxor (getV w))
  | 45 => some (.pandn (getV w))
  | 46 => some (.pset (getVI w))
  | 47 => some (.pcnt (getV w))
  | 48 => if !(getV w).fx then some (.vcvt (getV w)) else some (.vcvtSat (getV w))
  | 49 => some (.vpack (getV w))
  | 50 => some (.vunpk (getV w))
  | 51 => some (.vqmx (getV w))
  | 52 => some (.vdqmx (getV w))
  | 53 => if !(getV w).fx then some (.vcbl (getV w)) else some (.vcblEnc (getV w))
  | 54 => some (.vld (getVM w))
  | 55 => some (.vlds (getVM w))
  | 56 => some (.vldx (getVM w))
  | 57 => some (.vst (getVM w))
  | 58 => some (.vsts (getVM w))
  | 59 => some (.vstx (getVM w))
  | 60 => some (.vldw (getD w))
  | 61 => some (.vtrd (getD w))
  | _ => none

/-- Class MT: the constructor that a major op and its form bits name. -/
def majorMT (w : Word) : Option Instr :=
  match getMajor w with
  | 1 =>
    if decide ((getM w).fm = 0) then some (.mmaAcc (getM w))
    else if decide ((getM w).fm = 1) then some (.mmaOvw (getM w))
    else if decide ((getM w).fm = 2) then some (.mmaSacc (getM w))
    else some (.mmaSovw (getM w))
  | 2 => some (.mzero (getM w))
  | 3 => some (.mcfg (getM w))
  | 4 => some (.mgetr (getM w))
  | 5 => some (.msetr (getM w))
  | 6 => some (.mgetc (getM w))
  | 7 => some (.msetc (getM w))
  | 8 => some (.mload (getM w))
  | 9 => if decide ((getM w).fm = 0) then some (.mhadRow (getM w)) else some (.mhadCol (getM w))
  | 10 => some (.mdrain (getM w))
  | 11 => some (.mcbld (getM w))
  | 12 => some (.mbind (getM w))
  | 13 => if decide ((getM w).fm = 0) then some (.mcopy (getM w)) else some (.mcopyAdd (getM w))
  | _ => none

/-- Class NT: the constructor that a major op and its form bits name. -/
def majorNT (w : Word) : Option Instr :=
  match getMajor w with
  | 1 => some (.nrecv (getD w))
  | 2 => some (.nsend (getD w))
  | 3 => some (.nprobe (getD w))
  | 4 => if decide ((getQ w).imm = 0) then some (.npost (getQ w)) else some (.npostCancel (getQ w))
  | 5 => some (.trgarm (getQ w))
  | 6 => some (.trgdis (getQ w))
  | 7 => if decide ((getQ w).imm = 0) then some (.trgrd (getQ w)) else some (.trgrdBlk (getQ w))
  | 8 => some (.ctradd (getQ w))
  | 9 => some (.ctrrd (getQ w))
  | 10 => some (.ctrwait (getD w))
  | 11 => some (.ctrset (getQ w))
  | 12 => some (.nlaunch (getQ w))
  | 13 => some (.ncopy (getD w))
  | 14 => some (.collst (getQ w))
  | 15 => some (.haltgo (getQ w))
  | 16 => some (.hstep (getQ w))
  | 17 => some (.hresume (getQ w))
  | 18 =>
    if decide ((getQ w).imm.toNat < 16) then some (.hcause (getQ w))
    else some (.hcauseCore (getQ w))
  | 19 => some (.jcfgHandle (getQ w))
  | _ => none

/-- Class SY: the constructor that a major op and its form bits name. -/
def majorSY (w : Word) : Option Instr :=
  match getMajor w with
  | 1 => some (.ctxswap (getQ w))
  | 2 => if decide ((getD w).aux = 0) then some (.ctxsave (getD w)) else some (.ctxsaveKeep (getD w))
  | 3 => some (.ctxload (getD w))
  | 4 => some (.sbset (getQ w))
  | 5 => some (.tkill (getQ w))
  | 6 => some (.hreq (getQ w))
  | 7 => some (.matset (getQ w))
  | 8 =>
    if decide ((getD w).aux.toNat / 16 = 0) then some (.tlbinvPg (getD w))
    else if decide ((getD w).aux.toNat / 16 = 1) then some (.tlbinvAs (getD w))
    else some (.tlbinvAll (getD w))
  | _ => none

/-- Class CP: the packet that a head and its parameters make. -/
def majorCP (w : Word) (r : BitVec 448) : Option Instr :=
  let p := getPacket w r
  match getMajor w with
  | 1 => some (.copy p)
  | 2 => if p.cmd.fl.getLsbD 0 then some (.tcopyWr p) else some (.tcopyRd p)
  | 3 => some (.im2colw p)
  | 4 => some (.fill p)
  | 5 => some (.accw p)
  | 6 => some (.fop p)
  | 7 => some (.cas p)
  | 8 => some (.redcopy p)
  | 9 => some (.mcast p)
  | 10 => some (.amcast p)
  | 11 => some (.spfill p)
  | 12 => some (.spdrain p)
  | 13 => some (.qappend p)
  | 14 => some (.sigrem p)
  | _ => none

/-- The instruction that a 64-bit word names by its class and major op, before its fields are checked. -/
def decodeForm (w : Word) (r : BitVec 448) : Option Instr :=
  if getLen w ≠ 0x3F then none
  else
    match getClass w with
    | 0 => majorSQ w
    | 1 => majorVX w
    | 2 => if resM w then majorMT w else none
    | 3 => if resC w then majorCP w r else none
    | 4 => majorNT w
    | 5 => majorSY w
    | _ => none

/-- Decodes a 64-bit word; `r` is the 56 bytes after it, which only a copy packet uses.  None where R82
makes the word illegal. -/
def decode64 (w : Word) (r : BitVec 448) : Option Instr :=
  match decodeForm w r with
  | some i => if i.wf then some i else none
  | none => none

/-! ## The instruction stream (R78) -/

/-- The length in bytes that the first halfword gives; 10 stands for 80 bits or more. -/
def lenOf (h : Nat) : Nat :=
  if h % 4 ≠ 3 then 2
  else if h / 4 % 8 ≠ 7 then 4
  else if h % 64 = 0x1F then 6
  else if h % 128 = 0x3F then 8
  else 10

/-- An RV64 instruction as a step; a write of a bank format has a row of its own (R45). -/
def ofRv (d : RvDec) (e : RvEnc) : Option Instr :=
  match d, e with
  | .op o, e => some (.rv64IntegerOp o e)
  | .load f3 rd rs1 off, e => some (.scalarLoad ⟨f3, rd, rs1, off, e⟩)
  | .store f3 rs1 rs2 off, e => some (.scalarStore ⟨f3, rs1, rs2, off, e⟩)
  | .csr f, .w32 => if f.isBfmtWrite then some (.bfmtWrite f) else some (.csrAccess f)
  | .fence f, .w32 => some (.fence f)
  | .fenceI f, .w32 => some (.fenceI f)
  | .ecall, .w32 => some .ecall
  | .ebreak, .w32 => some .ebreak
  | .ebreak, .c16 _ => some .cEbreak
  | _, _ => none

/-- The number that the first k bytes of a list hold (R5). -/
def leTake : List Byte → Nat → Nat
  | _, 0 => 0
  | [], _ + 1 => 0
  | b :: r, k + 1 => b.toNat + 256 * leTake r k

/-- Reads one instruction from the bytes at the PC, and its length.  None where the encoding is illegal
on a compute core (R78, R82). -/
def decodeBytes (bs : List Byte) : Option (Instr × Nat) :=
  let h := leTake bs 2
  match lenOf h with
  | 2 => (expand16 (BitVec.ofNat 16 h)).bind (fun d => (ofRv d (.c16 (BitVec.ofNat 16 h))).map (fun i => (i, 2)))
  | 4 => (decRv (BitVec.ofNat 32 (leTake bs 4))).bind (fun d => (ofRv d .w32).map (fun i => (i, 4)))
  | 8 =>
    let w : Word := BitVec.ofNat 64 (leTake bs 8)
    let r : BitVec 448 := BitVec.ofNat 448 (leTake (bs.drop 8) 56)
    (decode64 w r).map (fun i => (i, if getClass w = 3 then 64 else 8))
  | _ => none

/-- What `tval` holds for an illegal instruction (R78). -/
def illegalWord (bs : List Byte) : Word :=
  match lenOf (leTake bs 2) with
  | 2 => BitVec.ofNat 64 (leTake bs 2)
  | 4 => BitVec.ofNat 64 (leTake bs 4)
  | 6 => BitVec.ofNat 64 (leTake bs 6)
  | _ => BitVec.ofNat 64 (leTake bs 8)

/-- A Hamper thread's reading (R330): RV64I, M, C and Zicsr, whose loads and stores reach Hamper memory
(R331), and the words of class NT. -/
def threadForm : Instr → Option Instr
  | .scalarLoad f => some (.hamperScalarAccess false f.f3 f.rd f.rs1 f.off f.enc)
  | .scalarStore f => some (.hamperScalarAccess true f.f3 f.rs2 f.rs1 f.off f.enc)
  | .csrAccess f => some (.csrAccess f)
  | .bfmtWrite f => some (.csrAccess f)
  | .fence f => some (.fence f)
  | .ebreak => some .ebreak
  | .cEbreak => some .cEbreak
  | .ecall => some .ecall
  | .rv64IntegerOp o e =>
    match o with
    | .alu k _ _ _ => if (aluCode k).1 ≤ 1 ∨ k = .sub ∨ k = .sra then some (.rv64IntegerOp o e) else none
    | .aluw k _ _ _ => if (aluwCode k).1 ≤ 1 ∨ k = .subw ∨ k = .sraw then some (.rv64IntegerOp o e) else none
    | .shift k _ _ _ => if k = .rori ∨ k = .roriw ∨ k = .slliuw then none else some (.rv64IntegerOp o e)
    | .unary _ _ _ => none
    | _ => some (.rv64IntegerOp o e)
  | _ => none

/-- Reads one instruction as a Hamper thread does. -/
def decodeThread (bs : List Byte) : Option (Instr × Nat) :=
  match decodeBytes bs with
  | some (i, k) =>
    if lenOf (leTake bs 2) = 8 then (if leTake bs 8 / 128 % 8 = 4 then some (i, k) else none)
    else (threadForm i).map (fun j => (j, k))
  | none => none

/-- The bytes of a word of n bits numbered as spec/opcode_table.json numbers them. -/
def tableBytes : Nat → Nat → List Byte
  | 0, _ => []
  | k + 1, w => BitVec.ofNat 8 w :: tableBytes k (w / 256)

/-- The instruction that the decoder reads from the bits of a table word: the bits above are 0. -/
def decodeTableWord (nbits w : Nat) : Option Instr :=
  (decodeBytes (tableBytes 64 (w % 2 ^ nbits))).map (fun p => p.1)

/-! ## The encoder -/

def putWord (wait sig : BitVec 8) (ops : BitVec 32) (major cls : Nat) : Word :=
  wait ++ sig ++ ops ++ BitVec.ofNat 6 major ++ BitVec.ofNat 3 cls ++ 0x3F#7

def putV (f : FmtV) (major : Nat) : Word :=
  putWord f.wait f.sig (f.ty ++ BitVec.ofBool f.pe ++ f.pg ++ f.sm ++ BitVec.ofBool f.fx ++ f.c ++ f.b ++ f.a ++ f.d) major 1
def putVI (f : FmtVI) (major : Nat) : Word :=
  putWord f.wait f.sig (f.ty ++ BitVec.ofBool f.pe ++ f.pg ++ f.sm ++ f.imm ++ f.a ++ f.d) major 1
def putVL (f : FmtVL) (major : Nat) : Word :=
  putWord f.wait f.sig (f.tt ++ 0#4 ++ f.c ++ f.b ++ f.a ++ f.d) major 1
def putVM (f : FmtVM) (major : Nat) : Word :=
  putWord f.wait f.sig (f.ty ++ BitVec.ofBool f.pe ++ f.pg ++ f.sm ++ f.off ++ f.b ++ f.a ++ f.d) major 1
def putD (f : FmtD) (major cls : Nat) : Word :=
  putWord f.wait f.sig (BitVec.ofBool f.x ++ f.aux ++ f.st ++ f.dl ++ f.b ++ f.a ++ f.d) major cls
def putQ (f : FmtQ) (major cls : Nat) : Word :=
  putWord f.wait f.sig (f.imm ++ f.c ++ f.b ++ f.a ++ f.d) major cls
def putM (f : FmtM) (major : Nat) : Word :=
  putWord f.wait f.sig (f.fa ++ f.fb ++ f.fm ++ f.aux ++ f.b ++ f.a ++ 0#2 ++ f.t) major 2
def putC (f : FmtC) (major : Nat) : Word :=
  putWord f.wait f.sig (0#4 ++ BitVec.ofBool f.cr ++ BitVec.ofBool f.dc ++ f.eng ++ f.fl ++ f.aux) major 3

/-- The 56 parameter bytes of a packet. -/
def putRest (p : Packet) : BitVec 448 := p.dep ++ p.rcd ++ p.par ++ p.src ++ p.dst

/-- The 64-bit word of an instruction; for a copy packet its head. -/
def encode64 : Instr → Option Word
  | .sleepu f => some (putD f 1 0)
  | .semwait f => some (putD f 2 0)
  | .semsig f => some (putQ f 3 0)
  | .semadd f => some (putQ f 4 0)
  | .semrd f => some (putQ f 5 0)
  | .engdl f => some (putQ f 6 0)
  | .engst f => some (putQ f 7 0)
  | .engringOff f => some (putQ f 8 0)
  | .engringOn f => some (putQ f 8 0)
  | .engringGo f => some (putQ f 8 0)
  | .engringSkip f => some (putQ f 8 0)
  | .engringDrop f => some (putQ f 8 0)
  | .engsync f => some (putD f 9 0)
  | .slcfg f => some (putQ f 10 0)
  | .sladvCons f => some (putQ f 11 0)
  | .sladvProd f => some (putQ f 11 0)
  | .sltokRd f => some (putQ f 12 0)
  | .sltokPut f => some (putQ f 12 0)
  | .sltokTake f => some (putQ f 12 0)
  | .bar f => some (putD f 16 0)
  | .bara f => some (putQ f 17 0)
  | .barw f => some (putD f 18 0)
  | .barx f => some (putQ f 19 0)
  | .tlaunch f => some (putD f 20 0)
  | .texit f => some (putQ f 21 0)
  | .tyield f => some (putQ f 22 0)
  | .tarm f => some (putQ f 23 0)
  | .mark f => some (putQ f 24 0)
  | .pfence f => some (putD f 25 0)
  | .xfence f => some (putD f 26 0)
  | .dld f => some (putD f 27 0)
  | .taglk f => some (putQ f 32 0)
  | .tagset f => some (putQ f 33 0)
  | .tagclr f => some (putQ f 34 0)
  | .tagclrAll f => some (putQ f 34 0)
  | .tagvic f => some (putQ f 35 0)
  | .cpput f => some (putD f 36 0)
  | .cpputP f => some (putD f 36 0)
  | .tret f => some (putQ f 40 0)
  | .tretSkip f => some (putQ f 40 0)
  | .cutrd f => some (putQ f 41 0)
  | .vadd f => some (putV f 1)
  | .vsub f => some (putV f 2)
  | .vmul f => some (putV f 3)
  | .vmulh f => some (putV f 4)
  | .vfma f => some (putV f 5)
  | .vfms f => some (putV f 6)
  | .vfnma f => some (putV f 7)
  | .vdiv f => some (putV f 8)
  | .vsqrt f => some (putV f 9)
  | .vmin f => some (putV f 10)
  | .vmax f => some (putV f 11)
  | .vabs f => some (putV f 12)
  | .vneg f => some (putV f 13)
  | .vadds f => some (putV f 14)
  | .vsubs f => some (putV f 15)
  | .vshl f => some (putV f 16)
  | .vshr f => some (putV f 17)
  | .vsra f => some (putV f 18)
  | .vaddi f => some (putVI f 19)
  | .vcmp f => some (putV f 20)
  | .vredsum f => some (putV f 21)
  | .vredmin f => some (putV f 22)
  | .vredmax f => some (putV f 23)
  | .vand f => some (putV f 24)
  | .vandNb f => some (putV f 24)
  | .vor f => some (putV f 25)
  | .vorNb f => some (putV f 25)
  | .vxor f => some (putV f 26)
  | .vxorNb f => some (putV f 26)
  | .vlut3 f => some (putVL f 27)
  | .vfsh f => some (putV f 28)
  | .vfshw f => some (putV f 29)
  | .vrot f => some (putV f 30)
  | .vpopc f => some (putV f 31)
  | .vclz f => some (putV f 32)
  | .vlrot f => some (putVI f 33)
  | .vshuf f => some (putV f 34)
  | .vslide f => some (putVI f 35)
  | .vbcast f => some (putV f 36)
  | .vbcastEl f => some (putV f 36)
  | .vzip f => some (putV f 37)
  | .vzipHi f => some (putV f 37)
  | .vunzip f => some (putV f 38)
  | .vunzipOdd f => some (putV f 38)
  | .vsel f => some (putV f 39)
  | .vmvx f => some (putV f 40)
  | .vmxv f => some (putV f 41)
  | .pand f => some (putV f 42)
  | .por f => some (putV f 43)
  | .pxor f => some (putV f 44)
  | .pandn f => some (putV f 45)
  | .pset f => some (putVI f 46)
  | .pcnt f => some (putV f 47)
  | .vcvt f => some (putV f 48)
  | .vcvtSat f => some (putV f 48)
  | .vpack f => some (putV f 49)
  | .vunpk f => some (putV f 50)
  | .vqmx f => some (putV f 51)
  | .vdqmx f => some (putV f 52)
  | .vcbl f => some (putV f 53)
  | .vcblEnc f => some (putV f 53)
  | .vld f => some (putVM f 54)
  | .vlds f => some (putVM f 55)
  | .vldx f => some (putVM f 56)
  | .vst f => some (putVM f 57)
  | .vsts f => some (putVM f 58)
  | .vstx f => some (putVM f 59)
  | .vldw f => some (putD f 60 1)
  | .vtrd f => some (putD f 61 1)
  | .mmaAcc f => some (putM f 1)
  | .mmaOvw f => some (putM f 1)
  | .mmaSacc f => some (putM f 1)
  | .mmaSovw f => some (putM f 1)
  | .mzero f => some (putM f 2)
  | .mcfg f => some (putM f 3)
  | .mgetr f => some (putM f 4)
  | .msetr f => some (putM f 5)
  | .mgetc f => some (putM f 6)
  | .msetc f => some (putM f 7)
  | .mload f => some (putM f 8)
  | .mhadRow f => some (putM f 9)
  | .mhadCol f => some (putM f 9)
  | .mdrain f => some (putM f 10)
  | .mcbld f => some (putM f 11)
  | .mbind f => some (putM f 12)
  | .mcopy f => some (putM f 13)
  | .mcopyAdd f => some (putM f 13)
  | .nrecv f => some (putD f 1 4)
  | .nsend f => some (putD f 2 4)
  | .nprobe f => some (putD f 3 4)
  | .npost f => some (putQ f 4 4)
  | .npostCancel f => some (putQ f 4 4)
  | .trgarm f => some (putQ f 5 4)
  | .trgdis f => some (putQ f 6 4)
  | .trgrd f => some (putQ f 7 4)
  | .trgrdBlk f => some (putQ f 7 4)
  | .ctradd f => some (putQ f 8 4)
  | .ctrrd f => some (putQ f 9 4)
  | .ctrwait f => some (putD f 10 4)
  | .ctrset f => some (putQ f 11 4)
  | .nlaunch f => some (putQ f 12 4)
  | .ncopy f => some (putD f 13 4)
  | .collst f => some (putQ f 14 4)
  | .haltgo f => some (putQ f 15 4)
  | .hstep f => some (putQ f 16 4)
  | .hresume f => some (putQ f 17 4)
  | .hcause f => some (putQ f 18 4)
  | .hcauseCore f => some (putQ f 18 4)
  | .jcfgHandle f => some (putQ f 19 4)
  | .jcfgWindowTemplate f => some (putQ f 19 4)
  | .jcfgWindowContext f => some (putQ f 19 4)
  | .ctxswap f => some (putQ f 1 5)
  | .ctxsave f => some (putD f 2 5)
  | .ctxsaveKeep f => some (putD f 2 5)
  | .ctxload f => some (putD f 3 5)
  | .sbset f => some (putQ f 4 5)
  | .tkill f => some (putQ f 5 5)
  | .hreq f => some (putQ f 6 5)
  | .matset f => some (putQ f 7 5)
  | .tlbinvPg f => some (putD f 8 5)
  | .tlbinvAs f => some (putD f 8 5)
  | .tlbinvAll f => some (putD f 8 5)
  | .copy p => some (putC p.cmd 1)
  | .tcopyRd p => some (putC p.cmd 2)
  | .tcopyWr p => some (putC p.cmd 2)
  | .im2colw p => some (putC p.cmd 3)
  | .fill p => some (putC p.cmd 4)
  | .accw p => some (putC p.cmd 5)
  | .fop p => some (putC p.cmd 6)
  | .cas p => some (putC p.cmd 7)
  | .redcopy p => some (putC p.cmd 8)
  | .mcast p => some (putC p.cmd 9)
  | .amcast p => some (putC p.cmd 10)
  | .spfill p => some (putC p.cmd 11)
  | .spdrain p => some (putC p.cmd 12)
  | .qappend p => some (putC p.cmd 13)
  | .sigrem p => some (putC p.cmd 14)
  | _ => none

/-- The packet of a copy instruction. -/
def packetOf : Instr → Option Packet
  | .copy p => some p
  | .tcopyRd p => some p
  | .tcopyWr p => some p
  | .im2colw p => some p
  | .fill p => some p
  | .accw p => some p
  | .fop p => some p
  | .cas p => some p
  | .redcopy p => some p
  | .mcast p => some p
  | .amcast p => some p
  | .spfill p => some p
  | .spdrain p => some p
  | .qappend p => some p
  | .sigrem p => some p
  | _ => none

/-- The 64-bit word of a VX, MT or CP instruction as an engine's queue holds it. -/
def encodeWord (i : Instr) : Word := (encode64 i).getD 0

/-- The parameters of a copy packet as an engine's queue holds them. -/
def encodeRest (i : Instr) : BitVec 448 := ((packetOf i).map putRest).getD 0

/-- The k low bytes of a number (R5). -/
def bytesOf : Nat → Nat → List Byte
  | 0, _ => []
  | k + 1, n => BitVec.ofNat 8 n :: bytesOf k (n / 256)

/-- The bytes of an RV64 instruction in the form it was read from. -/
def encRvBytes (w : BitVec 32) : RvEnc → List Byte
  | .w32 => bytesOf 4 w.toNat
  | .c16 h => bytesOf 2 h.toNat

/-- The bytes of an instruction in memory; none for a step that is not an instruction. -/
def encode (i : Instr) : List Byte :=
  match i with
  | .scalarLoad f => encRvBytes (encLoad f) f.enc
  | .scalarStore f => encRvBytes (encStore f) f.enc
  | .hamperScalarAccess st f3 r rs1 off e =>
    encRvBytes (if st then encStore ⟨f3, rs1, r, off, e⟩ else encLoad ⟨f3, r, rs1, off, e⟩) e
  | .rv64IntegerOp o e => encRvBytes (encRv o) e
  | .csrAccess f => bytesOf 4 (encCsr f).toNat
  | .bfmtWrite f => bytesOf 4 (encCsr f).toNat
  | .fence f => bytesOf 4 (encFence f 0).toNat
  | .fenceI f => bytesOf 4 (encFence f 1).toNat
  | .ecall => bytesOf 4 0x00000073
  | .ebreak => bytesOf 4 0x00100073
  | .cEbreak => bytesOf 2 0x9002
  | i =>
    match encode64 i with
    | some w =>
      match packetOf i with
      | some p => bytesOf 8 w.toNat ++ bytesOf 56 (putRest p).toNat
      | none => bytesOf 8 w.toNat
    | none => []

end Sys2Proof
end

