-- ==== Sys2Proof/Config.lean ====
section
/-! DEFINITION. What the manual leaves open: constants without a body, so that no proof can see a value. -/

namespace Sys2Proof

/-- The k-th free byte: what a byte holds where the manual states that something is written and not what
(notes/assumptions/8.md). -/
opaque Config.freeByte : Nat → Byte

/-- The k-th free word: a choice or a value that the manual does not fix (notes/assumptions/8.md). -/
opaque Config.freeWord : Nat → Word

/-- The digest SHAKE256 of a byte string, at the given number of output bytes (R473, R474), taken as an
open function of its input (notes/assumptions/14.md). -/
opaque Config.shake256 : List Byte → Nat → List Byte

/-- Whether a Falcon-1024 signature over a digest verifies under a key: digest, key, signature (R473). -/
opaque Config.falconVerify : List Byte → List Byte → List Byte → Bool

/-- The Falcon-1024 signature that the device identity key makes over a digest (R474). -/
opaque Config.falconSign : List Byte → List Byte

/-- The fused root digest, the ROM digest, the serial number, the public key and the certificate of this
device (R473, R474, R475). -/
opaque Config.rootDigest : List Byte
opaque Config.romDigest : List Byte
opaque Config.serial : Word
opaque Config.publicKey : List Byte
opaque Config.certificate : List Byte
/-- The image in the module flash (R473). -/
opaque Config.flash : List Byte

/-- The packages that are present in this package's pod, by `pkgid`, each with the intermediates that firmware chooses for
it at random (R428). -/
opaque Config.podPackages : List (Nat × List Nat)

/-- The clusters in which a timed domain of a job holds cores on another package: of the `jobid`, the domain and the package,
at a cycle (R192, R363; notes/assumptions/30.md). -/
opaque Config.farClusters : Nat → Nat → Nat → Nat → BitVec 16

end Sys2Proof
end

