-- ==== Sys2Proof/Machine/Ops.lean ====
section
/-! DEFINITION. The named operations over registers, clocks and deadlines, and the taking of an exception:
the trap record, the task handler, the freeze, the halt wave's origin, and the trap of a Hamper thread. -/

namespace Sys2Proof.Machine

/-! ## Cores and contexts -/

def State.core (s : State) (n : Nat) : Core := tget {} s.cores n
def State.setCore (s : State) (n : Nat) (c : Core) : State := { s with cores := tset {} s.cores n c }
/-- The foreground context of core n (R31). -/
def State.fg (s : State) (n : Nat) : Ctx := (s.core n).fg
def State.setFg (s : State) (n : Nat) (x : Ctx) : State := s.setCore n { s.core n with fg := x }
def State.modFg (s : State) (n : Nat) (f : Ctx → Ctx) : State := s.setFg n (f (s.fg n))
/-- Applies a function to every core that is listed. -/
def State.mapCores (s : State) (f : Nat → Core → Core) : State :=
  { s with cores := s.cores.map (fun c => (c.1, f c.1 c.2)) }

def State.thread (s : State) (h : Nat) : Thread := tget {} s.hamper.threads h
def State.setThread (s : State) (h : Nat) (t : Thread) : State :=
  { s with hamper := { s.hamper with threads := tset {} s.hamper.threads h t } }

def State.job (s : State) (j : Nat) : Job := tget {} s.jobs j
def State.setJob (s : State) (j : Nat) (r : Job) : State := { s with jobs := tset {} s.jobs j r }

def Ctx.eng (c : Ctx) : Eng → Engine
  | .vx => c.vx
  | .mt => c.mt
  | .ce0 => c.ce0
  | .ce1 => c.ce1

def Ctx.setEng (c : Ctx) (e : Eng) (x : Engine) : Ctx :=
  match e with
  | .vx => { c with vx := x }
  | .mt => { c with mt := x }
  | .ce0 => { c with ce0 := x }
  | .ce1 => { c with ce1 := x }

/-- Engine numbers (R110, R296). -/
def engOf : Nat → Eng
  | 0 => .vx
  | 1 => .mt
  | 2 => .ce0
  | _ => .ce1

def engNum : Eng → Nat
  | .vx => 0
  | .mt => 1
  | .ce0 => 2
  | .ce1 => 3

/-- `tcause.unit` of an engine (R43). -/
def engUnit (e : Eng) : Nat := engNum e + 1

def engines : List Eng := [.vx, .mt, .ce0, .ce1]

/-- Which free value comes next: the step that uses one advances the counter (notes/assumptions/8.md). -/
def State.nextFree (s : State) : Word × State := (Config.freeWord s.free, { s with free := s.free + 1 })

/-! ## Scalar registers (R12, R394) -/

/-- Poison keys: an array code of R393 and an index within it. -/
def poisX (r : Nat) : Nat × Nat := (1, r)
def poisV (r : Nat) : Nat × Nat := (1, 32 + r)
def poisP (r : Nat) : Nat × Nat := (1, 64 + r)
def poisCsr (n : Nat) : Nat × Nat := (2, n)
def poisSem (n : Nat) : Nat × Nat := (4, n)
def poisSpool (n : Nat) : Nat × Nat := (4, 256 + n)
def poisTag (n : Nat) : Nat × Nat := (4, 512 + n)
def poisWin (n : Nat) : Nat × Nat := (4, 1024 + n)

/-- Writing a whole register or entry clears its poison (R394). -/
def Regs.clean (r : Regs) (k : Nat × Nat) : Regs := { r with pois := r.pois.filter (fun p => decide (p ≠ k)) }

/-- A scalar register of a file in which x0 reads 0. -/
def xget (t : Tbl Word) (r : BitVec 5) : Word := if r = 0 then 0 else tget 0 t r.toNat
def xset (t : Tbl Word) (r : BitVec 5) (v : Word) : Tbl Word := if r = 0 then t else tset 0 t r.toNat v

def Ctx.x (c : Ctx) (r : BitVec 5) : Word := xget c.regs.x r
/-- The sequencer's write of a scalar register. -/
def Ctx.setX (c : Ctx) (r : BitVec 5) (v : Word) : Ctx :=
  { c with
    regs := { c.regs.clean (poisX r.toNat) with x := xset c.regs.x r v }
    xord := if r = 0 then c.xord else tset 0 c.xord r.toNat c.ord }

/-- An engine entry's write of a scalar register: it gives way to a later write of the sequencer (R12). -/
def Ctx.landX (c : Ctx) (r : BitVec 5) (v : Word) (ord : Nat) : Ctx :=
  if ord < tget 0 c.xord r.toNat then c
  else { c with regs := { c.regs.clean (poisX r.toNat) with x := xset c.regs.x r v } }

def Ctx.v (c : Ctx) (r : BitVec 5) : VReg := tget 0 c.regs.v r.toNat
def Ctx.setV (c : Ctx) (r : Nat) (v : VReg) : Ctx :=
  { c with regs := { c.regs.clean (poisV r) with v := tset 0 c.regs.v r v } }
def Ctx.p (c : Ctx) (r : Nat) : PReg := tget 0 c.regs.p r
def Ctx.setP (c : Ctx) (r : Nat) (v : PReg) : Ctx :=
  { c with regs := { c.regs.clean (poisP r) with p := tset 0 c.regs.p r v } }

def Ctx.semOf (c : Ctx) (n : Nat) : BitVec 16 := tget 0 c.sem n
def Ctx.setSem (c : Ctx) (n : Nat) (v : BitVec 16) : Ctx :=
  { c with sem := tset 0 c.sem n v, regs := c.regs.clean (poisSem n) }

def Ctx.spool (c : Ctx) (n : Nat) : Spool := tget {} c.sl n
def Ctx.setSpool (c : Ctx) (n : Nat) (v : Spool) : Ctx :=
  { c with sl := tset {} c.sl n v, regs := c.regs.clean (poisSpool n) }

/-- A scalar register of the agent that moves. -/
def State.xr (s : State) (r : BitVec 5) : Word :=
  match s.cur with
  | .core n => (s.fg n).x r
  | .thread h => xget (s.thread h).x r

def State.setXr (s : State) (r : BitVec 5) (v : Word) : State :=
  match s.cur with
  | .core n => s.modFg n (fun c => c.setX r v)
  | .thread h => s.setThread h { s.thread h with x := xset (s.thread h).x r v }

def State.pc (s : State) : Word :=
  match s.cur with
  | .core n => (s.fg n).pc
  | .thread h => (s.thread h).pc

def State.setPc (s : State) (p : Word) : State :=
  match s.cur with
  | .core n => s.modFg n (fun c => { c with pc := p })
  | .thread h => s.setThread h { s.thread h with pc := p }

/-! ## Scratchpad writes (R222) -/

/-- The granules that k bytes from an offset touch, as a mask. -/
def dirtyMask (off : Nat) : Nat → BitVec 128
  | 0 => 0
  | k + 1 => dirtyMask off k ||| (1#128 <<< ((off + k) % 2 ^ 19 / 4096))

def State.markDirty (s : State) (n off k : Nat) : State :=
  s.modFg n (fun c => { c with dirty := c.dirty ||| dirtyMask off k })

/-- A write of bytes to core n's scratchpad by any path (R217, R222, R244). -/
def State.spadWrite (s : State) (n off : Nat) (bs : List Byte) : State :=
  (s.putBytes (spadKey n off) bs).markDirty n off bs.length

/-- Reads bytes of core n's scratchpad. -/
def State.spadRead (s : State) (n off k : Nat) : List Byte := s.bytes (spadKey n off) k

def State.spadNum (s : State) (n off k : Nat) : Nat := leNat (s.spadRead n off k)

/-- The first poisoned offset among k bytes of core n's scratchpad. -/
def State.spadPoison (s : State) (n off k : Nat) : Bool := (firstPoison s.poison (spadKey n off) k).isSome

/-! ## The job table (R335) and the clocks (R32 to R35) -/

def State.jt (s : State) (slot off k : Nat) : Nat := s.num (hamperBase + 64 * slot + off) k
def State.jobid (s : State) (slot : Nat) : Nat := s.jt slot 0 4
def State.jobValid (s : State) (slot : Nat) : Bool := decide (slot ≠ 0) && (s.jt slot 14 1).testBit 0
def State.rs (s : State) (slot : Nat) : Nat := fld (s.jt slot 14 1) 2 1
def State.asidOf (s : State) (slot : Nat) : Nat := s.jt slot 12 2 % 2 ^ 14
def State.ctrBase (s : State) (slot : Nat) : Nat := s.jt slot 4 2
def State.ctrLast (s : State) (slot : Nat) : Nat := s.jt slot 6 2
/-- The hardware writes `rs` and no other bit of the entry. -/
def State.setRs (s : State) (slot v : Nat) : State :=
  let b := s.jt slot 14 1
  s.putBytes (hamperBase + 64 * slot + 14) [BitVec.ofNat 8 (b / 8 * 8 + v % 4 * 2 + b % 2)]

/-- The slot that holds a `jobid`, searched from slot 1 up. -/
def findSlotGo (s : State) (jid : Nat) : Nat → Option Nat
  | 0 => none
  | k + 1 =>
    match findSlotGo s jid k with
    | some j => some j
    | none => if s.jobValid (k + 1) && decide (s.jobid (k + 1) = jid) then some (k + 1) else none

/-- The slots that can hold a job: those that the model lists, or any of the 4,096. -/
def State.slotOf (s : State) (jid : Nat) : Option Nat :=
  match s.jobs.find? (fun j => s.jobValid j.1 && decide (s.jobid j.1 = jid)) with
  | some j => some j.1
  | none => findSlotGo s jid 4095

/-- `ccyc` (R32). -/
def State.ccyc (s : State) : Word := wOf s.now + s.slew

/-- `jtime` of a job (R34): it stands still while `rs` is not 0. -/
def State.jtime (s : State) (slot : Nat) : Word :=
  if s.rs slot = 0 then s.ccyc - (s.job slot).base else (s.job slot).stopped

/-- Whether a domain holds core n. -/
def Dom.has (d : Dom) (n : Nat) : Bool :=
  if d.kind = 0 then d.clm.testBit (n / 256) else decide (d.clm % 16 = n / 256) && d.qm.testBit (n % 256 / 4)

/-- The pulses swallowed before position t of the runs of 16 cycles, at rate r (R372). -/
def swallowedTo (r t : Nat) : Nat := t / 16 * r + t % 16 * r / 16

/-- The pulses of a domain swallowed from cycle a to cycle b: at its earlier rate up to `fr`, then at its rate. -/
def Dom.swallowed (d : Dom) (a b : Nat) : Nat :=
  let f := max a (min b d.fr)
  (swallowedTo d.s0 f - swallowedTo d.s0 a) + (swallowedTo d.s b - swallowedTo d.s f)

/-- The domain of a context; outside a timed domain no pulse is swallowed (R372). -/
def State.domOf (s : State) (c : Ctx) : Option Dom :=
  if c.ident.desc.timed then
    s.sch.doms.find? (fun d => decide (d.num = c.ident.desc.tdom ∧ d.job = c.ident.job))
  else none

/-- `dcyc` of a context (R35): it counts delivered pulses while the context runs in the foreground. -/
def State.dcyc (s : State) (c : Ctx) : Nat :=
  if c.stop.isSome then c.dcSave
  else
    let o := s.slew.toNat
    match s.domOf c with
    | none => c.dcSave + (s.now - c.dcMark)
    | some d => c.dcSave + (s.now - c.dcMark) - d.swallowed (c.dcMark + o) (s.now + o)

/-- The cycles that k pulses of a domain take from cycle a on; `fuel` bounds them (R372). -/
def Dom.spanGo (d : Dom) : Nat → Nat → Nat → Nat
  | 0, _, _ => 0
  | fuel + 1, a, k =>
    if k = 0 then 0 else 1 + d.spanGo fuel (a + 1) (if d.swallowed a (a + 1) = 0 then k - 1 else k)

/-- The arithmetic cycles that k cycles of the moving agent take: in a timed domain its cycles are delivered pulses
(R6). -/
def State.span (s : State) (k : Nat) : Nat :=
  match s.cur with
  | .core n =>
    match s.domOf (s.fg n) with
    | none => k
    | some d => d.spanGo (16 * k + 16) (s.now + s.slew.toNat) k
  | .thread _ => k

/-- Cycles of the moving agent pass. -/
def State.tick (s : State) (k : Nat) : State := { s with now := s.now + s.span k }

/-- Arithmetic cycles pass. -/
def State.pass (s : State) (k : Nat) : State := { s with now := s.now + k }

/-- The instruction of `len` bytes is done after `k` cycles: the PC moves past it. -/
def State.retire (s : State) (len k : Nat) : State := (s.setPc (s.pc + wOf len)).tick k

/-- Whether the present cycle delivers core n a pulse (R372). -/
def State.pulse (s : State) (n : Nat) : Bool :=
  match s.domOf (s.fg n) with
  | none => true
  | some d => decide (d.swallowed (s.now + s.slew.toNat) (s.now + s.slew.toNat + 1) = 0)

/-- Fixes `dcyc` at its present value, before something that changes how it counts. -/
def State.markDc (s : State) (c : Ctx) : Ctx := { c with dcSave := s.dcyc c, dcMark := s.now }

/-- The time an agent's deadlines run in (R36, R333). -/
def State.agentTime (s : State) : Word :=
  match s.cur with
  | .core n => s.jtime (s.fg n).ident.job
  | .thread h =>
    let j := (s.thread h).hjob.toNat
    if j = 0 then s.ccyc else s.jtime j

/-- The deadline instant D of an operand (R36). -/
def deadlineAt (t0 d : Word) : Word :=
  if d.getLsbD 63 then wOf (d.toNat % 2 ^ 63) else t0 + wOf (min d.toNat (2 ^ 40))

/-- The engine deadline register of an engine (R42, R112). -/
def Ctx.edl (c : Ctx) (e : Eng) : Word := tget 0 c.csr.edl (engNum e)

/-! ## Events to port 0 (R339) -/

def msgSpace (m : Msg) : Nat := (32 + m.len.toNat + 63) / 64 * 64

def portUsed : List Msg → Nat
  | [] => 0
  | m :: r => msgSpace m + portUsed r

def State.port (s : State) (p : Nat) : List Msg := tget [] s.hamper.ports p
def State.setPort (s : State) (p : Nat) (q : List Msg) : State :=
  { s with hamper := { s.hamper with ports := tset [] s.hamper.ports p q } }

/-- Appends a message to a port that has room for it (R338, R331: 128 KiB a port). -/
def State.pushPort (s : State) (p : Nat) (m : Msg) : State :=
  if portUsed (s.port p) + msgSpace m ≤ 131072 then s.setPort p (s.port p ++ [m]) else s

def ctrlMsg (tag imm : Word) (jobid : Nat) (port : Nat) (payload : List Byte) : Msg :=
  { tag := tag, jobid := BitVec.ofNat 32 jobid, src := 0, kind := 1, fl := 0, ctr := 0,
    port := BitVec.ofNat 16 port, len := BitVec.ofNat 32 payload.length, imm := imm, payload := payload }

/-- An event: a CTRL message that the hardware posts to port 0. -/
def State.event (s : State) (tag imm : Word) (jobid : Nat) (payload : List Byte) : State :=
  s.pushPort 0 (ctrlMsg tag imm jobid 0 payload)

/-! ## Control packets between the packages of a job (R439) -/

/-- The packages of a job other than this one that lie in this pod. -/
def State.jobPeers (s : State) (slot : Nat) : List Nat :=
  ((s.job slot).pkgs.filter (fun p => decide (p.1 = s.podid.toNat ∧ p.2 ≠ s.pkgid))).map (fun p => p.2)

/-- The packages of a job in other pods. -/
def State.jobFar (s : State) (slot : Nat) : List (Nat × Nat) :=
  (s.job slot).pkgs.filter (fun p => decide (p.1 ≠ s.podid.toNat))

/-- The job's first package (R189). -/
def State.firstPkg (s : State) (slot : Nat) : Nat × Nat :=
  (s.job slot).pkgs.foldl (fun a p => if p.1 < a.1 ∨ (p.1 = a.1 ∧ p.2 < a.2) then p else a)
    ((s.job slot).pkgs.headD (s.podid.toNat, s.pkgid))

def State.isFirst (s : State) (slot : Nat) : Bool := decide (s.firstPkg slot = (s.podid.toNat, s.pkgid))

/-- Whether the package reaches a destination: itself, or one whose route entry has `v` = 1 (R428). -/
def State.routed (s : State) (pkg : Nat) : Bool := decide (pkg = s.pkgid) || (tget 0 s.fab.route pkg).getLsbD 63

/-- The packets sent to a destination and not yet acknowledged. -/
def State.unacked (s : State) (dst : Nat) : Nat := (s.fab.tx.filter (fun t => decide (t.pkt.dst.toNat = dst))).length

/-- The route of a packet (R429): the minimal path, or an alternative.  How full the output queues are is not
held in the state, so a free value decides (notes/assumptions/8.md). -/
def State.viaOf (s : State) (dst : Nat) : Nat × State :=
  let r := tget 0 s.fab.route dst
  let alts := ((List.range 4).filter (fun i => r.getLsbD (58 + i))).map (fun i => wfld r (22 + 11 * i) (12 + 11 * i))
  let f := s.nextFree
  if alts.isEmpty then (2047, s)
  else if r.getLsbD 56 || f.1.getLsbD 0 then (alts.getD (f.1.toNat / 2 % alts.length) 2047, f.2)
  else (2047, f.2)

/-! ### Flits (R433) -/

/-- One bit of CRC-32 (IEEE 802.3, reflected). -/
def crcBit (c : BitVec 32) : BitVec 32 := if c.getLsbD 0 then (c >>> 1) ^^^ 0xEDB88320 else c >>> 1

def crcBits : Nat → BitVec 32 → BitVec 32
  | 0, c => c
  | k + 1, c => crcBits k (crcBit c)

def crcGo : List Byte → BitVec 32 → BitVec 32
  | [], c => c
  | b :: r, c => crcGo r (crcBits 8 (c ^^^ b.setWidth 32))

/-- CRC-32 of a byte string. -/
def crc32 (bs : List Byte) : BitVec 32 := ~~~(crcGo bs (BitVec.allOnes 32))

/-- The bytes of a flit that its CRC covers. -/
def Flit.covered (data : List Byte) (fsq ack : BitVec 16) : List Byte := data ++ leBytes 2 fsq.toNat ++ leBytes 2 ack.toNat

/-- A packet's header and payload as bytes (R430). -/
def packetBytes (p : FabPkt) : List Byte :=
  leBytes 2 p.kind.toNat ++ leBytes 2 p.src.toNat ++ leBytes 2 p.dst.toNat ++ leBytes 2 p.via.toNat ++ [p.path, p.hop] ++
    leBytes 2 p.seq.toNat ++ leBytes 2 p.mid.toNat ++ leBytes 2 p.len.toNat ++ leBytes 8 p.addr.toNat ++ leBytes 8 p.aux.toNat ++ p.payload

/-- A flit of 56 bytes, with its CRC. -/
def flitOf (d : List Byte) (fsq ack : BitVec 16) : Flit :=
  { data := d, fsq := fsq, ack := ack, crc := crc32 (Flit.covered d fsq ack) }

/-- The flits of a byte string on a virtual channel, numbered from `q`; `fuel` bounds them. -/
def flitsGo (vc : Nat) (ack : BitVec 16) : Nat → Nat → List Byte → List Flit
  | 0, _, _ => []
  | fuel + 1, q, bs =>
    if bs.isEmpty then []
    else
      flitOf ((bs.take 56) ++ List.replicate (56 - bs.length) 0) (BitVec.ofNat 16 (q % 4096 + vc * 4096)) ack ::
        flitsGo vc ack fuel (q + 1) (bs.drop 56)

/-- The port by which a packet leaves: toward its intermediate, or toward its target (R428). -/
def State.portOf (s : State) (via dst : Nat) : Nat := wfld (tget 0 s.fab.route (if via = 2047 then dst else via)) 5 0

/-- How many flits a packet takes. -/
def flitCount (payload : List Byte) : Nat := (32 + payload.length + 55) / 56

def State.fport (s : State) (k : Nat) : Port := tget {} s.fab.ports k
def State.setPort' (s : State) (k : Nat) (o : Port) : State := { s with fab := { s.fab with ports := tset {} s.fab.ports k o } }

/-- The last flit that a port received in order, which every flit it sends acknowledges. -/
def Port.ackNow (o : Port) : BitVec 16 := BitVec.ofNat 16 ((o.rxNext + 4095) % 4096)

/-- Whether a port sends new flits: its link is up, and it holds no more than 1,024 with them (R433, R434). -/
def Port.sends (o : Port) (flits : Nat) : Bool :=
  (decide (o.st = .x16) || decide (o.st = .x8) || decide (o.st = .x4)) && decide (o.replay.length + flits ≤ 1024)

/-- A port with a packet's flits sent, on the virtual channel of the hops it has taken (R429): the sender keeps them until
they are acknowledged. -/
def Port.sent (o : Port) (p : FabPkt) : Port :=
  let fs := flitsGo (p.hop.toNat % 4) o.ackNow 8 o.txNext (packetBytes p)
  { o with txNext := (o.txNext + fs.length) % 4096, replay := o.replay ++ fs, owed := 0 }

/-- A port with an idle flit sent, which carries its `ack`. -/
def Port.sentIdle (o : Port) : Port :=
  { o with txNext := (o.txNext + 1) % 4096, owed := 0
           replay := o.replay ++ [flitOf (List.replicate 56 0) (BitVec.ofNat 16 (o.txNext % 4096 + 2 ^ 15)) o.ackNow] }

/-- The packets of a port's output queue that may be sent are, in order. -/
def Port.drain : Nat → Port → Port
  | 0, o => o
  | k + 1, o =>
    match o.wait with
    | [] => o
    | p :: r => if o.sends (flitCount p.payload) then Port.drain k (({ o with wait := r } : Port).sent p) else o

/-- Puts a packet on a port: it is sent, or waits in the port's output queue. -/
def State.emitOn (s : State) (k : Nat) (p : FabPkt) : State :=
  let o := s.fport k
  s.setPort' k (if o.wait.isEmpty && o.sends (flitCount p.payload) then o.sent p else { o with wait := o.wait ++ [p] })

def State.emit (s : State) (p : FabPkt) : State := s.emitOn (s.portOf p.via.toNat p.dst.toNat) p

/-- Injects a packet: it takes the next `seq` toward its target (R431) and its route. -/
def State.injectNow (s : State) (p : FabPkt) : State :=
  let v := s.viaOf p.dst.toNat
  let s := v.2
  let q := tget 0 s.fab.txSeq p.dst.toNat
  let p := { p with seq := BitVec.ofNat 16 q, via := BitVec.ofNat 16 v.1 }
  let s : State := { s with fab := { s.fab with
    txSeq := tset 0 s.fab.txSeq p.dst.toNat ((q + 1) % 2 ^ 16)
    tx := s.fab.tx ++ [{ pkt := p, sent := s.now, tries := 0 }] } }
  s.emit p

/-- Whether a packet has to wait at the source: 512 packets to its target are unacknowledged, its port holds as many
flits as it can keep, or an earlier packet to the target waits (R431, R433). -/
def State.mustWait (s : State) (p : FabPkt) : Bool :=
  decide (512 ≤ s.unacked p.dst.toNat) ||
    decide (1024 < (s.fport (s.portOf 2047 p.dst.toNat)).replay.length + flitCount p.payload)

/-- Sends a fabric packet, with what travels beside its bytes: it is injected, or waits at the source (R431).  A packet
to a destination without a route is not sent (R428). -/
def State.injectWith (s : State) (kind dst mid path : Nat) (addr aux : Word) (payload : List Byte) (pois : List Nat)
    (part : List (Nat × Byte)) : State :=
  let p : FabPkt :=
    { kind := BitVec.ofNat 16 kind, src := BitVec.ofNat 16 s.pkgid, dst := BitVec.ofNat 16 dst, via := 2047,
      path := BitVec.ofNat 8 path, hop := 0, seq := 0, mid := BitVec.ofNat 16 mid,
      len := BitVec.ofNat 16 payload.length, addr := addr, aux := aux, payload := payload, pois := pois, part := part }
  if s.routed dst = false then s
  else if s.mustWait p ∨ s.fab.out.any (fun x => decide (x.dst.toNat = dst)) = true then
    { s with fab := { s.fab with out := s.fab.out ++ [p] } }
  else s.injectNow p

def State.inject (s : State) (kind dst mid path : Nat) (addr aux : Word) (payload : List Byte) : State :=
  s.injectWith kind dst mid path addr aux payload [] []

/-- The byte mask of a run of cells, from their lowest address. -/
def cellMask (a : Nat) (cells : List (Nat × Byte)) : Nat :=
  (List.range 64).foldl (fun m j => if cells.any (fun c => decide (c.1 = a + j)) then m + 2 ^ j else m) 0

/-- The bytes of a span, 0 where no cell lies. -/
def cellSpan (a k : Nat) (cells : List (Nat × Byte)) : List Byte :=
  (List.range k).map (fun j => ((cells.find? (fun c => decide (c.1 = a + j))).map (fun c => c.2)).getD 0)

/-- Sends a write of cells at addresses of another package, which lie within 256 bytes, as one packet (R430, R463): its
byte mask, and beside it the bytes past the mask that no cell holds. -/
def State.injectWrite (s : State) (pkg mid path : Nat) (cells : List (Nat × Byte)) (pois : List Nat)
    (part : List (Nat × Byte)) : State :=
  match cells with
  | [] => s
  | c :: r =>
    let lo := r.foldl (fun a x => min a x.1) c.1
    let k := r.foldl (fun a x => max a x.1) c.1 + 1 - lo
    let holes := (List.range k).filter (fun j => decide (64 ≤ j) && !cells.any (fun x => decide (x.1 = lo + j)))
    s.injectWith 0 pkg mid path (wOf lo) (wOf (cellMask lo cells)) (cellSpan lo k cells) (pois.map (fun a => a - lo))
      (holes.map (fun j => (j, 0)) ++ part.map (fun x => (x.1 - lo, x.2)))

/-- The port of a message between Hampers that carries a control payload, and that of one between the members of a
collective; software's ports end at 63 (notes/assumptions/13.md). -/
def ctrlPort : Nat := 65
def collPort : Nat := 64

/-- Sends a control payload to one package: by the fabric in the pod, else by Ultra Ethernet Transport (R439). -/
def State.tellPkg (s : State) (slot : Nat) (p : Nat × Nat) (payload : List Byte) : State :=
  if p.1 = s.podid.toNat then s.inject 8 p.2 0 4 0 0 payload
  else { s with hamper := { s.hamper with sent := s.hamper.sent ++
    [{ dest := wOf (2 ^ 63 + p.1 * 2 ^ 16 + p.2), msg := ctrlMsg 0 0 (s.jobid slot) ctrlPort payload }] } }

/-- Sends one control payload to every other package of a job.  The payload's layout is the model's (notes/assumptions/13.md). -/
def State.castJob (s : State) (slot : Nat) (payload : List Byte) : State :=
  let s' := (s.jobPeers slot).foldl (fun s p => s.tellPkg slot (s.podid.toNat, p) payload) s
  (s.jobFar slot).foldl (fun s p => s.tellPkg slot p payload) s'

/-! ## The freeze (R380, R381) -/

/-- A started command that is captured at `dcyc` c: its delays become what remains (R381).  What it still reads or
writes before the freeze takes effect follows before the next turn (`State.drainFrozen`). -/
def Pending.capture (p : Pending) (c : Nat) : Pending :=
  { p with ready := p.ready - c, lease := p.lease - c, drain := p.work || !p.wr.isEmpty }

/-- The reverse, at the resume at `dcyc` c (R382). -/
def Pending.release (p : Pending) (c : Nat) : Pending := { p with ready := p.ready + c, lease := p.lease + c }

def insertPending (p : Pending) : List Pending → List Pending
  | [] => [p]
  | q :: r => if p.ord < q.ord then p :: q :: r else q :: insertPending p r

/-- The in-flight queue at a freeze: the started VX and MT commands, in capture order (R381). -/
def Ctx.captured (c : Ctx) (dc : Nat) : List Pending :=
  (c.inflight ++ c.vx.run ++ c.mt.run).foldl (fun l p => insertPending (p.capture dc) l) []

/-- Freezes a running context at the present `dcyc` (R380). -/
def State.freezeCtx (s : State) (c : Ctx) (why : Stop) : Ctx :=
  let dc := s.dcyc c
  { c with
    dcSave := dc
    dcMark := s.now
    inflight := c.captured dc
    vx := { c.vx with run := [] }
    mt := { c.mt with run := [] }
    bfmtPend := none
    stop := some why }

/-- Resumes a frozen context (R382, R447): its in-flight entries are scheduled at `dcyc` + d, and a wait makes one
test. -/
def State.thawCtx (s : State) (c : Ctx) : Ctx :=
  { c with
    dcMark := s.now
    inflight := c.inflight.map (fun p => p.release c.dcSave)
    wait := c.wait.map (fun (w : Wait) => { w with fresh := true })
    stop := none }

/-! ## The trap record (R378) -/

def cwWord (cause unit lvl : Nat) (handler bpk : Bool) : Word :=
  wOf (cause % 256 + unit % 256 * 2 ^ 8 + lvl % 8 * 2 ^ 16 + boolNat handler * 2 ^ 19 + boolNat bpk * 2 ^ 20)

/-- Writes the trap record of a context at a cut (R377, R378). -/
def State.writeRec (s : State) (c : Ctx) (cause unit lvl : Nat) (handler bpk : Bool) (cut val : Word) : Ctx :=
  { c with rcd := { c.rcd with
      cpc := cut
      cvx := wOf c.vx.seq.toNat
      cmt := wOf c.mt.seq.toNat
      cce0 := wOf c.ce0.seq.toNat
      cce1 := wOf c.ce1.seq.toNat
      cw := cwWord cause unit lvl handler bpk
      cval := val
      cjt := s.jtime c.ident.job
      cdc := wOf (s.dcyc c)
      cifq := wOf (if handler then 0 else (c.captured (s.dcyc c)).length % 128) } }

/-- Whether a cause goes first to the task's handler (R41, R43, R385). -/
def Ctx.takesHandler (c : Ctx) (cause : Nat) : Bool :=
  c.csr.tvec.getLsbD 0 && !c.hact &&
    (decide (cause = 4) || decide (cause = 5) || (decide (cause = 3) && c.csr.tvec.getLsbD 1))

/-- The address of the task handler (R43, R383). -/
def handlerAddr (tvec : Word) : Word := tvec &&& 0xFFFFFFFFFFFFFFFC

/-! ## The halt wave's origin (R437 to R440) -/

def originWord (cause pod pkg : Nat) (thr : Bool) (unit : Nat) : Word :=
  wOf (cause % 256 * 2 ^ 56 + pod % 2 ^ 16 * 2 ^ 28 + pkg % 2 ^ 11 * 2 ^ 17 + boolNat thr * 2 ^ 16 + unit % 2 ^ 16)

/-- Inserts an origin in the order of R443: Job Time, then pod, package, thr and unit. -/
def insertOrigin (o : Word × Word) : List (Word × Word) → List (Word × Word)
  | [] => [o]
  | p :: r =>
    if o.2.toNat < p.2.toNat ∨ (o.2 = p.2 ∧ wfld o.1 43 0 < wfld p.1 43 0) then o :: p :: r
    else p :: insertOrigin o r

/-- The control payload of a halt wave: a tag, the `jobid`, the origin word and its Job Time (R438). -/
def wavePayload (jid : Nat) (origin jt : Word) : List Byte :=
  [1] ++ leBytes 4 jid ++ leBytes 8 origin.toNat ++ leBytes 8 jt.toNat

/-- Freezes every running core of a job; each writes cause 0x0D and the origin word (R437, R440). -/
def State.freezeJob (s : State) (slot : Nat) (origin : Word) : State :=
  s.mapCores (fun _ k =>
    if k.busy ∧ k.fg.ident.job = slot ∧ k.fg.stop = none then
      { k with fg := s.freezeCtx (s.writeRec k.fg 0x0D 0 7 false false k.fg.pc origin) .haltWave }
    else k)

/-- This package takes a wave: `jtime` stops, `rs` becomes 1, the cores of the job freeze, and a gang
resume that was named is cancelled (R440, R448).  A further wave only adds its origin. -/
def State.takeWave (s : State) (slot : Nat) (origin jt : Word) (own : Bool) : State :=
  let r := s.job slot
  if r.ph = .run then
    let s1 := s.freezeJob slot origin
    let s2 := (s1.setJob slot { r with
        ph := .freezing, stopped := s.jtime slot, origins := [(origin, jt)], first := some (origin, jt),
        settled := false, more := 0, reports := [], gang := none, ts := none }).setRs slot 1
    if own then s2.castJob slot (wavePayload (s.jobid slot) origin jt) else s2
  else if r.origins.contains (origin, jt) then s
  else s.setJob slot { r with origins := insertOrigin (origin, jt) r.origins }

/-- The unit field of a core in an origin word (R438). -/
def coreUnit (n : Nat) : Nat := n / 256 * 256 + n % 256

/-- A core starts a wave with a cause (R437). -/
def State.originateCore (s : State) (n slot cause : Nat) (jt : Word) : State :=
  s.takeWave slot (originWord cause s.podid.toNat s.pkgid false (coreUnit n)) jt true

/-! ## Taking a trap (R377 to R385) -/

/-- Core n takes a trap at a cut.  A trap inside a step leaves the core frozen and only adds an origin
(R444, R446); a recoverable cause enters the handler (R383); a breakpoint starts the halt wave (R109,
R437); any other cause freezes the core for containment (R389). -/
def State.takeTrap (s : State) (n cause unit : Nat) (cut val : Word) : State :=
  let k := s.core n
  let c := { k.fg with wait := if unit = 0 then none else k.fg.wait, hold := none, bfmtPend := none, exiting := false }
  if k.stepping.isSome then
    let c1 := s.writeRec c cause unit 7 false (decide (cause = 0x0C)) cut val
    let s1 := s.setCore n { k with fg := { c1 with pc := cut }, stepRes := some (2, BitVec.ofNat 8 cause) }
    s1.setJob c.ident.job { s.job c.ident.job with
      origins := insertOrigin (originWord cause s.podid.toNat s.pkgid false (coreUnit n), s.jtime c.ident.job)
        (s.job c.ident.job).origins }
  else if c.takesHandler cause then
    let c1 := s.writeRec c cause unit 7 true false cut val
    s.setFg n { c1 with
      csr := { c1.csr with tcause := wOf (cause + unit * 256), tepc := cut, tval := val }
      hact := true
      pc := handlerAddr c1.csr.tvec }
  else if cause = 0x0C then
    let c1 := s.writeRec c cause unit 7 false true cut val
    (s.setFg n { s.freezeCtx c1 .haltWave with pc := cut }).originateCore n c.ident.job cause
      (s.jtime c.ident.job)
  else
    let c1 := s.writeRec c cause unit 7 false false cut val
    s.setFg n { s.freezeCtx c1 .containment with pc := cut }

/-- A trap of a Hamper thread (R334): the event to port 0, and the restart at `hvec`. -/
def State.threadTrap (s : State) (h cause : Nat) (val : Word) : State :=
  let t := s.thread h
  let jid := if t.hjob = 0 then 0 else s.jobid t.hjob.toNat
  let s1 := s.event (wOf cause) (wOf h) jid []
  s1.setThread h { t with
    hcause := wOf cause
    hepc := t.pc
    hval := val
    wait := none
    x := xset (xset (xset t.x 10 (wOf cause)) 11 t.pc) 12 val
    pc := t.hvec &&& 0xFFFFFFFFFFFFFFFE }

/-- A trap raised by the instruction that the moving agent executes: precise at that instruction. -/
def State.trapHere (s : State) (cause : Nat) (val : Word) : State :=
  match s.cur with
  | .core n => (s.takeTrap n cause 0 (s.fg n).pc val).tick 1
  | .thread h => (s.threadTrap h cause val).tick 1

/-- Runs a meaning that only a compute core has; a Hamper thread takes illegal instruction (R82, R330). -/
def State.onCore (s : State) (w : Word) (f : Nat → State) : State :=
  match s.cur with
  | .core n => f n
  | .thread _ => s.trapHere 0x01 w

/-- Runs a meaning that only a Hamper thread has; a core takes illegal instruction (R82). -/
def State.onThread (s : State) (w : Word) (f : Nat → State) : State :=
  match s.cur with
  | .core _ => s.trapHere 0x01 w
  | .thread h => f h

/-- Runs a class SY meaning: legal only in a supervisor context (R82). -/
def State.onSup (s : State) (w : Word) (f : Nat → State) : State :=
  s.onCore w (fun n => if (s.fg n).ident.desc.sup then f n else s.trapHere 0x01 w)

end Sys2Proof.Machine
end

