-- ==== Sys2Proof/Machine/Hazard.lean ====
section
/-! DEFINITION. Which registers an instruction reads and writes (R12): what the interlocks of R282 and the
poison checks of R394 go by.  A register is named by a key: scalars 0 to 31, vectors from 32, predicates
from 64, tiles from 72, codebooks from 80, the binding 96, `vflags` 97, `srseed` 98, `vfmode` 99, `dlesc` 100. -/

namespace Sys2Proof.Machine

def kx (r : BitVec 5) : List Nat := if r = 0 then [] else [r.toNat]
def kv (r : BitVec 5) : List Nat := [32 + r.toNat]
def kp (r : Nat) : List Nat := [64 + r]
def kt (t : BitVec 3) : List Nat := [72 + t.toNat]
def kcb (n : Nat) : List Nat := [80 + n % 16]
def kbind : Nat := 96
def kflags : Nat := 97
def kseed : Nat := 98
def kmode : Nat := 99
/-- `dlesc`, which the completions of `VLDW` and `VTRD` change (R40). -/
def kesc : Nat := 100

/-- What a Format V word reads: its predicate, its sources, and under a predicate its old destination (an inactive
element keeps it). -/
def vSrcs (f : FmtV) (b c : Bool) : List Nat :=
  (if f.pe then kp f.pg.toNat else []) ++ (if f.sm.getLsbD 0 then [] else kv f.a) ++
    (if b then kv f.b else []) ++ (if c then kv f.c else [])
def vOld (f : FmtV) : List Nat := if f.sm.getLsbD 1 then [] else kv f.d
def vReads (f : FmtV) (b c : Bool) : List Nat := vSrcs f b c ++ (if f.pe then vOld f else [])
def vWrites (f : FmtV) : List Nat := if f.sm.getLsbD 1 then [] else kv f.d
/-- A Format V word that can raise flags for some element. -/
def vfWrites (f : FmtV) : List Nat := vWrites f ++ [kflags]
/-- One that can for a floating-point type, or for an integer type. -/
def vFlagF (f : FmtV) : List Nat := if tyF f.ty then vfWrites f else vWrites f
def vFlagI (f : FmtV) : List Nat := if tyF f.ty then vWrites f else vfWrites f
def viReads (f : FmtVI) : List Nat :=
  (if f.pe then kp f.pg.toNat else []) ++ (if f.sm.getLsbD 0 then [] else kv f.a) ++
    (if f.pe && !f.sm.getLsbD 1 then kv f.d else [])
def viWrites (f : FmtVI) : List Nat := if f.sm.getLsbD 1 then [] else kv f.d
def vmReads (f : FmtVM) (st ix : Bool) : List Nat :=
  (if f.pe then kp f.pg.toNat else []) ++ (if ix then kv f.b else []) ++
    (if (st || f.pe) && !f.sm.getLsbD 1 then kv f.d else [])
def vmWrites (f : FmtVM) : List Nat := if f.sm.getLsbD 1 then [] else kv f.d
def pReads (f : FmtV) : List Nat := kp (f.a.toNat % 8) ++ kp (f.b.toNat % 8)

/-- Every codebook: those a command may read whose number is known only from its operands (R157, R158, R184), or from
a bank's format (R178). -/
def allCb : List Nat := (List.range 16).map (fun k => 80 + k)

/-- What an `MMA` of two 4-bit sides reads of the binding and its codebooks (R73, R184). -/
def mmaTbl (f : FmtM) : List Nat := if f.fa = 7 ∨ f.fa = 8 then kbind :: allCb else []

/-- Whether a command under a `vfmode` draws from the generator (R57): those that round under mode 4. -/
def drawsSeed (i : Instr) (vfm : Word) : Bool :=
  let m := decide (wfld vfm 2 0 = 4)
  match i with
  | .vadd f => m && tyF f.ty
  | .vsub f => m && tyF f.ty
  | .vmul f => m && tyF f.ty
  | .vfma _ => m
  | .vfms _ => m
  | .vfnma _ => m
  | .vdiv f => m && tyF f.ty
  | .vsqrt _ => m
  | .vredsum f => m && tyF f.ty
  | .vcvt _ => m
  | .vcvtSat _ => m
  | .vqmx _ => m
  | .vdqmx _ => m
  | .mdrain f => decide (f.aux.toNat % 8 = 4)
  | _ => false

/-- What an engine command reads from the register files when it starts; its scalar operands are captured
when it is forwarded. -/
def engReads : Instr → List Nat
  | .vadd f => vReads f true false
  | .vsub f => vReads f true false
  | .vmul f => vReads f true false
  | .vmulh f => vReads f true false
  | .vfma f => vReads f true true
  | .vfms f => vReads f true true
  | .vfnma f => vReads f true true
  | .vdiv f => vReads f true false
  | .vsqrt f => vReads f false false
  | .vmin f => vReads f true false
  | .vmax f => vReads f true false
  | .vabs f => vReads f false false
  | .vneg f => vReads f false false
  | .vadds f => vReads f true false
  | .vsubs f => vReads f true false
  | .vshl f => vReads f (!f.fx) false
  | .vshr f => vReads f (!f.fx) false
  | .vsra f => vReads f (!f.fx) false
  | .vaddi f => viReads f
  | .vcmp f => (if f.pe then kp f.pg.toNat else []) ++ (if f.sm.getLsbD 0 then [] else kv f.a) ++ kv f.b ++
      (if f.pe then kp (f.d.toNat % 8) else [])
  | .vredsum f => vSrcs f false false
  | .vredmin f => vSrcs f false false
  | .vredmax f => vSrcs f false false
  | .vand f => vReads f true false
  | .vandNb f => vReads f true false
  | .vor f => vReads f true false
  | .vorNb f => vReads f true false
  | .vxor f => vReads f true false
  | .vxorNb f => vReads f true false
  | .vlut3 f => kv f.a ++ kv f.b ++ kv f.c
  | .vfsh f => vReads f true (!f.fx)
  | .vfshw f => vReads f true false
  | .vrot f => vReads f (!f.fx) false
  | .vpopc f => vReads f false false
  | .vclz f => vReads f false false
  | .vlrot f => viReads f
  | .vshuf f => vReads f true false
  | .vslide f => viReads f
  | .vbcast f => (if f.pe then kp f.pg.toNat ++ kv f.d else [])
  | .vbcastEl f => vReads f false false
  | .vzip f => vReads f true false
  | .vzipHi f => vReads f true false
  | .vunzip f => vReads f true false
  | .vunzipOdd f => vReads f true false
  | .vsel f => vSrcs f true false
  | .vmvx f => kv f.a
  | .vmxv f => kv f.d
  | .pand f => pReads f
  | .por f => pReads f
  | .pxor f => pReads f
  | .pandn f => pReads f
  | .pset _ => []
  | .pcnt f => kp (f.a.toNat % 8)
  | .vcvt f => vReads f false false ++ (if tyWidth f.ty < tyWidth f.c then kv f.d else [])
  | .vcvtSat f => vReads f false false ++ (if tyWidth f.ty < tyWidth f.c then kv f.d else [])
  | .vpack f => kv f.a ++ kv (f.a + 1) ++ kv (f.a + 2) ++ kv (f.a + 3)
  | .vunpk f => kv f.a ++ kv (f.a + 1) ++ kv (f.a + 2)
  | .vqmx f => vReads f false false ++ kv f.d ++ (if f.ty = 8 then allCb else [])
  | .vdqmx f => vReads f false false ++ (if f.ty = 8 then allCb else [])
  | .vcbl f => vReads f false false ++ kcb f.c.toNat
  | .vcblEnc f => vReads f false false ++ kcb f.c.toNat ++ kv f.d
  | .vld f => vmReads f false false
  | .vlds f => vmReads f false false
  | .vldx f => vmReads f false true
  | .vst f => vmReads f true false
  | .vsts f => vmReads f true false
  | .vstx f => vmReads f true true
  | .mmaAcc f => kt f.t ++ mmaTbl f
  | .mmaOvw f => kt f.t ++ mmaTbl f
  | .mmaSacc f => kt f.t ++ mmaTbl f
  | .mmaSovw f => kt f.t ++ mmaTbl f
  | .mgetr f => kt f.t
  | .msetr f => kt f.t ++ kv f.a
  | .mgetc f => kt f.t
  | .msetc f => kt f.t ++ kv f.a
  | .mzero f => kt f.t
  | .mcfg f => kt f.t
  | .mload f => kt f.t
  | .mhadRow f => kt f.t
  | .mhadCol f => kt f.t
  | .mdrain f => kt f.t ++ (if f.fa = 8 then allCb else [])
  | .mcopy f => kt f.t ++ [72 + f.aux.toNat % 8]
  | .mcopyAdd f => kt f.t ++ [72 + f.aux.toNat % 8]
  | .mbind _ => allCb
  | _ => []

/-- What an engine command writes in the register files. -/
def engWrites : Instr → List Nat
  | .vadd f => vFlagF f
  | .vsub f => vFlagF f
  | .vmul f => vFlagF f
  | .vmulh f => vWrites f
  | .vfma f => vfWrites f
  | .vfms f => vfWrites f
  | .vfnma f => vfWrites f
  | .vdiv f => vfWrites f
  | .vsqrt f => vfWrites f
  | .vmin f => vFlagF f
  | .vmax f => vFlagF f
  | .vabs f => vFlagI f
  | .vneg f => vFlagI f
  | .vadds f => vfWrites f
  | .vsubs f => vfWrites f
  | .vshl f => vWrites f
  | .vshr f => vWrites f
  | .vsra f => vWrites f
  | .vaddi f => viWrites f
  | .vcmp f => kp (f.d.toNat % 8) ++ (if tyF f.ty then [kflags] else [])
  | .vredsum f => vFlagF f
  | .vredmin f => vFlagF f
  | .vredmax f => vFlagF f
  | .vand f => vWrites f
  | .vandNb f => vWrites f
  | .vor f => vWrites f
  | .vorNb f => vWrites f
  | .vxor f => vWrites f
  | .vxorNb f => vWrites f
  | .vlut3 f => kv f.d
  | .vfsh f => vWrites f
  | .vfshw f => vWrites f
  | .vrot f => vWrites f
  | .vpopc f => vWrites f
  | .vclz f => vWrites f
  | .vlrot f => viWrites f
  | .vshuf f => vWrites f
  | .vslide f => viWrites f
  | .vbcast f => vWrites f
  | .vbcastEl f => vWrites f
  | .vzip f => vWrites f
  | .vzipHi f => vWrites f
  | .vunzip f => vWrites f
  | .vunzipOdd f => vWrites f
  | .vsel f => vWrites f
  | .vmvx f => kx f.d
  | .vmxv f => kv f.d
  | .pand f => kp (f.d.toNat % 8)
  | .por f => kp (f.d.toNat % 8)
  | .pxor f => kp (f.d.toNat % 8)
  | .pandn f => kp (f.d.toNat % 8)
  | .pset f => kp (f.d.toNat % 8)
  | .pcnt f => kx f.d
  | .vcvt f => vfWrites f
  | .vcvtSat f => vfWrites f
  | .vpack f => vWrites f
  | .vunpk f => vWrites f
  | .vqmx f => vfWrites f ++ kx f.b
  | .vdqmx f => vfWrites f
  | .vcbl f => vWrites f
  | .vcblEnc f => vfWrites f
  | .vld f => vmWrites f
  | .vlds f => vmWrites f
  | .vldx f => vmWrites f
  | .vldw f => kv f.d ++ kx f.st ++ [kesc]
  | .vtrd f => kv f.d ++ kx f.st ++ [kesc]
  | .mmaAcc f => kt f.t
  | .mmaOvw f => kt f.t
  | .mmaSacc f => kt f.t
  | .mmaSovw f => kt f.t
  | .mzero f => kt f.t
  | .mcfg f => kt f.t
  | .mgetr f => kv f.a
  | .msetr f => kt f.t
  | .mgetc f => kv f.a
  | .msetc f => kt f.t
  | .mload f => kt f.t
  | .mhadRow f => kt f.t
  | .mhadCol f => kt f.t
  | .mdrain _ => [kflags]
  | .mcbld f => kcb f.aux.toNat ++ [kbind]
  | .mbind _ => [kbind]
  | .mcopy f => kt f.t
  | .mcopyAdd f => kt f.t
  | _ => []

/-- The scalar registers that an RV64 operation reads. -/
def rvRegs : RvOp → List Nat
  | .alu _ _ a b => kx a ++ kx b
  | .aluw _ _ a b => kx a ++ kx b
  | .imm _ _ a _ => kx a
  | .shift _ _ a _ => kx a
  | .unary _ _ a => kx a
  | .lui _ _ => []
  | .auipc _ _ => []
  | .jal _ _ => []
  | .jalr _ a _ => kx a
  | .branch _ a b _ => kx a ++ kx b

def rvDest : RvOp → List Nat
  | .alu _ d _ _ => kx d
  | .aluw _ d _ _ => kx d
  | .imm _ d _ _ => kx d
  | .shift _ d _ _ => kx d
  | .unary _ d _ => kx d
  | .lui d _ => kx d
  | .auipc d _ => kx d
  | .jal d _ => kx d
  | .jalr d _ _ => kx d
  | .branch _ _ _ _ => []

def qRegs (f : FmtQ) : List Nat := kx f.a ++ kx f.b ++ kx f.c
def dRegs (f : FmtD) : List Nat := kx f.a ++ kx f.b ++ kx f.dl

/-- The major ops of Format D in classes SQ, NT and SY (R87, R91, R92). -/
def isFmtD (cls major : Nat) : Bool :=
  if cls = 0 then [1, 2, 9, 16, 18, 20, 25, 26, 27, 36].contains major
  else if cls = 4 then [1, 2, 3, 10, 13].contains major
  else [2, 3, 8].contains major

/-- The register keys that an instruction reads at the sequencer. -/
def seqReads : Instr → List Nat
  | .scalarLoad f => kx f.rs1
  | .scalarStore f => kx f.rs1 ++ kx f.rs2
  | .rv64IntegerOp o _ => rvRegs o
  | .csrAccess f => (if f.f3.toNat < 4 then kx f.rs1 else []) ++
      (if f.csr = 0x801 then [kflags] else if f.csr = 0x808 then [kseed]
        else if f.csr = 0x806 then [kesc]
        else if 0x810 ≤ f.csr.toNat ∧ f.csr.toNat ≤ 0x817 then [72 + (f.csr.toNat - 0x810)] else [])
  | .bfmtWrite f => if f.f3.toNat < 4 then kx f.rs1 else []
  | .ecall => [10, 11, 12]
  | .semwait f => kx f.dl
  | .vldw f => kx f.a ++ kx f.dl
  | .vtrd f => kx f.a ++ kx f.dl
  | .vshl f => if f.fx then kx f.b else []
  | .vshr f => if f.fx then kx f.b else []
  | .vsra f => if f.fx then kx f.b else []
  | .vrot f => if f.fx then kx f.b else []
  | .vfsh f => if f.fx then kx f.c else []
  | .vfshw f => kx f.c
  | .vbcast f => kx f.a
  | .vbcastEl f => kx f.b
  | .vmvx f => kx f.b
  | .vmxv f => kx f.a ++ kx f.b
  | .pset f => kx f.a
  | .vqmx f => kx f.c
  | .vdqmx f => kx f.b ++ kx f.c
  | .vld f => kx f.a
  | .vlds f => kx f.a ++ kx f.b
  | .vldx f => kx f.a
  | .vst f => kx f.a
  | .vsts f => kx f.a ++ kx f.b
  | .vstx f => kx f.a
  | .mmaAcc f => kx f.a ++ kx f.b
  | .mmaOvw f => kx f.a ++ kx f.b
  | .mmaSacc f => kx f.a ++ kx f.b
  | .mmaSovw f => kx f.a ++ kx f.b
  | .mcfg f => kx f.a
  | .mgetr f => kx f.b
  | .msetr f => kx f.b
  | .mgetc f => kx f.b
  | .msetc f => kx f.b
  | .mload f => kx f.a ++ kx f.b
  | .mdrain f => kx f.a ++ kx f.b
  | .mcbld f => kx f.a
  | .mbind f => kx f.a
  | i =>
    match encode64 i with
    | some w =>
      match getClass w with
      | 1 => []
      | 2 => []
      | 3 => []
      | c => if isFmtD c (getMajor w) then dRegs (getD w) else qRegs (getQ w)
    | none => []

/-- Whether two lists of keys meet. -/
def meets (a b : List Nat) : Bool := a.any (fun k => b.contains k)

/-- The register that a started command will still write (R381). -/
def pendReg (p : Pending) : List Nat :=
  match p.kind with
  | 1 => if p.spool.isSome then [] else [32 + p.dst]
  | 2 => [64 + p.dst]
  | 3 => if p.dst = 0 then [] else [p.dst]
  | 4 => [72 + p.dst]
  | 5 => [72 + p.dst]
  | 6 => [32 + p.dst, p.r2]
  | _ => []

/-- The keys that a started command will still write. -/
def pendWrites (p : Pending) : List Nat := pendReg p ++ p.keys

/-- The instruction of a queue entry. -/
def QEntry.instr (q : QEntry) : Option Instr := decode64 q.word q.rest
/-- What a command reads and writes, with the generator where it draws. -/
def readsOf (i : Instr) (vfm : Word) : List Nat := engReads i ++ (if drawsSeed i vfm then [kseed] else [])
def writesOf (i : Instr) (vfm : Word) : List Nat := engWrites i ++ (if drawsSeed i vfm then [kseed] else [])
def QEntry.reads (q : QEntry) : List Nat := (q.instr.map (fun i => readsOf i q.vfm)).getD []
def QEntry.writes (q : QEntry) : List Nat := (q.instr.map (fun i => writesOf i q.vfm)).getD []

/-- The keys that a command holds from its start until it is ready, beside its register and its tile. -/
def heldKeys (i : Instr) : List Nat := (engWrites i).filter (fun k => decide (80 ≤ k))

/-- Every command that has started and not completed. -/
def Ctx.inRun (c : Ctx) : List Pending := c.vx.run ++ c.mt.run ++ c.inflight

/-- Those of some keys whose write by an entry still counts: not a scalar that the sequencer has written since. -/
def Ctx.live (c : Ctx) (ord : Nat) (ks : List Nat) : List Nat :=
  ks.filter (fun k => decide (32 ≤ k) || decide (tget 0 c.xord k ≤ ord))

/-- The keys that unfinished engine work will write: started commands, queued entries, reads under way. -/
def Ctx.busyKeys (c : Ctx) : List Nat :=
  (c.inRun.map (fun p => c.live p.ord (pendWrites p))).flatten ++
    ((c.vx.q ++ c.vx.lane ++ c.mt.q ++ c.mt.lane).map (fun q => c.live q.ord q.writes)).flatten ++
    (c.vreads.map (fun v => c.live v.entry.ord (engWrites v.instr))).flatten

/-- The scalar registers that a barrier's answer will still write (R208). -/
def Ctx.baraKeys (c : Ctx) : List Nat := (c.baraTo.map (fun b => kx b.2.2)).flatten

/-- The destination register of a 32-bit field at bit 16 of an instruction, or of an RV64 instruction. -/
def seqDest : Instr → List Nat
  | .scalarLoad f => kx f.rd
  | .rv64IntegerOp o _ => rvDest o
  | .csrAccess f => kx f.rd
  | .bfmtWrite f => kx f.rd
  | i =>
    match encode64 i with
    | some w => if getClass w = 1 ∨ getClass w = 2 ∨ getClass w = 3 then [] else kx (getF5 w 16)
    | none => []

/-- The interlock of R12 and R282: the sequencer waits for a register that unfinished work will write before it
reads it, and for a barrier's answer before it writes the answer's register. -/
def Ctx.stalls (c : Ctx) (i : Instr) : Bool :=
  meets (seqReads i) (c.busyKeys ++ c.baraKeys) || meets (seqDest i) c.baraKeys

/-! ## Poison of control entries (R394) -/

/-- The semaphores of a word, and the spools of a vector word. -/
def unitCtl (w : Word) : List (Nat × Nat) :=
  let sm := getClass w = 1 ∧ getMajor w ≠ 27 ∧ getMajor w < 60
  [poisSem (getWait w).toNat, poisSem (getSig w).toNat] ++
    (if sm ∧ w.getLsbD 37 = true then [poisSpool ((getF5 w 21).toNat % 16)] else []) ++
    (if sm ∧ w.getLsbD 38 = true then [poisSpool ((getF5 w 16).toNat % 16)] else [])

def copyCtl (p : Packet) : List (Nat × Nat) := [poisSem p.cmd.wait.toNat, poisSem p.cmd.sig.toNat]

/-- The semaphores, spools and tags that an instruction or engine entry reads. -/
def ctlReads (i : Instr) : List (Nat × Nat) :=
  match i with
  | .semwait f => [poisSem (f.aux.toNat + f.b.toNat % 4 * 64)]
  | .semsig f => [poisSem (f.imm.toNat % 256)]
  | .semadd f => [poisSem (f.imm.toNat % 256)]
  | .semrd f => [poisSem (f.imm.toNat % 256)]
  | .sladvCons f => [poisSpool (f.imm.toNat % 16)]
  | .sladvProd f => [poisSpool (f.imm.toNat % 16)]
  | .sltokRd f => [poisSpool (f.imm.toNat % 16)]
  | .sltokPut f => [poisSpool (f.imm.toNat % 16)]
  | .sltokTake f => [poisSpool (f.imm.toNat % 16)]
  | .taglk _ => (List.range 256).map poisTag
  | .tagvic _ => (List.range 256).map poisTag
  | .spfill p => copyCtl p ++ [poisSpool (p.dst.toNat % 16)]
  | .spdrain p => copyCtl p ++ [poisSpool (p.src.toNat % 16)]
  | i =>
    match encode64 i with
    | some w =>
      if getClass w = 1 ∨ getClass w = 2 then unitCtl w
      else if getClass w = 3 then [poisSem (getWait w).toNat, poisSem (getSig w).toNat]
      else []
    | none => []

/-- Whether one of the control entries an instruction reads is poisoned. -/
def Regs.ctlPoisoned (r : Regs) (i : Instr) : Bool := !r.pois.isEmpty && (ctlReads i).any (fun k => r.pois.contains k)

/-- The array code of the poison that keeps an engine entry from starting: its own, or that of a control entry it reads. -/
def Regs.entryPoison (r : Regs) (ord : Nat) (i : Instr) : Option Nat :=
  if r.pois.contains (5, ord) then some 5 else if r.ctlPoisoned i then some 4 else none

/-- An `MMA` that follows an `MMA` on its tile does not wait for the tile (R165). -/
def Pending.chains (p : Pending) (i : Instr) : Bool :=
  decide (p.kind = 5) &&
    match i with
    | .mmaAcc f => decide (p.dst = f.t.toNat)
    | .mmaOvw f => decide (p.dst = f.t.toNat)
    | .mmaSacc f => decide (p.dst = f.t.toNat)
    | .mmaSovw f => decide (p.dst = f.t.toNat)
    | _ => false

/-- Whether an entry with a place in program order may start: no started command still writes what it
reads, and no earlier entry that has not started writes what it reads or writes, or reads what it writes. -/
def Ctx.clear (c : Ctx) (i : Instr) (vfm : Word) (ord : Nat) : Bool :=
  let rd := readsOf i vfm
  let wr := writesOf i vfm
  !meets rd (((c.inRun.filter (fun p => !p.chains i)).map pendWrites).flatten ++ (c.vreads.map (fun v => engWrites v.instr)).flatten) &&
    (c.vx.q ++ c.vx.lane ++ c.mt.q ++ c.mt.lane).all (fun q =>
      decide (ord ≤ q.ord) || (!meets rd q.writes && !meets wr q.writes && !meets wr q.reads))

/-- The poison key of a register key. -/
def poisKey (k : Nat) : Nat × Nat :=
  if k < 72 then (1, k)
  else if k < 80 then poisCsr (0x810 + (k - 72))
  else if k = kflags then poisCsr 0x801
  else if k = kseed then poisCsr 0x808
  else if k = kesc then poisCsr 0x806
  else (2, 0x10000 + k)

/-- The keys whose poison keeps a command from starting: those it reads, but for the tile that `MCFG` configures anew. -/
def poisReads (i : Instr) (vfm : Word) : List Nat :=
  match i with
  | .mcfg _ => []
  | i => readsOf i vfm

/-- The array code of the first poisoned register among the keys (R394). -/
def Regs.poisonAmong (r : Regs) (ks : List Nat) : Option Nat :=
  (ks.find? (fun k => r.pois.contains (poisKey k))).map (fun k => (poisKey k).1)

end Sys2Proof.Machine
end

