-- ==== Sys2Proof/Machine/VConv.lean ====
section
/-! DEFINITION. Vector conversion: the effect of each instruction on what it reads (R151 to R158). -/

namespace Sys2Proof.Machine

/-- The conversion of one element between two types of R151. -/
def cvtEl (o : VIn) (td ts : BitVec 5) (sat : Bool) (e : Nat) (st : FpSt) : Nat × FpSt :=
  let wd := tyWidth td
  let ws := tyWidth ts
  if tyB td && tyB ts then
    let x : Int := if tyI ts then sextN e ws else (e : Int)
    if sat then satTo td x st else (wrapI x wd, st)
  else
    let v := if tyB ts then valOfInt (if tyI ts then sextN e ws else (e : Int)) else dec (fmtOf ts.toNat) e
    if tyB td then encInt wd (tyI td) v o.rm st else enc (fmtOf td.toNat) v o.rm o.nanz st

/-- `VCVT` (R151): the widening form reads part h, the narrowing form writes part h. -/
def convert (f : FmtV) (o : VIn) (sat : Bool) : VOut :=
  let wd := tyWidth f.ty
  let ws := tyWidth f.c
  let m := 1024 / max ws wd
  let h := f.b.toNat
  let src := if ws < wd then h * m else 0
  let dst := if wd < ws then h * m else 0
  let r := elemGo wd (fun i => decide (dst ≤ i) && activeEl o.act wd i)
    (fun i st => cvtEl o f.ty f.c sat (el o.a ws (src + (i - dst))) st) (dst + m) (o.d, o.fp)
  { dst := .vec r.1, fp := r.2 }

def effVcvt (f : FmtV) (o : VIn) : VOut := convert f o false
def effVcvtSat (f : FmtV) (o : VIn) : VOut := convert f o true

/-- `VPACK` (R153): codes 128·4·h/3 onward would straddle, so the stream is formed by bits. -/
def effVpack (f : FmtV) (o : VIn) : VOut :=
  let lane (e : Nat) : Nat :=
    let v := match e / 128 with | 0 => o.a | 1 => o.a1 | 2 => o.a2 | _ => o.a3
    el v 8 (e % 128) % 64
  let stream : Nat := (List.range 512).foldl (fun a e => a + lane e * 2 ^ (6 * e)) 0
  { dst := .vec (BitVec.ofNat 1024 (stream / 2 ^ (1024 * f.b.toNat))), fp := o.fp }

/-- `VUNPK` (R154). -/
def effVunpk (f : FmtV) (o : VIn) : VOut :=
  let stream : Nat := o.a.toNat + o.a1.toNat * 2 ^ 1024 + o.a2.toNat * 2 ^ 2048
  { dst := .vec (mkEls 1024 8 (fun j => stream / 2 ^ (6 * (128 * f.b.toNat + j)) % 64) 128), fp := o.fp }

/-- `VCBL` decoding (R155): exact, no flag. -/
def effVcbl (f : FmtV) (o : VIn) : VOut :=
  let wd := tyWidth f.ty
  let m := elCount wd
  elementwise' o wd (fun i =>
    (enc (fmtOf f.ty.toNat) (cbVal ((o.cb f.c.toNat).getD (el o.a 4 (f.b.toNat * m + i)) 0)) 0 false {}).1)

/-- `VCBL.enc` (R155): active by the predicate at 4-bit width. -/
def effVcblEnc (f : FmtV) (o : VIn) : VOut :=
  let wd := tyWidth f.ty
  let m := elCount wd
  let h := f.b.toNat
  let r := elemGo 4 (fun i => decide (h * m ≤ i) && activeEl o.act 4 i)
    (fun i st => encCb4 (o.cb f.c.toNat) (elVal f.ty o.a (i - h * m)) st) (h * m + m) (o.d, o.fp)
  { dst := .vec r.1, fp := r.2 }

/-- The largest magnitude of the 32 FP32 elements of a block (R157). -/
def blockAmax (v : VReg) : Val :=
  (List.range 32).foldl (fun a k => amaxOf a (elVal 0 v k)) (.fin false 0 0 false)

/-- `VQMX` (R157). -/
def effVqmx (f : FmtV) (o : VIn) : VOut :=
  let w := tyWidth f.ty
  let cb := o.cb (wfld o.xc 3 0)
  let h := wfld o.xc 10 8 % (elCount w / 32)
  let sc := mxscale f.ty.toNat cb (blockAmax o.a)
  let r := elemGo w (fun i => decide (32 * h ≤ i))
    (fun i st =>
      let q := fdiv (elVal 0 o.a (i - 32 * h)) (s24dec sc) st
      mxCode f.ty.toNat cb q.1 o.rm o.nanz q.2) (32 * h + 32) (o.d, o.fp)
  { dst := .vecScal r.1 (wOf sc), fp := r.2 }

/-- `VDQMX` (R158). -/
def effVdqmx (f : FmtV) (o : VIn) : VOut :=
  let w := tyWidth f.ty
  let cb := o.cb (wfld o.xc 3 0)
  let h := wfld o.xc 10 8 % (elCount w / 32)
  elementwise o 32 (fun k st =>
    let p := fmul (s24dec (o.xb.toNat % 2 ^ 24)) (mxElem f.ty.toNat cb (el o.a w (32 * h + k))) st
    enc (fmtOf 0) p.1 o.rm o.nanz p.2)

end Sys2Proof.Machine
end

