-- ==== Sys2Proof/Machine/VLogic.lean ====
section
/-! DEFINITION. Vector logic, permutation, scalar and predicate moves: the effect of each instruction on
what it reads (R134 to R150). -/

namespace Sys2Proof.Machine

def bitwise (f : FmtV) (o : VIn) (g : VReg) : VOut :=
  let w := tyWidth f.ty
  elementwise' o w (fun i => el g w i)

def effVand (f : FmtV) (o : VIn) : VOut := bitwise f o (o.a &&& o.b)
def effVandNb (f : FmtV) (o : VIn) : VOut := bitwise f o (o.a &&& ~~~o.b)
def effVor (f : FmtV) (o : VIn) : VOut := bitwise f o (o.a ||| o.b)
def effVorNb (f : FmtV) (o : VIn) : VOut := bitwise f o (o.a ||| ~~~o.b)
def effVxor (f : FmtV) (o : VIn) : VOut := bitwise f o (o.a ^^^ o.b)
def effVxorNb (f : FmtV) (o : VIn) : VOut := bitwise f o (o.a ^^^ ~~~o.b)

/-- The bits of one row of the truth table: where the three sources are as the row's index says. -/
def lutRow (o : VIn) (tt : BitVec 8) (k : Nat) : VReg :=
  if tt.getLsbD k then
    (if k.testBit 2 then o.a else ~~~o.a) &&& (if k.testBit 1 then o.b else ~~~o.b) &&&
      (if k.testBit 0 then o.c else ~~~o.c)
  else 0

/-- `VLUT3` (R135): the eight rows of the truth table together. -/
def effVlut3 (f : FmtVL) (o : VIn) : VOut :=
  { dst := .vec ((List.range 8).foldl (fun v k => v ||| lutRow o f.tt k) 0), fp := o.fp }

/-- `VFSH` (R137). -/
def effVfsh (f : FmtV) (o : VIn) : VOut :=
  let w := tyWidth f.ty
  elementwise' o w (fun i =>
    let k := if f.fx then o.xc.toNat else el o.c w i
    if 2 * w ≤ k then 0 else (el o.a w i * 2 ^ w + el o.b w i) * 2 ^ k % 2 ^ (2 * w) / 2 ^ w)

/-- `VFSHW` (R138). -/
def effVfshw (_ : FmtV) (o : VIn) : VOut :=
  let k := o.xc.toNat
  let r : VReg :=
    if 2048 ≤ k then 0
    else if 1024 ≤ k then o.b <<< (k - 1024)
    else (o.a <<< k) ||| (o.b >>> (1024 - k))
  { dst := .vec r, fp := o.fp }

/-- `VROT` (R136). -/
def effVrot (f : FmtV) (o : VIn) : VOut :=
  let w := tyWidth f.ty
  elementwise' o w (fun i =>
    let k := (if f.fx then o.xb.toNat else el o.b w i) % w
    let x := el o.a w i
    (x * 2 ^ k ||| x / 2 ^ (w - k)) % 2 ^ w)

/-- The number of 1 bits among the k low bits. -/
def popGo (x : Nat) : Nat → Nat
  | 0 => 0
  | k + 1 => popGo x k + boolNat (x.testBit k)

/-- The number of 0 bits above the highest 1 bit, of w. -/
def clzNat (w x : Nat) : Nat := if x = 0 then w else w - 1 - Nat.log2 x

def effVpopc (f : FmtV) (o : VIn) : VOut :=
  let w := tyWidth f.ty
  elementwise' o w (fun i => popGo (el o.a w i) w)
def effVclz (f : FmtV) (o : VIn) : VOut :=
  let w := tyWidth f.ty
  elementwise' o w (fun i => clzNat w (el o.a w i))

/-- `VLROT` (R140). -/
def effVlrot (f : FmtVI) (o : VIn) : VOut :=
  let w := tyWidth f.ty
  let n := elCount w
  elementwise' o w (fun i => el o.a w (((i : Int) + sextN f.imm.toNat 11) % (n : Int)).toNat)

/-- An element by index, 0 outside the register. -/
def pick (v : VReg) (w j : Nat) : Nat := if j < elCount w then el v w j else 0

/-- `VSLIDE` (R141). -/
def effVslide (f : FmtVI) (o : VIn) : VOut :=
  let w := tyWidth f.ty
  elementwise' o w (fun i =>
    let j := (i : Int) + sextN f.imm.toNat 11
    if j < 0 then 0 else pick o.a w j.toNat)

def effVshuf (f : FmtV) (o : VIn) : VOut :=
  let w := tyWidth f.ty
  elementwise' o w (fun i => pick o.a w (el o.b w i))

def effVbcast (f : FmtV) (o : VIn) : VOut := elementwise' o (tyWidth f.ty) (fun _ => o.xa.toNat)
def effVbcastEl (f : FmtV) (o : VIn) : VOut :=
  let w := tyWidth f.ty
  elementwise' o w (fun _ => pick o.a w o.xb.toNat)

def zip2 (o : VIn) (w base : Nat) : VOut :=
  elementwise' o w (fun i => if i % 2 = 0 then el o.a w (base + i / 2) else el o.b w (base + i / 2))
def effVzip (f : FmtV) (o : VIn) : VOut := zip2 o (tyWidth f.ty) 0
def effVzipHi (f : FmtV) (o : VIn) : VOut := zip2 o (tyWidth f.ty) (elCount (tyWidth f.ty) / 2)

def unzip2 (o : VIn) (w odd : Nat) : VOut :=
  let h := elCount w / 2
  elementwise' o w (fun i => if i < h then el o.a w (2 * i + odd) else el o.b w (2 * (i - h) + odd))
def effVunzip (f : FmtV) (o : VIn) : VOut := unzip2 o (tyWidth f.ty) 0
def effVunzipOdd (f : FmtV) (o : VIn) : VOut := unzip2 o (tyWidth f.ty) 1

/-- `VSEL` (R145): the predicate selects, and every element is written. -/
def effVsel (f : FmtV) (o : VIn) : VOut :=
  let w := tyWidth f.ty
  elementwise' { o with d := o.b } w (fun i => el o.a w i)

/-- `VMVX` (R146). -/
def effVmvx (f : FmtV) (o : VIn) : VOut :=
  let w := tyWidth f.ty
  let e := pick o.a w o.xb.toNat
  { dst := .scal (if tyI f.ty then wOfInt (sextN e w) else wOf e), fp := o.fp }

/-- `VMXV` (R147). -/
def effVmxv (f : FmtV) (o : VIn) : VOut :=
  let w := tyWidth f.ty
  let j := o.xb.toNat
  { dst := .vec (if j < elCount w then setEl o.d w j o.xa.toNat else o.d), fp := o.fp }

def effPand (_ : FmtV) (o : VIn) : VOut := { dst := .pred (o.pa &&& o.pb), fp := o.fp }
def effPor (_ : FmtV) (o : VIn) : VOut := { dst := .pred (o.pa ||| o.pb), fp := o.fp }
def effPxor (_ : FmtV) (o : VIn) : VOut := { dst := .pred (o.pa ^^^ o.pb), fp := o.fp }
def effPandn (_ : FmtV) (o : VIn) : VOut := { dst := .pred (o.pa &&& ~~~o.pb), fp := o.fp }

/-- How many elements of width w `PSET` makes active (R149): the sum is one of 64 bits, read as signed. -/
def psetCount (f : FmtVI) (o : VIn) : Nat :=
  let k := (o.xa + f.imm.signExtend 64).toInt
  let n := elCount (tyWidth f.ty)
  if k < 0 then 0 else min k.toNat n

/-- `PSET` (R149): the low bits, k·w/8 of them, and at width 4 one for each pair, rounded up. -/
def effPset (f : FmtVI) (o : VIn) : VOut :=
  let w := tyWidth f.ty
  let bits := if w = 4 then (psetCount f o + 1) / 2 else psetCount f o * w / 8
  { dst := .pred (BitVec.ofNat 128 (2 ^ bits - 1)), fp := o.fp }

/-- `PCNT` (R150). -/
def effPcnt (f : FmtV) (o : VIn) : VOut :=
  let w := tyWidth f.ty
  { dst := .scal (wOf ((List.range (elCount w)).filter (fun i => activeEl o.pa w i)).length), fp := o.fp }

end Sys2Proof.Machine
end

