-- ==== Sys2Proof/Machine/Engine.lean ====
section
/-! DEFINITION. The engines of a core: forwarding and its hold, queues and their states, waits and signals,
spool claims, the start of a vector-unit or Mangle command and its completion (R81, R282 to R304, R384). -/

namespace Sys2Proof.Machine

/-! ## Semaphores (R29, R289, R290) -/

/-- Adds k to a count; none where the sum would pass 65,535.  sem0 ignores every signal. -/
def Ctx.semAdd (c : Ctx) (n k : Nat) : Option Ctx :=
  if n = 0 ∨ k = 0 then some c
  else if 65535 < (c.semOf n).toNat + k then none
  else some (c.setSem n (BitVec.ofNat 16 ((c.semOf n).toNat + k)))

/-- Whether a take of one count would succeed. -/
def Ctx.semReady (c : Ctx) (n : Nat) : Bool := decide (n = 0) || decide (1 ≤ (c.semOf n).toNat)

/-- Takes one count; sem0 is not changed. -/
def Ctx.semTake (c : Ctx) (n : Nat) : Ctx := if n = 0 then c else c.setSem n (c.semOf n - 1)

/-! ## Stops (R286, R288) -/

/-- An engine enters `state` 2. -/
def Engine.halt (e : Engine) (code : Nat) (cause : Nat) (trap : Option (Byte × Word)) : Engine :=
  { e with st := .stopped, code := code, cause := BitVec.ofNat 8 cause, ev := true, trap := trap }

/-- The engine stops with a fault of its own: `code` 7 and a trap. -/
def State.stopFault (s : State) (n : Nat) (e : Eng) (cause : Nat) (val : Word) : State :=
  s.modFg n (fun c => c.setEng e ((c.eng e).halt 7 cause (some (BitVec.ofNat 8 cause, val))))

/-- The head's wait passed D: `code` 1, no trap (R288). -/
def State.stopDeadline (s : State) (n : Nat) (e : Eng) : State :=
  s.modFg n (fun c => c.setEng e ((c.eng e).halt 1 0 none))

/-- A `sig` byte's signal; one that would overflow stops the engine after the command (R290). -/
def State.signal (s : State) (n : Nat) (e : Eng) (sem : Nat) : State :=
  match (s.fg n).semAdd sem 1 with
  | some c => s.setFg n c
  | none => s.stopFault n e 0x07 (wOf sem)

/-- Whether a command of an engine is in progress beside its started commands: captured by a freeze, or a read that
waits for its reply. -/
def Ctx.awaits (c : Ctx) (e : Eng) : Bool :=
  c.inflight.any (fun p => decide (p.eng = e)) || (decide (e = .vx) && !c.vreads.isEmpty)

/-- An engine with nothing queued and nothing in progress is idle (R286); `aw` says that it still awaits something. -/
def Engine.settle (g : Engine) (aw : Bool) : Engine :=
  if g.st = .running ∧ g.q.isEmpty ∧ g.run.isEmpty ∧ aw = false then { g with st := .idle } else g

def State.settle (s : State) (n : Nat) (e : Eng) : State :=
  s.modFg n (fun c => c.setEng e ((c.eng e).settle (c.awaits e)))

/-- The engine's `state` of R113. -/
def Engine.stateCode (e : Engine) : Nat :=
  match e.st with
  | .idle => 0
  | .running => 1
  | .stopped => 2
  | .ring => 3

/-- The engine runs a ring, or stopped out of one (R284). -/
def Engine.inRing (e : Engine) : Bool := decide (e.st = .ring) || (decide (e.st = .stopped) && e.r)

/-- An entry of a ring keeps the cycle in which it starts (R262). -/
def Engine.ringMark (e : Engine) (q : QEntry) (t : Nat) : QEntry := if e.inRing then { q with ring := t } else q

/-! ## Spools (R300 to R304) -/

def Spool.free (p : Spool) : Nat := p.nsl - p.cnt - p.prs

def clearTok (t : BitVec 64) (i : Nat) : BitVec 64 := t &&& ~~~(1#64 <<< i)
def setTok (t : BitVec 64) (i : Nat) : BitVec 64 := t ||| (1#64 <<< i)

/-- A producer claims one slot: the slot it gets, and the descriptor after. -/
def Spool.claimProd (p : Spool) : Nat × Spool :=
  (p.tl, { p with tl := (p.tl + 1) % p.nsl, prs := p.prs + 1, tok := clearTok p.tok p.tl })

/-- A consumer claims one filled slot. -/
def Spool.claimCons (p : Spool) : Nat × Spool := (p.hd, { p with hd := (p.hd + 1) % p.nsl, cnt := p.cnt - 1 })

/-- The claimed slot that fills next: the first of the `prs` slots before `tl`. -/
def Spool.nextFill (p : Spool) : Nat := (p.tl + p.nsl - p.prs) % p.nsl

/-- Counts the slots that are written and next in claim order (R301): at most `k` of them. -/
def Spool.settleFill (p : Spool) : Nat → Spool
  | 0 => p
  | k + 1 =>
    if decide (0 < p.prs) && p.early.contains p.nextFill then
      Spool.settleFill { p with early := p.early.erase p.nextFill, prs := p.prs - 1, cnt := p.cnt + 1 } k
    else p

/-- A claimed slot has been written in full (R301). -/
def Spool.fill (p : Spool) (slot : Nat) : Spool := Spool.settleFill { p with early := slot :: p.early } 64

/-- The offset of a slot (R300). -/
def Spool.slotAt (p : Spool) (i : Nat) : Nat := p.base + 64 * p.ssz * i

/-- `SLADV`-like claims of k slots (R308). -/
def Spool.consN : Nat → Spool → Spool
  | 0, p => p
  | k + 1, p => Spool.consN k { (p.claimCons).2 with tok := clearTok p.tok p.hd }

def Spool.prodN : Nat → Spool → Spool
  | 0, p => p
  | k + 1, p => Spool.prodN k ((p.claimProd).2.fill p.tl)

/-- A descriptor that a claim, a fill or a freeing changes from p to r in cycle t − 1; t is 0 where engines do not run
beside their sequencers, and every change is seen at once. -/
def Spool.stamp (t : Nat) (p r : Spool) : Spool :=
  if t = 0 ∨ (r.cnt = p.cnt ∧ r.free = p.free) then r
  else
    let same := decide (p.at_ = t)
    { r with
      at_ := t
      cnt0 := if same then p.cnt0 else p.cnt
      free0 := if same then p.free0 else p.free
      cons := (if same then p.cons else 0) + (p.cnt - r.cnt)
      prod := (if same then p.prod else 0) + (p.free - r.free) }

/-- The descriptor with given counts of filled and free slots. -/
def Spool.counts (p : Spool) (c f : Nat) : Spool := { p with cnt := c, prs := p.nsl - c - f }

/-- The descriptor as a claim of cycle t − 1 sees it: as it stood at the start of the cycle, less the slots claimed in
it already (R301). -/
def Spool.seen (t : Nat) (p : Spool) : Spool :=
  if t ≠ 0 ∧ p.at_ = t then p.counts (p.cnt0 - p.cons) (p.free0 - p.prod) else p

/-- The descriptor as it stood at the start of cycle t − 1. -/
def Spool.atStart (t : Nat) (p : Spool) : Spool := if t ≠ 0 ∧ p.at_ = t then p.counts p.cnt0 p.free0 else p

/-- The number of the present cycle for spools: 0 where every change is seen at once. -/
def State.spoolCycle (s : State) : Nat := if s.lockstep then 0 else s.now + 1

/-- Changes a spool of core n in this cycle. -/
def State.putSpool (s : State) (n k : Nat) (r : Spool) : State :=
  s.modFg n (fun c => c.setSpool k ((c.spool k).stamp s.spoolCycle r))

/-! ## Leases (R172) -/

/-- Whether some started command leases a bank at `dcyc` c. -/
def Ctx.leased (x : Ctx) (dc bank : Nat) : Bool :=
  x.inRun.any (fun p => decide (dc < p.lease) && p.banks.contains bank)

/-- The first byte of k from an offset that lies in a leased bank: a bank is 32 KiB (R217). -/
def leasedGo (f : Nat → Bool) (off : Nat) : Nat → Option Nat
  | 0 => none
  | k + 1 => if f (off % 2 ^ 19 / 2 ^ 15) then some off else leasedGo f (off + 1) k

def State.leasedAt (s : State) (n off k : Nat) : Option Nat :=
  let c := s.fg n
  leasedGo (c.leased (s.dcyc c)) off k

/-! ## Entries and forwarding (R282 to R284) -/

/-- The entry a word makes: its captured scalars, its deadline value, its place in program order. -/
def State.entry (s : State) (n : Nat) (e : Eng) (w : Word) (rest : BitVec 448) (xa xb xc : Word) : QEntry :=
  let c := s.fg n
  { word := w, rest := rest, xa := xa, xb := xb, xc := xc, vfm := c.csr.vfmode, dl := c.edl e, ord := c.ord,
    pc := c.pc }

/-- Puts an entry into the queue, or while the handler runs into the lane (R384). -/
def State.push (s : State) (n : Nat) (e : Eng) (q : QEntry) : State :=
  s.modFg n (fun c =>
    let g := c.eng e
    let g := if c.hact then { g with lane := g.lane ++ [q] }
      else { g with q := g.q ++ [q], st := if g.st = .idle then .running else g.st, wcnt := g.wcnt + 1 }
    { c.setEng e g with ord := c.ord + 1 })

/-- Whether the engine takes another entry: 16 in the queue, 4 in the lane. -/
def Ctx.hasRoom (c : Ctx) (e : Eng) : Bool :=
  if c.hact then decide ((c.eng e).lane.length < 4) else decide ((c.eng e).q.length < 16)

/-- The report of a held forward (R283). -/
def Ctx.holdReport (c : Ctx) : Word :=
  wOf (engines.foldl (fun a e =>
    let g := c.eng e
    let h := ((g.q.map (fun q => q.word.toNat / 2 ^ 56)).headD 0)
    a + (if g.st = .stopped then 2 ^ engNum e else 0) + h * 2 ^ (16 + 8 * engNum e)) 0)

/-- The sequencer holds a word at a full queue (R283). -/
def State.holdAt (s : State) (n : Nat) (e : Eng) (any : Bool) (q : QEntry) (len : Nat) : State :=
  let c := s.fg n
  (s.setFg n { c with hold := some ⟨e, any, q, c.pc, len, deadlineAt (s.jtime c.ident.job) (c.edl e)⟩ }).tick 1

/-- A queue that is full behind a stopped engine ends the hold at once (R283). -/
def Ctx.jammed (c : Ctx) (e : Eng) : Bool :=
  !c.hact && decide ((c.eng e).st = .stopped) && !c.hasRoom e

/-! ## Starting a command (R286, R287, R480) -/

/-- What comes of trying to start a command: a failed start check; slots that are not there yet; a fault of its own
accesses, which it meets only once it starts (R251, R274); or the state after its effect on memory, generator and
spools, with what it will write when it completes.  `hold` is an interlock or an interval that does not let it start
yet: its wait has not begun (R480). -/
inductive Try where
  | fault (cause : Nat) (val : Word)
  | hold
  | wait
  | late (cause : Nat) (val : Word)
  | run (s : State) (p : Pending)

/-- The effect of a vector-unit or Mangle command: state, core, entry. -/
abbrev Eff := State → Nat → QEntry → Try

/-- Adds flags to `vflags`, which are only ever set (R62). -/
def Ctx.addFlags (c : Ctx) (f : BitVec 6) : Ctx :=
  { c with csr := { c.csr with vflags := wOf (BitVec.ofNat 6 c.csr.vflags.toNat ||| f).toNat } }

/-- The result register of a completed command (R81), and the flags it raised. -/
def Ctx.landReg (c : Ctx) (p : Pending) : Ctx :=
  let c := if p.keys.contains kflags then c.addFlags p.fl else c
  match p.kind with
  | 1 => if p.spool.isSome then c else c.setV p.dst p.val
  | 2 => c.setP p.dst (p.val.setWidth 128)
  | 3 => c.landX (BitVec.ofNat 5 p.dst) (p.val.setWidth 64) p.ord
  | 6 => (if p.spool.isSome then c else c.setV p.dst p.val).landX (BitVec.ofNat 5 p.r2) p.v2 p.ord
  | _ => c

/-- A vector result that goes to a spool: the slot's 128 bytes, and the fill (R303). -/
def State.landSpool (s : State) (n : Nat) (p : Pending) : State :=
  match p.spool with
  | none => s
  | some (sl, slot) =>
    let sp := (s.fg n).spool sl
    let s := s.spadWrite n (sp.slotAt slot) (leBytes 128 p.val.toNat)
    s.putSpool n sl (sp.fill slot)

/-- A command completes: its results land, and then it signals (R81). -/
def State.complete (s : State) (n : Nat) (e : Eng) (p : Pending) : State :=
  ((s.landSpool n p).modFg n (fun c => c.landReg p)).signal n e p.sig.toNat

/-- Drops the register writes of a started command that a later command overwrites (R12): it still completes and
signals.  Of `VQMX` either result may be dropped alone. -/
def Pending.dropReg (p : Pending) (ks : List Nat) : Pending :=
  if p.kind = 6 then
    let v := p.spool.isNone && ks.contains (32 + p.dst)
    let x := ks.contains p.r2
    if v && x then { p with kind := 0 }
    else if v then { p with kind := 3, dst := p.r2, val := p.v2.setWidth 1024 }
    else if x then { p with kind := 1 }
    else p
  else if meets (pendReg p) ks ∧ p.kind ≤ 3 then { p with kind := 0 }
  else p

def Ctx.dropWrites (c : Ctx) (ks : List Nat) (ord : Nat) : Ctx :=
  let f (p : Pending) : Pending := p.dropReg ks
  let g (v : VRead) : VRead :=
    if v.entry.ord = ord then v
    else { v with entry := { v.entry with flg := v.entry.flg |||
      ((if ks.any (fun k => decide (32 ≤ k) && (engWrites v.instr).contains k) then 1 else 0) |||
        (if ks.any (fun k => decide (k < 32) && (engWrites v.instr).contains k) then 2 else 0)) } }
  { c with vx := { c.vx with run := c.vx.run.map f }, mt := { c.mt with run := c.mt.run.map f },
           inflight := c.inflight.map f, vreads := c.vreads.map g }

/-- Tries to start an entry of VX or MT: its interlocks; the start checks of its effect; then, in one cycle, its
semaphore with the slots (R287), and with them its own accesses.  Only `run` changes the state. -/
def State.tryEntry (s : State) (n : Nat) (q : QEntry) (i : Instr) (eff : Eff) : Try :=
  let c := s.fg n
  if c.clear i q.vfm q.ord = false then .hold
  else
    match c.regs.poisonAmong (poisReads i q.vfm) with
    | some a => .fault 0x0A (wOf (2 ^ 63 + a))
    | none =>
      match c.regs.entryPoison q.ord i, eff s n q with
      | some a, _ => .fault 0x0A (wOf (2 ^ 63 + a))
      | none, .fault cause val => .fault cause val
      | none, .hold => .hold
      | none, .wait => .wait
      | none, .late cause val => if c.semReady (wfld q.word 63 56) then .fault cause val else .wait
      | none, .run s' p =>
        if c.semReady (wfld q.word 63 56) then
          .run (s'.modFg n (fun c => c.semTake (wfld q.word 63 56)))
            { p with sig := BitVec.ofNat 8 (wfld q.word 55 48), ord := q.ord, keys := heldKeys i, ring := q.ring }
        else .wait

/-- The command has started: at once complete where the view of the first part is kept, else in progress
until `dcyc` reaches its ready cycle (R129, R165; notes/assumptions/2.md).  A read that leaves the core
(kind 7) completes when its reply arrives. -/
def State.started (s : State) (n : Nat) (e : Eng) (i : Instr) (p : Pending) (lat gap : Nat) : State :=
  let s := s.modFg n (fun c => (c.dropWrites (engWrites i) p.ord).setEng e { c.eng e with seq := (c.eng e).seq + 1 })
  let dc := s.dcyc (s.fg n)
  if p.kind = 7 then (s.modFg n (fun c => c.setEng e { c.eng e with gate := dc + gap })).settle n e
  else if s.lockstep then (s.complete n e { p with lease := 0 }).settle n e
  else
    s.modFg n (fun c => c.setEng e { c.eng e with
      run := (c.eng e).run ++ [{ p with ready := dc + lat, lease := dc + p.lease }], gate := dc + gap })

/-- Whether a just-forwarded command can start without queueing: nothing is ahead of it in its engine. -/
def Ctx.freeNow (c : Ctx) (e : Eng) : Bool :=
  let g := c.eng e
  if c.hact then g.lane.isEmpty
  else g.q.isEmpty && (decide (g.st = .idle) || decide (g.st = .running))

/-- A class VX or MT word at the sequencer (R282): it is forwarded to its queue and the PC moves on.  In
the view of the first part (R12) a command with nothing ahead of it starts and completes here; a start
check that fails leaves it at the head of a stopped engine, and a wait leaves it queued. -/
def State.issueEng (s : State) (e : Eng) (i : Instr) (xa xb xc : Word) (lat gap : Nat) (eff : Eff) : State :=
  s.onCore (encodeWord i) (fun n =>
    let c := s.fg n
    let q := s.entry n e (encodeWord i) 0 xa xb xc
    if c.hact = false ∧ (c.eng e).inRing = true then
      (s.takeTrap n 0x0E (engUnit e) c.pc (encodeWord i)).tick 1
    else if c.jammed e then (s.takeTrap n 0x06 0 c.pc c.holdReport).tick 1
    else if c.hasRoom e = false then s.holdAt n e false q 8
    else if s.lockstep && c.freeNow e then
      match s.tryEntry n q i eff with
      | .run s' p => ((s'.modFg n (fun c => { c with ord := c.ord + 1 })).started n e i p lat gap).retire 8 1
      | .fault cause val => ((s.push n e q).stopFault n e cause val).retire 8 1
      | _ => (s.push n e q).retire 8 1
    else (s.push n e q).retire 8 1)

/-! ## Preparing a vector-unit command: its operands, its spools, its result (R119, R129, R303) -/

/-- The sixteen entries of a codebook (R52). -/
def Ctx.codebook (c : Ctx) (k : Nat) : List Nat :=
  (List.range 16).map (fun j => (tget 0 c.regs.cb (16 * (k % 16) + j)).toNat)

/-- The registers that the fields of a vector word name, and its scalars and mode. -/
def State.vinOf (s : State) (n : Nat) (q : QEntry) (a b c d : BitVec 5) : VIn :=
  let x := s.fg n
  { a := x.v a, b := x.v b, c := x.v c, d := x.v d, a1 := x.v (a + 1), a2 := x.v (a + 2), a3 := x.v (a + 3),
    pa := x.p (a.toNat % 8), pb := x.p (b.toNat % 8), pd := x.p (d.toNat % 8),
    xa := q.xa, xb := q.xb, xc := q.xc, rm := wfld q.vfm 2 0, nanz := q.vfm.getLsbD 3,
    cb := x.codebook, fp := { fl := 0, seed := x.csr.srseed } }

/-- The spool operands of a vector word: what each names, and the check of R304. -/
structure SpoolUse where
  src : Option Nat := none
  dst : Option Nat := none
  deriving DecidableEq, Repr

def spoolUse (sm : BitVec 2) (a d : BitVec 5) : SpoolUse :=
  { src := if sm.getLsbD 0 then some a.toNat else none, dst := if sm.getLsbD 1 then some d.toNat else none }

/-- A vector spool operand must be configured with slots of 128 bytes, and a source's head must hold no
token (R119, R303, R304).  Answers the failing spool. -/
def Ctx.spoolFault (c : Ctx) (t : Nat) (u : SpoolUse) : Option Nat :=
  let tok (k : Nat) : Bool := decide (1 ≤ ((c.spool k).seen t).cnt) && (c.spool k).tok.getLsbD (c.spool k).hd
  let bad (k : Nat) : Bool := !(c.spool k).cfg || decide ((c.spool k).ssz ≠ 2)
  match u.src, u.dst with
  | some k, some j =>
    if bad k then some k else if bad j then some j
    else if tok k then some k else none
  | some k, none =>
    if bad k then some k
    else if tok k then some k else none
  | none, some j => if bad j then some j else none
  | none, none => none

/-- Whether the slots are there (R287). -/
def Ctx.spoolReady (c : Ctx) (t : Nat) (u : SpoolUse) : Bool :=
  (match u.src with | some k => decide (1 ≤ ((c.spool k).seen t).cnt) | none => true) &&
    (match u.dst with | some k => decide (1 ≤ ((c.spool k).seen t).free) | none => true)

/-- The claims: the source's slot is consumed, the destination's slot is claimed (R301). -/
def Ctx.spoolClaim (c : Ctx) (t : Nat) (u : SpoolUse) : Ctx × Option (Nat × Nat) :=
  let put (c : Ctx) (k : Nat) (r : Spool) : Ctx := c.setSpool k ((c.spool k).stamp t r)
  let c := match u.src with
    | some k => put c k ((c.spool k).claimCons).2
    | none => c
  match u.dst with
  | some k => (put c k ((c.spool k).claimProd).2, some (k, ((c.spool k).claimProd).1))
  | none => (c, none)

/-- The offset of the slot a spool source reads. -/
def Ctx.srcSlot (c : Ctx) (u : SpoolUse) : Option Nat := u.src.map (fun k => (c.spool k).slotAt (c.spool k).hd)

/-- The generator as a command leaves it (R57). -/
def Ctx.setSeed (c : Ctx) (f : FpSt) : Ctx := { c with csr := { c.csr with srseed := f.seed } }

/-- What a result makes of the destination field (R119: a spool destination takes the vector). -/
def pendOf (o : VDst) (d r2 : BitVec 5) (sp : Option (Nat × Nat)) : Pending :=
  match o with
  | .vec v => { eng := .vx, kind := 1, dst := d.toNat, val := v, spool := sp }
  | .pred p => { eng := .vx, kind := 2, dst := d.toNat % 8, val := p.setWidth 1024 }
  | .scal x => { eng := .vx, kind := 3, dst := d.toNat, val := x.setWidth 1024 }
  | .vecScal v x => { eng := .vx, kind := 6, dst := d.toNat, val := v, r2 := r2.toNat, v2 := x, spool := sp }

/-- A vector command that touches no memory: its operands, with a spool source in place of `a` and zeros
in place of a spool destination's old elements (R119), its effect, and its result. -/
def vxEff (a b c d : BitVec 5) (pe : Bool) (pg : BitVec 3) (sm : BitVec 2) (g : VIn → VOut) : Eff := fun s n q =>
  let x := s.fg n
  let u := spoolUse sm a d
  match x.spoolFault s.spoolCycle u with
  | some k => .fault 0x11 (wOf k)
  | none =>
    if x.spoolReady s.spoolCycle u = false then .wait
    else
      let o := s.vinOf n q a b c d
      let o := if pe then { o with act := x.p pg.toNat } else o
      let src := x.srcSlot u
      let o := match src with
        | some off => { o with a := BitVec.ofNat 1024 (s.spadNum n off 128) }
        | none => o
      let o := if sm.getLsbD 1 then { o with d := 0 } else o
      match src.bind (fun off => s.leasedAt n off 128), src.any (fun off => s.spadPoison n off 128) with
      | some off, _ => .late 0x02 (wOf off)
      | none, true => .late 0x0A (wOf (src.getD 0))
      | none, false =>
        let r := g o
        let cl := (x.setSeed r.fp).spoolClaim s.spoolCycle u
        .run (s.setFg n cl.1) { pendOf r.dst d b cl.2 with fl := r.fp.fl }

def vEff (f : FmtV) (g : VIn → VOut) : Eff := vxEff f.a f.b f.c f.d f.pe f.pg f.sm g
def viEff (f : FmtVI) (g : VIn → VOut) : Eff := vxEff f.a 0 0 f.d f.pe f.pg f.sm g
def vlEff (f : FmtVL) (g : VIn → VOut) : Eff := vxEff f.a f.b f.c f.d false 0 0 g

/-! ## Latencies and issue intervals (R129, R159) -/

/-- The class of a type for the tables of R129: float, or integer of a width. -/
def latArith (t : BitVec 5) (f i : Nat) : Nat := if tyF t then f else i

def divLat (t : BitVec 5) : Nat × Nat :=
  if t = 1 ∨ t = 2 then (8, 4)
  else if tyWidth t = 64 then (20, 16)
  else (12, 8)

/-- A spool source adds one cycle (R129). -/
def spLat (sm : BitVec 2) (l : Nat) : Nat := if sm.getLsbD 0 then l + 1 else l

/-- The forwarding of a Format V word: which scalars it captures are those the fields name. -/
def State.issueV (s : State) (i : Instr) (f : FmtV) (lat gap : Nat) (g : VIn → VOut) : State :=
  s.issueEng .vx i (s.xr f.a) (s.xr f.b) (s.xr f.c) (spLat f.sm lat) gap (vEff f g)

def State.issueVI (s : State) (i : Instr) (f : FmtVI) (lat gap : Nat) (g : VIn → VOut) : State :=
  s.issueEng .vx i (s.xr f.a) 0 0 (spLat f.sm lat) gap (viEff f g)

end Sys2Proof.Machine
end

