-- ==== Sys2Proof/Machine/Vector.lean ====
section
/-! DEFINITION. The meanings of the vector instructions that touch no memory: each is forwarded and has
its effect on the vector unit (R116 to R160), with its latency and issue interval of R129 or R159. -/

namespace Sys2Proof.Machine

/-- The outcome of a meaning. -/
abbrev Out := Host.Outcome State Fault Refusal

/-- `vadd` (R121, R124). -/
def execVadd (f : FmtV) (s : State) : Out :=
  .next (s.issueV (.vadd f) f (latArith f.ty 4 2) 1 (effVadd f))

/-- `vsub` (R121, R124). -/
def execVsub (f : FmtV) (s : State) : Out :=
  .next (s.issueV (.vsub f) f (latArith f.ty 4 2) 1 (effVsub f))

/-- `vmul` (R121, R124). -/
def execVmul (f : FmtV) (s : State) : Out :=
  .next (s.issueV (.vmul f) f 4 1 (effVmul f))

/-- `vmulh` (R124). -/
def execVmulh (f : FmtV) (s : State) : Out :=
  .next (s.issueV (.vmulh f) f 4 1 (effVmulh f))

/-- `vfma` (R121). -/
def execVfma (f : FmtV) (s : State) : Out :=
  .next (s.issueV (.vfma f) f 4 1 (effVfma f))

/-- `vfms` (R121). -/
def execVfms (f : FmtV) (s : State) : Out :=
  .next (s.issueV (.vfms f) f 4 1 (effVfms f))

/-- `vfnma` (R121). -/
def execVfnma (f : FmtV) (s : State) : Out :=
  .next (s.issueV (.vfnma f) f 4 1 (effVfnma f))

/-- `vdiv` (R121, R125). -/
def execVdiv (f : FmtV) (s : State) : Out :=
  .next (s.issueV (.vdiv f) f (divLat f.ty).1 (divLat f.ty).2 (effVdiv f))

/-- `vsqrt` (R121). -/
def execVsqrt (f : FmtV) (s : State) : Out :=
  .next (s.issueV (.vsqrt f) f (divLat f.ty).1 (divLat f.ty).2 (effVsqrt f))

/-- `vmin` (R122, R124). -/
def execVmin (f : FmtV) (s : State) : Out :=
  .next (s.issueV (.vmin f) f 2 1 (effVmin f))

/-- `vmax` (R122, R124). -/
def execVmax (f : FmtV) (s : State) : Out :=
  .next (s.issueV (.vmax f) f 2 1 (effVmax f))

/-- `vabs` (R123, R124). -/
def execVabs (f : FmtV) (s : State) : Out :=
  .next (s.issueV (.vabs f) f 2 1 (effVabs f))

/-- `vneg` (R123, R124). -/
def execVneg (f : FmtV) (s : State) : Out :=
  .next (s.issueV (.vneg f) f 2 1 (effVneg f))

/-- `vadds` (R124). -/
def execVadds (f : FmtV) (s : State) : Out :=
  .next (s.issueV (.vadds f) f 2 1 (effVadds f))

/-- `vsubs` (R124). -/
def execVsubs (f : FmtV) (s : State) : Out :=
  .next (s.issueV (.vsubs f) f 2 1 (effVsubs f))

/-- `vshl` (R126). -/
def execVshl (f : FmtV) (s : State) : Out :=
  .next (s.issueV (.vshl f) f 2 1 (effVshl f))

/-- `vshr` (R126). -/
def execVshr (f : FmtV) (s : State) : Out :=
  .next (s.issueV (.vshr f) f 2 1 (effVshr f))

/-- `vsra` (R126). -/
def execVsra (f : FmtV) (s : State) : Out :=
  .next (s.issueV (.vsra f) f 2 1 (effVsra f))

/-- `vaddi` (R124). -/
def execVaddi (f : FmtVI) (s : State) : Out :=
  .next (s.issueVI (.vaddi f) f 2 1 (effVaddi f))

/-- `vcmp` (R127). -/
def execVcmp (f : FmtV) (s : State) : Out :=
  .next (s.issueV (.vcmp f) f 2 1 (effVcmp f))

/-- `vredsum` (R128). -/
def execVredsum (f : FmtV) (s : State) : Out :=
  .next (s.issueV (.vredsum f) f (latArith f.ty 10 6) (latArith f.ty 4 2) (effVredsum f))

/-- `vredmin` (R128). -/
def execVredmin (f : FmtV) (s : State) : Out :=
  .next (s.issueV (.vredmin f) f 6 2 (effVredmin f))

/-- `vredmax` (R128). -/
def execVredmax (f : FmtV) (s : State) : Out :=
  .next (s.issueV (.vredmax f) f 6 2 (effVredmax f))

/-- `vand` (R134). -/
def execVand (f : FmtV) (s : State) : Out :=
  .next (s.issueV (.vand f) f 2 1 (effVand f))

/-- `vandNb` (R134). -/
def execVandNb (f : FmtV) (s : State) : Out :=
  .next (s.issueV (.vandNb f) f 2 1 (effVandNb f))

/-- `vor` (R134). -/
def execVor (f : FmtV) (s : State) : Out :=
  .next (s.issueV (.vor f) f 2 1 (effVor f))

/-- `vorNb` (R134). -/
def execVorNb (f : FmtV) (s : State) : Out :=
  .next (s.issueV (.vorNb f) f 2 1 (effVorNb f))

/-- `vxor` (R134). -/
def execVxor (f : FmtV) (s : State) : Out :=
  .next (s.issueV (.vxor f) f 2 1 (effVxor f))

/-- `vxorNb` (R134). -/
def execVxorNb (f : FmtV) (s : State) : Out :=
  .next (s.issueV (.vxorNb f) f 2 1 (effVxorNb f))

/-- `vlut3` (R135). -/
def execVlut3 (f : FmtVL) (s : State) : Out :=
  .next (s.issueEng .vx (.vlut3 f) 0 0 0 2 1 (vlEff f (effVlut3 f)))

/-- `vfsh` (R137). -/
def execVfsh (f : FmtV) (s : State) : Out :=
  .next (s.issueV (.vfsh f) f 2 1 (effVfsh f))

/-- `vfshw` (R138). -/
def execVfshw (f : FmtV) (s : State) : Out :=
  .next (s.issueV (.vfshw f) f 3 1 (effVfshw f))

/-- `vrot` (R136). -/
def execVrot (f : FmtV) (s : State) : Out :=
  .next (s.issueV (.vrot f) f 2 1 (effVrot f))

/-- `vpopc` (R139). -/
def execVpopc (f : FmtV) (s : State) : Out :=
  .next (s.issueV (.vpopc f) f 2 1 (effVpopc f))

/-- `vclz` (R139). -/
def execVclz (f : FmtV) (s : State) : Out :=
  .next (s.issueV (.vclz f) f 2 1 (effVclz f))

/-- `vlrot` (R140). -/
def execVlrot (f : FmtVI) (s : State) : Out :=
  .next (s.issueVI (.vlrot f) f 3 1 (effVlrot f))

/-- `vslide` (R141). -/
def execVslide (f : FmtVI) (s : State) : Out :=
  .next (s.issueVI (.vslide f) f 3 1 (effVslide f))

/-- `vshuf` (R142). -/
def execVshuf (f : FmtV) (s : State) : Out :=
  .next (s.issueV (.vshuf f) f 3 1 (effVshuf f))

/-- `vbcast` (R143). -/
def execVbcast (f : FmtV) (s : State) : Out :=
  .next (s.issueV (.vbcast f) f 2 1 (effVbcast f))

/-- `vbcastEl` (R143). -/
def execVbcastEl (f : FmtV) (s : State) : Out :=
  .next (s.issueV (.vbcastEl f) f 2 1 (effVbcastEl f))

/-- `vzip` (R144). -/
def execVzip (f : FmtV) (s : State) : Out :=
  .next (s.issueV (.vzip f) f 3 1 (effVzip f))

/-- `vzipHi` (R144). -/
def execVzipHi (f : FmtV) (s : State) : Out :=
  .next (s.issueV (.vzipHi f) f 3 1 (effVzipHi f))

/-- `vunzip` (R144). -/
def execVunzip (f : FmtV) (s : State) : Out :=
  .next (s.issueV (.vunzip f) f 3 1 (effVunzip f))

/-- `vunzipOdd` (R144). -/
def execVunzipOdd (f : FmtV) (s : State) : Out :=
  .next (s.issueV (.vunzipOdd f) f 3 1 (effVunzipOdd f))

/-- `vsel` (R145). -/
def execVsel (f : FmtV) (s : State) : Out :=
  .next (s.issueV (.vsel f) f 2 1 (effVsel f))

/-- `vmvx` (R146). -/
def execVmvx (f : FmtV) (s : State) : Out :=
  .next (s.issueV (.vmvx f) f 4 1 (effVmvx f))

/-- `vmxv` (R147). -/
def execVmxv (f : FmtV) (s : State) : Out :=
  .next (s.issueV (.vmxv f) f 2 1 (effVmxv f))

/-- `pand` (R148). -/
def execPand (f : FmtV) (s : State) : Out :=
  .next (s.issueV (.pand f) f 1 1 (effPand f))

/-- `por` (R148). -/
def execPor (f : FmtV) (s : State) : Out :=
  .next (s.issueV (.por f) f 1 1 (effPor f))

/-- `pxor` (R148). -/
def execPxor (f : FmtV) (s : State) : Out :=
  .next (s.issueV (.pxor f) f 1 1 (effPxor f))

/-- `pandn` (R148). -/
def execPandn (f : FmtV) (s : State) : Out :=
  .next (s.issueV (.pandn f) f 1 1 (effPandn f))

/-- `pset` (R149). -/
def execPset (f : FmtVI) (s : State) : Out :=
  .next (s.issueVI (.pset f) f 1 1 (effPset f))

/-- `pcnt` (R150). -/
def execPcnt (f : FmtV) (s : State) : Out :=
  .next (s.issueV (.pcnt f) f 3 1 (effPcnt f))

/-- `vcvt` (R151). -/
def execVcvt (f : FmtV) (s : State) : Out :=
  .next (s.issueV (.vcvt f) f 4 1 (effVcvt f))

/-- `vcvtSat` (R152). -/
def execVcvtSat (f : FmtV) (s : State) : Out :=
  .next (s.issueV (.vcvtSat f) f 4 1 (effVcvtSat f))

/-- `vpack` (R153). -/
def execVpack (f : FmtV) (s : State) : Out :=
  .next (s.issueV (.vpack f) f 3 1 (effVpack f))

/-- `vunpk` (R154). -/
def execVunpk (f : FmtV) (s : State) : Out :=
  .next (s.issueV (.vunpk f) f 3 1 (effVunpk f))

/-- `vqmx` (R157). -/
def execVqmx (f : FmtV) (s : State) : Out :=
  .next (s.issueV (.vqmx f) f 8 2 (effVqmx f))

/-- `vdqmx` (R158). -/
def execVdqmx (f : FmtV) (s : State) : Out :=
  .next (s.issueV (.vdqmx f) f 6 2 (effVdqmx f))

/-- `vcbl` (R155). -/
def execVcbl (f : FmtV) (s : State) : Out :=
  .next (s.issueV (.vcbl f) f 4 1 (effVcbl f))

/-- `vcblEnc` (R155). -/
def execVcblEnc (f : FmtV) (s : State) : Out :=
  .next (s.issueV (.vcblEnc f) f 4 1 (effVcblEnc f))

/-- The effect of a queued vector word that touches no memory, with its latency and issue interval. -/
def vxPure (i : Instr) : Option (Eff × Nat × Nat) :=
  match i with
  | .vadd f => some (vEff f (effVadd f), spLat f.sm (latArith f.ty 4 2), 1)
  | .vsub f => some (vEff f (effVsub f), spLat f.sm (latArith f.ty 4 2), 1)
  | .vmul f => some (vEff f (effVmul f), spLat f.sm 4, 1)
  | .vmulh f => some (vEff f (effVmulh f), spLat f.sm 4, 1)
  | .vfma f => some (vEff f (effVfma f), spLat f.sm 4, 1)
  | .vfms f => some (vEff f (effVfms f), spLat f.sm 4, 1)
  | .vfnma f => some (vEff f (effVfnma f), spLat f.sm 4, 1)
  | .vdiv f => some (vEff f (effVdiv f), spLat f.sm (divLat f.ty).1, (divLat f.ty).2)
  | .vsqrt f => some (vEff f (effVsqrt f), spLat f.sm (divLat f.ty).1, (divLat f.ty).2)
  | .vmin f => some (vEff f (effVmin f), spLat f.sm 2, 1)
  | .vmax f => some (vEff f (effVmax f), spLat f.sm 2, 1)
  | .vabs f => some (vEff f (effVabs f), spLat f.sm 2, 1)
  | .vneg f => some (vEff f (effVneg f), spLat f.sm 2, 1)
  | .vadds f => some (vEff f (effVadds f), spLat f.sm 2, 1)
  | .vsubs f => some (vEff f (effVsubs f), spLat f.sm 2, 1)
  | .vshl f => some (vEff f (effVshl f), spLat f.sm 2, 1)
  | .vshr f => some (vEff f (effVshr f), spLat f.sm 2, 1)
  | .vsra f => some (vEff f (effVsra f), spLat f.sm 2, 1)
  | .vaddi f => some (viEff f (effVaddi f), spLat f.sm 2, 1)
  | .vcmp f => some (vEff f (effVcmp f), spLat f.sm 2, 1)
  | .vredsum f => some (vEff f (effVredsum f), spLat f.sm (latArith f.ty 10 6), (latArith f.ty 4 2))
  | .vredmin f => some (vEff f (effVredmin f), spLat f.sm 6, 2)
  | .vredmax f => some (vEff f (effVredmax f), spLat f.sm 6, 2)
  | .vand f => some (vEff f (effVand f), spLat f.sm 2, 1)
  | .vandNb f => some (vEff f (effVandNb f), spLat f.sm 2, 1)
  | .vor f => some (vEff f (effVor f), spLat f.sm 2, 1)
  | .vorNb f => some (vEff f (effVorNb f), spLat f.sm 2, 1)
  | .vxor f => some (vEff f (effVxor f), spLat f.sm 2, 1)
  | .vxorNb f => some (vEff f (effVxorNb f), spLat f.sm 2, 1)
  | .vlut3 f => some (vlEff f (effVlut3 f), 2, 1)
  | .vfsh f => some (vEff f (effVfsh f), spLat f.sm 2, 1)
  | .vfshw f => some (vEff f (effVfshw f), spLat f.sm 3, 1)
  | .vrot f => some (vEff f (effVrot f), spLat f.sm 2, 1)
  | .vpopc f => some (vEff f (effVpopc f), spLat f.sm 2, 1)
  | .vclz f => some (vEff f (effVclz f), spLat f.sm 2, 1)
  | .vlrot f => some (viEff f (effVlrot f), spLat f.sm 3, 1)
  | .vslide f => some (viEff f (effVslide f), spLat f.sm 3, 1)
  | .vshuf f => some (vEff f (effVshuf f), spLat f.sm 3, 1)
  | .vbcast f => some (vEff f (effVbcast f), spLat f.sm 2, 1)
  | .vbcastEl f => some (vEff f (effVbcastEl f), spLat f.sm 2, 1)
  | .vzip f => some (vEff f (effVzip f), spLat f.sm 3, 1)
  | .vzipHi f => some (vEff f (effVzipHi f), spLat f.sm 3, 1)
  | .vunzip f => some (vEff f (effVunzip f), spLat f.sm 3, 1)
  | .vunzipOdd f => some (vEff f (effVunzipOdd f), spLat f.sm 3, 1)
  | .vsel f => some (vEff f (effVsel f), spLat f.sm 2, 1)
  | .vmvx f => some (vEff f (effVmvx f), spLat f.sm 4, 1)
  | .vmxv f => some (vEff f (effVmxv f), spLat f.sm 2, 1)
  | .pand f => some (vEff f (effPand f), spLat f.sm 1, 1)
  | .por f => some (vEff f (effPor f), spLat f.sm 1, 1)
  | .pxor f => some (vEff f (effPxor f), spLat f.sm 1, 1)
  | .pandn f => some (vEff f (effPandn f), spLat f.sm 1, 1)
  | .pset f => some (viEff f (effPset f), spLat f.sm 1, 1)
  | .pcnt f => some (vEff f (effPcnt f), spLat f.sm 3, 1)
  | .vcvt f => some (vEff f (effVcvt f), spLat f.sm 4, 1)
  | .vcvtSat f => some (vEff f (effVcvtSat f), spLat f.sm 4, 1)
  | .vpack f => some (vEff f (effVpack f), spLat f.sm 3, 1)
  | .vunpk f => some (vEff f (effVunpk f), spLat f.sm 3, 1)
  | .vqmx f => some (vEff f (effVqmx f), spLat f.sm 8, 2)
  | .vdqmx f => some (vEff f (effVdqmx f), spLat f.sm 6, 2)
  | .vcbl f => some (vEff f (effVcbl f), spLat f.sm 4, 1)
  | .vcblEnc f => some (vEff f (effVcblEnc f), spLat f.sm 4, 1)
  | _ => none

end Sys2Proof.Machine
end

