-- ==== Sys2Proof/Machine/Wait.lean ====
section
/-! DEFINITION. Deadline-bearing instructions: their issue, their tests and their TIMEOUT (R36 to R40). -/

namespace Sys2Proof.Machine

/-! ## Deadline-bearing completion (R37, R39, R40) -/

/-- Counts a completion at an address towards `dlesc` (R40): the context after, and whether its limit is reached. -/
def Ctx.countOne (c : Ctx) (at_ : Word) (code : Nat) : Ctx × Bool :=
  let cnt := if code = 1 then (if c.dlPrev = some at_ then wfld c.csr.dlesc 15 8 + 1 else 1) else 0
  let thr := wfld c.csr.dlesc 7 0
  let full := decide (code = 1) && decide (thr ≠ 0) && decide (thr ≤ cnt)
  let cnt' := if full then 0 else cnt % 256
  ({ c with
    csr := { c.csr with dlesc := wOf (thr + cnt' * 256) }
    dlPrev := if code = 1 then some at_ else none }, full)

/-- Whether an entry is a deadline-bearing read of the vector unit. -/
def QEntry.bears (q : QEntry) : Bool :=
  match q.instr with
  | some (.vldw _) => true
  | some (.vtrd _) => true
  | _ => false

/-- Whether a deadline-bearing read before a place in program order has still to complete. -/
def Ctx.bearsBefore (c : Ctx) (ord : Nat) : Bool :=
  (c.vx.q ++ c.vx.lane).any (fun q => decide (q.ord < ord) && q.bears) || c.vreads.any (fun v => decide (v.entry.ord < ord))

/-- Keeps a completion until those before it in program order have come. -/
def insertLate (x : Nat × Word × Nat) : List (Nat × Word × Nat) → List (Nat × Word × Nat)
  | [] => [x]
  | y :: r => if x.1 < y.1 then x :: y :: r else y :: insertLate x r

/-- Counts the kept completions that nothing before them holds any more; an escalation waits for the sequencer's
boundary. -/
def Ctx.countRest (c : Ctx) : Nat → Ctx
  | 0 => c
  | k + 1 =>
    match c.dlWait with
    | [] => c
    | (ord, at_, code) :: r =>
      if c.bearsBefore ord then c
      else
        let y := ({ c with dlWait := r } : Ctx).countOne at_ code
        Ctx.countRest (if y.2 then { y.1 with late := y.1.late ++ [(0x06, 0, at_)] } else y.1) k

/-- A completion with a place in program order is counted in that order (R40): the context after, and whether
deadline escalation is raised. -/
def Ctx.countD (c : Ctx) (x : Bool) (ord : Nat) (at_ : Word) (code : Nat) : Ctx × Bool :=
  if c.bearsBefore ord then
    ({ c with dlWait := insertLate (ord, at_, code) c.dlWait }, decide (code = 1) && x)
  else
    let r := (c.countRest c.dlWait.length).countOne at_ code
    (r.1, (decide (code = 1) && x) || r.2)

/-- Writes the status of a deadline-bearing instruction of a core and counts its timeouts (R40): the
instruction's address is `at_`, the status is ready after k cycles, and the trap of an escalation is taken with the cut
at the next instruction. -/
def State.finishDk (s : State) (n k : Nat) (st : BitVec 5) (x : Bool) (at_ : Word) (code detail : Nat) : State :=
  let r := ((s.fg n).setX st (statusWord code detail)).countD x (s.fg n).ord at_ code
  let s := (s.setFg n { r.1 with wait := none, pc := at_ + 8 }).tick k
  if r.2 then s.takeTrap n 0x06 0 (at_ + 8) at_ else s

/-- The status is ready 2 cycles after the completing test (R263, R265, R293). -/
def State.finishD (s : State) (n : Nat) (st : BitVec 5) (x : Bool) (at_ : Word) (code detail : Nat) : State :=
  s.finishDk n 2 st x at_ code detail

/-- The same for a Hamper thread: it has no `dlesc`, `.x` traps on its first TIMEOUT
(R334, R40), and the status is ready 4 Hamper cycles after the completing test (R349, R353). -/
def State.finishDT (s : State) (h : Nat) (st : BitVec 5) (x : Bool) (at_ : Word) (code detail : Nat) : State :=
  let t := s.thread h
  let t := { t with x := xset t.x st (statusWord code detail), wait := none }
  let s := (s.setThread h t).tick 2
  if decide (code = 1) && x then s.threadTrap h 0x06 at_ else s.setThread h { t with pc := at_ + 8 }

/-- A test of a waiting instruction: the state once it has completed, or nothing. -/
abbrev Test := State → Nat → Wait → Option State
/-- What the instruction does at the first tick after D. -/
abbrev Expiry := State → Nat → Wait → State

/-- The record of a Format D instruction at its issue: D by R36, and its operands. -/
def State.waitOf (s : State) (f : FmtD) (i : Instr) : Wait :=
  { instr := i, pc := s.pc, d := deadlineAt s.agentTime (s.xr f.dl), a := s.xr f.a, b := s.xr f.b, since := s.now,
    ord := match s.cur with | .core n => (s.fg n).ord | .thread _ => 0 }

/-- Installs a wait at the moving agent, and lets a cycle pass. -/
def State.setWait (s : State) (w : Wait) : State :=
  (match s.cur with
    | .core n => s.modFg n (fun c => { c with wait := some w })
    | .thread h => s.setThread h { s.thread h with wait := some w }).tick 1

/-- The issue of a deadline-bearing instruction (R37): one test; where it fails, the wait, or at once the
TIMEOUT when D has passed.  A step makes one test only, and then blocks (R446). -/
def State.beginWait (s : State) (n : Nat) (w : Wait) (test : Test) (late : Expiry) : State :=
  match test s n w with
  | some s' => s'
  | none =>
    let stepped := match s.cur with | .core n => (s.core n).stepping.isSome | .thread _ => false
    if stepped then
      match s.cur with
      | .core n => s.setCore n { s.core n with stepRes := some (1, 0) }
      | .thread _ => s
    else if w.d.toNat < s.agentTime.toNat then late s n w
    else s.setWait w

/-- The completion of a core's Format D instruction with a status (R39, R40). -/
def State.doneD (s : State) (n : Nat) (f : FmtD) (w : Wait) (code detail : Nat) : State :=
  s.finishD n f.st f.x w.pc code detail

/-- The plain TIMEOUT. -/
def lateD (f : FmtD) : Expiry := fun s n w => s.doneD n f w 1 0

/-- A wait of a sequencer instruction that bears no deadline of its own. -/
def State.waitQ (s : State) (f : FmtQ) (i : Instr) (d : Word) : Wait :=
  { instr := i, pc := s.pc, d := d, a := s.xr f.a, b := s.xr f.b, since := s.now,
    ord := match s.cur with | .core n => (s.fg n).ord | .thread _ => 0 }

/-- The completion of a Format Q instruction: its result, and the PC moves on. -/
def State.doneQ (s : State) (f : FmtQ) (v : Word) (cyc : Nat) : State := (s.setXr f.d v).retire 8 cyc

/-- The completion of a Format Q instruction that waited. -/
def State.doneQW (s : State) (n : Nat) (f : FmtQ) (w : Wait) (v : Word) : State :=
  (s.modFg n (fun c => { c.setX f.d v with wait := none, pc := w.pc + 8 })).tick 2

end Sys2Proof.Machine
end

