-- ==== Sys2Proof/Machine/Sequencer.lean ====
section
/-! DEFINITION. Class SQ: sleeping and engine control, semaphores, rings, spools, the Tag Table, `MARK`, and
the reading of the trap record (R110 to R115, R258 to R261, R292 to R309, R397). -/

namespace Sys2Proof.Machine

/-! ## Engines seen by the sequencer -/

/-- The mask of engines for which a condition holds: bit 0 VX .. bit 3 CE1. -/
def engMask (f : Eng → Bool) : Nat := engines.foldl (fun a e => a + boolNat (f e) * 2 ^ engNum e) 0

/-- The engines whose `ev` bit is 1 (R114). -/
def Ctx.evMask (c : Ctx) : Nat := engMask (fun e => (c.eng e).ev)

/-- An engine with no queued entry and no command in progress (R115); a ring is never idle. -/
def Ctx.quiet (c : Ctx) (e : Eng) : Bool :=
  let g := c.eng e
  g.q.isEmpty && g.lane.isEmpty && g.run.isEmpty && decide (g.st ≠ .ring) &&
    (if e = .vx then c.vreads.isEmpty && !c.inflight.any (fun p => decide (p.eng = .vx))
     else if e = .mt then !c.inflight.any (fun p => decide (p.eng = .mt)) else true)

/-- The lowest engine of a mask. -/
def lowEng (m : Nat) : Eng := if m.testBit 0 then .vx else if m.testBit 1 then .mt else if m.testBit 2 then .ce0 else .ce1

/-! ### SLEEPU (R111) -/

/-- `SLEEPU` completes without counting towards `dlesc` and without clearing it. -/
def State.wake (s : State) (n : Nat) (f : FmtD) (w : Wait) (ev : Nat) : State :=
  (s.modFg n (fun c => { c.setX f.st (statusWord 0 ev) with wait := none, pc := w.pc + 8 })).tick 1

def sleepuTest (f : FmtD) : Test := fun s n w =>
  let ev := (s.fg n).evMask
  if ev ≠ 0 then some (s.wake n f w ev)
  else if w.d.toNat ≤ s.agentTime.toNat then some (s.wake n f w 0)
  else none

def sleepuLate (f : FmtD) : Expiry := fun s n w => s.wake n f w 0

def execSleepu (f : FmtD) (s : State) : Out :=
  .next (s.onCore ((encode64 (.sleepu f)).getD 0)
    (fun n => s.beginWait n (s.waitOf f (.sleepu f)) (sleepuTest f) (sleepuLate f)))

/-! ### ENGDL, ENGST, ENGSYNC (R112, R113, R115) -/

def Ctx.setEdl (c : Ctx) (e : Nat) (v : Word) : Ctx := { c with csr := { c.csr with edl := tset 0 c.csr.edl e v } }

def execEngdl (f : FmtQ) (s : State) : Out :=
  .next (s.onCore ((encode64 (.engdl f)).getD 0) (fun n =>
    let v := s.xr f.a
    let e := f.imm.toNat
    (s.modFg n (fun c =>
      if e = 4 then (((c.setEdl 0 v).setEdl 1 v).setEdl 2 v).setEdl 3 v else c.setEdl e v)).retire 8 1))

/-- The engine status word (R113). -/
def Engine.statusOf (g : Engine) : Word :=
  wOf (g.seq.toNat * 2 ^ 32 + g.cause.toNat * 2 ^ 24 + g.code % 16 * 2 ^ 16 + g.q.length % 256 * 2 ^ 8 +
    boolNat g.ev * 8 + g.stateCode)

def execEngst (f : FmtQ) (s : State) : Out :=
  .next (s.onCore ((encode64 (.engst f)).getD 0) (fun n =>
    let e := engOf (f.imm.toNat % 4)
    let v := ((s.fg n).eng e).statusOf
    let s1 := if f.imm.getLsbD 3 then s.modFg n (fun c => c.setEng e { c.eng e with ev := false }) else s
    s1.doneQ f v 1))

def engsyncTest (f : FmtD) : Test := fun s n w =>
  let c := s.fg n
  let named := f.aux.toNat % 16
  let stop := engMask (fun e => named.testBit (engNum e) && decide ((c.eng e).st = .stopped))
  if stop ≠ 0 then some (s.doneD n f w 7 ((c.eng (lowEng stop)).cause.toNat + stop * 2 ^ 8))
  else if engines.all (fun e => !named.testBit (engNum e) || c.quiet e) then some (s.doneD n f w 0 0)
  else none

def execEngsync (f : FmtD) (s : State) : Out :=
  .next (s.onCore ((encode64 (.engsync f)).getD 0)
    (fun n => s.beginWait n (s.waitOf f (.engsync f)) (engsyncTest f) (lateD f)))

/-! ## Semaphores (R292 to R295) -/

/-- The semaphore a `SEMWAIT` names: n[5:0] in `aux`, n[7:6] in `b`[1:0]. -/
def semOfD (f : FmtD) : Nat := f.aux.toNat + f.b.toNat % 4 * 64

def semwaitTest (f : FmtD) : Test := fun s n w =>
  let c := s.fg n
  let k := semOfD f
  if k = 0 then some ((s.modFg n (fun c => c.setX f.d 0)).doneD n f w 0 0)
  else if 1 ≤ (c.semOf k).toNat then
    some ((s.modFg n (fun c => (c.semTake k).setX f.d (wOf ((c.semOf k).toNat - 1)))).doneD n f w 0 0)
  else
    let m := c.evMask
    if m ≠ 0 then
      let g := c.eng (lowEng m)
      some (s.doneD n f w 7 (g.cause.toNat + m * 2 ^ 8 + g.code % 16 * 2 ^ 12))
    else none

def execSemwait (f : FmtD) (s : State) : Out :=
  .next (s.onCore ((encode64 (.semwait f)).getD 0)
    (fun n => s.beginWait n (s.waitOf f (.semwait f)) (semwaitTest f) (lateD f)))

/-- A signal by the sequencer: an overflow traps precisely (R290). -/
def State.seqSignal (s : State) (n sem k : Nat) : State :=
  match (s.fg n).semAdd sem k with
  | some c => (s.setFg n c).retire 8 1
  | none => s.trapHere 0x07 (wOf sem)

def execSemsig (f : FmtQ) (s : State) : Out :=
  .next (s.onCore ((encode64 (.semsig f)).getD 0) (fun n => s.seqSignal n (f.imm.toNat % 256) 1))

def execSemadd (f : FmtQ) (s : State) : Out :=
  .next (s.onCore ((encode64 (.semadd f)).getD 0)
    (fun n => s.seqSignal n (f.imm.toNat % 256) (s.xr f.a).toNat))

def execSemrd (f : FmtQ) (s : State) : Out :=
  .next (s.onCore ((encode64 (.semrd f)).getD 0)
    (fun n => s.doneQ f (wOf (if f.imm.toNat % 256 = 0 then 0 else ((s.fg n).semOf (f.imm.toNat % 256)).toNat)) 2))

/-! ## Ring mode (R296, R297) -/

/-- The engine leaves `state` 2 (R286): into its ring, where an entry that had not started is fetched again
(R298), or to run what is queued. -/
def Engine.go (g : Engine) : Engine :=
  let q := if g.r then g.q.filter (fun x => x.started) else g.q
  let g := { g with trap := none, q := q.map (fun (x : QEntry) => { x with wt0 := none }) }
  { g with st := if g.r then .ring else if g.q.isEmpty then .idle else .running }

/-- Discards the head entry, where there is one (R285, R297): in a ring, whose head may have failed its fetch, the
next entry becomes the head. -/
def Engine.skip (g : Engine) : Engine :=
  if g.r then { g with seq := g.seq + 1, q := g.q.drop 1, rIdx := (g.rIdx + 1) % max g.rCnt 1 }
  else if g.q.isEmpty then g
  else { g with seq := g.seq + 1, q := g.q.drop 1 }

/-- The ring ends (R286, R299): what it has fetched and not started is no entry of the queue. -/
def Engine.leaveRing (g : Engine) : Engine :=
  if g.st = .stopped then { g with r := false, st := .idle, trap := none, q := [] }
  else { g with r := false, st := .running, q := g.q.filter (fun q => q.started) }

/-- Discards every queued entry that has not started. -/
def Engine.dropAll (g : Engine) : Engine :=
  let k := (g.q.filter (fun q => !q.started)).length
  { g with q := g.q.filter (fun q => q.started), seq := g.seq + BitVec.ofNat 32 k }

/-- The result of an operation refused in the engine's state. -/
def ringBad : Word := 0x8000000000000001
def ringLimit : Word := 0x8000000000000002

/-- The entry size of an engine's ring (R96). -/
def entrySize (e : Eng) : Nat := if e = .vx ∨ e = .mt then 8 else 64

/-- An `ENGRING` operation: what it makes of the engine, and xd; none where the state refuses it. -/
def State.ringOp (s : State) (f : FmtQ) (i : Instr) (op : Engine → Option (Engine × Word)) : State :=
  s.onCore ((encode64 i).getD 0) (fun n =>
    let e := engOf (f.imm.toNat % 4)
    match op ((s.fg n).eng e) with
    | some (g, v) => (s.modFg n (fun c => c.setEng e (g.settle (c.awaits e)))).doneQ f v 2
    | none => s.doneQ f ringBad 2)

def execEngringOff (f : FmtQ) (s : State) : Out :=
  .next (s.ringOp f (.engringOff f) (fun g =>
    if g.st = .ring ∨ (g.st = .stopped ∧ g.r) then some (g.leaveRing, 0) else none))

def execEngringOn (f : FmtQ) (s : State) : Out :=
  let e := engOf (f.imm.toNat % 4)
  let a := (s.xr f.a).toNat
  let b := (s.xr f.b).toNat
  .next (s.ringOp f (.engringOn f) (fun g =>
    if g.st ≠ .idle then none
    else if a % entrySize e = 0 ∧ 1 ≤ b ∧ b ≤ 4096 ∧ a + b * entrySize e ≤ 0x80000 then
      some ({ g with r := true, st := .ring, rOff := a, rCnt := b, rIdx := 0 }, 0)
    else some (g, ringLimit)))

def execEngringGo (f : FmtQ) (s : State) : Out :=
  .next (s.ringOp f (.engringGo f) (fun g => if g.st = .stopped then some (g.go, 0) else none))

def execEngringSkip (f : FmtQ) (s : State) : Out :=
  .next (s.ringOp f (.engringSkip f) (fun g => if g.st = .stopped then some (g.skip.go, 0) else none))

def execEngringDrop (f : FmtQ) (s : State) : Out :=
  .next (s.ringOp f (.engringDrop f) (fun g =>
    if g.st = .ring ∨ (g.st = .stopped ∧ g.r) then none
    else
      let k := (g.q.filter (fun q => !q.started)).length
      some ({ g.dropAll with st := .running, trap := none }, wOf k)))

/-! ## Spools (R305 to R309) -/

/-- Whether an instruction names spool k as an operand. -/
def namesSpool (i : Instr) (k : Nat) : Bool :=
  match i with
  | .spfill p => decide (p.dst.toNat % 16 = k)
  | .spdrain p => decide (p.src.toNat % 16 = k)
  | i =>
    match encode64 i with
    | some w =>
      decide (getClass w = 1) &&
        (((getV w).sm.getLsbD 0 && decide ((getV w).a.toNat = k)) ||
          ((getV w).sm.getLsbD 1 && decide ((getV w).d.toNat = k))) &&
        (match i with | .vlut3 _ => false | .vldw _ => false | .vtrd _ => false | _ => true)
    | none => false

def QEntry.names (q : QEntry) (k : Nat) : Bool := (q.instr.map (fun i => namesSpool i k)).getD false

/-- Whether an entry has claimed every slot it will claim: a copy packet that has started, once no slot of its run is
left (R306, R324). -/
def QEntry.claimed (q : QEntry) : Bool :=
  let k := q.piece + boolNat q.claim.isSome
  q.started && (match q.instr with
    | some (.spfill p) => decide (Packet.par' p 24 4 + boolNat (p.cmd.fl.getLsbD 0) ≤ k)
    | some (.spdrain p) => q.fin || decide (Packet.par' p 24 4 ≤ k)
    | _ => false)

/-- The wait of R306: an entry names the spool and has still to claim (`whole`: has still to complete), or an engine that
holds one is stopped. -/
def Ctx.spoolBusy (c : Ctx) (k : Nat) (whole : Bool) : Option Bool :=
  let holds (e : Eng) : Bool := ((c.eng e).q ++ (c.eng e).lane).any (fun q => q.names k && (whole || !q.claimed))
  if engines.any (fun e => holds e && decide ((c.eng e).st = .stopped)) then some false
  else if engines.any holds || (whole && c.inRun.any (fun p => decide (p.spool.map (fun x => x.1) = some k))) then
    some true
  else none

/-- A spool instruction: R306's wait, then the operation, on the descriptor as the claim sees it and as it is: a
descriptor and xd.  A claim that would have fitted at the start of the cycle waits, another traps (R301, R304). -/
def spoolTest (f : FmtQ) (whole : Bool) (op : Spool → Spool → Word → Option (Spool × Word)) : Test := fun s n w =>
  let k := f.imm.toNat % 16
  let t := s.spoolCycle
  match (s.fg n).spoolBusy k whole with
  | some true => none
  | some false => some (s.doneQW n f w 0xFFFFFFFFFFFFFFFE)
  | none =>
    let p := (s.fg n).spool k
    match op (p.seen t) p w.a with
    | some (r, v) => some ((if whole then s.modFg n (fun c => c.setSpool k r) else s.putSpool n k r).doneQW n f w v)
    | none => if (op (p.atStart t) p w.a).isSome then none else some ((s.takeTrap n 0x11 0 w.pc (wOf k)).tick 1)

def State.spoolIssue (s : State) (f : FmtQ) (i : Instr) (whole : Bool)
    (op : Spool → Spool → Word → Option (Spool × Word)) : State :=
  s.onCore ((encode64 i).getD 0)
    (fun n => s.beginWait n (s.waitQ f i ones64) (spoolTest f whole op) (fun s _ w => s.setWait w))

/-- Bits [63:0] of a descriptor (R300). -/
def Spool.lowWord (p : Spool) : Word :=
  if p.cfg then wOf (2 ^ 63 + p.ssz * 2 ^ 48 + p.nsl * 2 ^ 40 + p.base) else 0

/-- Bits [127:64] of a descriptor. -/
def Spool.highWord (p : Spool) : Word :=
  if p.cfg then wOf (p.hd + p.tl * 2 ^ 8 + p.cnt * 2 ^ 16 + p.prs * 2 ^ 24) else 0

/-- `SLCFG` (R307). -/
def slcfgOp (_ p : Spool) (a : Word) : Option (Spool × Word) :=
  let v := a.toNat % 2 ^ 63
  let ssz := fld v 55 48
  let nsl := fld v 47 40
  let base := fld v 18 0
  if v = 0 then some ({}, p.lowWord)
  else if fld v 62 56 = 0 ∧ fld v 39 19 = 0 ∧ 1 ≤ ssz ∧ ssz ≤ 64 ∧ 2 ≤ nsl ∧ nsl ≤ 64 ∧ base % 64 = 0 ∧
      base + 64 * ssz * nsl ≤ 0x80000 then
    some ({ cfg := true, ssz := ssz, nsl := nsl, base := base }, p.lowWord)
  else some (p, ones64)

/-- `SLADV.cons` (R308): z is the descriptor as the claim sees it. -/
def sladvConsOp (z p : Spool) (a : Word) : Option (Spool × Word) :=
  if p.cfg = false then none
  else if a = 0 then some (p, wOf p.cnt)
  else if z.cnt < a.toNat then none
  else
    let r := Spool.consN a.toNat p
    some (r, wOf r.cnt)

/-- `SLADV.prod` (R308). -/
def sladvProdOp (z p : Spool) (a : Word) : Option (Spool × Word) :=
  if p.cfg = false then none
  else if a = 0 then some (p, wOf p.cnt)
  else if z.free < a.toNat then none
  else
    let r := Spool.prodN a.toNat p
    some (r, wOf r.cnt)

/-- `SLTOK.rd` (R309). -/
def sltokRdOp (_ p : Spool) (_ : Word) : Option (Spool × Word) :=
  if p.cfg = false then none
  else
    let t := decide (1 ≤ p.cnt) && p.tok.getLsbD p.hd
    some (p, wOf (p.highWord.toNat % 2 ^ 63 + boolNat t * 2 ^ 63))

/-- `SLTOK.put` (R309). -/
def sltokPutOp (z p : Spool) (_ : Word) : Option (Spool × Word) :=
  if p.cfg = false ∨ z.free = 0 then none
  else
    let q := p.claimProd
    let r := { q.2 with tok := setTok q.2.tok q.1 }.fill q.1
    some (r, wOf r.cnt)

/-- `SLTOK.take` (R309). -/
def sltokTakeOp (z p : Spool) (_ : Word) : Option (Spool × Word) :=
  if p.cfg = false then none
  else if 1 ≤ z.cnt ∧ p.tok.getLsbD p.hd then some ({ (p.claimCons).2 with tok := clearTok p.tok p.hd }, 1)
  else some (p, 0)

def execSlcfg (f : FmtQ) (s : State) : Out := .next (s.spoolIssue f (.slcfg f) true slcfgOp)
def execSladvCons (f : FmtQ) (s : State) : Out := .next (s.spoolIssue f (.sladvCons f) false sladvConsOp)
def execSladvProd (f : FmtQ) (s : State) : Out := .next (s.spoolIssue f (.sladvProd f) false sladvProdOp)
def execSltokRd (f : FmtQ) (s : State) : Out := .next (s.spoolIssue f (.sltokRd f) false sltokRdOp)
def execSltokPut (f : FmtQ) (s : State) : Out := .next (s.spoolIssue f (.sltokPut f) false sltokPutOp)
def execSltokTake (f : FmtQ) (s : State) : Out := .next (s.spoolIssue f (.sltokTake f) false sltokTakeOp)

/-! ## The Tag Table (R258 to R260) -/

/-- The lowest entry from k up, among the m that follow, for which a condition holds. -/
def tagFind (t : Tbl Word) (f : Word → Bool) : Nat → Nat → Option Nat
  | 0, _ => none
  | m + 1, k => if f (tget 0 t k) then some k else tagFind t f m (k + 1)

def Ctx.setTag (c : Ctx) (k : Nat) (v : Word) : Ctx :=
  { c with tag := tset 0 c.tag k v, regs := c.regs.clean (poisTag k) }

def execTaglk (f : FmtQ) (s : State) : Out :=
  .next (s.onCore ((encode64 (.taglk f)).getD 0) (fun n =>
    let key := (s.xr f.a).toNat % 2 ^ 48
    let r := tagFind (s.fg n).tag (fun w => w.getLsbD 63 && decide (w.toNat % 2 ^ 48 = key)) 256 0
    s.doneQ f (match r with | some k => wOf k | none => ones64) 3))

def execTagset (f : FmtQ) (s : State) : Out :=
  .next (s.onCore ((encode64 (.tagset f)).getD 0) (fun n =>
    let b := s.xr f.b
    let k := b.toNat % 256
    let old := tget 0 (s.fg n).tag k
    let v := wOf (2 ^ 63 + boolNat (b.getLsbD 8) * 2 ^ 62 + (s.xr f.a).toNat % 2 ^ 48)
    (s.modFg n (fun c => c.setTag k v)).doneQ f old 2))

def execTagclr (f : FmtQ) (s : State) : Out :=
  .next (s.onCore ((encode64 (.tagclr f)).getD 0) (fun n =>
    let k := (s.xr f.a).toNat % 256
    let old := tget 0 (s.fg n).tag k
    (s.modFg n (fun c => c.setTag k 0)).doneQ f old 2))

/-- `TAGCLR.all`: every entry with `l` = 0; xd is how many, whether or not they were valid. -/
def execTagclrAll (f : FmtQ) (s : State) : Out :=
  .next (s.onCore ((encode64 (.tagclrAll f)).getD 0) (fun n =>
    let t := (s.fg n).tag
    let locked := t.filter (fun p => p.2.getLsbD 62)
    let kept (k : Nat × Nat) : Bool :=
      decide (k.1 ≠ 4 ∨ k.2 < 512 ∨ 768 ≤ k.2) || (tget 0 t (k.2 - 512)).getLsbD 62
    (s.modFg n (fun c => { c with tag := locked, regs := { c.regs with pois := c.regs.pois.filter kept } })).doneQ f (wOf (256 - locked.length)) 4))

/-- `TAGVIC` (R260). -/
def tagVictim (t : Tbl Word) (tvp : Nat) : Nat → Nat → Option Nat
  | 0, _ => none
  | m + 1, j =>
    let e := (tvp + j) % 256
    if (tget 0 t e).getLsbD 62 then tagVictim t tvp m (j + 1) else some e

def execTagvic (f : FmtQ) (s : State) : Out :=
  .next (s.onCore ((encode64 (.tagvic f)).getD 0) (fun n =>
    let c := s.fg n
    match tagFind c.tag (fun w => !w.getLsbD 63) 256 0 with
    | some k => s.doneQ f (wOf k) 3
    | none =>
      match tagVictim c.tag c.tvp 256 0 with
      | some e => (s.modFg n (fun c => { c with tvp := (e + 1) % 256 })).doneQ f (wOf e) 3
      | none => s.doneQ f ones64 3))

/-! ## MARK and CUTRD (R261, R397) -/

/-- `MARK` (R261): a marker in the store queue; reads of HBM are performed as the engines issue them, so
the load queue is empty (notes/assumptions/17.md).  While packets forwarded before it are unfinished it is
also kept with the context, to hold the accesses of later packets. -/
def execMark (f : FmtQ) (s : State) : Out :=
  .next (s.onCore ((encode64 (.mark f)).getD 0) (fun n =>
    let k := s.core n
    let k := if k.sq.isEmpty then k else { k with sq := k.sq ++ [{ marker := true }] }
    let c := k.fg
    let c := if c.ce0.q.isEmpty && c.ce0.lane.isEmpty && c.ce1.q.isEmpty && c.ce1.lane.isEmpty then c
      else { c with marks := c.marks ++ [c.ord] }
    (s.setCore n { k with fg := c }).retire 8 1))

/-- A field of the trap record by its `CUTRD` index (R378). -/
def TrapRec.field (r : TrapRec) (i : Nat) : Word :=
  match i with
  | 0 => r.cpc
  | 1 => r.cvx
  | 2 => r.cmt
  | 3 => r.cce0
  | 4 => r.cce1
  | 5 => r.cw
  | 6 => r.cval
  | 7 => r.cjt
  | 8 => r.cdc
  | 9 => r.cifq
  | 10 => r.cerr
  | _ => 0

def execCutrd (f : FmtQ) (s : State) : Out :=
  .next (s.onCore ((encode64 (.cutrd f)).getD 0) (fun n =>
    if (s.fg n).regs.pois.contains (poisCsr 0x1000) then s.trapHere 0x0A (wOf (2 ^ 63 + 2))
    else s.doneQ f ((s.fg n).rcd.field (f.imm.toNat % 16)) 2))

/-! ## TRET (R386) -/

/-- The earliest deadline of the lanes that hold entries. -/
def Ctx.laneD (c : Ctx) (t : Word) : Word :=
  engines.foldl (fun a e =>
    if (c.eng e).lane.isEmpty then a
    else
      let d := deadlineAt t (c.edl e)
      if d.toNat < a.toNat then d else a) ones64

/-- The return (R386): the faulting engine's head is retried or discarded, `hact` falls, PC := `tepc`.
Every waiting head begins a new wait (R480) (notes/assumptions/64.md). -/
def State.tretNow (s : State) (n : Nat) (skip : Bool) : State :=
  (s.modFg n (fun c =>
    let u := wfld c.csr.tcause 15 8
    let c := if 1 ≤ u ∧ u ≤ 4 ∧ (c.eng (engOf (u - 1))).st = .stopped then
        let e := engOf (u - 1)
        let g := c.eng e
        c.setEng e { (if skip then g.skip.go else g.go) with ev := false }
      else c
    let fresh (g : Engine) : Engine := { g with q := g.q.map (fun (x : QEntry) => { x with wt0 := none }) }
    { c with vx := fresh c.vx, mt := fresh c.mt, ce0 := fresh c.ce0, ce1 := fresh c.ce1,
             hact := false, pc := c.csr.tepc, wait := none })).tick 4

def tretTest (skip : Bool) : Test := fun s n _ =>
  if engines.all (fun e => ((s.fg n).eng e).lane.isEmpty) then some (s.tretNow n skip) else none

/-- A lane wait that passes its deadline: cause 0x06 at the `TRET`; `hact` stays 1. -/
def tretLate : Expiry := fun s n w => (s.takeTrap n 0x06 0 w.pc (s.fg n).holdReport).tick 1

def State.tret (s : State) (f : FmtQ) (i : Instr) (skip : Bool) : State :=
  let w := (encode64 i).getD 0
  s.onCore w (fun n =>
    if (s.fg n).hact = false then s.trapHere 0x01 w
    else s.beginWait n (s.waitQ f i ((s.fg n).laneD s.agentTime)) (tretTest skip) tretLate)

def execTret (f : FmtQ) (s : State) : Out := .next (s.tret f (.tret f) false)
def execTretSkip (f : FmtQ) (s : State) : Out := .next (s.tret f (.tretSkip f) true)

end Sys2Proof.Machine
end

