-- ==== Sys2Proof/Machine/Scalar.lean ====
section
/-! DEFINITION. The scalar instructions: RV64 arithmetic and control flow, loads and stores of the
core-local space, the fences of path S, `ECALL`, `EBREAK`, and the CSRs (R14 to R23, R42 to R45, R106 to
R109, R218, R219, R332). -/

namespace Sys2Proof.Machine

def RvLen : RvEnc → Nat
  | .w32 => 4
  | .c16 _ => 2

/-! ## Integer operations (R14) -/

/-- A 32-bit result, sign-extended. -/
def sx32 (x : BitVec 32) : Word := x.signExtend 64

/-- Division of RISC-V: by zero gives all ones, and the overflow gives the dividend. -/
def rvDiv {n : Nat} (x y : BitVec n) : BitVec n :=
  if y = 0 then BitVec.allOnes n else BitVec.ofInt n (Int.tdiv x.toInt y.toInt)
def rvRem {n : Nat} (x y : BitVec n) : BitVec n :=
  if y = 0 then x else BitVec.ofInt n (Int.tmod x.toInt y.toInt)
def rvDivu {n : Nat} (x y : BitVec n) : BitVec n := if y = 0 then BitVec.allOnes n else x / y
def rvRemu {n : Nat} (x y : BitVec n) : BitVec n := if y = 0 then x else x % y

def rvAlu (k : RvAlu) (x y : Word) : Word :=
  match k with
  | .add => x + y
  | .sub => x - y
  | .sll => x <<< (y.toNat % 64)
  | .slt => if x.toInt < y.toInt then 1 else 0
  | .sltu => if x.toNat < y.toNat then 1 else 0
  | .xor => x ^^^ y
  | .srl => x >>> (y.toNat % 64)
  | .sra => x.sshiftRight (y.toNat % 64)
  | .or => x ||| y
  | .and => x &&& y
  | .mul => x * y
  | .mulh => wOfInt (x.toInt * y.toInt / (2 ^ 64 : Nat))
  | .mulhsu => wOfInt (x.toInt * (y.toNat : Int) / (2 ^ 64 : Nat))
  | .mulhu => wOf (x.toNat * y.toNat / 2 ^ 64)
  | .div => rvDiv x y
  | .divu => rvDivu x y
  | .rem => rvRem x y
  | .remu => rvRemu x y
  | .sh1add => (x <<< 1) + y
  | .sh2add => (x <<< 2) + y
  | .sh3add => (x <<< 3) + y
  | .andn => x &&& ~~~y
  | .orn => x ||| ~~~y
  | .xnor => ~~~(x ^^^ y)
  | .max => if x.toInt < y.toInt then y else x
  | .maxu => if x.toNat < y.toNat then y else x
  | .min => if x.toInt < y.toInt then x else y
  | .minu => if x.toNat < y.toNat then x else y
  | .rol => x.rotateLeft (y.toNat % 64)
  | .ror => x.rotateRight (y.toNat % 64)

def rvAluW (k : RvAluW) (x y : Word) : Word :=
  let a : BitVec 32 := x.setWidth 32
  let b : BitVec 32 := y.setWidth 32
  let z : Word := a.setWidth 64
  match k with
  | .addw => sx32 (a + b)
  | .subw => sx32 (a - b)
  | .sllw => sx32 (a <<< (b.toNat % 32))
  | .srlw => sx32 (a >>> (b.toNat % 32))
  | .sraw => sx32 (a.sshiftRight (b.toNat % 32))
  | .mulw => sx32 (a * b)
  | .divw => sx32 (rvDiv a b)
  | .divuw => sx32 (rvDivu a b)
  | .remw => sx32 (rvRem a b)
  | .remuw => sx32 (rvRemu a b)
  | .adduw => z + y
  | .sh1adduw => (z <<< 1) + y
  | .sh2adduw => (z <<< 2) + y
  | .sh3adduw => (z <<< 3) + y
  | .rolw => sx32 (a.rotateLeft (b.toNat % 32))
  | .rorw => sx32 (a.rotateRight (b.toNat % 32))

def rvImm (k : RvImm) (x : Word) (i : BitVec 12) : Word :=
  let y : Word := i.signExtend 64
  match k with
  | .addi => x + y
  | .slti => if x.toInt < y.toInt then 1 else 0
  | .sltiu => if x.toNat < y.toNat then 1 else 0
  | .xori => x ^^^ y
  | .ori => x ||| y
  | .andi => x &&& y
  | .addiw => sx32 ((x + y).setWidth 32)

def rvShift (k : RvShift) (x : Word) (sh : Nat) : Word :=
  let a : BitVec 32 := x.setWidth 32
  match k with
  | .slli => x <<< sh
  | .srli => x >>> sh
  | .srai => x.sshiftRight sh
  | .rori => x.rotateRight sh
  | .slliuw => (a.setWidth 64) <<< sh
  | .slliw => sx32 (a <<< sh)
  | .srliw => sx32 (a >>> sh)
  | .sraiw => sx32 (a.sshiftRight sh)
  | .roriw => sx32 (a.rotateRight sh)

/-- The number of trailing 0 bits of w. -/
def ctzGo (x : Nat) : Nat → Nat → Nat
  | 0, k => k
  | m + 1, k => if x.testBit k then k else ctzGo x m (k + 1)

/-- Reverses the bytes of a word. -/
def rev8 (x : Word) : Word := wOf (leNat ((leBytes 8 x.toNat).reverse))

/-- Each byte that is not 0 becomes all ones. -/
def orcb (x : Word) : Word :=
  wOf (leNat ((leBytes 8 x.toNat).map (fun b => if b = 0 then (0 : Byte) else 0xFF)))

def rvUnary (k : RvUnary) (x : Word) : Word :=
  let l := x.toNat % 2 ^ 32
  match k with
  | .clz => wOf (clzNat 64 x.toNat)
  | .ctz => wOf (ctzGo x.toNat 64 0)
  | .cpop => wOf (popGo x.toNat 64)
  | .clzw => wOf (clzNat 32 l)
  | .ctzw => wOf (ctzGo l 32 0)
  | .cpopw => wOf (popGo l 32)
  | .sextb => (x.setWidth 8).signExtend 64
  | .sexth => (x.setWidth 16).signExtend 64
  | .zexth => wOf (x.toNat % 2 ^ 16)
  | .rev8 => rev8 x
  | .orcb => orcb x

def rvTaken (k : RvBranch) (x y : Word) : Bool :=
  match k with
  | .beq => decide (x = y)
  | .bne => decide (x ≠ y)
  | .blt => decide (x.toInt < y.toInt)
  | .bge => decide (y.toInt ≤ x.toInt)
  | .bltu => decide (x.toNat < y.toNat)
  | .bgeu => decide (y.toNat ≤ x.toNat)

/-- A jump writes its link and goes to its target; an odd target raises misaligned at the jump (R16). -/
def State.jump (s : State) (rd : BitVec 5) (len : Nat) (target : Word) : State :=
  if target.getLsbD 0 then s.trapHere 0x0F target
  else ((s.setXr rd (s.pc + wOf len)).setPc target).tick 1

/-- `RV64_INTEGER_OP` (R14). -/
def execRv64IntegerOp (o : RvOp) (e : RvEnc) (s : State) : Out :=
  let len := RvLen e
  .next (match o with
    | .alu k rd a b => (s.setXr rd (rvAlu k (s.xr a) (s.xr b))).retire len 1
    | .aluw k rd a b => (s.setXr rd (rvAluW k (s.xr a) (s.xr b))).retire len 1
    | .imm k rd a i => (s.setXr rd (rvImm k (s.xr a) i)).retire len 1
    | .shift k rd a sh => (s.setXr rd (rvShift k (s.xr a) sh.toNat)).retire len 1
    | .unary k rd a => (s.setXr rd (rvUnary k (s.xr a))).retire len 1
    | .lui rd i => (s.setXr rd ((i ++ 0#12).signExtend 64)).retire len 1
    | .auipc rd i => (s.setXr rd (s.pc + (i ++ 0#12).signExtend 64)).retire len 1
    | .jal rd off => s.jump rd len (s.pc + off.signExtend 64)
    | .jalr rd a off => s.jump rd len ((s.xr a + off.signExtend 64) &&& 0xFFFFFFFFFFFFFFFE)
    | .branch k a b off =>
      if rvTaken k (s.xr a) (s.xr b) then s.jump 0 len (s.pc + off.signExtend 64) else s.retire len 1)

/-! ## Loads and stores of the core-local space (R18 to R23) -/

/-- The size in bytes of a RISC-V width code, and the extended value. -/
def accSize (f3 : BitVec 3) : Nat := 2 ^ (f3.toNat % 4)
def extend (f3 : BitVec 3) (v : Nat) : Word :=
  let b := 8 * accSize f3
  if f3.toNat < 4 then wOfInt (sextN v b) else wOf v

/-- The 32 bytes of a spool descriptor's view; 0 for an unconfigured spool (R30, R300). -/
def Spool.viewNat (p : Spool) : Nat :=
  if p.cfg then p.lowWord.toNat + p.highWord.toNat * 2 ^ 64 + p.tok.toNat * 2 ^ 192 else 0

/-- What a byte of the register views holds (R18). -/
def Ctx.viewByte (c : Ctx) (a : Nat) : Option Nat :=
  if 0x100000 ≤ a ∧ a < 0x100200 then
    let n := (a - 0x100000) / 2
    some (if n = 0 then 0 else (c.semOf n).toNat / 2 ^ (8 * (a % 2)) % 256)
  else if 0x101000 ≤ a ∧ a < 0x101800 then some ((tget 0 c.tag ((a - 0x101000) / 8)).toNat / 2 ^ (8 * (a % 8)) % 256)
  else if 0x102000 ≤ a ∧ a < 0x102200 then some ((c.spool ((a - 0x102000) / 32)).viewNat / 2 ^ (8 * (a % 32)) % 256)
  else none

/-- The poison key of the entry that a view's byte shows. -/
def viewPois (a : Nat) : Nat × Nat :=
  if a < 0x101000 then poisSem ((a - 0x100000) / 2)
  else if a < 0x102000 then poisTag ((a - 0x101000) / 8)
  else poisSpool ((a - 0x102000) / 32)

/-- The number that k bytes of a view hold. -/
def Ctx.viewNum (c : Ctx) (a : Nat) : Nat → Nat
  | 0 => 0
  | k + 1 => (c.viewByte a).getD 0 + 256 * c.viewNum (a + 1) k

/-- A core-local read of k aligned bytes: the value, or the cause and value of the trap (R18, R20, R172,
R244, R394). -/
def State.localLoad (s : State) (n a k : Nat) : (Nat × Word) ⊕ Nat :=
  let c := s.fg n
  if a % k ≠ 0 then .inl (0x0F, wOf a)
  else if a < 0x80000 then
    match s.leasedAt n a k with
    | some b => .inl (0x02, wOf b)
    | none => if s.spadPoison n a k then .inl (0x0A, wOf a) else .inr (s.spadNum n a k)
  else if (c.viewByte a).isSome then
    if (List.range k).any (fun j => c.regs.pois.contains (viewPois (a + j))) then .inl (0x0A, wOf (2 ^ 63 + 4))
    else .inr (c.viewNum a k)
  else .inl (0x10, wOf a)

/-- An effective address of a scalar access: an unbounded integer (R215).  One below 0 stands as the number 2⁶⁵ above it,
which no target of R18 reaches either, with its low 64 bits and its alignment. -/
def scalarEa (x : Word) (off : BitVec 12) : Nat :=
  let e : Int := (x.toNat : Int) + off.toInt
  if e < 0 then (e + 2 ^ 65).toNat else e.toNat

/-- `SCALAR_LOAD`: the value is there after 3 cycles (R22). -/
def execScalarLoad (f : LoadF) (s : State) : Out :=
  .next (s.onCore (wOf (encLoad f).toNat) (fun n =>
    match s.localLoad n (scalarEa (s.xr f.rs1) f.off) (accSize f.f3) with
    | .inl (cause, v) => s.trapHere cause v
    | .inr v => (s.setXr f.rd (extend f.f3 v)).retire (RvLen f.enc) 3))

/-- `SCALAR_STORE`. -/
def execScalarStore (f : StoreF) (s : State) : Out :=
  .next (s.onCore (wOf (encStore f).toNat) (fun n =>
    let a := scalarEa (s.xr f.rs1) f.off
    let k := accSize f.f3
    if a % k ≠ 0 then s.trapHere 0x0F (wOf a)
    else if a < 0x80000 then
      (s.spadWrite n a (leBytes k (s.xr f.rs2).toNat)).retire (RvLen f.enc) 1
    else if ((s.fg n).viewByte a).isSome then s.trapHere 0x09 (wOf a)
    else s.trapHere 0x10 (wOf a)))

/-! ## FENCE, FENCE.I, ECALL, EBREAK (R106 to R109) -/

/-- `FENCE`: scalar accesses are already performed in order, so only its cycle is visible. -/
def execFence (_ : FenceF) (s : State) : Out := .next (s.retire 4 1)

/-- `FENCE.I` drops the core's instruction cache (R107). -/
def execFenceI (f : FenceF) (s : State) : Out :=
  .next (s.onCore (wOf (encFence f 1).toNat) (fun n => (s.setCore n { s.core n with icache := [] }).retire 4 16))

/-- `ECALL` (R108, R339).  An offset that is neither aligned nor in range is misaligned (notes/assumptions/54.md). -/
def execEcall (s : State) : Out :=
  .next (s.onCore 0x73 (fun n =>
    let c := s.fg n
    let a := (s.xr 11).toNat
    if a % 64 ≠ 0 then s.trapHere 0x0F (wOf a)
    else if a / 2 ^ 19 ≠ 0 then s.trapHere 0x10 (wOf a)
    else
      match s.leasedAt n a 64 with
      | some b => s.trapHere 0x02 (wOf b)
      | none =>
        if s.spadPoison n a 64 then s.trapHere 0x0A (wOf a)
        else if (s.core n).ecall.isSome then (s.setXr 10 4).retire 4 2
        else
          let m := ctrlMsg (s.xr 10) (wOf (c.ident.taskid.toNat * 2 ^ 32 + n / 256 * 2 ^ 8 + n % 256))
            (s.jobid c.ident.job) 1 (s.spadRead n a 64)
          if portUsed (s.port 1) + msgSpace m ≤ 131072 then
            let s1 := s.setPort 1 (s.port 1 ++ [m])
            let s2 := s1.setCore n { s1.core n with ecall := some ((s.xr 12).setWidth 8, wOf a) }
            (s2.setXr 10 0).retire 4 2
          else (s.setXr 10 4).retire 4 2))

/-- A breakpoint of a given length (R109): a resume continues past it. -/
def State.breakAt (s : State) (len : Nat) : State :=
  let s1 := s.trapHere 0x0C s.pc
  match s.cur with
  | .core n => s1.modFg n (fun c => { c with bpkLen := len })
  | .thread _ => s1

/-- `EBREAK` raises breakpoint (R109). -/
def execEbreak (s : State) : Out := .next (s.breakAt 4)
def execCEbreak (s : State) : Out := .next (s.breakAt 2)

/-! ## Control and status registers (R42 to R45, R332) -/

/-- The identity and clock CSRs and the others of a core, read (R42). -/
def State.csrRead (s : State) (n : Nat) (k : Nat) : Option Word :=
  let c := s.fg n
  if k = 0x800 then some c.csr.vfmode
  else if k = 0x801 then some c.csr.vflags
  else if k = 0x802 then some c.csr.tvec
  else if k = 0x803 then some c.csr.tcause
  else if k = 0x804 then some c.csr.tepc
  else if k = 0x805 then some c.csr.tval
  else if k = 0x806 then some c.csr.dlesc
  else if k = 0x807 then some c.csr.sdl
  else if k = 0x808 then some c.csr.srseed
  else if 0x810 ≤ k ∧ k ≤ 0x817 then some (tget 0 c.regs.tcfg (k - 0x810))
  else if 0x820 ≤ k ∧ k ≤ 0x82F then some (tget 0 c.csr.bfmt (k - 0x820))
  else if k = 0xCC0 then some s.ccyc
  else if k = 0xCC1 then some (s.jtime c.ident.job)
  else if k = 0xCC2 then some (wOf (s.dcyc c))
  else if k = 0xCC3 then some (wOf (n % 256))
  else if k = 0xCC4 then some (wOf (n % 256 / 4))
  else if k = 0xCC5 then some (wOf (n / 256))
  else if k = 0xCC6 then some (wOf (n / 512))
  else if k = 0xCC7 then some (wOf s.pkgid)
  else if k = 0xCC8 then some (wOf s.podid.toNat)
  else if k = 0xCC9 then some (wOf c.ident.taskid.toNat)
  else if k = 0xCCA then some (wOf (s.jobid c.ident.job))
  else if k = 0xCCB then some (wOf (s.asidOf c.ident.job))
  else if k = 0xCCC then some c.csr.sbud
  else if 0xCD0 ≤ k ∧ k ≤ 0xCD3 then some (tget 0 c.csr.edl (k - 0xCD0))
  else none

/-- A write of `vfmode`: a reserved `rm` keeps the old one (R42). -/
def vfmodeNew (old v : Word) : Word :=
  let rm := if wfld v 2 0 ≤ 4 then wfld v 2 0 else wfld old 2 0
  wOf (rm + boolNat (v.getLsbD 3) * 8)

/-- Writes a CSR of a core that is not a bank format (R42). -/
def Ctx.csrWrite (c : Ctx) (k : Nat) (v : Word) : Option Ctx :=
  let c := { c with regs := c.regs.clean (poisCsr k) }
  if k = 0x800 then some { c with csr := { c.csr with vfmode := vfmodeNew c.csr.vfmode v } }
  else if k = 0x801 then some { c with csr := { c.csr with vflags := wOf (v.toNat % 64) } }
  else if k = 0x802 then some { c with csr := { c.csr with tvec := v } }
  else if k = 0x803 then some { c with csr := { c.csr with tcause := wOf (v.toNat % 2 ^ 16) } }
  else if k = 0x804 then some { c with csr := { c.csr with tepc := v } }
  else if k = 0x805 then some { c with csr := { c.csr with tval := v } }
  else if k = 0x806 then some { c with csr := { c.csr with
    dlesc := wOf (wfld c.csr.dlesc 15 8 * 256 + wfld v 7 0) } }
  else if k = 0x807 then some { c with csr := { c.csr with sdl := wOf (v.toNat % 2 ^ 40) } }
  else if k = 0x808 then some { c with csr := { c.csr with srseed := v } }
  else none

/-- The value a CSR instruction writes (R42): by its operation, the old value, and rs1 or the immediate. -/
def csrNew (f : CsrF) (old x : Word) : Word :=
  match f.f3.toNat % 4 with
  | 1 => x
  | 2 => old ||| x
  | _ => old &&& ~~~x

/-- The operand of a CSR instruction. -/
def State.csrArg (s : State) (f : CsrF) : Word := if f.f3.toNat < 4 then s.xr f.rs1 else wOf f.rs1.toNat

/-- The CSRs of a Hamper thread (R332). -/
def State.thrRead (s : State) (h : Nat) (k : Nat) : Option Word :=
  let t := s.thread h
  if k = 0x840 then some t.hjob
  else if k = 0x841 then some t.hvec
  else if k = 0x842 then some t.hcause
  else if k = 0x843 then some t.hepc
  else if k = 0x844 then some t.hval
  else if k = 0xCC0 then some s.ccyc
  else if k = 0xCC1 then some (if t.hjob = 0 then 0 else s.jtime t.hjob.toNat)
  else if k = 0xCE0 then some (wOf h)
  else none

def Thread.csrWrite (t : Thread) (k : Nat) (v : Word) : Option Thread :=
  if k = 0x840 then some { t with hjob := wOf (v.toNat % 2 ^ 12) }
  else if k = 0x841 then some { t with hvec := v }
  else if k = 0x842 then some { t with hcause := wOf (v.toNat % 256) }
  else if k = 0x843 then some { t with hepc := v }
  else if k = 0x844 then some { t with hval := v }
  else none

/-- `CSR_ACCESS` (R42, R332). -/
def execCsrAccess (f : CsrF) (s : State) : Out :=
  let k := f.csr.toNat
  let bad := s.trapHere 0x01 (wOf (encCsr f).toNat)
  let x := s.csrArg f
  .next (match s.cur with
    | .core n =>
      match s.csrRead n k with
      | none => bad
      | some old =>
        let reads := !(decide (f.f3.toNat % 4 = 1) && decide (f.rd = 0))
        if reads && (s.fg n).regs.pois.contains (poisCsr k) then s.trapHere 0x0A (wOf (2 ^ 63 + 2))
        else if f.writes then
          match (s.fg n).csrWrite k (csrNew f old x) with
          | some c => ((s.setFg n c).setXr f.rd old).retire 4 1
          | none => bad
        else (s.setXr f.rd old).retire 4 1
    | .thread h =>
      match s.thrRead h k with
      | none => bad
      | some old =>
        if f.writes then
          match (s.thread h).csrWrite k (csrNew f old x) with
          | some t => ((s.setThread h t).setXr f.rd old).retire 4 1
          | none => bad
        else (s.setXr f.rd old).retire 4 1)

/-! ## Bank formats (R45, R218, R219) -/

/-- The size of a bank's separate scale region by element type (R219). -/
def scaleSize (ty : BitVec 5) : Nat :=
  if ty = 5 ∨ ty = 6 then 5460 else if tyWidth ty = 4 then 8192 else 4096

/-- What a write leaves in `bfmtN` (R218, R219): reserved fields read 0, and a refused value changes
nothing. -/
def bfmtNew (bank : Nat) (old v : Word) : Word :=
  let ty : BitVec 5 := BitVec.ofNat 5 v.toNat
  let mx := wfld v 11 10
  let sro := wfld v 31 19
  let ok : Bool := tyW ty && decide (mx ≠ 3) && (decide (mx = 0) || tyMX ty) &&
    (decide (mx ≠ 2) ||
      (decide (sro * 64 / 32768 = (sro * 64 + scaleSize ty - 1) / 32768) && decide (sro * 64 / 32768 ≠ bank)))
  if ok then wOf (ty.toNat + mx * 2 ^ 10 + wfld v 15 12 * 2 ^ 12 + sro * 2 ^ 19) else old

/-- The write takes effect: the format, rd, and the PC past the CSR instruction. -/
def State.bfmtLand (s : State) (n : Nat) (b : BfmtPend) : State :=
  (s.modFg n (fun c =>
    let old := tget 0 c.csr.bfmt b.bank
    let c := { c with
      csr := { c.csr with bfmt := tset 0 c.csr.bfmt b.bank (bfmtNew b.bank old b.val) }
      bfmtPend := none
      regs := c.regs.clean (poisCsr (0x820 + b.bank)) }
    { c.setX b.rd old with pc := c.pc + 4 })).tick 1

end Sys2Proof.Machine
end

