-- ==== Sys2Proof/Machine/MemSys.lean ====
section
/-! DEFINITION. The memory system behind the cores: the regions of an address space, access tables,
translation, instruction fetch, the write lane, page migration, and the instructions that act on them
(R17, R78, R215, R216, R224, R225, R232 to R245, R399). -/

namespace Sys2Proof.Machine

/-! ## Regions (R215, R216) -/

inductive Zone where
  | loc | unassigned | cluster (core off : Nat) | window (w off : Nat) | paged
  deriving DecidableEq, Repr

/-- The region that an effective address lies in (R215): an unbounded integer. -/
def zoneOf (a : Int) : Zone :=
  if a < 0 ∨ (2 : Int) ^ 48 ≤ a then .unassigned
  else
    let n := a.toNat
    if n < 0x200000 then .loc
    else if n < 0x8000000 then .unassigned
    else if n < 0x10000000 then .cluster ((n - 0x8000000) / 2 ^ 19) (n % 2 ^ 19)
    else if n < 0x12000000 then .window ((n - 0x10000000) / 2 ^ 19) (n % 2 ^ 19)
    else if n < 0x40000000 then .unassigned
    else .paged

/-- A core's number in its package: cluster × 256 + `coreid`. -/
def coreNum (cl k : Nat) : Nat := cl * 256 + k % 256

/-- The target of an aperture address of core n: package and core, the refusal of R225 and R428, or a window whose
entry is poisoned (R394). -/
inductive Aper where
  | own (off : Nat)
  | near (core off : Nat)
  | far (pkg core off win : Nat)
  | denied
  | poisoned
  deriving DecidableEq, Repr

/-- The packages of a job in this pod, this one included. -/
def State.ofJob (s : State) (slot pkg : Nat) : Bool :=
  decide (pkg = s.pkgid) || (s.job slot).pkgs.contains (s.podid.toNat, pkg)

/-- Resolves a region for core n (R216, R224, R225): `wr` is the direction. -/
def State.aper (s : State) (n : Nat) (r : Zone) (wr : Bool) : Option Aper :=
  match r with
  | .cluster k off =>
    if k = n % 256 then some (.own off)
    else if (s.core (coreNum (n / 256) k)).retired then some .denied
    else some (.near (coreNum (n / 256) k) off)
  | .window w off =>
    let e := tget 0 (s.fg n).win w
    let pkg := wfld e 47 37
    if (s.fg n).regs.pois.contains (poisWin w) then some .poisoned
    else if e.getLsbD 63 = false ∨ (if wr then e.getLsbD 62 else e.getLsbD 61) = false ∨ 1056 < pkg ∨
        s.ofJob (s.fg n).ident.job pkg = false ∨ s.routed pkg = false then some .denied
    else
      let t := coreNum (wfld e 36 33) (wfld e 32 25)
      if pkg = s.pkgid ∧ t = n then some (.own off) else some (.far pkg t off w)
  | _ => none

/-! ## Access tables (R240, R399) -/

def midCore (n : Nat) : Nat := n % 4096
def midCe (n : Nat) (ce1 : Bool) : Nat := 2 ^ 13 + boolNat ce1 * 2 ^ 12 + n % 4096
def midThread (h : Nat) : Nat := 2 * 2 ^ 13 + h % 512
def midHost (f : Nat) : Nat := 5 * 2 ^ 13 + f % 256
def midPkg (p : Nat) : Nat := 6 * 2 ^ 13 + p % 2048

inductive Perm where
  | r | w | at
  deriving DecidableEq, Repr

/-- The bit of an access table entry that permits an access. -/
def permBit : Perm → Nat
  | .r => 48
  | .w => 49
  | .at => 50

/-- Where entry e of a target's table stands. -/
def matKey (kind unit e : Nat) : Nat := (kind * 16 + unit) * 64 + e

/-- The lowest matching valid entry among those numbered e and up decides. -/
def matGo (t : Tbl Word) (kind unit m : Nat) (p : Perm) : Nat → Nat → Bool
  | 0, _ => false
  | k + 1, e =>
    let w := tget 0 t (matKey kind unit e)
    if w.getLsbD 63 && decide ((m ^^^ wfld w 15 0) &&& wfld w 47 32 = 0) then w.getLsbD (permBit p)
    else matGo t kind unit m p k (e + 1)

def State.allows (s : State) (kind unit m : Nat) (p : Perm) : Bool := matGo s.mat kind unit m p 64 0

/-- The target that holds a local physical address: its kind and unit (R240). -/
def targetOf (a : Nat) : Nat × Nat :=
  match memKind a with
  | .hbm => (0, a / 2 ^ 36)
  | .cxl => (2, (a - cxlBase) / 2 ^ 39)
  | .spad => (1, (a - 2 ^ 60) / 2 ^ 27)
  | _ => (3, 0)

/-- The CXL port's own refusals (R471): none, denied, or the link is down. -/
def State.cxlFault (s : State) (a k : Nat) : Option Nat :=
  if memKind a = .cxl then
    let p := (a - cxlBase) / 2 ^ 39
    if tget 0 s.mgmt.cxlCap p < (a - cxlBase) % 2 ^ 39 + k then some 0x09
    else if tget false s.mgmt.cxlDown p then some 0x12
    else none
  else none

/-- The event of an access to a port whose link is down (R471). -/
def State.cxlEvent (s : State) (a cause : Nat) : State :=
  if cause = 0x12 then s.event 0x22 (wOf (40 + (a - cxlBase) / 2 ^ 39)) 0 [] else s

/-- The hardware regions of Hamper memory, which only a Hamper thread may write (R331): the job table, the
tail-pointer filter, the port buffers and the unexpected buffer. -/
def hwRegion (a : Nat) : Bool :=
  decide (memKind a = .hamper) && decide (a - hamperBase < 0x42000 ∨ 0x2800000 ≤ a - hamperBase)

/-- A target decides an access to local memory: none where it performs it, else the cause. -/
def State.refuses (s : State) (m a k : Nat) (p : Perm) : Option Nat :=
  if hwRegion a && decide (p ≠ .r) && decide (m / 2 ^ 13 ≠ 2) then some 0x09
  else if s.allows (targetOf a).1 (targetOf a).2 m p then s.cxlFault a k else some 0x09

/-- A read of k bytes of local memory at its target: the reply. -/
def State.answer (s : State) (m a k : Nat) : ReadAns :=
  match s.refuses m a k .r with
  | some c => .refused (BitVec.ofNat 8 c)
  | none =>
    match firstPoison s.poison a k with
    | some g => .poison (wOf (granuleBase g / 32))
    | none => .data (s.bytes a k)

/-! ## Stores at a memory (R244, R245) -/

/-- Whether a list of cells covers a granule whole. -/
def coversAll (cells : List (Nat × Byte)) (g sz : Nat) : Bool :=
  (List.range sz).all (fun j => cells.any (fun c => decide (c.1 = g + j)))

/-- Whether the granule of an address is only partly covered and reads as an uncorrectable error. -/
def State.suppressed (s : State) (cells : List (Nat × Byte)) (fresh : Nat → Bool) (a : Nat) : Bool :=
  let g := granuleBase a
  !coversAll cells g (granule a) && (poisonedByte s.poison a || fresh g)

/-- The cells that are written in all their bits. -/
def wholeCells (cells part : List (Nat × Byte)) : List (Nat × Byte) :=
  cells.filter (fun c => !part.any (fun x => decide (x.1 = c.1)))

/-- A cell as memory will hold it: of a byte in `part` only the given bits are written. -/
def mergeCell (m : List Host.Cell) (part : List (Nat × Byte)) (c : Nat × Byte) : Nat × Byte :=
  match part.find? (fun x => decide (x.1 = c.1)) with
  | some x => (c.1, (memByte m c.1 &&& ~~~x.2) ||| (c.2 &&& x.2))
  | none => c

/-- A store performed granule by granule (R245): a suppressed granule keeps its bytes and is poisoned, a
whole one is written and cleared.  Answers the first suppressed granule. -/
def State.storeBits (s : State) (cells part : List (Nat × Byte)) (fresh : Nat → Bool) : State × Option Nat :=
  let whole := wholeCells cells part
  let bad := cells.filter (fun c => s.suppressed whole fresh c.1)
  let good := cells.filter (fun c => !s.suppressed whole fresh c.1)
  let p := good.foldl (fun p c =>
    if coversAll whole (granuleBase c.1) (granule c.1) then tset false p (granuleBase c.1 / 32) false else p) s.poison
  let p := bad.foldl (fun p c => poisonGranule p c.1) p
  ({ s with mem := memWriteCells s.mem (good.map (mergeCell s.mem part)), poison := p }, bad.head?.map (fun c => granuleBase c.1))

/-- A store that writes whole bytes. -/
def State.storeCells (s : State) (cells : List (Nat × Byte)) (fresh : Nat → Bool) : State × Option Nat :=
  s.storeBits cells [] fresh

/-- Marks the granules of the poisoned bytes. -/
def State.mark (s : State) (as : List Nat) : State := { s with poison := as.foldl poisonGranule s.poison }

/-- A write of cells at a memory other than HBM: contents, and the poison of whole granules clears. -/
def State.writeCells (s : State) (cells : List (Nat × Byte)) : State :=
  let p := cells.foldl (fun p c =>
    if coversAll cells (granuleBase c.1) (granule c.1) then tset false p (granuleBase c.1 / 32) false else p) s.poison
  { s with mem := memWriteCells s.mem cells, poison := p }

/-- The bytes of a list placed from an address upward. -/
def cellsAt (a : Nat) : List Byte → List (Nat × Byte)
  | [] => []
  | b :: r => (a, b) :: cellsAt (a + 1) r

/-! ## Translation (R237, R238) -/

inductive Walked where
  | page (t : Tlb)
  | fault
  | poisoned (pa : Nat)
  deriving DecidableEq, Repr

def pteRsv (e : Word) : Bool := decide (wfld e 63 56 ≠ 0) || decide (wfld e 13 7 ≠ 0)
def ptePa (e : Word) : Nat := wfld e 55 14 * 2 ^ 14

/-- A walk through the levels that remain, from the table at physical address tb (R237).  A level is the
lowest bit of its index, its width, and whether a leaf may stand there. -/
def walkGo (s : State) (asid va : Nat) : List (Nat × Nat × Bool) → Nat → Walked
  | [], _ => .fault
  | (sh, wd, leafOk) :: r, tb =>
    let a := tb % 2 ^ 45 + 8 * (va / 2 ^ sh % 2 ^ wd)
    if tb / 2 ^ 45 ≠ s.pkgid ∨ 2 ^ 40 ≤ tb % 2 ^ 45 then .fault
    else if (firstPoison s.poison a 8).isSome then .poisoned (tb / 2 ^ 45 * 2 ^ 45 + a)
    else
      let e := wOf (s.num a 8)
      if e.getLsbD 0 = false ∨ pteRsv e = true then .fault
      else if e.getLsbD 1 then
        if leafOk = false ∨ ptePa e % 2 ^ sh ≠ 0 then .fault
        else .page { asid := asid, va := va / 2 ^ sh * 2 ^ sh, size := 2 ^ sh, pte := e }
      else walkGo s asid va r (ptePa e)

def levels : List (Nat × Nat × Bool) := [(39, 9, false), (30, 9, true), (21, 9, true), (14, 7, true)]

def State.ptroot (s : State) (slot : Nat) : Nat := s.jt slot 24 8
def State.htab (s : State) (slot : Nat) : Nat := s.jt slot 32 8

/-- The walk for an address of a job. -/
def State.walk (s : State) (slot va : Nat) : Walked := walkGo s (s.asidOf slot) va levels (s.ptroot slot)

def Tlb.hits (t : Tlb) (asid va : Nat) : Bool := decide (t.asid = asid ∧ t.va ≤ va ∧ va < t.va + t.size)

/-- A cached translation: the core's micro-TLB, then its cluster's TLB (R238). -/
def State.cached (s : State) (n asid va : Nat) : Option Tlb :=
  match (s.core n).utlb.find? (fun t => t.hits asid va) with
  | some t => some t
  | none => (tget [] s.ctlb (n / 256)).find? (fun t => t.hits asid va)

/-- Keeps a translation in both, the oldest making room (notes/assumptions/19.md). -/
def State.keepTlb (s : State) (n : Nat) (t : Tlb) : State :=
  let k := s.core n
  let u := if k.utlb.contains t then k.utlb else (t :: k.utlb).take 64
  let c := tget [] s.ctlb (n / 256)
  let c' := if c.contains t then c else (t :: c).take 8192
  { s.setCore n { k with utlb := u } with ctlb := tset [] s.ctlb (n / 256) c' }

/-- The bits of a page-table entry that an access needs. -/
def needR : Nat := 4
def needW : Nat := 8
def needX : Nat := 16
def needAt : Nat := 32

inductive Trans where
  | ok (pa : Nat) (t : Tlb)
  | fault
  | poisoned (pa : Nat)
  deriving DecidableEq, Repr

/-- What a leaf gives for an address: the permission check, and the physical address, which must name a
memory of R237. -/
def useTlb (t : Tlb) (va need : Nat) : Trans :=
  let pa := ptePa t.pte + (va - t.va)
  if t.pte.toNat &&& need = need ∧ memKind (pa % 2 ^ 45) ≠ .none then .ok pa t else .fault

/-- The translation of a paged address for core n, with the state in which it is cached. -/
def State.translate (s : State) (n slot va need : Nat) : Trans × State :=
  match s.cached n (s.asidOf slot) va with
  | some t => (useTlb t va need, s.keepTlb n t)
  | none =>
    match s.walk slot va with
    | .page t => (useTlb t va need, s.keepTlb n t)
    | .fault => (.fault, s)
    | .poisoned a => (.poisoned a, s)

/-- The translation of a paged address by a unit of the Hamper, which caches nothing. -/
def State.translateH (s : State) (slot va need : Nat) : Trans :=
  match s.walk slot va with
  | .page t => useTlb t va need
  | .fault => .fault
  | .poisoned a => .poisoned a

/-! ## Instruction fetch (R17, R78) -/

inductive Fetch where
  | ok (bs : List Byte) (s : State)
  | trap (cause : Nat) (val : Word) (s : State)

/-- The byte that the instruction cache holds of an address of the pod's memories. -/
def Core.icByte (k : Core) (pa : Nat) : Option Byte := (k.icache.find? (fun c => decide (c.1 = pa))).map (fun c => c.2)

/-- Keeps a byte in the cache of 64 KiB; the one kept longest makes room (notes/assumptions/20.md). -/
def Core.keepByte (k : Core) (pa : Nat) (b : Byte) : Core := { k with icache := ((pa, b) :: k.icache).take 65536 }

/-- Fetches one byte: its page is translated and must be executable, whether or not the instruction cache holds the
byte.  A byte of another package's memory is a free value (notes/assumptions/8.md). -/
def State.fetchByte (s : State) (n : Nat) (va : Word) : Fetch :=
  if zoneOf va.toNat ≠ .paged then .trap 0x08 va s
  else
    match s.translate n (s.fg n).ident.job va.toNat needX with
    | (.fault, s) => .trap 0x08 va s
    | (.poisoned a, s) => .trap 0x0A (wOf a) s
    | (.ok pa _, s) =>
      match (s.core n).icByte pa with
      | some b => .ok [b] s
      | none =>
        let keep (b : Byte) (s : State) : Fetch := .ok [b] (s.setCore n ((s.core n).keepByte pa b))
        if s.routed (pa / 2 ^ 45) = false then .trap 0x09 va s
        else if pa / 2 ^ 45 ≠ s.pkgid then keep (Config.freeByte s.free) { s with free := s.free + 1 }
        else
          match s.answer (midCore n) (pa % 2 ^ 45) 1 with
          | .data bs => keep (bs.headD 0) s
          | .poison _ => .trap 0x0A va s
          | .refused c => .trap c.toNat va (s.cxlEvent (pa % 2 ^ 45) c.toNat)
          | .stale => .trap 0x08 va s

/-- Fetches k bytes from an address upward. -/
def State.fetchN (s : State) (n : Nat) (va : Word) : Nat → Fetch
  | 0 => .ok [] s
  | k + 1 =>
    match s.fetchByte n va with
    | .trap c v s => .trap c v s
    | .ok b s =>
      match State.fetchN s n (va + 1) k with
      | .trap c v s => .trap c v s
      | .ok r s => .ok (b ++ r) s

/-- The number of bytes fetched for an instruction: by its first halfword, and for a copy packet by its
class; a marker of 80 bits or more fetches 8 (R78) (notes/assumptions/58.md). -/
def fetchLen (bs : List Byte) : Nat :=
  let k := lenOf (leTake bs 2)
  if k = 10 then 8
  else if k = 8 ∧ bs.length = 8 ∧ leTake bs 8 / 128 % 8 = 3 then 64
  else k

/-- The whole instruction at an address: halfword, word, packet. -/
def State.fetchAt (s : State) (n : Nat) (va : Word) : Fetch :=
  match s.fetchN n va 2 with
  | .trap c v s => .trap c v s
  | .ok h s =>
    match s.fetchN n (va + 2) (fetchLen h - 2) with
    | .trap c v s => .trap c v s
    | .ok r s =>
      let bs := h ++ r
      match s.fetchN n (va + 8) (fetchLen bs - bs.length) with
      | .trap c v s => .trap c v s
      | .ok q s => .ok (bs ++ q) s

/-- `INSTRUCTION_FETCH`: the sequencer of the moving core fetches the instruction at its PC, or traps at it. -/
def execInstructionFetch (s : State) : Out :=
  .next (match s.cur with
    | .core n =>
      match s.fetchAt n (s.fg n).pc with
      | .ok _ s => s
      | .trap c v s => (s.takeTrap n c 0 (s.fg n).pc v).tick 1
    | .thread _ => s)

/-! ## TLBINV (R239) -/

/-- The clusters of the issuer's group at a scope, within the package. -/
def groupOf (cl sc : Nat) : List Nat :=
  if sc = 3 then [cl] else if sc = 4 then [cl / 2 * 2, cl / 2 * 2 + 1] else List.range 16

/-- The destinations that the package has a route to. -/
def State.podPkgs (s : State) : List Nat := (s.fab.route.map (fun r => r.1)).filter (fun p => decide (p ≠ s.pkgid))

/-- Drops the matching translations of a group of clusters. -/
def State.dropTlb (s : State) (cls : List Nat) (f : Tlb → Bool) : State :=
  { s.mapCores (fun n k => if cls.contains (n / 256) then { k with utlb := k.utlb.filter (fun t => !f t) } else k) with
    ctlb := (s.ctlb.map (fun c => if cls.contains c.1 then (c.1, c.2.filter (fun t => !f t)) else c)).filter
      (fun c => decide (c.2 ≠ [])) }

/-- Which translations a kind drops. -/
def tlbMatch (kind : Nat) (va asid : Nat) (t : Tlb) : Bool :=
  match kind with
  | 0 => t.hits asid va
  | 1 => decide (t.asid = asid)
  | _ => true

/-- The control payload of an invalidation sent to the other packages of the pod. -/
def tlbPayload (kind va asid : Nat) : List Byte := [2] ++ leBytes 1 kind ++ leBytes 8 va ++ leBytes 8 asid

def tlbAckPayload (kind va asid : Nat) : List Byte := [22] ++ leBytes 1 kind ++ leBytes 8 va ++ leBytes 8 asid

/-- Whether an access that a core issued before a cycle is still under way, by a translation of some kind: a store, an
access of another package, a vector read, a `DLD`. -/
def Core.usesTlb (k : Core) (f : Tlb → Bool) (since : Nat) : Bool :=
  k.sq.any (fun e => e.tlb.any f && decide (e.t0 < since)) || k.farw.any (fun e => e.tlb.any f && decide (e.t0 < since)) ||
    k.fg.vreads.any (fun v => v.tlb.any f && v.ans.isNone && decide (v.since < since)) ||
    k.fg.wait.any (fun w => w.tlb.any f && w.ans.isNone && decide (w.since < since))

/-- Every TLB of a group of clusters has acknowledged: no access that was issued before the invalidation by a
translation it drops is still under way. -/
def State.tlbQuiet (s : State) (cls : List Nat) (f : Tlb → Bool) (since : Nat) : Bool :=
  s.cores.all (fun c => !cls.contains (c.1 / 256) || !c.2.usesTlb f since)

/-- The group has acknowledged, and where the scope is the pod every other package has (notes/assumptions/53.md). -/
def tlbinvTest (f : FmtD) (kind : Nat) : Test := fun s n w =>
  let sc := f.aux.toNat % 16
  let va := w.a.toNat % 2 ^ 48
  let asid := w.b.toNat % 2 ^ 14
  if s.tlbQuiet (groupOf (n / 256) sc) (tlbMatch kind va asid) w.since &&
      (decide (sc ≠ 6) || !s.tlbWant.any (fun x => decide (x.1 = kind ∧ x.2.1 = va ∧ x.2.2.1 = asid))) then
    some (s.doneD n f w 0 0)
  else none

/-- Sends an invalidation to every other package of the pod, whose acknowledgements are then wanted. -/
def State.tellTlb (s : State) (kind va asid : Nat) : State :=
  s.podPkgs.foldl (fun s p =>
    ({ s with tlbWant := s.tlbWant ++ [(kind, va, asid, p)] }).inject 8 p 0 4 0 0 (tlbPayload kind va asid)) s

/-- Another package's invalidation: the translations are dropped, and an acknowledgement is owed. -/
def State.tlbAsked (s : State) (pkg kind va asid : Nat) : State :=
  let s := s.dropTlb (List.range 16) (tlbMatch kind va asid)
  { s with tlbOwed := s.tlbOwed ++ [{ pkg := pkg, kind := kind, va := va, asid := asid, since := s.now + 1 }] }

/-- Another package's acknowledgement. -/
def State.tlbTaken (s : State) (pkg kind va asid : Nat) : State :=
  { s with tlbWant := s.tlbWant.erase (kind, va, asid, pkg) }

/-- Sends the acknowledgements that are due. -/
def State.tlbAnswer (s : State) : State :=
  let due (r : TlbReq) : Bool := s.tlbQuiet (List.range 16) (tlbMatch r.kind r.va r.asid) r.since
  (s.tlbOwed.filter due).foldl (fun s r => s.inject 8 r.pkg 0 4 0 0 (tlbAckPayload r.kind r.va r.asid))
    { s with tlbOwed := s.tlbOwed.filter (fun r => !due r) }

def State.tlbinv (s : State) (f : FmtD) (i : Instr) (kind : Nat) : State :=
  s.onSup ((encode64 i).getD 0) (fun n =>
    let w := s.waitOf f i
    let sc := f.aux.toNat % 16
    let va := w.a.toNat % 2 ^ 48
    let asid := w.b.toNat % 2 ^ 14
    let s := s.dropTlb (groupOf (n / 256) sc) (tlbMatch kind va asid)
    let s := if sc = 6 then s.tellTlb kind va asid else s
    s.beginWait n w (tlbinvTest f kind) (lateD f))

def execTlbinvPg (f : FmtD) (s : State) : Out := .next (s.tlbinv f (.tlbinvPg f) 0)
def execTlbinvAs (f : FmtD) (s : State) : Out := .next (s.tlbinv f (.tlbinvAs f) 1)
def execTlbinvAll (f : FmtD) (s : State) : Out := .next (s.tlbinv f (.tlbinvAll f) 2)

/-! ## MATSET (R399) -/

/-- How many units a kind of target has. -/
def matUnits (kind : Nat) : Nat := if kind ≤ 1 then 16 else if kind = 2 then 8 else 1

def execMatset (f : FmtQ) (s : State) : Out :=
  .next (s.onSup ((encode64 (.matset f)).getD 0) (fun _ =>
    let a := (s.xr f.a).toNat
    let b := s.xr f.b
    let kind := a % 16
    let unit := fld a 11 8
    let key := matKey kind unit (fld a 21 16)
    if wfld b 62 51 ≠ 0 ∨ wfld b 31 16 ≠ 0 ∨ fld a 7 4 ≠ 0 ∨ fld a 15 12 ≠ 0 ∨ a / 2 ^ 22 ≠ 0 ∨ 5 ≤ kind ∨
        matUnits kind ≤ unit then s.doneQ f ones64 1
    else ({ s with mat := tset 0 s.mat key b }).doneQ f (tget 0 s.mat key) 1))

/-! ## The write lane (R232 to R235) -/

/-- The cycle in which frame k begins (R232). -/
def frameStart (k : Nat) : Nat := (336 * k + 24) / 25

/-- The frame that a cycle lies in: the last that has begun. -/
def frameAt (t : Nat) : Nat := 25 * t / 336

def State.frameNow (s : State) : Nat := frameAt s.now

/-- A core's credit in frame f: at each boundary since frame `cframe` it grew by its budget, up to twice the budget
(R234). -/
def Core.creditAt (k : Core) (f : Nat) : Nat :=
  let b := k.fg.csr.sbud.toNat
  if f ≤ k.cframe then k.credit else min (k.credit + (f - k.cframe) * b) (2 * b)

/-- The core with its credit brought up to frame f. -/
def Core.settleCredit (k : Core) (f : Nat) : Core := { k with credit := k.creditAt f, cframe := max f k.cframe }

/-- The core with credit 0, from frame f on (R234). -/
def Core.noCredit (k : Core) (f : Nat) : Core := { k with credit := 0, cframe := f }

/-- `HBM_FRAME_BOUNDARY`: the next frame has begun, and every core's credit is brought up to it. -/
def execHbmFrameBoundary (s : State) : Out :=
  .next (if s.now < frameStart (s.frame + 1) then s
    else { s.mapCores (fun _ k => k.settleCredit (s.frame + 1)) with frame := s.frame + 1 })

/-- `SBSET` (R236): the budget changes in the cycle that writes xd, 4 cycles on; boundaries before it use the old one. -/
def execSbset (f : FmtQ) (s : State) : Out :=
  .next (s.onSup ((encode64 (.sbset f)).getD 0) (fun n =>
    let v := s.xr f.a
    let b := (s.xr f.b).toNat
    let t := coreNum (n / 256) b
    if b / 2 ^ 8 ≠ 0 ∨ 8192 < v.toNat ∨ v.toNat % 128 ≠ 0 then s.doneQ f ones64 4
    else
      let k := (s.core t).settleCredit (frameAt (s.now + s.span 4 - 1))
      (s.setCore t { k with fg := { k.fg with csr := { k.fg.csr with sbud := v } } }).doneQ f k.fg.csr.sbud 4))

/-- The stack an entry goes to: those of this package are 0 to 15, those of package p are 16 (p + 1) and up. -/
def SqEntry.stack (e : SqEntry) (pkgid : Nat) : Nat :=
  let p := e.addr / 2 ^ 45
  let k := e.addr % 2 ^ 45 / 2 ^ 36 % 16
  if p = pkgid then k else 16 * (p + 1) + k

/-- Leading markers order nothing any more. -/
def dropMarks : List SqEntry → List SqEntry
  | [] => []
  | e :: r => if e.marker then dropMarks r else e :: r

/-- An access of another package's HBM, which holds an entry of the store queue. -/
def FarWr.hbm (w : FarWr) : Bool := decide (w.addr < 2 ^ 40)

/-- The store queue without the markers that order nothing any more: no entry is left before them, and no store of
another package's HBM (R233, R261). -/
def Core.lane (k : Core) : List SqEntry := if k.farw.any FarWr.hbm then k.sq else dropMarks k.sq

/-- Whether the store queue of a core has a free entry (R233): a marker takes none, a store to another package's HBM
does. -/
def Core.room (k : Core) : Bool :=
  decide ((k.sq.filter (fun e => !e.marker)).length + (k.farw.filter FarWr.hbm).length < 64)

/-- The entry of a stack that is next to be performed: none past a marker while entries before it remain. -/
def nextStore (st pkgid : Nat) : List SqEntry → Nat → Option Nat
  | [], _ => none
  | e :: r, i => if e.marker then none else if e.stack pkgid = st then some i else nextStore st pkgid r (i + 1)

/-- The cells of a store at local addresses. -/
def SqEntry.cells (e : SqEntry) : List (Nat × Byte) := e.data.map (fun c => (e.addr % 2 ^ 45 + c.1, c.2))

/-- The bytes of a store of which only some bits are written, at local addresses. -/
def SqEntry.bits (e : SqEntry) : List (Nat × Byte) := e.part.map (fun c => (e.addr % 2 ^ 45 + c.1, c.2))

/-! ### Slots (R232, R371) -/

/-- The key of a domain in a stack's counts. -/
def Dom.key (d : Dom) : Nat := d.job * 256 + d.num

/-- A stack in the present frame. -/
def State.stackAt (s : State) (k : Nat) : Stack :=
  let x := tget {} s.hbm k
  if x.frame = s.frameNow then x else { frame := s.frameNow, last := x.last }

/-- The first of a rising list of initiators after the one served last, in turn. -/
def nextUp (last : Nat) (l : List Nat) : Option Nat :=
  match l.find? (fun n => decide (last < n)) with
  | some n => some n
  | none => l.head?

/-- The domain of the lowest number among some. -/
def lowDom : List Dom → Option Dom
  | [] => none
  | d :: r =>
    match lowDom r with
    | some x => some (if x.num < d.num then x else d)
    | none => some d

/-- Whether a core has credit and an entry that is next for a stack. -/
def Core.wantsSlot (k : Core) (st pkgid f : Nat) : Bool :=
  decide (128 ≤ k.creditAt f) && (nextStore st pkgid k.lane 0).isSome

/-- The stack of a remote write of HBM. -/
def InStore.stack (x : InStore) : Nat := x.addr / 2 ^ 36

/-- The initiator of a remote write in the turns of a stack. -/
def remoteTurn : Nat := 4096

/-- The initiator that a stack's next write slot of this frame goes to: a timed domain's core while slots of the domain
are left, else the next in turn of all cores and the remote writes; none when the frame's 64 slots are taken
(notes/assumptions/59.md). -/
def State.slotTurn (s : State) (st : Nat) : Option Nat :=
  let x := s.stackAt st
  let f := s.frameNow
  let cs := (s.cores.filter (fun c => c.2.wantsSlot st s.pkgid f)).map (fun c => c.1)
  if 64 ≤ x.wr then none
  else
    match lowDom (s.sch.doms.filter (fun d => decide (tget 0 x.domWr d.key < d.wrs) && cs.any d.has)) with
    | some d => (cs.filter d.has).head?
    | none => nextUp x.last (cs ++ (if s.inq.any (fun x => decide (x.stack = st)) then [remoteTurn] else []))

/-- A write slot of a stack is taken by an initiator. -/
def State.takeSlot (s : State) (st n : Nat) : State :=
  let x := s.stackAt st
  let y := match s.sch.doms.find? (fun d => d.has n && decide (tget 0 x.domWr d.key < d.wrs)) with
    | some d => { x with wr := x.wr + 1, domWr := tset 0 x.domWr d.key (tget 0 x.domWr d.key + 1) }
    | none => { x with wr := x.wr + 1, last := n }
  { s with hbm := tset {} s.hbm st y }

/-- The read slots that the timed domains other than a core's own still hold back in this frame. -/
def State.heldReads (s : State) (n : Nat) (x : Stack) : Nat :=
  ((s.sch.doms.filter (fun d => !d.has n)).map (fun d => d.rds - tget 0 x.domRd d.key)).sum

/-- Takes the k read slots that an access of core n needs of a stack; none while the frame has none left for it
(R232, R371). -/
def State.takeReads (s : State) (n st k : Nat) : Option State :=
  let x := s.stackAt st
  if 192 ≤ x.rd + s.heldReads n x then none
  else
    let y := match s.sch.doms.find? (fun d => d.has n) with
      | some d => { x with rd := x.rd + k, domRd := tset 0 x.domRd d.key (tget 0 x.domRd d.key + k) }
      | none => { x with rd := x.rd + k }
    some { s with hbm := tset {} s.hbm st y }

/-! ### What a write slot does -/

/-- The rank of a status among those that apply to one packet: the first of FAULTED, POISON, STALE, REFUSED,
TIMEOUT is reported (R327). -/
def statRank (code : Nat) : Nat :=
  if code = 7 then 5 else if code = 6 then 4 else if code = 8 then 3 else if code = 4 then 2 else if code = 1 then 1 else 0

/-- A status that applies to a packet. -/
def QEntry.note (q : QEntry) (code : Nat) (det : Word) : QEntry :=
  if statRank q.code < statRank code then { q with code := code, det := det } else q

/-- One more of a packet's writes has been performed (R316): the copy engine that issued it counts it, and
collects the flags its atomics raised and the granule whose read failed (R245). -/
def Engine.counted (x : Engine) (ord : Nat) (fl : BitVec 6) (bad : Option Word) : Engine :=
  let g (q : QEntry) : QEntry :=
    if q.started ∧ q.ord = ord then
      let q := { q with outst := q.outst - 1, flg := q.flg ||| fl }
      match bad with
      | some d => q.note 6 d
      | none => q
    else q
  { x with q := x.q.map g, lane := x.lane.map g }

/-- Whether the packet of a store is still in its engine. -/
def Ctx.holds (c : Ctx) (ce1 : Bool) (ord : Nat) : Bool :=
  let g := if ce1 then c.ce1 else c.ce0
  (g.q ++ g.lane).any (fun q => q.started && decide (q.ord = ord))

/-- A write of a packet has been performed: the report of a failed granule goes to the packet while it has not
completed, else to the next fence (R245). -/
def Ctx.wrote (c : Ctx) (ce1 : Bool) (ord : Nat) (fl : BitVec 6) (bad : Option Word) : Ctx :=
  if c.holds ce1 ord then
    if ce1 then { c with ce1 := c.ce1.counted ord fl bad } else { c with ce0 := c.ce0.counted ord fl bad }
  else
    match bad with
    | some x => { c with storeErr := some x }
    | none => c

def State.performed (s : State) (n : Nat) (e : SqEntry) (fl : BitVec 6) (bad : Option Nat) : State :=
  s.modFg n (fun c => c.wrote e.ce1 e.ord fl (bad.map (fun g => wOf ((s.pkgid * 2 ^ 45 + g) / 32))))

/-- The operand of an atomic's packet (R430). -/
def SqEntry.operand (e : SqEntry) : Word := wOf (leNat ((e.data.map (fun c => c.2)).take 8))

/-- Counts an atomic executed on a page by an agent: a die, or 8 for the Hamper (R241). -/
def State.countAtom (s : State) (pa agent : Nat) : State :=
  match s.pages.find? (fun p => decide (p.1 * 2 ^ 14 ≤ pa ∧ pa < p.1 * 2 ^ 14 + p.2.size)) with
  | some p => { s with pages := tset {} s.pages p.1 { p.2 with cnt := tset 0 p.2.cnt agent (tget 0 p.2.cnt agent + 1) } }
  | none => s

/-- Performs a store of this package's memory (R233, R245): a write, or the atomics of its elements with
their results, by core n.  Answers the flags and the first suppressed granule. -/
def State.performStore (s : State) (n : Nat) (e : SqEntry) (fresh : Nat → Bool) : State × BitVec 6 × Option Nat :=
  match e.atom with
  | none =>
    let r := s.storeBits e.cells e.bits fresh
    ({ r.1 with poison := (e.pm.map (fun (j : Nat) => e.addr % 2 ^ 45 + j)).foldl poisonGranule r.1.poison }, 0, r.2)
  | some (op, ty, cmp, res) =>
    let r := s.atomsAt op ty cmp (e.addr % 2 ^ 45) (e.data.map (fun c => c.2)) fresh
    let s := r.st.countAtom (e.addr % 2 ^ 45) (n / 512)
    let s : State := { s with poison := (e.pm.map (fun (j : Nat) => e.addr % 2 ^ 45 + j)).foldl poisonGranule s.poison }
    (match res, r.old with
      | some off, d :: _ => s.spadWrite n off (leBytes (tyWidth (BitVec.ofNat 5 ty) / 8) d)
      | _, _ => s, r.fl, r.bad)

/-- Core n's next entry for a stack is performed. -/
def State.performNext (s : State) (st n : Nat) (fresh : Nat → Bool) : State :=
  let k := s.core n
  match nextStore st s.pkgid k.lane 0 with
  | none => s
  | some i =>
    match k.lane[i]? with
    | none => s
    | some e =>
      let k := k.settleCredit s.frameNow
      let q := dropAt k.lane i
      let k := { k with sq := q, credit := k.credit - 128 }
      let r := (s.setCore n { k with sq := k.lane }).performStore n e fresh
      r.1.performed n e r.2.1 r.2.2

/-! ### Remote writes and atomics of HBM at their target (R233, R245, R278) -/

/-- The bytes that a posted write names, from address a: a mask chooses among the first 64. -/
def pktCells (p : FabPkt) (a : Nat) : List (Nat × Byte) :=
  ((p.payload.zip (List.range p.payload.length)).filter (fun x =>
      (decide (64 ≤ x.2) || p.aux.getLsbD x.2) && !p.part.contains (x.2, 0))).map (fun x => (a + x.2, x.1))

/-- The bytes of a posted write of which only some bits are written. -/
def pktBits (p : FabPkt) (a : Nat) : List (Nat × Byte) := p.part.map (fun c => (a + c.1, c.2))

/-- The poisoned bytes of a packet. -/
def pktPois (p : FabPkt) (a : Nat) : List Nat := p.pois.map (fun (j : Nat) => a + j)

/-- The cells of a list that lie in the aligned 128 bytes of an address. -/
def inPiece (a : Nat) (l : List (Nat × Byte)) : List (Nat × Byte) := l.filter (fun c => decide (c.1 / 128 = a / 128))

/-- Takes the next piece of the oldest remote store of a stack: `r` is what is left of it. -/
def swapIn (st : Nat) (r : Option InStore) : List InStore → List InStore
  | [] => []
  | p :: t => if p.stack = st then (match r with | some x => x :: t | none => t) else p :: swapIn st r t

/-- The answer to a write from another package (R430, R431): its cause, and for an uncorrectable error the granule's
physical address divided by 32. -/
def State.ackWrite (s : State) (p : FabPkt) (cause : Nat) (bad : Option Nat) : State :=
  s.inject 1 p.src.toNat p.mid.toNat p.path.toNat p.addr (wOf cause)
    (match bad with | some g => leBytes 8 ((s.pkgid * 2 ^ 45 + g) / 32) | none => [])

/-- The answer to an atomic from another package: the first old element, the flags, and the granule as above. -/
def State.answerAtom (s : State) (p : FabPkt) (cause : Nat) (old : List Nat) (fl : BitVec 6) (bad : Option Nat) : State :=
  s.inject 5 p.src.toNat p.mid.toNat p.path.toNat p.addr (wOf cause)
    (leBytes 8 (old.headD 0) ++ leBytes 1 fl.toNat ++ (match bad with | some g => leBytes 8 ((s.pkgid * 2 ^ 45 + g) / 32) | none => []))

/-- Carries out the atomics of a packet from key `a` on. -/
def State.runAtom (s : State) (p : FabPkt) (a : Nat) (fresh : Nat → Bool) : Atomic :=
  let b (lo k : Nat) : Nat := leNat ((p.payload.drop lo).take k)
  let r := s.atomsAt (b 0 1) (b 1 1) (b 2 8) a (p.payload.drop 10) fresh
  { r with st := r.st.mark (p.pois.map (fun (j : Nat) => a + (j - 10))) }

/-- Performs the next piece of a remote store: an aligned 128-byte piece of a write, or an atomic, and answers with the
last (R233). -/
def State.performRemote (s : State) (x : InStore) (fresh : Nat → Bool) : State :=
  let st := x.stack
  let a := x.addr + x.pos
  if x.pkt.kind = 4 then
    let r := s.runAtom x.pkt a fresh
    ({ r.st with inq := swapIn st none s.inq }).answerAtom x.pkt (if r.bad.isSome then 0x0A else 0) r.old r.fl r.bad
  else
    let k := 128 - a % 128
    let r := s.storeBits (inPiece a (pktCells x.pkt x.addr)) (inPiece a (pktBits x.pkt x.addr)) fresh
    let s1 := r.1.mark ((pktPois x.pkt x.addr).filter (fun y => decide (y / 128 = a / 128)))
    let bad := match x.bad with | some g => some g | none => r.2
    if x.pkt.payload.length ≤ x.pos + k then
      ({ s1 with inq := swapIn st none s.inq }).ackWrite x.pkt (if bad.isSome then 0x0A else 0) bad
    else { s1 with inq := swapIn st (some { x with pos := x.pos + k, bad := bad }) s.inq }

/-- `STORE_PERFORMED_IN_SLOT` (R232 to R235, R245): the initiator whose turn it is at a stack, a core or the remote
writes, takes a write slot; `bad` marks the granules of the 128 bytes whose read meets a new uncorrectable error. -/
def execStorePerformedInSlot (stack n : Nat) (bad : BitVec 4) (s : State) : Out :=
  let fresh (g : Nat) : Bool := bad.getLsbD (g % 128 / 32)
  .next (
    if s.slotTurn stack ≠ some n then s
    else if n = remoteTurn then
      match s.inq.find? (fun x => decide (x.stack = stack)) with
      | some x => (s.takeSlot stack n).performRemote x fresh
      | none => s
    else (s.takeSlot stack n).performNext stack n fresh)

/-! ## Migration (R241, R242) -/

/-- The nine agents: the eight dies, and the Hamper as 8. -/
def leadingGo (t : Tbl Nat) : Nat → Option Nat
  | 0 => none
  | k + 1 =>
    let c := tget 0 t k
    if (List.range 9).all (fun j => decide (j = k) || decide (tget 0 t j < c)) then some k else leadingGo t k

/-- Where the leaf entry of an address stands, by the walk. -/
def leafAtGo (s : State) (va : Nat) : List (Nat × Nat × Bool) → Nat → Option Nat
  | [], _ => none
  | (sh, wd, _) :: r, tb =>
    let a := tb % 2 ^ 45 + 8 * (va / 2 ^ sh % 2 ^ wd)
    let e := wOf (s.num a 8)
    if e.getLsbD 0 = false then none else if e.getLsbD 1 then some a else leafAtGo s va r (ptePa e)

def State.mthr (s : State) (slot : Nat) : Nat := s.jt slot 40 4

/-- `MIGRATION_CHECK` of the page whose first 16 KiB frame is `page` (R241): once in each 2²⁰ cycles of
`ccyc`; the counts are cleared.  Which free frame is taken is a free value (notes/assumptions/21.md). -/
def execMigrationCheck (page : Nat) (s : State) : Out :=
  .next (
    let p := tget {} s.pages page
    let per := s.ccyc.toNat / 2 ^ 20
    if per ≤ p.per then s
    else
      let s1 : State := { s with pages := tset {} s.pages page { p with cnt := [], per := per } }
      let base := page * 2 ^ 14
      let home := base / 2 ^ 37
      match leadingGo p.cnt 9, leafAtGo s p.va levels (s.ptroot p.job) with
      | some a, some at_ =>
        let c := tget 0 p.cnt a
        let thr := s.mthr p.job
        let pte := wOf (s.num at_ 8)
        if pte.getLsbD 6 = false ∧ a < 8 ∧ a ≠ home ∧ thr ≠ 0 ∧ thr ≤ c ∧ 2 * tget 0 p.cnt home ≤ c ∧
            memKind base = .hbm ∧ ptePa pte = s.pkgid * 2 ^ 45 + base ∧ s.migs.all (fun m => decide (m.old ≠ base)) then
          let f := s1.nextFree
          let new := 2 * a * 2 ^ 36 + f.1.toNat % (2 ^ 37 / p.size) * p.size
          { f.2 with migs := f.2.migs ++ [
              { va := p.va, asid := s.asidOf p.job, pteAt := at_, old := base, new := new, size := p.size }] }
        else s1
      | _, _ => s1)

/-- The bytes of a page move: those listed, and the unlisted ones of the new frame read as unlisted. -/
def moveCells (m : List Host.Cell) (old new size : Nat) : List Host.Cell :=
  let kept := m.filter (fun c => decide (c.1 < new ∨ new + size ≤ c.1))
  memWriteCells kept ((m.filter (fun c => decide (old ≤ c.1 ∧ c.1 < old + size))).map (fun c => (c.1 - old + new, c.2)))

/-- The poison marks of a page move with it. -/
def movePoison (p : Tbl Bool) (old new size : Nat) : Tbl Bool :=
  (p.filter (fun c => decide (old ≤ c.1 * 32 ∧ c.1 * 32 < old + size))).foldl
    (fun t c => tset false t (c.1 + new / 32 - old / 32) true)
    (p.filter (fun c => decide (c.1 * 32 < new ∨ new + size ≤ c.1 * 32)))

/-- The number of entries of a store queue up to the last that has a property. -/
def lastHit (f : SqEntry → Bool) : List SqEntry → Nat
  | [] => 0
  | e :: r => let k := lastHit f r; if 0 < k then k + 1 else if f e then 1 else 0

/-- Performs every store of one core that is queued for a page (R241, step 2), and every store before the last of them,
in the order of the queue. -/
def State.drainPage (s : State) (n old size : Nat) : State :=
  let k := s.core n
  let hit (e : SqEntry) : Bool :=
    !e.marker && decide (e.addr / 2 ^ 45 = s.pkgid ∧ old ≤ e.addr % 2 ^ 45 ∧ e.addr % 2 ^ 45 < old + size)
  let i := lastHit hit k.sq
  ((k.sq.take i).filter (fun e => !e.marker)).foldl (fun s e =>
      let r := s.performStore n e (fun _ => false)
      r.1.performed n e r.2.1 r.2.2)
    (s.setCore n { k with sq := k.sq.drop i })

/-- Performs the remote stores that wait for a stack, down to the last piece of each; `fuel` bounds the pieces. -/
def State.drainIn (s : State) (st : Nat) : Nat → State
  | 0 => s
  | fuel + 1 =>
    match s.inq.find? (fun x => decide (x.stack = st)) with
    | some x => (s.performRemote x (fun _ => false)).drainIn st fuel
    | none => s

/-- The home of a local address: an access that still holds the frame a page has left is forwarded to the page's new
frame (R241, step 4). -/
def State.homeOf (s : State) (a : Nat) : Nat :=
  match s.moved.find? (fun m => decide (m.old ≤ a ∧ a < m.old + m.size)) with
  | some m => a - m.old + m.new
  | none => a

/-- A page has moved: what was forwarded to its old frame goes to the new one, and the new frame forwards nothing. -/
def movedOn (m : Mig) (l : List Mig) : List Mig :=
  m :: (l.filter (fun x => decide (x.old + x.size ≤ m.new ∨ m.new + m.size ≤ x.old))).map (fun (x : Mig) =>
    if m.old ≤ x.new ∧ x.new < m.old + m.size then { x with new := x.new - m.old + m.new } else x)

/-- `MIGRATION_SWITCH`: the stores queued for the page are performed, its lines copied, its entry
rewritten, and its translation dropped from every TLB of the job. -/
def execMigrationSwitch (page : Nat) (s : State) : Out :=
  .next (match s.migs.find? (fun m => decide (m.old = page * 2 ^ 14)) with
    | none => s
    | some m =>
      let s := s.cores.foldl (fun s c => s.drainPage c.1 m.old m.size) s
      let s := s.drainIn (m.old / 2 ^ 36) (4 * s.inq.length)
      let pte := s.num m.pteAt 8
      let pte' := pte - fld pte 55 14 * 2 ^ 14 + (s.pkgid * 2 ^ 45 + m.new)
      let s : State := { s with
        mem := moveCells s.mem m.old m.new m.size
        poison := movePoison s.poison m.old m.new m.size
        moved := movedOn m s.moved
        migs := s.migs.filter (fun x => decide (x.old ≠ m.old)) }
      let s := s.putBytes m.pteAt (leBytes 8 pte')
      let s := s.dropTlb (List.range 16) (tlbMatch 0 m.va m.asid)
      s.podPkgs.foldl (fun s p => s.inject 8 p 0 4 0 0 (tlbPayload 0 m.va m.asid)) s)

end Sys2Proof.Machine
end

