-- ==== Sys2Proof/Machine/Access.lean ====
section
/-! DEFINITION. Reads and writes by effective address or target word: what a byte's address names, and what
its target answers (R215, R216, R225, R240, R244, R345). -/

namespace Sys2Proof.Machine

/-- Who accesses: a core, or a unit of the Hamper, whose addresses are target words; the job; the master
ID within the package; the path of what leaves the package (R85). -/
structure Who where
  core : Option Nat
  slot : Nat
  mid : Nat
  ord : Nat := 0
  path : Nat := 3
  deriving DecidableEq, Repr

/-- What an address names. -/
inductive Loc where
  | pad (core off : Nat) (own : Bool)
  | phys (pa : Nat) (page : Option Tlb)
  | remote (pkg : Nat) (addr : Nat) (page : Option Tlb)
  | fault (cause : Nat)
  | poisoned (pa : Nat)
  deriving DecidableEq, Repr

/-- The address of a byte of a scratchpad within a package, as a fabric packet carries it: the model's own
number for it, above the memories of R237 (notes/assumptions/13.md). -/
def padAddr (core off : Nat) : Nat := 0x180000000000 + core * 2 ^ 19 + off

/-- A translated address: local, or of another package, which must have a route (R428). -/
def State.ofPa (s : State) (pa : Nat) (t : Tlb) : Loc :=
  if pa / 2 ^ 45 = s.pkgid then .phys (pa % 2 ^ 45) (some t)
  else if s.routed (pa / 2 ^ 45) then .remote (pa / 2 ^ 45) (pa % 2 ^ 45) (some t)
  else .fault 0x09

/-- Finds what an address names for an agent, and checks the window or the page. -/
def State.locate (s : State) (w : Who) (a : Int) (need : Nat) : Loc × State :=
  match w.core with
  | some n =>
    match zoneOf a with
    | .loc => (if a < 0x80000 then .pad n a.toNat true else .fault 0x08, s)
    | .unassigned => (.fault 0x08, s)
    | .paged =>
      match s.translate n w.slot a.toNat need with
      | (.ok pa t, s) => (s.ofPa pa t, s)
      | (.fault, s) => (.fault 0x08, s)
      | (.poisoned p, s) => (.poisoned p, s)
    | z =>
      match s.aper n z (need ≠ needR) with
      | some (.own off) => (.pad n off true, s)
      | some (.near c off) => (.pad c off false, s)
      | some (.far p c off _) => (if p = s.pkgid then .pad c off false else .remote p (padAddr c off) none, s)
      | some .denied => (.fault 0x09, s)
      | some .poisoned => (.poisoned (2 ^ 63 + 4), s)
      | none => (.fault 0x08, s)
  | none =>
    let v := a.toNat
    match v / 2 ^ 62 with
    | 0 =>
      if v / 2 ^ 48 ≠ 0 ∨ zoneOf a ≠ .paged then (.fault 0x08, s)
      else
        match s.translateH w.slot v need with
        | .ok pa t => (s.ofPa pa t, s)
        | .fault => (.fault 0x08, s)
        | .poisoned p => (.poisoned p, s)
    | 1 =>
      if fld v 61 58 ≠ 0 ∨ fld v 45 19 ≠ 0 then (.fault 0x08, s)
      else (.pad (coreNum (fld v 57 54) (fld v 53 46)) (v % 2 ^ 19) false, s)
    | 2 => (if fld v 61 26 ≠ 0 then .fault 0x08 else .phys (hamperBase + v % 2 ^ 26) none, s)
    | _ => (.fault 0x08, s)

/-! ## Reads -/

/-- What a read of bytes gives: the bytes, which of them are poisoned, the first address that does, and
the fault that stopped it. -/
structure Got where
  bytes : List Byte := []
  pois : List Nat := []
  first : Option Word := none
  fault : Option (Nat × Word) := none
  far : Bool := false
  deriving DecidableEq, Repr

/-- The master ID of an access to a local address: a Folder's is that of the address's stack (R240). -/
def Who.midAt (w : Who) (pa : Nat) : Nat := if w.mid / 2 ^ 13 = 3 then 3 * 2 ^ 13 + pa / 2 ^ 36 % 16 else w.mid

/-- Whether a read at a scratchpad byte meets a leased bank of that core (R172, R255). -/
def State.leasedPad (s : State) (core off : Nat) : Bool := (s.leasedAt core off 1).isSome

/-- One byte, by what its address names.  A byte of another package is a free value here
(notes/assumptions/8.md). -/
def State.readLoc (s : State) (w : Who) (a : Int) (l : Loc) : Got × State :=
  let bad (c : Nat) : Got := { fault := some (c, wOfInt a) }
  match l with
  | .pad c off own =>
    if own = false ∧ s.allows 1 (c / 256) w.mid .r = false then (bad 0x09, s)
    else if s.leasedPad c off then (bad 0x02, s)
    else
      let k := spadKey c off
      if poisonedByte s.poison k then
        ({ bytes := [memByte s.mem k], pois := [0], first := some (wOfInt (a / 32)) }, s)
      else ({ bytes := [memByte s.mem k] }, s)
  | .phys pa _ =>
    match s.refuses (w.midAt pa) pa 1 .r with
    | some c => (bad c, s.cxlEvent pa c)
    | none =>
      if poisonedByte s.poison pa then
        ({ bytes := [memByte s.mem pa], pois := [0], first := some (wOfInt (a / 32)) }, s)
      else ({ bytes := [memByte s.mem pa] }, s)
  | .remote _ _ _ => ({ bytes := [Config.freeByte s.free], far := true }, { s with free := s.free + 1 })
  | .fault c => (bad c, s)
  | .poisoned p => ({ fault := some (0x0A, wOf p) }, s)

/-- Reads k bytes from an address upward: a fault ends it. -/
def State.readVa (s : State) (w : Who) (a : Int) : Nat → Got × State
  | 0 => ({}, s)
  | k + 1 =>
    let l := s.locate w a needR
    let g := l.2.readLoc w a l.1
    match g.1.fault with
    | some _ => g
    | none =>
      let r := State.readVa g.2 w (a + 1) k
      ({ bytes := g.1.bytes ++ r.1.bytes
         pois := g.1.pois ++ r.1.pois.map (fun (j : Nat) => j + 1)
         first := match g.1.first with | some d => some d | none => r.1.first
         fault := r.1.fault
         far := g.1.far || r.1.far }, r.2)

/-! ## Writes -/

/-- A write of cells of a core's scratchpad: contents, poison, dirty bits. -/
def State.padCells (s : State) (core : Nat) (cells : List (Nat × Byte)) (pois : List Nat) : State :=
  let cs := cells.map (fun c => (spadKey core c.1, c.2))
  cells.foldl (fun s c => s.markDirty core c.1 1) ((s.writeCells cs).mark (pois.map (spadKey core)))

/-- What a write of cells comes to. -/
inductive Wrote where
  | ok (s : State)
  | fault (cause : Nat) (s : State)

/-- Puts a store into a core's queue. -/
def State.queueStore (s : State) (n : Nat) (e : SqEntry) : State :=
  let k := s.core n
  s.setCore n { k with sq := k.sq ++ [{ e with t0 := s.now }] }

/-- Writes cells at a local physical address that is no store of a core's queue. -/
def State.writePhys (s : State) (pa : Nat) (cells part : List (Nat × Byte)) (pois : List Nat) : State :=
  let abs (l : List (Nat × Byte)) : List (Nat × Byte) := l.map (fun x => (pa + x.1, x.2))
  (if memKind pa = .hbm then (s.storeBits (abs cells) (abs part) (fun _ => false)).1
    else s.writeCells ((abs cells).map (mergeCell s.mem (abs part)))).mark (pois.map (fun (j : Nat) => pa + j))

/-- Writes cells, given as offsets from the effective address a, of one page and one scratchpad, where no store queue and
no fabric packet stands between: `part` lists the bytes of which only some bits are written, `pois` the offsets that
carry poison. -/
def State.writeVa (s : State) (w : Who) (a : Int) (cells part : List (Nat × Byte)) (pois : List Nat) : Wrote :=
  match s.locate w a needW with
  | (.pad c off own, s) =>
    if own = false ∧ s.allows 1 (c / 256) w.mid .w = false then .fault 0x09 s
    else .ok (s.padCells c (cells.map (fun x => (off + x.1, x.2))) (pois.map (fun (j : Nat) => off + j)))
  | (.phys pa _, s) =>
    match s.refuses (w.midAt pa) pa 1 .w with
    | some c => .fault c (s.cxlEvent pa c)
    | none => .ok (s.writePhys pa cells part pois)
  | (.remote p b _, s) =>
    .ok (s.injectWrite p w.mid w.path (cells.map (fun c => (b + c.1, c.2))) (pois.map (fun (j : Nat) => b + j))
      (part.map (fun c => (b + c.1, c.2))))
  | (.fault c, s) => .fault c s
  | (.poisoned _, s) => .fault 0x0A s

end Sys2Proof.Machine
end

