-- ==== Sys2Proof/Machine/Folder.lean ====
section
/-! DEFINITION. Tensor handles and the Folder: entries, element addresses, boxes and their delivery order
(R228 to R231). -/

namespace Sys2Proof.Machine

/-! ## Handle entries (R228) -/

/-- A handle entry, as the number its 64 bytes hold. -/
abbrev Hent := Nat

def hBase (e : Hent) : Nat := fld e 47 0
def hGen (e : Hent) : Nat := fld e 75 64
def hDim (e : Hent) : Nat := fld e 78 76
def hValid (e : Hent) : Bool := e.testBit 79
def hFmt (e : Hent) : BitVec 5 := BitVec.ofNat 5 (fld e 84 80)
def hLay (e : Hent) : Nat := fld e 86 85
def hPad (e : Hent) : Nat := fld e 127 96
def hExt (e : Hent) (i : Nat) : Nat := e / 2 ^ (128 + 32 * i) % 2 ^ 32
def hStr (e : Hent) (i : Nat) : Nat := if i = 0 then 0 else e / 2 ^ (288 + 48 * (i - 1)) % 2 ^ 48

/-- The width of an element as memory holds it: a six-bit type is packed (R50). -/
def packWidth (t : BitVec 5) : Nat := if tyS6 t then 6 else tyWidth t

/-- The key under which a job's entry is cached. -/
def hKey (slot k : Nat) : Nat := slot * 2 ^ 20 + k % 2 ^ 20

/-- Reads a handle's entry: the Folder's copy, else the table in HBM, which is then cached (R228, R335). -/
def State.hEntry (s : State) (slot k : Nat) : Hent × State :=
  match tget none s.handles (hKey slot k) with
  | some v => (v.toNat, s)
  | none =>
    let v := s.num (s.htab slot % 2 ^ 45 + 64 * (k % 2 ^ 20)) 64
    (v, { s with handles := tset none s.handles (hKey slot k) (some (BitVec.ofNat 512 v)) })

/-- The generation check of R231. -/
def hFresh (e : Hent) (hdl : Nat) : Bool := hValid e && decide (hGen e = fld hdl 31 20)

/-! ## Element addresses (R229) -/

def at5 (l : List Nat) (i : Nat) : Nat := l.getD i 0

/-- The coordinates that count: those of the dims at or above `ndim` are 0. -/
def hCoord (e : Hent) (c : List Nat) : List Nat := (List.range 5).map (fun i => if i < hDim e then at5 c i else 0)

/-- The bit position of an element from address 0: its row's base in bytes, and its place in the row. -/
def hBit (e : Hent) (c : List Nat) : Nat :=
  let c := hCoord e c
  let w := packWidth (hFmt e)
  let hi := at5 c 2 * hStr e 2 + at5 c 3 * hStr e 3 + at5 c 4 * hStr e 4
  if hLay e = 0 then 8 * (hBase e + at5 c 1 * hStr e 1 + hi) + at5 c 0 * w
  else
    let nb0 := (hExt e 0 + 31) / 32
    let blk := at5 c 1 / 32 * nb0 + at5 c 0 / 32
    let i := if hLay e = 1 then at5 c 1 % 32 * 32 + at5 c 0 % 32 else at5 c 0 % 32 * 32 + at5 c 1 % 32
    8 * (hBase e + hi) + (blk * 1024 + i) * w

/-- The coordinates of a box element, or none where it lies outside the extents (R230). -/
def coordGo (e : Hent) (org : List Int) (b : List Nat) : Nat → Option (List Nat)
  | 0 => some []
  | k + 1 =>
    match coordGo e org b k with
    | none => none
    | some r =>
      let c := org.getD k 0 + (at5 b k : Int)
      if c < 0 ∨ (hExt e k : Int) ≤ c then none else some (r ++ [c.toNat])

def coords (e : Hent) (org : List Int) (b : List Nat) : Option (List Nat) := coordGo e org b 5

/-- The box indices of the k-th element delivered, by conversion code (R230). -/
def boxIndex (conv : Nat) (n : List Nat) (k : Nat) : List Nat :=
  let n0 := at5 n 0
  let n1 := at5 n 1
  let o := k / (n0 * n1)
  let r := k % (n0 * n1)
  let q := r / 1024
  let i := r % 1024
  let b0 := match conv with
    | 0 => r % n0
    | 1 => r / n1
    | 2 => q / (n1 / 32) * 32 + i % 32
    | _ => q / (n1 / 32) * 32 + i / 32
  let b1 := match conv with
    | 0 => r / n0
    | 1 => r % n1
    | 2 => q % (n1 / 32) * 32 + i / 32
    | _ => q % (n1 / 32) * 32 + i % 32
  [b0, b1, o % at5 n 2, o / at5 n 2 % at5 n 3, o / (at5 n 2 * at5 n 3)]

/-- The number of elements of a box. -/
def boxCount (n : List Nat) : Nat := n.foldl (fun a b => a * b) 1

/-! ## Reading and writing elements -/

/-- The master ID of a Folder's own access: its stack (R240). -/
def midFolder (stack : Nat) : Nat := 3 * 2 ^ 13 + stack % 16

/-- Reads w bits at a bit position. -/
def State.readBits (s : State) (w : Who) (bit wd : Nat) : Nat × Got × State :=
  let a := bit / 8
  let k := (bit % 8 + wd + 7) / 8
  let r := s.readVa w (a : Int) k
  (leNat r.1.bytes / 2 ^ (bit % 8) % 2 ^ wd, r.1, r.2)

/-- What reading a box gives: the elements in delivery order, the first fault, the first poison, whether
another package holds some of it. -/
structure Box where
  els : List Nat := []
  pois : List Nat := []
  fault : Option (Nat × Word) := none
  first : Option Word := none
  far : Bool := false
  deriving DecidableEq, Repr

/-- Reads the elements numbered k and up, m of them. -/
def boxReadGo (w : Who) (e : Hent) (org : List Int) (n : List Nat) (conv : Nat) : Nat → Nat → State → Box × State
  | 0, _, s => ({}, s)
  | m + 1, k, s =>
    let wd := packWidth (hFmt e)
    match coords e org (boxIndex conv n k) with
    | none =>
      let r := boxReadGo w e org n conv m (k + 1) s
      ({ r.1 with els := hPad e % 2 ^ wd :: r.1.els }, r.2)
    | some c =>
      let x := s.readBits w (hBit e c) wd
      match x.2.1.fault with
      | some f => ({ fault := some f }, x.2.2)
      | none =>
        let r := boxReadGo w e org n conv m (k + 1) x.2.2
        ({ els := x.1 :: r.1.els
           pois := (if x.2.1.pois.isEmpty then [] else [k]) ++ r.1.pois
           fault := r.1.fault
           first := match x.2.1.first with | some d => some d | none => r.1.first
           far := x.2.1.far || r.1.far }, r.2)

def State.boxRead (s : State) (w : Who) (e : Hent) (org : List Int) (n : List Nat) (conv : Nat) : Box × State :=
  boxReadGo w e org n conv (boxCount n) 0 s

/-- Elements packed from bit 0 at their width (R50). -/
def packEls (wd : Nat) : List Nat → Nat
  | [] => 0
  | x :: r => x % 2 ^ wd + 2 ^ wd * packEls wd r

end Sys2Proof.Machine
end

