-- ==== Sys2Proof/Machine/Seam.lean ====
section
/-! DEFINITION. The Seam links between the dies of the package: the fixed route of traffic from die to die, and what the
failure of a link holds back (R422 to R424). -/

namespace Sys2Proof.Machine

/-- The Hamper among the dies: the compute dies are 0 to 7. -/
def hamperDie : Nat := 8

/-- The link that joins two neighbouring dies: ring links are 0 to 7, chords 8 to 11, hub links 12 to 19, each numbered
from the lower die of the rule that gives it (R422). -/
def seamLink (s t : Nat) : Nat :=
  if s = hamperDie then 12 + t
  else if t = hamperDie then 12 + s
  else if (t + 8 - s) % 8 = 1 then s
  else if (t + 8 - s) % 8 = 7 then t
  else 8 + s % 4

/-- The dies that traffic from die s reaches, up to its target t, with k = (t − s) mod 8 (R423). -/
def seamRoute (s t : Nat) : List Nat :=
  if s = t then []
  else if s = hamperDie ∨ t = hamperDie then [t]
  else
    match (t + 8 - s) % 8 with
    | 2 => [(s + 1) % 8, t]
    | 6 => [(s + 7) % 8, t]
    | 3 => [(s + 4) % 8, t]
    | 5 => [(s + 4) % 8, t]
    | _ => [t]

/-- The links of a route from die s on. -/
def linksOf (s : Nat) : List Nat → List Nat
  | [] => []
  | t :: r => seamLink s t :: linksOf t r

/-- The fixed links between two dies. -/
def seamLinks (s t : Nat) : List Nat := linksOf s (seamRoute s t)

/-- The first failed link of the fixed route between two dies. -/
def State.seamFailed (s : State) (a b : Nat) : Option Nat :=
  (seamLinks a b).find? (fun l => decide (tget 0 s.fab.seam l ≠ 0))

/-- The dies that traffic passes now: by the Hamper where a link of the fixed route has failed (R424). -/
def State.seamPath (s : State) (a b : Nat) : List Nat :=
  if (s.seamFailed a b).isSome then [hamperDie, b] else seamRoute a b

/-- The die of a core. -/
def dieOf (n : Nat) : Nat := n / 512

/-- The die that an address of this package lies behind; another package lies behind the Hamper. -/
def dieAt (pa : Nat) : Nat :=
  match memKind pa with
  | .hbm => pa / 2 ^ 37
  | .spad => dieOf ((pa - 2 ^ 60) / 2 ^ 19)
  | _ => hamperDie

def Loc.die : Loc → Nat
  | .pad c _ _ => dieOf c
  | .phys pa _ => dieAt pa
  | _ => hamperDie

/-- The dies that a core's own accesses have been sent to and not yet answered from, with the cycle of each. -/
def Core.outBound (k : Core) (pkgid : Nat) : List (Nat × Nat) :=
  k.posted.map (fun p => (if p.pkg = pkgid then dieOf p.tgt else hamperDie, p.t0)) ++
    (k.sq.filter (fun e => !e.marker)).map (fun e => (if e.addr / 2 ^ 45 = pkgid then dieAt (e.addr % 2 ^ 45) else hamperDie, e.t0)) ++
    k.farw.map (fun e => (hamperDie, e.t0))

/-- Whether a die still holds its traffic to another: a link of the route has failed, and something that the die sent on
it before is not yet answered (R424) (notes/assumptions/61.md). -/
def State.seamHeld (s : State) (a b : Nat) : Bool :=
  (seamLinks a b).any (fun l =>
    let t := tget 0 s.fab.seam l
    decide (t ≠ 0) && s.cores.any (fun c => decide (dieOf c.1 = a) &&
      (c.2.outBound s.pkgid).any (fun o => decide (o.2 < t) && (seamLinks a o.1).contains l)))

/-- Whether an access of a core is held back so. -/
def State.heldBack (s : State) (w : Who) (l : Loc) : Bool :=
  match w.core with
  | some n => decide (dieOf n ≠ l.die) && s.seamHeld (dieOf n) l.die
  | none => false

end Sys2Proof.Machine
end

