-- ==== Sys2Proof/Machine/VMem.lean ====
section
/-! DEFINITION. Vector loads and stores, posted remote writes, and the deadline-bearing reads of the vector
unit (R226, R227, R246 to R256). -/

namespace Sys2Proof.Machine

/-! ## What a vector memory instruction touches (R248, R249) -/

/-- One active run: the register's byte, the address, the number of bytes. -/
structure VUnit where
  rb : Nat
  a : Int
  k : Nat
  deriving DecidableEq, Repr

inductive VKind where
  | unit | strided | indexed
  deriving DecidableEq, Repr

/-- Whether byte j of a register belongs to an active element of width w. -/
def byteActive (p : PReg) (w j : Nat) : Bool :=
  if w = 4 then p.getLsbD j else p.getLsbD (j * 8 / w * w / 8)

/-- The active runs, in element order.  A unit access is taken byte by byte. -/
def vUnits (kd : VKind) (w : Nat) (p : PReg) (ea : Int) (xb : Word) (vb : VReg) : List VUnit :=
  match kd with
  | .unit => ((List.range 128).filter (byteActive p w)).map (fun (j : Nat) => ⟨j, ea + (j : Int), 1⟩)
  | _ =>
    ((List.range (elCount w)).filter (activeEl p w)).map (fun (i : Nat) =>
      let off : Int := match kd with
        | .strided => (i : Int) * xb.toInt
        | _ => ((el vb w i * (w / 8) : Nat) : Int)
      ⟨i * (w / 8), ea + off, w / 8⟩)

/-- The first unit for which a check fails. -/
def failing (us : List VUnit) (f : VUnit → Bool) : Option Word := (us.find? f).map (fun u => wOfInt u.a)

/-- Whether a bank's format admits elements of width w (R247). -/
def Ctx.bankFits (c : Ctx) (bank w : Nat) : Bool :=
  let v := tget 0 c.csr.bfmt (bank % 16)
  decide (wfld v 11 10 = 0) && decide (tyWidth (BitVec.ofNat 5 v.toNat) = w)

def inPad (a : Int) (k : Nat) : Bool := decide (0 ≤ a ∧ a + (k : Int) ≤ 0x80000)

/-- Checks 2 and 4 of R251 on own-scratchpad runs: the cause and `tval`. -/
def Ctx.vPlace (c : Ctx) (w : Nat) (us : List VUnit) : Option (Nat × Word) :=
  match failing us (fun u => !inPad u.a u.k) with
  | some v => some (0x10, v)
  | none => (failing us (fun u => !c.bankFits (u.a.toNat / 2 ^ 15) w)).map (fun v => (0x0E, v))

/-- Checks 5 and 6 of R251, of the bytes that a load reads once it starts. -/
def State.vRead (s : State) (n : Nat) (us : List VUnit) : Option (Nat × Word) :=
  match failing us (fun u => (s.leasedAt n u.a.toNat u.k).isSome) with
  | some v => some (0x02, v)
  | none => (failing us (fun u => s.spadPoison n u.a.toNat u.k)).map (fun v => (0x0A, v))

/-- Lays the bytes of a load into a register. -/
def layBytes (v : VReg) (rb : Nat) : List Byte → VReg
  | [] => v
  | b :: r => layBytes (setEl v 8 rb b.toNat) (rb + 1) r

/-! ## Posted writes (R226, R252) -/

/-- The count's key: the window, or 64 for the cluster aperture. -/
def apKey : Nat := 64

/-- The limit of unacknowledged writes (R226). -/
def Ctx.alw (c : Ctx) (k : Nat) : Nat := if k = apKey then 32 else wfld (tget 0 c.win k) 55 48

/-- Whether the die of core n holds back its traffic to a core's scratchpad (R424). -/
def State.padHeld (s : State) (n pkg tgt : Nat) : Bool :=
  s.heldBack { core := some n, slot := 0, mid := 0 } (if pkg = s.pkgid then .pad tgt 0 false else .fault 0)

/-- Which task a context runs, as its posted writes name it. -/
def Ctx.key (c : Ctx) : Nat := c.ident.job * 2 ^ 96 + c.ident.num * 2 ^ 32 + c.ident.taskid.toNat

/-- Sends a posted write under a count; another package's copy leaves by the fabric. -/
def State.post (s : State) (n k pkg tgt ring : Nat) (cells : List (Nat × Byte)) : State :=
  let c := s.core n
  let s := s.setCore n { c with posted := c.posted ++
    [{ win := k, pkg := pkg, tgt := tgt, data := cells, t0 := s.now, own := c.fg.key, ring := ring }] }
  let s := s.modFg n (fun x => { x with winCnt := tset 0 x.winCnt k (tget 0 x.winCnt k + 1) })
  if pkg = s.pkgid then s
  else s.injectWrite pkg (midCore n) 1 (cells.map (fun c => (padAddr tgt c.1, c.2))) [] []

/-- The spool that a vector memory word names as `d` (R246). -/
def vmSpool (sm : BitVec 2) (d : BitVec 5) (load : Bool) : SpoolUse :=
  if sm.getLsbD 1 then (if load then { dst := some d.toNat } else { src := some d.toNat }) else {}

/-- The result of a memory word: what a load writes, nothing for a store. -/
def vmPend (load : Bool) (d : BitVec 5) (v : VReg) (sp : Option (Nat × Nat)) : Pending :=
  if load then { eng := .vx, kind := 1, dst := d.toNat, val := v, spool := sp } else { eng := .vx, kind := 0 }

/-- A store of active runs to the own scratchpad, in element order (R250): a unit store is one write. -/
def State.vStore (s : State) (n : Nat) (kd : VKind) (us : List VUnit) (v : VReg) : State :=
  let cells (u : VUnit) : List (Nat × Byte) :=
    (List.range u.k).map (fun j => (u.a.toNat + j, BitVec.ofNat 8 (getEl v 8 (u.rb + j))))
  match kd with
  | .unit => s.padCells n ((us.map cells).flatten) []
  | _ => us.foldl (fun s u => s.padCells n (cells u) []) s

/-- The effect of `VLD` to `VSTX` (R247 to R252). -/
def vmEff (f : FmtVM) (kd : VKind) (load : Bool) : Eff := fun s n q =>
  let x := s.fg n
  let u := vmSpool f.sm f.d load
  let w := tyWidth f.ty
  match x.spoolFault s.spoolCycle u with
  | some k => .fault 0x11 (wOf k)
  | none =>
    let ea : Int := (q.xa.toNat : Int) + 64 * f.off.toInt
    let p := if f.pe then x.p f.pg.toNat else BitVec.allOnes 128
    let us := vUnits kd w p ea q.xb (x.v f.b)
    let zone := zoneOf ea
    let store := !load && decide (kd = .unit)
    let cross := store && (match zone with
      | .cluster _ off => decide (2 ^ 19 < off + 128)
      | .window _ off => decide (2 ^ 19 < off + 128)
      | _ => false)
    let mis : Option Word :=
      if kd = .unit then (if ea % 64 ≠ 0 ∨ cross = true then some (wOfInt ea) else none)
      else failing us (fun u => decide (u.a % (u.k : Int) ≠ 0))
    let src := x.srcSlot u
    let data : VReg := match src with
      | some off => BitVec.ofNat 1024 (s.spadNum n off 128)
      | none => x.v f.d
    let cl := x.spoolClaim s.spoolCycle u
    let go (r : Try) : Try :=
      if x.spoolReady s.spoolCycle u = false then .wait
      else
        match src.bind (fun off => s.leasedAt n off 128), src.any (fun off => s.spadPoison n off 128) with
        | some off, _ => .late 0x02 (wOf off)
        | none, true => .late 0x0A (wOf (src.getD 0))
        | none, false => r
    let away (k pkg tgt off : Nat) : Try :=
      if us.isEmpty then go (.run (s.setFg n cl.1) (vmPend load f.d 0 none))
      else if x.alw k ≤ tget 0 x.winCnt k ∨ s.padHeld n pkg tgt = true then .wait
      else go (.run ((s.setFg n cl.1).post n k pkg tgt q.ring
        (us.map (fun (r : VUnit) => (off + r.rb, BitVec.ofNat 8 (getEl data 8 r.rb))))) (vmPend load f.d 0 none))
    let own (us : List VUnit) : Try :=
      match x.vPlace w us with
      | some (c, v) => .fault c v
      | none =>
        if load then
          match s.vRead n us with
          | some (c, v) => go (.late c v)
          | none =>
            let old : VReg := if f.sm.getLsbD 1 then 0 else x.v f.d
            let v := us.foldl (fun v (r : VUnit) => layBytes v r.rb (s.spadRead n r.a.toNat r.k)) old
            go (.run (s.setFg n cl.1) (vmPend load f.d v cl.2))
        else go (.run ((s.setFg n cl.1).vStore n kd us data) (vmPend load f.d 0 none))
    match mis with
    | some v => .fault 0x0F v
    | none =>
      match (if store then s.aper n zone true else none) with
      | none => own us
      | some (.own off) => own (us.map (fun (r : VUnit) => { r with a := (off + r.rb : Nat) }))
      | some (.near c off) => away apKey s.pkgid c off
      | some (.far p c off k) => away k p c off
      | some .poisoned => .fault 0x0A (wOf (2 ^ 63 + 4))
      | some .denied => if us.isEmpty then own us else .fault 0x09 (((us.head?.map (fun (r : VUnit) => wOfInt r.a))).getD 0)

/-- The issue interval of a gather or scatter (R265). -/
def vmI (w : Nat) : Nat := max 2 (elCount w / 16)

/-- The latency and the issue interval of a vector load or store (R265): of a store to an aperture, from its sending. -/
def State.vmTime (s : State) (n : Nat) (f : FmtVM) (kd : VKind) (load : Bool) (xa : Word) : Nat × Nat :=
  match kd with
  | .unit =>
    if load then (4, 2)
    else
      match s.aper n (zoneOf ((xa.toNat : Int) + 64 * f.off.toInt)) true with
      | some (.near _ _) => (3, 2)
      | some (.far _ _ _ _) => (3, 2)
      | _ => (2, 2)
  | _ => (vmI (tyWidth f.ty) + (if load then 4 else 2), vmI (tyWidth f.ty))

def State.issueVM (s : State) (i : Instr) (f : FmtVM) (kd : VKind) (load : Bool) : State :=
  let tm : Nat × Nat := match s.cur with
    | .core n => s.vmTime n f kd load (s.xr f.a)
    | .thread _ => (2, 2)
  s.issueEng .vx i (s.xr f.a) (s.xr f.b) 0 tm.1 tm.2 (vmEff f kd load)

def execVld (f : FmtVM) (s : State) : Out := .next (s.issueVM (.vld f) f .unit true)
def execVlds (f : FmtVM) (s : State) : Out := .next (s.issueVM (.vlds f) f .strided true)
def execVldx (f : FmtVM) (s : State) : Out := .next (s.issueVM (.vldx f) f .indexed true)
def execVst (f : FmtVM) (s : State) : Out := .next (s.issueVM (.vst f) f .unit false)
def execVsts (f : FmtVM) (s : State) : Out := .next (s.issueVM (.vsts f) f .strided false)
def execVstx (f : FmtVM) (s : State) : Out := .next (s.issueVM (.vstx f) f .indexed false)

/-! ## Posted writes at their target (R227, R239, R252) -/

/-- Changes the context of a task, wherever the package holds it: on core n, in another core's bank, yielded, or saved. -/
def State.modOwner (s : State) (n own : Nat) (f : Ctx → Ctx) : State :=
  let g (c : Ctx) : Ctx := if c.key = own then f c else c
  if (s.fg n).key = own then s.setFg n (f (s.fg n))
  else { s with
    cores := s.cores.map (fun c => (c.1, { c.2 with fg := if c.2.busy then g c.2.fg else c.2.fg, sh := c.2.sh.map g }))
    sch := { s.sch with
      yielded := s.sch.yielded.map (fun (y : Yielded) => { y with ctx := g y.ctx })
      parked := s.sch.parked.map g } }

/-- A target performs a posted write, or refuses it with a cause (R227). -/
def State.performPost (s : State) (n : Nat) (p : Posted) : State × Option Nat :=
  let cells := p.data.map (fun c => (spadKey p.tgt c.1, c.2))
  if s.allows 1 (p.tgt / 256) (midCore n) .w = false then (s, some 0x09)
  else if cells.any (fun c => s.suppressed cells (fun _ => false) c.1) then (s, some 0x0A)
  else (s.padCells p.tgt p.data [], none)

/-- Whether a read under way from a core's vector unit, older than some cycle, still reads the given scratchpad: those
and the posted writes to it keep the order of path V (R270). -/
def Core.readsPad (k : Core) (pkg tgt before : Nat) : Bool :=
  k.fg.vreads.any (fun v => v.ans.isNone && decide (v.entry.piece = pkg ∧ spadKey tgt 0 ≤ v.loc ∧
    v.loc < spadKey tgt 0 + 2 ^ 19 ∧ v.since < before))

/-- The first posted write to the target that a free choice picks among those to this package: those to one
target keep their order. -/
def pickPosted (l : List Posted) (pkgid k : Nat) : Option (Nat × Posted) :=
  let own := l.filter (fun p => decide (p.pkg = pkgid))
  match own[k % max own.length 1]? with
  | none => none
  | some p =>
    match l.findIdx? (fun q => decide (q.pkg = p.pkg ∧ q.tgt = p.tgt)) with
    | some i => l[i]?.map (fun q => (i, q))
    | none => none

/-- A posted write's answer: it leaves the list, an acknowledgement is on its way, and a refusal marks its
window (R227). -/
def State.postDone (s : State) (n i : Nat) (p : Posted) (bad : Option Nat) : State :=
  let k := s.core n
  let s := s.setCore n { k with posted := dropAt k.posted i, acks := k.acks ++ [⟨p.win, p.own, p.ring⟩] }
  match (if p.win = 255 then none else bad) with
  | none => s
  | some c => s.modOwner n p.own (fun x => { x with winFail := tset 0 x.winFail p.win (BitVec.ofNat 8 c) })

/-- `POSTED_WRITE_PERFORMED`: a target of this package performs or refuses a write of core n, and acknowledges;
another package's acknowledgement comes by the fabric. -/
def execPostedWritePerformed (n : Nat) (s : State) : Out :=
  .next (
    let f := s.nextFree
    match pickPosted (s.core n).posted s.pkgid f.1.toNat with
    | none => s
    | some (i, p) =>
      if (s.core n).readsPad p.pkg p.tgt p.t0 then s
      else
        let r := f.2.performPost n p
        r.1.postDone n i p r.2)

/-- `POSTED_WRITE_ACK`: an acknowledgement reaches core n for window w, or 64 for the cluster aperture; it counts for
the task that sent the write, in whichever bank that is.  That of a task that a kill has ended, 255, counts for none. -/
def execPostedWriteAck (n w : Nat) (s : State) : Out :=
  .next (
    let k := s.core n
    match k.acks.find? (fun a => decide (a.win = w)) with
    | some a =>
      let s := s.setCore n { k with acks := k.acks.erase a }
      if w = 255 then s else s.modOwner n a.own (fun x => { x with winCnt := tset 0 x.winCnt w (tget 0 x.winCnt w - 1) })
    | none => s)

/-! ## VLDW and VTRD (R253 to R256) -/

/-- The Format D fields of a read of the vector unit. -/
def readFmt : Instr → Option FmtD
  | .vldw f => some f
  | .vtrd f => some f
  | _ => none

/-- A read completes with a status (R253, R256): vd on OK, xst, the signal, and the count of R40.  An
escalation is a trap of the sequencer at its next boundary. -/
def State.endRead (s : State) (n : Nat) (v : VRead) (code detail : Nat) (bs : Option (List Byte)) : State :=
  match readFmt v.instr with
  | none => s
  | some f =>
    let s := s.modFg n (fun c =>
      let c := { c with vreads := c.vreads.filter (fun x => decide (x.id ≠ v.id)) }
      let c := match bs with
        | some b => if v.entry.flg.getLsbD 0 then c else c.setV f.d.toNat (BitVec.ofNat 1024 (leNat b))
        | none => c
      let c := if v.entry.flg.getLsbD 1 then c else c.landX f.st (statusWord code detail) v.entry.ord
      let r := c.countD f.x v.entry.ord v.pc code
      let c := if r.2 then { r.1 with late := r.1.late ++ [(0x06, 0, v.pc)] } else r.1
      c.countRest (c.dlWait.length))
    (s.signal n .vx (wfld v.entry.word 55 48)).settle n .vx

/-- A target's refusal (R255): the read ends with nothing written and nothing signalled; the trap waits for
the sequencer's next boundary. -/
def State.refuseRead (s : State) (n : Nat) (v : VRead) (cause : Nat) (val : Word) : State :=
  (s.modFg n (fun c =>
    let c := { c with vreads := c.vreads.filter (fun x => decide (x.id ≠ v.id)), late := c.late ++ [(cause, 1, val)] }
    c.countRest c.dlWait.length)).settle n .vx

/-- What a read of the vector unit comes to: a refusal's `cval` is the address read, and 0xFF stands for a malformed
`VTRD` block, FAULTED with 0x0E. -/
def State.landRead (s : State) (n : Nat) (v : VRead) (r : ReadAns) : State :=
  match r with
  | .data bs => s.endRead n v 0 0 (some bs)
  | .poison d => s.endRead n v 6 d.toNat none
  | .refused 0xFF => s.endRead n v 7 0x0E none
  | .refused c => s.refuseRead n v c.toNat v.entry.xc
  | .stale => s.endRead n v 8 0 none

/-- How many reads of a kind wait. -/
def Ctx.readCount (c : Ctx) (w : Bool) : Nat :=
  (c.vreads.filter (fun v => match v.instr with | .vldw _ => w | _ => !w)).length

/-- A read that starts: its record, under way from now (R254). -/
def State.startRead (s : State) (n : Nat) (i : Instr) (q : QEntry) (loc pkg : Nat) (ans : Option ReadAns)
    (hent : Nat) (blk : List Byte) : Try :=
  let x := s.fg n
  let v : VRead := { id := q.ord + 1, instr := i, entry := { q with piece := pkg, xc := q.xa }, pc := q.pc, since := s.now,
                     key := s.now + 1, d := deadlineAt (s.jtime x.ident.job) q.xb, loc := loc, ans := ans, hent := hent, blk := blk }
  .run (s.setFg n { x with vreads := x.vreads ++ [v] }) { eng := .vx, kind := 7, ord := q.ord }

/-- A read of k bytes of a scratchpad that answers at once or later: `own` needs no access check. -/
def State.padAnswer (s : State) (n tgt off k : Nat) (own : Bool) : ReadAns :=
  if own = false ∧ s.allows 1 (tgt / 256) (midCore n) .r = false then .refused 0x09
  else if (s.leasedAt tgt off k).isSome then .refused 0x02
  else if s.spadPoison tgt off k then .poison 0
  else .data (s.spadRead tgt off k)

/-- `VLDW`'s start: checks 1 to 3 of R251, then the request. -/
def vldwEff (f : FmtD) : Eff := fun s n q =>
  let a : Int := (q.xa.toNat : Int)
  if q.xa.toNat % 128 ≠ 0 then .fault 0x0F q.xa
  else
    let go (loc pkg : Nat) (ans : Option ReadAns) : Try :=
      if 8 ≤ (s.fg n).readCount true ∨ (ans = none ∧ s.padHeld n pkg ((loc - 2 ^ 60) / 2 ^ 19) = true) then .wait
      else s.startRead n (.vldw f) q loc pkg ans 0 []
    match zoneOf a with
    | .loc =>
      if q.xa.toNat + 128 ≤ 0x80000 then go 0 s.pkgid (some (s.padAnswer n n q.xa.toNat 128 true))
      else .fault 0x10 q.xa
    | z =>
      match s.aper n z false with
      | some (.own off) => go 0 s.pkgid (some (s.padAnswer n n off 128 true))
      | some (.near c off) => go (spadKey c off) s.pkgid none
      | some (.far p c off _) =>
        if p = s.pkgid then go (spadKey c off) p none
        else if 8 ≤ (s.fg n).readCount true ∨ s.padHeld n p c = true then .wait
        else (s.inject 2 p (midCore n) 1 (wOf (padAddr c off)) (wOf (s.now + 1)) (leBytes 2 128)).startRead
          n (.vldw f) q (spadKey c off) p none 0 []
      | some .denied => .fault 0x09 q.xa
      | some .poisoned => .fault 0x0A (wOf (2 ^ 63 + 4))
      | none => .fault 0x10 q.xa

/-- A signed 32-bit field of a block. -/
def s32 (bs : List Byte) (off : Nat) : Int := sextN (leNat ((bs.drop off).take 4)) 32
def u32 (bs : List Byte) (off : Nat) : Nat := leNat ((bs.drop off).take 4)
def u16 (bs : List Byte) (off : Nat) : Nat := leNat ((bs.drop off).take 2)

/-- The origins of a block: five signed words from an offset. -/
def origins (bs : List Byte) (off : Nat) : List Int := (List.range 5).map (fun i => s32 bs (off + 4 * i))

/-- The box of a `VTRD` request block. -/
def vtrdBox (blk : List Byte) : List Nat := [u16 blk 24, u16 blk 26, 1, 1, 1]

/-- `VTRD`'s start (R256): the request block, its checks, the generation check, the translation. -/
def vtrdEff (f : FmtD) : Eff := fun s n q =>
  let a := q.xa.toNat
  if a % 32 ≠ 0 then .fault 0x0F q.xa
  else if a / 2 ^ 19 ≠ 0 then .fault 0x10 q.xa
  else if 4 ≤ (s.fg n).readCount false then .wait
  else if (s.leasedAt n a 32).isSome then .late 0x02 q.xa
  else if s.spadPoison n a 32 then .late 0x0A q.xa
  else
    let blk := s.spadRead n a 32
    let cv := u16 blk 28 % 256
    let slot := (s.fg n).ident.job
    let h := s.hEntry slot (u32 blk 0)
    let wd := packWidth (hFmt h.1)
    let n0 := u16 blk 24
    let n1 := u16 blk 26
    let early (r : ReadAns) : Try := h.2.startRead n (.vtrd f) q 0 s.pkgid (some r) h.1 blk
    if leNat (blk.drop 29) ≠ 0 ∨ 2 ≤ cv ∨ n0 = 0 ∨ n1 = 0 ∨ 1024 < n0 * n1 * wd ∨
        (cv = 1 ∧ wd ≠ 8 ∧ wd ≠ 16 ∧ wd ≠ 32) ∨ wd = 6 ∨ wd = 0 then
      (if leNat (blk.drop 29) = 0 ∧ cv < 2 ∧ hFresh h.1 (u32 blk 0) = false then early .stale
        else early (.refused 0xFF))
    else if hFresh h.1 (u32 blk 0) = false then early .stale
    else
      let w : Who := { core := some n, slot := slot, mid := midFolder 0 }
      let b := h.2.boxRead w h.1 (origins blk 4) (vtrdBox blk) cv
      match b.1.fault with
      | some (0x08, v) => .late 0x08 v
      | some (0x0A, v) => early (.poison (wOf (v.toNat / 32)))
      | _ => h.2.startRead n (.vtrd f) q 1 (if b.1.far then 2048 else s.pkgid) none h.1 blk

/-- What this package's memories answer to a read under way, at this instant, with the address that a refusal
names. -/
def State.vreadAnswer (s : State) (n : Nat) (v : VRead) : ReadAns × Word × State :=
  match v.instr with
  | .vldw _ =>
    let o := v.loc - 2 ^ 60
    (s.padAnswer n (o / 2 ^ 19) (o % 2 ^ 19) 128 false, v.entry.xa, s)
  | _ =>
    let w : Who := { core := some n, slot := (s.fg n).ident.job, mid := midFolder 0 }
    let b := s.boxRead w v.hent (origins v.blk 4) (vtrdBox v.blk) (u16 v.blk 28 % 256)
    match b.1.fault with
    | some (0x0A, a) => (.poison (wOf (a.toNat / 32)), a, b.2)
    | some (c, a) => (.refused (BitVec.ofNat 8 c), a, b.2)
    | none =>
      match b.1.first with
      | some _ => (.poison 0, 0, b.2)
      | none => (.data (leBytes 128 (packEls (packWidth (hFmt v.hent)) b.1.els)), 0, b.2)

/-- A reply reaches a read of the vector unit: where commands complete at once it lands, else it is ready 2 cycles
later (R265); that of a frozen core is held (R441). -/
def State.replyRead (s : State) (n : Nat) (v : VRead) (a : ReadAns) (at_ : Word) : State :=
  let c := s.fg n
  let v' := { v with entry := { v.entry with xc := at_ } }
  if c.stop.isNone && s.lockstep then s.landRead n v' a
  else
    let r := s.dcyc c + (if s.lockstep then 0 else 2)
    s.modFg n (fun c => { c with
      vreads := c.vreads.map (fun (x : VRead) => if x.id = v.id then { v' with ans := some a, rdy := r } else x) })

/-- A read whose answer is known at its start completes with it: the faults of a `VTRD` block are its status. -/
def State.settleRead (s : State) (n id : Nat) : State :=
  match (s.fg n).vreads.find? (fun v => decide (v.id = id)) with
  | none => s
  | some v =>
    match v.ans with
    | none => s
    | some r => s.replyRead n v r v.entry.xc

/-- Forwards a read word, and completes it where its answer is known. -/
def State.issueRead (s : State) (i : Instr) (f : FmtD) (eff : Eff) : State :=
  match s.cur with
  | .core n =>
    let id := (s.fg n).ord + 1
    (s.issueEng .vx i (s.xr f.a) (s.xr f.dl) 0 2 1 eff).settleRead n id
  | .thread _ => s.issueEng .vx i 0 0 0 2 1 eff

def execVldw (f : FmtD) (s : State) : Out := .next (s.issueRead (.vldw f) f (vldwEff f))
def execVtrd (f : FmtD) (s : State) : Out := .next (s.issueRead (.vtrd f) f (vtrdEff f))

end Sys2Proof.Machine
end

