-- ==== Sys2Proof/Machine/SeqMem.lean ====
section
/-! DEFINITION. `DLD`, the fences, and the arrival of a reply (R255, R257, R262, R263). -/

namespace Sys2Proof.Machine

/-! ## DLD (R257) -/

/-- The size of a `DLD` and its extended value. -/
def dldSize (f : FmtD) : Nat := 2 ^ (f.aux.toNat % 4)
def dldValue (f : FmtD) (bs : List Byte) : Word := extend (BitVec.ofNat 3 f.aux.toNat) (leNat bs)

/-- The completion: OK, POISON, or the target's refusal as a precise trap (R255); 3 cycles after issue where the access
is core-local, else 2 after the reply (R257, R265). -/
def dldTest (f : FmtD) : Test := fun s n w =>
  let fin (s : State) (code detail : Nat) : State := s.finishDk n (if s.now = w.since then 3 else 2) f.st f.x w.pc code detail
  match w.ans with
  | none => none
  | some (.data bs) => some (fin (s.modFg n (fun c => c.setX f.d (dldValue f bs))) 0 0)
  | some (.poison d) => some (fin s 6 d.toNat)
  | some (.refused c) => some ((s.takeTrap n c.toNat 0 w.pc w.a).tick 1)
  | some .stale => some (fin s 8 0)

/-- What names a `DLD` request that left the package, by its issue cycle: the key its reply carries. -/
def farKey (t : Nat) : Nat := 2 ^ 63 + t

def execDld (f : FmtD) (s : State) : Out :=
  .next (s.onCore ((encode64 (.dld f)).getD 0) (fun n =>
    let w := s.waitOf f (.dld f)
    let a := w.a.toNat
    let k := dldSize f
    let to' (s : State) (b : Word) (ans : Option ReadAns) (page : Option Tlb) : State :=
      s.beginWait n { w with b := b, ans := ans, sent := true, tlb := page } (dldTest f) (lateD f)
    let go (s : State) (b : Word) (ans : Option ReadAns) : State := to' s b ans none
    if a % k ≠ 0 then s.trapHere 0x0F w.a
    else
      match zoneOf (a : Int) with
      | .loc =>
        match s.localLoad n a k with
        | .inl (0x0A, _) => go s 0 (some (.poison 0))
        | .inl (c, v) => s.trapHere c v
        | .inr v => go s 0 (some (.data (leBytes k v)))
      | _ =>
        let own : Who := { core := some n, slot := (s.fg n).ident.job, mid := midCore n }
        match s.locate own (a : Int) needR with
        | (.pad c off true, s) => go s 0 (some (s.padAnswer n c off k true))
        | (.pad c off false, s) => go s (wOf (spadKey c off)) none
        | (.phys pa page, s) => to' s (wOf pa) none page
        | (.remote p b page, s) =>
          to' (s.inject 2 p (midCore n) 0 (wOf b) (wOf (farKey s.now)) (leBytes 2 k)) (wOf (farKey s.now)) none page
        | (.fault c, s) => s.trapHere c w.a
        | (.poisoned p, s) => go s 0 (some (.poison (wOf (p / 32))))))

/-- What this package's memories answer to a waiting `DLD`, at this instant; a page that has moved answers from its new
frame (R241). -/
def State.dldAnswer (s : State) (n : Nat) (f : FmtD) (w : Wait) : ReadAns :=
  let k := dldSize f
  let b := w.b.toNat
  if 2 ^ 60 ≤ b then s.padAnswer n ((b - 2 ^ 60) / 2 ^ 19) ((b - 2 ^ 60) % 2 ^ 19) k false
  else
    match s.answer (midCore n) (s.homeOf b) k with
    | .poison _ => .poison 0
    | r => r

/-! ## READ_REPLY_ARRIVAL (R253 to R257) -/

/-- Whether an earlier access of core n's vector unit to the same scratchpad is still on its way: a posted write
(R252), or a read (R270). -/
def Core.vBefore (k : Core) (v : VRead) : Bool :=
  k.posted.any (fun p => decide (spadKey p.tgt 0 ≤ v.loc ∧ v.loc < spadKey p.tgt 0 + 2 ^ 19 ∧ p.t0 ≤ v.since ∧
    p.pkg = v.entry.piece)) ||
    k.fg.vreads.any (fun x => x.ans.isNone && decide (2 ^ 60 ≤ v.loc ∧ x.entry.piece = v.entry.piece ∧
      (x.loc - 2 ^ 60) / 2 ^ 19 = (v.loc - 2 ^ 60) / 2 ^ 19 ∧ 2 ^ 60 ≤ x.loc ∧ x.since < v.since))

/-- A reply reaches core n's waiting `DLD`; a frozen core's is held, and tested after the resume (R441). -/
def State.replyDld (s : State) (n : Nat) (f : FmtD) (w : Wait) (a : ReadAns) : State :=
  let c := s.fg n
  let w := { w with ans := some a }
  if c.stop.isSome then s.setFg n { c with wait := some w } else (dldTest f s n w).getD s

/-- Core n's `DLD` that still takes a reply: one that comes after D is discarded (R255). -/
def State.openDld (s : State) (n : Nat) : Option (FmtD × Wait) :=
  let c := s.fg n
  match c.wait with
  | some w =>
    match w.instr with
    | .dld f => if w.d.toNat < (s.jtime c.ident.job).toNat ∨ w.ans.isSome = true then none else some (f, w)
    | _ => none
  | none => none

/-- The read of core n's vector unit with a property that still takes a reply. -/
def State.openRead (s : State) (n : Nat) (f : VRead → Bool) : Option VRead :=
  let c := s.fg n
  match c.vreads.find? f with
  | some v =>
    if v.d.toNat < (s.jtime c.ident.job).toNat ∨ v.ans.isSome = true ∨ (s.core n).vBefore v = true then none else some v
  | none => none

/-- The reply to a read of core n arrives.  The reply of a target in this package is computed here (r is none), k being
the read's number, 0 for a `DLD`; another package's is what arrives, and k what names the request. -/
def execReadReplyArrival (n k : Nat) (r : Option ReadAns) (s : State) : Out :=
  .next (
    match r with
    | some a =>
      if 2 ^ 63 ≤ k then
        match s.openDld n with
        | some (f, w) => if w.b.toNat = k then s.replyDld n f w a else s
        | none => s
      else
        match s.openRead n (fun v => decide (v.key = k ∧ v.entry.piece ≠ s.pkgid)) with
        | some v => s.replyRead n v a v.entry.xa
        | none => s
    | none =>
      if k = 0 then
        match s.openDld n with
        | some (f, w) =>
          if 2 ^ 63 ≤ w.b.toNat ∨ s.heldBack { core := some n, slot := 0, mid := 0 } (.phys w.b.toNat none) = true then s
          else
            let a := s.dldAnswer n f w
            (s.replyDld n f w a).cxlEvent w.b.toNat (match a with | .refused c => c.toNat | _ => 0)
        | none => s
      else
        match s.openRead n (fun v => decide (v.id = k ∧ v.entry.piece = s.pkgid)) with
        | some v =>
          let x := s.vreadAnswer n v
          x.2.2.replyRead n v x.1 x.2.1
        | none => s)

/-! ## Fences (R262, R263) -/

/-- Whether every earlier access on a path is performed: `ord` and `since` are the fence's place in program
order and its issue cycle.  A ring entry that starts at or after that cycle is no earlier access. -/
def State.pathDone (s : State) (n path ord since : Nat) : Bool :=
  let k := s.core n
  let c := k.fg
  let after (ring : Nat) : Bool := decide (0 < ring ∧ since ≤ ring)
  let none' (e : Eng) : Bool :=
    let g := c.eng e
    ((g.q ++ g.lane).all (fun q => decide (ord ≤ q.ord) || after q.ring || (g.inRing && !q.started))) &&
      c.inRun.all (fun p => decide (p.eng ≠ e) || decide (ord ≤ p.ord) || after p.ring)
  match path with
  | 1 => none' .vx && c.vreads.all (fun v => decide (ord ≤ v.entry.ord) || after v.entry.ring) &&
      (c.winCnt.all (fun w => decide (w.2 = 0)) ||
        (c.vx.inRing && k.posted.all (fun p => decide (p.own ≠ c.key) || after p.ring) &&
          k.acks.all (fun a => decide (a.own ≠ c.key) || after a.ring)))
  | 2 => none' .mt
  | 3 => none' .ce0 && none' .ce1 && k.sq.all (fun e => e.marker || decide (since < e.t0)) &&
      k.farw.all (fun e => decide (ord ≤ e.ord))
  | _ => true

/-- The complete paths of a mask. -/
def State.pathsDone (s : State) (n p : Nat) (w : Wait) : Nat :=
  (List.range 6).foldl (fun m i =>
    if p.testBit i && s.pathDone n i w.ord w.since then m + 2 ^ i else m) 0

/-- A fence completes with code c, or with the pending error report it takes (R263). -/
def State.fenceReport (s : State) (n : Nat) (f : FmtD) (w : Wait) (p c detail : Nat) : State :=
  let x := s.fg n
  let sc := f.aux.toNat % 16
  match (if 6 ≤ sc ∧ p.testBit 1 = true then x.winFail.head? else none) with
  | some (k, cause) => (s.setFg n { x with winFail := tset 0 x.winFail k 0 }).doneD n f w 7 cause.toNat
  | none =>
    match (if p.testBit 3 then x.storeErr else none) with
    | some d => (s.setFg n { x with storeErr := none }).doneD n f w 6 d.toNat
    | none => s.doneD n f w c detail

def fenceTest (f : FmtD) : Test := fun s n w =>
  let p := w.a.toNat % 64
  if s.pathsDone n p w = p then some (s.fenceReport n f w p 0 0) else none

def fenceLate (f : FmtD) : Expiry := fun s n w =>
  let p := w.a.toNat % 64
  let d := s.pathsDone n p w
  if d = 0 then s.fenceReport n f w p 1 0 else s.fenceReport n f w p 2 d

def State.fence (s : State) (f : FmtD) (i : Instr) : State :=
  s.onCore ((encode64 i).getD 0) (fun n => s.beginWait n (s.waitOf f i) (fenceTest f) (fenceLate f))

def execPfence (f : FmtD) (s : State) : Out := .next (s.fence f (.pfence f))
def execXfence (f : FmtD) (s : State) : Out := .next (s.fence f (.xfence f))

end Sys2Proof.Machine
end

