-- ==== Sys2Proof/Machine/Barrier.lean ====
section
/-! DEFINITION. Barriers: the four instructions, the homes, and the replies (R205 to R214, R482).  An
arrival is known by its task: the launch number × 2³² + `taskid`. -/

namespace Sys2Proof.Machine

/-- The number of a context's task within its job. -/
def Ctx.tid (c : Ctx) : Nat := c.ident.num * 2 ^ 32 + c.ident.taskid.toNat

/-- The group of a scope that core n belongs to, within the package (R187, R188). -/
def scopeGroup (n sc : Nat) : Nat :=
  match sc with
  | 2 => n / 4
  | 3 => n / 256
  | 4 => n / 512
  | _ => 0

/-- The barrier that a word names for core n (R206). -/
def State.barKey (s : State) (n sc : Nat) (xa : Word) : BarKey :=
  { job := (s.fg n).ident.job, scope := sc, grp := scopeGroup n sc, num := xa.toNat % 16 }

/-- This package, as one number. -/
def State.ownKey (s : State) : Nat := s.podid.toNat * 2048 + s.pkgid

/-- A task of this package, as the homes know it: `taskid` alone names a named task only within its package (R197). -/
def State.gid (s : State) (c : Ctx) : Nat := s.ownKey * 2 ^ 64 + c.tid

/-- The package that holds a barrier's home (R187). -/
def State.homePkg (s : State) (k : BarKey) : Nat × Nat :=
  if k.scope ≤ 5 then (s.podid.toNat, s.pkgid)
  else if k.scope = 6 then (s.podid.toNat, (s.jobPeers k.job).foldl min s.pkgid)
  else s.firstPkg k.job

/-- Whether a barrier's home is in this package. -/
def State.homeHere (s : State) (k : BarKey) : Bool := decide (s.homePkg k = (s.podid.toNat, s.pkgid))

/-- The cycles from a core to a barrier's home (R214). -/
def State.barWay (s : State) (k : BarKey) : Nat :=
  match k.scope with
  | 2 => 2
  | 3 => 5
  | 4 => 12
  | 5 => 30
  | 6 => 450
  | _ => if (s.job k.job).pkgs.all (fun p => decide (p.1 = s.podid.toNat)) then 450 else 15000

/-- The size of a home's pool of counting records (R482). -/
def poolSize (sc : Nat) : Nat :=
  match sc with
  | 2 => 16
  | 3 => 256
  | 4 => 256
  | 5 => 1024
  | _ => 4096

/-! ## Tasks that hold records -/

/-- The core whose foreground context is a task of a job. -/
def State.coreOf (s : State) (job g : Nat) : Option Nat :=
  (s.cores.find? (fun c => c.2.busy && decide (c.2.fg.ident.job = job ∧ s.gid c.2.fg = g))).map (fun c => c.1)

/-- A yielded task of a job. -/
def State.yieldOf (s : State) (job g : Nat) : Option Nat :=
  s.sch.yielded.findIdx? (fun y => decide (y.ctx.ident.job = job ∧ s.gid y.ctx = g))

/-! ## The home (R205, R207, R212, R482) -/

def State.bar (s : State) (k : BarKey) : Bar :=
  (s.sch.bars.find? (fun b => decide (b.key = k))).getD { key := k }

def State.setBar (s : State) (b : Bar) : State :=
  { s with sch := { s.sch with bars := b :: s.sch.bars.filter (fun x => decide (x.key ≠ b.key)) } }

/-- How an answer travels: a code and a phase. -/
def ansCode : BarAns → Nat × Nat
  | .joined p => (1, p.toNat)
  | .completed p => (2, p.toNat)
  | .broken p => (3, p.toNat)
  | .withdrawn => (4, 0)
  | .mismatch => (5, 0)
  | .noRecord => (6, 0)

/-- A barrier message between packages; its layout is the model's (notes/assumptions/13.md). -/
def State.barPayload (s : State) (tag : Nat) (k : BarKey) (g code v : Nat) : List Byte :=
  leBytes 1 tag ++ leBytes 4 (s.jobid k.job) ++ leBytes 1 k.scope ++ leBytes 8 k.num ++ leBytes 16 g ++ leBytes 1 code ++
    leBytes 8 v

/-- The home's answer to a task: to this package's, or to another's package. -/
def State.barAnswer (s : State) (k : BarKey) (g : Nat) (a : BarAns) : State :=
  let p := g / 2 ^ 64
  if p = s.ownKey then { s with sch := { s.sch with barAns := s.sch.barAns ++ [⟨k, g, a, s.now + s.barWay k⟩] } }
  else s.tellPkg k.job (p / 2048, p % 2048) (s.barPayload 3 k g (ansCode a).1 (ansCode a).2)

/-- The counting records in use at a home. -/
def State.poolUsed (s : State) (k : BarKey) : Nat :=
  (s.sch.bars.filter (fun b => decide (b.key.scope = k.scope ∧ b.key.grp = k.grp) && b.n.isSome)).length

/-- A phase ends: every arrival is notified, and the phase number advances (R205, R213). -/
def State.closePhase (s : State) (b : Bar) (a : BitVec 16 → BarAns) (except : Nat → Bool) : State :=
  (b.who.filter (fun t => !except t)).foldl (fun s t => s.barAnswer b.key t (a b.phase))
    (s.setBar { b with phase := b.phase + 1, n := none, who := [] })

/-- The home decides an arrival (R207).  A `BAR` that finds no free record is tried again at the next tick; its
withdrawal at D + 1 ends that. -/
def State.arrive (s : State) (a : BarArr) : State :=
  let b := s.bar a.key
  if a.n = 0 ∨ (b.n.isSome = true ∧ b.n ≠ some a.n.toNat) then s.barAnswer a.key a.core .mismatch
  else if b.n = none ∧ poolSize a.key.scope ≤ s.poolUsed a.key then
    if a.wait then { s with sch := { s.sch with barArr := s.sch.barArr ++ [{ a with due := s.now + 1 }] } }
    else s.barAnswer a.key a.core .noRecord
  else
    let b := { b with n := some a.n.toNat, who := b.who ++ [a.core] }
    let s := (s.setBar b).barAnswer a.key a.core (.joined b.phase)
    if b.who.length = a.n.toNat then s.closePhase b .completed (fun _ => false) else s

/-- Whether the homes of a job accept anything: not while the job is stopped (R213). -/
def State.homesRun (s : State) (job : Nat) : Bool := decide (s.rs job = 0)

/-- Whether a message that reached a home at `due` is the next one there: in the order they came, the arrivals of a cycle
before its withdrawals (R212). -/
def State.barNext (s : State) (k : BarKey) (due : Nat) (wdr : Bool) : Bool :=
  decide (due ≤ s.now) && s.sch.barArr.all (fun a => decide (a.key ≠ k) || decide (due < a.due) || (!wdr && decide (due = a.due))) &&
    s.sch.barWdr.all (fun w => decide (w.key ≠ k) || decide (due ≤ w.due)) &&
    (wdr || decide ((s.bar k).wdAt ≠ s.now + 1))

/-- `BARRIER_ARRIVAL_AT_HOME`: an arrival on its way reaches its home, which is in this package. -/
def execBarrierArrivalAtHome (a : BarArr) (s : State) : Out :=
  .next (
    if s.homesRun a.key.job && s.sch.barArr.contains a && s.barNext a.key a.due false then
      ({ s with sch := { s.sch with barArr := s.sch.barArr.erase a } }).arrive a
    else s)

/-- The home takes a withdrawal (R212): an open phase's count falls; an arrival that has found no record is no longer
tried; a phase that has completed has already sent its answer. -/
def State.withdraw (s : State) (w : BarWdr) : State :=
  let b := s.bar w.key
  if b.who.contains w.core then
    if w.known ∧ w.phase ≠ b.phase then s
    else
      let who := b.who.erase w.core
      (s.setBar { b with who := who, n := if who.isEmpty then none else b.n, wdAt := s.now + 1 }).barAnswer
        w.key w.core .withdrawn
  else
    match s.sch.barArr.find? (fun a => decide (a.key = w.key ∧ a.core = w.core)) with
    | some a => ({ s with sch := { s.sch with barArr := s.sch.barArr.erase a } }).barAnswer w.key w.core .withdrawn
    | none => s

/-- `BARRIER_WITHDRAWAL_AT_HOME`. -/
def execBarrierWithdrawalAtHome (w : BarWdr) (s : State) : Out :=
  .next (
    if s.homesRun w.key.job && s.sch.barWdr.contains w && s.barNext w.key w.due true then
      ({ s with sch := { s.sch with barWdr := s.sch.barWdr.erase w } }).withdraw w
    else s)

/-! ## Messages from a core -/

def State.sendArrival (s : State) (k : BarKey) (g : Nat) (n : BitVec 32) (wait : Bool) : State :=
  if s.homeHere k then
    { s with sch := { s.sch with barArr := s.sch.barArr ++ [⟨k, g, n, wait, s.now + s.barWay k⟩] } }
  else s.tellPkg k.job (s.homePkg k) (s.barPayload 4 k g (boolNat wait) n.toNat)

/-- The withdrawal of a task's record. -/
def State.sendWithdrawal (s : State) (g : Nat) (r : BarRec) : State :=
  if s.homeHere r.key then
    { s with sch := { s.sch with barWdr := s.sch.barWdr ++ [⟨r.key, g, r.phase, r.known, s.now + s.barWay r.key⟩] } }
  else s.tellPkg r.key.job (s.homePkg r.key) (s.barPayload 5 r.key g (boolNat r.known) r.phase.toNat)

/-- Withdraws every record of core n's task, as `BARX` does (R201): one whose phase has completed goes at once, any
other when the home replies. -/
def State.withdrawAll (s : State) (n : Nat) : State :=
  let c := s.fg n
  let rs := c.bars.filter (fun r => r.ans.isNone)
  (rs.filter (fun r => !r.withdrawn)).foldl (fun s r => s.sendWithdrawal (s.gid c) r)
    (s.setFg n { c with bars := rs.map (fun (r : BarRec) => { r with withdrawn := true }) })

/-- A kill of a task at a home: an open phase that it has joined is closed, and every other arrival of it completes with
HALTED (R213). -/
def State.breakPhase (s : State) (k : BarKey) (g : Nat) : State :=
  let b := s.bar k
  let s := if b.who.contains g then s.closePhase b .broken (fun t => decide (t = g)) else s
  { s with sch := { s.sch with
    barArr := s.sch.barArr.filter (fun a => decide (¬(a.key = k ∧ a.core = g)))
    barWdr := s.sch.barWdr.filter (fun a => decide (¬(a.key = k ∧ a.core = g))) } }

/-- A kill breaks the open phases in which the task holds a record (R213); what is on its way for it is void. -/
def State.breakBars (s : State) (c : Ctx) : State :=
  let g := s.gid c
  let s := c.bars.foldl (fun s r =>
    if s.homeHere r.key then s.breakPhase r.key g
    else s.tellPkg r.key.job (s.homePkg r.key) (s.barPayload 5 r.key g 2 0)) s
  { s with sch := { s.sch with barAns := s.sch.barAns.filter (fun a => decide (¬(a.key.job = c.ident.job ∧ a.core = g))) } }

/-! ## The instructions -/

def Ctx.barRec (c : Ctx) (k : BarKey) : Option BarRec := c.bars.find? (fun r => decide (r.key = k))
def Ctx.dropRec (c : Ctx) (k : BarKey) : Ctx := { c with bars := c.bars.filter (fun r => decide (r.key ≠ k)) }
def Ctx.setRec (c : Ctx) (r : BarRec) : Ctx := { c.dropRec r.key with bars := (c.dropRec r.key).bars ++ [r] }

/-- The count word of a barrier operand. -/
def barN (xa : Word) : BitVec 32 := BitVec.ofNat 32 (wfld xa 63 32)

/-- A waiting `BAR` or `BARW` completes only by its reply. -/
def barTest : Test := fun _ _ _ => none

/-- At D + 1 a waiting `BAR` or `BARW` sends its withdrawal, once (R208, R210); a record that `BARX` is withdrawing needs
none (notes/assumptions/55.md). -/
def barLate (sc : Nat) : Expiry := fun s n w =>
  match (s.fg n).barRec (s.barKey n sc w.a) with
  | none => s.setWait w
  | some r =>
    if w.sent || r.withdrawn then s.setWait w
    else (s.sendWithdrawal (s.gid (s.fg n)) r).setWait { w with sent := true }

/-- `BAR` (R208). -/
def execBar (f : FmtD) (s : State) : Out :=
  .next (s.onCore ((encode64 (.bar f)).getD 0) (fun n =>
    let c := s.fg n
    let w := s.waitOf f (.bar f)
    let k := s.barKey n (f.aux.toNat % 16) w.a
    if (c.barRec k).isSome then s.finishDk n 1 f.st f.x w.pc 5 1
    else if 4 ≤ c.bars.length then s.finishDk n 1 f.st f.x w.pc 5 2
    else
      let s := (s.setFg n { c with bars := c.bars ++ [{ key := k }] }).sendArrival k (s.gid c) (barN w.a) true
      s.beginWait n w barTest (barLate (f.aux.toNat % 16))))

/-- `BARA` (R209). -/
def execBara (f : FmtQ) (s : State) : Out :=
  .next (s.onCore ((encode64 (.bara f)).getD 0) (fun n =>
    let c := s.fg n
    let xa := s.xr f.a
    let k := s.barKey n (f.imm.toNat % 16) xa
    if (c.barRec k).isSome then s.doneQ f (refusal63 1) 4
    else if 4 ≤ c.bars.length then s.doneQ f (refusal63 2) 4
    else
      let s := (s.setFg n { c with bars := c.bars ++ [{ key := k }], baraTo := c.baraTo ++ [(k, false, f.d)] }).sendArrival
        k (s.gid c) (barN xa) false
      s.retire 8 1))

/-- `BARW` (R210). -/
def execBarw (f : FmtD) (s : State) : Out :=
  .next (s.onCore ((encode64 (.barw f)).getD 0) (fun n =>
    let c := s.fg n
    let w := s.waitOf f (.barw f)
    let k := s.barKey n (f.aux.toNat % 16) w.a
    match c.barRec k with
    | none => s.finishDk n 1 f.st f.x w.pc 5 0
    | some r =>
      match r.ans with
      | some (.completed ph) => ((s.setFg n (c.dropRec k)).modFg n (fun c => c.setX f.d (wOf ph.toNat))).finishDk n 1 f.st f.x w.pc 0 0
      | some (.broken ph) => ((s.setFg n (c.dropRec k)).modFg n (fun c => c.setX f.d (wOf ph.toNat))).finishDk n 1 f.st f.x w.pc 3 0
      | _ => s.beginWait n w barTest (barLate (f.aux.toNat % 16))))

/-- `BARX` (R211). -/
def execBarx (f : FmtQ) (s : State) : Out :=
  .next (s.onCore ((encode64 (.barx f)).getD 0) (fun n =>
    let c := s.fg n
    let k := s.barKey n (f.imm.toNat % 16) (s.xr f.a)
    match c.barRec k with
    | none => s.doneQ f 2 2
    | some r =>
      if r.ans.isSome then (s.setFg n (c.dropRec k)).doneQ f 1 2
      else
        let s := s.setFg n { c.setRec { r with withdrawn := true } with baraTo := c.baraTo ++ [(k, true, f.d)] }
        (if r.withdrawn then s else s.sendWithdrawal (s.gid c) r).retire 8 1))

/-! ## Replies (R208 to R212) -/

/-- The waiting `BAR` or `BARW` of a context on a barrier. -/
def State.barWaits (s : State) (n : Nat) (k : BarKey) : Option (FmtD × Wait) :=
  match (s.fg n).wait with
  | some w =>
    match w.instr with
    | .bar f => if s.barKey n (f.aux.toNat % 16) w.a = k then some (f, w) else none
    | .barw f => if s.barKey n (f.aux.toNat % 16) w.a = k then some (f, w) else none
    | _ => none
  | none => none

/-- Writes what a home's reply gives a pending `BARA` of a barrier. -/
def Ctx.putBara (c : Ctx) (k : BarKey) (v : Word) : Ctx :=
  let mine (b : BarKey × Bool × BitVec 5) : Bool := decide (b.1 = k) && !b.2.1
  let c' := (c.baraTo.filter mine).foldl (fun c b => c.setX b.2.2 v) c
  { c' with baraTo := c'.baraTo.filter (fun b => !mine b) }

/-- The same for the pending `BARX`s of a barrier: the first receives the result, and a later one finds no record. -/
def Ctx.putBarx (c : Ctx) (k : BarKey) (v : Word) : Ctx :=
  let mine (b : BarKey × Bool × BitVec 5) : Bool := decide (b.1 = k) && b.2.1
  let c' := ((c.baraTo.filter mine).zipIdx).foldl (fun c b => c.setX b.1.2.2 (if b.2 = 0 then v else 2)) c
  { c' with baraTo := c'.baraTo.filter (fun b => !mine b) }

/-- What a reply makes of the task's record and of a pending `BARA` or `BARX` (R209, R211). -/
def Ctx.barNote (c : Ctx) (k : BarKey) (a : BarAns) : Ctx :=
  match c.barRec k with
  | none => c
  | some r =>
    let ended (c : Ctx) (ph : BitVec 16) : Ctx :=
      if r.withdrawn then (c.dropRec k).putBarx k 1 else c.setRec { r with phase := ph, known := true, ans := some a }
    match a with
    | .joined ph => (c.setRec { r with phase := ph, known := true }).putBara k (wOf ph.toNat)
    | .completed ph => ended c ph
    | .broken ph => ended c ph
    | .withdrawn => (c.dropRec k).putBarx k 0
    | .mismatch => ((c.dropRec k).putBara k (refusal63 3)).putBarx k 2
    | .noRecord => ((c.dropRec k).putBara k (refusal63 4)).putBarx k 2

/-- The status with which a `BAR` or `BARW` that waits for a record ends (R208, R210), and whether the phase number is
written; one whose record `BARX` withdraws, or whose `BARA` is refused, finds no record. -/
def barEnd (withdrawn : Bool) : BarAns → Option (Nat × Option (BitVec 16))
  | .joined _ => none
  | .completed ph => some (if withdrawn then (5, none) else (0, some ph))
  | .broken ph => some (if withdrawn then (5, none) else (3, some ph))
  | .withdrawn => some (if withdrawn then 5 else 1, none)
  | .mismatch => some (5, none)
  | .noRecord => some (5, none)

/-- A reply for a task in the foreground of core n: a waiting `BAR` or `BARW` completes as it arrives (R208). -/
def State.barReplyCore (s : State) (n : Nat) (k : BarKey) (a : BarAns) : State :=
  let wd := (((s.fg n).barRec k).map (fun r => r.withdrawn)).getD false
  let s1 := s.modFg n (fun c => c.barNote k a)
  match s.barWaits n k, barEnd wd a with
  | some (f, w), some (code, ph) =>
    (s1.modFg n (fun c =>
      match ph with
      | some p => (c.dropRec k).setX f.d (wOf p.toNat)
      | none => c.dropRec k)).finishDk n 0 f.st f.x w.pc code 0
  | _, _ => s1

/-- The cycles between a reply's coming and its effect: 2 where it writes a `BARA`'s or `BARX`'s result (R209, R211). -/
def Ctx.barLag (c : Ctx) (k : BarKey) (a : BarAns) : Nat :=
  if (c.barNote k a).baraTo.length < c.baraTo.length then 2 else 0

/-- `BARRIER_REPLY` (R208): the home's first answer to a task reaches it. -/
def execBarrierReply (r : BarReply) (s : State) : Out :=
  .next (
    let s' : State := { s with sch := { s.sch with barAns := s.sch.barAns.erase r } }
    if s.sch.barAns.find? (fun x => decide (x.key = r.key ∧ x.core = r.core)) ≠ some r then s
    else
      match s.coreOf r.key.job r.core with
      | some n =>
        if (s.fg n).stop.isSome ∨ s.now < r.due + (s.fg n).barLag r.key r.ans then s else s'.barReplyCore n r.key r.ans
      | none =>
        match s.yieldOf r.key.job r.core with
        | some i =>
          match s.sch.yielded[i]? with
          | some y =>
            if s.now < r.due + y.ctx.barLag r.key r.ans then s
            else { s' with sch := { s'.sch with
              yielded := setAt s'.sch.yielded i { y with ctx := y.ctx.barNote r.key r.ans } } }
          | none => s
        | none => s)

end Sys2Proof.Machine
end

