-- ==== Sys2Proof/Machine/Launch.lean ====
section
/-! DEFINITION. Launch descriptors and their checks, timed domains, launch queues, division into shares,
named-task slots (R190 to R193, R203, R363, R369, R481). -/

namespace Sys2Proof.Machine

/-! ## Descriptors (R190, R191) -/

/-- A descriptor read from the number its 64 bytes hold. -/
def descOf (r : Nat) : Desc :=
  let ctl := fld r 191 160
  { entry := wOf (fld r 47 0), args := wOf (fld r 127 64), count := fld r 159 128, prio := ctl % 4,
    timed := ctl.testBit 2, sup := ctl.testBit 3, pers := ctl.testBit 4, img := ctl.testBit 5,
    span := fld ctl 15 12, policy := BitVec.ofNat 14 (fld ctl 29 16), tdom := fld r 199 192,
    edl := wOf (fld r 319 256), done := wOf (fld r 383 320), dep := wOf (fld r 447 384), sbud := fld r 479 448 }

/-- The 64 bytes of a descriptor, as a number. -/
def descNat (d : Desc) : Nat :=
  d.entry.toNat + d.args.toNat * 2 ^ 64 + d.count * 2 ^ 128 +
    (d.prio + boolNat d.timed * 4 + boolNat d.sup * 8 + boolNat d.pers * 16 + boolNat d.img * 32 +
      d.span * 2 ^ 12 + d.policy.toNat * 2 ^ 16) * 2 ^ 160 +
    d.tdom * 2 ^ 192 + d.edl.toNat * 2 ^ 256 + d.done.toNat * 2 ^ 320 + d.dep.toNat * 2 ^ 384 + d.sbud * 2 ^ 448

/-- Whether a reserved field of a descriptor is not 0. -/
def descRsv (r : Nat) : Bool :=
  decide (fld r 63 48 ≠ 0) || decide (fld r 191 190 ≠ 0) || decide (fld r 171 166 ≠ 0) || decide (fld r 255 200 ≠ 0) ||
    decide (fld r 383 337 ≠ 0) || decide (fld r 511 480 ≠ 0)

/-- A dependence counter reference is well formed (R94). -/
def depOk (d : Word) : Bool :=
  decide (wfld d 63 48 = 0) && decide (wfld d 31 27 = 0) && decide (wfld d 26 16 ≤ 1056) && decide (wfld d 47 32 ≠ 0)

/-! ## Timed domains (R369) -/

/-- Whether a domain holds a core of a cluster. -/
def Dom.hasCl (d : Dom) (cl : Nat) : Bool :=
  if d.kind = 0 then d.clm.testBit cl else decide (d.clm % 16 = cl) && decide (d.qm ≠ 0)

def State.dom (s : State) (job num : Nat) : Option Dom :=
  s.sch.doms.find? (fun d => decide (d.num = num ∧ d.job = job))

/-- The clusters of this package that a span names. -/
def spanClusters (span grp : Nat) : List Nat :=
  if span = 3 then [grp] else if span = 4 then [2 * grp, 2 * grp + 1] else List.range 16

/-- Who launches: the job, whether in a supervisor context, the priority, and the group. -/
structure Issuer where
  job : Nat
  sup : Bool
  prio : Nat
  grp : Nat
  one : Bool := false
  hamper : Bool := false
  deriving DecidableEq, Repr

/-- A package put in its place, in ascending `podid` and `pkgid`. -/
def insertPkg (p : Nat × Nat) : List (Nat × Nat) → List (Nat × Nat)
  | [] => [p]
  | q :: r => if p.1 < q.1 ∨ (p.1 = q.1 ∧ p.2 ≤ q.2) then p :: q :: r else q :: insertPkg p r

/-- The packages of a span, in the order of R363. -/
def State.spanPkgs (s : State) (job span : Nat) : List (Nat × Nat) :=
  let own := (s.podid.toNat, s.pkgid)
  if span ≤ 5 then [own]
  else
    let ps := (s.job job).pkgs
    ((if ps.contains own then ps else own :: ps).filter (fun p => decide (span = 7 ∨ p.1 = own.1))).foldr insertPkg []

/-- The first check of R192 that fails; no span from 3 to 7 is wider than the job, whose own packages the two widest name
(R187).  What domains hold on other packages is a free value (notes/assumptions/30.md).  (R355 adds a group that does not exist to check 3). -/
def State.descCheck (s : State) (r : Nat) (u : Issuer) : Option Nat :=
  let d := descOf r
  let far (p : Nat × Nat) : Bool := decide (p ≠ (s.podid.toNat, s.pkgid)) &&
    decide (Config.farClusters (s.jobid u.job) d.tdom (p.1 * 2048 + p.2) s.now ≠ 0)
  let o := wfld d.done 15 0
  if descRsv r || d.entry.getLsbD 0 || decide (8192 < d.sbud ∨ d.sbud % 128 ≠ 0) ||
      (d.done.getLsbD 16 && decide (s.ctrLast u.job < s.ctrBase u.job + o)) then some 1
  else if d.count = 0 ∨ 2 ^ 31 < d.count ∨ (u.one = true ∧ d.count ≠ 1) then some 2
  else if d.span < 3 ∨ 7 < d.span ∨ (u.hamper = true ∧ d.span = 4 ∧ 7 < u.grp) then some 3
  else if d.sup && !u.sup then some 4
  else if decide (u.prio < d.prio) && !u.sup then some 5
  else if (if d.timed = false then decide (d.tdom ≠ 0)
      else !(match s.dom u.job d.tdom with
        | some m => (spanClusters d.span u.grp).any m.hasCl
        | none => false) && !(s.spanPkgs u.job d.span).any far) then some 6
  else if d.dep ≠ 0 ∧ depOk d.dep = false then some 7
  else none

/-! ## Launch queues (R200, R481) -/

def State.leafQ (s : State) (cl : Nat) : List (Nat × Nat) := tget [] s.sch.leafQ cl

def State.launch (s : State) (job num : Nat) : Option Launch :=
  s.sch.launches.find? (fun l => decide (l.job = job ∧ l.num = num))

def State.setLaunch (s : State) (l : Launch) : State :=
  { s with sch := { s.sch with
    launches := s.sch.launches.map (fun x => if x.job = l.job ∧ x.num = l.num then l else x) } }

/-- The number of the job's next launch: one count over its packages, of which a free value says how many the others have
taken since (R200; notes/assumptions/30.md). -/
def State.launchNum (s : State) (job : Nat) : Nat :=
  let c := (s.job job).launches
  if (s.spanPkgs job 7).length = 1 then c else (c + s.nextFree.1.toNat % 2 ^ 31) % 2 ^ 32

/-- Takes a queue entry for a launch: its number, from the job's count; none where the queue is full. -/
def State.accept (s : State) (job grp : Nat) (d : Desc) : Option (Nat × State) :=
  let num := s.launchNum job
  let s := if (s.spanPkgs job 7).length = 1 then s else s.nextFree.2
  let l : Launch := { job := job, num := num, desc := d, grp := grp, rdy := s.now }
  let s1 := s.setJob job { s.job job with launches := (num + 1) % 2 ^ 32 }
  let s2 : State := { s1 with sch := { s1.sch with launches := s1.sch.launches ++ [l] } }
  if d.span = 3 then
    if 64 ≤ (s.leafQ grp).length then none
    else some (num, { s2 with sch := { s2.sch with leafQ := tset [] s2.sch.leafQ grp (s.leafQ grp ++ [(job, num)]) } })
  else if 256 ≤ s.sch.globQ.length then none
  else some (num, { s2 with sch := { s2.sch with globQ := s2.sch.globQ ++ [(job, num)] } })

/-! ## Division (R363) -/

/-- The shares of N indices over k units: the first index and the size of each. -/
def shares (n k : Nat) : List (Nat × Nat) :=
  (List.range k).map (fun i => (i * (n / k) + min i (n % k), n / k + boolNat (decide (i < n % k))))

/-- Holds a range unplaced at a cluster's leaf controller. -/
def Launch.give (l : Launch) (cl lo n rdy : Nat) : Launch :=
  if n = 0 then l
  else { l with ranges := l.ranges ++ [⟨cl, lo, n, rdy⟩], assigned := tset 0 l.assigned cl (tget 0 l.assigned cl + n) }

/-- Divides a range of this package over clusters. -/
def Launch.spread (l : Launch) (lo n : Nat) (cls : List Nat) : Launch :=
  ((shares n cls.length).zip cls).foldl (fun l x => l.give x.2 (lo + x.1.1) x.1.2 l.rdy) l

/-- Divides a range over the dies of this package, and each die's share over its two clusters. -/
def Launch.overDies (l : Launch) (lo n : Nat) (dies : List Nat) : Launch :=
  ((shares n dies.length).zip dies).foldl (fun l x => l.spread (lo + x.1.1) x.1.2 [2 * x.2, 2 * x.2 + 1]) l

/-- The control payload that hands a share to another package's global scheduler, with the `ccyc` at which its
launch was accepted (R365). -/
def sharePayload (jid num lo n : Nat) (rdy : Word) (d : Desc) : List Byte :=
  [6] ++ leBytes 4 jid ++ leBytes 4 num ++ leBytes 4 lo ++ leBytes 4 n ++ leBytes 8 rdy.toNat ++ leBytes 64 (descNat d)

/-- Hands indices to another package's scheduler. -/
def State.handShare (s : State) (l : Launch) (p : Nat × Nat) (lo n : Nat) : State :=
  if n = 0 then s else s.tellPkg l.job p (sharePayload (s.jobid l.job) l.num lo n (wOf l.rdy + s.slew) l.desc)

/-- The clusters that take part in a timed launch, in order, each with its package: those that hold cores of its domain
(R363). -/
def State.timedUnits (s : State) (l : Launch) : List ((Nat × Nat) × Nat) :=
  ((s.spanPkgs l.job l.desc.span).map (fun p =>
    ((if p = (s.podid.toNat, s.pkgid) then
        match s.dom l.job l.desc.tdom with
        | some m => (spanClusters l.desc.span l.grp).filter m.hasCl
        | none => []
      else (List.range 16).filter (fun c =>
        (Config.farClusters (s.jobid l.job) l.desc.tdom (p.1 * 2048 + p.2) s.now).getLsbD c)).map (fun c => (p, c))))).flatten

/-- Divides a launch over units, each a package and a cluster or a die there: this package's shares go to its clusters by
`put`, and each other package receives its own together. -/
def State.divideOver (s : State) (l : Launch) (us : List ((Nat × Nat) × Nat)) (put : Launch → Nat → Nat → Nat → Launch) : State :=
  let sh := (shares l.desc.count us.length).zip us
  (s.spanPkgs l.job l.desc.span).foldl (fun s p =>
    let mine := sh.filter (fun x => decide (x.2.1 = p))
    if p = (s.podid.toNat, s.pkgid) then
      s.setLaunch (mine.foldl (fun l x => put l x.1.1 x.1.2 x.2.2) l)
    else s.handShare l p ((mine.head?.map (fun x => x.1.1)).getD 0) ((mine.map (fun x => x.1.2)).sum)) s

/-- Divides a launch: this package's share over its dies, or the clusters of a timed domain, the others handed over. -/
def State.divide (s : State) (l : Launch) : State :=
  if l.desc.timed then s.divideOver l (s.timedUnits l) (fun l lo n c => l.give c lo n l.rdy)
  else if l.desc.span = 4 then s.setLaunch (l.spread 0 l.desc.count [2 * l.grp, 2 * l.grp + 1])
  else
    s.divideOver l (((s.spanPkgs l.job l.desc.span).map (fun p => (List.range 8).map (fun d => (p, d)))).flatten)
      (fun l lo n d => l.spread lo n [2 * d, 2 * d + 1])

/-! ## Named-task slots (R203) -/

def slotKey (cl k : Nat) : Nat := cl * 4096 + k % 4096
def State.slot (s : State) (cl k : Nat) : NSlot := tget {} s.sch.slots (slotKey cl k)
def State.setSlot (s : State) (cl k : Nat) (v : NSlot) : State :=
  { s with sch := { s.sch with slots := tset {} s.sch.slots (slotKey cl k) v } }

/-- Adds to `pend`, holding it at 65,535; the second part says whether the excess was discarded. -/
def NSlot.addPend (v : NSlot) (a : Nat) : NSlot × Bool :=
  if 65535 < v.pend + a then ({ v with pend := 65535 }, true) else ({ v with pend := v.pend + a }, false)

/-- A decrement by a: the slot after, and whether count overflow is raised. -/
def NSlot.dec (v : NSlot) (a now : Nat) : NSlot × Bool :=
  match v.st with
  | .armed =>
    if a < v.cnt then ({ v with cnt := v.cnt - a }, false)
    else ({ v with pend := a - v.cnt, cnt := 0, st := .ready, rdy := now }, false)
  | _ => v.addPend a

/-- `TARM` with count n at a FREE slot. -/
def NSlot.arm (v : NSlot) (n now job : Nat) (d : Desc) : NSlot :=
  let v := { v with desc := d, job := job }
  if v.pend < n then { v with cnt := n - v.pend, pend := 0, st := .armed }
  else { v with cnt := 0, pend := v.pend - n, st := .ready, rdy := now }

/-- Decreases the counter of a `dep` reference of this package. -/
def State.decDep (s : State) (cl slot amt : Nat) : State × Bool :=
  let r := (s.slot cl slot).dec amt s.now
  (s.setSlot cl slot r.1, r.2)

/-- Sends the decrement that a `dep` reference names: here, or to another package of the pod. -/
def State.sendDep (s : State) (dep : Word) : State :=
  if dep = 0 then s
  else
    let p := wfld dep 26 16
    if p = s.pkgid then
      { s with sch := { s.sch with depOut := s.sch.depOut ++ [{ unit := wfld dep 15 12, idx := wfld dep 11 0, amt := wfld dep 47 32, src := s.pkgid }] } }
    else s.inject 6 p 0 3 0 dep [1]

/-- A slot of a package, as a `dep` reference names it (R203). -/
def pkgSlot (pkg cl slot : Nat) : Nat := pkg * 2 ^ 16 + cl * 2 ^ 12 + slot % 4096

/-- Takes the first update of a counter by an amount out of those on their way: the updates of one issuer to one counter
are applied in the order they were issued (R277), so none of that issuer's may stand before it; `seen` are the issuers met. -/
def takeSig (unit idx amt : Nat) : List Sig → List (Nat × Nat) → Option (Sig × List Sig)
  | [], _ => none
  | x :: r, seen =>
    let mine := decide (x.unit = unit ∧ x.idx = idx)
    if mine && decide (x.amt = amt) && !seen.contains (x.src, x.mid) then some (x, r)
    else (takeSig unit idx amt r (if mine then (x.src, x.mid) :: seen else seen)).map (fun y => (y.1, x :: y.2))

/-- What a target answers to a signal of another package's copy engine: 0 done, 3 refused with a cause, 4 overflow, 7 an
overflow of its dependence counter (R203, R325) (notes/assumptions/36.md). -/
def State.answerSig (s : State) (x : Sig) (code v : Nat) : State :=
  if x.mid / 2 ^ 13 = 1 ∧ x.src ≠ s.pkgid then s.inject 5 x.src x.mid 3 0 0 (leBytes 8 v ++ leBytes 1 code) else s

/-- `DEP_COUNTER_DECREMENT`: a decrement on its way reaches its slot.  Count overflow is raised to the packet that issued
it; one that no engine issued, a launch's or a collective's, is an event. -/
def execDepCounterDecrement (cl slot amt : Nat) (s : State) : Out :=
  .next (
    match takeSig cl slot amt s.sch.depOut [] with
    | none => s
    | some (x, rest) =>
      let r := ({ s with sch := { s.sch with depOut := rest } }).decDep cl slot amt
      if r.2 = false then r.1
      else if x.mid = 0 then r.1.event 0x07 (wOf (slotKey cl slot)) 0 []
      else r.1.answerSig x 7 (2 ^ 32 * amt + pkgSlot s.pkgid cl slot))

end Sys2Proof.Machine
end

