-- ==== Sys2Proof/Machine/Mangle.lean ====
section
/-! DEFINITION. The Mangle: matrix multiply, tiles, loads and drains, the Hadamard pass, codebooks and the
4-bit binding (R26, R52, R64 to R76, R161 to R185).  In the view of the first part a command reads and writes at its
start; beside its sequencer it reads and writes cycle by cycle, as R172, R177 and R178 lay down
(notes/assumptions/22.md). -/

namespace Sys2Proof.Machine

/-! ## How the Mangle sums (R69 to R76) -/

def f32 : Fmt := fmtOf 0

/-- `rne32` as a pattern: round to nearest even, with no flag (R69, R72). -/
def rneBits (x : Val) : Nat :=
  match x with
  | .nan _ _ => 0x7FC00000
  | _ => (enc f32 x 0 false {}).1

/-- `dec(FP32, rne32(x))`. -/
def rneVal (x : Val) : Val := dec f32 (rneBits x)

def mul' (x y : Val) : Val := (fmul x y {}).1
def add' (x y : Val) : Val := (fadd x y 0 {}).1

/-- The larger of two binary exponents, of those non-zero finite products that have one. -/
def topLog (p : Val) (a : Option Int) : Option Int :=
  match p with
  | .fin _ m e _ => if m = 0 then a else some (match a with | some k => max k (magLog m e) | none => magLog m e)
  | _ => a

/-- One product, truncated toward zero to a multiple of 2^k. -/
def truncUnits (k : Int) (p : Val) : Int :=
  match p with
  | .fin s m e st =>
    let n : Int := ((scaleTo m e st k).1 : Nat)
    if s then -n else n
  | _ => 0

/-- `bsum` (R70). -/
def bsum (ps : List Val) : Val :=
  let pos := ps.any (fun p => p.isInf && !p.sign)
  let neg := ps.any (fun p => p.isInf && p.sign)
  if ps.any Val.isNan || (pos && neg) then quietNan
  else if pos then .inf false
  else if neg then .inf true
  else
    match ps.foldr topLog none with
    | none => .fin (ps.all Val.sign) 0 0 false
    | some emax =>
      let t := ps.foldl (fun a p => a + truncUnits (emax - 50) p) 0
      .fin (decide (t < 0)) t.natAbs (emax - 50) false

/-- The sum over k of H[j][k] · x[k], exact (R74, R76). -/
def hsum (x : List Val) (j : Nat) : Val :=
  ((x.zip (List.range x.length)).foldl
    (fun a p => some (match a with
      | none => if popGo (j &&& p.2) 6 % 2 = 1 then p.1.negate else p.1
      | some v => add' v (if popGo (j &&& p.2) 6 % 2 = 1 then p.1.negate else p.1))) none).getD quietNan

/-- The normalisation constant of an order (R75). -/
def hconst (n : Nat) : Val := dec f32 (if n = 16 then 0x3E800000 else if n = 32 then 0x3E3504F3 else 0x3E000000)

/-- Element j of `hpass(x, n)` (R76). -/
def hpassAt (x : List Val) (n j : Nat) : Nat :=
  let t := hsum x j
  rneBits (mul' (if t.isZero then .fin false 0 0 false else t) (hconst n))

/-! ## Tiles (R26, R161) -/

def tileKey (t i j : Nat) : Nat := 2048 * t + 32 * i + j

/-- The rows and columns of a tile's region; none when it is unconfigured. -/
def Ctx.shape (c : Ctx) (t : Nat) : Option (Nat × Nat) :=
  let v := tget 0 c.regs.tcfg t
  if v = 0 then none else some (wfld v 12 6, wfld v 5 0)

def Ctx.tileAt (c : Ctx) (t i j : Nat) : Nat := (tget 0 c.regs.tile (tileKey t i j)).toNat

/-- The positions of a region, row by row. -/
def region (rows cols : Nat) : List (Nat × Nat) :=
  ((List.range rows).map (fun i => (List.range cols).map (fun j => (i, j)))).flatten

/-- Writes elements of a tile; each becomes clean, or poisoned (R244).  The tile becomes dirty (R222). -/
def Ctx.putTile (c : Ctx) (t : Nat) (l : List (Nat × Nat × Nat)) (pz : Bool) : Ctx :=
  { c with
    tdirty := c.tdirty ||| (1#8 <<< t)
    regs := { c.regs with
      tile := l.foldl (fun m x => tset 0 m (tileKey t x.1 x.2.1) (BitVec.ofNat 32 x.2.2)) c.regs.tile
      tilePois := l.foldl (fun m x => tset false m (tileKey t x.1 x.2.1) pz) c.regs.tilePois } }

/-- Writes f over positions of a tile. -/
def Ctx.fillTile (c : Ctx) (t : Nat) (l : List (Nat × Nat)) (pz : Bool) (f : Nat → Nat → Nat) : Ctx :=
  c.putTile t (l.map (fun x => (x.1, x.2, f x.1 x.2))) pz

/-- Whether one of some elements of a tile is poisoned. -/
def Ctx.tileBad (c : Ctx) (t : Nat) (l : List (Nat × Nat)) : Bool :=
  l.any (fun x => tget false c.regs.tilePois (tileKey t x.1 x.2))

/-- `cval` of a poisoned element (R244). -/
def tilePoison : Try := .fault 0x0A (wOf (2 ^ 63 + 3))

/-- A start check that fails: cause 0x0E, with the command word (R166). -/
def badStart (q : QEntry) : Try := .fault 0x0E q.word

/-- A tile command that has its shape: unconfigured tile otherwise (R162). -/
def withTile (t : Nat) (f : Nat → Nat → Eff) : Eff := fun s n q =>
  match (s.fg n).shape t with
  | none => .fault 0x03 q.word
  | some (r, c) => f r c s n q

def tilePend (t : Nat) : Pending := { eng := .mt, kind := 4, dst := t }
def plainPend : Pending := { eng := .mt, kind := 0 }

/-- A command that writes elements of a tile. -/
def runTile (s : State) (n t : Nat) (l : List (Nat × Nat)) (pz : Bool) (f : Nat → Nat → Nat) : Try :=
  .run (s.modFg n (fun c => c.fillTile t l pz f)) (tilePend t)

/-! ## Operands in scratchpad -/

/-- Memory as a command reads it: k bytes at an offset, as a number. -/
abbrev Pad := Nat → Nat → Nat

/-- w bits at a bit position within the bytes from an offset upward. -/
def padBits (rd : Pad) (off bit w : Nat) : Nat :=
  rd (off + bit / 8) ((bit % 8 + w + 7) / 8) / 2 ^ (bit % 8) % 2 ^ w

def Ctx.bfmt (c : Ctx) (bank : Nat) : Word := tget 0 c.csr.bfmt (bank % 16)
def fmtTy (v : Word) : Nat := v.toNat % 32
def fmtMx (v : Word) : Nat := wfld v 11 10
def fmtCb (v : Word) : Nat := wfld v 15 12
def fmtSro (v : Word) : Nat := wfld v 31 19

/-- The fields of a bank format that count: the codebook of `.cb4`, and the scale region of a separate layout (R218). -/
def fmtKey (v : Word) : Nat × Nat × Nat × Nat :=
  (fmtTy v, fmtMx v, if fmtTy v = 8 then fmtCb v else 0, if fmtMx v = 2 then fmtSro v else 0)

/-- The fields of an `MMA`'s operands and what follows from them (R167 to R169). -/
structure MmaOp where
  fa : Nat
  fb : Nat
  ao : Nat
  bo : Nat
  t : Nat
  k : Nat
  sc : Bool

def mmaOp (f : FmtM) (xa xb : Word) : MmaOp :=
  { fa := f.fa.toNat, fb := f.fb.toNat, ao := wfld xa 18 0, bo := wfld xa 50 32, t := wfld xb 50 32,
    k := wfld xb 15 0, sc := decide (2 ≤ f.fm.toNat) }

/-- kstep of an operand class (R164). -/
def kstep (ty : Nat) : Nat := if ty = 1 ∨ ty = 2 then 1 else if ty = 7 ∨ ty = 8 then 4 else 2

def MmaOp.steps (o : MmaOp) : Nat := (o.k + kstep o.fa - 1) / kstep o.fa
def MmaOp.nb (o : MmaOp) : Nat := (o.k + 31) / 32

/-- The conditions of R170, but for the binding. -/
def Ctx.mmaBad (c : Ctx) (o : MmaOp) : Bool :=
  let ab := o.ao / 2 ^ 15
  let bb := o.bo / 2 ^ 15
  let tb := o.t / 2 ^ 15
  decide (o.k = 0) || decide (o.ao % 64 ≠ 0 ∨ ab % 2 = 1) || decide (32768 < o.ao % 32768 + 64 * o.steps) ||
    decide (o.bo % 64 ≠ 0 ∨ bb / 4 = ab / 4) || decide (32768 < o.bo % 32768 + 64 * o.steps) ||
    (o.sc && decide (o.t % 64 ≠ 0 ∨ 32768 < o.t % 32768 + 384 * o.nb ∨ tb = ab ∨ tb = ab + 1 ∨ tb = bb)) ||
    decide (fmtTy (c.bfmt ab) ≠ o.fa ∨ fmtTy (c.bfmt (ab + 1)) ≠ o.fa ∨ fmtTy (c.bfmt bb) ≠ o.fb)

/-- The codebook that a side records: 0 for a side that has none (R184). -/
def sideCb (ty k : Nat) : Nat := if ty = 8 then k else 0

/-- Both operands 4-bit, and the binding absent or another (R170). -/
def Ctx.unbound (c : Ctx) (o : MmaOp) : Bool :=
  let ab := o.ao / 2 ^ 15
  let want (a : Nat) : Option (Nat × Nat × Nat × Nat) :=
    some (o.fa, sideCb o.fa (fmtCb (c.bfmt a)), o.fb, sideCb o.fb (fmtCb (c.bfmt (o.bo / 2 ^ 15))))
  decide (kstep o.fa = 4) && (decide (c.regs.bind ≠ want ab) || decide (c.regs.bind ≠ want (ab + 1)))

/-- The code of A row r at k, and of B column c at k (R167). -/
def aCode (rd : Pad) (o : MmaOp) (r k : Nat) : Nat :=
  let ks := kstep o.fa
  let w := packWidth (BitVec.ofNat 5 o.fa)
  padBits rd (o.ao + r / 32 * 32768 + 64 * (k / ks)) ((r % 32 * ks + k % ks) * w) w

def bCode (rd : Pad) (o : MmaOp) (c k : Nat) : Nat :=
  let ks := kstep o.fa
  let w := packWidth (BitVec.ofNat 5 o.fb)
  padBits rd (o.bo + 64 * (k / ks)) ((c * ks + k % ks) * w) w

/-- A product: exact, or the entry of the bound table (R69, R73). -/
def prodOf (four : Bool) (x y : Val) : Val := if four then rneVal (mul' x y) else mul' x y

/-- The products of block q of element (i, j): those of k from 32·q, 32 at most (R69); `mxElem` gives the value of a
code, from the codebook that the binding records for its side (R66, R171). -/
def Ctx.blockProds (c : Ctx) (rd : Pad) (o : MmaOp) (i j q : Nat) : List Val :=
  let b := c.regs.bind.getD (0, 0, 0, 0)
  let four := decide (kstep o.fa = 4)
  ((List.range (min 32 (o.k - 32 * q))).map (fun m =>
    let k := 32 * q + m
    prodOf four (mxElem o.fa (c.codebook b.2.1) (aCode rd o i k)) (mxElem o.fb (c.codebook b.2.2.2) (bCode rd o j k))))

/-- The scale of A row r or of B column c for block q (R168). -/
def scaleA (rd : Pad) (o : MmaOp) (r q : Nat) : Val :=
  if o.sc then s24dec (rd (o.t + 4 * (64 * q + r)) 3) else s24dec 0x3F8000
def scaleB (rd : Pad) (o : MmaOp) (c q : Nat) : Val :=
  if o.sc then s24dec (rd (o.t + 256 * o.nb + 4 * (32 * q + c)) 3) else s24dec 0x3F8000

/-- The accumulator of element (i, j) after block q (R69, R171). -/
def Ctx.blockAcc (c : Ctx) (rd : Pad) (o : MmaOp) (i j q : Nat) (acc : Val) : Val :=
  rneVal (add' acc (rneVal (mul' (bsum (c.blockProds rd o i j q)) (mul' (scaleA rd o i q) (scaleB rd o j q)))))

/-- The accumulator after blocks q and up, m of them. -/
def Ctx.accGo (c : Ctx) (rd : Pad) (o : MmaOp) (i j : Nat) : Nat → Nat → Val → Val
  | 0, _, acc => acc
  | m + 1, q, acc => Ctx.accGo c rd o i j m (q + 1) (c.blockAcc rd o i j q acc)

/-- The new value of element (i, j) (R171). -/
def State.mmaEl (s : State) (n : Nat) (o : MmaOp) (acc : Val) (i j : Nat) : Nat :=
  rneBits ((s.fg n).accGo (s.spadNum n) o i j o.nb 0 acc)

/-- A line that the `MMA` reads is poisoned (R244). -/
def State.mmaPois (s : State) (n : Nat) (o : MmaOp) : Bool :=
  s.spadPoison n o.ao (64 * o.steps) || s.spadPoison n (o.ao + 32768) (64 * o.steps) ||
    s.spadPoison n o.bo (64 * o.steps) || (o.sc && s.spadPoison n o.t (384 * o.nb))

/-- The issue interval of an `MMA` (R185). -/
def MmaOp.gap (o : MmaOp) : Nat := o.steps + (if o.sc then 6 else 0)

/-! ### The reads of an `MMA`, cycle by cycle (R172, R174, R381) -/

/-- The operands of a command that goes on over its interval, as its entry holds them (R413). -/
def workVal (q : QEntry) : VReg := BitVec.ofNat 1024 (q.word.toNat + q.xa.toNat * 2 ^ 64 + q.xb.toNat * 2 ^ 128)
def Pending.wWord (p : Pending) : Word := p.val.setWidth 64
def Pending.wXa (p : Pending) : Word := (p.val >>> 64).setWidth 64
def Pending.wXb (p : Pending) : Word := (p.val >>> 128).setWidth 64

/-- The steps that a block of 32 k takes, and the cycles before the first step. -/
def MmaOp.bs (o : MmaOp) : Nat := 32 / kstep o.fa
def MmaOp.lead (o : MmaOp) : Nat := if o.sc then 6 else 0

/-- The banks that an `MMA` leases (R172). -/
def MmaOp.banks (o : MmaOp) : List Nat :=
  [o.ao / 2 ^ 15, o.ao / 2 ^ 15 + 1, o.bo / 2 ^ 15] ++ (if o.sc then [o.t / 2 ^ 15] else [])

/-- The operands of a continued `MMA`. -/
def Pending.mma (p : Pending) : Option MmaOp :=
  match decode64 p.wWord 0 with
  | some (.mmaAcc f) => some (mmaOp f p.wXa p.wXb)
  | some (.mmaOvw f) => some (mmaOp f p.wXa p.wXb)
  | some (.mmaSacc f) => some (mmaOp f p.wXa p.wXb)
  | some (.mmaSovw f) => some (mmaOp f p.wXa p.wXb)
  | _ => none

/-- The lines of step st. -/
def MmaOp.stepLines (o : MmaOp) (st : Nat) : List Nat := [o.ao + 64 * st, o.ao + 32768 + 64 * st, o.bo + 64 * st]

/-- The six lines of block q's scales, in the order of their reads. -/
def MmaOp.scaleLine (o : MmaOp) (q m : Nat) : Nat :=
  if m < 4 then o.t + 256 * q + 64 * m else o.t + 256 * o.nb + 128 * q + 64 * (m - 4)

/-- The scale line that cycle `pos` of the command reads: those of a block in the six cycles before its first step. -/
def MmaOp.scaleAt (o : MmaOp) (pos : Nat) : List Nat :=
  if o.sc ∧ pos / o.bs < o.nb ∧ pos % o.bs < 6 then [o.scaleLine (pos / o.bs) (pos % o.bs)] else []

/-- Reads lines of core n's scratchpad into what a command holds. -/
def State.snapLines (s : State) (n : Nat) (p : Pending) (l : List Nat) : Pending :=
  l.foldl (fun p a => { p with
    snap := tset 0 p.snap (a / 64) (BitVec.ofNat 512 (s.spadNum n a 64)), pz := p.pz || s.spadPoison n a 64 }) p

/-- What a command holds, as memory. -/
def snapPad (t : Tbl (BitVec 512)) : Pad := fun off k => (tget 0 t (off / 64)).toNat / 2 ^ (8 * (off % 64)) % 2 ^ (8 * k)

/-- The sum goes on by block q: into the tile, which holds the running result. -/
def State.mmaBlock (s : State) (n : Nat) (p : Pending) (o : MmaOp) (ovw : Bool) (q : Nat) : State × Pending :=
  let c := s.fg n
  match c.shape p.dst with
  | none => (s, p)
  | some (rows, cols) =>
    let first := ovw && decide (q = 0)
    let pz := p.pz || (!first && c.tileBad p.dst (region rows cols))
    let new (i j : Nat) : Nat :=
      rneBits (c.blockAcc (snapPad p.snap) o i j q (if first then .fin false 0 0 false else dec f32 (c.tileAt p.dst i j)))
    let next := (List.range 6).map (fun m => o.scaleLine (q + 1) m / 64)
    (s.modFg n (fun c => c.fillTile p.dst (region rows cols) pz new),
      { p with pz := pz, snap := p.snap.filter (fun x => o.sc && next.contains x.1) })

/-! ### The ramp limiter's count (R373) -/

/-- The activity that a window ends with: dummy steps bring it up to its lower limit. -/
def Core.windowEnd (k : Core) : Nat := max k.rampCur (k.rampPrev - 131)

/-- The limiter of a core in window w: the windows since the last one counted held no step, and end at their lower
limits. -/
def Core.toWindow (k : Core) (w : Nat) : Core :=
  if w ≤ k.rampWin then k
  else { k with rampPrev := k.windowEnd - 131 * (w - k.rampWin - 1), rampCur := 0, rampWin := w }

/-- The number of the present window. -/
def State.rampWindow (s : State) : Nat := s.ccyc.toNat / 1050

/-- A cycle of core n runs a step of an `MMA`: outside timed domains it counts in its window. -/
def State.rampStep (s : State) (n : Nat) : State :=
  if (s.fg n).ident.desc.timed then s
  else
    let k := (s.core n).toWindow s.rampWindow
    s.setCore n { k with rampCur := k.rampCur + 1 }

/-- Reads step st, and at the end of its block sums the block. -/
def State.mmaStep (s0 : State) (n : Nat) (p : Pending) (o : MmaOp) (ovw : Bool) (st : Nat) : State × Pending :=
  let s := s0.rampStep n
  let p := { s.snapLines n p (o.stepLines st) with step := st + 1, work := decide (st + 1 < o.steps) }
  if (st + 1) % o.bs = 0 ∨ st + 1 = o.steps then s.mmaBlock n p o ovw (st / o.bs) else (s, p)

/-- A cycle of a running `MMA`. -/
def State.mmaCycle (s : State) (n : Nat) (p : Pending) (o : MmaOp) (ovw : Bool) : State × Pending :=
  let p1 := s.snapLines n p (o.scaleAt p.pos)
  let p2 := { p1 with pos := p.pos + 1 }
  let st := p.pos - o.lead
  if o.lead ≤ p.pos ∧ p.step ≤ st ∧ st < o.steps then s.mmaStep n p2 o ovw st else (s, p2)

/-- A freeze lets an `MMA` finish its block of 32 k; one that has read no step of a block begins none (R381). -/
def mmaDrain (n : Nat) (o : MmaOp) (ovw : Bool) : Nat → State × Pending → State × Pending
  | 0, x => x
  | k + 1, x =>
    if x.2.step % o.bs = 0 ∨ o.steps ≤ x.2.step then x else mmaDrain n o ovw k (x.1.mmaStep n x.2 o ovw x.2.step)

/-- `MMA` (R166 to R172): `ovw` starts each element at +0. -/
def mmaEff (f : FmtM) (ovw : Bool) : Eff := withTile f.t.toNat (fun rows cols s n q =>
  let c := s.fg n
  let o := mmaOp f q.xa q.xb
  let t := f.t.toNat
  let p : Pending := { eng := .mt, kind := 5, dst := t, lease := o.gap, banks := o.banks, val := workVal q }
  if c.mmaBad o || c.unbound o then badStart q
  else if !ovw && c.tileBad t (region rows cols) then tilePoison
  else if s.lockstep then
    let new (i j : Nat) : Nat :=
      s.mmaEl n o (if ovw then .fin false 0 0 false else dec f32 (c.tileAt t i j)) i j
    .run (s.modFg n (fun c => c.fillTile t (region rows cols) (s.mmaPois n o) new)) p
  else .run s { p with work := true })

/-! ## Shape and moves (R175, R176) -/

/-- `MZERO`. -/
def mzeroEff (f : FmtM) : Eff := withTile f.t.toNat (fun rows cols s n _ =>
  runTile s n f.t.toNat (region rows cols) false (fun _ _ => 0))

/-- `MCFG`: the shape, and +0 everywhere. -/
def mcfgEff (f : FmtM) : Eff := fun s n q =>
  let t := f.t.toNat
  let v := q.xa.toNat % 2 ^ 13
  let ok := decide (1 ≤ v / 64 ∧ v / 64 ≤ 64 ∧ 1 ≤ v % 64 ∧ v % 64 ≤ 32)
  .run (s.modFg n (fun c =>
    let c := { c with regs := { c.regs.clean (poisCsr (0x810 + t)) with
      tcfg := tset 0 c.regs.tcfg t (if ok then wOf v else 0) } }
    c.fillTile t (region 64 32) false (fun _ _ => 0))) (tilePend t)

/-- `MGETR`. -/
def mgetrEff (f : FmtM) : Eff := withTile f.t.toNat (fun rows cols s n q =>
  let c := s.fg n
  let i := q.xb.toNat
  if rows ≤ i then badStart q
  else if c.tileBad f.t.toNat ((List.range cols).map (fun j => (i, j))) then tilePoison
  else .run s { eng := .mt, kind := 1, dst := f.a.toNat,
                val := mkEls 1024 32 (fun j => if j < cols then c.tileAt f.t.toNat i j else 0) 32 })

/-- `MSETR`. -/
def msetrEff (f : FmtM) : Eff := withTile f.t.toNat (fun rows cols s n q =>
  let v := (s.fg n).v f.a
  let i := q.xb.toNat
  if rows ≤ i then badStart q
  else runTile s n f.t.toNat ((List.range cols).map (fun j => (i, j))) false (fun _ j => getEl v 32 j))

/-- The rows of a half that lie in the region. -/
def halfRows (h rows : Nat) : List Nat := (List.range 32).filter (fun r => decide (32 * h + r < rows))

/-- `MGETC`. -/
def mgetcEff (f : FmtM) : Eff := withTile f.t.toNat (fun rows cols s n q =>
  let c := s.fg n
  let h := f.aux.toNat % 2
  let j := q.xb.toNat
  if cols ≤ j then badStart q
  else if c.tileBad f.t.toNat ((halfRows h rows).map (fun r => (32 * h + r, j))) then tilePoison
  else .run s { eng := .mt, kind := 1, dst := f.a.toNat,
                val := mkEls 1024 32 (fun r => if 32 * h + r < rows then c.tileAt f.t.toNat (32 * h + r) j else 0) 32 })

/-- `MSETC`. -/
def msetcEff (f : FmtM) : Eff := withTile f.t.toNat (fun rows cols s n q =>
  let v := (s.fg n).v f.a
  let h := f.aux.toNat % 2
  let j := q.xb.toNat
  if cols ≤ j then badStart q
  else runTile s n f.t.toNat ((halfRows h rows).map (fun r => (32 * h + r, j))) false
    (fun i _ => getEl v 32 (i - 32 * h)))

/-! ## Load and drain (R177 to R179) -/

/-- The banks that k bytes from an offset lie in. -/
def banksOf (off k : Nat) : List Nat :=
  (List.range ((off + k - 1) / 2 ^ 15 - off / 2 ^ 15 + 1)).map (fun j => off / 2 ^ 15 + j)

/-- The pieces a row takes. -/
def pieces (k : Nat) : Nat := (k + 63) / 64

/-- The element that `MLOAD` makes of a pattern. -/
def loadEl (ty e : Nat) : Nat := if ty = 0 then e else (enc f32 (dec (fmtOf ty) e) 0 false {}).1

/-- `MLOAD`. -/
def mloadEff (f : FmtM) : Eff := withTile f.t.toNat (fun rows cols s n q =>
  let c := s.fg n
  let ty := f.fa.toNat
  let wb := tyWidth f.fa / 8
  let a := q.xa.toNat
  let st := q.xb.toNat
  let rb := cols * wb
  if a % 4 ≠ 0 ∨ st % 4 ≠ 0 ∨ 0x80000 < a + (rows - 1) * st + rb then badStart q
  else if (List.range rows).any (fun i => (banksOf (a + i * st) rb).any (fun b => decide (fmtTy (c.bfmt b) ≠ ty))) then
    badStart q
  else if s.lockstep then
    let pz := (List.range rows).any (fun i => s.spadPoison n (a + i * st) rb)
    runTile s n f.t.toNat (region rows cols) pz (fun i j => loadEl ty (s.spadNum n (a + i * st + j * wb) wb))
  else .run s { tilePend f.t.toNat with work := true, val := workVal q })

/-- Piece k of a running `MLOAD`: its offset and its length (R177). -/
def loadPiece (f : FmtM) (cols : Nat) (xa xb : Word) (k : Nat) : Nat × Nat :=
  let rb := cols * (tyWidth f.fa / 8)
  (xa.toNat + k / pieces rb * xb.toNat + k % pieces rb * 64, min 64 (rb - k % pieces rb * 64))

/-- A cycle of a running `MLOAD`: a piece, and with the last one the tile. -/
def State.mloadCycle (s : State) (n : Nat) (p : Pending) (f : FmtM) : State × Pending :=
  match (s.fg n).shape p.dst with
  | none => (s, { p with work := false, val := 0 })
  | some (rows, cols) =>
    let wb := tyWidth f.fa / 8
    let r := pieces (cols * wb)
    let x := loadPiece f cols p.wXa p.wXb p.step
    let p := { p with
      snap := tset 0 p.snap p.step (BitVec.ofNat 512 (s.spadNum n x.1 x.2)), pz := p.pz || s.spadPoison n x.1 x.2
      step := p.step + 1, pos := p.pos + 1 }
    if p.step < rows * r then (s, p)
    else
      let e (i j : Nat) : Nat := (tget 0 p.snap (r * i + j * wb / 64)).toNat / 2 ^ (8 * (j * wb % 64)) % 2 ^ (8 * wb)
      (s.modFg n (fun c => c.fillTile p.dst (region rows cols) p.pz (fun i j => loadEl f.fa.toNat (e i j))),
        { p with work := false, val := 0, snap := [] })

/-- The bytes of k packed elements (R50): whole bytes, or whole 3-byte groups for six-bit types. -/
def rowBytes (ty : BitVec 5) (k : Nat) : Nat :=
  if tyS6 ty then (k + 3) / 4 * 3 else (k * tyWidth ty + 7) / 8

/-- Elements packed from bit 0 at their width (R50), as bytes. -/
def packRow (ty : BitVec 5) (l : List Nat) : List Byte :=
  let w := packWidth ty
  leBytes (rowBytes ty l.length) (l.foldr (fun x r => x % 2 ^ w + 2 ^ w * r) 0)

/-- The bytes of a block's elements (R67). -/
def blockEls (ty : BitVec 5) : Nat := rowBytes ty 32

/-- The conversion of one element of a plain drain (notes/assumptions/28.md). -/
def drainEl (ty rm : Nat) (nanz : Bool) (cb : List Nat) (e : Nat) (st : FpSt) : Nat × FpSt :=
  if ty = 0 then (e, st)
  else if ty = 8 then encCb4 cb (dec f32 e) st
  else enc (fmtOf ty) (dec f32 e) rm nanz st

/-- Threads the flags and the generator over a list of elements. -/
def convList (g : Nat → FpSt → Nat × FpSt) : List Nat → FpSt → List Nat × FpSt
  | [], st => ([], st)
  | e :: r, st =>
    let x := g e st
    let y := convList g r x.2
    (x.1 :: y.1, y.2)

/-- Threads the flags over a list of values. -/
def convVals (g : Val → FpSt → Nat × FpSt) : List Val → FpSt → List Nat × FpSt
  | [], st => ([], st)
  | x :: r, st =>
    let a := g x st
    let y := convVals g r a.2
    (a.1 :: y.1, y.2)

/-- An MX block made of 32 values: its codes, its scale, the flags (R68, R157) (notes/assumptions/28.md). -/
def quantBlock (ty rm : Nat) (nanz : Bool) (cb : List Nat) (l : List Val) (st : FpSt) : List Nat × Nat × FpSt :=
  let sc := mxscale ty cb (l.foldl amaxOf (.fin false 0 0 false))
  let r := convVals (fun x st =>
    let q := fdiv x (s24dec sc) st
    mxCode ty cb q.1 rm nanz q.2) l st
  (r.1, sc, r.2)

/-- The writes of a drain, row by row from row i, m of them, each row as its pieces in order; the flags and the
generator are threaded through. -/
def drainRows (row : Nat → FpSt → List (List (Nat × List Byte)) × FpSt) : Nat → Nat → FpSt → List (List (Nat × List Byte)) × FpSt
  | 0, _, st => ([], st)
  | m + 1, i, st =>
    let r := row i st
    let t := drainRows row m (i + 1) r.2
    (r.1 ++ t.1, t.2)

/-- The pieces of 64 bytes of a row at an offset; `k` bounds them. -/
def rowPieces (off : Nat) : Nat → List Byte → List (List (Nat × List Byte))
  | 0, _ => []
  | k + 1, bs => if bs.isEmpty then [] else [(off, bs.take 64)] :: rowPieces (off + 64) k (bs.drop 64)

/-- Performs the writes of a piece. -/
def State.drainPiece (s : State) (n : Nat) (l : List (Nat × List Byte)) : State := l.foldl (fun s w => s.spadWrite n w.1 w.2) s

/-- `MDRAIN` (R178, R179).  Its last block may lie beyond the first one's bank only where the next bank has an equal
format, and the blocks then go on from xa with the scale words of b₀ + i (notes/assumptions/28.md). -/
def mdrainEff (f : FmtM) : Eff := withTile f.t.toNat (fun rows cols s n q =>
  let c := s.fg n
  let t := f.t.toNat
  let ty := f.fa.toNat
  let a := q.xa.toNat
  let v := c.bfmt (a / 2 ^ 15)
  let plain := decide (fmtMx v = 0)
  let eb := blockEls f.fa
  let size := if fmtMx v = 1 then eb + 4 else eb
  let stride := if plain then q.xb.toNat else size
  let k := if plain then rowBytes f.fa cols else size
  let b0 := a % 2 ^ 15 / size
  let scAt (i : Nat) : Nat := if fmtMx v = 1 then a + i * size + eb else 64 * fmtSro v + 4 * (b0 + i)
  if 0x80000 ≤ a ∨ a % 4 ≠ 0 ∨ fmtTy v ≠ ty ∨ (plain = true ∧ (ty = 16 ∨ q.xb.toNat % 4 ≠ 0)) ∨
      (plain = false ∧ (a % 2 ^ 15 % size ≠ 0 ∨ 2 ^ 15 < a % 2 ^ 15 + size)) ∨
      0x80000 < a + (rows - 1) * stride + k then badStart q
  else if (List.range rows).any (fun i => (banksOf (a + i * stride) k).any (fun b => decide (fmtKey (c.bfmt b) ≠ fmtKey v))) ||
      (!plain && decide (0x80000 < scAt (rows - 1) + 4)) then badStart q
  else if c.tileBad t (region rows cols) then tilePoison
  else
    let rm := f.aux.toNat % 8
    let nanz := f.aux.getLsbD 3
    let cb := c.codebook (fmtCb v)
    let els (i : Nat) : List Nat := (List.range cols).map (fun j => c.tileAt t i j)
    let row (i : Nat) (st : FpSt) : List (List (Nat × List Byte)) × FpSt :=
      if plain then
        let r := convList (drainEl ty rm nanz cb) (els i) st
        (rowPieces (a + i * stride) (pieces k) (packRow f.fa r.1), r.2)
      else
        let r := quantBlock ty rm nanz cb ((els i ++ List.replicate (32 - cols) 0).map (dec f32)) st
        ([[(a + i * stride, packRow f.fa r.1), (scAt i, leBytes 4 r.2.1)]], r.2.2)
    let r := drainRows row rows 0 { fl := 0, seed := c.csr.srseed }
    let s := s.modFg n (fun c => c.setSeed r.2)
    if s.lockstep then .run (r.1.foldl (fun s l => s.drainPiece n l) s) { plainPend with fl := r.2.fl }
    else .run s { plainPend with fl := r.2.fl, wr := r.1 })

/-! ### A command in progress (R172, R177, R178, R381) -/

/-- A cycle of a command in progress: its reads or its writes. -/
def State.workCycle (s : State) (n : Nat) (p : Pending) : State × Pending :=
  match p.wr with
  | w :: r => (s.drainPiece n w, { p with wr := r })
  | [] =>
    if p.work = false then (s, p)
    else
      match decode64 p.wWord 0 with
      | some (.mload f) => s.mloadCycle n p f
      | some (.mmaAcc f) => s.mmaCycle n p (mmaOp f p.wXa p.wXb) false
      | some (.mmaOvw f) => s.mmaCycle n p (mmaOp f p.wXa p.wXb) true
      | some (.mmaSacc f) => s.mmaCycle n p (mmaOp f p.wXa p.wXb) false
      | some (.mmaSovw f) => s.mmaCycle n p (mmaOp f p.wXa p.wXb) true
      | _ => (s, { p with work := false })

/-- What is left of an `MLOAD`, piece by piece. -/
def loadDrain (n : Nat) (f : FmtM) : Nat → State × Pending → State × Pending
  | 0, x => x
  | k + 1, x => if x.2.work then loadDrain n f k (x.1.mloadCycle n x.2 f) else x

/-- What a command captured by a freeze still does before the freeze takes effect (R381): a drain and a load are
finished, an `MMA` goes to the end of its block. -/
def State.drainWork (s : State) (n : Nat) (p : Pending) : State × Pending :=
  let s := p.wr.foldl (fun s l => s.drainPiece n l) s
  let p := { p with wr := [], drain := false }
  if p.work = false then (s, p)
  else
    match decode64 p.wWord 0 with
    | some (.mload f) => loadDrain n f 128 (s, p)
    | some (.mmaAcc f) => let o := mmaOp f p.wXa p.wXb; mmaDrain n o false o.bs (s, p)
    | some (.mmaOvw f) => let o := mmaOp f p.wXa p.wXb; mmaDrain n o true o.bs (s, p)
    | some (.mmaSacc f) => let o := mmaOp f p.wXa p.wXb; mmaDrain n o false o.bs (s, p)
    | some (.mmaSovw f) => let o := mmaOp f p.wXa p.wXb; mmaDrain n o true o.bs (s, p)
    | _ => (s, { p with work := false })

/-! ## Hadamard and tile copy (R180, R181) -/

/-- `MHAD`: order n along rows (`row`) or columns. -/
def mhadEff (f : FmtM) (row : Bool) : Eff := withTile f.t.toNat (fun rows cols s n q =>
  let c := s.fg n
  let t := f.t.toNat
  let o := 16 * 2 ^ (f.aux.toNat % 4)
  if (if row then cols else rows) % o ≠ 0 then badStart q
  else if c.tileBad t (region rows cols) then tilePoison
  else
    let grp (i j : Nat) : List Val :=
      (List.range o).map (fun k =>
        dec f32 (if row then c.tileAt t i (j / o * o + k) else c.tileAt t (i / o * o + k) j))
    runTile s n t (region rows cols) false (fun i j => hpassAt (grp i j) o ((if row then j else i) % o)))

/-- `MCOPY` and `MCOPY.add`. -/
def mcopyEff (f : FmtM) (plus : Bool) : Eff := withTile f.t.toNat (fun rows cols s n q =>
  let c := s.fg n
  let t := f.t.toNat
  let m := f.aux.toNat % 8
  match c.shape m with
  | none => .fault 0x03 q.word
  | some sh =>
    if sh ≠ (rows, cols) then badStart q
    else if c.tileBad m (region rows cols) || (plus && c.tileBad t (region rows cols)) then tilePoison
    else runTile s n t (region rows cols) false (fun i j =>
      if plus then rneBits (add' (dec f32 (c.tileAt t i j)) (dec f32 (c.tileAt m i j))) else c.tileAt m i j))

/-! ## Codebooks and the binding (R182 to R184) -/

/-- `MCBLD`. -/
def mcbldEff (f : FmtM) : Eff := fun s n q =>
  let k := f.aux.toNat
  let a := q.xa.toNat
  if a % 32 ≠ 0 ∨ 0x80000 ≤ a then badStart q
  else if s.spadPoison n a 32 then .late 0x0A (wOf (a / 32))
  else
    .run (s.modFg n (fun c =>
      let uses : Bool := match c.regs.bind with
        | some (fa, ca, fb, cb) => (decide (fa = 8) && decide (ca = k)) || (decide (fb = 8) && decide (cb = k))
        | none => false
      { c with regs := { c.regs with
        cb := (List.range 16).foldl (fun m j =>
          tset 0 m (16 * k + j) (BitVec.ofNat 16 (s.spadNum n (a + 2 * j) 2))) c.regs.cb
        bind := if uses then none else c.regs.bind } })) plainPend

/-- `MBIND`. -/
def mbindEff (f : FmtM) : Eff := fun s n q =>
  .run (s.modFg n (fun c => { c with regs := { c.regs with
    bind := some (f.fa.toNat, sideCb f.fa.toNat (wfld q.xa 3 0), f.fb.toNat, sideCb f.fb.toNat (wfld q.xa 7 4)) } }))
    plainPend

/-! ## Timing (R185) and the meanings -/

/-- The latency and the issue interval of a command, by the shape of its tile. -/
def Ctx.mtTime (c : Ctx) (i : Instr) (xa xb : Word) : Nat × Nat :=
  let sh (t : BitVec 3) : Nat × Nat := (c.shape t.toNat).getD (0, 0)
  let mma (f : FmtM) : Nat × Nat :=
    let o := (mmaOp f xa xb).gap
    (o + 8, o)
  match i with
  | .mmaAcc f => mma f
  | .mmaOvw f => mma f
  | .mmaSacc f => mma f
  | .mmaSovw f => mma f
  | .mgetr _ => (4, 1)
  | .mgetc _ => (4, 1)
  | .mload f =>
    let o := (sh f.t).1 * pieces ((sh f.t).2 * (tyWidth f.fa / 8))
    (o + 4, o)
  | .mdrain f =>
    let v := c.bfmt (xa.toNat % 2 ^ 19 / 2 ^ 15)
    let k := if fmtMx v = 0 then rowBytes f.fa (sh f.t).2 else blockEls f.fa + 4
    let o := (sh f.t).1 * pieces k
    (o + 6, o)
  | .mhadRow _ => (72, 64)
  | .mhadCol _ => (72, 64)
  | .mcopy f => ((sh f.t).1 + 2, (sh f.t).1)
  | .mcopyAdd f => ((sh f.t).1 + 2, (sh f.t).1)
  | .mcbld _ => (4, 1)
  | .mbind _ => (32, 32)
  | _ => (2, 1)

/-- The effect of a Mangle command; none for any other instruction. -/
def mtEff : Instr → Option Eff
  | .mmaAcc f => some (mmaEff f false)
  | .mmaOvw f => some (mmaEff f true)
  | .mmaSacc f => some (mmaEff f false)
  | .mmaSovw f => some (mmaEff f true)
  | .mzero f => some (mzeroEff f)
  | .mcfg f => some (mcfgEff f)
  | .mgetr f => some (mgetrEff f)
  | .msetr f => some (msetrEff f)
  | .mgetc f => some (mgetcEff f)
  | .msetc f => some (msetcEff f)
  | .mload f => some (mloadEff f)
  | .mhadRow f => some (mhadEff f true)
  | .mhadCol f => some (mhadEff f false)
  | .mdrain f => some (mdrainEff f)
  | .mcbld f => some (mcbldEff f)
  | .mbind f => some (mbindEff f)
  | .mcopy f => some (mcopyEff f false)
  | .mcopyAdd f => some (mcopyEff f true)
  | _ => none

/-- The forwarding of a Mangle word, with its two scalars. -/
def State.issueM (s : State) (i : Instr) (f : FmtM) (eff : Eff) : State :=
  let xa := s.xr f.a
  let xb := s.xr f.b
  let tm : Nat × Nat := match s.cur with
    | .core n => (s.fg n).mtTime i xa xb
    | .thread _ => (2, 1)
  s.issueEng .mt i xa xb 0 tm.1 tm.2 eff

def execMmaAcc (f : FmtM) (s : State) : Out := .next (s.issueM (.mmaAcc f) f (mmaEff f false))
def execMmaOvw (f : FmtM) (s : State) : Out := .next (s.issueM (.mmaOvw f) f (mmaEff f true))
def execMmaSacc (f : FmtM) (s : State) : Out := .next (s.issueM (.mmaSacc f) f (mmaEff f false))
def execMmaSovw (f : FmtM) (s : State) : Out := .next (s.issueM (.mmaSovw f) f (mmaEff f true))
def execMzero (f : FmtM) (s : State) : Out := .next (s.issueM (.mzero f) f (mzeroEff f))
def execMcfg (f : FmtM) (s : State) : Out := .next (s.issueM (.mcfg f) f (mcfgEff f))
def execMgetr (f : FmtM) (s : State) : Out := .next (s.issueM (.mgetr f) f (mgetrEff f))
def execMsetr (f : FmtM) (s : State) : Out := .next (s.issueM (.msetr f) f (msetrEff f))
def execMgetc (f : FmtM) (s : State) : Out := .next (s.issueM (.mgetc f) f (mgetcEff f))
def execMsetc (f : FmtM) (s : State) : Out := .next (s.issueM (.msetc f) f (msetcEff f))
def execMload (f : FmtM) (s : State) : Out := .next (s.issueM (.mload f) f (mloadEff f))
def execMhadRow (f : FmtM) (s : State) : Out := .next (s.issueM (.mhadRow f) f (mhadEff f true))
def execMhadCol (f : FmtM) (s : State) : Out := .next (s.issueM (.mhadCol f) f (mhadEff f false))
def execMdrain (f : FmtM) (s : State) : Out := .next (s.issueM (.mdrain f) f (mdrainEff f))
def execMcbld (f : FmtM) (s : State) : Out := .next (s.issueM (.mcbld f) f (mcbldEff f))
def execMbind (f : FmtM) (s : State) : Out := .next (s.issueM (.mbind f) f (mbindEff f))
def execMcopy (f : FmtM) (s : State) : Out := .next (s.issueM (.mcopy f) f (mcopyEff f false))
def execMcopyAdd (f : FmtM) (s : State) : Out := .next (s.issueM (.mcopyAdd f) f (mcopyEff f true))

end Sys2Proof.Machine
end

