-- ==== Sys2Proof/Machine/Packet.lean ====
section
/-! DEFINITION. Copy packets: their fields and checks, the units they are cut into, formats and their
conversion, the division of a tensor copy into boxes, and promises (R94, R95, R221, R314, R315, R319 to
R321, R328, R356). -/

namespace Sys2Proof.Machine

/-! ## Fields and checks that look at the packet alone (R94, R95, R314) -/

/-- Every parameter byte outside the listed fields is 0. -/
def parOnly (p : Packet) (l : List (Nat × Nat)) : Bool :=
  decide (p.par.toNat = l.foldl (fun a x => a + Packet.par' p x.1 x.2 * 2 ^ (8 * (x.1 - 24))) 0)

/-- The element size of an atomic's type, in bytes. -/
def cmdTy (p : Packet) : Nat := p.cmd.aux.toNat / 16 % 32
def cmdOp (p : Packet) : Nat := p.cmd.aux.toNat % 16
def elBytes (ty : Nat) : Nat := tyWidth (BitVec.ofNat 5 ty) / 8

def okOff (v : Nat) : Bool := decide (v < 0x80000)

/-- Bits of a field above the element's width are 0. -/
def fitsEl (v es : Nat) : Bool := decide (v < 2 ^ (8 * es))

/-- The common fields: `rec` and `dep` (R94, R314). -/
def tailOk (p : Packet) : Bool :=
  (if p.cmd.cr then okOff p.rcd.toNat && decide (p.rcd.toNat % 32 = 0) else decide (p.rcd = 0)) &&
    (if p.cmd.dc then depOk p.dep else decide (p.dep = 0))

/-- A target word has no reserved bit and no reserved mode (R345). -/
def twOk (w : Word) : Bool :=
  let v := w.toNat
  match v / 2 ^ 62 with
  | 0 => decide (fld v 61 48 = 0)
  | 1 => decide (fld v 61 58 = 0 ∧ fld v 45 19 = 0)
  | 2 => decide (fld v 61 26 = 0)
  | _ => false

/-- An address of a core, or a target word of the Hamper. -/
def adOk (ham : Bool) (w : Word) : Bool := !ham || twOk w

/-- A multicast's parameters (R314, R322). -/
def mcastOk (ham am : Bool) (p : Packet) : Bool :=
  let len := Packet.par' p 24 4
  let mask := Packet.par' p 32 6
  parOnly p [(24, 4), (28, 1), (29, 1), (30, 1), (31, 1), (32, 6)] && okOff p.dst.toNat &&
    (if ham then twOk p.src else okOff p.src.toNat) && decide (1 ≤ len ∧ len ≤ 65536) &&
    decide (Packet.par' p 31 1 < (if am then 16 else 1)) &&
    (List.range 48).all (fun j => !mask.testBit j || decide (Packet.par' p 28 1 + j ≤ 255))

/-- The checks of R95, R314 and R356 that look at the packet alone; `ham` says that the engine is the
Hamper's (notes/assumptions/29.md). -/
def staticOk (ham : Bool) (i : Instr) : Bool :=
  let body (p : Packet) (ok : Bool) : Bool :=
    tailOk p && ok && (!ham || (decide (p.cmd.wait = 0) && decide (p.cmd.sig = 0) && !p.cmd.cr))
  let lin (p : Packet) : Bool := adOk ham p.dst && adOk ham p.src
  let es (p : Packet) : Nat := elBytes (cmdTy p)
  let hdl (w : Word) : Bool := decide (w.toNat < 2 ^ 32)
  let tile (p : Packet) : Bool :=
    parOnly p [(24, 8)] && okOff (Packet.par' p 24 8) && decide (Packet.par' p 24 8 % 64 = 0)
  match i with
  | .copy p => body p (lin p && parOnly p [(24, 4)] && decide (1 ≤ Packet.par' p 24 4))
  | .tcopyRd p => body p (adOk ham p.dst && hdl p.src && tile p)
  | .tcopyWr p => body p (adOk ham p.src && hdl p.dst && tile p && decide (p.cmd.aux = 0))
  | .im2colw p => body p (adOk ham p.dst && hdl p.src &&
      parOnly p [(24, 4), (28, 4), (32, 4), (36, 2), (38, 2), (40, 2), (42, 1), (43, 1), (44, 1)] &&
      decide (1 ≤ Packet.par' p 36 2 ∧ 1 ≤ Packet.par' p 40 2 ∧ 1 ≤ Packet.par' p 42 1 ∧ Packet.par' p 42 1 ≤ 64 ∧
        1 ≤ Packet.par' p 43 1 ∧ Packet.par' p 43 1 ≤ 16 ∧ 1 ≤ Packet.par' p 44 1 ∧ Packet.par' p 44 1 ≤ 16))
  | .fill p => body p (adOk ham p.dst && decide (p.src = 0) && parOnly p [(24, 4), (32, 8)] &&
      decide (1 ≤ Packet.par' p 24 4))
  | .accw p => body p (adOk ham p.dst && (if ham then twOk p.src else okOff p.src.toNat) && parOnly p [(24, 4)] &&
      decide (1 ≤ Packet.par' p 24 4 ∧ Packet.par' p 24 4 % es p = 0 ∧ p.dst.toNat % es p = 0 ∧ p.src.toNat % es p = 0))
  | .fop p => body p (adOk ham p.dst && fitsEl p.src.toNat (es p) && parOnly p [(24, 8)] && okOff (Packet.par' p 24 8) &&
      decide (Packet.par' p 24 8 % es p = 0 ∧ p.dst.toNat % es p = 0))
  | .cas p => body p (adOk ham p.dst && fitsEl p.src.toNat (es p) && fitsEl (Packet.par' p 24 8) (es p) &&
      parOnly p [(24, 8), (32, 8)] && okOff (Packet.par' p 32 8) &&
      decide (Packet.par' p 32 8 % es p = 0 ∧ p.dst.toNat % es p = 0))
  | .redcopy p => body p (lin p && parOnly p [(24, 8), (32, 4)] && okOff (Packet.par' p 24 8) &&
      decide (Packet.par' p 24 8 % es p = 0 ∧ p.dst.toNat % es p = 0 ∧ 1 ≤ Packet.par' p 32 4 ∧
        Packet.par' p 32 4 ≤ 2 ^ 24))
  | .mcast p => body p (mcastOk ham false p) && !ham
  | .amcast p => body p (mcastOk ham true p) && ham
  | .spfill p => body p (decide (p.dst.toNat < 16) && decide (1 ≤ Packet.par' p 24 4 ∧ 1 ≤ Packet.par' p 28 4)) && !ham
  | .spdrain p => body p (decide (p.src.toNat < 16) && decide (1 ≤ Packet.par' p 24 4 ∧ 1 ≤ Packet.par' p 28 4)) && !ham
  | .qappend p => body p (adOk ham p.dst && okOff p.src.toNat && decide (p.dst.toNat % 64 = 0) && decide (p.par = 0))
  | .sigrem p => body p (decide (p.dst.toNat < 2 ^ 31) && decide (p.src.toNat < 2 ^ 16) && decide (p.par = 0) &&
      (decide (p.dst.toNat % 256 = 0) || decide (1 ≤ p.src.toNat)))
  | _ => false

/-! ## Who runs a packet, and the units of a run of bytes (R315) -/

/-- Who runs a packet: its access rights, the copy engine, and its start time's job. -/
structure Cx where
  who : Who
  ce1 : Bool
  agent : CopyAgent
  deriving DecidableEq, Repr

def Cx.ham (x : Cx) : Bool := x.who.core.isNone
def Cx.n (x : Cx) : Nat := x.who.core.getD 0

/-- An offset in the issuer's own memory: the core's scratchpad, or Hamper memory
(notes/assumptions/25.md). -/
def Cx.own (x : Cx) (off : Nat) : Int := if x.ham then ((2 ^ 63 + off : Nat) : Int) else (off : Int)

/-- The number of aligned units of u bytes that k bytes at an address touch. -/
def unitCountBy (u a k : Nat) : Nat := if k = 0 then 0 else (a + k - 1) / u - a / u + 1

/-- Unit i of k bytes at an address: its offset and its length. -/
def unitBy (u a k i : Nat) : Nat × Nat :=
  let lo := if i = 0 then 0 else u * (a / u + i) - a
  let hi := min k (u * (a / u + i + 1) - a)
  (lo, hi - lo)

/-- Whether unit i of k bytes is the last in its aligned block of `blk` bytes, or the last of all. -/
def lastBy (u blk a k i : Nat) : Bool :=
  decide (unitCountBy u a k ≤ i + 1) || decide (u * (a / u + i + 1) % blk = 0)

/-- The 64-byte units of a piece (R315). -/
def unitCount (a k : Nat) : Nat := unitCountBy 64 a k
def unitOf (a k i : Nat) : Nat × Nat := unitBy 64 a k i

/-- The class of region that a core's address lies in (R215). -/
def zoneClass (a : Int) : Nat :=
  match zoneOf a with
  | .loc => 0
  | .cluster _ _ => 1
  | .window _ _ => 2
  | .paged => 3
  | .unassigned => 4

/-- The first of k bytes that lies outside the region of a base address (R314). -/
def Cx.crosses (x : Cx) (base a : Int) (k : Nat) : Option Int :=
  if x.ham then none
  else ((List.range k).find? (fun (j : Nat) => decide (zoneClass (a + (j : Int)) ≠ zoneClass base))).map (fun (j : Nat) => a + (j : Int))

/-! ## Formats and conversion (R221) -/

/-- A format: type, block layout, codebook, scale region. -/
structure EFmt where
  ty : Nat
  mx : Nat := 0
  cb : Nat := 0
  sro : Nat := 0
  deriving DecidableEq, Repr

/-- The format that a bank register names; what it does not use counts as 0. -/
def bankFmt (v : Word) : EFmt :=
  { ty := fmtTy v, mx := fmtMx v, cb := if fmtTy v = 8 then fmtCb v else 0, sro := if fmtMx v = 2 then fmtSro v else 0 }

def Ctx.fmtAt (c : Ctx) (a : Nat) : EFmt := bankFmt (c.bfmt (a % 0x80000 / 2 ^ 15))

def EFmt.t (f : EFmt) : BitVec 5 := BitVec.ofNat 5 f.ty
def EFmt.w (f : EFmt) : Nat := packWidth f.t
/-- The distance between blocks of an MX format (R67). -/
def EFmt.step (f : EFmt) : Nat := if f.mx = 1 then blockEls f.t + 4 else blockEls f.t
/-- Whether an address is a block start of its bank's layout: whole blocks lie from the bank's base (R219, R221). -/
def EFmt.blockStart (f : EFmt) (a : Nat) : Bool :=
  decide (a % 2 ^ 15 % f.step = 0) && decide (a % 2 ^ 15 + f.step ≤ 2 ^ 15)
/-- The bytes that k elements take (R67, R50). -/
def EFmt.ext (f : EFmt) (k : Nat) : Nat := if f.mx = 0 then rowBytes f.t k else k / 32 * f.step
/-- The offset of the scale word of block b of a run that starts at offset a. -/
def EFmt.scale (f : EFmt) (a b : Nat) : Nat :=
  if f.mx = 1 then a + b * f.step + blockEls f.t else 64 * f.sro + 4 * (a % 2 ^ 15 / f.step + b)

/-- The value of an element of a plain format (R48, R52). -/
def EFmt.val (f : EFmt) (cb : List Nat) (e : Nat) : Val :=
  if f.ty = 8 then cbVal (cb.getD (e % 16) 0)
  else if f.ty ≤ 7 then dec (fmtOf f.ty) e
  else if tyI f.t then valOfInt (sextN e (tyWidth f.t))
  else valOfInt (e : Int)

/-- The code of a value in a plain format, round to nearest even with `nanz` = 0 (R60, R61). -/
def EFmt.code (f : EFmt) (cb : List Nat) (x : Val) (st : FpSt) : Nat × FpSt :=
  if f.ty = 8 then encCb4 cb x st
  else if f.ty ≤ 7 then enc (fmtOf f.ty) x 0 false st
  else encInt (tyWidth f.t) (tyI f.t) x 0 st

/-- The values of some elements with what reading them met. -/
structure Els where
  vals : List Val := []
  bad : List Bool := []
  fault : Option (Nat × Word) := none
  first : Option Word := none
  far : Bool := false
  fp : FpSt := {}
  deriving DecidableEq, Repr

/-- Reads elements k to k + m − 1 of a plain run at an address. -/
def State.readPlain (s : State) (w : Who) (f : EFmt) (cb : List Nat) (a : Int) (k m : Nat) : Els × State :=
  let lo := f.w * k / 8
  let hi := (f.w * (k + m) + 7) / 8
  let g := s.readVa w (a + (lo : Int)) (hi - lo)
  let num := leNat g.1.bytes
  let els := (List.range m).map (fun j => num / 2 ^ (f.w * (k + j) - 8 * lo) % 2 ^ f.w)
  ({ vals := els.map (f.val cb)
     bad := (List.range m).map (fun j => g.1.pois.any (fun b =>
       decide (f.w * (k + j) < 8 * (lo + b) + 8 ∧ 8 * (lo + b) < f.w * (k + j + 1))))
     fault := g.1.fault, first := g.1.first, far := g.1.far }, g.2)

/-- The bytes of block b of a run, and of its scale word after them (R67). -/
def State.readRaw (s : State) (w : Who) (f : EFmt) (a b : Nat) : Got × State :=
  let g := s.readVa w ((a + b * f.step : Nat) : Int) (blockEls f.t)
  let h := g.2.readVa w ((f.scale a b : Nat) : Int) 4
  ({ bytes := g.1.bytes ++ h.1.bytes, pois := g.1.pois ++ h.1.pois
     fault := (match g.1.fault with | some x => some x | none => h.1.fault)
     first := (match g.1.first with | some x => some x | none => h.1.first)
     far := g.1.far || h.1.far }, h.2)

/-- The values of a block given by its bytes and its scale word, dequantised as R158 gives. -/
def rawVals (f : EFmt) (cb : List Nat) (bs : List Byte) (st : FpSt) : List Val × FpSt :=
  let num := leNat (bs.take (blockEls f.t))
  let sc := s24dec (leNat ((bs.drop (blockEls f.t)).take 3))
  let r := convVals (fun x st =>
    let p := fmul sc x st
    enc f32 p.1 0 false p.2)
    ((List.range 32).map (fun j => mxElem f.ty cb (num / 2 ^ (f.w * j) % 2 ^ f.w))) st
  (r.1.map (dec f32), r.2)

/-- Reads block b of a run, dequantised. -/
def State.readBlock (s : State) (w : Who) (f : EFmt) (cb : List Nat) (a b : Nat) (st : FpSt) : Els × State :=
  let g := s.readRaw w f a b
  let v := rawVals f cb g.1.bytes st
  ({ vals := v.1, bad := List.replicate 32 (!g.1.pois.isEmpty), fault := g.1.fault, first := g.1.first, far := g.1.far, fp := v.2 },
    g.2)

def Els.append (x y : Els) : Els :=
  { vals := x.vals ++ y.vals, bad := x.bad ++ y.bad
    fault := (match x.fault with | some a => some a | none => y.fault)
    first := (match x.first with | some a => some a | none => y.first)
    far := x.far || y.far, fp := { x.fp with fl := x.fp.fl ||| y.fp.fl } }

/-- Reads m blocks of an MX run from block b on. -/
def readBlocks (w : Who) (f : EFmt) (cb : List Nat) (a : Nat) : Nat → Nat → State → Els × State
  | 0, _, s => ({}, s)
  | m + 1, b, s =>
    let x := s.readBlock w f cb a b {}
    let y := readBlocks w f cb a m (b + 1) x.2
    (x.1.append y.1, y.2)

/-- Reads elements k to k + m − 1 of a run in a format: a block is read whole. -/
def State.readEls (s : State) (w : Who) (f : EFmt) (cb : List Nat) (a : Nat) (k m : Nat) : Els × State :=
  if f.mx = 0 then s.readPlain w f cb (a : Int) k m
  else
    let b0 := k / 32
    let x := readBlocks w f cb a ((k + m + 31) / 32 - b0) b0 s
    ({ x.1 with vals := (x.1.vals.drop (k - 32 * b0)).take m, bad := (x.1.bad.drop (k - 32 * b0)).take m }, x.2)

/-- Packs codes of one width from bit 0. -/
def packBits (w : Nat) (l : List Nat) : Nat := l.foldr (fun x r => x % 2 ^ w + 2 ^ w * r) 0

/-- Elements in a plain format as bytes `lo` to `lo` + k − 1 of a run whose element k0 is the first given. -/
def plainBytes (w k0 lo k : Nat) (codes : List Nat) : List Byte :=
  leBytes k (packBits w codes / 2 ^ (8 * lo - w * k0))

/-- Which of k bytes from byte `lo` derive from a poisoned element. -/
def plainPois (w k0 lo k : Nat) (bad : List Bool) : List Nat :=
  (List.range k).filter (fun j => (bad.zip (List.range bad.length)).any (fun x =>
    x.1 && decide (w * (k0 + x.2) < 8 * (lo + j) + 8 ∧ 8 * (lo + j) < w * (k0 + x.2 + 1))))

/-! ## Boxes of tensor copies (R319 to R321) -/

/-- Box k of a tile: its first coordinates within the tile, its dims, the element in delivery order at which
it starts, and for the row form the row. -/
structure TBox where
  start : List Nat
  dims : List Nat
  first : Nat
  row : Option Nat
  deriving DecidableEq, Repr

/-- The number of boxes of a tile by conversion code; none where the packet is refused (R320). -/
def tileBoxes (conv : Nat) (t : BitVec 5) (n : List Nat) : Option Nat :=
  let n0 := at5 n 0
  let n1 := at5 n 1
  let o := at5 n 2 * at5 n 3 * at5 n 4
  let rb := rowBytes t n0
  let es := tyWidth t / 8
  let wide := !tyS6 t && decide (tyWidth t = 8 ∨ tyWidth t = 16 ∨ tyWidth t = 32)
  let ok : Bool := match conv with
    | 0 => decide (rb ≤ 4096)
    | 1 => wide && decide (n1 * es ≤ 4096)
    | _ => wide && decide (n0 % 32 = 0 ∧ n1 % 32 = 0)
  let c := match conv with
    | 0 => let r := min n1 (4096 / rb); (n1 + r - 1) / r * o
    | 1 => let q := min n0 (4096 / (n1 * es)); (n0 + q - 1) / q * o
    | _ => n0 / 32 * (n1 / 32) * o
  if n.any (fun x => decide (x = 0)) then none else if ok && decide (c ≤ 48) then some c else none

/-- Box k of a tile. -/
def tileBox (conv : Nat) (t : BitVec 5) (n : List Nat) (k : Nat) : TBox :=
  let n0 := at5 n 0
  let n1 := at5 n 1
  let es := tyWidth t / 8
  let out (o : Nat) : List Nat := [o % at5 n 2, o / at5 n 2 % at5 n 3, o / (at5 n 2 * at5 n 3)]
  match conv with
  | 0 =>
    let r := min n1 (4096 / rowBytes t n0)
    let c := (n1 + r - 1) / r
    let o := k / c
    let j := k % c * r
    { start := [0, j] ++ out o, dims := [n0, min r (n1 - j), 1, 1, 1], first := (o * n1 + j) * n0, row := some (o * n1 + j) }
  | 1 =>
    let q := min n0 (4096 / (n1 * es))
    let c := (n0 + q - 1) / q
    let o := k / c
    let j := k % c * q
    { start := [j, 0] ++ out o, dims := [min q (n0 - j), n1, 1, 1, 1], first := (o * n0 + j) * n1, row := none }
  | _ =>
    let c := n0 / 32 * (n1 / 32)
    let j := k % c
    { start := [32 * (j / (n1 / 32)), 32 * (j % (n1 / 32))] ++ out (k / c), dims := [32, 32, 1, 1, 1]
      first := k * 1024, row := none }

/-- Field i of a tile block: origin i, extent i (R320). -/
def tileOrigin (blk i : Nat) : Int := sextN (blk / 2 ^ (32 * i)) 32
def tileExt (blk i : Nat) : Nat := blk / 2 ^ (160 + 32 * i) % 2 ^ 32
def tileExts (blk : Nat) : List Nat := (List.range 5).map (tileExt blk)

/-- The parameters of `IM2COLW` (R321). -/
structure Im2 where
  w0 : Int
  h : Int
  n : Nat
  npos : Nat
  cg : Nat
  gc : Nat
  kw : Nat
  sw : Nat
  dw : Nat
  deriving DecidableEq, Repr

def im2Of (p : Packet) : Im2 :=
  { w0 := sextN (Packet.par' p 24 4) 32, h := sextN (Packet.par' p 28 4) 32, n := Packet.par' p 32 4
    npos := Packet.par' p 36 2, cg := Packet.par' p 38 2, gc := Packet.par' p 40 2, kw := Packet.par' p 42 1
    sw := Packet.par' p 43 1, dw := Packet.par' p 44 1 }

/-- The elements of a position row. -/
def Im2.row (m : Im2) : Nat := m.kw * m.gc

/-- Positions in a box, and the number of boxes; none where the packet is refused. -/
def Im2.boxes (m : Im2) (t : BitVec 5) : Option Nat :=
  let es := tyWidth t / 8
  let b := 4096 / (m.row * es)
  let c := (m.npos + b - 1) / b
  if !tyS6 t && decide (tyWidth t = 8 ∨ tyWidth t = 16 ∨ tyWidth t = 32) && decide (m.row * es ≤ 4096 ∧ c ≤ 48) then some c
  else none

/-- The coordinates of element e of the delivery: c fastest, then t, then p. -/
def Im2.coord (m : Im2) (e : Nat) : List Int :=
  let c := e % m.gc
  let t := e / m.gc % m.kw
  let p := e / m.row
  [((m.cg + c : Nat) : Int), m.w0 + ((p * m.sw + t * m.dw : Nat) : Int), m.h, (m.n : Int), 0]

/-! ## Promises (R328) -/

/-- The memory at the end of a page walk, for a rate: HBM where it has none. -/
def State.rateMem (s : State) (slot a : Nat) : Nat × MemKind :=
  match s.walk slot a with
  | .page t =>
    let pa := ptePa t.pte + (a - t.va)
    (pa / 2 ^ 45, memKind (pa % 2 ^ 45))
  | _ => (s.pkgid, .hbm)

/-- The rate of an endpoint: r and b; none for a write of HBM while `sbud` = 0. -/
def State.rateOf (s : State) (n : Nat) (a : Int) (write : Bool) : Option (Nat × Nat) :=
  let c := s.fg n
  let core (k : Nat) : Nat × Nat := if k = n then (1, 0) else if k / 256 = n / 256 then (2, 24) else (4, 160)
  match zoneOf a with
  | .cluster k _ => some (core (coreNum (n / 256) k))
  | .window w _ =>
    let e := tget 0 c.win w
    some (if wfld e 47 37 ≠ s.pkgid then (8, 1000) else core (coreNum (wfld e 36 33) (wfld e 32 25)))
  | .paged =>
    let m := s.rateMem c.ident.job a.toNat
    if m.2 = .cxl then some (8, 900)
    else if m.1 ≠ s.pkgid then some (8, 1000)
    else if m.2 = .hamper then some (4, 400)
    else if write then
      let b := c.csr.sbud.toNat
      if b = 0 then none else some (max 2 ((861 + b - 1) / b), 300)
    else some (2, 300)
  | _ => some (1, 0)

/-- The larger r and the larger b of two rates. -/
def rateMax (x y : Option (Nat × Nat)) : Option (Nat × Nat) :=
  match x, y with
  | some a, some b => some (max a.1 b.1, max a.2 b.2)
  | _, _ => none

/-- The base address that a handle names, as a rate's endpoint. -/
def State.hdlBase (s : State) (n : Nat) (h : Word) : Int := (hBase (s.hEntry (s.fg n).ident.job h.toNat).1 : Int)

/-- n, r and b of a packet that gets a promise. -/
def State.costOf (s : State) (n : Nat) (i : Instr) : Option (Nat × Nat × Nat) :=
  let c := s.fg n
  let rate (k : Nat) (rd wr : List Int) : Option (Nat × Nat × Nat) :=
    ((rd.map (fun a => s.rateOf n a false) ++ wr.map (fun a => s.rateOf n a true)).foldl rateMax (some (0, 0))).map
      (fun x => (k, x.1, x.2))
  let d (p : Packet) : Int := (p.dst.toNat : Int)
  let f (p : Packet) : Int := (p.src.toNat : Int)
  let own : Int := 0
  let boxes (p : Packet) (h : Word) : Nat :=
    let t := hFmt (s.hEntry c.ident.job h.toNat).1
    let ex := tileExts (s.spadNum n (Packet.par' p 24 8) 64)
    (rowBytes t (at5 ex 0) * at5 ex 1 * at5 ex 2 * at5 ex 3 * at5 ex 4 + 63) / 64
  match i with
  | .copy p =>
    let k := Packet.par' p 24 4
    let fs := c.fmtAt p.src.toNat
    let fd := c.fmtAt p.dst.toNat
    let conv := !p.cmd.fl.getLsbD 0 && decide (zoneClass (d p) = 0 ∧ zoneClass (f p) = 0 ∧ fs ≠ fd)
    rate (if conv then unitCount p.src.toNat (fs.ext k) + unitCount p.dst.toNat (fd.ext k) else unitCount p.dst.toNat k)
      [f p] [d p]
  | .tcopyRd p => rate (boxes p p.src) [s.hdlBase n p.src] [d p]
  | .tcopyWr p => rate (boxes p p.dst) [f p] [s.hdlBase n p.dst]
  | .im2colw p =>
    let m := im2Of p
    rate ((m.npos * m.row * (tyWidth (hFmt (s.hEntry c.ident.job p.src.toNat).1) / 8) + 63) / 64) [s.hdlBase n p.src] [d p]
  | .fill p => rate (unitCount p.dst.toNat (Packet.par' p 24 4)) [] [d p]
  | .accw p => rate (unitCount p.dst.toNat (Packet.par' p 24 4)) [f p, d p] [d p]
  | .fop p => rate 1 [d p] [d p]
  | .cas p => rate 1 [d p] [d p]
  | .redcopy p => rate (unitCount p.dst.toNat (Packet.par' p 32 4 * elBytes (cmdTy p))) [f p, own] [d p]
  | .mcast p =>
    let k := ((List.range 48).filter (fun j => (Packet.par' p 32 6).testBit j)).length
    let far := (List.range 48).any (fun j => (Packet.par' p 32 6).testBit j && decide (Packet.par' p 28 1 + j ≠ n % 256))
    let r := if far then (2, 24) else (1, 0)
    some (k * unitCount p.dst.toNat (Packet.par' p 24 4), r.1, r.2)
  | .sigrem p =>
    let t := p.dst.toNat
    some (if fld t 30 20 ≠ s.pkgid then (1, 8, 1000) else
      let m := coreNum (fld t 19 16) (fld t 15 8)
      if m = n then (1, 1, 0) else if m / 256 = n / 256 then (1, 2, 24) else (1, 4, 160))
  | .qappend p => if p.cmd.fl.getLsbD 0 then none else rate 1 [own] [d p]
  | _ => none

/-- The promise of an entry that is appended to a copy engine now (R328): 0 where none is made. -/
def State.promiseOf (s : State) (n : Nat) (e : Eng) (q : QEntry) : Word :=
  let c := s.fg n
  let g := c.eng e
  let now := (s.jtime c.ident.job).toNat
  let ahead := g.q.getLast?
  match ahead with
  | some p => if p.promise = 0 then 0 else go now p.promise.toNat
  | none => go now now
where
  go (now after : Nat) : Word :=
    match q.instr with
    | none => 0
    | some i =>
      if wfld q.word 63 56 ≠ 0 then 0
      else
        match s.costOf n i with
        | some (k, r, b) => wOf (max now after + 8 + k * r + b)
        | none => 0

end Sys2Proof.Machine
end

