-- ==== Sys2Proof/Machine/Copy.lean ====
section
/-! DEFINITION. The pieces of copy packets: what one piece of each op reads and writes, and what stops it
(R221, R230, R231, R261, R315 to R327). -/

namespace Sys2Proof.Machine

/-- What trying the next piece of a packet comes to: a piece was issued, a condition stops the packet there
(R327), the piece waits (`full`: for an entry of the store queue, with the address it stores to), or nothing is left to
issue. -/
inductive PRes where
  | did (s : State) (q : QEntry)
  | stop (s : State) (q : QEntry) (cause : Nat) (val : Word)
  | hold (s : State) (q : QEntry) (full : Option Int)
  | fin (s : State) (q : QEntry)

abbrev Piece := State → QEntry → PRes

/-! ## Access helpers -/

/-- A poisoned source byte marks the packet (R327). -/
def QEntry.poison (q : QEntry) (d : Option Word) : QEntry :=
  match d with
  | some a => q.note 6 a
  | none => q

/-- What holds back an access of core n by a packet, at what it names: a Seam link that has failed (R424), and at HBM the
markers of `MARK` (R261).  While a packet forwarded before a marker is unfinished, an access of a later one waits; a read
also waits for the markers of the store queue, and so does a store that leaves for another package.  None while it
waits. -/
def State.markHold (s : State) (x : Cx) (ord : Nat) (a : Int) (need : Nat) : Option State :=
  match x.who.core with
  | none => some s
  | some n =>
    let l := s.locate x.who a need
    let far : Bool := match l.1 with
      | .remote _ b _ => decide (b < 2 ^ 40)
      | _ => false
    let hbm : Bool := match l.1 with
      | .phys pa _ => decide (memKind pa = .hbm)
      | _ => far
    if l.2.heldBack x.who l.1 then none
    else if hbm = false then some l.2
    else
      let c := l.2.fg n
      let early (m : Nat) : Bool :=
        (c.ce0.q ++ c.ce0.lane ++ c.ce1.q ++ c.ce1.lane).any (fun p => decide (p.ord < m))
      let mine := c.marks.filter (fun m => decide (m ≤ ord))
      if mine.any early then none
      else
        let k := l.2.core n
        let sq := if mine.isEmpty || (k.sq.isEmpty && !k.farw.any FarWr.hbm) then k.sq else k.sq ++ [{ marker := true }]
        let k := { k with sq := sq, fg := { c with marks := c.marks.filter (fun m => decide (ord < m)) } }
        if (need = needR ∨ far = true) ∧ k.lane.any (fun e => e.marker) = true then none else some (l.2.setCore n k)

/-- The read slots that a read of k bytes by a core takes of a stack (R232): one for each aligned 128 bytes.  None while
the frame has none left. -/
def State.readSlots (s : State) (x : Cx) (a : Int) (k : Nat) : Option State :=
  match x.who.core with
  | none => some s
  | some n =>
    match s.locate x.who a needR with
    | (.phys pa _, s) => if memKind pa = .hbm then s.takeReads n (pa / 2 ^ 36) (unitCountBy 128 pa k) else some s
    | (_, s) => some s

/-- Reads k bytes for a piece, then goes on. -/
def readPiece (x : Cx) (base a : Int) (k : Nat) (s : State) (q : QEntry) (go : Got → State → QEntry → PRes) : PRes :=
  match x.crosses base a k with
  | some b => .stop s q 0x08 (wOfInt b)
  | none =>
    match (s.markHold x q.ord a needR).bind (fun s => s.readSlots x a k) with
    | none => .hold s q none
    | some s =>
      let g := s.readVa x.who a k
      match g.1.fault with
      | some (c, v) => .stop g.2 q c v
      | none => go g.1 g.2 (q.poison g.1.first)

/-! ### The bytes that the next store or fabric packet will hold (R233, R463) -/

/-- Sends what a packet holds back: a store of the core's queue, or a packet to another package.  None while the queue
is full. -/
def State.flushAgg (s : State) (x : Cx) (q : QEntry) : Option (State × QEntry) :=
  match q.agg with
  | [] => some (s, q)
  | c :: r =>
    let lo := r.foldl (fun a y => min a y.1) c.1
    let rel (l : List (Nat × Byte)) : List (Nat × Byte) := l.map (fun y => (y.1 - lo, y.2))
    let q' := { q with agg := [], aggM := [], aggP := [], aggT := none, outst := q.outst + 1 }
    if lo / 2 ^ 45 = s.pkgid then
      if (s.core x.n).room then
        some (s.queueStore x.n { ce1 := x.ce1, addr := lo, data := rel q.agg, part := rel q.aggM
                                 pm := q.aggP.map (fun y => y - lo), ord := q.ord, tlb := q.aggT }, q')
      else none
    else
      let low (l : List (Nat × Byte)) : List (Nat × Byte) := l.map (fun y => (y.1 % 2 ^ 45, y.2))
      some (s.injectWrite (lo / 2 ^ 45) x.who.mid x.who.path (low q.agg) (q.aggP.map (fun y => y % 2 ^ 45)) (low q.aggM), q')

/-- A packet holds more bytes of the block of 128 or 256 that it gathers; with the last of them they leave
(notes/assumptions/66.md). -/
def gather (x : Cx) (key : Nat) (cells part : List (Nat × Byte)) (pois : List Nat) (page : Option Tlb) (last : Bool) (a : Int)
    (s : State) (q : QEntry) (go : State → QEntry → PRes) : PRes :=
  let q' := { q with
    agg := q.agg ++ cells.map (fun c => (key + c.1, c.2)), aggM := q.aggM ++ part.map (fun c => (key + c.1, c.2))
    aggP := q.aggP ++ pois.map (fun (j : Nat) => key + j), aggT := page }
  if last = false then go s q'
  else
    match s.flushAgg x q' with
    | some r => go r.1 { r.2 with fullAt := none }
    | none => .hold s q (some a)

/-- A core's piece for another package holds an entry of its queue where it is for HBM: the pieces of one aligned 128
bytes hold one (R233).  None while the queue is full. -/
def State.farEntry (s : State) (x : Cx) (n ord pkg b : Nat) (page : Option Tlb) : Option State :=
  let k := s.core n
  if k.farw.any (fun e => decide (e.ce1 = x.ce1 ∧ e.ord = ord ∧ e.pkg = pkg ∧ e.addr / 128 = b / 128)) then some s
  else if b < 2 ^ 40 ∧ k.room = false then none
  else some (s.setCore n { k with farw := k.farw ++ [⟨x.ce1, ord, pkg, b, page, s.now⟩] })

/-- Writes cells of a piece on behalf of an agent, given as offsets from the address a, then goes on: `last` says of a block size whether no
more of its block follows.  HBM is reached by stores of 128 bytes, another package by packets of 256 (R233, R463). -/
def putCells (x : Cx) (w : Who) (base a : Int) (cells part : List (Nat × Byte)) (pois : List Nat) (last : Nat → Bool)
    (s : State) (q : QEntry) (go : State → QEntry → PRes) : PRes :=
  match x.crosses base a (cells.foldl (fun m c => max m (c.1 + 1)) 0) with
  | some b => .stop s q 0x08 (wOfInt b)
  | none =>
    match s.markHold x q.ord a needW with
    | none => .hold s q none
    | some s =>
      let here (s : State) : PRes :=
        match s.writeVa w a cells part pois with
        | .ok s => go s { q with fullAt := none }
        | .fault c s => .stop s q c (wOfInt a)
      match s.locate w a needW, w.core with
      | (.phys pa page, t), some _ =>
        if memKind pa = .hbm then
          match t.refuses (w.midAt pa) pa 1 .w with
          | some c => .stop t q c (wOfInt a)
          | none => gather x (t.pkgid * 2 ^ 45 + pa) cells part pois page (last 128) a t q go
        else here s
      | (.remote p b page, t), some n =>
        match t.farEntry x n q.ord p b page with
        | none => .hold s q (some a)
        | some t => gather x (p * 2 ^ 45 + b) cells part pois page (last 256) a t q go
      | (.remote p b page, t), none => gather x (p * 2 ^ 45 + b) cells part pois page (last 256) a t q go
      | _, _ => here s

/-- Writes the unit of a piece of k bytes from d (R315). -/
def writeUnit (x : Cx) (d k : Nat) (cells : List (Nat × Byte)) (pois : List Nat) (s : State) (q : QEntry)
    (go : State → QEntry → PRes) : PRes :=
  let u := unitOf d k q.piece
  putCells x x.who (d : Int) ((d + u.1 : Nat) : Int) cells [] pois (fun b => lastBy 64 b d k q.piece) s q go

/-- The cells of a list of bytes, from offset 0. -/
def cells0 (bs : List Byte) : List (Nat × Byte) := cellsAt 0 bs

/-- A piece is done: the next one is due, and `res` grows. -/
def pieceDone (r : Nat) (s : State) (q : QEntry) : PRes :=
  .did s { q with piece := q.piece + 1, sub := 0, wt0 := none, fullAt := none, res := q.res + wOf r }

/-! ## COPY and FILL (R221, R314, R315) -/

/-- The formats of a converting copy; none for one that moves raw bytes. -/
def State.convOf (s : State) (x : Cx) (p : Packet) : Option (EFmt × EFmt) :=
  if x.ham || p.cmd.fl.getLsbD 0 then none
  else if zoneClass (p.src.toNat : Int) = 0 ∧ zoneClass (p.dst.toNat : Int) = 0 then
    let fs := (s.fg x.n).fmtAt p.src.toNat
    let fd := (s.fg x.n).fmtAt p.dst.toNat
    if fs = fd then none else some (fs, fd)
  else none

/-- The check of a converting copy (R221, R314). -/
def State.convOk (s : State) (x : Cx) (p : Packet) (fs fd : EFmt) : Bool :=
  let c := s.fg x.n
  let k := Packet.par' p 24 4
  let same (f : EFmt) (a : Nat) : Bool :=
    (List.range 16).all (fun b => decide (b < a / 2 ^ 15) || decide ((a + f.ext k - 1) / 2 ^ 15 < b) ||
      decide (c.fmtAt (b * 2 ^ 15) = f))
  let start (f : EFmt) (a : Nat) : Bool := decide (f.mx = 0) || f.blockStart a
  same fs p.src.toNat && same fd p.dst.toNat && start fs p.src.toNat && start fd p.dst.toNat &&
    (decide (fs.mx = 0 ∧ fd.mx = 0) || decide (k % 32 = 0))

/-- A piece of a raw copy. -/
def rawPiece (x : Cx) (p : Packet) : Piece := fun s q =>
  let d := p.dst.toNat
  let k := Packet.par' p 24 4
  if unitCount d k ≤ q.piece then .fin s q
  else
    let u := unitOf d k q.piece
    readPiece x (p.src.toNat : Int) ((p.src.toNat + u.1 : Nat) : Int) u.2 s q (fun g s q =>
      writeUnit x d k (cells0 g.bytes) g.pois s q (pieceDone u.2))

/-- Writes an MX block with its scale to the own scratchpad, as one unit (R67). -/
def writeBlock (x : Cx) (fd : EFmt) (a b : Nat) (codes : List Nat) (sc : Nat) (pz : Bool) (s : State) (q : QEntry)
    (go : State → QEntry → PRes) : PRes :=
  let els := packRow fd.t codes
  let e := a + b * fd.step
  let t := fd.scale a b
  if 0x80000 < e + els.length ∨ 0x80000 < t + 4 then .stop s q 0x08 (wOf (max e 0x80000))
  else
    let ps (k : Nat) : List Nat := if pz then List.range k else []
    go ((s.padCells x.n (cellsAt e els) ((ps els.length).map (fun (j : Nat) => e + j))).padCells x.n
      (cellsAt t (leBytes 4 sc)) ((ps 4).map (fun (j : Nat) => t + j))) q

/-- Reads elements of a run for a piece, then goes on. -/
def elsPiece (x : Cx) (f : EFmt) (a k m : Nat) (s : State) (q : QEntry) (go : Els → State → QEntry → PRes) : PRes :=
  let r := s.readEls x.who f ((s.fg x.n).codebook f.cb) a k m
  match r.1.fault with
  | some (c, v) => .stop r.2 q c v
  | none => go r.1 r.2 (q.poison r.1.first)

/-- The block that a converting copy read last, as `blk` holds it: its bytes and scale word, 1 + its number, and whether
it is poisoned. -/
def keepBlock (bs : List Byte) (b : Nat) (pz : Bool) : BitVec 512 :=
  BitVec.ofNat 512 (leNat bs + (b + 1) * 2 ^ 320 + boolNat pz * 2 ^ 384)

/-- The elements of m blocks of an MX source from block b on.  A block is read as one unit for the first element that
needs it; the packet keeps the last one for the elements of its next piece (R221). -/
def convBlocks (x : Cx) (f : EFmt) (cb : List Nat) (a : Nat) : Nat → Nat → Els → State → QEntry → (Els → State → QEntry → PRes) → PRes
  | 0, _, e, s, q, go => go e s q
  | m + 1, b, e, s, q, go =>
    let old := q.blk.toNat
    if fld old 351 320 = b + 1 then
      let v := rawVals f cb (leBytes (blockEls f.t + 4) old) {}
      convBlocks x f cb a m (b + 1) (e.append { vals := v.1, bad := List.replicate 32 (old.testBit 384) }) s q go
    else
      let g := s.readRaw x.who f a b
      match g.1.fault with
      | some (c, v) => .stop g.2 q c v
      | none =>
        let pz := !g.1.pois.isEmpty
        let v := rawVals f cb g.1.bytes {}
        convBlocks x f cb a m (b + 1) (e.append { vals := v.1, bad := List.replicate 32 pz, fp := v.2 }) g.2
          { q.poison g.1.first with blk := keepBlock g.1.bytes b pz } go

/-- Elements k0 to k0 + m − 1 of the source of a converting copy, then on. -/
def convEls (x : Cx) (f : EFmt) (a k0 m : Nat) (s : State) (q : QEntry) (go : Els → State → QEntry → PRes) : PRes :=
  if f.mx = 0 then elsPiece x f a k0 m s q go
  else
    let b0 := k0 / 32
    convBlocks x f ((s.fg x.n).codebook f.cb) a ((k0 + m + 31) / 32 - b0) b0 {} s q (fun e s q =>
      go { e with vals := (e.vals.drop (k0 - 32 * b0)).take m, bad := (e.bad.drop (k0 - 32 * b0)).take m } s q)

/-- A piece of a converting copy: an aligned unit of the destination, or a destination block. -/
def convPiece (x : Cx) (p : Packet) (fs fd : EFmt) : Piece := fun s q =>
  let k := Packet.par' p 24 4
  let d := p.dst.toNat
  let cb := (s.fg x.n).codebook fd.cb
  if fd.mx = 0 then
    let ext := fd.ext k
    if unitCount d ext ≤ q.piece then .fin s q
    else
      let u := unitOf d ext q.piece
      let k0 := 8 * u.1 / fd.w
      let k1 := min k ((8 * (u.1 + u.2) + fd.w - 1) / fd.w)
      convEls x fs p.src.toNat k0 (k1 - k0) s q (fun e s q =>
        let r := convVals (fd.code cb) e.vals e.fp
        writeUnit x d ext (cells0 (plainBytes fd.w k0 u.1 u.2 r.1))
          (plainPois fd.w k0 u.1 u.2 e.bad) s { q with flg := q.flg ||| r.2.fl } (pieceDone u.2))
  else if k / 32 ≤ q.piece then .fin s q
  else
    convEls x fs p.src.toNat (32 * q.piece) 32 s q (fun e s q =>
      let r := quantBlock fd.ty 0 false cb e.vals e.fp
      writeBlock x fd d q.piece r.1 r.2.1 (e.bad.any id) s { q with flg := q.flg ||| r.2.2.fl } (pieceDone fd.step))

/-- A piece of `COPY`. -/
def copyPiece (x : Cx) (p : Packet) : Piece := fun s q =>
  match s.convOf x p with
  | some (fs, fd) => convPiece x p fs fd s q
  | none => rawPiece x p s q

/-- A piece of `FILL`: the byte at address a receives byte a mod w of the pattern. -/
def fillPiece (x : Cx) (p : Packet) : Piece := fun s q =>
  let d := p.dst.toNat
  let k := Packet.par' p 24 4
  let w := 2 ^ (p.cmd.fl.toNat % 4)
  let pat := Packet.par' p 32 8
  if unitCount d k ≤ q.piece then .fin s q
  else
    let u := unitOf d k q.piece
    let bs := (List.range u.2).map (fun j => BitVec.ofNat 8 (pat / 2 ^ (8 * ((d + u.1 + j) % w))))
    writeUnit x d k (cells0 bs) [] s q (pieceDone u.2)

/-! ## Atomics (R317, R318) -/

/-- Writes the old element of an atomic where its packet asks for it. -/
def State.putOld (s : State) (x : Cx) (res : Option Nat) (old : List Nat) (es : Nat) : State :=
  match res, old with
  | some off, d :: _ =>
    if x.ham then s.putBytes (hamperBase + off) (leBytes es d) else s.spadWrite x.n off (leBytes es d)
  | _, _ => s

/-- Carries out atomics on a run of elements at an address: at a scratchpad or a memory behind a port at
once; in HBM as a store of the core's queue; in another package by a packet. -/
def atomPiece (x : Cx) (op ty cmp : Nat) (a : Int) (bs : List Byte) (pois : List Nat) (res : Option Nat)
    (s : State) (q : QEntry) (go : State → QEntry → PRes) : PRes :=
  let es := elBytes ty
  let done (s : State) (key : Nat) (at_ : Nat → Nat) : PRes :=
    let r := s.atomsAt op ty cmp key bs (fun _ => false)
    let q := { q with flg := q.flg ||| r.fl }
    let q := match r.bad with
      | some g => q.note 6 (wOf (at_ g / 32))
      | none => q
    go ((r.st.mark (pois.map (fun (j : Nat) => key + j))).putOld x res r.old es) q
  match s.markHold x q.ord a needW with
  | none => .hold s q none
  | some s =>
    match s.locate x.who a needAt with
    | (.pad c off own, s) =>
      if own = false ∧ s.allows 1 (c / 256) x.who.mid .at = false then .stop s q 0x09 (wOfInt a)
      else
        match s.leasedAt c off bs.length with
        | some b => .stop s q 0x02 (wOf b)
        | none => done (s.markDirty c off bs.length) (spadKey c off) (fun g => g - spadKey c 0)
    | (.phys pa page, s) =>
      match s.refuses (x.who.midAt pa) pa bs.length .at with
      | some c => .stop (s.cxlEvent pa c) q c (wOfInt a)
      | none =>
        match x.who.core with
        | some n =>
          if memKind pa = .hbm then
            if (s.core n).room then
              go (s.queueStore n { ce1 := x.ce1, addr := s.pkgid * 2 ^ 45 + pa, data := cells0 bs
                                   atom := some (op, ty, cmp, res), pm := pois, ord := q.ord, tlb := page })
                { q with outst := q.outst + 1, fullAt := none }
            else .hold s q (some a)
          else done s pa (fun g => s.pkgid * 2 ^ 45 + g)
        | none => done (s.countAtom pa 8) pa (fun g => s.pkgid * 2 ^ 45 + g)
    | (.remote pk b page, s) =>
      let send (s : State) : PRes :=
        go (s.injectWith 4 pk x.who.mid 3 (wOf b) (wOf (leNat (bs.take 8))) (atomPayload op ty cmp bs)
          (pois.map (fun (j : Nat) => 10 + j)) []) { q with outst := q.outst + 1, fullAt := none }
      match x.who.core with
      | some n =>
        match s.farEntry x n q.ord pk b page with
        | none => .hold s q (some a)
        | some s => send s
      | none => send s
    | (.fault c, s) => .stop s q c (wOfInt a)
    | (.poisoned b, s) => .stop s q 0x0A (wOf b)

/-- A piece of `ACCW`. -/
def accwPiece (x : Cx) (p : Packet) : Piece := fun s q =>
  let d := p.dst.toNat
  let k := Packet.par' p 24 4
  if unitCount d k ≤ q.piece then .fin s q
  else
    let u := unitOf d k q.piece
    match x.crosses (d : Int) ((d + u.1 : Nat) : Int) u.2 with
    | some b => .stop s q 0x08 (wOfInt b)
    | none =>
      readPiece x (p.src.toNat : Int) ((p.src.toNat + u.1 : Nat) : Int) u.2 s q (fun g s q =>
        atomPiece x (cmdOp p) (cmdTy p) 0 ((d + u.1 : Nat) : Int) g.bytes g.pois none s q (pieceDone u.2))

/-- The one piece of `FOP`. -/
def fopPiece (x : Cx) (p : Packet) : Piece := fun s q =>
  if 1 ≤ q.piece then .fin s q
  else
    atomPiece x (cmdOp p) (cmdTy p) 0 (p.dst.toNat : Int) (leBytes (elBytes (cmdTy p)) p.src.toNat) []
      (some (Packet.par' p 24 8)) s q (pieceDone 0)

/-- The one piece of `CAS`. -/
def casPiece (x : Cx) (p : Packet) : Piece := fun s q =>
  if 1 ≤ q.piece then .fin s q
  else
    atomPiece x 7 (cmdTy p) p.src.toNat (p.dst.toNat : Int) (leBytes (elBytes (cmdTy p)) (Packet.par' p 24 8)) []
      (some (Packet.par' p 32 8)) s q (pieceDone 0)

/-- The elements of a piece of `REDCOPY`, combined. -/
def redEls (op ty : Nat) : List Nat → List Nat → FpSt → List Nat × FpSt
  | a :: r, b :: t, st =>
    let x := atomNew op ty 0 a b st
    let y := redEls op ty r t x.2
    (x.1 :: y.1, y.2)
  | _, _, st => ([], st)

/-- The elements of a run of bytes. -/
def elsOf (es : Nat) : Nat → List Byte → List Nat
  | 0, _ => []
  | k + 1, bs => leNat (bs.take es) :: elsOf es k (bs.drop es)

/-- A piece of `REDCOPY`. -/
def redPiece (x : Cx) (p : Packet) : Piece := fun s q =>
  let d := p.dst.toNat
  let es := elBytes (cmdTy p)
  let k := Packet.par' p 32 4 * es
  if unitCount d k ≤ q.piece then .fin s q
  else
    let u := unitOf d k q.piece
    let l := Packet.par' p 24 8 + u.1
    readPiece x (p.src.toNat : Int) ((p.src.toNat + u.1 : Nat) : Int) u.2 s q (fun g s q =>
      readPiece x (x.own l) (x.own l) u.2 s q (fun h s q =>
        let r := redEls (cmdOp p) (cmdTy p) (elsOf es (u.2 / es) g.bytes) (elsOf es (u.2 / es) h.bytes) {}
        let bs := (r.1.map (leBytes es)).flatten
        writeUnit x d k (cells0 bs) (g.pois ++ h.pois) s { q with flg := q.flg ||| r.2.fl }
          (pieceDone (u.2 / es))))

/-! ## Tensor copies (R230, R231, R319 to R321) -/

/-- The access of the Folder on behalf of a packet. -/
def Cx.folder (x : Cx) : Who := { x.who with mid := midFolder 0 }

/-- Writes the rest of a run of bytes by its aligned 128-byte units from `sub` on; `fuel` bounds their number. -/
def writeRun (x : Cx) (base a : Int) (bs : List Byte) (pois : List Nat) (r : Nat) : Nat → State → QEntry → PRes
  | 0, s, q => pieceDone r s q
  | fuel + 1, s, q =>
    let k := bs.length
    if unitCountBy 128 a.toNat k ≤ q.sub then pieceDone r s q
    else
      let u := unitBy 128 a.toNat k q.sub
      match putCells x x.who base (a + (u.1 : Int)) (cells0 ((bs.drop u.1).take u.2)) []
          ((pois.filter (fun j => decide (u.1 ≤ j ∧ j < u.1 + u.2))).map (fun (j : Nat) => j - u.1))
          (fun b => lastBy 128 b a.toNat k q.sub) s q (fun s q => .did s { q with sub := q.sub + 1 }) with
      | .did s q => writeRun x base a bs pois r fuel s q
      | .stop s q c v => .stop s { q with sub := 0 } c v
      | w => w

/-- The format at the address end of a tensor copy: that of the bank for the own scratchpad, else the
handle's (R221). -/
def State.endFmt (s : State) (x : Cx) (a : Nat) (hf : BitVec 5) : EFmt :=
  if !x.ham && decide (zoneClass (a : Int) = 0) then
    (s.fg x.n).fmtAt a
  else { ty := hf.toNat }

/-- The bytes of a box at the address end, from its elements: raw when the formats agree.  With them, which
are poisoned, the flags, and where the run starts from the address; none where blocks do not fit
(notes/assumptions/26.md). -/
def boxBytes (fs fd : EFmt) (cbS cbD : List Nat) (n0 : Nat) (b : TBox) (els : List Nat) (pois : List Nat) :
    List Byte × List Nat × BitVec 6 × Nat :=
  let k := els.length
  let conv := decide (fs ≠ fd)
  if fd.mx = 0 then
    let r := if conv then convVals (fd.code cbD) (els.map (fs.val cbS)) {} else (els, {})
    let w := fd.w
    match b.row with
    | some row =>
      let rb := rowBytes fd.t n0
      let rows := k / max n0 1
      let bs := ((List.range rows).map (fun i => packRow fd.t ((r.1.drop (i * n0)).take n0))).flatten
      let ps := (List.range bs.length).filter (fun j => pois.any (fun e =>
        decide (e / n0 = j / rb ∧ w * (e % n0) < 8 * (j % rb) + 8 ∧ 8 * (j % rb) < w * (e % n0 + 1))))
      (bs, ps, r.2.fl, row * rb)
    | none =>
      let bs := packRow fd.t r.1
      let ps := (List.range bs.length).filter (fun j => pois.any (fun e =>
        decide (w * e < 8 * j + 8 ∧ 8 * j < w * (e + 1))))
      (bs, ps, r.2.fl, b.first * w / 8)
  else ([], [], 0, 0)

/-- The blocks of a box at an MX address end, written from block j of the box on. -/
def boxBlocks (x : Cx) (fs fd : EFmt) (cbS cbD : List Nat) (a : Nat) (b : TBox) (els pois : List Nat) :
    Nat → Nat → State → QEntry → PRes
  | 0, _, s, q => pieceDone 1 s q
  | m + 1, j, s, q =>
    let l := (els.drop (32 * j)).take 32
    let r := quantBlock fd.ty 0 false cbD (l.map (fs.val cbS)) {}
    let pz := pois.any (fun e => decide (e / 32 = j))
    match writeBlock x fd a (b.first / 32 + j) r.1 r.2.1 pz s { q with flg := q.flg ||| r.2.2.fl }
        (fun s q => .did s q) with
    | .did s q => boxBlocks x fs fd cbS cbD a b els pois m (j + 1) s q
    | w => w

/-- The elements of a box as the Folder delivers them to an address end (notes/assumptions/57.md). -/
def deliver (x : Cx) (hf : BitVec 5) (a n0 : Nat) (b : TBox) (r : Box) (s : State) (q : QEntry) : PRes :=
  let fd := s.endFmt x a hf
  let fs : EFmt := { ty := hf.toNat, cb := if hf = 8 then fd.cb else 0 }
  let cb := (s.fg x.n).codebook fd.cb
  let q := q.poison r.first
  if fd.mx = 0 then
    let y := boxBytes fs fd cb cb n0 b r.els r.pois
    writeRun x (a : Int) ((a + y.2.2.2 : Nat) : Int) y.1 y.2.1 1 (y.1.length / 64 + 2) s { q with flg := q.flg ||| y.2.2.1 }
  else boxBlocks x fs fd cb cb a b r.els r.pois (r.els.length / 32) 0 s q

/-- A handle whose entry no longer matches: the rest of the transfer is abandoned (R231). -/
def stale (s : State) (q : QEntry) : PRes := .fin s (q.note 8 (wOf (2 ^ q.piece - 1)))

/-- The box that a tensor transfer is at: a box that has begun goes on against the entry it was checked against; one that
begins checks the entry again (R231).  `count` gives the boxes of a transfer by the entry's type. -/
def boxAt (x : Cx) (hdl : Word) (count : BitVec 5 → Option Nat) (s : State) (q : QEntry) (go : Hent → State → QEntry → PRes) :
    PRes :=
  let h := s.hEntry x.who.slot hdl.toNat
  let last := if (q.piece = 0 ∧ q.sub = 0) ∨ q.hent = 0 then h.1 else q.hent.toNat
  if decide (0 < q.piece) && (match count (hFmt last) with | some m => decide (m ≤ q.piece) | none => true) then .fin h.2 q
  else if 0 < q.sub then go q.hent.toNat s q
  else if hFresh h.1 hdl.toNat = false ∨ (count (hFmt h.1)).isNone = true then stale h.2 q
  else go h.1 h.2 { q with hent := BitVec.ofNat 512 h.1 }

/-- The first address of a box in a handle's memory, as the place whose stack serves its reads. -/
def State.boxSlots (s : State) (x : Cx) (e : Hent) (els : Nat) : Option State :=
  s.readSlots x (hBase e : Int) (els * packWidth (hFmt e) / 8 + 1)

/-- A box of `TCOPY.rd`. -/
def tcopyRdPiece (x : Cx) (p : Packet) : Piece := fun s q =>
  let conv := p.cmd.aux.toNat % 4
  let n := tileExts q.blk.toNat
  boxAt x p.src (fun t => tileBoxes conv t n) s q (fun e s q =>
    let b := tileBox conv (hFmt e) n q.piece
    let org := (List.range 5).map (fun i => tileOrigin q.blk.toNat i + (at5 b.start i : Int))
    match (s.markHold x q.ord (hBase e : Int) needR).bind (fun s => s.boxSlots x e (boxCount b.dims)) with
    | none => .hold s q none
    | some s =>
      let r := s.boxRead x.folder e org b.dims conv
      match r.1.fault with
      | some (c, v) => .stop r.2 { q with sub := 0 } c v
      | none => deliver x (hFmt e) p.dst.toNat (at5 n 0) b r.1 r.2 q)

/-- A box of `IM2COLW`. -/
def im2Piece (x : Cx) (p : Packet) : Piece := fun s q =>
  let m := im2Of p
  boxAt x p.src (fun t => m.boxes t) s q (fun e s q =>
    let per := 4096 / (m.row * (tyWidth (hFmt e) / 8))
    let first := q.piece * per * m.row
    let k := min (per * m.row) (m.npos * m.row - first)
    match (s.markHold x q.ord (hBase e : Int) needR).bind (fun s => s.boxSlots x e k) with
    | none => .hold s q none
    | some s =>
      let rd (st : Box × State) (j : Nat) : Box × State :=
        if st.1.fault.isSome then st
        else
          let o := st.2.boxRead x.folder e (m.coord (first + j)) [1, 1, 1, 1, 1] 0
          ({ els := st.1.els ++ o.1.els, pois := st.1.pois ++ o.1.pois.map (fun _ => j), fault := o.1.fault
             first := (match st.1.first with | some d => some d | none => o.1.first), far := st.1.far || o.1.far }, o.2)
      let r := (List.range k).foldl rd ({}, s)
      match r.1.fault with
      | some (c, v) => .stop r.2 { q with sub := 0 } c v
      | none => deliver x (hFmt e) p.dst.toNat 0 { start := [], dims := [], first := first, row := none } r.1 r.2 q)

/-- What a write box puts at memory, by address: a value and the mask of the bits written. -/
abbrev BoxMem := Tbl (Nat × Nat)

/-- An element of w bits at a bit position. -/
def BoxMem.put (m : BoxMem) (bit w code : Nat) : BoxMem :=
  let v := code % 2 ^ w * 2 ^ (bit % 8)
  let b := (2 ^ w - 1) * 2 ^ (bit % 8)
  (List.range ((bit % 8 + w + 7) / 8)).foldl (fun m j =>
    let o := tget (0, 0) m (bit / 8 + j)
    let k := b / 2 ^ (8 * j) % 256
    tset (0, 0) m (bit / 8 + j) ((o.1 &&& (255 - k)) + v / 2 ^ (8 * j) % 256, o.2 ||| k)) m

/-- Adds the elements numbered k and up of a box to an image; one outside the extents is discarded (R230). -/
def boxMem (e : Hent) (org : List Int) (dims : List Nat) : Nat → BoxMem → List Nat → BoxMem
  | _, m, [] => m
  | k, m, c :: r =>
    boxMem e org dims (k + 1) (match coords e org (boxIndex 0 dims k) with
      | some y => m.put (hBit e y) (packWidth (hFmt e)) c
      | none => m) r

/-- The bytes of a box that poisoned elements cover. -/
def boxPois (e : Hent) (org : List Int) (dims : List Nat) (bad : List Nat) : List Nat :=
  (bad.map (fun k =>
    match coords e org (boxIndex 0 dims k) with
    | some y =>
      let bit := hBit e y
      (List.range ((bit % 8 + packWidth (hFmt e) + 7) / 8)).map (fun j => bit / 8 + j)
    | none => [])).flatten

/-- The aligned 128-byte blocks that an image touches, in rising order. -/
def BoxMem.blocks : BoxMem → List Nat
  | [] => []
  | (a, _) :: r =>
    match BoxMem.blocks r with
    | b :: t => if a / 128 = b then b :: t else a / 128 :: b :: t
    | [] => [a / 128]

/-- Writes the blocks of a box's image from `sub` on; `fuel` bounds their number. -/
def writeBox (x : Cx) (m : BoxMem) (pois : List Nat) (bl : List Nat) : Nat → State → QEntry → PRes
  | 0, s, q => pieceDone 1 s q
  | fuel + 1, s, q =>
    match bl[q.sub]? with
    | none => pieceDone 1 s q
    | some b =>
      match m.filter (fun c => decide (c.1 / 128 = b)) with
      | [] => pieceDone 1 s q
      | (lo, v) :: r =>
        let l := ((lo, v) :: r).map (fun (c : Nat × (Nat × Nat)) => (c.1 - lo, c.2))
        let next := bl[q.sub + 1]?
        match putCells x x.folder (lo : Int) (lo : Int) (l.map (fun c => (c.1, BitVec.ofNat 8 c.2.1)))
            ((l.filter (fun c => decide (c.2.2 ≠ 255))).map (fun c => (c.1, BitVec.ofNat 8 c.2.2)))
            ((pois.filter (fun y => decide (y / 128 = b))).map (fun y => y - lo))
            (fun k => decide (k = 128) || (match next with | some c => decide (c / 2 ≠ b / 2) | none => true)) s q
            (fun s q => .did s { q with sub := q.sub + 1 }) with
        | .did s q => writeBox x m pois bl fuel s q
        | .stop s q c v => .stop s { q with sub := 0 } c v
        | w => w

/-- The elements of a box read at the address end: their codes in the handle's type (notes/assumptions/57.md). -/
def fetchBox (x : Cx) (hf : BitVec 5) (a n0 : Nat) (b : TBox) (k : Nat) (s : State) (q : QEntry)
    (go : List Nat → List Nat → State → QEntry → PRes) : PRes :=
  let fs := s.endFmt x a hf
  let fd : EFmt := { ty := hf.toNat, cb := if hf = 8 then fs.cb else 0 }
  let cb := (s.fg x.n).codebook fs.cb
  let fin (e : Els) (raw : List Nat) (s : State) (q : QEntry) : PRes :=
    let r := if fs = fd then (raw, ({} : FpSt)) else convVals (fd.code cb) e.vals e.fp
    go r.1 ((List.range k).filter (fun j => e.bad.getD j false)) s { q with flg := q.flg ||| r.2.fl }
  if fs.mx ≠ 0 then elsPiece x fs a b.first k s q (fun e s q => fin e [] s q)
  else
    let rb := rowBytes fs.t n0
    let off := (b.row.getD 0) * rb
    let rows := k / max n0 1
    readPiece x (a : Int) ((a + off : Nat) : Int) (rows * rb) s q (fun g s q =>
      let num := leNat g.bytes
      let raw := (List.range k).map (fun j => num / 2 ^ (8 * (j / n0 * rb) + fs.w * (j % n0)) % 2 ^ fs.w)
      let bad := (List.range k).map (fun j => g.pois.any (fun y =>
        decide (y / rb = j / n0 ∧ fs.w * (j % n0) < 8 * (y % rb) + 8 ∧ 8 * (y % rb) < fs.w * (j % n0 + 1))))
      fin { vals := raw.map (fs.val cb), bad := bad } raw s q)

/-- A box of `TCOPY.wr`. -/
def tcopyWrPiece (x : Cx) (p : Packet) : Piece := fun s q =>
  let n := tileExts q.blk.toNat
  boxAt x p.dst (fun t => tileBoxes 0 t n) s q (fun e s q =>
    let b := tileBox 0 (hFmt e) n q.piece
    let org := (List.range 5).map (fun i => tileOrigin q.blk.toNat i + (at5 b.start i : Int))
    let k := boxCount b.dims
    fetchBox x (hFmt e) p.src.toNat (at5 n 0) b k s q (fun codes bad s q =>
      let m := boxMem e org b.dims 0 [] codes
      writeBox x m (boxPois e org b.dims bad) m.blocks (m.blocks.length + 1) s q))

/-! ## Multicast (R322, R323) -/

/-- The receivers of a multicast: the bit of `rmask` and the core. -/
def Cx.receivers (x : Cx) (p : Packet) (am : Bool) : List (Nat × Nat) :=
  let cl := if am then Packet.par' p 31 1 else x.n / 256
  ((List.range 48).filter (fun j => (Packet.par' p 32 6).testBit j)).map (fun (j : Nat) =>
    (j, coreNum cl (Packet.par' p 28 1 + j)))

/-- Sends the tile to some receivers. -/
def State.sendTiles (s : State) (x : Cx) (p : Packet) (ord : Nat) (bs : List Byte) (pois : List Nat)
    (to' : List (Nat × Nat)) : State :=
  to'.foldl (fun s r =>
    let k := s.core r.2
    s.setCore r.2 { k with tiles := k.tiles ++ [{
      src := x.agent, bit := r.1, off := p.dst.toNat, data := bs, pois := pois, rsem := Packet.par' p 29 1
      asem := Packet.par' p 30 1, ord := ord }] }) s

/-- `MCAST` and the first sending of `AMCAST`: the source is read once, and each receiver gets the tile. -/
def mcastPiece (x : Cx) (p : Packet) (am : Bool) : Piece := fun s q =>
  let k := Packet.par' p 24 4
  let rs := x.receivers p am
  if 1 ≤ q.piece then .fin s q
  else if 0x80000 < p.dst.toNat + k then .stop s q 0x08 (wOf 0x80000)
  else if rs.any (fun r => decide (x.who.core ≠ some r.2) && !s.allows 1 (r.2 / 256) x.who.mid .w) then
    .stop s q 0x09 p.dst
  else
    readPiece x (p.src.toNat : Int) (p.src.toNat : Int) k s q (fun g s q =>
      pieceDone k (s.sendTiles x p q.ord g.bytes g.pois rs)
        { q with outst := q.outst + rs.length, mask := if am then Packet.par' p 32 6 else 0 })

/-! ## Spools (R324) -/

/-- The memory of slot k of a run. -/
def slotMem (p : Packet) (base : Word) (k : Nat) : Int :=
  let c := Packet.par' p 28 4
  (base.toNat : Int) + ((k % c : Nat) : Int) * sextN (Packet.par' p 32 8) 64 +
    ((k / c : Nat) : Int) * sextN (Packet.par' p 40 8) 64

/-- A slot of `SPFILL`: claimed, read into, filled; then the token of `.eos`. -/
def spfillPiece (x : Cx) (p : Packet) : Piece := fun s q =>
  let n := x.n
  let k := p.dst.toNat % 16
  let sp := (s.fg n).spool k
  let nsl := Packet.par' p 24 4
  let eos := p.cmd.fl.getLsbD 0
  if nsl + (if eos then 1 else 0) ≤ q.piece then .fin s q
  else if sp.cfg = false then .stop s q 0x11 (wOf k)
  else if q.claim = none ∧ (sp.seen s.spoolCycle).free = 0 then .hold s q none
  else
    let cl := match q.claim with
      | some j => (j, sp)
      | none => sp.claimProd
    let s := s.putSpool n k cl.2
    let q := { q with claim := some cl.1, wt0 := none }
    let filled (s : State) : State := s.putSpool n k (((s.fg n).spool k).fill cl.1)
    if q.piece = nsl then
      let s := s.modFg n (fun c => c.setSpool k { c.spool k with tok := setTok (c.spool k).tok cl.1 })
      pieceDone 0 (filled s) { q with claim := none }
    else
      let a := slotMem p p.src q.piece
      readPiece x a a (64 * sp.ssz) s q (fun g s q =>
        let off := sp.slotAt cl.1
        pieceDone 1 (filled (s.padCells n (cellsAt off g.bytes) (g.pois.map (fun (j : Nat) => off + j))))
          { q with claim := none })

/-- The bytes of a claimed slot go to their memory. -/
def drainSlot (x : Cx) (p : Packet) (s : State) (q : QEntry) : PRes :=
  let a := slotMem p p.dst q.piece
  match writeRun x a a q.held q.heldP 1 (q.held.length / 64 + 2) s q with
  | .did s q => .did s { q with claim := none, held := [], heldP := [] }
  | r => r

/-- A slot of `SPDRAIN`: claimed and read in one cycle, and then written out (R301); a token ends it (R324). -/
def spdrainPiece (x : Cx) (p : Packet) : Piece := fun s q =>
  let n := x.n
  let k := p.src.toNat % 16
  let sp := (s.fg n).spool k
  if Packet.par' p 24 4 ≤ q.piece then .fin s q
  else if q.claim.isSome then drainSlot x p s q
  else if sp.cfg = false then .stop s q 0x11 (wOf k)
  else if (sp.seen s.spoolCycle).cnt = 0 then .hold s q none
  else if sp.tok.getLsbD sp.hd then
    let s := if p.cmd.fl.getLsbD 0 then s.putSpool n k { (sp.claimCons).2 with tok := clearTok sp.tok sp.hd } else s
    .fin s { q with res := q.res ||| 0x8000000000000000, wt0 := none }
  else
    let off := sp.slotAt sp.hd
    readPiece x (off : Int) (off : Int) (64 * sp.ssz) s { q with wt0 := none } (fun g s q =>
      drainSlot x p (s.putSpool n k (sp.claimCons).2) { q with claim := some sp.hd, held := g.bytes, heldP := g.pois })

/-! ## User-mode queues and remote signals (R313, R325) -/

/-- The fields of a header. -/
structure QHdr where
  v : Bool
  lgn : Nat
  sem : Nat
  base : Nat
  wix : Nat
  cmt : Nat
  rix : Nat
  wb : Nat
  ok : Bool
  deriving DecidableEq, Repr

/-- Reads a header at an offset of a core's scratchpad (R313). -/
def State.qhdr (s : State) (core off : Nat) : QHdr :=
  let r := s.spadNum core off 64
  let lgn := fld r 51 48
  let base := fld r 18 0
  let n := 2 ^ lgn
  { v := r.testBit 63, lgn := lgn, sem := fld r 47 40, base := base, wix := fld r 127 64, cmt := fld r 191 128
    rix := fld r 255 192, wb := fld r 319 256
    ok := r.testBit 63 && decide (fld r 511 320 = 0 ∧ fld r 62 52 = 0 ∧ fld r 39 19 = 0 ∧ 1 ≤ lgn ∧ lgn ≤ 6 ∧
      base % 64 = 0 ∧ base + 64 * n ≤ 0x80000 ∧ (off + 64 ≤ base ∨ base + 64 * n ≤ off)) }

/-- Commits slots in claim order: `wb`, `cmt`, how many signals. -/
def commitGo (n : Nat) : Nat → Nat → Nat → Nat → Nat × Nat × Nat
  | 0, wb, cmt, k => (wb, cmt, k)
  | m + 1, wb, cmt, k =>
    if wb.testBit (cmt % n) then commitGo n m (wb - 2 ^ (cmt % n)) ((cmt + 1) % 2 ^ 64) (k + 1) else (wb, cmt, k)

/-- Adds k signals one by one to a semaphore of core n's context: the context, and whether one overflowed. -/
def signalN (sem : Nat) : Nat → Ctx → Bool → Ctx × Bool
  | 0, c, o => (c, o)
  | k + 1, c, o =>
    match c.semAdd sem 1 with
    | some c => signalN sem k c o
    | none => signalN sem k c true

/-- What a `QAPPEND` comes to at its target. -/
inductive Appended where
  | invalid
  | full
  | leased
  | bad (granule : Nat)
  | ok (s : State) (idx : Nat) (over' : Bool)

/-- The target port executes a `QAPPEND` (R325).  It reads the header: a leased bank refuses that (R172), and a poisoned
header, named by its granule's address divided by 32, keeps the read-modify-write from being done (R245, R327). -/
def State.appendAt (s : State) (core off : Nat) (bs : List Byte) (pois : List Nat) : Appended :=
  let h := s.qhdr core off
  let n := 2 ^ h.lgn
  if (s.leasedAt core off 64).isSome then .leased
  else if let some a := firstPoison s.poison (spadKey core off) 64 then .bad ((a - spadKey core 0) / 32)
  else if h.ok = false then .invalid
  else if n ≤ (h.wix + 2 ^ 64 - h.rix) % 2 ^ 64 then .full
  else
    let i := h.wix
    let slot := h.base + 64 * (i % n)
    let s := s.padCells core (cellsAt slot bs) (pois.map (fun (j : Nat) => slot + j))
    let wb := if h.wb.testBit (i % n) then h.wb else h.wb + 2 ^ (i % n)
    let r := commitGo n (n + 1) wb h.cmt 0
    let s := s.spadWrite core (off + 8) (leBytes 8 (i + 1) ++ leBytes 8 r.2.1)
    let s := s.spadWrite core (off + 32) (leBytes 8 r.1)
    let g := signalN h.sem r.2.2 (s.fg core) false
    .ok (s.setFg core g.1) i g.2

/-- Where a `QAPPEND`'s header lies. -/
def qappendPiece (x : Cx) (p : Packet) : Piece := fun s q =>
  if 1 ≤ q.piece then .fin s q
  else
    readPiece x (x.own p.src.toNat) (x.own p.src.toNat) 64 s q (fun g s q =>
      match s.locate x.who (p.dst.toNat : Int) needW with
      | (.pad c off own, s) =>
        if own = false ∧ s.allows 1 (c / 256) x.who.mid .w = false then .stop s q 0x09 p.dst
        else
          match s.appendAt c off g.bytes g.pois with
          | .leased => .stop s q 0x02 p.dst
          | .bad g => .fin s { q.note 6 (wOf g) with piece := 1 }
          | .invalid => .fin s { q.note 4 0 with piece := 1 }
          | .full => if p.cmd.fl.getLsbD 0 then .hold s q none else .fin s { q.note 4 0 with piece := 1 }
          | .ok s i o => .did s { (if o then q.note 7 0x07 else q) with piece := 1, res := wOf i, wt0 := none }
      | (.remote pk a _, s) =>
        .did (s.inject 6 pk x.who.mid 3 (wOf a) p.dst g.bytes) { q with piece := 1, outst := q.outst + 1, wt0 := none }
      | (.phys _ _, s) => .stop s q 0x08 p.dst
      | (.fault c, s) => .stop s q c p.dst
      | (.poisoned a, s) => .stop s q 0x0A (wOf a))

/-- A `SIGREM` that has a `wait` releases what its wait acquired (R274): the commands it waited for may have posted writes,
and it holds until those of its core are performed. -/
def Cx.postsFirst (x : Cx) (s : State) (q : QEntry) : Bool :=
  match x.who.core with
  | some n => decide (wfld q.word 63 56 ≠ 0) && (s.core n).posted.any (fun w => decide (w.t0 < q.sub))
  | none => false

/-- `SIGREM` (R325): the semaphore of a core of the job; the counter is decremented at completion. -/
def sigremPiece (x : Cx) (p : Packet) : Piece := fun s q0 =>
  let q : QEntry := { q0 with sub := if q0.sub = 0 then s.now + 1 else q0.sub }
  let t := p.dst.toNat
  let pk := fld t 30 20
  let sem := t % 256
  let core := coreNum (fld t 19 16) (fld t 15 8)
  if 1 ≤ q.piece then .fin s q
  else if 1056 < pk ∨ s.ofJob x.who.slot pk = false ∨ s.routed pk = false then .stop s q 0x09 p.dst
  else if x.postsFirst s q = true then .hold s q none
  else if sem = 0 then .did s { q with piece := 1 }
  else if pk = s.pkgid then
    if decide (x.who.core ≠ some core) && !s.allows 1 (core / 256) x.who.mid .w then .stop s q 0x09 p.dst
    else
      match (s.fg core).semAdd sem p.src.toNat with
      | some c => .did (s.setFg core c) { q with piece := 1 }
      | none => .did s { q.note 7 0x07 with piece := 1 }
  else .did (s.inject 6 pk x.who.mid 3 p.src p.dst []) { q with piece := 1, outst := q.outst + 1 }

/-! ## The next piece of a packet, and its start checks that look at the state -/

def pieceOf (x : Cx) (i : Instr) : Piece :=
  match i with
  | .copy p => copyPiece x p
  | .tcopyRd p => tcopyRdPiece x p
  | .tcopyWr p => tcopyWrPiece x p
  | .im2colw p => im2Piece x p
  | .fill p => fillPiece x p
  | .accw p => accwPiece x p
  | .fop p => fopPiece x p
  | .cas p => casPiece x p
  | .redcopy p => redPiece x p
  | .mcast p => mcastPiece x p false
  | .amcast p => mcastPiece x p true
  | .spfill p => spfillPiece x p
  | .spdrain p => spdrainPiece x p
  | .qappend p => qappendPiece x p
  | .sigrem p => sigremPiece x p
  | _ => fun s q => .fin s q

/-- Whether every piece of a started packet has been issued (R315). -/
def State.allIssued (s : State) (x : Cx) (q : QEntry) (i : Instr) : Bool :=
  let units (d : Word) (k : Nat) : Bool := decide (unitCount d.toNat k ≤ q.piece)
  let boxes (n : Option Nat) : Bool := decide (0 < q.piece) && (match n with | some m => decide (m ≤ q.piece) | none => false)
  match i with
  | .copy p =>
    let k := Packet.par' p 24 4
    match s.convOf x p with
    | some (_, fd) => if fd.mx = 0 then units p.dst (fd.ext k) else decide (k / 32 ≤ q.piece)
    | none => units p.dst k
  | .fill p => units p.dst (Packet.par' p 24 4)
  | .accw p => units p.dst (Packet.par' p 24 4)
  | .redcopy p => units p.dst (Packet.par' p 32 4 * elBytes (cmdTy p))
  | .tcopyRd p => boxes (tileBoxes (p.cmd.aux.toNat % 4) (hFmt q.hent.toNat) (tileExts q.blk.toNat))
  | .tcopyWr _ => boxes (tileBoxes 0 (hFmt q.hent.toNat) (tileExts q.blk.toNat))
  | .im2colw p => boxes ((im2Of p).boxes (hFmt q.hent.toNat))
  | .spfill p => decide (Packet.par' p 24 4 + boolNat (p.cmd.fl.getLsbD 0) ≤ q.piece)
  | .spdrain p => decide (Packet.par' p 24 4 ≤ q.piece)
  | _ => decide (1 ≤ q.piece)

/-- Whether a packet stands within a box or a slot (R315, R381). -/
def QEntry.partWay (q : QEntry) (i : Instr) : Bool :=
  match i with
  | .tcopyRd _ => decide (0 < q.sub)
  | .tcopyWr _ => decide (0 < q.sub)
  | .im2colw _ => decide (0 < q.sub)
  | .spfill _ => q.claim.isSome
  | .spdrain _ => q.claim.isSome
  | _ => false

/-- A bound on the number of tries that carry a packet out. -/
def pieceBound (i : Instr) : Nat :=
  match i with
  | .copy p => 2 * unitCount p.dst.toNat (8 * Packet.par' p 24 4) + 2
  | .fill p => unitCount p.dst.toNat (Packet.par' p 24 4) + 2
  | .accw p => unitCount p.dst.toNat (Packet.par' p 24 4) + 2
  | .redcopy p => unitCount p.dst.toNat (8 * Packet.par' p 32 4) + 2
  | .spfill p => Packet.par' p 24 4 + 3
  | .spdrain p => Packet.par' p 24 4 + 3
  | _ => 64

/-- The tile block that a tensor copy reads when it starts (R320); 0 for other ops. -/
def State.tileBlk (s : State) (x : Cx) (i : Instr) : Got × State :=
  let rd (p : Packet) : Got × State := s.readVa x.who (x.own (Packet.par' p 24 8)) 64
  match i with
  | .tcopyRd p => rd p
  | .tcopyWr p => rd p
  | _ => ({}, s)

/-- Whether a tile's blocks divide evenly at an MX address end (notes/assumptions/26.md). -/
def State.boxFits (s : State) (x : Cx) (a : Nat) (t : BitVec 5) (rowEls k : Nat) : Bool :=
  let f := s.endFmt x a t
  decide (f.mx = 0) || (decide (rowEls % 32 = 0) && decide (k % 32 = 0) && f.blockStart a)

/-- The start checks of a packet: the cause and value of the first that fails (R95, R314, R320, R321, R324). -/
def State.startBad (s : State) (x : Cx) (i : Instr) (word : Word) : Option (Nat × Word) :=
  let bad : Option (Nat × Word) := some (0x0E, word)
  let tcopy (conv : Nat) (h : Word) (a : Nat) : Option (Nat × Word) :=
    let g := (s.tileBlk x i).1
    match g.fault, g.first with
    | some f, _ => some f
    | none, some d => some (0x0A, d)
    | none, none =>
      let blk := leNat g.bytes
      let e := (s.hEntry x.who.slot h.toNat).1
      let n := tileExts blk
      if blk / 2 ^ 320 ≠ 0 ∨ n.any (fun k => decide (k = 0)) = true then bad
      else if hFresh e h.toNat = false then none
      else if (tileBoxes conv (hFmt e) n).isNone then bad
      else if s.boxFits x a (hFmt e) (if conv = 0 then at5 n 0 else at5 n 0 * at5 n 1) (boxCount n) then none
      else bad
  if staticOk x.ham i = false then bad
  else
    match i with
    | .copy p =>
      match s.convOf x p with
      | some (fs, fd) => if s.convOk x p fs fd then none else bad
      | none => none
    | .tcopyRd p => tcopy (p.cmd.aux.toNat % 4) p.src p.dst.toNat
    | .tcopyWr p => tcopy 0 p.dst p.src.toNat
    | .im2colw p =>
      let e := (s.hEntry x.who.slot p.src.toNat).1
      if hFresh e p.src.toNat = false then none
      else if ((im2Of p).boxes (hFmt e)).isNone then bad
      else if s.boxFits x p.dst.toNat (hFmt e) (im2Of p).row ((im2Of p).npos * (im2Of p).row) then none
      else bad
    | .spfill p => if ((s.fg x.n).spool (p.dst.toNat % 16)).cfg then none else some (0x11, wOf (p.dst.toNat % 16))
    | .spdrain p => if ((s.fg x.n).spool (p.src.toNat % 16)).cfg then none else some (0x11, wOf (p.src.toNat % 16))
    | _ => none

end Sys2Proof.Machine
end

