-- ==== Sys2Proof/Machine/CopyRun.lean ====
section
/-! DEFINITION. The copy engines: inline packets, `CPPUT`, the run of a packet, its completion, and the events
around it (R93, R284, R311 to R313, R315, R316, R322 to R329, R388). -/

namespace Sys2Proof.Machine

/-! ## The entry a copy engine works on -/

/-- The agent of a core's copy engine for a packet. -/
def State.cxOf (s : State) (n : Nat) (e : Eng) (ord : Nat) : Cx :=
  let ce1 := decide (e = .ce1)
  { who := { core := some n, slot := (s.fg n).ident.job, mid := midCe n ce1, ord := ord }, ce1 := ce1
    agent := .core n ce1 }

/-- The lane's head while the handler runs and the lane holds one, else the queue's (R384). -/
def Ctx.copyHead (c : Ctx) (e : Eng) : Option (Bool × QEntry) :=
  let g := c.eng e
  match c.hact, g.lane with
  | true, q :: _ => some (true, q)
  | _, _ => g.q.head?.map (fun q => (false, q))

def Engine.putHead (g : Engine) (lane : Bool) (q : QEntry) : Engine :=
  if lane then { g with lane := q :: g.lane.drop 1 } else { g with q := q :: g.q.drop 1 }

/-- Takes the head off; in a ring the next entry becomes the head. -/
def Engine.popHead (g : Engine) (lane : Bool) : Engine :=
  if lane then { g with lane := g.lane.drop 1 }
  else
    let g := { g with q := g.q.drop 1 }
    if g.r then { g with rIdx := (g.rIdx + 1) % max g.rCnt 1 } else g

def State.putHead (s : State) (n : Nat) (e : Eng) (lane : Bool) (q : QEntry) : State :=
  s.modFg n (fun c => c.setEng e ((c.eng e).putHead lane q))

/-- The ops whose pieces wait under the engine's deadline (R324, R325). -/
def waitsD (i : Instr) : Bool :=
  match i with
  | .spfill _ => true
  | .spdrain _ => true
  | .qappend p => p.cmd.fl.getLsbD 0
  | _ => false

/-- A packet with a head word that names no packet is none. -/
def QEntry.packet (q : QEntry) : Option Packet := q.instr.bind packetOf

/-! ## Completion (R316, R326, R388) -/

/-- The 32 bytes of a completion record. -/
def recBytes (q : QEntry) (t : Word) : List Byte :=
  leBytes 8 (statusWord q.code q.det.toNat).toNat ++ leBytes 8 q.res.toNat ++ leBytes 8 t.toNat ++ leBytes 8 q.flg.toNat

/-- The final status of a packet: REFUSED carries the mask of its receivers (R322). -/
def QEntry.settled (q : QEntry) : QEntry := if q.mask = 0 then q else q.note 4 (wOf q.mask)

/-- The decrement that a packet's `dep` asks for (R203, R316): the state, and whether the count overflowed. -/
def State.copyDep (s : State) (mid : Nat) (p : Packet) : State × Bool :=
  if p.cmd.dc = false then (s, false)
  else if wfld p.dep 26 16 = s.pkgid then s.decDep (wfld p.dep 15 12) (wfld p.dep 11 0) (wfld p.dep 47 32)
  else (s.inject 6 (wfld p.dep 26 16) mid 3 0 p.dep [1], false)

/-- Whether a packet is a tensor transfer, with its handle (R388). -/
def tensorOf (i : Instr) : Option Word :=
  match i with
  | .tcopyRd p => some p.src
  | .tcopyWr p => some p.dst
  | .im2colw p => some p.src
  | _ => none

/-- A packet of core n completes: record, signal, dependence counter; then a stop after the packet. -/
def State.copyComplete (s : State) (n : Nat) (e : Eng) (lane : Bool) (q : QEntry) (i : Instr) (p : Packet) : State :=
  let q := q.settled
  let s := if p.cmd.cr then
      s.padCells n (cellsAt (p.rcd.toNat % 2 ^ 19) (recBytes q (s.jtime (s.fg n).ident.job))) []
    else s
  let s := s.modFg n (fun c => c.setEng e ((c.eng e).popHead lane))
  let s := s.signal n e p.cmd.sig.toNat
  let d := s.copyDep (midCe n (decide (e = .ce1))) p
  let s := if d.2 then d.1.stopFault n e 0x07 p.dep else d.1
  let s := if q.code = 7 then s.stopFault n e 0x07 (wOf (p.dst.toNat % 256)) else s
  let s := match tensorOf i with
    | some h => if q.code = 8 ∧ p.cmd.cr = false then s.stopFault n e 0x0B h else s
    | none => s
  s.settle n e

/-! ## The run of a packet (R315, R327) -/

/-- Store back-pressure (R235, R327): the packet stops at the piece, whose store is not performed. -/
def State.backPressure (s : State) (n : Nat) (e : Eng) (lane : Bool) (q : QEntry) (at_ : Word) : State :=
  (s.putHead n e lane { q with fullAt := none }).stopFault n e 0x05 at_

/-- The time in which a store has to find a free entry of the store queue (R44). -/
def Ctx.storeWait (c : Ctx) : Nat := wfld c.csr.sdl 39 0

/-- A store of a packet finds no free entry: it begins to wait, or its wait is over (R44, R235). -/
def State.holdStore (s : State) (n : Nat) (e : Eng) (lane : Bool) (q : QEntry) (a : Int) : State :=
  let t := s.jtime (s.fg n).ident.job
  let w := q.fullAt.getD (t, wOfInt a)
  if w.1.toNat + (s.fg n).storeWait ≤ t.toNat then s.backPressure n e lane q w.2
  else s.putHead n e lane { q with fullAt := some w }

/-- A condition stops a packet at a piece: what it holds back leaves first (R327). -/
def State.stopPiece (s : State) (n : Nat) (e : Eng) (lane : Bool) (q : QEntry) (c : Nat) (v : Word) : State :=
  match s.flushAgg (s.cxOf n e q.ord) q with
  | some r => (r.1.putHead n e lane r.2).stopFault n e c v
  | none => s.holdStore n e lane q ((q.agg.headD (0, 0)).1 % 2 ^ 45 : Nat)

/-- One try of the next piece of core n's started packet: the state, and whether a piece was issued.  A store whose wait
is over is not tried again. -/
def State.tryPiece (s : State) (n : Nat) (e : Eng) (lane : Bool) (q : QEntry) (i : Instr) : State × Bool :=
  let t := s.jtime (s.fg n).ident.job
  match q.fullAt.filter (fun w => decide (w.1.toNat + (s.fg n).storeWait < t.toNat)) with
  | some w => (s.backPressure n e lane q w.2, false)
  | none =>
    match pieceOf (s.cxOf n e q.ord) i s q with
    | .did s q => (s.putHead n e lane q, true)
    | .fin s q => (s.putHead n e lane { q with fin := true }, false)
    | .stop s q c v => (s.stopPiece n e lane q c v, false)
    | .hold s q (some a) => (s.holdStore n e lane q a, false)
    | .hold s q none => (s.putHead n e lane (if waitsD i && q.wt0.isNone then { q with wt0 := some t } else q), false)

/-- Pieces one after another, until none is issued. -/
def runPieces (n : Nat) (e : Eng) (lane : Bool) (i : Instr) : Nat → State → State
  | 0, s => s
  | fuel + 1, s =>
    match (s.fg n).copyHead e with
    | none => s
    | some (_, q) =>
      let r := s.tryPiece n e lane q i
      if r.2 then runPieces n e lane i fuel r.1 else r.1

/-- Completes the head when nothing is left of it. -/
def State.finishCopy (s : State) (n : Nat) (e : Eng) : State :=
  match (s.fg n).copyHead e with
  | none => s
  | some (lane, q) =>
    match q.instr, q.packet with
    | some i, some p => if q.started && q.fin && decide (q.outst = 0) then s.copyComplete n e lane q i p else s
    | _, _ => s

/-- What a copy engine's packet holds back leaves, where the store queue has room (R233, R463). -/
def State.flushCopy (s : State) (n : Nat) (e : Eng) : State :=
  match (s.fg n).copyHead e with
  | none => s
  | some (lane, q) =>
    if q.started = false ∨ q.agg.isEmpty = true then s
    else
      match s.flushAgg (s.cxOf n e q.ord) q with
      | some r => r.1.putHead n e lane r.2
      | none => s

/-- Goes on with a started packet: one piece, or in the view of the first part all it can. -/
def State.goOn (s : State) (n : Nat) (e : Eng) (lane : Bool) (q : QEntry) (i : Instr) : State :=
  if s.lockstep then (runPieces n e lane i (pieceBound i) s).finishCopy n e
  else (s.tryPiece n e lane q i).1

/-- Starts a packet whose checks have passed and whose wait is met (R287, R320). -/
def State.startPacket (s : State) (n : Nat) (e : Eng) (lane : Bool) (q : QEntry) (i : Instr) : State :=
  let b := s.tileBlk (s.cxOf n e q.ord) i
  let q := { ((s.fg n).eng e).ringMark q s.now with started := true, wt0 := none, blk := BitVec.ofNat 512 (leNat b.1.bytes) }
  let s := b.2.modFg n (fun c =>
    let c := c.semTake (wfld q.word 63 56)
    c.setEng e { (c.eng e).putHead lane q with seq := (c.eng e).seq + 1 })
  if s.lockstep then s.goOn n e lane q i else s

/-- Whether the head of an engine may move: a lane's always; a queue's not while the engine is stopped, nor
start while the handler runs (R380, R384). -/
def Ctx.copyMoves (c : Ctx) (e : Eng) (lane : Bool) (q : QEntry) : Bool :=
  lane || (decide ((c.eng e).st ≠ .stopped) && (q.started || !c.hact))

/-- Whether the wait of an entry that has not started has passed its D (R288). -/
def QEntry.expired (q : QEntry) (jt : Word) : Bool :=
  match q.wt0 with
  | some t0 => !q.started && decide ((deadlineAt t0 q.dl).toNat < jt.toNat)
  | none => false

/-- The head's wait has passed D: the engine stops.  A lane entry whose engine is stopped already only stays unstarted,
until `TRET` raises its own trap (R386). -/
def State.expireHead (s : State) (n : Nat) (e : Eng) (lane : Bool) : State :=
  if lane && decide (((s.fg n).eng e).st = .stopped) then s else s.stopDeadline n e

/-- The head of a copy engine is tried: it starts, or its wait begins or ends, or it fails its start check. -/
def State.startCopy (s : State) (n : Nat) (e : Eng) : State :=
  match (s.fg n).copyHead e with
  | none => s
  | some (lane, q) =>
    if q.started ∨ (s.fg n).copyMoves e lane q = false then s
    else if q.expired (s.jtime (s.fg n).ident.job) then s.expireHead n e lane
    else
      match q.instr with
      | none => s.stopFault n e 0x0E q.word
      | some i =>
        match (s.fg n).regs.entryPoison q.ord i, s.startBad (s.cxOf n e q.ord) i q.word with
        | some a, _ => s.stopFault n e 0x0A (wOf (2 ^ 63 + a))
        | none, some (c, v) => s.stopFault n e c v
        | none, none =>
          if (s.fg n).semReady (wfld q.word 63 56) then s.startPacket n e lane q i
          else
            match q.wt0 with
            | some _ => s
            | none => s.putHead n e lane { q with wt0 := some (s.jtime (s.fg n).ident.job) }

/-- The head of a copy engine goes on, where it has started. -/
def State.workCopy (s : State) (n : Nat) (e : Eng) : State :=
  match (s.fg n).copyHead e with
  | none => s
  | some (lane, q) =>
    match q.instr with
    | none => s
    | some i =>
      if q.started = false ∨ (s.fg n).copyMoves e lane q = false then s
      else if q.fin then s.finishCopy n e
      else s.goOn n e lane q i

/-- A copy engine during a freeze (R381): it goes on to the boundary of its piece or box, what it has issued is performed,
and a packet with nothing left completes and signals. -/
def State.frozenCopy (s : State) (n : Nat) (e : Eng) : State :=
  match (s.fg n).copyHead e with
  | none => s
  | some (lane, q) =>
    match q.instr with
    | none => s
    | some i =>
      if q.started = false ∨ (s.fg n).copyMoves e lane q = false then s
      else if q.fin then s.finishCopy n e
      else if q.partWay i then (s.tryPiece n e lane q i).1
      else if s.allIssued (s.cxOf n e q.ord) q i then (s.putHead n e lane { q with fin := true }).finishCopy n e
      else s.flushCopy n e

/-- A copy engine's head goes on, or is tried. -/
def State.moveCopy (s : State) (n : Nat) (e : Eng) : State :=
  match (s.fg n).copyHead e with
  | none => s
  | some (_, q) => if q.started then s.workCopy n e else s.startCopy n e

/-! ## Inline packets (R93, R95, R282 to R284) -/

/-- Whether an engine takes forwarded packets: a ring does not, but its lane does (R284, R384). -/
def Ctx.open' (c : Ctx) (e : Eng) : Bool := c.hact || !(c.eng e).inRing

/-- The free entries of an engine's queue, or of its lane while the handler runs. -/
def Ctx.freeOf (c : Ctx) (e : Eng) : Nat := if c.hact then 4 - (c.eng e).lane.length else 16 - (c.eng e).q.length

/-- Of two engines the one with more free entries, CE0 when they are equal (R95). -/
def pickCe (a b : Bool) (fa fb : Nat) : Option Eng :=
  if a && b then some (if fa < fb then .ce1 else .ce0) else if a then some .ce0 else if b then some .ce1 else none

/-- The engine of an inline packet; none where it is in ring mode. -/
def Ctx.engineFor (c : Ctx) (eng : BitVec 2) : Option Eng :=
  if eng = 1 then (if c.open' .ce0 then some .ce0 else none)
  else if eng = 2 then (if c.open' .ce1 then some .ce1 else none)
  else pickCe (c.open' .ce0) (c.open' .ce1) (c.freeOf .ce0) (c.freeOf .ce1)

/-- Forwards an inline packet, and in the view of the first part starts it when nothing is ahead of it. -/
def State.forwardCopy (s : State) (n : Nat) (e : Eng) (q : QEntry) : State :=
  let q := { q with promise := s.promiseOf n e q, missed := true, dl := (s.fg n).edl e }
  let free := (s.fg n).freeNow e
  let s := s.push n e q
  if s.lockstep && free then s.moveCopy n e else s

/-- A class CP word at the sequencer. -/
def State.issueCP (s : State) (i : Instr) (p : Packet) : State :=
  s.onCore (encodeWord i) (fun n =>
    let c := s.fg n
    let q := s.entry n .ce0 (encodeWord i) (encodeRest i) 0 0 0
    let any := decide (p.cmd.eng = 0)
    match c.engineFor p.cmd.eng with
    | none => (s.takeTrap n 0x0E (if p.cmd.eng = 2 then 4 else 3) c.pc (encodeWord i)).tick 1
    | some e =>
      let jam (e : Eng) : Bool := !c.open' e || c.jammed e
      if (if any then jam .ce0 && jam .ce1 else jam e) then (s.takeTrap n 0x06 0 c.pc c.holdReport).tick 1
      else if c.hasRoom e = false then s.holdAt n (if any then .ce0 else e) any q 64
      else (s.forwardCopy n e q).retire 64 4)

def execCopy (p : Packet) (s : State) : Out := .next (s.issueCP (.copy p) p)
def execTcopyRd (p : Packet) (s : State) : Out := .next (s.issueCP (.tcopyRd p) p)
def execTcopyWr (p : Packet) (s : State) : Out := .next (s.issueCP (.tcopyWr p) p)
def execIm2colw (p : Packet) (s : State) : Out := .next (s.issueCP (.im2colw p) p)
def execFill (p : Packet) (s : State) : Out := .next (s.issueCP (.fill p) p)
def execAccw (p : Packet) (s : State) : Out := .next (s.issueCP (.accw p) p)
def execFop (p : Packet) (s : State) : Out := .next (s.issueCP (.fop p) p)
def execCas (p : Packet) (s : State) : Out := .next (s.issueCP (.cas p) p)
def execRedcopy (p : Packet) (s : State) : Out := .next (s.issueCP (.redcopy p) p)
def execMcast (p : Packet) (s : State) : Out := .next (s.issueCP (.mcast p) p)
def execAmcast (p : Packet) (s : State) : Out := .next (s.issueCP (.amcast p) p)
def execSpfill (p : Packet) (s : State) : Out := .next (s.issueCP (.spfill p) p)
def execSpdrain (p : Packet) (s : State) : Out := .next (s.issueCP (.spdrain p) p)
def execQappend (p : Packet) (s : State) : Out := .next (s.issueCP (.qappend p) p)
def execSigrem (p : Packet) (s : State) : Out := .next (s.issueCP (.sigrem p) p)

/-! ## CPPUT (R312) -/

/-- Appends an entry to a queue, whatever the handler does. -/
def State.appendQ (s : State) (n : Nat) (e : Eng) (q : QEntry) : State :=
  s.modFg n (fun c =>
    let g := c.eng e
    { c.setEng e { g with q := g.q ++ [q], st := if g.st = .idle then .running else g.st, wcnt := g.wcnt + 1 } with
      ord := c.ord + 1 })

/-- The engine that a packet's `eng` names for `CPPUT`; none where it is in ring mode. -/
def Ctx.putEngine (c : Ctx) (eng : Nat) : Option Eng :=
  let a := !c.ce0.inRing
  let b := !c.ce1.inRing
  if eng = 2 then (if b then some .ce1 else none)
  else if eng = 1 ∨ eng = 3 then (if a then some .ce0 else none)
  else pickCe a b (16 - c.ce0.q.length) (16 - c.ce1.q.length)

/-- The claim: the entry, the status with the claimed number, and for `.p` the promise. -/
def cpputTest (f : FmtD) (prom : Bool) : Test := fun s n w =>
  let c := s.fg n
  let e := engOf w.b.toNat
  if 16 ≤ (c.eng e).q.length then none
  else
    let num := leNat w.bytes
    let seq := (c.eng e).wcnt.toNat
    let q : QEntry := { word := wOf num, rest := BitVec.ofNat 448 (num / 2 ^ 64), dl := c.edl e, ord := c.ord, pc := w.pc }
    let pr := s.promiseOf n e q
    let free := (c.eng e).q.isEmpty && (decide ((c.eng e).st = .idle) || decide ((c.eng e).st = .running))
    let s := s.appendQ n e { q with promise := pr, missed := !prom }
    let s := if s.lockstep && free && !c.hact then s.moveCopy n e else s
    let s := if prom then s.modFg n (fun c => c.setX f.d pr) else s
    some (s.doneD n f w 0 (seq * 2 ^ 16 + boolNat (decide (e = .ce1))))

def State.cpput (s : State) (f : FmtD) (i : Instr) (prom : Bool) : State :=
  s.onCore ((encode64 i).getD 0) (fun n =>
    let w := s.waitOf f i
    let a := w.a.toNat
    if 0x80000 ≤ a then s.trapHere 0x10 w.a
    else if a % 64 ≠ 0 then s.trapHere 0x0F w.a
    else
      match s.leasedAt n a 64, s.spadPoison n a 64 with
      | some b, _ => s.trapHere 0x02 (wOf b)
      | none, true => s.trapHere 0x0A w.a
      | none, false =>
        let bs := s.spadRead n a 64
        match (s.fg n).putEngine (fld (leNat bs) 43 42) with
        | none => s.trapHere 0x0E (wOf (leNat (bs.take 8)))
        | some e => s.beginWait n { w with b := wOf (engNum e), bytes := bs } (cpputTest f prom) (lateD f))

def execCpput (f : FmtD) (s : State) : Out := .next (s.cpput f (.cpput f) false)
def execCpputP (f : FmtD) (s : State) : Out := .next (s.cpput f (.cpputP f) true)

/-! ## The Hamper's copy engines (R356) -/

def State.hcopy (s : State) (e : Nat) : Option HCopy := s.hamper.copies.find? (fun h => decide (h.eng = e))
def State.setHcopy (s : State) (h : HCopy) : State :=
  { s with hamper := { s.hamper with copies := s.hamper.copies.map (fun x => if x.eng = h.eng then h else x) } }
/-- Frees an engine; the packet that has waited longest for one (numbered from 16 up) takes it. -/
def State.dropHcopy (s : State) (e : Nat) : State :=
  let l := s.hamper.copies.filter (fun x => decide (x.eng ≠ e))
  let l := if e < 16 then
      match l.find? (fun x => decide (16 ≤ x.eng)) with
      | some w => l.map (fun (x : HCopy) => if x.eng = w.eng then { x with eng := e } else x)
      | none => l
    else l
  { s with hamper := { s.hamper with copies := l } }

def HCopy.cx (h : HCopy) : Cx :=
  { who := { core := none, slot := h.job, mid := midThread (h.thread.getD 0), ord := h.entry.ord }, ce1 := false
    agent := .hamper h.eng }

/-- The packet of a Hamper engine ends: its dependence counter; a thread that waits takes its result, and
without one the engine is free at once. -/
def State.hcopyEnd (s : State) (h : HCopy) : State :=
  match h.entry.packet with
  | none => s.dropHcopy h.eng
  | some p =>
    let d := s.copyDep h.cx.who.mid p
    let q := h.entry.settled
    let q := if d.2 then q.note 7 0x07 else q
    if h.thread.isSome then d.1.setHcopy { h with entry := q, fin := true } else d.1.dropHcopy h.eng

/-- One try of the next piece: what would stop a core's engine ends the packet with FAULTED. -/
def State.tryHpiece (s : State) (h : HCopy) (i : Instr) : State × Bool :=
  match pieceOf h.cx i s h.entry with
  | .did s q => (s.setHcopy { h with entry := q }, true)
  | .fin s q => (s.setHcopy { h with entry := { q with fin := true } }, false)
  | .stop s q c _ =>
    let r := (s.flushAgg h.cx q).getD (s, q)
    (r.1.setHcopy { h with entry := { r.2.note 7 (wOf c) with fin := true, outst := 0, mask := 0 } }, false)
  | .hold s _ _ => (s, false)

def runHpieces (e : Nat) (i : Instr) : Nat → State → State
  | 0, s => s
  | fuel + 1, s =>
    match s.hcopy e with
    | none => s
    | some h =>
      let r := s.tryHpiece h i
      if r.2 then runHpieces e i fuel r.1 else r.1

/-- Whether a packet of the Hamper has nothing left to wait for. -/
def HCopy.over' (h : HCopy) : Bool := h.entry.fin && decide (h.entry.outst = 0) && decide (h.entry.mask = 0) && !h.fin

/-- The packet of a Hamper engine goes on as far as it can, and ends when nothing is left. -/
def State.moveHcopy (s : State) (e : Nat) : State :=
  match s.hcopy e with
  | none => s
  | some h =>
    match h.entry.instr with
    | none => s
    | some i =>
      let s := if h.entry.fin then s else runHpieces e i (pieceBound i) s
      match s.hcopy e with
      | some h => if h.over' then s.hcopyEnd h else s
      | none => s

/-! ## Events of packets -/

/-- Finds the entry of a copy agent that has a place in order, and changes it. -/
def State.modPacket (s : State) (a : CopyAgent) (ord : Nat) (f : QEntry → QEntry) : State :=
  let g (q : QEntry) : QEntry := if q.started ∧ q.ord = ord then f q else q
  match a with
  | .core n ce1 =>
    let e : Eng := if ce1 then .ce1 else .ce0
    s.modFg n (fun c => c.setEng e { c.eng e with q := (c.eng e).q.map g, lane := (c.eng e).lane.map g })
  | .hamper e =>
    match s.hcopy e with
    | some h => if h.entry.ord = ord then s.setHcopy { h with entry := f h.entry } else s
    | none => s

/-- `MULTICAST_TILE_ARRIVAL`: the oldest tile on its way to core n meets its semaphore (R322, R323). -/
def execMulticastTileArrival (n : Nat) (s : State) : Out :=
  .next (
    let k := s.core n
    match k.tiles with
    | [] => s
    | t :: r =>
      let am : Bool := match t.src with
        | .hamper _ => true
        | .core _ _ => false
      let s1 := s.setCore n { k with tiles := r }
      if (s1.fg n).semReady t.rsem then
        let s2 := (s1.padCells n (cellsAt t.off t.data) (t.pois.map (fun (j : Nat) => t.off + j))).modFg n
          (fun c => c.semTake t.rsem)
        let g := signalN t.asem 1 (s2.fg n) false
        (s2.setFg n g.1).modPacket t.src t.ord (fun q =>
          let q := if g.2 then q.note 7 0x07 else q
          { q with outst := q.outst - 1,
                   mask := if am && q.mask.testBit t.bit then q.mask - 2 ^ t.bit else q.mask })
      else
        s1.modPacket t.src t.ord (fun q =>
          { q with outst := q.outst - 1,
                   mask := if am || q.mask.testBit t.bit then q.mask else q.mask + 2 ^ t.bit }))

/-- `AMCAST_RETRY` of a Hamper engine: every 64 cycles each receiver that refused is tried again (R323). -/
def execAmcastRetry (e : Nat) (s : State) : Out :=
  .next (
    match s.hcopy e with
    | none => s
    | some h =>
      match h.entry.instr with
      | some (.amcast p) =>
        if h.entry.fin && decide (h.entry.outst = 0) && decide (h.entry.mask ≠ 0) &&
            decide (h.entry.sub + 64 ≤ s.now) then
          let k := Packet.par' p 24 4
          let g := s.readVa h.cx.who (p.src.toNat : Int) k
          let rs := (h.cx.receivers p true).filter (fun r => h.entry.mask.testBit r.1)
          (g.2.sendTiles h.cx p h.entry.ord g.1.bytes g.1.pois rs).setHcopy
            { h with entry := { h.entry with outst := rs.length, sub := s.now } }
        else s
      | _ => s)

/-- `QAPPEND_AT_TARGET`: the target port executes the append of a started packet. -/
def execQappendAtTarget (c : CopyAgent) (s : State) : Out :=
  .next (
    match c with
    | .core n ce1 =>
      let e : Eng := if ce1 then .ce1 else .ce0
      match (s.fg n).copyHead e with
      | some (lane, q) =>
        match q.instr with
        | some (.qappend p) =>
          if q.started ∧ q.fin = false ∧ (s.fg n).stop = none ∧ (s.fg n).copyMoves e lane q = true then
            (s.tryPiece n e lane q (.qappend p)).1
          else s
        | _ => s
      | none => s
    | .hamper e =>
      match s.hcopy e with
      | some h =>
        match h.entry.instr with
        | some (.qappend _) => s.moveHcopy e
        | _ => s
      | none => s)

/-- `REMOTE_SIGNAL_ARRIVAL`: a signal from another package reaches core n's semaphore file (R289, R290): one
that would overflow changes nothing, and its issuer is told. -/
def execRemoteSignalArrival (n sem amt : Nat) (s : State) : Out :=
  .next (
    match takeSig n sem amt s.sch.sigIn [] with
    | none => s
    | some (x, rest) =>
      let s1 : State := { s with sch := { s.sch with sigIn := rest } }
      match (s1.fg n).semAdd sem amt with
      | some c => (s1.setFg n c).answerSig x 0 0
      | none => s1.answerSig x 4 0)

/-- `COPY_PACKET_COMPLETION` (R316): every read is bound and every write performed. -/
def execCopyPacketCompletion (c : CopyAgent) (s : State) : Out :=
  .next (
    match c with
    | .core n ce1 => if (s.fg n).stop.isSome then s else s.finishCopy n (if ce1 then .ce1 else .ce0)
    | .hamper e =>
      match s.hcopy e with
      | some h => if h.over' then s.hcopyEnd h else s
      | none => s)

/-- Marks the first packet of a list whose promise has passed. -/
def missGo (now : Nat) : List QEntry → List QEntry × Option Word
  | [] => ([], none)
  | q :: r =>
    if q.missed = false ∧ q.promise ≠ 0 ∧ q.promise.toNat < now then ({ q with missed := true } :: r, some q.promise)
    else
      let x := missGo now r
      (q :: x.1, x.2)

/-- `MISSED_PROMISE` (R329): once for a packet that has not completed after its promise. -/
def execMissedPromise (n : Nat) (ce1 : Bool) (s : State) : Out :=
  .next (
    let c := s.fg n
    let e : Eng := if ce1 then .ce1 else .ce0
    let g := c.eng e
    if c.stop.isSome ∨ g.missed.isSome then s
    else
      let r := missGo (s.jtime c.ident.job).toNat g.q
      match r.2 with
      | some p => s.setFg n (c.setEng e { g with q := r.1, missed := some p })
      | none => s)

/-- `SPOOL_OR_AMCAST_WAIT_PASSES_D` (R323 to R325, R327): a slot wait or a retried append ends with TIMEOUT,
an `AMCAST` with REFUSED and the receivers that never acknowledged. -/
def execSpoolOrAmcastWaitPassesD (c : CopyAgent) (s : State) : Out :=
  .next (
    match c with
    | .core n ce1 =>
      let x := s.fg n
      let e : Eng := if ce1 then .ce1 else .ce0
      match x.copyHead e with
      | none => s
      | some (lane, q) =>
        match q.instr, q.wt0 with
        | some i, some t0 =>
          if waitsD i && q.started && !q.fin && x.stop.isNone && x.copyMoves e lane q &&
              decide ((deadlineAt t0 q.dl).toNat < (s.jtime x.ident.job).toNat) then
            match pieceOf (s.cxOf n e q.ord) i s q with
            | .hold s q none => s.putHead n e lane { q.note 1 0 with fin := true, wt0 := none }
            | _ => s
          else s
        | _, _ => s
    | .hamper e =>
      match s.hcopy e with
      | none => s
      | some h =>
        let now := if h.job = 0 then s.ccyc else s.jtime h.job
        match h.entry.instr with
        | some (.amcast _) =>
          if h.entry.mask ≠ 0 ∧ h.d.toNat < now.toNat then
            s.hcopyEnd { h with entry := { h.entry.note 4 (wOf h.entry.mask) with fin := true, outst := 0 } }
          else s
        | some (.qappend _) =>
          if h.entry.fin = false ∧ h.d.toNat < now.toNat then
            s.hcopyEnd { h with entry := { h.entry.note 1 0 with fin := true } }
          else s
        | _ => s)

/-- `STORE_BACKPRESSURE` (R235, R327): a store that found no free entry until its issue time plus
`sdl.ticks` stops its packet at the piece. -/
def execStoreBackpressure (n : Nat) (ce1 : Bool) (s : State) : Out :=
  .next (
    let x := s.fg n
    let e : Eng := if ce1 then .ce1 else .ce0
    match x.copyHead e with
    | none => s
    | some (lane, q) =>
      match q.fullAt with
      | some w =>
        if q.started && !q.fin && x.stop.isNone && x.copyMoves e lane q &&
            decide (w.1.toNat + x.storeWait ≤ (s.jtime x.ident.job).toNat) then s.backPressure n e lane q w.2
        else s
      | none => s)

/-- An entry of core n's store queue is free: the packets that wait for one go on (R235). -/
def State.wakeStores (s : State) (n : Nat) : State :=
  [Eng.ce0, Eng.ce1].foldl (fun s e =>
    match (s.fg n).copyHead e with
    | some (_, q) => if q.fullAt.isSome && (s.fg n).stop.isNone then s.workCopy n e else s
    | none => s) s

/-- What core n's copy engines do between its turns: those of a frozen core come to the end of their piece. -/
def State.copyTurn (s : State) (n : Nat) : State :=
  if (s.fg n).stop.isSome then (s.frozenCopy n .ce0).frozenCopy n .ce1 else s.wakeStores n

end Sys2Proof.Machine
end

