-- ==== Sys2Proof/Machine/Bank.lean ====
section
/-! DEFINITION. The writes of the bank formats: which earlier commands use a bank, and the wait for them (R45). -/

namespace Sys2Proof.Machine

/-! ## The bytes of the own scratchpad that a command uses -/

/-- The offset in core n's scratchpad that an address of its own names, through any region (R216). -/
def State.ownOff (s : State) (n : Nat) (a : Int) : Option Nat :=
  match zoneOf a with
  | .loc => some a.toNat
  | z =>
    match s.aper n z true with
    | some (.own off) => some off
    | _ =>
      match s.aper n z false with
      | some (.own off) => some off
      | _ => none

/-- k bytes from an address, as offsets of the own scratchpad. -/
def State.ownRun (s : State) (n : Nat) (a : Int) (k : Nat) : List (Nat × Nat) :=
  match s.ownOff n a with
  | some off => if k = 0 then [] else [(off, k)]
  | none => []

/-- A run in a format, with its scale region (R219). -/
def State.fmtRun (s : State) (n : Nat) (a : Int) (k : Nat) : List (Nat × Nat) :=
  match s.ownOff n a with
  | some off =>
    let f := (s.fg n).fmtAt off
    [(off, max k (f.ext k))] ++ (if f.mx = 2 then [(64 * f.sro, scaleSize f.t)] else [])
  | none => []

/-- The slots of a spool. -/
def Ctx.spoolRun (c : Ctx) (k : Nat) : List (Nat × Nat) :=
  let p := c.spool k
  if p.cfg then [(p.base, 64 * p.ssz * p.nsl)] else []

/-- The spool operands of a vector word. -/
def Ctx.spoolRuns (c : Ctx) (w : Word) : List (Nat × Nat) :=
  (if (getV w).sm.getLsbD 0 then c.spoolRun ((getV w).a.toNat % 16) else []) ++
    (if (getV w).sm.getLsbD 1 then c.spoolRun ((getV w).d.toNat % 16) else [])

/-- The own-scratchpad bytes of a copy packet. -/
def State.packetRuns (s : State) (n : Nat) (q : QEntry) (i : Instr) : List (Nat × Nat) :=
  let c := s.fg n
  let d (p : Packet) : Int := (p.dst.toNat : Int)
  let f (p : Packet) : Int := (p.src.toNat : Int)
  let own (off k : Nat) : List (Nat × Nat) := [(off, k)]
  let es (p : Packet) : Nat := elBytes (cmdTy p)
  let tile (p : Packet) (h : Word) : Nat :=
    let t := hFmt (s.hEntry c.ident.job h.toNat).1
    let ex := tileExts (if q.started then q.blk.toNat else s.spadNum n (Packet.par' p 24 8) 64)
    rowBytes t (at5 ex 0) * at5 ex 1 * at5 ex 2 * at5 ex 3 * at5 ex 4
  let rcd (p : Packet) : List (Nat × Nat) := if p.cmd.cr then own p.rcd.toNat 32 else []
  match i with
  | .copy p => rcd p ++ s.fmtRun n (f p) (Packet.par' p 24 4) ++ s.fmtRun n (d p) (Packet.par' p 24 4)
  | .tcopyRd p => rcd p ++ own (Packet.par' p 24 8) 64 ++ s.ownRun n (d p) (tile p p.src)
  | .tcopyWr p => rcd p ++ own (Packet.par' p 24 8) 64 ++ s.ownRun n (f p) (tile p p.dst)
  | .im2colw p =>
    let m := im2Of p
    rcd p ++ s.ownRun n (d p) (m.npos * m.row * (tyWidth (hFmt (s.hEntry c.ident.job p.src.toNat).1) / 8))
  | .fill p => rcd p ++ s.ownRun n (d p) (Packet.par' p 24 4)
  | .accw p => rcd p ++ own p.src.toNat (Packet.par' p 24 4) ++ s.ownRun n (d p) (Packet.par' p 24 4)
  | .fop p => rcd p ++ own (Packet.par' p 24 8) (es p) ++ s.ownRun n (d p) (es p)
  | .cas p => rcd p ++ own (Packet.par' p 32 8) (es p) ++ s.ownRun n (d p) (es p)
  | .redcopy p =>
    let k := Packet.par' p 32 4 * es p
    rcd p ++ s.ownRun n (f p) k ++ own (Packet.par' p 24 8) k ++ s.ownRun n (d p) k
  | .mcast p => rcd p ++ own p.src.toNat (Packet.par' p 24 4)
  | .spfill p => rcd p ++ c.spoolRun (p.dst.toNat % 16) ++ s.ownRun n (f p) (Packet.par' p 24 4 * Packet.par' p 28 4)
  | .spdrain p => rcd p ++ c.spoolRun (p.src.toNat % 16) ++ s.ownRun n (d p) (Packet.par' p 24 4 * Packet.par' p 28 4)
  | .qappend p => rcd p ++ own p.src.toNat 64
  | .sigrem p => rcd p
  | _ => []

/-- The own-scratchpad bytes that a command reads or writes, by its captured scalars.  What it takes from a register or a
shape that an earlier command has still to write counts at its widest (notes/assumptions/18.md). -/
def State.runsOf (s : State) (n : Nat) (q : QEntry) (i : Instr) : List (Nat × Nat) :=
  let c := s.fg n
  let ea (off : BitVec 6) : Int := (q.xa.toNat : Int) + 64 * off.toInt
  let sp := c.spoolRuns q.word
  let strided (f : FmtVM) : List (Nat × Nat) :=
    ((List.range (elCount (tyWidth f.ty))).map (fun (j : Nat) =>
      s.ownRun n (ea f.off + (j : Int) * q.xb.toInt) (tyWidth f.ty / 8))).flatten
  let gather (f : FmtVM) : List (Nat × Nat) :=
    s.ownRun n (ea f.off) (min 0x80000 (2 ^ tyWidth f.ty * (tyWidth f.ty / 8)))
  let rows (t : BitVec 3) : Nat × Nat := (c.shape t.toNat).getD (64, 32)
  let mma (f : FmtM) : List (Nat × Nat) := (mmaOp f q.xa q.xb).banks.map (fun b => (b % 16 * 2 ^ 15, 1))
  let byRow (t : BitVec 3) (k : Nat) : List (Nat × Nat) :=
    (List.range (rows t).1).map (fun j => ((q.xa.toNat + j * q.xb.toNat) % 0x80000, max k 1))
  match i with
  | .vld f => sp ++ s.ownRun n (ea f.off) 128
  | .vst f => sp ++ s.ownRun n (ea f.off) 128
  | .vlds f => sp ++ strided f
  | .vsts f => sp ++ strided f
  | .vldx f => sp ++ gather f
  | .vstx f => sp ++ gather f
  | .vldw _ => s.ownRun n (q.xa.toNat : Int) 128
  | .vtrd _ => s.ownRun n (q.xa.toNat : Int) 32
  | .mmaAcc f => mma f
  | .mmaOvw f => mma f
  | .mmaSacc f => mma f
  | .mmaSovw f => mma f
  | .mload f => byRow f.t ((rows f.t).2 * (tyWidth f.fa / 8))
  | .mdrain f =>
    let v := c.fmtAt q.xa.toNat
    byRow f.t (if v.mx = 0 then rowBytes f.fa (rows f.t).2 else v.step) ++
      (if v.mx = 2 then [(64 * v.sro, scaleSize v.t)] else [])
  | .mcbld _ => [(q.xa.toNat % 0x80000, 32)]
  | _ =>
    if getClass q.word = 1 then (match i with | .vlut3 _ => [] | _ => sp)
    else if getClass q.word = 3 then s.packetRuns n q i
    else []

/-- The banks of some runs. -/
def runBanks (l : List (Nat × Nat)) : List Nat :=
  (List.range 16).filter (fun b => l.any (fun r => decide (r.1 < (b + 1) * 2 ^ 15 ∧ b * 2 ^ 15 < r.1 + r.2)))

/-- The banks that a command uses. -/
def State.banksUsed (s : State) (n : Nat) (q : QEntry) : List Nat :=
  match q.instr with
  | some i => runBanks (s.runsOf n q i)
  | none => []

/-! ## The wait -/

/-- Whether an earlier engine command that uses the bank is unfinished. -/
def State.bankBusy (s : State) (n bank : Nat) : Bool :=
  let c := s.fg n
  engines.any (fun e => ((c.eng e).q ++ (c.eng e).lane).any (fun q => (s.banksUsed n q).contains bank)) ||
    c.inRun.any (fun p => p.uses.contains bank) ||
    c.vreads.any (fun v => (s.banksUsed n v.entry).contains bank)

/-- `BFMT_WRITE` (R45): it waits for the commands that use the bank. -/
def execBfmtWrite (f : CsrF) (s : State) : Out :=
  .next (s.onCore (wOf (encCsr f).toNat) (fun n =>
    let c := s.fg n
    let bank := f.csr.toNat % 16
    let b : BfmtPend :=
      { bank := bank, val := csrNew f (tget 0 c.csr.bfmt bank) (s.csrArg f), rd := f.rd, ord := c.ord }
    if s.bankBusy n bank then (s.setFg n { c with bfmtPend := some b }).tick 1 else s.bfmtLand n b))

/-- `BFMT_TAKES_EFFECT`: the last earlier command of the bank has completed. -/
def execBfmtTakesEffect (n : Nat) (s : State) : Out :=
  .next (match (s.fg n).bfmtPend with
    | some b => if s.bankBusy n b.bank ∨ (s.fg n).stop.isSome then s else s.bfmtLand n b
    | none => s)

end Sys2Proof.Machine
end

