-- ==== Sys2Proof/Machine/Counter.lean ====
section
/-! DEFINITION. The Hamper's counters, its Trigger Table and the actions of its entries (R335, R340 to R343),
and the copy engines and routes by which the actions leave (R346, R347, R353, R356). -/

namespace Sys2Proof.Machine

/-! ## Messages in Hamper memory (R337, R347, R353) -/

/-- Hamper memory at an offset. -/
def State.hbytes (s : State) (off k : Nat) : List Byte := s.bytes (hamperBase + off) k
def State.hnum (s : State) (off k : Nat) : Nat := s.num (hamperBase + off) k

/-- A message whose 32-byte header is given as a number, with its payload. -/
def msgOf (h : Nat) (payload : List Byte) : Msg :=
  { tag := wOf (fld h 63 0), jobid := BitVec.ofNat 32 (fld h 95 64), src := BitVec.ofNat 16 (fld h 111 96)
    kind := BitVec.ofNat 8 (fld h 119 112), fl := BitVec.ofNat 8 (fld h 127 120), ctr := BitVec.ofNat 16 (fld h 143 128)
    port := BitVec.ofNat 16 (fld h 159 144), len := BitVec.ofNat 32 (fld h 191 160), imm := wOf (fld h 255 192)
    payload := payload }

/-- The 32 bytes of a header. -/
def hdrBytes (m : Msg) : List Byte :=
  leBytes 8 m.tag.toNat ++ leBytes 4 m.jobid.toNat ++ leBytes 2 m.src.toNat ++ [m.kind, m.fl] ++ leBytes 2 m.ctr.toNat ++
    leBytes 2 m.port.toNat ++ leBytes 4 m.len.toNat ++ leBytes 8 m.imm.toNat

/-- The header's own form: no reserved field, and the limits of R337. -/
def hdrOk (m : Msg) : Bool :=
  decide (m.kind.toNat ≤ 2) && decide (m.fl.toNat < 2) && decide (m.port.toNat < 64) && decide (m.src.toNat < 2 ^ 11) &&
    decide (m.len.toNat ≤ 2 ^ 24) && (decide (m.kind ≠ 1) || decide (m.len.toNat ≤ 16384)) &&
    (decide (m.kind = 1) || decide (m.port = 0))

/-- The number of entries of a job's peer table (R335). -/
def State.npeer (s : State) (slot : Nat) : Nat := s.jt slot 20 2

/-- A destination word is valid for a job (R347). -/
def State.destOk (s : State) (slot : Nat) (w : Word) (len : Nat) : Bool :=
  match w.toNat / 2 ^ 62 with
  | 0 => decide (wfld w 61 0 = 0)
  | 1 => decide (wfld w 61 11 = 0) && s.ofJob slot (wfld w 10 0)
  | 2 => decide (wfld w 61 16 = 0) && decide (wfld w 15 0 < s.npeer slot)
  | _ => decide (wfld w 61 4 = 0) && decide (len ≤ 96)

/-- Hands a message to its route: what arrives, and how it is acknowledged, follows as an event. -/
def State.send (s : State) (x : Sent) : State :=
  { s with hamper := { s.hamper with sent := s.hamper.sent ++ [x] } }

/-! ## Routes (R346, R360) -/

/-- The commands under way to a cluster's leaf controller. -/
def State.linkUsed (s : State) (cl : Nat) : Nat := (s.hamper.links.filter (fun x => decide (x.1 = cl))).length

/-- The number by which an answer finds its send. -/
def Sent.key (x : Sent) : Nat := x.num % 2 ^ 32

/-- The parts of a message as fabric packets of up to 256 bytes (R430); the layout of `addr` and `aux` is the
model's (notes/assumptions/13.md). -/
def sendParts (s : State) (dst key : Nat) : Nat → Nat → List Byte → State
  | 0, _, _ => s
  | fuel + 1, off, bs =>
    if bs.isEmpty then s
    else sendParts (s.inject 7 dst (midThread 0) 4 (wOf off) (wOf key) (bs.take 256)) dst key fuel (off + 256) (bs.drop 256)

/-- Whether a leaf controller takes a command of a thread or trigger of a job (R360): from job 0 any, else only an
`ECALL` reply, which has all its bytes. -/
def leafTakes (job : Nat) (m : Msg) : Bool := if m.tag = 1 then decide (96 ≤ m.payload.length) else decide (job = 0)

/-- The rail of a message to a peer of a job: the one that its peer entry names, or the peer index mod 8 (R359). -/
def State.railOf (s : State) (slot peer : Nat) : Nat :=
  let r := s.hnum (s.jt slot 16 4 % 2 ^ 26 + 32 * peer + 22) 1
  if r < 8 then r else peer % 8

/-- The rail of a message: what its sender has chosen, or that of its peer. -/
def State.withRail (s : State) (x : Sent) : Sent :=
  match x.dest.toNat / 2 ^ 62, s.slotOf x.msg.jobid.toNat with
  | 2, some slot => { x with rail := some (x.rail.getD (s.railOf slot (wfld x.dest 15 0))) }
  | _, _ => x

/-- Puts a message on its route under the next number; none where a leaf controller's link has no permit. -/
def State.route (s : State) (y : Sent) : Option State :=
  let x := s.withRail { y with num := s.hamper.sendNo }
  let s : State := { s with hamper := { s.hamper with sendNo := s.hamper.sendNo + 1 } }
  let bs := hdrBytes x.msg ++ x.msg.payload
  match x.dest.toNat / 2 ^ 62 with
  | 1 =>
    let p := wfld x.dest 10 0
    if p = s.pkgid then some (s.send { x with dest := 0 })
    else some (sendParts (s.send x) p x.key (bs.length / 256 + 1) 0 bs)
  | 3 =>
    let cl := wfld x.dest 3 0
    if 8 ≤ s.linkUsed cl then none
    else some { s with hamper := { s.hamper with links := s.hamper.links ++ [(cl, x)] } }
  | _ => some (s.send x)

/-! ## The Hamper's copy engines (R356) -/

/-- The lowest engine number that no packet has; a packet from 16 up waits for an engine. -/
def State.hcopyFree (s : State) : Nat :=
  ((List.range (s.hamper.copies.length + 1)).find? (fun e => (s.hcopy e).isNone)).getD s.hamper.copies.length

/-- Starts the packet of an engine, and goes on with it as far as it can. -/
def State.runHcopy (s : State) (e : Nat) : State :=
  match s.hcopy e with
  | none => s
  | some h =>
    if 16 ≤ e then s
    else if h.entry.started then s.moveHcopy e
    else
      match h.entry.instr with
      | none => s
      | some i =>
        let b := s.tileBlk h.cx i
        (b.2.setHcopy { h with entry :=
          { h.entry with started := true, blk := BitVec.ofNat 512 (leNat b.1.bytes) } }).moveHcopy e

/-- A copy packet at a Hamper offset as a queue entry. -/
def State.hpacket (s : State) (off : Nat) : QEntry :=
  { word := wOf (s.hnum off 8), rest := BitVec.ofNat 448 (s.hnum (off + 8) 56), ord := s.now }

/-- The start checks of a Hamper packet: the cause, where it is refused or cannot start. -/
def State.hpacketBad (s : State) (slot : Nat) (q : QEntry) : Option Nat :=
  match q.instr with
  | none => some 0x0E
  | some i =>
    if (packetOf i).isNone then some 0x0E
    else
      let h : HCopy := { eng := 0, job := slot, thread := none, entry := q, d := 0 }
      (s.startBad h.cx i q.word).map (fun c => c.1)

/-- Gives a packet to a copy engine of the Hamper: its number, and the state. -/
def State.addHcopy (s : State) (slot : Nat) (thr : Option Nat) (q : QEntry) (d : Word) : Nat × State :=
  let e := s.hcopyFree
  let h : HCopy := { eng := e, job := slot, thread := thr, entry := q, d := d }
  let s : State := { s with hamper := { s.hamper with copies := s.hamper.copies ++ [h] } }
  (e, if s.lockstep then s.runHcopy e else s)

/-! ## Triggers (R341 to R343) -/

/-- The Trigger Table; a frozen entry keeps what it holds (R393). -/
def State.trg (s : State) (e : Nat) : Trg := tget {} s.hamper.trg e
def State.setTrg (s : State) (e : Nat) (t : Trg) : State :=
  if s.hamper.frozen.contains (1, e) then s
  else { s with hamper := { s.hamper with trg := tset {} s.hamper.trg e t } }
def State.ctr (s : State) (k : Nat) : Ctr := tget {} s.hamper.ctr k

/-- A job is held while its `rs` is 1 or 2 (R342). -/
def State.held (s : State) (slot : Nat) : Bool := decide (s.rs slot = 1 ∨ s.rs slot = 2)

/-- The report of an action that fails (R343). -/
def State.trgFail (s : State) (e code slot : Nat) : State :=
  s.event 0x0E (wOf (e + code * 2 ^ 16)) (s.jobid slot) []

/-- A launch from the Hamper (R355): the first failing check, or 8 for a full queue, or the number. -/
def State.hlaunch (s : State) (slot grp raw : Nat) : Nat ⊕ (Nat × State) :=
  match s.descCheck raw { job := slot, sup := true, prio := 3, grp := grp, hamper := true } with
  | some c => .inl c
  | none =>
    match s.accept slot grp (descOf raw) with
    | none => .inl 8
    | some r => .inr r

/-- A send from a 64-byte action block (R343): as `NSEND` sends it, with no D; a peer's answer over Ultra Ethernet is a
free value (notes/assumptions/8.md), and a command waits for its permit in its place on the link. -/
def State.trgSend (s : State) (e : Nat) (t : Trg) : State :=
  let b := s.hnum t.blk 64
  let dest := wOf (fld b 319 256)
  let off := fld b 383 320
  let m0 := msgOf b []
  if fld b 511 384 ≠ 0 ∨ hdrOk m0 = false ∨ s.destOk t.job dest m0.len.toNat = false ∨ 2 ^ 26 < off + m0.len.toNat then
    s.trgFail e 0x47 t.job
  else
    let x : Sent := { dest := dest, trg := some e
                      msg := { m0 with jobid := BitVec.ofNat 32 (s.jobid t.job), payload := s.hbytes off m0.len.toNat } }
    match dest.toNat / 2 ^ 62 with
    | 1 => if s.routed (wfld dest 10 0) then (s.route x).getD s else s.trgFail e 0x47 t.job
    | 2 =>
      let f := s.nextFree
      if f.1.getLsbD 0 then f.2 else f.2.trgFail e 0x44 t.job
    | 3 =>
      if leafTakes t.job x.msg then
        let y := { x with num := s.hamper.sendNo }
        { s with hamper := { s.hamper with links := s.hamper.links ++ [(wfld dest 3 0, y)], sendNo := s.hamper.sendNo + 1 } }
      else s.trgFail e 0x44 t.job
    | _ => (s.route x).getD s

/-- An entry issues its action: the block is read now (R343). -/
def State.trgAct (s : State) (e : Nat) : State :=
  let t := s.trg e
  match t.act with
  | 0 =>
    match s.hlaunch t.job t.grp (s.hnum t.blk 64) with
    | .inl c => s.trgFail e c t.job
    | .inr r => r.2
  | 1 =>
    let q := s.hpacket t.blk
    match s.hpacketBad t.job q with
    | some _ => s.trgFail e 0x0E t.job
    | none => (s.addHcopy t.job none q 0).2
  | _ => s.trgSend e t

/-- An entry that has reached its threshold: it fires, or it is held with its job; a frozen one does neither (R393). -/
def State.trgReach (s : State) (e : Nat) : State :=
  let t := s.trg e
  if s.hamper.frozen.contains (1, e) then s
  else if s.held t.job then s.setTrg e { t with st := .held }
  else (s.setTrg e { t with st := .fired }).trgAct e

/-- An update of counter k has been applied: its armed entries are tested, in ascending order (R342). -/
def State.fireCtr (s : State) (k : Nat) : State :=
  let hit := s.hamper.trg.filter (fun t => decide (t.2.st = .armed ∧ t.2.ctr = k ∧ t.2.thr ≤ (s.ctr k).val))
  hit.foldl (fun s t => s.trgReach t.1) s

/-- The held entries of a job issue when its `rs` returns to 0 (R342). -/
def State.releaseTrg (s : State) (slot : Nat) : State :=
  let hit := s.hamper.trg.filter (fun t => decide (t.2.st = .held ∧ t.2.job = slot))
  hit.foldl (fun s t => s.trgReach t.1) s

/-! ## Counter updates (R340) -/

/-- Writes a counter and tests its triggers; a frozen counter keeps what it holds (R393). -/
def State.setCtr (s : State) (k : Nat) (c : Ctr) : State :=
  if s.hamper.frozen.contains (0, k) then s
  else ({ s with hamper := { s.hamper with ctr := tset {} s.hamper.ctr k c } }).fireCtr k

/-- An arrival or a launch completion: + 1, or at the limit an event for the job (R340). -/
def State.bumpCtr (s : State) (k jid : Nat) : State :=
  let c := s.ctr k
  if c.val = 2 ^ 32 - 1 then s.event 0x07 (wOf k) jid []
  else s.setCtr k { c with val := c.val + 1 }

/-- A payload placed through a post: `exp` falls by 1, not below 0. -/
def State.dropExp (s : State) (k n : Nat) : State :=
  let c := s.ctr k
  s.setCtr k { c with exp := c.exp - n }

/-- The counter that an offset names in a job's range (R335); none where it is not valid. -/
def State.ctrOf (s : State) (slot o : Nat) : Option Nat :=
  if s.ctrBase slot + o ≤ s.ctrLast slot then some (s.ctrBase slot + o) else none

end Sys2Proof.Machine
end

