-- ==== Sys2Proof/Machine/Match.lean ====
section
/-! DEFINITION. The match unit of the Hamper: arriving messages, posts, the unexpected buffer, and the tail-pointer
filter (R338, R344, R345, R352, R359, R362, R472). -/

namespace Sys2Proof.Machine

/-! ## Writes and reads through a target word (R345) -/

/-- The Hamper's own unit as an initiator for a job: master class 2. -/
def matchWho (slot : Nat) : Who := { core := none, slot := slot, mid := midThread 0, path := 4 }

/-- Writes bytes from a target word upward, an aligned 64 bytes at a time: the state, or the cause. -/
def writeTw (w : Who) : Nat → Int → List Byte → State → Nat ⊕ State
  | 0, _, _, s => .inr s
  | fuel + 1, a, bs, s =>
    if bs.isEmpty then .inr s
    else
      let k := 64 - (a % 64).toNat
      match s.writeVa w a (cellsAt 0 (bs.take k)) [] [] with
      | .ok s => writeTw w fuel (a + (k : Int)) (bs.drop k) s
      | .fault c _ => .inl c

/-- A write of a whole payload: all of it, or none. -/
def State.putTw (s : State) (slot : Nat) (dst : Word) (bs : List Byte) : Nat ⊕ State :=
  writeTw (matchWho slot) (bs.length / 64 + 2) (dst.toNat : Int) bs s

/-! ## Posts (R344) -/

def Post.takes (p : Post) (slot : Nat) (m : Msg) : Bool :=
  decide (p.job = slot) && decide ((m.tag ^^^ p.tag) &&& ~~~p.ign = 0) && decide (m.len.toNat ≤ p.max)

def Post.place (p : Post) : Word := p.dst + wOf (p.took * p.str)

/-- The space a message takes in the unexpected buffer (R338). -/
def unexpSpace (x : Msg × Bool) : Nat := if x.2 then 256 else (32 + x.1.len.toNat + 255) / 256 * 256

def State.unexpUsed (s : State) : Nat := s.hamper.unexp.foldl (fun a x => a + unexpSpace x) 0

/-- Whether the unexpected buffer has room for k bytes of one more message: 16 MiB and 65,536 messages. -/
def State.unexpRoom (s : State) (k : Nat) : Bool :=
  decide (s.hamper.unexp.length < 65536) && decide (s.unexpUsed + k ≤ 2 ^ 24)

/-- Puts a message's payload at a place of a post: written, counted, and `exp` less 1; or, where the write
fails, the event of R338 and only `exp` less 1.  Answers whether it was written. -/
def State.placeMsg (s : State) (slot : Nat) (dst : Word) (pc : Nat) (m : Msg) : State × Bool :=
  match s.putTw slot dst m.payload with
  | .inr s => ((s.dropExp pc 1).bumpCtr (s.ctrBase slot + m.ctr.toNat) m.jobid.toNat, true)
  | .inl c => ((s.event (wOf c) dst m.jobid.toNat []).dropExp pc 1, false)

/-- A live post takes a message. -/
def State.postTakes (s : State) (p : Post) (m : Msg) : State × Bool :=
  let l := s.hamper.posts
  let l' := if p.left ≤ 1 then l.filter (fun x => decide (x.num ≠ p.num))
    else l.map (fun (x : Post) => if x.num = p.num then { x with left := x.left - 1, took := x.took + 1 } else x)
  ({ s with hamper := { s.hamper with posts := l' } }).placeMsg p.job p.place p.pc m

/-! ## Arrivals (R338) -/

/-- The match unit handles an arriving message: the state, and whether it was accepted. -/
def State.arriveMsg (s : State) (m : Msg) : State × Bool :=
  let refused : State × Bool :=
    let f := s.nextFree
    (f.2.event 0x0E f.1 m.jobid.toNat [], false)
  match s.slotOf m.jobid.toNat with
  | none => refused
  | some slot =>
    match s.ctrOf slot m.ctr.toNat with
    | none => refused
    | some k =>
      if hdrOk m = false then refused
      else if m.kind = 2 then (s.bumpCtr k m.jobid.toNat, true)
      else if m.kind = 1 then
        if portUsed (s.port m.port.toNat) + msgSpace m ≤ 131072 then
          ((s.setPort m.port.toNat (s.port m.port.toNat ++ [m])).bumpCtr k m.jobid.toNat, true)
        else (s, false)
      else
        match s.hamper.posts.find? (fun p => p.takes slot m && !s.hamper.frozen.contains (2, p.num)) with
        | some p => s.postTakes p m
        | none =>
          let dfr := m.fl.getLsbD 0
          if dfr then
            if s.unexpRoom 256 then ({ s with hamper := { s.hamper with unexp := s.hamper.unexp ++ [(m, true)] } }, true)
            else (s, false)
          else if m.len.toNat ≤ 16384 ∧ s.unexpRoom (unexpSpace (m, false)) = true then
            ({ s with hamper := { s.hamper with unexp := s.hamper.unexp ++ [(m, false)] } }, true)
          else (s, false)

/-! ## The acknowledgement of a send (R343, R353) -/

/-- A send has come to its end: its thread sees the answer while it still waits for this one, and an action that was not
taken is reported. -/
def State.endSend (s : State) (x : Sent) (a : ReadAns) : State :=
  match x.thr with
  | some h =>
    let t := s.thread h
    match t.wait with
    | some w => if w.sent ∧ w.ord = x.num then s.setThread h { t with wait := some { w with ans := some a } } else s
    | none => s
  | none =>
    match x.trg, a with
    | some e, .refused _ => s.trgFail e 0x44 ((s.trg e).job)
    | _, _ => s

/-- A destination has answered a send. -/
def State.ackSend (s : State) (x : Sent) (ok : Bool) : State := s.endSend x (if ok then .data [] else .refused 0)

/-- Takes a message that is on its way out of the list. -/
def State.dropSent (s : State) (x : Sent) : State :=
  { s with hamper := { s.hamper with sent := s.hamper.sent.erase x } }

/-- A message reaches the match unit: one sent to the own Hamper, or one from outside (R346).  The sending
package is written on arrival (R337). -/
def State.messageArrival (s : State) (m : Msg) : State :=
  match s.hamper.sent.find? (fun x => decide (x.dest = 0 ∧ x.msg = m)) with
  | some x =>
    let r := (s.dropSent x).arriveMsg { m with src := BitVec.ofNat 16 s.pkgid }
    r.1.ackSend x r.2
  | none => (s.arriveMsg m).1

/-- `MESSAGE_ARRIVAL_DATA` (R338). -/
def execMessageArrivalData (m : Msg) (s : State) : Out := .next (if m.kind = 0 then s.messageArrival m else s)
/-- `MESSAGE_ARRIVAL_COUNT` (R338). -/
def execMessageArrivalCount (m : Msg) (s : State) : Out := .next (if m.kind = 2 then s.messageArrival m else s)

/-! ## NPOST's search of the unexpected buffer (R352) -/

/-- A post block (R344), read as a number. -/
structure PostBlk where
  tag : Word
  ign : Word
  dst : Word
  str : Nat
  max : Nat
  cnt : Nat
  pc : Nat
  bad : Bool
  deriving DecidableEq, Repr

def postBlkOf (r : Nat) : PostBlk :=
  { tag := wOf (fld r 63 0), ign := wOf (fld r 127 64), dst := wOf (fld r 191 128), str := fld r 223 192
    max := fld r 255 224, cnt := fld r 287 256, pc := fld r 303 288
    bad := decide (fld r 511 304 ≠ 0) || !twOk (wOf (fld r 191 128)) || decide (fld r 255 224 = 0) ||
      decide (2 ^ 24 < fld r 255 224) || decide (fld r 287 256 = 0) }

/-- Takes matching messages of a job from the unexpected buffer, oldest first: m counts them. -/
def takeUnexp (p : Post) (slot : Nat) : List (Msg × Bool) → Nat → State → Nat × State
  | [], m, s => (m, s)
  | x :: r, m, s =>
    if m < p.left ∧ s.slotOf x.1.jobid.toNat = some slot ∧ p.takes slot x.1 = true then
      let s := { s with hamper := { s.hamper with unexp := s.hamper.unexp.erase x } }
      takeUnexp p slot r (m + 1) (s.placeMsg slot (p.dst + wOf (m * p.str)) p.pc x.1).1
    else takeUnexp p slot r m s

/-- The lowest post number that is free. -/
def State.freePost (s : State) : Nat :=
  ((List.range (s.hamper.posts.length + 1)).find? (fun k => s.hamper.posts.all (fun p => decide (p.num ≠ k)))).getD 0

/-- `NPOST` for a job: xd, the state, and how many messages it took. -/
def State.npost (s : State) (slot off : Nat) : Word × State × Nat :=
  let b := postBlkOf (s.hnum off 64)
  match s.ctrOf slot b.pc with
  | none => (refusal63 1, s, 0)
  | some pc =>
    if b.bad then (refusal63 1, s, 0)
    else if 65536 ≤ s.hamper.posts.length then (refusal63 2, s, 0)
    else if 2 ^ 32 - 1 < (s.ctr pc).exp + b.cnt then (refusal63 3, s, 0)
    else
      let num := s.freePost
      let p : Post := { num := num, job := slot, tag := b.tag, ign := b.ign, dst := b.dst, str := b.str, max := b.max,
                        left := b.cnt, took := 0, pc := pc }
      let s := s.setCtr pc { s.ctr pc with exp := (s.ctr pc).exp + b.cnt }
      let r := takeUnexp p slot s.hamper.unexp 0 s
      if r.1 < b.cnt then
        (wOf (2 ^ 62 + r.1 * 2 ^ 16 + num),
          { r.2 with hamper := { r.2.hamper with posts := r.2.hamper.posts ++ [{ p with left := b.cnt - r.1, took := r.1 }] } },
          r.1)
      else (wOf (r.1 * 2 ^ 16), r.2, r.1)

/-! ## The tail-pointer filter (R362) -/

/-- `TAIL_WRITE`: a 32-bit tail write to queue page n. -/
def execTailWrite (page : Nat) (t : BitVec 32) (s : State) : Out :=
  .next (
    let a := 0x40000 + 8 * (page % 1024)
    let e := s.hnum a 8
    let d := (t.toNat + 2 ^ 32 - fld e 31 0) % 2 ^ 32
    if e.testBit 63 ∧ d < 2 ^ 31 then
      let k := fld e 47 32
      let s := s.putBytes (hamperBase + a) (leBytes 4 t.toNat)
      let c := s.ctr k
      if 2 ^ 32 - 1 < c.val + d then (s.setCtr k { c with val := 2 ^ 32 - 1 }).event 0x07 (wOf k) 0 []
      else s.setCtr k { c with val := c.val + d }
    else s.pushPort 2 (ctrlMsg (wOf (page % 1024)) (wOf t.toNat) 0 2 []))

/-! ## Ultra Ethernet Transport (R359, R472) -/

/-- `UET_WRITE_OR_READ`: an inbound write, or read, of a memory region of a job, at an offset. -/
def execUetWriteOrRead (job region off : Nat) (write : Bool) (data : List Byte) (s : State) : Out :=
  .next (
    let g := tget {} s.hamper.regions (job * 65536 + region % 65536)
    if s.jobValid job = false ∨ g.len = 0 ∨ g.len < off + data.length then s
    else
      match s.ctrOf job g.ctr with
      | none => s
      | some k =>
        if write then
          match s.putTw job (g.tw + wOf off) data with
          | .inr s => s.bumpCtr k (s.jobid job)
          | .inl _ => s
        else
          let r := s.readVa (matchWho job) ((g.tw + wOf off).toNat : Int) data.length
          match r.1.fault with
          | some _ => s
          | none => r.2.bumpCtr k (s.jobid job))

/-- `RECEIVED_FRAME_DROPPED` (R472): a frame that is not UET is dropped and counted. -/
def execReceivedFrameDropped (port : Nat) (s : State) : Out :=
  .next (if port < 8 then
    { s with mgmt := { s.mgmt with ethDrop := tset 0 s.mgmt.ethDrop port ((tget 0 s.mgmt.ethDrop port + 1) % 2 ^ 32) } }
    else s)

end Sys2Proof.Machine
end

