-- ==== Sys2Proof/Machine/Hamper.lean ====
section
/-! DEFINITION. Class NT: what a Hamper thread does with memory, counters, triggers, posts, messages, launches
and copies (R330 to R336, R348 to R361). -/

namespace Sys2Proof.Machine

/-! ## Threads (R331, R334, R336) -/

/-- A free value of k bytes. -/
def State.freeNat (s : State) (k : Nat) : Nat × State := ((s.nextFree).1.toNat % 2 ^ (8 * k), s.nextFree.2)

/-- A job is created: its slot's `v` becomes 1 (R189, R335).  Its clock starts at 0, its window templates and barrier
phases are 0, and no core holds its bytes yet; what the control software prepares by means that the spec does not give
stands as it was prepared (notes/assumptions/42.md). -/
def State.jobCreate (s : State) (j : Nat) : State :=
  let r := s.job j
  let s := s.setJob j { base := s.ccyc, pkgs := r.pkgs, img := r.img, imask := r.imask, cb0 := r.cb0, sl0 := r.sl0,
                        bfmt0 := r.bfmt0 }
  let s := s.mapCores (fun _ k => if k.sjob = some j then { k with sjob := none } else k)
  let queued (l : List (Nat × Nat)) : List (Nat × Nat) := l.filter (fun x => decide (x.1 ≠ j))
  ({ s with sch := { s.sch with
      bars := s.sch.bars.filter (fun b => decide (b.key.job ≠ j))
      launches := s.sch.launches.filter (fun l => decide (l.job ≠ j))
      leafQ := s.sch.leafQ.map (fun q => (q.1, queued q.2)), globQ := queued s.sch.globQ
      slots := s.sch.slots.filter (fun v => decide (v.2.job ≠ j))
      yielded := s.sch.yielded.filter (fun y => decide (y.ctx.ident.job ≠ j))
      retries := s.sch.retries.filter (fun r => decide (r.1 / 2 ^ 48 ≠ j)) } } : State).setRs j 0

/-- The bits of a tail-pointer filter entry that are always 0 (R362). -/
def filterMask (a : Nat) (b : Byte) : Byte :=
  if 0x40000 ≤ a ∧ a < 0x42000 then (if a % 8 = 6 then 0 else if a % 8 = 7 then b &&& 0x80 else b) else b

/-- A thread's store of bytes of Hamper memory: one that sets `v` of a job-table entry creates the job, and one that
clears it ends the job, and with it its timed domains (R370). -/
def State.hstore (s : State) (a : Nat) (bs : List Byte) : State :=
  let j := a / 64
  let t := s.putBytes (hamperBase + a) ((bs.zip (List.range bs.length)).map (fun x => filterMask (a + x.2) x.1))
  if a < 0x40000 ∧ s.jobValid j = false ∧ t.jobValid j = true then t.jobCreate j
  else if a < 0x40000 ∧ s.jobValid j = true ∧ t.jobValid j = false then
    { t with sch := { t.sch with doms := t.sch.doms.filter (fun d => decide (d.job ≠ j)) } }
  else t

/-- `HAMPER_SCALAR_ACCESS` (R331).  What the port buffers and the unexpected buffer hold as bytes is not
given: a load of them is a free value (notes/assumptions/8.md).  A store to byte 0x040 of a queue page's backing also
asks for the page's MSI-X message (R470). -/
def execHamperScalarAccess (store : Bool) (f3 : BitVec 3) (r rs1 : BitVec 5) (off : BitVec 12) (enc : RvEnc)
    (s : State) : Out :=
  let w := wOf (if store then encStore ⟨f3, rs1, r, off, enc⟩ else encLoad ⟨f3, r, rs1, off, enc⟩).toNat
  .next (s.onThread w (fun _ =>
    let a := scalarEa (s.xr rs1) off
    let k := accSize f3
    if a % k ≠ 0 then s.trapHere 0x0F (wOf a)
    else if 2 ^ 26 ≤ a then s.trapHere 0x10 (wOf a)
    else if store then
      if 0x2800000 ≤ a then s.trapHere 0x09 (wOf a)
      else
        let v := (s.xr r).toNat
        let s := s.hstore a (leBytes k v)
        let s : State := if 0x1000000 ≤ a ∧ a < 0x1400000 ∧ a % 4096 = 0x040 then
            { s with mgmt := { s.mgmt with due := s.mgmt.due ++ [((a - 0x1000000) / 4096, v % 64)] } }
          else s
        s.retire (RvLen enc) 1
    else if 0x2800000 ≤ a then
      let g := s.freeNat k
      (g.2.setXr r (extend f3 g.1)).retire (RvLen enc) 2
    else if (firstPoison s.poison (hamperBase + a) k).isSome then s.trapHere 0x0A (wOf a)
    else (s.setXr r (extend f3 (s.hnum a k))).retire (RvLen enc) 2))

/-- What a thread had under way goes on unobserved: a packet of `NCOPY`, a message that has left; a command that no leaf
controller has taken is withdrawn (R334). -/
def State.detachThread (s : State) (h : Nat) : State :=
  let mine (x : Sent) : Bool := decide (x.thr = some h)
  let s := (s.hamper.copies.filter (fun c => decide (c.thread = some h) && c.fin)).foldl (fun s c => s.dropHcopy c.eng) s
  { s with hamper := { s.hamper with
    copies := s.hamper.copies.map (fun (c : HCopy) => if c.thread = some h then { c with thread := none } else c)
    links := s.hamper.links.filter (fun x => !mine x.2)
    sent := s.hamper.sent.filter (fun x => !(mine x && decide (x.dest.toNat / 2 ^ 62 = 2))) } }

/-- `HAMPER_THREAD_TRAP` (R334): a thread abandons its code with a cause; no wait of it survives. -/
def execHamperThreadTrap (h : Nat) (cause : Byte) (val : Word) (s : State) : Out :=
  .next ((s.detachThread (h % 512)).threadTrap (h % 512) cause.toNat val)

/-- The job slot of a thread. -/
def State.hjob (s : State) (h : Nat) : Nat := (s.thread h).hjob.toNat

/-- Runs a class NT meaning that needs a job (R336). -/
def State.onJob (s : State) (w : Word) (f : Nat → Nat → State) : State :=
  s.onThread w (fun h => if s.jobValid (s.hjob h) then f h (s.hjob h) else s.trapHere 0x09 w)

/-- A Hamper offset operand of k bytes aligned to al (R348): in range, aligned, not poisoned (notes/assumptions/39.md). -/
def State.hoff (s : State) (a : Word) (al k : Nat) (f : Nat → State) : State :=
  if a.toNat / 2 ^ 26 ≠ 0 then s.trapHere 0x10 a
  else if a.toNat % al ≠ 0 then s.trapHere 0x0F a
  else if (firstPoison s.poison (hamperBase + a.toNat) k).isSome then s.trapHere 0x0A a
  else f a.toNat

/-- The completion of a thread's Format D instruction. -/
def State.doneDT (s : State) (h : Nat) (f : FmtD) (w : Wait) (code detail : Nat) : State :=
  s.finishDT h f.st f.x w.pc code detail

def lateDT (f : FmtD) : Expiry := fun s h w => s.doneDT h f w 1 0

/-! ## Counters (R349) -/

/-- Runs a counter instruction on counter xa[15:0]: any counter when `hjob` is 0, else one of the job's. -/
def State.onCtr (s : State) (i : Instr) (xa : Word) (f : Nat → Nat → State) : State :=
  let w := encodeWord i
  s.onThread w (fun h =>
    let k := xa.toNat % 65536
    let j := s.hjob h
    if j = 0 ∨ (s.jobValid j = true ∧ s.ctrBase j ≤ k ∧ k ≤ s.ctrLast j) then f h k else s.trapHere 0x09 w)

def Ctr.word (c : Ctr) : Word := wOf (c.exp * 2 ^ 32 + c.val)

def execCtradd (f : FmtQ) (s : State) : Out :=
  .next (s.onCtr (.ctradd f) (s.xr f.a) (fun _ k =>
    let c := s.ctr k
    let v := c.val + wfld (s.xr f.b) 31 0
    if 2 ^ 32 - 1 < v then s.trapHere 0x07 (wOf k)
    else (s.setCtr k { c with val := v }).doneQ f (wOf c.val) 4))

def execCtrrd (f : FmtQ) (s : State) : Out :=
  .next (s.onCtr (.ctrrd f) (s.xr f.a) (fun _ k => s.doneQ f (s.ctr k).word 4))

def execCtrset (f : FmtQ) (s : State) : Out :=
  .next (s.onCtr (.ctrset f) (s.xr f.a) (fun _ k =>
    let b := s.xr f.b
    (s.setCtr k { val := wfld b 31 0, exp := wfld b 63 32 }).doneQ f (s.ctr k).word 4))

def ctrwaitTest (f : FmtD) : Test := fun s h w =>
  let v := (s.ctr (w.a.toNat % 65536)).val
  if wfld w.b 31 0 ≤ v then some ((s.setXr f.d (wOf v)).doneDT h f w 0 0) else none

def execCtrwait (f : FmtD) (s : State) : Out :=
  .next (s.onCtr (.ctrwait f) (s.xr f.a) (fun h _ =>
    s.beginWait h (s.waitOf f (.ctrwait f)) (ctrwaitTest f) (lateDT f)))

/-! ## Triggers (R350, R351) -/

/-- Runs a trigger instruction on entry xa[14:0] of the job's range (R336). -/
def State.onTrg (s : State) (i : Instr) (xa : Word) (f : Nat → Nat → State) : State :=
  let w := encodeWord i
  s.onJob w (fun _ j =>
    let e := xa.toNat % 32768
    if s.jt j 8 2 % 32768 ≤ e ∧ e ≤ s.jt j 10 2 % 32768 then f j e else s.trapHere 0x09 w)

/-- `TRGARM` (R342, R350). -/
def execTrgarm (f : FmtQ) (s : State) : Out :=
  .next (s.onTrg (.trgarm f) (s.xr f.a) (fun j e =>
    let b := s.xr f.b
    let c := s.xr f.c
    let t := s.trg e
    let act := wfld b 49 48
    let grp := wfld b 53 50
    if c.toNat / 2 ^ 26 ≠ 0 then s.trapHere 0x10 c
    else if c.toNat % 64 ≠ 0 then s.trapHere 0x0F c
    else
      let span := (descOf (s.hnum c.toNat 64)).span
      if wfld b 63 54 ≠ 0 ∨ act = 3 ∨ (act = 0 ∧ span = 4 ∧ 7 < grp) then s.doneQ f 3 4
      else
        match s.ctrOf j (wfld b 15 0) with
        | none => s.trapHere 0x09 (encodeWord (.trgarm f))
        | some k =>
          if t.st = .armed ∨ t.st = .held then s.doneQ f 2 4
          else
            let s := s.setTrg e { st := .armed, act := act, grp := grp, thr := wfld b 47 16, ctr := k, blk := c.toNat, job := j }
            if wfld b 47 16 ≤ (s.ctr k).val then (s.trgReach e).doneQ f 1 4 else s.doneQ f 0 4))

/-- `TRGDIS` (R342, R351). -/
def execTrgdis (f : FmtQ) (s : State) : Out :=
  .next (s.onTrg (.trgdis f) (s.xr f.a) (fun _ e =>
    let v := if (s.trg e).st = .fired then 1 else 0
    (s.setTrg e {}).doneQ f v 4))

def trgCode : TrgSt → Nat
  | .free => 0
  | .armed => 1
  | .fired => 2
  | .held => 3

/-- `TRGRD` (R341). -/
def execTrgrd (f : FmtQ) (s : State) : Out :=
  .next (s.onTrg (.trgrd f) (s.xr f.a) (fun _ e =>
    let t := s.trg e
    s.doneQ f (wOf (trgCode t.st * 2 ^ 62 + t.act % 4 * 2 ^ 60 + t.grp % 16 * 2 ^ 56 + t.thr % 2 ^ 32 * 2 ^ 16 +
      t.ctr % 2 ^ 16)) 4))

def execTrgrdBlk (f : FmtQ) (s : State) : Out :=
  .next (s.onTrg (.trgrdBlk f) (s.xr f.a) (fun _ e =>
    s.doneQ f (wOf ((s.trg e).blk % 2 ^ 26 + (s.trg e).job % 2 ^ 12 * 2 ^ 32)) 4))

/-! ## Posts (R352) -/

def execNpost (f : FmtQ) (s : State) : Out :=
  .next (s.onJob (encodeWord (.npost f)) (fun _ j =>
    s.hoff (s.xr f.a) 64 64 (fun off =>
      match s.ctrOf j (postBlkOf (s.hnum off 64)).pc with
      | none => s.trapHere 0x09 (encodeWord (.npost f))
      | some _ =>
        let r := s.npost j off
        r.2.1.doneQ f r.1 (6 + 2 * r.2.2))))

def execNpostCancel (f : FmtQ) (s : State) : Out :=
  .next (s.onJob (encodeWord (.npostCancel f)) (fun _ j =>
    let k := (s.xr f.a).toNat % 65536
    match s.hamper.posts.find? (fun p => decide (p.num = k ∧ p.job = j)) with
    | none => s.doneQ f (refusal63 4) 6
    | some p =>
      let s1 : State := { s with hamper := { s.hamper with posts := s.hamper.posts.filter (fun x => decide (x.num ≠ k)) } }
      (s1.dropExp p.pc p.left).doneQ f (wOf p.left) 6))

/-! ## Receiving (R354) -/

/-- Whether another thread that waits to take from a port began earlier (R339). -/
def State.earlierRecv (s : State) (h port : Nat) (w : Wait) : Bool :=
  s.hamper.threads.any (fun t =>
    match t.2.wait with
    | some v =>
      match v.instr with
      | .nrecv g => decide (t.1 ≠ h ∧ g.aux.toNat = port ∧ (v.since < w.since ∨ (v.since = w.since ∧ t.1 < h)))
      | _ => false
    | none => false)

/-- Writes bytes to Hamper memory, up to its end. -/
def State.hput (s : State) (off : Nat) (bs : List Byte) : State :=
  s.putBytes (hamperBase + off) (bs.take (2 ^ 26 - off))

def nrecvTest (f : FmtD) : Test := fun s h w =>
  let p := f.aux.toNat
  match s.port p with
  | [] => none
  | m :: r =>
    if s.earlierRecv h p w then none
    else
      let bs := hdrBytes m ++ m.payload
      let n := min (32 + m.len.toNat) w.b.toNat
      let s := ((s.setPort p r).hput w.a.toNat (bs.take n)).setXr f.d (wOf (32 + m.len.toNat))
      some (s.doneDT h f w 0 (boolNat (decide (n < 32 + m.len.toNat))))

def nprobeTest (f : FmtD) : Test := fun s h w =>
  match s.port f.aux.toNat with
  | [] => none
  | m :: _ => some (((s.hput w.a.toNat (hdrBytes m)).setXr f.d (wOf (32 + m.len.toNat))).doneDT h f w 0 0)

def execNrecv (f : FmtD) (s : State) : Out :=
  .next (s.onThread (encodeWord (.nrecv f)) (fun h =>
    s.hoff (s.xr f.a) 32 0 (fun off =>
      if 0x2800000 ≤ off then s.trapHere 0x09 (s.xr f.a)
      else s.beginWait h (s.waitOf f (.nrecv f)) (nrecvTest f) (lateDT f))))

def execNprobe (f : FmtD) (s : State) : Out :=
  .next (s.onThread (encodeWord (.nprobe f)) (fun h =>
    s.hoff (s.xr f.a) 32 0 (fun off =>
      if 0x2800000 ≤ off then s.trapHere 0x09 (s.xr f.a)
      else s.beginWait h (s.waitOf f (.nprobe f)) (nprobeTest f) (lateDT f))))

/-! ## Sending (R346, R353, R360) -/

/-- The message that a wait of `NSEND` carries. -/
def sentOf (h : Nat) (w : Wait) : Sent :=
  { dest := w.b, msg := msgOf (leNat (w.bytes.take 32)) (w.bytes.drop 32), thr := some h, num := w.ord }

/-- The answers that come without a step of their own: a peer's over Ultra Ethernet, which is a free value
(notes/assumptions/8.md); and a leaf controller's, when a command other than an `ECALL` reply is the first of
its link. -/
def State.nsendAnswer (s : State) (h : Nat) (x : Sent) : Option (State × Bool) :=
  match x.dest.toNat / 2 ^ 62 with
  | 2 =>
    if s.hamper.sent.contains x then
      let f := s.nextFree
      some (f.2.dropSent x, f.1.getLsbD 0)
    else none
  | 3 =>
    let cl := wfld x.dest 3 0
    if (s.hamper.links.find? (fun y => decide (y.1 = cl))) = some (cl, x) ∧ (x.msg.tag ≠ 1 ∨ leafTakes (s.hjob h) x.msg = false) then
      some ({ s with hamper := { s.hamper with links := s.hamper.links.erase (cl, x) } }, leafTakes (s.hjob h) x.msg)
    else none
  | _ => none

/-- The thread's send is answered, or still has to find a permit. -/
def nsendTest (f : FmtD) : Test := fun s h w =>
  let x := sentOf h w
  if w.sent = false then
    let num := s.hamper.sendNo
    match s.route x with
    | some s => some (s.setWait { w with sent := true, ord := num })
    | none => none
  else
    match w.ans with
    | some (.data _) => some (s.doneDT h f w 0 0)
    | some (.refused c) => some (if c = 0 then s.doneDT h f w 4 0 else s.doneDT h f w 7 c.toNat)
    | _ =>
      match s.nsendAnswer h x with
      | some (s, ok) => some (if ok then s.doneDT h f w 0 0 else s.doneDT h f w 4 0)
      | none => none

/-- At D what is not injected is cancelled. -/
def nsendLate (f : FmtD) : Expiry := fun s h w =>
  let x := sentOf h w
  let s := s.dropSent x
  let s : State := { s with
    hamper := { s.hamper with links := s.hamper.links.erase (wfld x.dest 3 0, x) }
    fab := { s.fab with out := s.fab.out.filter (fun p => decide (¬(p.kind = 7 ∧ p.aux = wOf x.key))) } }
  s.doneDT h f w 1 0

def execNsend (f : FmtD) (s : State) : Out :=
  .next (s.onThread (encodeWord (.nsend f)) (fun h =>
    let xb := s.xr f.b
    s.hoff (s.xr f.a) 32 32 (fun off =>
      let m0 := msgOf (s.hnum off 32) []
      let j := s.hjob h
      let w := s.waitOf f (.nsend f)
      let k := m0.len.toNat
      if hdrOk m0 = false ∨ s.destOk j xb k = false ∨ 2 ^ 26 < off + 32 + k then s.doneDT h f w 7 0x0E
      else if xb.toNat / 2 ^ 62 = 1 ∧ s.routed (wfld xb 10 0) = false then s.doneDT h f w 7 0x09
      else if (firstPoison s.poison (hamperBase + off) (32 + k)).isSome then s.trapHere 0x0A (s.xr f.a)
      else if j ≠ 0 ∧ s.held j = true then s.doneDT h f w 3 0
      else
        let m := { m0 with jobid := BitVec.ofNat 32 (if j = 0 then 0 else s.jobid j) }
        s.beginWait h { w with b := xb, bytes := hdrBytes m ++ s.hbytes (off + 32) k } (nsendTest f) (nsendLate f))))

/-- `ECALL_REPLY` (R360): core n's leaf controller takes the command at the head of its link, an `ECALL` reply
for this core: the reply covers the request block, the core's semaphore is signalled, and the permit returns
(notes/assumptions/7.md). -/
def execEcallReply (n : Nat) (reply : List Byte) (s : State) : Out :=
  .next (
    match s.hamper.links.find? (fun y => decide (y.1 = n / 256)) with
    | none => s
    | some (cl, x) =>
      if x.msg.tag = 1 ∧ 96 ≤ x.msg.payload.length ∧ (x.msg.payload.headD 0).toNat = n % 256 ∧
          (x.msg.payload.drop 32).take 64 = reply then
        let s : State := { s with hamper := { s.hamper with links := s.hamper.links.erase (cl, x) } }
        let s := s.ackSend x true
        match (s.core n).ecall with
        | none => s
        | some (sem, at_) =>
          let s := s.padCells n (cellsAt at_.toNat reply) []
          let s := s.setCore n { s.core n with ecall := none }
          match (s.fg n).semAdd sem.toNat 1 with
          | some c => s.setFg n c
          | none => s
      else s)

/-! ## Launches and copies (R355, R356) -/

def execNlaunch (f : FmtQ) (s : State) : Out :=
  .next (s.onJob (encodeWord (.nlaunch f)) (fun _ j =>
    let g := (s.xr f.b).toNat % 16
    s.hoff (s.xr f.a) 64 64 (fun off =>
      let raw := s.hnum off 64
      match s.hlaunch j g raw with
      | .inl c => s.doneQ f (refusal63 c) 3
      | .inr r => if s.held j then s.doneQ f (refusal63 9) 3 else r.2.doneQ f (wOf r.1) 3)))

/-- The packet of a waiting `NCOPY` has ended: its engine is free, xd takes `res`. -/
def ncopyTest (f : FmtD) : Test := fun s h w =>
  match s.hamper.copies.find? (fun c => decide (c.thread = some h)) with
  | none => none
  | some c =>
    if c.fin then
      some (((s.dropHcopy c.eng).setXr f.d c.entry.res).doneDT h f w c.entry.code c.entry.det.toNat)
    else none

/-- At D the packet runs on unobserved. -/
def ncopyLate (f : FmtD) : Expiry := fun s h w =>
  let l := s.hamper.copies.map (fun (c : HCopy) => if c.thread = some h then { c with thread := none } else c)
  ({ s with hamper := { s.hamper with copies := l } }).doneDT h f w 1 0

def execNcopy (f : FmtD) (s : State) : Out :=
  .next (s.onJob (encodeWord (.ncopy f)) (fun h j =>
    s.hoff (s.xr f.a) 64 64 (fun off =>
      let w := s.waitOf f (.ncopy f)
      let q := s.hpacket off
      if s.held j then (s.setXr f.d 0).doneDT h f w 3 0
      else
        match s.hpacketBad j q with
        | some c => (s.setXr f.d 0).doneDT h f w 7 c
        | none => ((s.addHcopy j (some h) q w.d).2).beginWait h w (ncopyTest f) (ncopyLate f))))

/-! ## Retention (R361) -/

/-- The threads of a Hamper core. -/
def unitThreads (u : Nat) : List Nat := (List.range 8).map (fun k => 8 * u + k)

/-- `RETENTION_ENTER`: a unit, a core from 0 or a leaf controller from 64, whose threads have all waited for
2,048 Hamper cycles, 1,024 arithmetic cycles, stops its clock. -/
def execRetentionEnter (u : Nat) (s : State) : Out :=
  .next (
    let long (h : Nat) : Bool :=
      match (s.thread h).wait with
      | some w => decide (w.since + 1024 ≤ s.now)
      | none => false
    let idle := if u < 64 then (unitThreads u).all long else s.hamper.links.all (fun x => decide (x.1 ≠ u - 64))
    if u < 80 ∧ idle = true ∧ s.hamper.retained.contains u = false then
      { s with hamper := { s.hamper with retained := s.hamper.retained ++ [u] } }
    else s)

/-- The test that a thread's waiting instruction makes, and what it does at D + 1. -/
def threadWait : Instr → Option (Test × Expiry)
  | .ctrwait f => some (ctrwaitTest f, lateDT f)
  | .nrecv f => some (nrecvTest f, lateDT f)
  | .nprobe f => some (nprobeTest f, lateDT f)
  | .nsend f => some (nsendTest f, nsendLate f)
  | .ncopy f => some (ncopyTest f, ncopyLate f)
  | _ => none

/-- Runs something as agent a, and gives the turn back to whom it was. -/
def State.asAgent (s : State) (a : Agent) (f : State → State) : State := { f { s with cur := a } with cur := s.cur }

/-- A thread whose condition holds at the wake, by D, completes that much later (R361). -/
def State.wakeThread (s : State) (h : Nat) : State :=
  let t := s.thread h
  match t.wait with
  | none => s
  | some w =>
    let now : Word := if t.hjob = 0 then s.ccyc else s.jtime t.hjob.toNat
    match threadWait w.instr with
    | some (test, _) =>
      if now.toNat ≤ w.d.toNat ∧ (test { s with cur := .thread h } h w).isSome = true then
        s.setThread h { t with wait := some { w with fresh := true } }
      else s
    | none => s

/-- `RETENTION_WAKE`: the unit runs again 256 Hamper cycles, 128 arithmetic cycles, later. -/
def execRetentionWake (u : Nat) (s : State) : Out :=
  .next (
    if s.hamper.retained.contains u then
      let s := if u < 64 then (unitThreads u).foldl (fun s h => s.wakeThread h) s else s
      { s with hamper := { s.hamper with
        retained := s.hamper.retained.erase u
        waking := tset 0 s.hamper.waking u (s.now + 128) } }
    else s)

/-- Whether a wait of a thread could complete now, or has passed its D. -/
def State.threadDue (s : State) (h : Nat) : Bool :=
  let t := s.thread h
  match t.wait with
  | none => true
  | some w =>
    let now : Word := if t.hjob = 0 then s.ccyc else s.jtime t.hjob.toNat
    decide (w.d.toNat < now.toNat) || (match threadWait w.instr with
      | some (test, _) => (test { s with cur := .thread h } h w).isSome
      | none => false)

/-- Units in retention wake on what could complete one of their waits, and at the earliest deadline among them (R361). -/
def State.wakeUnits (s : State) : State :=
  s.hamper.retained.foldl (fun s u =>
    let due := if u < 64 then (unitThreads u).any s.threadDue else s.hamper.links.any (fun x => decide (x.1 = u - 64))
    if due then
      match execRetentionWake u s with
      | .next t => t
      | _ => s
    else s) s

/-- Whether the unit of a thread runs. -/
def State.awake (s : State) (h : Nat) : Bool :=
  !s.hamper.retained.contains (h / 8) && decide (tget 0 s.hamper.waking (h / 8) ≤ s.now)

end Sys2Proof.Machine
end

