-- ==== Sys2Proof/Machine/Jcfg.lean ====
section
/-! DEFINITION. `JCFG` (R358): handle-table entries, window-template entries, and window entries of stopped
contexts. -/

namespace Sys2Proof.Machine

/-- A handle entry's block holds no reserved bit and no reserved code; an extent of 0, and a blocked layout of a type that
has none, count as such (R228, R358, notes/assumptions/26.md). -/
def hentOk (e : Nat) : Bool :=
  decide (fld e 511 480 = 0) && decide (fld e 63 48 = 0) && decide (fld e 95 87 = 0) && tyW (hFmt e) &&
    decide (hLay e ≠ 3) && decide (1 ≤ hDim e ∧ hDim e ≤ 5) &&
    (decide (hLay e = 0) || [8, 16, 32].contains (packWidth (hFmt e))) && (List.range 5).all (fun i => decide (1 ≤ hExt e i))

/-- A window entry's block (R224, R358). -/
def winOk (e : Nat) : Bool :=
  decide (e / 2 ^ 64 = 0) && decide (fld e 60 56 = 0) && decide (fld e 24 0 = 0) && decide (fld e 47 37 ≤ 1056)

/-- Writes entry w of a context's window table. -/
def Ctx.setWin (c : Ctx) (w : Nat) (v : Word) : Ctx :=
  { c with win := tset 0 c.win w v, regs := c.regs.clean (poisWin w) }

/-- Kind 0: the table in HBM, and every Folder. -/
def State.jcfgHandle (s : State) (f : FmtQ) (j sel blk : Nat) : State :=
  let tab := s.htab j
  let a := tab % 2 ^ 45 + 64 * sel
  if hentOk blk = false then s.doneQ f (refusal63 1) 3
  else if tab = 0 then s.doneQ f (refusal63 4) 3
  else
    match s.refuses (midThread 0) a 64 .w with
    | some c => s.trapHere c (wOf a)
    | none =>
      let s := s.writeCells (cellsAt a (leBytes 64 blk))
      ({ s with handles := tset none s.handles (hKey j sel) (some (BitVec.ofNat 512 blk)) }).doneQ f 0 200

/-- Kind 2: the context of the job on the named core, foreground or shadow. -/
def State.jcfgContext (s : State) (f : FmtQ) (j n w : Nat) (v : Word) : State :=
  let k := s.core n
  if s.held j = false then s.doneQ f (refusal63 2) 3
  else if k.busy ∧ k.fg.ident.job = j then (s.setFg n (k.fg.setWin w v)).doneQ f 0 20
  else
    match k.sh with
    | some c =>
      if c.ident.job = j then (s.setCore n { k with sh := some (c.setWin w v) }).doneQ f 0 20
      else s.doneQ f (refusal63 3) 3
    | none => s.doneQ f (refusal63 3) 3

/-- `JCFG`: the selector in xb says which kind (notes/assumptions/69.md). -/
def State.jcfg (s : State) (f : FmtQ) (i : Instr) : State :=
  s.onJob (encodeWord i) (fun _ j =>
    s.hoff (s.xr f.a) 64 64 (fun off =>
      let b := s.xr f.b
      let blk := s.hnum off 64
      let kind := wfld b 63 62
      let cl := wfld b 19 16
      let w := wfld b 5 0
      if wfld b 61 20 ≠ 0 ∨ kind = 3 then s.doneQ f (refusal63 1) 3
      else if kind = 0 then s.jcfgHandle f j (wfld b 19 0) blk
      else if wfld b 7 6 ≠ 0 ∨ winOk blk = false ∨ (kind = 1 ∧ wfld b 15 8 ≠ 0) then s.doneQ f (refusal63 1) 3
      else if kind = 1 then
        (s.setJob j { s.job j with tmpl := tset 0 (s.job j).tmpl (64 * cl + w) (wOf blk) }).doneQ f 0 20
      else s.jcfgContext f j (coreNum cl (wfld b 15 8)) w (wOf blk)))

def execJcfgHandle (f : FmtQ) (s : State) : Out := .next (s.jcfg f (.jcfgHandle f))
def execJcfgWindowTemplate (f : FmtQ) (s : State) : Out := .next (s.jcfg f (.jcfgWindowTemplate f))
def execJcfgWindowContext (f : FmtQ) (s : State) : Out := .next (s.jcfg f (.jcfgWindowContext f))

end Sys2Proof.Machine
end

