-- ==== Sys2Proof/Machine/Task.lean ====
section
/-! DEFINITION. Task control: `TLAUNCH`, `TEXIT` and the end of a task, `TYIELD`, `TARM` (R193, R194, R200 to
R204). -/

namespace Sys2Proof.Machine

/-! ## Launches and their completion (R193, R368) -/

/-- The control payload by which a package reports ended tasks to the job's first package. -/
def reportPayload (jid num extra : Nat) (d : Desc) : List Byte :=
  [8] ++ leBytes 4 jid ++ leBytes 4 num ++ leBytes 4 extra ++ leBytes 64 (descNat d)

/-- The actions of a launch that has completed (R193): its counter at the Hamper of the job's first package,
then its dependence counter. -/
def State.launchDone (s : State) (job : Nat) (d : Desc) : State :=
  let s := if d.done.getLsbD 16 then
      (if s.isFirst job then s.bumpCtr (s.ctrBase job + wfld d.done 15 0) (s.jobid job)
        else if (s.firstPkg job).1 = s.podid.toNat then
          s.inject 6 (s.firstPkg job).2 0 4 (wOf (2 ^ 44)) d.done (leBytes 4 (s.jobid job))
        else s.tellPkg job (s.firstPkg job) ([24] ++ leBytes 4 (s.jobid job) ++ leBytes 2 (wfld d.done 15 0)))
    else s
  s.sendDep d.dep

/-- Counts a task of a launch as ended at a cluster (R368). -/
def State.countEnded (s : State) (job num cl : Nat) : State :=
  match s.launch job num with
  | some l => s.setLaunch { l with ended := tset 0 l.ended cl (tget 0 l.ended cl + 1) }
  | none => s

/-! ## TLAUNCH (R200) -/

/-- The issuing task as a launcher. -/
def State.issuer (s : State) (n span : Nat) : Issuer :=
  let c := s.fg n
  { job := c.ident.job, sup := c.ident.desc.sup, prio := c.ident.desc.prio
    grp := if span = 3 then n / 256 else if span = 4 then n / 512 else 0 }

/-- The checks of a descriptor's offset (R200): where its 64 bytes can be read. -/
def State.descAt (s : State) (n : Nat) (a : Word) (f : Nat → State) : State :=
  if a.toNat / 2 ^ 19 ≠ 0 then s.trapHere 0x10 a
  else if a.toNat % 64 ≠ 0 then s.trapHere 0x0F a
  else
    match s.leasedAt n a.toNat 64 with
    | some b => s.trapHere 0x02 (wOf b)
    | none => if s.spadPoison n a.toNat 64 then s.trapHere 0x0A a else f (s.spadNum n a.toNat 64)

/-- The scheduler accepts the descriptor at the first test at which its queue has a free entry. -/
def tlaunchTest (f : FmtD) : Test := fun s n w =>
  let raw := leNat w.bytes
  let d := descOf raw
  let u := s.issuer n d.span
  match s.accept u.job u.grp d with
  | some (num, s) => some ((s.modFg n (fun c => c.setX f.d (wOf num))).finishDk n 4 f.st f.x w.pc 0 0)
  | none => none

def execTlaunch (f : FmtD) (s : State) : Out :=
  .next (s.onCore (encodeWord (.tlaunch f)) (fun n =>
    s.descAt n (s.xr f.a) (fun raw =>
      let w := { s.waitOf f (.tlaunch f) with bytes := leBytes 64 raw }
      match s.descCheck raw (s.issuer n (descOf raw).span) with
      | some c => s.finishDk n 4 f.st f.x w.pc 4 c
      | none => s.beginWait n w (tlaunchTest f) (lateD f))))

/-! ## TEXIT and the end of a task (R201, R299) -/

/-- Each engine in ring mode leaves it at its next entry boundary. -/
def Ctx.leaveRings (c : Ctx) : Ctx :=
  let off (e : Eng) : Engine := if (c.eng e).st = .ring then (c.eng e).leaveRing.settle (c.awaits e) else c.eng e
  { c with vx := off .vx, mt := off .mt, ce0 := off .ce0, ce1 := off .ce1 }

/-- `TEXIT`: issue stops, rings stop, and the core waits for its engines. -/
def execTexit (f : FmtQ) (s : State) : Out :=
  .next (s.onCore (encodeWord (.texit f)) (fun n =>
    (s.modFg n (fun c => { c.leaveRings with exiting := true })).tick 1))

/-- Nothing of the task is under way: its engines, its copies, its stores, and its posted writes. -/
def State.drained (s : State) (n : Nat) : Bool :=
  let k := s.core n
  engines.all k.fg.quiet && k.fg.inflight.isEmpty && k.fg.winCnt.all (fun w => decide (w.2 = 0)) &&
    k.sq.all (fun e => e.marker) && k.farw.isEmpty

/-- What a task's end, or a persistent task's first instruction, counts for: its launch, or the actions of its own
descriptor (R193, R194, R368). -/
def State.taskCounts (s : State) (i : Ident) (cl : Nat) : State :=
  if i.named.isSome then s.launchDone i.job i.desc else s.countEnded i.job i.num cl

/-- The task of core n issues an instruction: a persistent one counts at its first (R194). -/
def State.begins (s : State) (n : Nat) : State :=
  let c := s.fg n
  if c.ident.desc.pers && !c.begun then (s.setFg n { c with begun := true }).taskCounts c.ident (n / 256) else s

/-- Whether writes of a task that has ended are still on their way: posted writes not yet acknowledged, and the stores of
its copies, which entered the store queue of core n by a cycle (R193). -/
def State.owes (s : State) (e : Ending) : Bool :=
  let k := s.core e.core
  s.cores.any (fun c => c.2.posted.any (fun p => decide (p.own = e.key)) || c.2.acks.any (fun p => decide (p.own = e.key))) ||
    k.sq.any (fun x => !x.marker && decide (x.t0 ≤ e.t0)) || k.farw.any (fun x => decide (x.t0 ≤ e.t0))

/-- A task has ended on core n: a named task's slot becomes FREE, and the end counts once its writes are performed. -/
def State.taskEnds (s : State) (n : Nat) (c : Ctx) : State :=
  let i := c.ident
  let s := match i.named with
    | some k => s.setSlot (n / 256) k { s.slot (n / 256) k with st := .free }
    | none => s
  let e : Ending := { core := n, key := c.key, ident := i, t0 := s.now }
  if i.desc.pers && c.begun then s
  else if s.owes e then { s with sch := { s.sch with ending := s.sch.ending ++ [e] } }
  else s.taskCounts i (n / 256)

/-- Counts the ended tasks whose writes have been performed. -/
def State.settleEnding (s : State) : State :=
  s.sch.ending.foldl (fun s e =>
    if s.owes e then s
    else ({ s with sch := { s.sch with ending := s.sch.ending.erase e } }).taskCounts e.ident (e.core / 256)) s

/-- The task of core n has ended, and the core is free. -/
def State.endTask (s : State) (n : Nat) : State :=
  let s := s.taskEnds n (s.fg n)
  s.setCore n { s.core n with busy := false, fg := {} }

/-- `TASK_END`: once the drain is done, the barrier arrivals are withdrawn; once none is left, the task ends. -/
def execTaskEnd (n : Nat) (s : State) : Out :=
  .next (
    let c := s.fg n
    if c.exiting && c.stop.isNone && s.drained n && engines.all (fun e => decide ((c.eng e).st ≠ .stopped)) then
      let t := s.withdrawAll n
      if (t.fg n).bars.isEmpty then t.endTask n else t
    else s)

/-! ## TARM (R204) -/

/-- `TARM` (R204): where several results apply, a foreign slot comes before one that is not free, and both before the
descriptor's checks (notes/assumptions/40.md). -/
def execTarm (f : FmtQ) (s : State) : Out :=
  .next (s.onCore (encodeWord (.tarm f)) (fun n =>
    s.descAt n (s.xr f.a) (fun raw =>
      let b := s.xr f.b
      let cl := n / 256
      let k := wfld b 11 0
      if wfld b 26 16 ≠ s.pkgid ∨ wfld b 15 12 ≠ cl then s.doneQ f 3 6
      else if (s.slot cl k).st ≠ .free then s.doneQ f 2 6
      else
        match s.descCheck raw { s.issuer n (descOf raw).span with one := true } with
        | some c => s.doneQ f (wOf (4 + c)) 6
        | none =>
          let v := (s.slot cl k).arm (wfld b 47 32) s.now (s.fg n).ident.job (descOf raw)
          (s.setSlot cl k v).doneQ f (if v.st = .ready then 1 else 0) 6)))

/-! ## Ready tasks of a cluster (R365, R366) -/

/-- A task that is ready at a cluster: what it is, and what the choice of R366 goes by. -/
inductive Ready where
  | launch (job num lo : Nat)
  | slot (k : Nat)
  | yielded (i : Nat)
  deriving DecidableEq, Repr

structure Cand where
  what : Ready
  job : Nat
  prio : Nat
  rdy : Nat
  num : Nat
  tid : Nat
  desc : Desc
  deriving DecidableEq, Repr

/-- The named task of a slot has a `taskid` by R197; its launch number counts as 2³², after every launch's
(notes/assumptions/30.md). -/
def namedId (cl k : Nat) : Nat := 2 ^ 31 + cl * 2 ^ 12 + k

/-- The ready tasks of a cluster, of jobs that run. -/
def State.readyTasks (s : State) (cl : Nat) : List Cand :=
  let ls := (s.sch.launches.map (fun (l : Launch) =>
    (l.ranges.filter (fun r => decide (r.cl = cl))).map (fun (r : Range) =>
      ({ what := .launch l.job l.num r.lo, job := l.job, prio := l.desc.prio, rdy := r.rdy, num := l.num, tid := r.lo
         desc := l.desc } : Cand)))).flatten
  let ns := (s.sch.slots.filter (fun v => decide (v.1 / 4096 = cl ∧ v.2.st = .ready))).map (fun v =>
    ({ what := .slot (v.1 % 4096), job := v.2.job, prio := v.2.desc.prio, rdy := v.2.rdy, num := 2 ^ 32
       tid := namedId cl (v.1 % 4096), desc := v.2.desc } : Cand))
  let ys := (s.sch.yielded.zipIdx.filter (fun y => decide (y.1.cl = cl))).map (fun y =>
    ({ what := .yielded y.2, job := y.1.ctx.ident.job, prio := y.1.ctx.ident.desc.prio, rdy := y.1.rdy
       num := (match y.1.ctx.ident.named with | some _ => 2 ^ 32 | none => y.1.ctx.ident.num)
       tid := y.1.ctx.ident.taskid.toNat, desc := y.1.ctx.ident.desc } : Cand))
  (ls ++ ns ++ ys).filter (fun c => decide (s.rs c.job = 0))

/-! ## TYIELD (R202, R406) -/

/-- The cells of core n's scratchpad that lie in the granules of a mask, by offset. -/
def State.padKept (s : State) (n : Nat) (mask : BitVec 128) : List Host.Cell :=
  let b := spadKey n 0
  (s.mem.filter (fun c => decide (b ≤ c.1 ∧ c.1 < b + 2 ^ 19) && mask.getLsbD ((c.1 - b) / 4096))).map
    (fun c => (c.1 - b, c.2))

/-- The poisoned 32-byte units of those granules, by number. -/
def State.padPz (s : State) (n : Nat) (mask : BitVec 128) : List Nat :=
  let b := spadKey n 0
  ((s.poison.filter (fun c => decide (b ≤ 32 * c.1 ∧ 32 * c.1 < b + 2 ^ 19) && mask.getLsbD ((32 * c.1 - b) / 4096))).map
    (fun c => c.1 - b / 32))

/-- Every engine is idle. -/
def Ctx.atRest (c : Ctx) : Bool :=
  engines.all (fun e => c.quiet e && decide ((c.eng e).st = .idle)) && c.inflight.isEmpty

/-- `TYIELD`: where a ready task of the job with at least this priority waits, the task leaves the core. -/
def execTyield (f : FmtQ) (s : State) : Out :=
  .next (s.onCore (encodeWord (.tyield f)) (fun n =>
    let c := s.fg n
    let p := c.ident.desc.prio
    if c.atRest && (s.readyTasks (n / 256)).any (fun t => decide (t.job = c.ident.job ∧ p ≤ t.prio)) then
      let c' := { s.markDc c with pc := c.pc + 8 }
      let y : Yielded := { cl := n / 256, rdy := s.now, rd := f.d, ctx := c', pad := s.padKept n c.dirty, pz := s.padPz n c.dirty }
      ({ s.setCore n { s.core n with busy := false, fg := {} } with
          sch := { s.sch with yielded := s.sch.yielded ++ [y] } }).tick 2
    else s.doneQ f 0 2))

end Sys2Proof.Machine
end

