-- ==== Sys2Proof/Machine/Schedule.lean ====
section
/-! DEFINITION. Hardware scheduling: division, stealing, dispatch, the completion tree, timed domains, pulse
swallowing and the ramp limiter (R195, R196, R363 to R373, R481). -/

namespace Sys2Proof.Machine

/-! ## Division (R363, R481) -/

/-- `LAUNCH_DIVIDE`: the global scheduler divides the launch at the head of its queue. -/
def execLaunchDivide (s : State) : Out :=
  .next (match s.sch.globQ with
    | [] => s
    | (job, num) :: r =>
      let s : State := { s with sch := { s.sch with globQ := r } }
      match s.launch job num with
      | some l => s.divide l
      | none => s)

/-- `LEAF_LAUNCH_TAKE`: a leaf controller takes a span-3 launch: its indices are now held unplaced. -/
def execLeafLaunchTake (cl : Nat) (s : State) : Out :=
  .next (match s.leafQ cl with
    | [] => s
    | (job, num) :: r =>
      let s : State := { s with sch := { s.sch with leafQ := tset [] s.sch.leafQ cl r } }
      match s.launch job num with
      | some l =>
        match l.desc.timed, s.dom job l.desc.tdom with
        | true, some m => if m.hasCl cl then s.setLaunch (l.give cl 0 l.desc.count l.rdy) else s
        | true, none => s
        | false, _ => s.setLaunch (l.give cl 0 l.desc.count l.rdy)
      | none => s)

/-! ## Stealing (R364) -/

/-- The unplaced indices of a launch at a die. -/
def Launch.unplaced (l : Launch) (die : Nat) : Nat :=
  ((l.ranges.filter (fun r => decide (r.cl / 2 = die))).map (fun r => r.n)).sum

/-- The die with the most unplaced indices, the lowest of equals. -/
def Launch.busiest (l : Launch) : Nat :=
  (List.range 8).foldl (fun a d => if l.unplaced a < l.unplaced d then d else a) 0

/-- The largest range of a die, the lower cluster of equals. -/
def Launch.largest (l : Launch) (die : Nat) : Option Range :=
  (l.ranges.filter (fun r => decide (r.cl / 2 = die))).foldl (fun a r =>
    match a with
    | none => some r
    | some x => if x.n < r.n ∨ (x.n = r.n ∧ r.cl < x.cl) then some r else a) none

/-- Moves the upper half of a range to the lower cluster of a die; the assigned counts move with it (R368). -/
def Launch.steal (l : Launch) (v : Range) (die : Nat) : Launch :=
  let k := v.n / 2
  let cl := 2 * die
  let asg := tset 0 l.assigned v.cl (tget 0 l.assigned v.cl - k)
  { l with
    ranges := l.ranges.map (fun (r : Range) => if r = v then { r with n := r.n - k } else r) ++ [⟨cl, v.lo + (v.n - k), k, v.rdy⟩]
    assigned := tset 0 asg cl (tget 0 asg cl + k) }

/-- The payload of a steal's request to another package, and of its answer: who asks, for which die, and the
indices with the `ccyc` from which they are ready. -/
def stealPayload (tag jid num key die lo n : Nat) (rdy : Word) : List Byte :=
  leBytes 1 tag ++ leBytes 4 jid ++ leBytes 4 num ++ leBytes 4 key ++ leBytes 1 die ++ leBytes 4 lo ++ leBytes 4 n ++ leBytes 8 rdy.toNat

/-- `STEAL`: a die that is dry for a launch of span 5 or wider steals from the die of the span group that holds the
most unplaced indices.  How many the dies of other packages hold is not known here: a free value says whether one of
them holds the most, and which (notes/assumptions/8.md). -/
def execSteal (die job num : Nat) (s : State) : Out :=
  .next (match s.launch job num with
    | none => s
    | some l =>
      if l.desc.span < 5 ∨ l.desc.timed = true ∨ 8 ≤ die ∨ l.unplaced die ≠ 0 ∨ s.rs job ≠ 0 then s
      else
        let ps := (s.spanPkgs job l.desc.span).filter (fun p => decide (p ≠ (s.podid.toNat, s.pkgid)))
        let f := s.nextFree
        match (if f.1.getLsbD 0 then ps[f.1.toNat / 2 % max ps.length 1]? else none) with
        | some p =>
          f.2.tellPkg job p (stealPayload 20 (s.jobid job) num s.ownKey die 0 0 0)
        | none =>
          match l.largest l.busiest with
          | none => s
          | some v => if v.n < 2 then s else s.setLaunch (l.steal v die))

/-- Another package's steal reaches this one: the upper half of the busiest die's largest range leaves for it. -/
def State.stolenFrom (s : State) (job num key die : Nat) : State :=
  match s.launch job num with
  | none => s
  | some l =>
    match l.largest l.busiest with
    | none => s
    | some v =>
      if v.n < 2 ∨ l.desc.timed = true ∨ s.rs job ≠ 0 then s
      else
        let k := v.n / 2
        let l' := { l with
          ranges := l.ranges.map (fun (r : Range) => if r = v then { r with n := r.n - k } else r)
          assigned := tset 0 l.assigned v.cl (tget 0 l.assigned v.cl - k) }
        (s.setLaunch l').tellPkg job (key / 2048, key % 2048)
          (stealPayload 21 (s.jobid job) num key die (v.lo + (v.n - k)) k (wOf v.rdy + s.slew))

/-- The stolen indices reach the thief: the lower cluster of its die holds them. -/
def State.stolenBy (s : State) (job num die lo n : Nat) (rdy : Word) : State :=
  match s.launch job num with
  | none => s
  | some l => s.setLaunch (l.give (2 * die) lo n (rdy - s.slew).toNat)

/-! ## Dispatch (R365, R366) -/

/-- The cores a task may be placed on: the domain's for a timed launch, else those of no domain. -/
def State.inSet (s : State) (t : Cand) (n : Nat) : Bool :=
  if t.desc.timed then
    match s.dom t.job t.desc.tdom with
    | some m => m.has n
    | none => false
  else s.sch.doms.all (fun m => !m.has n)

/-- A core is free when its foreground bank is empty, no exchange is under way, and it is not retired. -/
def State.freeCore (s : State) (n : Nat) : Bool :=
  let k := s.core n
  !k.busy && !k.retired && k.exch.isNone

/-- The lowest free core of a task's set in a cluster. -/
def State.coreFor (s : State) (cl : Nat) (t : Cand) : Option Nat :=
  ((List.range 256).map (fun k => coreNum cl k)).find? (fun n => s.freeCore n && s.inSet t n)

/-- R366's order. -/
def Cand.before (a b : Cand) : Bool :=
  decide (b.prio < a.prio) ||
    (decide (a.prio = b.prio) &&
      (decide (a.rdy < b.rdy) ||
        (decide (a.rdy = b.rdy) && (decide (a.num < b.num) || (decide (a.num = b.num) && decide (a.tid < b.tid))))))

/-- The task that is dispatched next, with its core. -/
def State.choose (s : State) (cl : Nat) : Option (Cand × Nat) :=
  (s.readyTasks cl).foldl (fun a t =>
    match s.coreFor cl t with
    | none => a
    | some n =>
      match a with
      | none => some (t, n)
      | some (b, m) => if t.before b then some (t, n) else some (b, m)) none

/-! ## A task's first state (R195, R196, R197) -/

/-- Forgets what a scratchpad's granules of a mask hold: they read 0, without poison. -/
def State.wipePad (s : State) (n : Nat) (mask : BitVec 128) : State :=
  let b := spadKey n 0
  { s with
    mem := s.mem.filter (fun c => !(decide (b ≤ c.1 ∧ c.1 < b + 2 ^ 19) && mask.getLsbD ((c.1 - b) / 4096)))
    poison := s.poison.filter (fun c => !(decide (b ≤ 32 * c.1 ∧ 32 * c.1 < b + 2 ^ 19) && mask.getLsbD ((32 * c.1 - b) / 4096))) }

/-- Copies granule g of the job's scratchpad image into the scratchpad, with its poison (R405). -/
def State.fillImg (s : State) (n : Nat) (img : Word) (g : Nat) : State :=
  let a := img.toNat % 2 ^ 45 + 4096 * g
  let b := spadKey n (4096 * g)
  match s.refuses (4 * 2 ^ 13 + n / 256) a 4096 .r with
  | some c => ({ s with poison := (List.range 128).foldl (fun p j => poisonGranule p (b + 32 * j)) s.poison }).event (wOf c) 0 0 []
  | none => { s with mem := moveCells s.mem a b 4096, poison := movePoison s.poison a b 4096 }

def State.fillImgs (s : State) (n : Nat) (img : Word) (mask : BitVec 128) : State :=
  ((List.range 128).filter (fun g => mask.getLsbD g)).foldl (fun s g => s.fillImg n img g) s

/-- The scratchpad rule of R196 for a core that gets a task of a job with an image mask. -/
def State.prepPad (s : State) (n job : Nat) (img : Word) (mask : BitVec 128) : State :=
  let s := if (s.core n).sjob = some job then s else s.wipePad n (BitVec.allOnes 128)
  (s.fillImgs n img mask).setCore n { (s.fillImgs n img mask).core n with sjob := some job }

/-- The window template of a cluster, as a context's table (R224). -/
def tmplOf (t : Tbl Word) (cl : Nat) : Tbl Word :=
  (t.filter (fun e => decide (e.1 / 64 = cl))).map (fun e => (e.1 % 64, e.2))

/-- The state of a task at its first instruction (R195). -/
def State.firstCtx (s : State) (n : Nat) (t : Cand) (num : Nat) (named : Option Nat) : Ctx :=
  let d := t.desc
  let j := s.job t.job
  { pc := d.entry
    regs := { x := tset 0 (tset 0 (tset 0 [] 10 d.args) 11 (wOf (t.tid % 2 ^ 31))) 12 (wOf d.count), cb := j.cb0 }
    csr := { bfmt := j.bfmt0, sbud := wOf d.sbud,
             edl := tset 0 (tset 0 (tset 0 (tset 0 [] 0 d.edl) 1 d.edl) 2 d.edl) 3 d.edl }
    sl := j.sl0
    win := tmplOf j.tmpl (n / 256)
    jimg := if d.img then j.img else 0
    jmask := if d.img then j.imask else 0
    dcMark := s.now
    ident := { job := t.job, num := num, taskid := BitVec.ofNat 32 t.tid, desc := d, named := named } }

/-- Puts a new task on core n. -/
def State.startTask (s : State) (n : Nat) (t : Cand) (num : Nat) (named : Option Nat) : State :=
  let j := s.job t.job
  let s := s.prepPad n t.job (if t.desc.img then j.img else 0) (if t.desc.img then j.imask else 0)
  s.setCore n { (s.core n).noCredit s.frameNow with busy := true, fg := s.firstCtx n t num named }

/-- Takes the lowest index of a cluster's range of a launch. -/
def State.takeIndex (s : State) (job num cl lo : Nat) : State :=
  match s.launch job num with
  | none => s
  | some l =>
    let rs := l.ranges.map (fun (r : Range) => if r.cl = cl ∧ r.lo = lo then { r with lo := r.lo + 1, n := r.n - 1 } else r)
    s.setLaunch { l with ranges := rs.filter (fun r => decide (r.n ≠ 0)) }

/-- Puts a yielded task back on a core of its cluster (R202, R405, R406). -/
def State.backOn (s : State) (n i : Nat) (y : Yielded) : State :=
  let c := y.ctx
  let job := c.ident.job
  let s := if (s.core n).sjob = some job then s else s.wipePad n (BitVec.allOnes 128)
  let s := s.fillImgs n c.jimg (c.jmask &&& ~~~c.dirty)
  let s := s.wipePad n c.dirty
  let b := spadKey n 0
  let s : State := { s with
    mem := memWriteCells s.mem (y.pad.map (fun x => (b + x.1, x.2)))
    poison := y.pz.foldl (fun p k => tset false p (b / 32 + k) true) s.poison
    sch := { s.sch with yielded := dropAt s.sch.yielded i } }
  s.setCore n { s.core n with busy := true, sjob := some job, fg := { c.setX y.rd 1 with dcMark := s.now } }

/-- `TASK_DISPATCH`: the chosen ready task of a cluster starts on the lowest free core of its set. -/
def execTaskDispatch (cl : Nat) (s : State) : Out :=
  .next (match (if s.mgmt.pstate = 2 then none else s.choose cl) with
    | none => s
    | some (t, n) =>
      match t.what with
      | .launch job num lo => (s.takeIndex job num cl lo).startTask n t num none
      | .slot k => (s.setSlot cl k { s.slot cl k with st := .running }).startTask n t 0 (some k)
      | .yielded i =>
        match s.sch.yielded[i]? with
        | some y => s.backOn n i y
        | none => s)

/-! ## The completion tree (R368) -/

/-- The sum of a launch rises by a report; at `count` the launch completes. -/
def State.addReport (s : State) (job num extra : Nat) : State :=
  match s.launch job num with
  | none => s
  | some l =>
    if l.sum + extra = l.desc.count then
      ({ s with sch := { s.sch with launches := s.sch.launches.filter (fun x => decide (¬(x.job = job ∧ x.num = num))) } }).launchDone
        job l.desc
    else s.setLaunch { l with sum := l.sum + extra }

/-- `COMPLETION_REPORT`: a cluster whose ended count has reached its assigned count, with nothing unplaced,
reports the extra; the Hamper of the job's first package sums. -/
def execCompletionReport (cl job num : Nat) (s : State) : Out :=
  .next (match s.launch job num with
    | none => s
    | some l =>
      let e := tget 0 l.ended cl
      let rep := tget 0 l.reported cl
      if e = tget 0 l.assigned cl ∧ rep < e ∧ l.ranges.all (fun r => decide (r.cl ≠ cl)) = true then
        let s := s.setLaunch { l with reported := tset 0 l.reported cl e }
        let p := s.firstPkg job
        if s.isFirst job then s.addReport job num (e - rep)
        else s.tellPkg job p (reportPayload (s.jobid job) num (e - rep) l.desc)
      else s)

/-! ## Timed domains (R369, R370) -/

/-- A domain record, for the job whose slot is given. -/
def domOf (r slot : Nat) : Dom :=
  { num := fld r 7 0, job := slot, kind := fld r 15 8, clm := fld r 31 16, qm := fld r 95 32, rds := fld r 103 96
    wrs := fld r 111 104, nts := fld r 119 112, sms := fld r 127 120 }

/-- The core set of a domain is empty. -/
def Dom.empty (d : Dom) : Bool := if d.kind = 0 then decide (d.clm = 0) else decide (d.qm = 0)

/-- Two domains share a core: checked cluster by cluster, quad by quad. -/
def Dom.meets (a b : Dom) : Bool :=
  (List.range 16).any (fun cl => (List.range 64).any (fun q => a.has (cl * 256 + 4 * q) && b.has (cl * 256 + 4 * q)))

/-- `DOMAIN_DECLARE`: a 64-byte record declares a domain, withdraws it, or is refused. -/
def execDomainDeclare (rcd : List Byte) (s : State) : Out :=
  .next (
    let r := leNat (rcd.take 64)
    match s.slotOf (fld r 159 128) with
    | none => s
    | some slot =>
      let d := domOf r slot
      let old := s.sch.doms.filter (fun x => decide (¬(x.num = d.num ∧ x.job = slot)))
      let tot (f : Dom → Nat) : Nat := f d + (old.map f).sum
      if fld r 511 160 ≠ 0 ∨ 1 < d.kind then s
      else if d.clm = 0 ∧ d.qm = 0 then { s with sch := { s.sch with doms := old } }
      else if (d.kind = 0 ∧ d.qm ≠ 0) ∨ (d.kind = 1 ∧ 16 ≤ d.clm) ∨ d.empty = true ∨ old.any (fun x => x.meets d) = true ∨
          old.any (fun x => decide (x.num = d.num)) = true ∨ 96 < tot (fun x => x.rds) ∨ 32 < tot (fun x => x.wrs) ∨
          8 < tot (fun x => x.nts) ∨ 8 < tot (fun x => x.sms) then s
      else { s with sch := { s.sch with doms := old ++ [d] } })

/-- `SWALLOW_RATE_UPDATE`: at a `ccyc` multiple of 1,050 a new rate is chosen for a domain; it takes effect
from the first run of 16 cycles that starts at or after that instant (R372). -/
def execSwallowRateUpdate (dom sw : Nat) (s : State) : Out :=
  .next (
    if s.ccyc.toNat % 1050 = 0 ∧ sw ≤ 8 then
      let s := s.mapCores (fun _ k =>
        if k.fg.ident.desc.timed ∧ k.fg.ident.desc.tdom = dom ∧ k.fg.stop = none then { k with fg := s.markDc k.fg } else k)
      let t := s.now + s.slew.toNat
      { s with sch := { s.sch with doms := s.sch.doms.map (fun (d : Dom) =>
          if d.num = dom then { d with s0 := d.s, s := sw, fr := (t + 15) / 16 * 16 } else d) } }
    else s)

/-- `RAMP_WINDOW_BOUNDARY`: core n's next window of 1,050 cycles has begun. -/
def execRampWindowBoundary (n : Nat) (s : State) : Out :=
  .next (
    let k := s.core n
    if (k.rampWin + 1) * 1050 ≤ s.ccyc.toNat then
      s.setCore n { k with rampPrev := k.windowEnd, rampCur := 0, rampWin := k.rampWin + 1 }
    else s)

end Sys2Proof.Machine
end

