-- ==== Sys2Proof/Machine/EngStep.lean ====
section
/-! DEFINITION. The steps of the engines: forwarding a word, holding it, starting the head entry, its wait's
end, ring fetching, and completion (R282 to R288, R298, R373, R382, R384, R480). -/

namespace Sys2Proof.Machine

/-! ## Forwarding and holds (R282, R283) -/

/-- The scalar registers that an engine word captures when it is forwarded or fetched: by the fields of its format. -/
def Ctx.scalars (c : Ctx) (i : Instr) (w : Word) : Word × Word × Word :=
  match i with
  | .vldw f => (c.x f.a, c.x f.dl, 0)
  | .vtrd f => (c.x f.a, c.x f.dl, 0)
  | .vaddi f => (c.x f.a, 0, 0)
  | .vlrot f => (c.x f.a, 0, 0)
  | .vslide f => (c.x f.a, 0, 0)
  | .pset f => (c.x f.a, 0, 0)
  | _ =>
    if getClass w = 1 then (c.x (getV w).a, c.x (getV w).b, c.x (getV w).c)
    else if getClass w = 2 then (c.x (getM w).a, c.x (getM w).b, 0)
    else (0, 0, 0)

/-- The entry that a word makes for an engine of core n now. -/
def State.entryOf (s : State) (n : Nat) (e : Eng) (i : Instr) (w : Word) (rest : BitVec 448) : QEntry :=
  let x := (s.fg n).scalars i w
  let q := s.entry n e w rest x.1 x.2.1 x.2.2
  if e = .vx ∨ e = .mt then q else { q with promise := s.promiseOf n e q, missed := true }

/-- A word's engine by its class; a copy packet's by `eng`, none where that engine is in ring mode. -/
def Ctx.wordEngine (c : Ctx) (w : Word) : Option Eng :=
  if getClass w = 1 then (if c.hact || !c.vx.inRing then some .vx else none)
  else if getClass w = 2 then (if c.hact || !c.mt.inRing then some .mt else none)
  else c.engineFor (getC w).eng

/-- `WORD_FORWARD`: the sequencer forwards the VX, MT or CP word at its PC into its engine's queue, or holds
it, or traps (R82, R282 to R284). -/
def execWordForward (w : Word) (rest : BitVec 448) (s : State) : Out :=
  .next (s.onCore w (fun n =>
    let c := s.fg n
    let cls := getClass w
    let len := if cls = 3 then 64 else 8
    match decode64 w rest with
    | none => s.trapHere 0x01 w
    | some i =>
      if cls = 1 ∨ cls = 2 ∨ cls = 3 then
        let unit := if cls = 1 then 1 else if cls = 2 then 2 else if (getC w).eng = 2 then 4 else 3
        match c.wordEngine w with
        | none => (s.takeTrap n 0x0E unit c.pc w).tick 1
        | some e =>
          let any := decide (cls = 3) && decide ((getC w).eng = 0)
          let jam (e : Eng) : Bool := !c.open' e || c.jammed e
          let q := s.entryOf n e i w (if cls = 3 then rest else 0)
          if (if any then jam .ce0 && jam .ce1 else c.jammed e) then (s.takeTrap n 0x06 0 c.pc c.holdReport).tick 1
          else if c.hasRoom e = false then s.holdAt n (if any then .ce0 else e) any q len
          else (s.push n e q).retire len (if cls = 3 then 4 else 1)
      else s.trapHere 0x01 w))

/-- The engine that can take a held word now. -/
def Ctx.holdEngine (c : Ctx) (h : Hold) : Option Eng :=
  if h.any then
    match c.engineFor 0 with
    | some e => if c.hasRoom e then some e else none
    | none => none
  else if c.hasRoom h.eng then some h.eng else none

/-- `FORWARD_HOLD_RELEASE` (R283): the queue has a free entry; the forward then takes its issue cycles (R282). -/
def execForwardHoldRelease (n : Nat) (s : State) : Out :=
  .next (
    let c := s.fg n
    match c.hold with
    | none => s
    | some h =>
      if c.stop.isSome then s
      else
        match c.holdEngine h with
        | none => s
        | some e =>
          let q := { h.entry with dl := c.edl e }
          let q := if h.len = 64 then { q with promise := s.promiseOf n e q, missed := true } else q
          ((s.push n e q).modFg n (fun c => { c with hold := none, pc := h.pc + wOf h.len })).tick (if h.len = 64 then 4 else 1))

/-- `FORWARD_HOLD_TIMEOUT` (R283): D has passed, or the engine is stopped with its queue full. -/
def execForwardHoldTimeout (n : Nat) (s : State) : Out :=
  .next (
    let c := s.fg n
    match c.hold with
    | none => s
    | some h =>
      let jam (e : Eng) : Bool := !c.open' e || c.jammed e
      if c.stop.isSome ∨ (c.holdEngine h).isSome = true then s
      else if h.d.toNat < (s.jtime c.ident.job).toNat ∨ (if h.any then jam .ce0 && jam .ce1 else c.jammed h.eng) = true then
        s.takeTrap n 0x06 0 h.pc c.holdReport
      else s)

/-! ## Ring fetching (R96, R298) -/

/-- Whether started work will still write a scalar that a fetched entry captures: the fetch waits for it (R12;
notes/assumptions/38.md). -/
def Ctx.awaitsScalar (c : Ctx) (i : Instr) : Bool :=
  meets (seqReads i) ((c.inRun.map (fun p => c.live p.ord (pendWrites p))).flatten ++
    (c.vreads.map (fun v => c.live v.entry.ord (engWrites v.instr))).flatten ++ c.baraKeys)

/-- Fetches the ring's next entry where the engine has none: it becomes the head, or fails its check. -/
def State.ringFetch (s : State) (n : Nat) (e : Eng) : State :=
  let c := s.fg n
  let g := c.eng e
  if g.st ≠ .ring ∨ g.q.isEmpty = false ∨ c.hact = true then s
  else
    let k := entrySize e
    let off := g.rOff + g.rIdx * k
    match (if e = .mt then none else s.leasedAt n off k) with
    | some b => s.stopFault n e 0x02 (wOf b)
    | none =>
      if s.spadPoison n off k then s.stopFault n e 0x0A (wOf off)
      else
        let w := wOf (s.spadNum n off 8)
        let rest : BitVec 448 := if k = 64 then BitVec.ofNat 448 (s.spadNum n (off + 8) 56) else 0
        let cls := if e = .vx then 1 else if e = .mt then 2 else 3
        match decode64 w rest with
        | none => s.stopFault n e 0x0E w
        | some i =>
          if getClass w = cls then
            if c.awaitsScalar i then s else
            let q := s.entryOf n e i w rest
            s.modFg n (fun c => { c.setEng e { c.eng e with q := [q] } with ord := c.ord + 1 })
          else s.stopFault n e 0x0E w

/-! ## Starting an entry (R287, R480) -/

/-- The effect of a queued VX or MT word, with its latency and issue interval. -/
def State.effOf (s : State) (n : Nat) (i : Instr) (q : QEntry) : Option (Eff × Nat × Nat) :=
  let vm (f : FmtVM) (kd : VKind) (load : Bool) : Option (Eff × Nat × Nat) := some (vmEff f kd load, s.vmTime n f kd load q.xa)
  match i with
  | .vld f => vm f .unit true
  | .vlds f => vm f .strided true
  | .vldx f => vm f .indexed true
  | .vst f => vm f .unit false
  | .vsts f => vm f .strided false
  | .vstx f => vm f .indexed false
  | .vldw f => some (vldwEff f, 2, 1)
  | .vtrd f => some (vtrdEff f, 2, 1)
  | i =>
    match mtEff i with
    | some eff => some (eff, (s.fg n).mtTime i q.xa q.xb)
    | none => vxPure i

/-- The ceiling of a window of core n: the power state's, that of a hot module, or its die's while the die is
held to its power limit (R477, R478, R479). -/
def State.rampCeil (s : State) (n : Nat) : Nat :=
  let c := if s.mgmt.pstate = 0 ∧ s.mgmt.hot = false then 1050 else 525
  min c (tget 1050 s.mgmt.dieCeil (n / 512))

/-- The conditions of R480 other than the checks, the interlocks and the wait: the unit's issue interval, and the ramp
limiter of a core outside timed domains (notes/assumptions/2.md: where commands complete at once, neither is looked
at). -/
def State.mayStart (s : State) (n : Nat) (e : Eng) : Bool :=
  let k := (s.core n).toWindow s.rampWindow
  let c := k.fg
  s.lockstep ||
    (decide ((c.eng e).gate ≤ s.dcyc c) &&
      (decide (e ≠ .mt) || c.ident.desc.timed || decide (k.rampCur < min (k.rampPrev + 131) (s.rampCeil n))))

/-! ### Bank ports (R217, R264) -/

/-- The bank that a running Mangle command reads (or, for a drain, writes) k cycles from now, but for leased reads. -/
def Pending.portBank (p : Pending) (write : Bool) (cols k : Nat) : Option Nat :=
  if write then ((p.wr[k]?).bind (fun l => l.head?)).map (fun w => w.1 / 2 ^ 15)
  else
    match decode64 p.wWord 0 with
    | some (.mload f) =>
      let j := p.step + k
      if p.work then some ((loadPiece f cols p.wXa p.wXb j).1 / 2 ^ 15) else none
    | _ => none

/-- The cycles that an access of the vector unit to some banks loses before it has had `need` of them. -/
def lostGo (busy : Nat → Bool) : Nat → Nat → Nat → Nat
  | 0, _, _ => 0
  | fuel + 1, k, need =>
    if need = 0 then 0
    else if busy k then 1 + lostGo busy fuel (k + 1) need
    else lostGo busy fuel (k + 1) (need - 1)

/-- The banks that a vector load or store of the own scratchpad uses, and whether it writes. -/
def vmBanks (i : Instr) (q : QEntry) : Option (List Nat × Bool) :=
  let near (a : Word) (k : Nat) : List Nat := if a.toNat < 2 ^ 19 then banksOf a.toNat k else []
  match i with
  | .vld _ => some (near q.xa 128, false)
  | .vst _ => some (near q.xa 128, true)
  | _ => none

/-- The cycles lost at the bank ports by a vector access that starts now: the Mangle's pieces come first
(notes/assumptions/63.md). -/
def State.portLost (s : State) (n : Nat) (i : Instr) (q : QEntry) : Nat :=
  if s.lockstep then 0
  else
    match vmBanks i q with
    | none => 0
    | some (bs, wr) =>
      let c := s.fg n
      let busy (k : Nat) : Bool := c.mt.run.any (fun p =>
        match p.portBank wr ((c.shape p.dst).getD (0, 0)).2 k with
        | some b => bs.contains b
        | none => false)
      lostGo busy 256 0 2

/-- The cycle in which a command of the Mangle starts is the first of its reads and writes. -/
def State.firstCycle (s : State) (n : Nat) : State :=
  if s.lockstep then s
  else
    match (s.fg n).mt.run.getLast? with
    | none => s
    | some p =>
      let r := s.workCycle n p
      r.1.modFg n (fun c => { c with mt := { c.mt with run := c.mt.run.dropLast ++ [r.2] } })

/-- The head of VX or MT is tried: it fails a start check, its wait begins or ends, or it starts (R287, R480). -/
def State.moveUnit (s : State) (n : Nat) (e : Eng) : State :=
  match (s.fg n).copyHead e with
  | none => s
  | some (lane, q) =>
    if (s.fg n).copyMoves e lane q = false then s
    else if q.expired (s.jtime (s.fg n).ident.job) then s.expireHead n e lane
    else
      match q.instr with
      | none => s.stopFault n e 0x0E q.word
      | some i =>
        match s.effOf n i q with
        | none => s.stopFault n e 0x0E q.word
        | some (eff, lat, gap) =>
          match s.tryEntry n (((s.fg n).eng e).ringMark q s.now) i eff with
          | .fault cause val => s.stopFault n e cause val
          | .run s' p =>
            if s.mayStart n e then
              let s' := s'.modFg n (fun c => c.setEng e ((c.eng e).popHead lane))
              let p := { p with uses := s.banksUsed n q }
              let s' := (s'.started n e i p (lat + s.portLost n i q) gap).settleRead n (q.ord + 1)
              if e = .mt then s'.firstCycle n else s'
            else s
          | .wait =>
            if s.mayStart n e && q.wt0.isNone then
              s.putHead n e lane { q with wt0 := some (s.jtime (s.fg n).ident.job) }
            else s
          | _ => s

/-- The head of an engine of core n is tried, where it has not started. -/
def State.startHead (s : State) (n : Nat) (e : Eng) : State :=
  let s := s.ringFetch n e
  match e with
  | .vx => s.moveUnit n .vx
  | .mt => s.moveUnit n .mt
  | .ce0 => s.startCopy n .ce0
  | .ce1 => s.startCopy n .ce1

/-- Whether core n's engines may move: a step names its own unit, and no other starts anything (R445). -/
def State.engMoves (s : State) (n : Nat) : Bool :=
  (s.core n).busy && (s.fg n).stop.isNone && (s.core n).stepping.isNone

/-- `ENGINE_ENTRY_START` (R287): the head of an engine is tried: it starts, or it fails a start check, or its wait
begins or ends; a started copy packet goes on.  Numbers from 4,096 are the Hamper's copy engines (R356). -/
def execEngineEntryStart (n : Nat) (e : Eng) (s : State) : Out :=
  .next (
    if 4096 ≤ n then s.runHcopy (n - 4096)
    else if s.engMoves n = false then s
    else
      match (s.fg n).copyHead e with
      | some (_, q) => if q.started then s.workCopy n e else s.startHead n e
      | none => s.startHead n e)

/-- `ENGINE_WAIT_TIMEOUT` (R288): the head's wait has passed D; the entry stays at the head. -/
def execEngineWaitTimeout (n : Nat) (e : Eng) (s : State) : Out :=
  .next (
    let c := s.fg n
    match c.copyHead e with
    | some (lane, q) =>
      if c.stop.isNone ∧ c.copyMoves e lane q = true ∧ q.expired (s.jtime c.ident.job) = true then s.expireHead n e lane else s
    | none => s)

/-! ## Completion (R81, R382) -/

/-- The first of the commands that are ready at `dcyc` c, by readiness. -/
def firstReady (l : List Pending) (c : Nat) : Option Pending :=
  (l.filter (fun p => decide (p.ready ≤ c))).foldl (fun a p =>
    match a with
    | none => some p
    | some x => if p.ready < x.ready then some p else some x) none

/-- `ENGINE_COMMAND_COMPLETE` (R81): a command of the vector unit or the Mangle is ready. -/
def execEngineCommandComplete (n : Nat) (e : Eng) (s : State) : Out :=
  .next (
    let c := s.fg n
    if c.stop.isSome then s
    else
      match firstReady (c.eng e).run (s.dcyc c) with
      | none => s
      | some p =>
        ((s.modFg n (fun c => c.setEng e { c.eng e with run := (c.eng e).run.erase p })).complete n e p).settle n e)

/-- `IN_FLIGHT_REINJECT` (R382): a captured command lands its result and signals after its remaining delay. -/
def execInFlightReinject (n : Nat) (s : State) : Out :=
  .next (
    let c := s.fg n
    if c.stop.isSome then s
    else
      match firstReady c.inflight (s.dcyc c) with
      | none => s
      | some p =>
        let t := s.setFg n { c with inflight := c.inflight.erase p }
        if c.regs.pois.contains (5, p.ord) then t.stopFault n p.eng 0x0A (wOf (2 ^ 63 + 5))
        else (t.complete n p.eng p).settle n p.eng)

end Sys2Proof.Machine
end

