-- ==== Sys2Proof/Machine/Image.lean ====
section
/-! DEFINITION. The context image: line coding, the register section, and what a filled bank holds
(R410 to R414). -/

namespace Sys2Proof.Machine

/-! ## Line coding (R411) -/

/-- The first n lines of 64 bytes of a byte string. -/
def linesOf : Nat → List Byte → List (List Byte)
  | 0, _ => []
  | k + 1, bs => bs.take 64 :: linesOf k (bs.drop 64)

def zeroLine : List Byte := List.replicate 64 0

/-- Sixteen equal 4-byte words. -/
def sameWords (l : List Byte) : Bool := (List.range 16).all (fun i => (l.drop (4 * i)).take 4 == l.take 4)

/-- The first code of the table that fits a line, after the previous line of the section. -/
def lineCode (prev : Option (List Byte)) (l : List Byte) : Nat :=
  if l = zeroLine then 0 else if prev = some l then 3 else if sameWords l then 1 else 2

def linePay (code : Nat) (l : List Byte) : List Byte := if code = 1 then l.take 4 else if code = 2 then l else []

/-- The codes and payloads of lines that follow `prev`. -/
def encLines : Option (List Byte) → List (List Byte) → List Nat × List Byte
  | _, [] => ([], [])
  | prev, l :: r =>
    let c := lineCode prev l
    let x := encLines (some l) r
    (c :: x.1, linePay c l ++ x.2)

/-- Pads a byte string with zeros to a multiple of 64. -/
def pad64 (bs : List Byte) : List Byte := bs ++ List.replicate ((64 - bs.length % 64) % 64) 0

/-- Four codes to a byte, the first in the lowest bits. -/
def packCodes : List Nat → List Byte
  | a :: b :: c :: d :: r => BitVec.ofNat 8 (a + 4 * b + 16 * c + 64 * d) :: packCodes r
  | [a, b, c] => [BitVec.ofNat 8 (a + 4 * b + 16 * c)]
  | [a, b] => [BitVec.ofNat 8 (a + 4 * b)]
  | [a] => [BitVec.ofNat 8 a]
  | [] => []

/-- A coded section. -/
def codedSection (ls : List (List Byte)) : List Byte :=
  let x := encLines none ls
  pad64 (packCodes x.1) ++ pad64 x.2

def codeAt (codes : List Byte) (i : Nat) : Nat := (codes.getD (i / 4) 0).toNat / 4 ^ (i % 4) % 4

/-- Decodes k lines from line i of a section on: the lines, and the payload that is left; none where a line
repeats a previous line that is not there, or the payload ends. -/
def decLines (codes : List Byte) : Nat → Nat → Option (List Byte) → List Byte → Option (List (List Byte) × List Byte)
  | 0, _, _, pay => some ([], pay)
  | k + 1, i, prev, pay =>
    let go (l rest : List Byte) : Option (List (List Byte) × List Byte) :=
      (decLines codes k (i + 1) (some l) rest).map (fun x => (l :: x.1, x.2))
    match codeAt codes i with
    | 0 => go zeroLine pay
    | 1 => if pay.length < 4 then none else go ((List.replicate 16 (pay.take 4)).flatten) (pay.drop 4)
    | 2 => if pay.length < 64 then none else go (pay.take 64) (pay.drop 64)
    | _ =>
      match prev with
      | some l => go l pay
      | none => none

def pad64Nat (n : Nat) : Nat := (n + 63) / 64 * 64

/-- The lines of a section of n lines at the start of a byte string, and how many bytes it takes. -/
def readSection (n : Nat) (bs : List Byte) : Option (List (List Byte) × Nat) :=
  let c := pad64Nat ((n + 3) / 4)
  if bs.length < c then none
  else
    match decLines bs n 0 none (bs.drop c) with
    | some (ls, rest) =>
      let used := pad64Nat (bs.length - rest.length - c) + c
      if used ≤ bs.length then some (ls, used) else none
    | none => none

/-! ## The register section (R412, R413) -/

def leWords (k : Nat) (f : Nat → Nat) (n : Nat) : List Byte := ((List.range n).map (fun i => leBytes k (f i))).flatten

/-- A product-table binding as the control block holds it. -/
def bindWord (b : Option (Nat × Nat × Nat × Nat)) : Nat :=
  match b with
  | none => 0
  | some (ta, ca, tb, cb) =>
    2 ^ 16 + boolNat (decide (ta = 8)) * 2 ^ 17 + boolNat (decide (tb = 8)) * 2 ^ 18 + ca % 16 * 2 ^ 20 +
      cb % 16 * 2 ^ 24

/-- The control block of 56 doublewords. -/
def Ctx.control (c : Ctx) : List Nat :=
  [c.pc.toNat, c.csr.vfmode.toNat, c.csr.vflags.toNat, c.csr.tvec.toNat, c.csr.tcause.toNat, c.csr.tepc.toNat,
    c.csr.tval.toNat, c.csr.dlesc.toNat, c.csr.sdl.toNat, c.csr.srseed.toNat] ++
  (List.range 8).map (fun i => (tget 0 c.regs.tcfg i).toNat) ++
  (List.range 16).map (fun i => (tget 0 c.csr.bfmt i).toNat) ++
  (List.range 4).map (fun i => (tget 0 c.csr.edl i).toNat) ++
  [c.csr.sbud.toNat, c.dcSave, boolNat c.hact + c.tvp % 256 * 2 ^ 8 + bindWord c.regs.bind,
    c.dirty.toNat % 2 ^ 64, c.dirty.toNat / 2 ^ 64, c.ihome.toNat, c.gsz.toNat, c.jimg.toNat,
    c.jmask.toNat % 2 ^ 64, c.jmask.toNat / 2 ^ 64]

/-- Words of a queue: its first n entries' words, zeros past them. -/
def queueWords (q : List QEntry) (n : Nat) : List Byte := leWords 8 (fun i => ((q[i]?).map (fun (x : QEntry) => x.word.toNat)).getD 0) n

def QEntry.packetNat (q : QEntry) : Nat := q.word.toNat + q.rest.toNat * 2 ^ 64

def queuePackets (q : List QEntry) (n : Nat) : List Byte := leWords 64 (fun i => ((q[i]?).map QEntry.packetNat).getD 0) n

/-- The 64 bytes of an engine record. -/
def Engine.recBytes (g : Engine) (copy : Bool) : List Byte :=
  let done := if copy then ((g.q.head?).map (fun (x : QEntry) => if x.started then x.piece else 0)).getD 0 else 0
  leBytes 4 g.seq.toNat ++ leBytes 1 g.q.length ++ leBytes 1 g.stateCode ++
  leBytes 1 (boolNat g.ev + 2 * boolNat g.r + 4 * boolNat g.missed.isSome) ++ leBytes 1 g.code ++ [g.cause] ++
  leBytes 3 0 ++ leBytes 4 g.rOff ++ leBytes 2 g.rCnt ++ leBytes 2 g.rIdx ++
  leBytes 4 (if copy then g.wcnt.toNat else 0) ++ leBytes 4 done ++ leBytes 4 0 ++ leBytes 8 0 ++ leBytes 24 0

/-- The cycles of a continued `MMA` before its first step: those of its scales (R172). -/
def Pending.lead (p : Pending) : Nat := (p.mma.map MmaOp.lead).getD 0

/-- The 192 bytes of an in-flight entry.  Of a continuation, `d` is the time to the scheduled read of its next step and
`dr` that to the tile's readiness (R381). -/
def Pending.bytes (p : Pending) : List Byte :=
  leBytes 128 p.val.toNat ++ leBytes 1 p.kind ++ leBytes 1 p.dst ++ leBytes 1 p.sig.toNat ++ leBytes 1 p.r2 ++
  (if p.kind = 5 then leBytes 4 (p.lead + p.step - p.pos) ++ leBytes 4 p.ready else leBytes 4 p.ready ++ leBytes 4 0) ++
  leBytes 4 p.lease ++ leBytes 4 (if p.kind = 5 then p.step else 0) ++ leBytes 8 p.v2.toNat ++ leBytes 36 0

def Ctx.trapFields (c : Ctx) : List Nat := (List.range 11).map (fun i => (c.rcd.field i).toNat)

/-- The 388 lines of a context's register section, as one byte string (R412). -/
def Ctx.regBytes (c : Ctx) : List Byte :=
  leWords 8 (fun i => (c.x (BitVec.ofNat 5 i)).toNat) 32 ++
  leWords 128 (fun i => (c.v (BitVec.ofNat 5 i)).toNat) 32 ++
  leWords 16 (fun i => (c.p i).toNat) 8 ++
  leWords 8 (fun i => (c.control).getD i 0) 56 ++
  leWords 2 (fun i => if i = 0 then 0 else (c.semOf i).toNat) 256 ++
  leWords 32 (fun i => (c.spool i).viewNat) 16 ++
  leWords 8 (fun i => (tget 0 c.tag i).toNat) 256 ++
  leWords 8 (fun i => (tget 0 c.win i).toNat) 64 ++
  leWords 2 (fun i => (tget 0 c.regs.cb i).toNat) 256 ++
  leWords 8 (fun i => (c.trapFields).getD i 0) 16 ++
  queueWords c.vx.q 16 ++ queueWords c.mt.q 16 ++ queuePackets c.ce0.q 16 ++ queuePackets c.ce1.q 16 ++
  queueWords c.vx.lane 4 ++ queueWords c.mt.lane 4 ++ queuePackets c.ce0.lane 4 ++ queuePackets c.ce1.lane 4 ++
  c.vx.recBytes false ++ c.mt.recBytes false ++ c.ce0.recBytes true ++ c.ce1.recBytes true ++
  leWords 8 (fun i => ((c.ce0.q[i]?).map (fun (x : QEntry) => x.promise.toNat)).getD 0) 16 ++
  leWords 8 (fun i => ((c.ce1.q[i]?).map (fun (x : QEntry) => x.promise.toNat)).getD 0) 16 ++
  ((List.range 64).map (fun i => match c.inflight[i]? with
    | some p => p.bytes
    | none => List.replicate 192 0)).flatten

/-! ## Reading a register section -/

/-- A table of n entries read from a byte string; `f` gives entry i. -/
def tblFrom {α : Type} [DecidableEq α] (d : α) (n : Nat) (f : Nat → α) : Tbl α :=
  (List.range n).foldl (fun t i => tset d t i (f i)) []

/-- Bytes [off, off + k) of a string as a number. -/
def numAt (bs : List Byte) (off k : Nat) : Nat := leNat ((bs.drop off).take k)

/-- A spool descriptor from its 32 bytes (R300). -/
def spoolOf (v : Nat) : Spool :=
  if v.testBit 63 then
    { cfg := true, ssz := fld v 55 48, nsl := fld v 47 40, base := fld v 18 0, hd := fld v 71 64, tl := fld v 79 72
      cnt := fld v 87 80, prs := fld v 95 88, tok := BitVec.ofNat 64 (v / 2 ^ 192) }
  else {}

/-- A queue of n entries from an image: what the image does not hold of an entry comes from the entry that
was saved, where it is the same one; else its scalars are the restored registers'
(notes/assumptions/31.md). -/
def queueOf (old : List QEntry) (n : Nat) (word : Nat → Nat) (k : Nat) (c : Ctx) : List QEntry :=
  (List.range n).map (fun i =>
    let w := wOf (word i)
    let r : BitVec 448 := if k = 64 then BitVec.ofNat 448 (word i / 2 ^ 64) else 0
    match (old[i]?).filter (fun q => decide (q.word = w ∧ q.rest = r)) with
    | some q => q
    | none =>
      { word := w, rest := r, xa := c.x (BitVec.ofNat 5 (fld w.toNat 25 21)), xb := c.x (BitVec.ofNat 5 (fld w.toNat 30 26))
        xc := c.x (BitVec.ofNat 5 (fld w.toNat 35 31)), vfm := c.csr.vfmode, missed := true })

/-- The state of R113 from its code. -/
def engStOf : Nat → EngState
  | 0 => .idle
  | 1 => .running
  | 2 => .stopped
  | _ => .ring

/-- The promises of a copy engine's queue from the image; whether each is watched is not in it (R412, R328). -/
def promisesOf (b : List Byte) (off : Nat) (q : List QEntry) : List QEntry :=
  q.zipIdx.map (fun x => { x.1 with promise := wOf (numAt b (off + 8 * x.2) 8) })

/-- The missed promise that is pending, from bit 2 of a record's `fl`; where nothing else holds its value, the head's
promise (R379, R413). -/
def missedOf (old : Option Word) (pending : Bool) (q : List QEntry) : Option Word :=
  if pending then some (old.getD (((q.head?).map (fun (x : QEntry) => x.promise)).getD 0)) else none

/-- An engine from its record. -/
def engineOf (old : Engine) (r : List Byte) (q lane : List QEntry) : Engine :=
  { old with
    q := q, lane := lane, run := [], seq := BitVec.ofNat 32 (numAt r 0 4), st := engStOf (numAt r 5 1 % 4)
    ev := (numAt r 6 1).testBit 0, r := (numAt r 6 1).testBit 1, code := numAt r 7 1, cause := BitVec.ofNat 8 (numAt r 8 1)
    missed := missedOf old.missed ((numAt r 6 1).testBit 2) q
    rOff := numAt r 12 4, rCnt := numAt r 16 2, rIdx := numAt r 18 2, wcnt := BitVec.ofNat 32 (numAt r 20 4) }

/-- The progress of a copy engine's head (R414). -/
def headPieces (r : List Byte) : List QEntry → List QEntry
  | [] => []
  | q :: l =>
    let done := numAt r 24 4
    (if done ≠ 0 ∧ ¬(q.started = true ∧ q.piece = done) then { q with started := true, piece := done, sub := 0 } else q) :: l

/-- An in-flight entry from its 192 bytes; its place in program order from the entry that was saved. -/
def pendingOf (old : Option Pending) (b : List Byte) : Pending :=
  let k := numAt b 128 1
  let p : Pending := old.getD { eng := if k = 4 ∨ k = 5 then .mt else .vx, kind := 0 }
  let p := { p with
    kind := k, dst := numAt b 129 1, val := BitVec.ofNat 1024 (numAt b 0 128), r2 := numAt b 131 1
    v2 := wOf (numAt b 148 8), sig := BitVec.ofNat 8 (numAt b 130 1), lease := numAt b 140 4
    ready := numAt b (if k = 5 then 136 else 132) 4 }
  match (if k = 5 then p.mma else none) with
  | some o =>
    let st := numAt b 144 4
    { p with step := st, pos := o.lead + st - numAt b 132 4, work := decide (st < o.steps), banks := o.banks }
  | none => p

/-- A binding from the control block. -/
def bindOf (w : Nat) : Option (Nat × Nat × Nat × Nat) :=
  if w.testBit 16 then
    some (if w.testBit 17 then 8 else 7, fld w 23 20, if w.testBit 18 then 8 else 7, fld w 27 24)
  else none

/-- A context from a register section, over what the image does not hold (R408, R412). -/
def ctxOf (old : Ctx) (b : List Byte) : Ctx :=
  let dw (i : Nat) : Nat := numAt b (4480 + 8 * i) 8
  let f40 := dw 40
  let c : Ctx := { old with
    pc := wOf (dw 0)
    regs := { old.regs with
      x := tset 0 (tblFrom 0 32 (fun i => wOf (numAt b (8 * i) 8))) 0 0
      v := tblFrom 0 32 (fun i => BitVec.ofNat 1024 (numAt b (256 + 128 * i) 128))
      p := tblFrom 0 8 (fun i => BitVec.ofNat 128 (numAt b (4352 + 16 * i) 16))
      tcfg := tblFrom 0 8 (fun i => wOf (dw (10 + i)))
      cb := tblFrom 0 256 (fun i => BitVec.ofNat 16 (numAt b (8512 + 2 * i) 2))
      bind := bindOf f40 }
    csr := { vfmode := wOf (dw 1), vflags := wOf (dw 2), tvec := wOf (dw 3), tcause := wOf (dw 4), tepc := wOf (dw 5)
             tval := wOf (dw 6), dlesc := wOf (dw 7), sdl := wOf (dw 8), srseed := wOf (dw 9)
             bfmt := tblFrom 0 16 (fun i => wOf (dw (18 + i))), edl := tblFrom 0 4 (fun i => wOf (dw (34 + i)))
             sbud := wOf (dw 38) }
    sem := tset 0 (tblFrom 0 256 (fun i => BitVec.ofNat 16 (numAt b (4928 + 2 * i) 2))) 0 0
    sl := (tblFrom {} 16 (fun i =>
      let p := spoolOf (numAt b (5440 + 32 * i) 32)
      { p with early := (old.spool i).early }))
    tag := tblFrom 0 256 (fun i => wOf (numAt b (5952 + 8 * i) 8))
    win := tblFrom 0 64 (fun i => wOf (numAt b (8000 + 8 * i) 8))
    rcd := { cpc := wOf (numAt b 9024 8), cvx := wOf (numAt b 9032 8), cmt := wOf (numAt b 9040 8), cce0 := wOf (numAt b 9048 8)
             cce1 := wOf (numAt b 9056 8), cw := wOf (numAt b 9064 8), cval := wOf (numAt b 9072 8), cjt := wOf (numAt b 9080 8)
             cdc := wOf (numAt b 9088 8), cifq := wOf (numAt b 9096 8), cerr := wOf (numAt b 9104 8) }
    hact := f40.testBit 0
    tvp := fld f40 15 8
    dcSave := dw 39
    dirty := BitVec.ofNat 128 (dw 41 + dw 42 * 2 ^ 64)
    gsz := wOf (dw 44)
    jimg := wOf (dw 45)
    jmask := BitVec.ofNat 128 (dw 46 + dw 47 * 2 ^ 64)
    tdirty := 0
    stop := some .preempt }
  let r (i : Nat) : List Byte := (b.drop (12032 + 64 * i)).take 64
  let n (i : Nat) : Nat := numAt (r i) 4 1
  let lanes (off sz : Nat) : Nat := ((List.range 4).filter (fun i => numAt b (off + sz * i) 8 ≠ 0)).length
  let q (old : List QEntry) (n off sz : Nat) : List QEntry := queueOf old n (fun i => numAt b (off + sz * i) sz) sz c
  { c with
    vx := engineOf old.vx (r 0) (q old.vx.q (n 0) 9152 8) (q old.vx.lane (lanes 11456 8) 11456 8)
    mt := engineOf old.mt (r 1) (q old.mt.q (n 1) 9280 8) (q old.mt.lane (lanes 11488 8) 11488 8)
    ce0 := engineOf old.ce0 (r 2) (headPieces (r 2) (promisesOf b 12288 (q old.ce0.q (n 2) 9408 64))) (q old.ce0.lane (lanes 11520 64) 11520 64)
    ce1 := engineOf old.ce1 (r 3) (headPieces (r 3) (promisesOf b 12416 (q old.ce1.q (n 3) 10432 64))) (q old.ce1.lane (lanes 11776 64) 11776 64)
    inflight := ((List.range 64).filter (fun i => numAt b (12544 + 192 * i + 128) 28 ≠ 0)).map (fun i =>
      pendingOf (old.inflight[i]?) ((b.drop (12544 + 192 * i)).take 192)) }

/-! ## Tiles (R26, R410) -/

/-- The 8,192 bytes of a tile. -/
def Ctx.tileBytes (c : Ctx) (t : Nat) : List Byte := leWords 4 (fun i => c.tileAt t (i / 32) (i % 32)) 2048

def tilesOf (mask : Nat) (tile : Nat → List Byte) : Tbl (BitVec 32) :=
  ((List.range 8).filter (fun t => mask.testBit t)).foldl (fun m t =>
    (List.range 2048).foldl (fun m i => tset 0 m (2048 * t + i) (BitVec.ofNat 32 (numAt (tile t) (4 * i) 4))) m) []

/-- The configured tiles, as a mask. -/
def Ctx.tmask (c : Ctx) : Nat :=
  (List.range 8).foldl (fun m t => if (c.shape t).isSome then m + 2 ^ t else m) 0

end Sys2Proof.Machine
end

