-- ==== Sys2Proof/Machine/Preempt.lean ====
section
/-! DEFINITION. Pre-emption: the banks of a core and their exchange, the loading and saving of contexts, the
stop instant of a job and its gang slices (R400 to R416). -/

namespace Sys2Proof.Machine

/-! ## The Darner's accesses (R405, R407) -/

def midDarner (n : Nat) : Nat := 4 * 2 ^ 13 + n / 256

/-- A place for an image: a multiple of 64 in the HBM or second tier of this package. -/
def State.imgPlace (s : State) (a : Word) : Bool :=
  decide (a.toNat % 64 = 0 ∧ a.toNat / 2 ^ 45 = s.pkgid) &&
    (decide (memKind (a.toNat % 2 ^ 45) = .hbm) || decide (memKind (a.toNat % 2 ^ 45) = .cxl))

/-- Where the granule section of an image stands, and the sections of other offsets. -/
def imgAt (home : Word) (off : Nat) : Nat := home.toNat % 2 ^ 45 + off
def granOff : Nat := 0x10040

def bitCount (m : BitVec 128) : Nat := ((List.range 128).filter (fun g => m.getLsbD g)).length

/-! ## The scratchpad exchange (R405) -/

/-- The exchange under way: granules spilled, the last line coded and the next payload offset, and the same for
the fill; the last failure of a spill. -/
structure Exch where
  s : State
  oi : Nat := 0
  op : Option (List Byte) := none
  ob : Nat := 0
  ii : Nat := 0
  ip : Option (List Byte) := none
  ib : Nat := 0
  bad : Option Nat := none

/-- Codes and payload of lines with their poison: a poisoned line is coded whole, and its payload's offsets are
listed (notes/assumptions/32.md). -/
def encPois : Option (List Byte) → Nat → List (List Byte × Bool) → List Nat × List Byte × List Nat × Option (List Byte)
  | prev, _, [] => ([], [], [], prev)
  | prev, off, (l, pz) :: r =>
    let c := if pz then 2 else lineCode prev l
    let p := linePay c l
    let x := encPois (if pz then none else some l) (off + p.length) r
    (c :: x.1, p ++ x.2.1, (if pz then [off, off + 32] else []) ++ x.2.2.1, x.2.2.2)

/-- Appends granule g of the outgoing context to its section at address a. -/
def Exch.spill (x : Exch) (n a g : Nat) : Exch :=
  let s := x.s
  match s.refuses (midDarner n) a 64 .w with
  | some c => { x with bad := some c }
  | none =>
    let ls := (linesOf 64 (s.spadRead n (4096 * g) 4096)).zipIdx.map (fun l => (l.1, s.spadPoison n (4096 * g + 64 * l.2) 64))
    let e := encPois x.op 0 ls
    let s := (s.putBytes (a + 16 * x.oi) (packCodes e.1)).putBytes (a + x.ob) e.2.1
    { x with s := s.mark (e.2.2.1.map (fun o => a + x.ob + o)), oi := x.oi + 1, op := e.2.2.2, ob := x.ob + e.2.1.length }

/-- A granule that could not be filled. -/
def Exch.fillBad (x : Exch) (n g cause : Nat) : Exch :=
  { x with s := (x.s.mark ((List.range 128).map (fun j => spadKey n (4096 * g + 32 * j)))).event (wOf cause) 0 0 [] }

/-- Fills granule g of the incoming context from its section at address a. -/
def Exch.fill (x : Exch) (n a g : Nat) : Exch :=
  let s := x.s
  let x1 := { x with ii := x.ii + 1 }
  match s.refuses (midDarner n) a 64 .r with
  | some c => x1.fillBad n g c
  | none =>
    match decLines (s.bytes (a + 16 * x.ii) 16) 64 0 x.ip (s.bytes (a + x.ib) 4096) with
    | none => x1.fillBad n g 0x0A
    | some (ls, rest) =>
      let used := 4096 - rest.length
      let x2 := { x1 with ip := ls.getLast?, ib := x.ib + used }
      if (firstPoison s.poison (a + 16 * x.ii) 16).isSome ∨ (firstPoison s.poison (a + x.ib) used).isSome = true then
        x2.fillBad n g 0x0A
      else { x2 with s := s.putBytes (spadKey n (4096 * g)) ls.flatten }

/-- One granule of the loop of R405. -/
def Exch.granule (n : Nat) (out inc : Option Ctx) (sjob : Option Nat) (x : Exch) (g : Nat) : Exch :=
  let x := match out with
    | some o => if o.dirty.getLsbD g then x.spill n (imgAt o.ihome granOff) g else x
    | none => x
  match inc with
  | none => x
  | some i =>
    if i.dirty.getLsbD g then x.fill n (imgAt i.ihome granOff) g
    else if i.jmask.getLsbD g then { x with s := x.s.fillImg n i.jimg g }
    else if some i.ident.job ≠ sjob then { x with s := x.s.wipePad n (1#128 <<< g) }
    else x

/-- The incoming and the outgoing context of an exchange under way. -/
def Core.incoming (k : Core) : Option Ctx := if k.busy then some k.fg else none

/-- Whether a frozen context may run when its job does: it awaits no decision of containment. -/
def Ctx.resumable (c : Ctx) : Bool := decide (c.stop = some .preempt) || decide (c.stop = some .haltWave)

/-- A context that resumes after a halt wave (R447): it continues past the `EBREAK` at its cut, and where its
fault, decided as a halt, was an engine's, that engine's trap is pending again (notes/assumptions/33.md). -/
def Ctx.afterHalt (c : Ctx) : Ctx :=
  let cw := c.rcd.cw
  let u := wfld cw 15 8
  let c1 := if cw.getLsbD 20 then
      { c with pc := c.pc + wOf c.bpkLen, rcd := { c.rcd with cw := cw &&& ~~~(1#64 <<< 20) } }
    else c
  if c.stop = some .haltWave ∧ 6 ≤ wfld cw 18 16 ∧ cw.getLsbD 19 = false ∧ 1 ≤ u ∧ u ≤ 4 ∧
      (c.eng (engOf (u - 1))).st = .stopped ∧ (c.eng (engOf (u - 1))).code = 7 then
    c1.setEng (engOf (u - 1)) { c.eng (engOf (u - 1)) with trap := some (BitVec.ofNat 8 (wfld cw 7 0), c.rcd.cval) }
  else c1

/-- Resumes the foreground context of core n where its job runs and nothing else holds it. -/
def State.resumeFg (s : State) (n : Nat) : State :=
  let k := s.core n
  if k.busy && k.fg.resumable && k.exch.isNone && decide (s.rs k.fg.ident.job = 0) then s.setFg n (s.thawCtx k.fg.afterHalt) else s

/-! ## Gang reports (R415, R416) -/

/-- The number of a package among those of a job. -/
def pkgKey (p : Nat × Nat) : Nat := p.1 * 2048 + p.2

/-- Every core that holds a context of the job has resumed it. -/
def State.allResumed (s : State) (slot : Nat) : Bool :=
  s.cores.all (fun c =>
    let k := c.2
    (!(k.busy && decide (k.fg.ident.job = slot)) || (decide (k.fg.stop ≠ some .preempt) && k.exch.isNone)) &&
      (match k.sh with
        | some x => decide (x.ident.job ≠ slot)
        | none => true))

/-- A control payload of a job: a tag, the `jobid`, and two words. -/
def jobPayload (tag jid : Nat) (a b : Word) : List Byte := [BitVec.ofNat 8 tag] ++ leBytes 4 jid ++ leBytes 8 a.toNat ++ leBytes 8 b.toNat

/-- Sends a control payload to the job's first package. -/
def State.tellFirst (s : State) (slot : Nat) (payload : List Byte) : State :=
  s.tellPkg slot (s.firstPkg slot) payload

/-- A package's gang report reaches the job's first package. -/
def State.gangReport (s : State) (slot key : Nat) : State :=
  let j := s.job slot
  let l := j.late.erase key
  s.setJob slot { j with late := l, gang := if l.isEmpty then none else j.gang }

/-- The package reports once the contexts of a job that was given a gang slice have resumed. -/
def State.gangCheck (s : State) (slot : Nat) : State :=
  let j := s.job slot
  if j.gang.isSome ∧ s.rs slot = 0 ∧ s.allResumed slot = true then
    if s.isFirst slot then s.gangReport slot (pkgKey (s.podid.toNat, s.pkgid))
    else (s.setJob slot { j with gang := none }).tellFirst slot
      (jobPayload 9 (s.jobid slot) (wOf (pkgKey (s.podid.toNat, s.pkgid))) 0)
  else s

/-- Ends the exchange of core n that is under way: the scratchpad, `gsz`, `sjob`, and the resume (R404, R405). -/
def State.finishExch (s : State) (n : Nat) : State :=
  let k := s.core n
  if k.exch.isNone then s
  else
    let out := k.sh
    let inc := k.incoming
    let oc := (out.map (fun (o : Ctx) => pad64Nat (16 * bitCount o.dirty))).getD 0
    let s1 := match out with
      | some o => if (s.refuses (midDarner n) (imgAt o.ihome granOff) 64 .w).isNone then
          s.putBytes (imgAt o.ihome granOff) (List.replicate oc 0) else s
      | none => s
    let x := (List.range 128).foldl (Exch.granule n out inc k.sjob)
      { s := s1, ob := oc, ib := (inc.map (fun (i : Ctx) => pad64Nat (16 * bitCount i.dirty))).getD 0 }
    let s2 := match out, x.bad with
      | some o, none => x.s.putBytes (imgAt o.ihome granOff + x.ob) (List.replicate (pad64Nat x.ob - x.ob) 0)
      | _, some c => x.s.event (wOf c) 0 0 []
      | none, none => x.s
    let sh := out.map (fun (o : Ctx) => { o with gsz := wOf (pad64Nat x.ob), imgBad := x.bad.isSome })
    let sj := match inc with
      | some i => some i.ident.job
      | none => k.sjob
    let s3 := (s2.setCore n { s2.core n with sh := sh, exch := none, sjob := sj }).resumeFg n
    match inc with
    | some i => s3.gangCheck i.ident.job
    | none => s3

/-- `CONTEXT_EXCHANGE_COMPLETE`: at the earliest 48 cycles after the acceptance. -/
def execContextExchangeComplete (n : Nat) (s : State) : Out :=
  .next (match (s.core n).exch with
    | some t => if t + 48 ≤ s.now then s.finishExch n else s
    | none => s)

/-! ## CTXSWAP (R404) -/

/-- Traffic of the foreground context that is not performed: writes, tiles and signals on their way to the core,
its own stores, and copy pieces in flight. -/
def State.trafficAt (s : State) (n : Nat) : Bool :=
  let k := s.core n
  s.cores.any (fun c => c.2.posted.any (fun p => decide (p.pkg = s.pkgid ∧ p.tgt = n))) || !k.tiles.isEmpty ||
    s.sch.sigIn.any (fun g => decide (g.unit = n)) || k.sq.any (fun e => !e.marker) || !k.farw.isEmpty ||
    (k.fg.ce0.q ++ k.fg.ce0.lane ++ k.fg.ce1.q ++ k.fg.ce1.lane).any (fun q => decide (q.outst ≠ 0))

/-- The code of a `CTXSWAP` on core t by core n. -/
def State.swapCode (s : State) (n t : Nat) (xb : Word) : Nat :=
  let k := s.core t
  if k.shSt = .loading ∨ k.shSt = .saving then 1
  else if t = n ∨ k.retired = true then 2
  else if k.busy = false then 0
  else if s.rs k.fg.ident.job = 0 then 3
  else if s.trafficAt t then 4
  else if s.imgPlace xb = false then 5
  else 0

/-- The exchange of the banks. -/
def State.swapBanks (s : State) (t : Nat) (xb : Word) : State :=
  let k := s.core t
  let out := k.incoming.map (fun (o : Ctx) =>
    { o with ihome := xb, tdirty := if o.ihome ≠ xb then BitVec.ofNat 8 o.tmask else o.tdirty })
  s.setCore t { k.noCredit s.frameNow with
    busy := k.sh.isSome
    fg := k.sh.getD {}
    sh := out
    shSt := if out.isSome then .held else .empty
    exch := some s.now }

def execCtxswap (f : FmtQ) (s : State) : Out :=
  .next (s.onSup (encodeWord (.ctxswap f)) (fun n =>
    let t := coreNum (n / 256) ((s.xr f.a).toNat % 256)
    let xb := s.xr f.b
    let c := s.swapCode n t xb
    if c = 0 then ((s.finishExch t).swapBanks t xb).doneQ f 0 4 else s.doneQ f (wOf c) 4))

/-! ## Images in memory (R407 to R410) -/

inductive ImgRead where
  | ok (c : Ctx)
  | refused
  | poison (detail : Word)
  | invalid

/-- The reserved bytes of a register section are 0. -/
def regRsvOk (b : List Byte) : Bool :=
  decide (numAt b 4864 64 = 0 ∧ numAt b 9112 40 = 0) &&
    (List.range 4).all (fun i => decide (numAt b (12032 + 64 * i + 9) 3 = 0 ∧ numAt b (12032 + 64 * i + 28) 4 = 0 ∧
      numAt b (12032 + 64 * i + 40) 24 = 0)) &&
    (List.range 64).all (fun i => decide (numAt b (12544 + 192 * i + 156) 36 = 0))

/-- What the model keeps of a saved context beside its image (notes/assumptions/31.md). -/
def State.parkedOf (s : State) (job taskid : Nat) : Ctx :=
  (s.sch.parked.find? (fun c => decide (c.ident.job = job ∧ c.ident.taskid.toNat = taskid))).getD
    { ident := { job := job, taskid := BitVec.ofNat 32 taskid } }

/-- The image at a place, read for core t's shadow bank: the header, the register section, the tiles. -/
def State.readImage (s : State) (t : Nat) (home : Word) : ImgRead :=
  let m := midDarner t
  match s.answer m (imgAt home 0) 64 with
  | .poison d => .poison d
  | .data h =>
    let len := numAt h 12 4
    let tm := numAt h 32 1
    let roff := numAt h 44 4
    if numAt h 0 4 ≠ 1 ∨ numAt h 33 3 ≠ 0 ∨ numAt h 48 16 ≠ 0 ∨ numAt h 36 4 ≠ 0x40 ∨ numAt h 40 4 ≠ granOff ∨
        roff < granOff ∨ roff % 64 ≠ 0 ∨ len % 64 ≠ 0 ∨ len < roff ∨ 2 ^ 21 < len then .invalid
    else
      match s.answer m (imgAt home roff) (len - roff) with
      | .poison d => .poison d
      | .data sec =>
        match readSection 388 sec with
        | none => .invalid
        | some (ls, _) =>
          let b := ls.flatten
          let job := (s.slotOf (numAt h 4 4)).getD 0
          let c := ctxOf (s.parkedOf job (numAt h 8 4)) b
          if regRsvOk b = false ∨ roff ≠ granOff + c.gsz.toNat then .invalid
          else
            let tiles := (List.range 8).filter (fun i => tm.testBit i)
            let at_ (i : Nat) : Nat := imgAt home (0x40 + 8192 * i)
            match tiles.find? (fun i => (s.refuses m (at_ i) 8192 .r).isSome), tiles.findSome? (fun i => firstPoison s.poison (at_ i) 8192) with
            | some _, _ => .refused
            | none, some g => .poison (wOf (granuleBase g / 32))
            | none, none =>
              .ok { c with
                ihome := home
                regs := { c.regs with
                  tile := tilesOf tm (fun i => s.bytes (at_ i) 8192), tilePois := []
                  tcfg := c.regs.tcfg.filter (fun e => tm.testBit e.1) } }
      | _ => .refused
  | _ => .refused

/-- The header of an image. -/
def Ctx.header (c : Ctx) (jid ver len : Nat) : List Byte :=
  leBytes 4 ver ++ leBytes 4 jid ++ leBytes 4 c.ident.taskid.toNat ++ leBytes 4 len ++ leBytes 16 c.dirty.toNat ++
    leBytes 1 c.tmask ++ leBytes 3 0 ++ leBytes 4 0x40 ++ leBytes 4 granOff ++ leBytes 4 (granOff + c.gsz.toNat) ++ leBytes 16 0

/-- Writes a context's image: the dirty tiles, the register section, the header, `ver` last (R409). -/
def State.writeImage (s : State) (c : Ctx) : State × Nat :=
  let sec := codedSection (linesOf 388 c.regBytes)
  let roff := granOff + c.gsz.toNat
  let s := ((List.range 8).filter (fun t => c.tdirty.getLsbD t && (c.shape t).isSome)).foldl (fun s t =>
    s.putBytes (imgAt c.ihome (0x40 + 8192 * t)) (c.tileBytes t)) s
  let s := s.putBytes (imgAt c.ihome roff) sec
  (s.putBytes (imgAt c.ihome 0) (c.header (s.jobid c.ident.job) 1 (roff + sec.length)), roff + sec.length)

/-! ## CTXLOAD and CTXSAVE (R401, R407 to R409) -/

/-- The core whose instruction waits for core t's Darner. -/
def State.ctxWaiter (s : State) (t : Nat) : Option Nat :=
  (s.cores.find? (fun c => decide (c.1 / 256 = t / 256) && c.2.busy &&
    (match c.2.fg.wait with
      | some w =>
        decide (w.a.toNat % 256 = t % 256) &&
          (match w.instr with
            | .ctxload _ => true
            | .ctxsave _ => true
            | .ctxsaveKeep _ => true
            | _ => false)
      | none => false))).map (fun c => c.1)

/-- The Darner's answer reaches the instruction that waits for it, if one still does. -/
def State.ctxAnswer (s : State) (t : Nat) (r : ReadAns) : State :=
  match s.ctxWaiter t with
  | some n => s.modFg n (fun c => { c with wait := c.wait.map (fun (w : Wait) => { w with ans := some r }) })
  | none => s

/-- The target core of a waiting context instruction. -/
def ctxTarget (n : Nat) (w : Wait) : Nat := coreNum (n / 256) (w.a.toNat % 256)

/-- Completion by the Darner's answer: the image length of a save; a fault, poison, or an image that has become
invalid. -/
def ctxTest (f : FmtD) : Test := fun s n w =>
  match w.ans with
  | some (.data bs) => some (s.doneD n f w 0 (leNat bs))
  | some (.refused c) => some (s.doneD n f w 7 c.toNat)
  | some (.poison d) => some (s.doneD n f w 6 d.toNat)
  | some .stale => some (s.doneD n f w 4 4)
  | none => none

/-- At D a load leaves the bank EMPTY, a save leaves it HELD. -/
def ctxLate (f : FmtD) (back : ShadowSt) : Expiry := fun s n w =>
  let t := ctxTarget n w
  (s.setCore t { s.core t with shSt := back }).doneD n f w 1 0

def execCtxload (f : FmtD) (s : State) : Out :=
  .next (s.onSup (encodeWord (.ctxload f)) (fun n =>
    let w := s.waitOf f (.ctxload f)
    let t := ctxTarget n w
    let k := s.core t
    if k.retired then s.doneD n f w 4 1
    else if k.shSt ≠ .empty then s.doneD n f w 4 2
    else if s.imgPlace w.b = false then s.doneD n f w 4 3
    else
      match s.readImage t w.b with
      | .invalid => s.doneD n f w 4 4
      | _ => (s.setCore t { k with shSt := .loading, shImg := w.b }).beginWait n w (ctxTest f) (ctxLate f .empty)))

/-- `CONTEXT_FILL_COMPLETE`. -/
def execContextFillComplete (n : Nat) (s : State) : Out :=
  .next (
    let k := s.core n
    if k.shSt = .loading then
      match s.readImage n k.shImg with
      | .ok c => (s.setCore n { k with shSt := .held, sh := some c }).ctxAnswer n (.data [])
      | .refused => (s.setCore n { k with shSt := .empty }).ctxAnswer n (.refused 0x09)
      | .poison d => (s.setCore n { k with shSt := .empty }).ctxAnswer n (.poison d)
      | .invalid => (s.setCore n { k with shSt := .empty }).ctxAnswer n .stale
    else s)

/-- The issue of a save: `ver` becomes 0 first. -/
def State.ctxsave (s : State) (f : FmtD) (i : Instr) (keep : Bool) : State :=
  s.onSup (encodeWord i) (fun n =>
    let w := s.waitOf f i
    let t := ctxTarget n w
    let k := s.core t
    if k.retired then s.doneD n f w 4 1
    else if k.shSt ≠ .held then s.doneD n f w 4 2
    else
      let s := s.finishExch t
      let k := s.core t
      match k.sh with
      | none => s.doneD n f w 4 2
      | some c =>
        if c.imgBad then s.doneD n f w 4 5
        else
          let s := s.setCore t { k with shSt := .saving, shKeep := keep }
          let s := if (s.refuses (midDarner t) (imgAt c.ihome 0) 64 .w).isSome then s
            else s.putBytes (imgAt c.ihome 0) (leBytes 4 0)
          s.beginWait n w (ctxTest f) (ctxLate f .held))

def execCtxsave (f : FmtD) (s : State) : Out := .next (s.ctxsave f (.ctxsave f) false)
def execCtxsaveKeep (f : FmtD) (s : State) : Out := .next (s.ctxsave f (.ctxsaveKeep f) true)

/-- `CONTEXT_SAVE_COMPLETE`. -/
def execContextSaveComplete (n : Nat) (s : State) : Out :=
  .next (
    let k := s.core n
    match k.shSt, k.sh with
    | .saving, some c =>
      match s.refuses (midDarner n) (imgAt c.ihome 0) 64 .w with
      | some _ => (s.setCore n { k with shSt := .held }).ctxAnswer n (.refused 0x09)
      | none =>
        let r := s.writeImage c
        let c' := { c with tdirty := 0 }
        let others := r.1.sch.parked.filter (fun x => decide (¬(x.ident.job = c.ident.job ∧ x.ident.taskid = c.ident.taskid)))
        let s1 : State := { r.1 with sch := { r.1.sch with parked := others ++ [c'] } }
        let k1 := if k.shKeep then { k with shSt := .held, sh := some c' } else { k with shSt := .empty, sh := none }
        (s1.setCore n k1).ctxAnswer n (.data (leBytes 8 r.2))
    | _, _ => s)

/-! ## The stop instant and gang slices (R402, R415, R416) -/

/-- Freezes every running core of a job, with no trap record. -/
def State.preemptCores (s : State) (slot : Nat) : State :=
  s.mapCores (fun _ k =>
    if k.busy ∧ k.fg.ident.job = slot ∧ k.fg.stop = none then { k with fg := s.freezeCtx k.fg .preempt } else k)

/-- The stop instant: at Ts the job stops here; for a job that a halt wave has frozen, `rs` stays 1 (R448). -/
def State.stopAtTs (s : State) (job : Nat) : State :=
  let j := s.job job
  match j.ts with
  | none => s
  | some ts =>
    if s.ccyc.toNat < ts.toNat then s
    else if s.rs job ≠ 0 then s.setJob job { j with ts := none }
    else ((s.preemptCores job).setJob job { j with ts := none, stopped := ts - j.base }).setRs job 2

/-- `JOB_STOP_INSTANT`. -/
def execJobStopInstant (job : Nat) (s : State) : Out := .next (s.stopAtTs job)

/-- Resumes every foreground context of a job. -/
def State.resumeCores (s : State) (slot : Nat) : State :=
  s.cores.foldl (fun s c => if c.2.busy && decide (c.2.fg.ident.job = slot) then s.resumeFg c.1 else s) s

/-- The resume instant of a gang slice: at Tr Job Time goes on from its stopped value. -/
def State.gangAtTr (s : State) (job : Nat) : State :=
  let j := s.job job
  match j.gang with
  | none => s
  | some (tr, _) =>
    if s.ccyc.toNat < tr.toNat ∨ s.rs job ≠ 2 then s
    else
      let all := (j.pkgs ++ [(s.podid.toNat, s.pkgid)]).map pkgKey
      let s1 := (s.setJob job { j with base := tr - j.stopped, late := if s.isFirst job then all.eraseDups else [] }).setRs job 0
      ((s1.resumeCores job).releaseTrg job).gangCheck job

/-- `GANG_RESUME_INSTANT`. -/
def execGangResumeInstant (job : Nat) (s : State) : Out := .next (s.gangAtTr job)

/-- The end of a grace period: at Tr + G with a report missing, the job is stopped again at Tb (R416). -/
def State.graceEnds (s : State) (job : Nat) : State :=
  let j := s.job job
  match j.gang with
  | none => s
  | some (tr, g) =>
    if s.rs job ≠ 0 ∨ s.isFirst job = false ∨ s.ccyc.toNat < tr.toNat + g.toNat ∨ j.late.isEmpty = true then s
    else
      let tb := tr + g + 2048
      let low := j.late.foldl (fun a k => min a (k % 2048)) 2047
      let s1 := s.setJob job { j with gang := none, ts := some tb }
      (s1.castJob job (jobPayload 10 (s.jobid job) tb 0)).event 0x20 (wOf (low + j.late.length % 2048 * 2 ^ 32))
        (s.jobid job) []

/-- `GANG_GRACE_EXPIRY`. -/
def execGangGraceExpiry (job : Nat) (s : State) : Out := .next (s.graceEnds job)

end Sys2Proof.Machine
end

