-- ==== Sys2Proof/Machine/Contain.lean ====
section
/-! DEFINITION. Pending traps at a boundary, containment, kills, and spare cores (R377 to R398). -/

namespace Sys2Proof.Machine

/-! ## Pending traps (R379) -/

/-- The trap of an engine that is pending: its own, or a missed promise. -/
def Engine.pending (g : Engine) : Option (Nat × Word) :=
  match g.trap, g.missed with
  | some (c, v), _ => some (c.toNat, v)
  | none, some p => some (4, p)
  | none, none => none

/-- What is taken next at a boundary: cause, unit, value; the sequencer's first, then the engines' in order. -/
def Ctx.pendingTrap (c : Ctx) : Option (Nat × Nat × Word) :=
  match c.late with
  | x :: _ => some x
  | [] => engines.findSome? (fun e => (c.eng e).pending.map (fun p => (p.1, engUnit e, p.2)))

/-- The context once its pending trap has been taken. -/
def Ctx.dropPending (c : Ctx) : Ctx :=
  match c.late with
  | _ :: r => { c with late := r }
  | [] =>
    match engines.find? (fun e => (c.eng e).pending.isSome) with
    | some e =>
      let g := c.eng e
      c.setEng e (if g.trap.isSome then { g with trap := none } else { g with missed := none })
    | none => c

/-- Whether core n stands at an instruction boundary: at a bank-format write that waits, the boundary is before it (R45). -/
def Ctx.atBoundary (c : Ctx) : Bool := c.wait.isNone && c.hold.isNone && c.stop.isNone

/-- A `TEXIT` drain meets an engine that is stopped without a trap of its own (R201). -/
def Ctx.drainStuck (c : Ctx) : Bool :=
  c.exiting && engines.any (fun e => decide ((c.eng e).st = .stopped) && decide ((c.eng e).code ≠ 7))

/-- `TRAP_TAKE` (R377, R379): a trap raised by an engine, or after an instruction, is taken with the cut at the
next instruction. -/
def execTrapTake (n : Nat) (s : State) : Out :=
  .next (
    let k := s.core n
    let c := k.fg
    if k.busy = false ∨ k.stepping.isSome = true ∨ c.atBoundary = false then s
    else
      match c.pendingTrap with
      | some (cause, unit, val) => (s.setFg n c.dropPending).takeTrap n cause unit c.pc val
      | none => if c.drainStuck then s.takeTrap n 0x06 0 c.pc c.holdReport else s)

/-! ## Kills (R391) -/

/-- Every started command completes and signals, in the order of readiness. -/
def completeAll (s : State) (n : Nat) : Nat → List Pending → State
  | 0, _ => s
  | k + 1, l =>
    match l.foldl (fun (a : Option Pending) p =>
      match a with
      | none => some p
      | some x => if p.ready < x.ready then some p else some x) none with
    | none => s
    | some p => completeAll (s.complete n p.eng p) n k (l.erase p)

/-- The kill of the task on core n up to its end: issue and waits stop, unstarted entries go, started commands
write what they still have to write and complete, copies stop at a piece, rings stop, and the barrier phases it has joined break. -/
def State.killTask (s : State) (n : Nat) : State :=
  let c := (s.fg n).leaveRings
  let l := c.inRun
  let s := l.foldl (fun s p => (s.drainWork n p).1) s
  let s := [Eng.ce0, Eng.ce1].foldl (fun s e => s.flushCopy n e) s
  let c := { (s.fg n).leaveRings with wait := none, hold := none, bfmtPend := none, vreads := [] }
  let s := completeAll (s.setFg n c) n l.length l
  let s := s.breakBars (s.fg n)
  let k := s.core n
  s.setCore n { k with
    acks := k.acks.map (fun (p : PostAck) => { p with win := 255 }), asked := false, stepping := none, stepRes := none
    posted := k.posted.map (fun (p : Posted) => { p with win := 255 }) }

/-- `TKILL` (R398). -/
def execTkill (f : FmtQ) (s : State) : Out :=
  .next (s.onSup (encodeWord (.tkill f)) (fun n =>
    let t := coreNum (n / 256) ((s.xr f.a).toNat % 256)
    let k := s.core t
    if k.busy = false ∨ k.fg.ident.job ≠ (s.fg n).ident.job ∨ k.fg.ident.taskid.toNat ≠ wfld (s.xr f.b) 31 0 then s.doneQ f 1 4
    else if t = n then s.doneQ f 2 4
    else ((s.killTask t).endTask t).doneQ f 0 4))

/-! ## Containment (R389 to R392) -/

/-- The group of core n at a level (R187). -/
def levelGroup (n lv : Nat) : Nat :=
  match lv with
  | 0 => n
  | 1 => n / 4
  | 2 => n / 256
  | 3 => n / 512
  | _ => 0

/-- Tasks of one launch: the same job and launch number, and the same named slot. -/
def Ident.same (a b : Ident) : Bool := decide (a.job = b.job ∧ a.num = b.num ∧ a.named = b.named)

/-- How the retries of a launch at a level and group are counted. -/
def retryKey (i : Ident) (cl lv grp : Nat) : Nat :=
  let num := match i.named with
    | some k => 2 ^ 32 + cl * 4096 + k
    | none => i.num
  ((i.job * 2 ^ 33 + num) * 8 + lv) * 4096 + grp

/-- The code of a level of a policy (R191). -/
def Desc.levelCode (d : Desc) (lv : Nat) : Nat := d.policy.toNat / 4 ^ lv % 4

/-- The level from `lv` on that absorbs a fault, with its code: a Retry past its limit passes. -/
def absorb (d : Desc) (used : Nat → Nat) : Nat → Nat → Option (Nat × Nat)
  | 0, _ => none
  | k + 1, lv =>
    let c := d.levelCode lv
    if c = 0 ∨ (c = 1 ∧ 2 ≤ used lv) then absorb d used k (lv + 1) else some (lv, c)

/-- The `imm` of R390. -/
def containImm (tid lv code pkg n : Nat) : Word :=
  wOf (tid % 2 ^ 32 * 2 ^ 32 + lv * 2 ^ 28 + code * 2 ^ 26 + pkg * 2 ^ 15 + n / 256 * 2 ^ 8 + n % 256)

/-- A CTRL message on port 0 of the job's first package. -/
def State.msgFirst (s : State) (slot : Nat) (tag imm : Word) (payload : List Byte) : State :=
  let p := s.firstPkg slot
  let m := ctrlMsg tag imm (s.jobid slot) 0 payload
  if s.isFirst slot then s.pushPort 0 m
  else if p.1 = s.podid.toNat then (s.route { dest := wOf (2 ^ 62 + p.2), msg := m }).getD s
  else s.send { dest := wOf (2 ^ 63 + p.1 * 2 ^ 16 + p.2), msg := m }

/-- A task that is relaunched from its entry on its core: the state of R195, the same `taskid`; a persistent one that has
counted does not count again. -/
def State.relaunch (s : State) (n : Nat) (i : Ident) (begun : Bool) : State :=
  let t : Cand := { what := .slot 0, job := i.job, prio := i.desc.prio, rdy := s.now, num := i.num, tid := i.taskid.toNat, desc := i.desc }
  let s := (s.startTask n t i.num i.named).modFg n (fun c => { c with begun := begun })
  if s.rs i.job = 0 then s else s.modFg n (fun c => { c with stop := some .haltWave })

/-- The same for a task that is off its core, of a cluster: it waits to run from its entry. -/
def State.relaunchOff (s : State) (cl : Nat) (c : Ctx) : Yielded :=
  let i := c.ident
  let t : Cand := { what := .slot 0, job := i.job, prio := i.desc.prio, rdy := s.now, num := i.num, tid := i.taskid.toNat, desc := i.desc }
  { cl := cl, rdy := s.now, rd := 0, ctx := { s.firstCtx (cl * 256) t i.num i.named with begun := c.begun } }

/-- The kill of the task that core n's shadow bank holds; the bank is then empty. -/
def State.killShadow (s : State) (n : Nat) (retry : Bool) : State :=
  match (s.core n).sh with
  | none => s
  | some c =>
    let s := (s.breakBars c).setCore n { s.core n with shSt := .empty, sh := none }
    if retry then { s with sch := { s.sch with yielded := s.sch.yielded ++ [s.relaunchOff (n / 256) c] } }
    else s.taskEnds n c

/-- Kills every task of a launch in a group of this package, on its core, yielded or in a shadow bank; a Retry relaunches
each. -/
def State.killGroup (s : State) (i : Ident) (lv grp : Nat) (retry : Bool) : State :=
  let hit := (s.cores.filter (fun c => c.2.busy && c.2.fg.ident.same i && decide (levelGroup c.1 lv = grp))).map (fun c => c.1)
  let s := hit.foldl (fun s n =>
    let c := s.fg n
    let s := s.killTask n
    if retry then (s.setCore n { s.core n with busy := false, fg := {} }).relaunch n c.ident c.begun else s.endTask n) s
  let held := (s.cores.filter (fun c => decide (c.2.shSt = .held) && decide (levelGroup c.1 lv = grp) &&
    (match c.2.sh with | some x => x.ident.same i | none => false))).map (fun c => c.1)
  let mine (y : Yielded) : Bool := y.ctx.ident.same i && decide (2 ≤ lv ∧ levelGroup (y.cl * 256) lv = grp)
  let gone := s.sch.yielded.filter mine
  let s := gone.foldl (fun s y => s.breakBars y.ctx) s
  let off (s : State) : State := held.foldl (fun s n => s.killShadow n retry) s
  if retry then
    off { s with sch := { s.sch with
      yielded := s.sch.yielded.map (fun (y : Yielded) => if mine y then s.relaunchOff y.cl y.ctx else y) } }
  else
    let s : State := { s with sch := { s.sch with yielded := s.sch.yielded.filter (fun y => !mine y) } }
    off (gone.foldl (fun s y => s.taskEnds (y.cl * 256) y.ctx) s)

/-- Names the absorbing level in core n's record. -/
def State.nameLevel (s : State) (n lv : Nat) : State :=
  s.modFg n (fun c =>
    let w := c.rcd.cw.toNat
    { c with rcd := { c.rcd with cw := wOf (w / 2 ^ 19 * 2 ^ 19 + lv % 8 * 2 ^ 16 + w % 2 ^ 16) } })

/-- The payload of a kill of a launch's tasks on other packages. -/
def killPayload (jid num : Nat) (retry : Bool) : List Byte :=
  [16] ++ leBytes 4 jid ++ leBytes 8 num ++ leBytes 1 (boolNat retry)

/-- The fault of core n is not absorbed, or its job level halts: the halt wave starts (R392). -/
def State.haltBy (s : State) (n : Nat) : State :=
  let c := s.fg n
  (s.setFg n { c with stop := some .haltWave }).originateCore n c.ident.job (wfld c.rcd.cw 7 0) c.rcd.cjt

/-- A level absorbs the fault of core n: its record, the message, then the action (R389, R390). -/
def State.absorbAt (s : State) (n lv code : Nat) : State :=
  let s := s.nameLevel n lv
  let c := s.fg n
  let i := c.ident
  let s := s.msgFirst i.job (wOf (wfld c.rcd.cw 7 0)) (containImm i.taskid.toNat lv code s.pkgid n)
    ((c.trapFields.map (fun v => leBytes 8 v)).flatten)
  let s := s.setCore n { s.core n with asked := false }
  if code = 1 ∧ lv = 0 then
    if s.rs i.job = 0 then s.setFg n (s.thawCtx (s.fg n)) else s.modFg n (fun c => { c with stop := some .haltWave })
  else if code = 3 ∧ lv = 6 then s.haltBy n
  else
    let g := if code = 3 then lv + 1 else lv
    let s := if 5 ≤ g then s.castJob i.job (killPayload (s.jobid i.job) i.num (decide (code = 1))) else s
    s.killGroup i g (levelGroup n g) (decide (code = 1))

/-- Counts a Retry. -/
def State.useRetry (s : State) (k : Nat) : State :=
  { s with sch := { s.sch with retries := tset 0 s.sch.retries k (tget 0 s.sch.retries k + 1) } }

/-- The fault of a core whose levels up to package pass, told to the Hamper of the job's first package. -/
def askPayload (jid pkg n num : Nat) (pol : BitVec 14) : List Byte :=
  [17] ++ leBytes 4 jid ++ leBytes 4 pkg ++ leBytes 4 n ++ leBytes 8 num ++ leBytes 2 pol.toNat

/-- `CONTAINMENT_DECISION`: the levels from core to package here, pod and job at the Hamper of the job's first
package. -/
def execContainmentDecision (n : Nat) (s : State) : Out :=
  .next (
    let k := s.core n
    let c := k.fg
    let i := c.ident
    if k.busy = false ∨ c.stop ≠ some .containment ∨ k.asked = true ∨ k.exch.isSome = true then s
    else
      let used (lv : Nat) : Nat := tget 0 s.sch.retries (retryKey i (n / 256) lv (levelGroup n lv))
      let here := if s.isFirst i.job then 7 else 5
      match absorb i.desc used here 0 with
      | some (lv, code) =>
        (if code = 1 then s.useRetry (retryKey i (n / 256) lv (levelGroup n lv)) else s).absorbAt n lv code
      | none =>
        if s.isFirst i.job then s.haltBy n
        else (s.setCore n { k with asked := true }).tellFirst i.job (askPayload (s.jobid i.job) s.pkgid n i.num i.desc.policy))

/-- The Hamper of the job's first package decides a fault of another package at the levels pod and job: the
answer names a level and a code, or 7 for none. -/
def State.decideFar (s : State) (slot pkg n num : Nat) (pol : BitVec 14) : State :=
  let i : Ident := { job := slot, num := num, desc := { policy := pol } }
  let used (lv : Nat) : Nat := tget 0 s.sch.retries (retryKey i 0 lv 0)
  let r := absorb i.desc used 2 5
  let s := match r with
    | some (lv, 1) => s.useRetry (retryKey i 0 lv 0)
    | _ => s
  s.castJob slot ([18] ++ leBytes 4 (s.jobid slot) ++ leBytes 4 pkg ++ leBytes 4 n ++
    leBytes 1 ((r.map (fun x => x.1)).getD 7) ++ leBytes 1 ((r.map (fun x => x.2)).getD 0))

/-- The answer reaches the core that asked. -/
def State.decidedFar (s : State) (n lv code : Nat) : State :=
  let k := s.core n
  if k.busy ∧ k.asked = true ∧ k.fg.stop = some .containment then
    if lv = 7 then (s.setCore n { k with asked := false }).haltBy n else s.absorbAt n lv code
  else s

/-! ## Spare cores (R395) -/

/-- `SPARE_CORE_REMAP`: a core with no task on it fails its checks; one of its cluster's four spares takes its
`coreid`, with nothing of what the failing core held, or the `coreid` is withdrawn. -/
def execSpareCoreRemap (n : Nat) (s : State) : Out :=
  .next (
    let k := s.core n
    let used := tget 0 s.spares (n / 256)
    if k.busy ∨ k.shSt ≠ .empty ∨ k.exch.isSome ∨ k.retired = true then s
    else if used < 4 then
      { (s.wipePad n (BitVec.allOnes 128)).setCore n {} with spares := tset 0 s.spares (n / 256) (used + 1) }
    else s.setCore n { k with retired := true })

end Sys2Proof.Machine
end

