-- ==== Sys2Proof/Machine/Halt.lean ====
section
/-! DEFINITION. The halt wave, the cause record, stepping and the resume wave (R437 to R450). -/

namespace Sys2Proof.Machine

/-! ## Starting a wave (R437, R450) -/

def execHaltgo (f : FmtQ) (s : State) : Out :=
  .next (s.onJob (encodeWord (.haltgo f)) (fun h j =>
    if (s.job j).ph ≠ .run then s.doneQ f (refusal63 1) 4
    else ((s.doneQ f 0 4).takeWave j (originWord 0x0D s.podid.toNat s.pkgid true h) (s.jtime j) true)))

/-- Whether a core of this package holds a task of a job. -/
def State.hasCore (s : State) (slot : Nat) : Bool := s.cores.any (fun c => c.2.busy && decide (c.2.fg.ident.job = slot))

def execHreq (f : FmtQ) (s : State) : Out :=
  .next (s.onSup (encodeWord (.hreq f)) (fun n =>
    match (s.slotOf (wfld (s.xr f.a) 31 0)).filter (fun j => s.hasCore j) with
    | none => s.doneQ f (refusal63 1) 60
    | some j =>
      if (s.job j).ph ≠ .run then s.doneQ f (refusal63 2) 60
      else (s.doneQ f 0 60).originateCore n j 0x0D (s.jtime j)))

/-- `HALT_WAVE_ARRIVAL` (R440): a wave of another package. -/
def execHaltWaveArrival (job : Nat) (origin jt : Word) (s : State) : Out :=
  .next (if s.jobValid job then s.takeWave job origin jt false else s)

/-! ## Reports and the settled record (R442, R443) -/

/-- Whether a packet was injected by an agent of a job: a core or copy engine on its initiative, or a thread. -/
def State.packetOf (s : State) (slot : Nat) (p : FabPkt) : Bool :=
  let m := p.mid.toNat
  (decide (p.kind = 0) || decide (p.kind = 2) || decide (p.kind = 4) || decide (p.kind = 6) || decide (p.kind = 7)) &&
    (if m / 2 ^ 13 = 0 then decide ((s.fg (m % 4096)).ident.job = slot)
      else if m / 2 ^ 13 = 1 then decide ((s.fg (m % 4096)).ident.job = slot)
      else if m / 2 ^ 13 = 2 then decide ((s.thread (m % 512)).hjob.toNat = slot)
      else false)

/-- Every packet of the job that this package injected has been acknowledged, and every core is frozen. -/
def State.settledHere (s : State) (slot : Nat) : Bool :=
  s.fab.tx.all (fun t => !s.packetOf slot t.pkt) && s.fab.out.all (fun p => !s.packetOf slot p) &&
    s.cores.all (fun c => !(c.2.busy && decide (c.2.fg.ident.job = slot)) || c.2.fg.stop.isSome)

/-- The origins that lie in this package. -/
def State.ownOrigins (s : State) (slot : Nat) : List (Word × Word) :=
  (s.job slot).origins.filter (fun o => decide (wfld o.1 43 28 = s.podid.toNat ∧ wfld o.1 27 17 = s.pkgid))

def originBytes (l : List (Word × Word)) : List Byte := (l.map (fun o => leBytes 8 o.1.toNat ++ leBytes 8 o.2.toNat)).flatten

/-- Origins of another package reach the record master. -/
def Job.addOrigins (j : Job) (l : List (Word × Word)) : Job :=
  { j with origins := l.foldl (fun o x => if o.contains x then o else insertOrigin x o) j.origins }

/-- A report reaches the record master. -/
def State.reportIn (s : State) (slot key : Nat) (jt : Word) (l : List (Word × Word)) : State :=
  let j := (s.job slot).addOrigins l
  s.setJob slot { j with
    reports := if j.reports.any (fun r => decide (r.1 = key)) then j.reports else j.reports ++ [(key, jt)] }

/-- Sends the origins that go before a report, twelve to a payload (notes/assumptions/13.md). -/
def State.tellOrigins (s : State) (slot : Nat) : Nat → List (Word × Word) → State
  | 0, _ => s
  | k + 1, l =>
    if l.isEmpty then s
    else (s.tellFirst slot ([25] ++ leBytes 4 (s.jobid slot) ++ originBytes (l.take 12))).tellOrigins slot k (l.drop 12)

/-- `HALT_REPORT`: the package has frozen, and tells the job's first package. -/
def execHaltReport (job : Nat) (s : State) : Out :=
  .next (
    let j := s.job job
    if j.ph = .freezing ∧ s.settledHere job = true then
      let s1 := s.setJob job { j with ph := .frozen }
      let key := pkgKey (s.podid.toNat, s.pkgid)
      if s.isFirst job then s1.reportIn job key j.stopped []
      else
        let l := s.ownOrigins job
        (s1.tellOrigins job l.length (l.drop 12)).tellFirst job ([14] ++ leBytes 4 (s.jobid job) ++ leBytes 4 key ++
          leBytes 8 j.stopped.toNat ++ originBytes (l.take 12))
    else s)

/-- The packages of a job, this one included, by number. -/
def State.jobKeys (s : State) (slot : Nat) : List Nat :=
  (((s.job slot).pkgs ++ [(s.podid.toNat, s.pkgid)]).map pkgKey).eraseDups

/-- `CAUSE_RECORD_SETTLE`: with every report in, the master sets Jz and sends the record. -/
def execCauseRecordSettle (job : Nat) (s : State) : Out :=
  .next (
    let j := s.job job
    if s.isFirst job ∧ j.ph = .frozen ∧ j.settled = false ∧
        (s.jobKeys job).all (fun k => j.reports.any (fun r => decide (r.1 = k))) = true then
      let jz := j.reports.foldl (fun (a : Word) r => if a.toNat < r.2.toNat then r.2 else a) 0
      (s.setJob job { j with jz := jz, settled := true }).castJob job
        ([13] ++ leBytes 4 (s.jobid job) ++ leBytes 8 jz.toNat ++ leBytes 4 j.origins.length ++ originBytes (j.origins.take 12))
    else s)

/-- The master's settled record of n origins, the least of which it lists, is installed. -/
def State.settleIn (s : State) (slot : Nat) (jz : Word) (n : Nat) (l : List (Word × Word)) : State :=
  let j := s.job slot
  if j.ph = .frozen then s.setJob slot { j with jz := jz, settled := true, origins := l, more := n - l.length } else s

/-- A word of the cause record (R443). -/
def Job.causeWord (j : Job) (i : Nat) : Word :=
  if j.ph = .run then 0
  else
    match j.origins with
    | [] => if i = 0 then 1 else 0
    | o :: r =>
      if i = 0 then
        wOf (1 + boolNat j.settled * 2 + wfld o.1 63 56 * 2 ^ 8 + min (r.length + j.more) 65535 * 2 ^ 16 +
          min r.length 8 * 2 ^ 32)
      else if i = 1 then o.1
      else if i = 2 then o.2
      else if i = 3 then (if j.settled then j.jz else 0)
      else if i < 12 then ((r[i - 4]?).map (fun x => x.1)).getD 0
      else 0

def execHcause (f : FmtQ) (s : State) : Out :=
  .next (s.onJob (encodeWord (.hcause f)) (fun _ j => s.doneQ f ((s.job j).causeWord (f.imm.toNat % 16)) 4))

/-- The core that xa names: its cluster in [11:8], its `coreid` in [7:0]. -/
def coreNamed (xa : Word) : Nat := coreNum (wfld xa 11 8) (wfld xa 7 0)

/-- Whether a core holds a foreground context of a job. -/
def State.holdsJob (s : State) (n slot : Nat) : Bool := (s.core n).busy && decide ((s.fg n).ident.job = slot)

def execHcauseCore (f : FmtQ) (s : State) : Out :=
  .next (s.onJob (encodeWord (.hcauseCore f)) (fun _ j =>
    let n := coreNamed (s.xr f.a)
    if s.holdsJob n j then
      if (s.fg n).regs.pois.contains (poisCsr 0x1000) then s.trapHere 0x0A (wOf (2 ^ 63 + 2))
      else s.doneQ f ((s.fg n).rcd.field (f.imm.toNat % 16)) 20
    else s.doneQ f ones64 20))

/-! ## Stepping (R445, R446) -/

/-- The core moves past the `EBREAK` of its cut. -/
def Ctx.pastBreak (c : Ctx) : Ctx :=
  if c.rcd.cw.getLsbD 20 then
    { c with pc := c.pc + wOf c.bpkLen, rcd := { c.rcd with cw := c.rcd.cw &&& ~~~(1#64 <<< 20) } }
  else c

/-- Gives core n the pulses of a step of a unit. -/
def State.startStep (s : State) (n u : Nat) : State :=
  let k := s.core n
  s.setCore n { k with stepping := some (u, k.fg.stop.getD .haltWave), stepRes := none, fg := s.thawCtx k.fg.pastBreak }

def execHstep (f : FmtQ) (s : State) : Out :=
  .next (s.onJob (encodeWord (.hstep f)) (fun _ j =>
    let n := coreNamed (s.xr f.a)
    let r := s.job j
    if r.ph = .run ∨ r.ph = .freezing ∨ r.settled = false then s.doneQ f (refusal63 1) 4
    else if s.holdsJob n j = false then s.doneQ f (refusal63 2) 4
    else if (s.core n).stepping.isSome then s.doneQ f (refusal63 3) 4
    else if r.ph = .armed then s.doneQ f (refusal63 4) 4
    else (s.startStep n (f.imm.toNat % 8)).doneQ f 0 4))

/-- The command that a step started has completed: nothing of its engine is in progress. -/
def Ctx.stepDone (c : Ctx) (u : Nat) : Bool :=
  if u = 0 then true
  else
    let g := c.eng (engOf (u - 1))
    g.run.isEmpty && (decide (g.st = .stopped) || g.q.all (fun q => !q.started))

/-- `STEP_END`: the core is frozen at its new cut, and the step reports. -/
def execStepEnd (n : Nat) (s : State) : Out :=
  .next (
    let k := s.core n
    match k.stepping, k.stepRes with
    | some (u, why), some (r, cause) =>
      if k.fg.stepDone u then
        let s1 := s.setCore n { k with stepping := none, stepRes := none, fg := s.freezeCtx k.fg why }
        s1.event 0x23 (wOf (r + cause.toNat * 2 ^ 8 + u * 2 ^ 16 + n % 4096 * 2 ^ 32)) (s.jobid k.fg.ident.job) []
      else s
    | _, _ => s)

/-! ## Resume (R447, R448) -/

/-- A step runs on a core of a job. -/
def State.stepRuns (s : State) (slot : Nat) : Bool :=
  s.cores.any (fun c => c.2.stepping.isSome && decide (c.2.fg.ident.job = slot))

def execHresume (f : FmtQ) (s : State) : Out :=
  .next (s.onJob (encodeWord (.hresume f)) (fun _ j =>
    let tr := s.xr f.a
    let r := s.job j
    if r.ph = .run then s.doneQ f (refusal63 1) 4
    else if r.settled = false then s.doneQ f (refusal63 2) 4
    else if s.isFirst j = false then s.doneQ f (refusal63 3) 4
    else if tr.toNat < s.ccyc.toNat + (if (s.jobFar j).isEmpty then 4096 else 65536) then s.doneQ f (refusal63 4) 4
    else if s.stepRuns j then s.doneQ f (refusal63 5) 4
    else
      ((s.setJob j { r with ph := .armed, tr := tr }).castJob j (jobPayload 12 (s.jobid j) tr r.jz)).doneQ f r.jz 4))

/-- `RESUME_WAVE_ARRIVAL`: Tr is armed at a settled frozen package; one that comes after Tr is told to the
master. -/
def execResumeWaveArrival (job : Nat) (tr jz : Word) (s : State) : Out :=
  .next (
    let r := s.job job
    if r.ph = .frozen ∧ r.settled = true then
      let s1 := s.setJob job { r with ph := .armed, tr := tr, jz := jz }
      if tr.toNat < s.ccyc.toNat then
        s1.tellFirst job ([15] ++ leBytes 4 (s.jobid job) ++ leBytes 4 s.pkgid)
      else s1
    else s)

/-- The resume instant of a halt: at Tr the job runs again from Jz. -/
def State.resumeAtTr (s : State) (job : Nat) : State :=
  let r := s.job job
  if r.ph = .armed ∧ r.tr.toNat ≤ s.ccyc.toNat then
    let s1 := s.mapCores (fun _ k =>
      if k.busy ∧ k.fg.ident.job = job ∧ k.stepping.isSome = true then
        { k with stepping := none, stepRes := none, fg := s.freezeCtx k.fg .haltWave } else k)
    let s2 := (s1.setJob job { r with
      ph := .run, base := r.tr - r.jz, origins := [], first := none, settled := false, more := 0, reports := [], jz := 0, tr := 0 }).setRs job 0
    (s2.resumeCores job).releaseTrg job
  else s

/-- `RESUME_INSTANT`. -/
def execResumeInstant (job : Nat) (s : State) : Out := .next (s.resumeAtTr job)

/-- The instants of a job that have come: its stop, its resume, the resume and the grace period of its gang slice
(R402, R415, R416, R447). -/
def State.dueJob (s : State) (job : Nat) : State := (((s.stopAtTs job).resumeAtTr job).gangAtTr job).graceEnds job

/-- The instants of every job that have come. -/
def State.dueJobs (s : State) : State := (s.jobs.map (fun j => j.1)).foldl State.dueJob s

end Sys2Proof.Machine
end

