-- ==== Sys2Proof/Machine/Deadline.lean ====
section
/-! DEFINITION. The two ends of a waiting deadline-bearing instruction: its condition holds at a test, or the
tick after D comes first (R37 to R40, R253, R447). -/

namespace Sys2Proof.Machine

/-- The test that a waiting instruction of a core makes, and what it does at D + 1. -/
def coreWait : Instr → Option (Test × Expiry)
  | .sleepu f => some (sleepuTest f, sleepuLate f)
  | .engsync f => some (engsyncTest f, lateD f)
  | .semwait f => some (semwaitTest f, lateD f)
  | .slcfg f => some (spoolTest f true slcfgOp, fun s _ _ => s)
  | .sladvCons f => some (spoolTest f false sladvConsOp, fun s _ _ => s)
  | .sladvProd f => some (spoolTest f false sladvProdOp, fun s _ _ => s)
  | .sltokRd f => some (spoolTest f false sltokRdOp, fun s _ _ => s)
  | .sltokPut f => some (spoolTest f false sltokPutOp, fun s _ _ => s)
  | .sltokTake f => some (spoolTest f false sltokTakeOp, fun s _ _ => s)
  | .tret _ => some (tretTest false, tretLate)
  | .tretSkip _ => some (tretTest true, tretLate)
  | .dld f => some (dldTest f, lateD f)
  | .pfence f => some (fenceTest f, fenceLate f)
  | .xfence f => some (fenceTest f, fenceLate f)
  | .bar f => some (barTest, barLate (f.aux.toNat % 16))
  | .barw f => some (barTest, barLate (f.aux.toNat % 16))
  | .cpput f => some (cpputTest f false, lateD f)
  | .cpputP f => some (cpputTest f true, lateD f)
  | .tlbinvPg f => some (tlbinvTest f 0, lateD f)
  | .tlbinvAs f => some (tlbinvTest f 1, lateD f)
  | .tlbinvAll f => some (tlbinvTest f 2, lateD f)
  | .tlaunch f => some (tlaunchTest f, lateD f)
  | .ctxload f => some (ctxTest f, ctxLate f .empty)
  | .ctxsave f => some (ctxTest f, ctxLate f .held)
  | .ctxsaveKeep f => some (ctxTest f, ctxLate f .held)
  | _ => none

/-- An agent's wait with its test and expiry, and the number its meaning goes by: none for an agent that does
not wait, or cannot test now: a frozen core, a thread whose unit is in retention or whose job is stopped (R333, R361). -/
def State.waiting (s : State) (a : Agent) : Option (Nat × Wait × Test × Expiry) :=
  match a with
  | .core n =>
    if (s.core n).busy = false ∨ (s.fg n).stop.isSome = true then none
    else (s.fg n).wait.bind (fun w => (coreWait w.instr).map (fun x => (n, w, x.1, x.2)))
  | .thread h =>
    if s.awake h = false ∨ (s.hjob h ≠ 0 ∧ s.held (s.hjob h) = true) then none
    else (s.thread h).wait.bind (fun w => (threadWait w.instr).map (fun x => (h, w, x.1, x.2)))

/-- Whether a wait may still be tested: up to and including D, or once after a resume or a wake. -/
def State.mayTest (s : State) (w : Wait) : Bool := w.fresh || decide (s.agentTime.toNat ≤ w.d.toNat)

/-- The moving agent's wait has made the test that a resume granted. -/
def State.tested (s : State) : State :=
  let g (w : Option Wait) : Option Wait := w.map (fun (w : Wait) => { w with fresh := false })
  match s.cur with
  | .core n => s.modFg n (fun c => { c with wait := g c.wait })
  | .thread h => s.setThread h { s.thread h with wait := g (s.thread h).wait }

/-- A read of the vector unit whose reply is due: held while the core was frozen, or 2 cycles old (R265, R441). -/
def State.heldRead (s : State) (n : Nat) : Option (VRead × ReadAns) :=
  let c := s.fg n
  if (s.core n).busy = false ∨ c.stop.isSome = true then none
  else (c.vreads.find? (fun v => v.ans.isSome && decide (v.rdy ≤ s.dcyc c))).bind (fun v => v.ans.map (fun r => (v, r)))

/-- `WAIT_CONDITION_MET` (R37): the test of agent a's waiting instruction holds; a reply held for its vector unit
lands first. -/
def execWaitConditionMet (a : Agent) (s : State) : Out :=
  .next (
    let wait : State :=
      match s.waiting a with
      | none => s
      | some (k, w, test, _) =>
        s.asAgent a (fun s => if s.mayTest w then (test s k w).getD s.tested else s)
    match a with
    | .core n =>
      match s.heldRead n with
      | some (v, r) => s.landRead n v r
      | none => wait
    | .thread _ => wait)

/-- The first read of the vector unit that still waits after its deadline instant (R253): its results are ready 2
cycles after D (R265). -/
def State.lateRead (s : State) (n : Nat) : Option VRead :=
  let c := s.fg n
  if (s.core n).busy = false ∨ c.stop.isSome = true then none
  else c.vreads.find? (fun v => v.ans.isNone && decide (v.d.toNat + (if s.lockstep then 0 else 1) < (s.jtime c.ident.job).toNat))

/-- `DEADLINE_EXPIRY` (R37): no test up to D has succeeded, and the tick after D has come; a core's waiting
instruction comes before the waiting reads of its vector unit. -/
def execDeadlineExpiry (a : Agent) (s : State) : Out :=
  .next (
    let reads : State :=
      match a with
      | .core n =>
        match s.lateRead n with
        | some v => s.endRead n v 1 0 none
        | none => s
      | .thread _ => s
    match s.waiting a with
    | none => reads
    | some (k, w, _, late) =>
      s.asAgent a (fun s => if s.mayTest w then { reads with cur := a } else late s k w))

end Sys2Proof.Machine
end

