-- ==== Sys2Proof/Machine/Collective.lean ====
section
/-! DEFINITION. Collectives: `COLLST`, the handshakes, the steps of a member, and its completion (R357, R451 to
R462).  How the members' messages are laid out is the model's (notes/assumptions/13.md). -/

namespace Sys2Proof.Machine

/-! ## The parameter block (R451 to R455) -/

def collEs (ty : Nat) : Nat := tyWidth (BitVec.ofNat 5 ty) / 8

/-- The types of an operation (R454). -/
def collTy (op rop ty : Nat) : Bool :=
  if op < 2 then decide (rop ≤ 2) && atomPair rop ty
  else decide (rop = 0) && (let w := tyWidth (BitVec.ofNat 5 ty); decide (w = 8 ∨ w = 16 ∨ w = 32 ∨ w = 64))

def memPod (w : Word) : Nat := wfld w 31 16
def memPkg (w : Word) : Nat := wfld w 10 0
def memPeer (w : Word) : Nat := wfld w 47 32

/-- A member list is in ascending order, with no reserved bit, and every pod holds as many members (R451). -/
def mlistOk (l : List Word) : Bool :=
  l.all (fun w => decide (wfld w 63 48 = 0 ∧ wfld w 15 11 = 0)) &&
    (l.zip (l.drop 1)).all (fun x => decide (memPod x.1 < memPod x.2 ∨ (memPod x.1 = memPod x.2 ∧ memPkg x.1 < memPkg x.2))) &&
    (let n (w : Word) : Nat := (l.filter (fun x => decide (memPod x = memPod w))).length
     l.all (fun w => decide (n w = n (l.headD 0))))

/-- The members of a pod. -/
def Coll.perPod (c : Coll) : Nat := (c.mlist.filter (fun x => decide (memPod x = memPod (c.mlist.headD 0)))).length

/-- The parameters of a block as a member of this package: none where it is malformed (R455). -/
def State.collOf (s : State) (h slot off : Nat) : Option Coll :=
  let r := s.hnum off 128
  let b (lo k : Nat) : Nat := r / 2 ^ (8 * lo) % 2 ^ (8 * k)
  let op := b 0 1 % 16
  let rop := b 0 1 / 16
  let ty := b 1 1
  let gsz := b 20 2
  let rank := b 22 2
  let nloc := b 28 1
  let ltab := b 24 4
  let mlist := b 16 4
  let crec := b 40 4
  let cfl := b 46 1
  let count := b 4 4
  let root := b 2 2
  let stg := wOf (b 56 8)
  let dep := wOf (b 48 8)
  let inMem (a k : Nat) : Bool := decide (a + k ≤ 2 ^ 26)
  let ml := (List.range gsz).map (fun i => wOf (s.hnum (mlist + 8 * i) 8))
  let lt := (List.range nloc).map (fun i => (wOf (s.hnum (ltab + 16 * i) 8), wOf (s.hnum (ltab + 16 * i + 8) 8)))
  if b 64 64 ≠ 0 ∨ b 47 1 ≠ 0 ∨ b 29 3 ≠ 0 ∨ 8 ≤ cfl ∨ 32 ≤ ty ∨ 4 ≤ op ∨ collTy op rop ty = false ∨ count = 0 ∨ gsz = 0 ∨
      gsz ≤ rank ∨ nloc = 0 ∨ 16 < nloc ∨ (if op = 3 then gsz ≤ root else root ≠ 0) ∨ (op = 1 ∧ count % gsz ≠ 0) then none
  else if ltab % 16 ≠ 0 ∨ inMem ltab (16 * nloc) = false ∨ mlist % 8 ≠ 0 ∨ inMem mlist (8 * gsz) = false ∨ crec % 32 ≠ 0 ∨
      inMem crec 32 = false then none
  else if mlistOk ml = false ∨ ml[rank]?.any (fun w => decide (memPod w = s.podid.toNat ∧ memPkg w = s.pkgid)) = false then none
  else if lt.any (fun x => !twOk x.1 || !twOk x.2) ∨ (if op < 2 then stg.toNat / 2 ^ 62 ≠ 0 ∨ twOk stg = false else stg ≠ 0) then none
  else if (cfl.testBit 1 = true ∧ (s.ctrOf slot (b 44 2)).isNone = true) ∨ (cfl.testBit 2 = true ∧ (dep = 0 ∨ depOk dep = false)) then
    none
  else
    some { num := 0, thread := h, crc := crc32 (s.hbytes mlist (8 * gsz)), ordinal := 0, op := op, rop := rop, ty := ty, root := root,
           count := count, utag := wOf (b 8 8), gsz := gsz, rank := rank, nloc := nloc, ltab := lt, mlist := ml, stg := stg
           dep := dep, cfl := BitVec.ofNat 8 cfl, ctr := b 44 2, crec := crec, d := deadlineAt s.agentTime (wOf (b 32 8)) }

/-- The fingerprint (R457). -/
def Coll.finger (c : Coll) : Word :=
  wOf (c.op + c.rop * 2 ^ 4 + c.ty * 2 ^ 8 + c.gsz * 2 ^ 16 + c.count * 2 ^ 32)

/-! ## Messages between members -/

def State.collAt (s : State) (slot : Nat) (crc : BitVec 32) (ordinal : Nat) : Option Coll :=
  (s.job slot).colls.find? (fun c => decide (c.crc = crc ∧ c.ordinal = ordinal))
def State.setColl (s : State) (slot : Nat) (c : Coll) : State :=
  let j := s.job slot
  s.setJob slot { j with colls := j.colls.map (fun (x : Coll) => if x.num = c.num then c else x) }
def State.coll (s : State) (slot num : Nat) : Option Coll := (s.job slot).colls.find? (fun c => decide (c.num = num))

/-- Elements as bytes, with the map of those that are poisoned. -/
def elsBytes (es : Nat) (l : List (Option Nat)) : List Byte :=
  (l.map (fun x => leBytes es (x.getD 0))).flatten ++
    leBytes ((l.length + 7) / 8) ((l.zip (List.range l.length)).foldl (fun m x => if x.1.isNone then m + 2 ^ x.2 else m) 0)

/-- The reverse. -/
def elsFrom (es : Nat) (bs : List Byte) : List (Option Nat) :=
  let n := bs.length * 8 / (8 * es + 1)
  let bad := leNat (bs.drop (es * n))
  (List.range n).map (fun j => if bad.testBit j then none else some (leNat ((bs.drop (es * j)).take es)))

/-- Sends a payload to the member of a rank: by the fabric in the pod, else to its UET peer, on a rail if one is given
(R458). -/
def State.collPut (s : State) (slot : Nat) (c : Coll) (code rank : Nat) (rail : Option Nat) (rest : List Byte) : State :=
  let w := c.mlist.getD rank 0
  let pl := leBytes 1 code ++ leBytes 2 c.rank ++ leBytes 4 c.crc.toNat ++ leBytes 4 c.ordinal ++ rest
  let m := ctrlMsg c.utag 0 (s.jobid slot) collPort pl
  if memPod w = s.podid.toNat then (s.route { dest := wOf (2 ^ 62 + memPkg w), msg := m }).getD s
  else (s.route { dest := wOf (2 ^ 63 + memPeer w), msg := m, rail := rail }).getD s

def State.collSend (s : State) (slot : Nat) (c : Coll) (code rank : Nat) (rest : List Byte) : State :=
  s.collPut slot c code rank none rest

/-- The rail that part k takes: rail k, or the next above it, modulo 8, whose port is up (R458). -/
def State.railUp (s : State) (k : Nat) : Nat :=
  (((List.range 8).map (fun j => (k + j) % 8)).find? (fun r => !tget false s.mgmt.ethDown r)).getD k

/-- The parts that elements travel in: those for another pod are divided into eight, of which only those with elements
are sent; any others travel as one. -/
def Coll.parts (c : Coll) (pod rank : Nat) (l : List (Option Nat)) : List (List (Option Nat)) :=
  if memPod (c.mlist.getD rank 0) = pod ∨ l.isEmpty = true then [l]
  else ((shares l.length 8).filter (fun x => decide (0 < x.2))).map (fun x => (l.drop x.1).take x.2)

/-- Sends elements to some ranks. -/
def State.collData (s : State) (slot : Nat) (c : Coll) (code : Nat) (l : List (Nat × List (Option Nat))) : State :=
  l.foldl (fun s x =>
    let ps := c.parts s.podid.toNat x.1 x.2
    (ps.zipIdx).foldl (fun s y =>
      s.collPut slot c code x.1 (some (s.railUp y.2)) (leBytes 1 y.2 ++ leBytes 1 ps.length ++ elsBytes (collEs c.ty) y.1)) s) s

/-- The other members. -/
def Coll.others (c : Coll) : List Nat := (List.range c.gsz).filter (fun r => decide (r ≠ c.rank))

/-! ## Handshakes (R457) -/

def Coll.shake (c : Coll) (slot : Nat) : Handshake :=
  { job := slot, crc := c.crc, ordinal := c.ordinal, rank := c.rank, fp := c.finger, utag := c.utag, root := BitVec.ofNat 16 c.root }

/-- The coordinator holds all handshakes: GO when they are equal, else MISMATCH; it says nothing while the job is
stopped (R461). -/
def State.coordinate (s : State) (slot : Nat) (crc : BitVec 32) (ordinal : Nat) : State :=
  let j := s.job slot
  let mine (h : Handshake) : Bool := decide (h.crc = crc ∧ h.ordinal = ordinal)
  let l := j.shakes.filter mine
  match s.collAt slot crc ordinal with
  | none => s
  | some c =>
    if c.rank ≠ 0 ∨ c.go.isSome = true ∨ l.length < c.gsz ∨ s.held slot = true then s
    else
      let ok := l.all (fun h => decide (h.fp = c.finger ∧ h.utag = c.utag ∧ h.root.toNat = c.root))
      let s := s.setJob slot { j with shakes := j.shakes.filter (fun h => !mine h) }
      let s := s.setColl slot { c with go := some ok }
      c.others.foldl (fun s r => s.collSend slot c (if ok then 8 else 7) r []) s

/-- A handshake reaches this package, once for each member. -/
def State.shakeIn (s : State) (slot : Nat) (h : Handshake) : State :=
  let j := s.job slot
  if j.shakes.any (fun x => decide (x.crc = h.crc ∧ x.ordinal = h.ordinal ∧ x.rank = h.rank)) then s
  else (s.setJob slot { j with shakes := j.shakes ++ [h] }).coordinate slot h.crc h.ordinal

/-- `COLLECTIVE_HANDSHAKE`: a member's handshake reaches the coordinator. -/
def execCollectiveHandshake (h : Handshake) (s : State) : Out :=
  .next (if s.jobValid h.job then s.shakeIn h.job h else s)

/-! ## COLLST (R357, R455, R456) -/

/-- The lowest collective number that is free. -/
def Job.freeColl (j : Job) : Nat := ((List.range 16).find? (fun k => j.colls.all (fun c => decide (c.num ≠ k)))).getD 16

def execCollst (f : FmtQ) (s : State) : Out :=
  .next (s.onJob (encodeWord (.collst f)) (fun h slot =>
    s.hoff (s.xr f.a) 128 128 (fun off =>
      match s.collOf h slot off with
      | none => s.doneQ f (refusal63 1) 3
      | some c0 =>
        let j := s.job slot
        if 16 ≤ j.colls.length then s.doneQ f (refusal63 2) 3
        else if s.held slot then s.doneQ f (refusal63 3) 3
        else
          let ord := ((j.ordinals.find? (fun o => decide (o.1 = c0.crc))).map (fun o => o.2)).getD 0
          let c := { c0 with num := j.freeColl, ordinal := ord }
          let s := s.setJob slot { j with
            colls := j.colls ++ [c]
            ordinals := (c.crc, ord + 1) :: j.ordinals.filter (fun o => decide (o.1 ≠ c.crc)) }
          let s := if c.rank = 0 then s.shakeIn slot (c.shake slot)
            else s.collSend slot c 0 0 (leBytes 8 c.finger.toNat ++ leBytes 8 c.utag.toNat ++ leBytes 2 c.root)
          s.doneQ f (wOf c.num) 3)))

/-! ## Memory of a member -/

def Coll.who (c : Coll) (slot : Nat) : Who := { core := none, slot := slot, mid := midThread c.thread, path := 4 }

/-- Reads elements at a target word: the elements, or the cause; and the first poisoned place. -/
def State.collRead (s : State) (slot : Nat) (c : Coll) (tw : Word) (k : Nat) : (Nat ⊕ List (Option Nat)) × Option Word × State :=
  let es := collEs c.ty
  let g := s.readVa (c.who slot) (tw.toNat : Int) (k * es)
  match g.1.fault with
  | some (e, _) => (.inl e, none, g.2)
  | none =>
    (.inr ((List.range k).map (fun j =>
      if g.1.pois.any (fun b => decide (b / es = j)) then none else some (leNat ((g.1.bytes.drop (es * j)).take es)))),
      g.1.first, g.2)

/-- Writes elements from a target word upward, an aligned 64 bytes at a time; poison goes with them. -/
def writeEls (w : Who) (bs : List Byte) (pois : List Nat) (tw : Nat) : Nat → Nat → State → Nat ⊕ State
  | 0, _, s => .inr s
  | fuel + 1, off, s =>
    if bs.length ≤ off then .inr s
    else
      let k := 64 - (tw + off) % 64
      let here := (pois.filter (fun j => decide (off ≤ j ∧ j < off + k))).map (fun (j : Nat) => j - off)
      match s.writeVa w ((tw + off : Nat) : Int) (cellsAt 0 ((bs.drop off).take k)) [] here with
      | .ok s => writeEls w bs pois tw fuel (off + k) s
      | .fault c _ => .inl c

def State.collWrite (s : State) (slot : Nat) (c : Coll) (tw : Word) (l : List (Option Nat)) : Nat ⊕ State :=
  let es := collEs c.ty
  let bs := (l.map (fun x => leBytes es (x.getD 0))).flatten
  let ps := (List.range bs.length).filter (fun b => (l.getD (b / max es 1) (some 0)).isNone)
  writeEls (c.who slot) bs ps tw.toNat (bs.length / 64 + 2) 0 s

/-! ## Folds (R459) -/

/-- Folds a vector into a running one, element by element; a poisoned contribution poisons the element. -/
def foldVec (rop ty : Nat) : List (Option Nat) → List (Option Nat) → BitVec 6 → List (Option Nat) × BitVec 6
  | a :: r, b :: t, fl =>
    let x : Option Nat × BitVec 6 :=
      match a, b with
      | some d, some v =>
        let y := atomNew rop ty 0 d v {}
        (some y.1, y.2.fl)
      | _, _ => (none, 0)
    let y := foldVec rop ty r t (fl ||| x.2)
    (x.1 :: y.1, y.2)
  | _, _, fl => ([], fl)

/-- Takes contributions in an order that free values choose (notes/assumptions/8.md). -/
def mixGo : Nat → Nat → List (List (Option Nat)) → List (List (Option Nat))
  | 0, _, _ => []
  | k + 1, i, l =>
    let j := (Config.freeWord i).toNat % max l.length 1
    match l[j]? with
    | some x => x :: mixGo k (i + 1) (dropAt l j)
    | none => []

/-- The fold of some contributions: the state, the vector, the flags. -/
def State.foldAll (s : State) (rop ty : Nat) (l : List (List (Option Nat))) : State × List (Option Nat) × BitVec 6 :=
  let m := mixGo l.length s.free l
  let r := (m.drop 1).foldl (fun (a : List (Option Nat) × BitVec 6) x => foldVec rop ty a.1 x a.2) (m.headD [], 0)
  ({ s with free := s.free + l.length }, r.1, r.2)

/-! ## Faults (R460) -/

/-- The cause of a member's fault goes to the coordinator, and from the coordinator to the others. -/
def State.spread (s : State) (slot : Nat) (c : Coll) : State :=
  let s := s.setColl slot { c with told := true }
  let cause := leBytes 1 c.det.toNat
  if c.rank = 0 then c.others.foldl (fun s r => s.collSend slot c 6 r cause) s else s.collSend slot c 6 0 cause

/-- A member meets a fault, or is told of one: its cause stands, and is passed on unless the job is stopped (R461). -/
def State.collFault (s : State) (slot : Nat) (c : Coll) (cause : Nat) (own : Bool) : State :=
  let c := { c with code := 7, det := wOf cause, told := decide (c.rank ≠ 0) && !own }
  let s := s.setColl slot c
  if c.told || s.held slot then s else s.spread slot c

/-- A fault is told to a coordinator that has completed its own part: it still passes it on. -/
def State.coordFault (s : State) (slot : Nat) (crc : BitVec 32) (ordinal cause : Nat) : State :=
  let j := s.job slot
  s.setJob slot { j with coord := j.coord.map (fun (c : Coll) =>
    if c.crc = crc ∧ c.ordinal = ordinal then { c with code := 7, det := wOf cause } else c) }

/-! ## The steps (R458) -/

def slice (l : List (Option Nat)) (x : Nat × Nat) : List (Option Nat) := (l.drop x.1).take x.2

/-- The messages of a step from some ranks, when all have come. -/
def Coll.got (c : Coll) (code : Nat) (ranks : List Nat) : Option (List (List (Option Nat))) :=
  ranks.mapM (fun r =>
    let ms := c.inbox.filter (fun m => decide (m.ph = code ∧ m.rank = r))
    match ms with
    | [] => none
    | m :: _ =>
      ((List.range m.of).mapM (fun k => (ms.find? (fun x => decide (x.part = k))).map (fun x => x.els))).map List.flatten)

/-- Where a member stands: its pod's size, the number of pods, its index in its pod and its pod. -/
structure Place where
  p : Nat
  q : Nat
  i : Nat
  pod : Nat

def Coll.place (c : Coll) : Place :=
  let p := max c.perPod 1
  { p := p, q := c.gsz / p, i := c.rank % p, pod := c.rank / p }

/-- The other members of its pod, and those of its index in the other pods. -/
def Coll.mates (c : Coll) : List Nat := c.others.filter (fun r => decide (r / c.place.p = c.place.pod))
def Coll.twins (c : Coll) : List Nat := c.others.filter (fun r => decide (r % c.place.p = c.place.i))
/-- The members of other pods. -/
def Coll.far (c : Coll) : List Nat := c.others.filter (fun r => decide (r / c.place.p ≠ c.place.pod))

/-- The range of elements that rank r's result takes. -/
def Coll.part (c : Coll) (r : Nat) : Nat × Nat := (r * (c.count / c.gsz), c.count / c.gsz)

/-- The range of elements that an index of a pod owns, and the part of it that a pod owns (notes/assumptions/47.md). -/
def Coll.seg (c : Coll) (i : Nat) : Nat × Nat := (shares c.count c.place.p).getD i (0, 0)
def Coll.sub (c : Coll) (k : Nat) : Nat × Nat := (shares (c.seg c.place.i).2 c.place.q).getD k (0, 0)

/-- Step 1, and what step 2 sends: the local inputs are read and combined; the staging area holds partial results
from here on, as free values (notes/assumptions/8.md). -/
def State.collStart (s : State) (slot : Nat) (c : Coll) : State :=
  let parts := if c.op < 2 then c.ltab else if c.op = 2 ∨ c.rank = c.root then c.ltab.take 1 else []
  let rd (a : (Nat ⊕ List (List (Option Nat))) × Option Word × State) (x : Word × Word) :
      (Nat ⊕ List (List (Option Nat))) × Option Word × State :=
    match a.1 with
    | .inl e => (.inl e, a.2.1, a.2.2)
    | .inr l =>
      let r := a.2.2.collRead slot c x.1 c.count
      match r.1 with
      | .inl e => (.inl e, none, r.2.2)
      | .inr v => (.inr (l ++ [v]), (match a.2.1 with | some d => some d | none => r.2.1), r.2.2)
  let r := parts.foldl rd (.inr [], none, s)
  match r.1 with
  | .inl e => r.2.2.collFault slot c e true
  | .inr l =>
    let y := r.2.2.foldAll c.rop c.ty l
    let bs := (List.range (2 * c.count * collEs c.ty)).map (fun k => Config.freeByte (y.1.free + k))
    let staged : Nat ⊕ State :=
      if c.op < 2 ∧ (1 < c.nloc ∨ 1 < c.gsz) then
        writeEls (c.who slot) bs [] c.stg.toNat (bs.length / 64 + 2) 0 { y.1 with free := y.1.free + bs.length }
      else .inr y.1
    match staged with
    | .inl e => y.1.collFault slot c e true
    | .inr s =>
      let c := { c with acc := y.2.1, flg := c.flg ||| y.2.2, ph := 1, code := if r.2.1.isSome then 6 else 0
                        det := (r.2.1).getD 0 }
      let s := s.setColl slot c
      if c.op = 0 then s.collData slot c 2 (c.mates.map (fun r => (r, slice c.acc (c.seg (r % c.place.p)))))
      else if c.op = 1 then s.collData slot c 2 (c.mates.map (fun r => (r, slice c.acc (c.part r))))
      else s

/-- Step 2 has its contributions: the member folds them into what it owns, and step 3 is sent. -/
def State.collPod (s : State) (slot : Nat) (c : Coll) (l : List (List (Option Nat))) : State :=
  let pl := c.place
  if c.op < 2 then
    let own := slice c.acc (if c.op = 0 then c.seg pl.i else c.part c.rank)
    let y := s.foldAll c.rop c.ty (own :: l)
    let c' := { c with acc := y.2.1, flg := c.flg ||| y.2.2, ph := 2 }
    let s := y.1.setColl slot c'
    if c.op = 0 then s.collData slot c' 3 (c.twins.map (fun r => (r, slice c'.acc (c.sub (r / pl.p)))))
    else s.collData slot c' 3 (c.far.map (fun r => (r, slice c.acc (c.part r))))
  else
    let s := s.setColl slot { c with ph := 2 }
    if c.op = 2 ∨ c.rank = c.root then s.collData slot c 3 (c.twins.map (fun r => (r, c.acc))) else s

/-- The whole list of blocks by pod, the member's own among those of its twins. -/
def Coll.byPod (c : Coll) (own : List (Option Nat)) (l : List (List (Option Nat))) : List (Option Nat) :=
  ((List.range c.place.q).map (fun k =>
    if k = c.place.pod then own
    else ((c.twins.zip l).find? (fun x => decide (x.1 / c.place.p = k))).elim [] (fun x => x.2))).flatten

/-- The same within the pod, by in-pod index. -/
def Coll.byMate (c : Coll) (own : List (Option Nat)) (l : List (List (Option Nat))) : List (List (Option Nat)) :=
  (List.range c.place.p).map (fun i =>
    if i = c.place.i then own
    else ((c.mates.zip l).find? (fun x => decide (x.1 % c.place.p = i))).elim [] (fun x => x.2))

/-- Step 3's reduction has its contributions. -/
def State.collAcross (s : State) (slot : Nat) (c : Coll) (l : List (List (Option Nat))) : State :=
  let pl := c.place
  if c.op = 0 then
    let y := s.foldAll c.rop c.ty (slice c.acc (c.sub pl.pod) :: l)
    let c' := { c with acc := y.2.1, flg := c.flg ||| y.2.2, ph := 3 }
    (y.1.setColl slot c').collData slot c' 9 (c.twins.map (fun r => (r, c'.acc)))
  else if c.op = 1 then
    let y := s.foldAll c.rop c.ty (c.acc :: l)
    y.1.setColl slot { c with acc := y.2.1, flg := c.flg ||| y.2.2, ph := 5 }
  else if c.op = 2 then
    let c' := { c with acc := c.byPod c.acc l, ph := 4 }
    (s.setColl slot c').collData slot c' 4 (c.mates.map (fun r => (r, c'.acc)))
  else
    let c' := { c with acc := if c.rank = c.root then c.acc else l.headD c.acc, ph := 4 }
    let s := s.setColl slot c'
    if c.rank % pl.p = c.root % pl.p then s.collData slot c' 4 (c.mates.map (fun r => (r, c'.acc))) else s

/-- Step 4 has its blocks. -/
def Coll.gather (c : Coll) (l : List (List (Option Nat))) : Coll :=
  let c' := { c with ph := 5 }
  if c.op = 0 then { c' with acc := (c.byMate c.acc l).flatten }
  else if c.op = 2 then
    let bl := c.byMate c.acc l
    { c' with acc := ((List.range c.gsz).map (fun r => slice (bl.getD (r % c.place.p) []) (r / c.place.p * c.count, c.count))).flatten }
  else { c' with acc := if l.isEmpty then c.acc else l.headD [] }

/-- Step 5: every local output receives the result. -/
def State.collOut (s : State) (slot : Nat) (c : Coll) : State :=
  let wr (a : Nat ⊕ State) (x : Word × Word) : Nat ⊕ State :=
    match a with
    | .inl e => .inl e
    | .inr s => s.collWrite slot c x.2 c.acc
  match c.ltab.foldl wr (.inr s) with
  | .inl e => s.collFault slot c e true
  | .inr s =>
    let p := c.acc.any (fun x => x.isNone)
    s.setColl slot { c with ph := 9, res := c.acc.length, code := if p then 6 else c.code }

/-- The next step of a member, when what it waits for has come. -/
def State.collStep (s : State) (slot : Nat) (c : Coll) : Option State :=
  let pl := c.place
  match c.ph with
  | 0 => some (s.collStart slot c)
  | 1 => ((c.got 2 (if c.op < 2 then c.mates else []))).map (s.collPod slot c)
  | 2 =>
    let from' :=
      if c.op = 0 ∨ c.op = 2 then c.twins
      else if c.op = 1 then c.far
      else if c.rank % pl.p = c.root % pl.p ∧ c.rank ≠ c.root then [c.root] else []
    (c.got 3 from').map (s.collAcross slot c)
  | 3 =>
    (c.got 9 c.twins).map (fun l =>
      let c' := { c with acc := c.byPod c.acc l, ph := 4 }
      (s.setColl slot c').collData slot c' 4 (c.mates.map (fun r => (r, c'.acc))))
  | 4 =>
    let from' :=
      if c.op = 0 ∨ c.op = 2 then c.mates
      else if c.rank % pl.p = c.root % pl.p then [] else [pl.pod * pl.p + c.root % pl.p]
    (c.got 4 from').map (fun l => s.setColl slot (c.gather l))
  | 5 => some (s.collOut slot c)
  | _ => none

/-- Whether a member may move: it has GO, no fault has ended it, and the job runs (R461). -/
def State.collMoves (s : State) (slot : Nat) (c : Coll) : Bool :=
  decide (c.go = some true) && decide (c.code ≠ 7) && decide (s.rs slot = 0) && s.jobValid slot &&
    decide ((s.jtime slot).toNat ≤ c.d.toNat)

/-- Steps one after another, until the member waits. -/
def collRun (slot num : Nat) : Nat → State → State
  | 0, s => s
  | k + 1, s =>
    match s.coll slot num with
    | none => s
    | some c =>
      if s.collMoves slot c then
        match s.collStep slot c with
        | some s => collRun slot num k s
        | none => s
      else s

/-- A member's message reaches this package. -/
def State.collIn (s : State) (jid : Nat) (bs : List Byte) : State :=
  let n (lo k : Nat) : Nat := leNat ((bs.drop lo).take k)
  match s.slotOf jid with
  | none => s
  | some slot =>
    let code := n 0 1
    let crc : BitVec 32 := BitVec.ofNat 32 (n 3 4)
    if code = 0 then
      s.shakeIn slot { job := slot, crc := crc, ordinal := n 7 4, rank := n 1 2, fp := wOf (n 11 8), utag := wOf (n 19 8)
                       root := BitVec.ofNat 16 (n 27 2) }
    else
      match s.collAt slot crc (n 7 4) with
      | none => if code = 6 then s.coordFault slot crc (n 7 4) (n 11 1) else s
      | some c =>
        if code = 8 ∨ code = 7 then
          if c.go.isSome then s else s.setColl slot { c with go := some (decide (code = 8)) }
        else if code = 6 then (if c.code = 7 then s else s.collFault slot c (n 11 1) false)
        else
          let m : CollMsg := { ph := code, rank := n 1 2, part := n 11 1, of := n 12 1, els := elsFrom (collEs c.ty) (bs.drop 13) }
          collRun slot c.num 8 (s.setColl slot { c with inbox := c.inbox ++ [m] })

/-- `COLLECTIVE_GO`: what the coordinator answered has reached the member; after GO it carries out its steps as far
as it can. -/
def execCollectiveGo (job num : Nat) (ok : Bool) (s : State) : Out :=
  .next (match s.coll job num with
    | none => s
    | some c => if c.go = some ok then collRun job num 8 s else s)

/-! ## Completion (R460) -/

/-- The status with which a member completes now; none while it runs on, or its job is stopped (R461). -/
def State.collStatus (s : State) (job : Nat) (c : Coll) : Option (Nat × Word) :=
  if s.jobValid job && s.held job then none
  else if c.go = some false then some (5, 0)
  else if c.code = 7 then some (7, c.det)
  else if c.ph = 9 then some (c.code, if c.code = 6 then c.det else 0)
  else if s.jobValid job = false then some (3, 0)
  else if c.d.toNat < (s.jtime job).toNat then some (1, 0)
  else none

/-- A member completes: the record, the counter, the dependence counter; the number is free. -/
def State.collEnd (s : State) (job num : Nat) : State :=
  match s.coll job num with
  | none => s
  | some c =>
    match s.collStatus job c with
    | none => s
    | some (code, det) =>
      let j := s.job job
      let s1 := s.setJob job { j with
        colls := j.colls.filter (fun x => decide (x.num ≠ num))
        coord := if code = 0 ∧ c.rank = 0 ∧ 1 < c.gsz then j.coord ++ [{ c with inbox := [], acc := [] }] else j.coord }
      let q : QEntry := { word := 0, code := code, det := det, flg := c.flg
                          res := wOf (if code = 0 ∨ code = 6 then c.res else 0) }
      let s2 := if c.cfl.getLsbD 0 then s1.putBytes (hamperBase + c.crec) (recBytes q (s.jtime job)) else s1
      let s3 := if c.cfl.getLsbD 1 then s2.bumpCtr (s.ctrBase job + c.ctr) (s.jobid job) else s2
      if c.cfl.getLsbD 2 then s3.sendDep c.dep else s3

/-- `COLLECTIVE_COMPLETION`. -/
def execCollectiveCompletion (job num : Nat) (s : State) : Out := .next (s.collEnd job num)

/-- What a stop of a job has held back of its collectives goes out once it runs (R461); with the end of the job they
complete (R460). -/
def State.dueColl (s : State) (slot : Nat) : State :=
  let j := s.job slot
  if s.jobValid slot = false then (j.colls.map (fun c => c.num)).foldl (fun s k => s.collEnd slot k) s
  else if s.held slot then s
  else
    let late := j.coord.filter (fun c => decide (c.code = 7))
    let s := s.setJob slot { j with coord := j.coord.filter (fun c => decide (c.code ≠ 7)) }
    let s := late.foldl (fun s c => s.spread slot c) s
    j.colls.foldl (fun s c =>
      if c.code = 7 ∧ c.told = false then s.spread slot c
      else if c.go.isNone then s.coordinate slot c.crc c.ordinal
      else s) s

def State.dueColls (s : State) : State := (s.jobs.map (fun j => j.1)).foldl State.dueColl s

end Sys2Proof.Machine
end

