-- ==== Sys2Proof/Machine/Fabric.lean ====
section
/-! DEFINITION. Seam links and the Jarenare fabric: the topology, packets and their order, what an arriving packet
does, flits, link widths, and time across the pod (R422 to R436). -/

namespace Sys2Proof.Machine

/-- What a step answers, as a state. -/
def outState (s : State) : Out → State
  | .next t => t
  | _ => s

/-! ## Topology (R425, R426) -/

/-- The product of two elements of GF(32), modulo x⁵ + x² + 1. -/
def gfMul (a b : Nat) : Nat :=
  let p := (List.range 5).foldl (fun r i => if b.testBit i then r ^^^ (a * 2 ^ i) else r) 0
  [8, 7, 6, 5].foldl (fun r i => if r.testBit i then r ^^^ (37 * 2 ^ (i - 5)) else r) p

/-- The point that a `pkgid` names. -/
def pointOf (p : Nat) : Nat × Nat × Nat :=
  if p = 0 then (0, 0, 1) else if p ≤ 32 then (0, 1, p - 1) else (1, (p - 33) / 32, (p - 33) % 32)

def joined (x y : Nat) : Bool :=
  let a := pointOf x
  let b := pointOf y
  decide (x ≠ y) && decide (gfMul a.1 b.1 ^^^ gfMul a.2.1 b.2.1 ^^^ gfMul a.2.2 b.2.2 = 0)

/-- The neighbour by a port: the i-th in ascending `pkgid`. -/
def portPkg (x i : Nat) : Nat := (((List.range 1057).filter (fun y => joined x y))[i]?).getD 0

/-- The `pkgid` of the representative of a non-zero triple: it is divided by its first non-zero coordinate. -/
def pkgOf (t : Nat × Nat × Nat) : Nat :=
  let inv (k : Nat) : Nat := ((List.range 32).find? (fun q => decide (gfMul q k = 1))).getD 0
  if t.1 ≠ 0 then 33 + 32 * gfMul t.2.1 (inv t.1) + gfMul t.2.2 (inv t.1)
  else if t.2.1 ≠ 0 then 1 + gfMul t.2.2 (inv t.2.1)
  else 0

/-- The package between two that are no neighbours: their cross product (R427). -/
def midOf (x y : Nat) : Nat :=
  let a := pointOf x
  let b := pointOf y
  pkgOf (gfMul a.2.1 b.2.2 ^^^ gfMul a.2.2 b.2.1, gfMul a.2.2 b.1 ^^^ gfMul a.1 b.2.2, gfMul a.1 b.2.1 ^^^ gfMul a.2.1 b.1)

/-- The packages of the minimal path from x to y, after x (R427). -/
def minPath (x y : Nat) : List Nat := if joined x y then [y] else [midOf x y, y]

/-- The port that a neighbour is cabled to: its rank among the neighbours (R426). -/
def portTo (x y : Nat) : Nat := ((List.range y).filter (fun z => joined x z)).length

/-- The first port of the minimal path. -/
def minPort (x y : Nat) : Nat := portTo x ((minPath x y).headD y)

/-- The route entry that firmware writes for a destination, with the alternatives it chose (R428): up to four packages
other than the source and the destination. -/
def routeEntry (x y : Nat) (alts : List Nat) : Word :=
  let l := (alts.filter (fun a => decide (a ≠ x ∧ a ≠ y ∧ a < 1057))).take 4
  wOf (2 ^ 63 + boolNat (decide ((minPath x y).length = 2)) * 2 ^ 62 + (2 ^ l.length - 1) * 2 ^ 58 +
    ((l.zip (List.range 4)).map (fun c => c.1 * 2 ^ (12 + 11 * c.2))).sum + minPort x y)

/-- The routing table of a package in a pod of some packages. -/
def podRoutes (x : Nat) (pod : List (Nat × List Nat)) : Tbl Word :=
  (pod.filter (fun y => decide (y.1 ≠ x ∧ y.1 < 1057))).foldl (fun t y => tset 0 t y.1 (routeEntry x y.1 y.2)) []

/-! ## Packets (R430) -/

/-- Another kind, or a reserved field that is not 0. -/
def pktBad (p : FabPkt) : Bool :=
  decide (8 < p.kind.toNat) || decide (2048 ≤ p.src.toNat) || decide (2048 ≤ p.dst.toNat) || decide (2048 ≤ p.via.toNat) ||
    decide (8 ≤ p.path.toNat) || decide (8 ≤ p.hop.toNat) || decide (2 ^ 45 ≤ p.addr.toNat) || decide (256 < p.len.toNat) ||
    decide (p.len.toNat ≠ p.payload.length)

/-- The core and the offset of an address of a scratchpad in a packet (notes/assumptions/13.md). -/
def padOf (a : Nat) : Option (Nat × Nat) :=
  if 0x180000000000 ≤ a ∧ a < 0x180080000000 then some ((a - 0x180000000000) / 2 ^ 19, a % 2 ^ 19) else none

/-! ## Accesses of another package at their target (R227, R240, R244, R245, R317, R325) -/

/-- The refusal of an access to a core's scratchpad. -/
def State.padDenied (s : State) (c m : Nat) (p : Perm) : Bool := (s.core c).retired || !s.allows 1 (c / 256) m p

/-- A write at its target, and its answer: a refusal, a write performed at once, or one of HBM that waits for a write slot.
A page that has moved is written at its new frame (R241).  A posted write that meets an uncorrectable error is not
performed at all (R227). -/
def State.writeIn (s : State) (p : FabPkt) : State :=
  let m := midPkg p.src.toNat
  let no (s : State) (c : Nat) : State := s.ackWrite p c none
  match padOf p.addr.toNat with
  | some (c, off) =>
    let cs := pktCells p off
    let ks := cs.map (fun x => (spadKey c x.1, x.2))
    if s.padDenied c m .w then no s 0x09
    else
      match (if p.mid.toNat / 2 ^ 13 = 0 then ks.find? (fun x => s.suppressed ks (fun _ => false) x.1) else none) with
      | some x => s.ackWrite p 0x0A (some (granuleBase x.1))
      | none => (s.padCells c cs (pktPois p off)).ackWrite p 0 none
  | none =>
    let a := s.homeOf p.addr.toNat
    if memKind a = .none ∨ memKind a = .spad then no s 0x09
    else
      match s.refuses m a p.payload.length .w with
      | some c => no (s.cxlEvent a c) c
      | none =>
        if memKind a = .hbm then { s with inq := s.inq ++ [{ pkt := p, addr := a }] }
        else
          ((s.writeCells ((pktCells p a).map (mergeCell s.mem (pktBits p a)))).mark (pktPois p a)).ackWrite p 0 none

/-- A read at its target. -/
def State.readIn (s : State) (p : FabPkt) : ReadAns :=
  let m := midPkg p.src.toNat
  let a := p.addr.toNat
  let k := leNat (p.payload.take 2)
  match padOf a with
  | some (c, off) =>
    if s.padDenied c m .r then .refused 0x09
    else if (s.leasedAt c off k).isSome then .refused 0x02
    else if s.spadPoison c off k then .poison 0
    else .data (s.spadRead c off k)
  | none => if memKind (s.homeOf a) = .none then .refused 0x09 else s.answer m (s.homeOf a) k

/-- The response of a read: its data, or what stands in its place (notes/assumptions/13.md). -/
def State.sendRead (s : State) (p : FabPkt) (r : ReadAns) : State :=
  let out (addr : Nat) (bs : List Byte) : State := s.inject 3 p.src.toNat p.mid.toNat p.path.toNat (wOf addr) p.aux bs
  match r with
  | .data bs => out 0 bs
  | .poison d => out (2 ^ 44 + d.toNat) []
  | .refused c => out c.toNat []
  | .stale => out 0xFF []

/-- An atomic at its target, and its answer: at once, or for HBM when it takes a write slot.  One of another package is
counted for none of the nine agents of R241 (notes/assumptions/21.md). -/
def State.atomIn (s : State) (p : FabPkt) : State :=
  let m := midPkg p.src.toNat
  let no (s : State) (c : Nat) : State := s.answerAtom p c [] 0 none
  let run (s : State) (key : Nat) : State :=
    let r := s.runAtom p key (fun _ => false)
    r.st.answerAtom p (if r.bad.isSome then 0x0A else 0) r.old r.fl r.bad
  let k := p.payload.length - 10
  match padOf p.addr.toNat with
  | some (c, off) =>
    if s.padDenied c m .at then no s 0x09
    else if (s.leasedAt c off k).isSome then no s 0x02
    else run (s.markDirty c off k) (spadKey c off)
  | none =>
    let a := s.homeOf p.addr.toNat
    if memKind a = .none ∨ memKind a = .spad then no s 0x09
    else
      match s.refuses m a k .at with
      | some c => no (s.cxlEvent a c) c
      | none => if memKind a = .hbm then { s with inq := s.inq ++ [{ pkt := p, addr := a }] } else run s a

/-- An append at its target: the code of its answer and the index. -/
def State.appendIn (s : State) (p : FabPkt) : State × Nat × Nat :=
  match padOf p.addr.toNat with
  | none => (s, 3, 0x08)
  | some (c, off) =>
    if s.padDenied c (midPkg p.src.toNat) .w then (s, 3, 0x09)
    else
      match s.appendAt c off p.payload p.pois with
      | .leased => (s, 3, 0x02)
      | .bad g => (s, 5, g)
      | .invalid => (s, 2, 0)
      | .full => (s, 1, 0)
      | .ok s i o => (s, if o then 4 else 0, i)

/-! ## Answers reach the initiator (R226, R316, R327, R432) -/

/-- A posted write's acknowledgement: the write whose packet began at an address of another package is done. -/
def State.ackPosted (s : State) (n src addr cause : Nat) : State :=
  let k := s.core n
  match k.posted.findIdx? (fun p => decide (p.pkg = src) && p.data.any (fun x => decide (padAddr p.tgt x.1 = addr))) with
  | none => s
  | some i =>
    match k.posted[i]? with
    | none => s
    | some p => s.postDone n i p (if cause = 0 then none else some cause)

/-- The oldest started packet of a core's copy engine with a write that is still to be answered. -/
def State.ceWaits (s : State) (n : Nat) (e : Eng) : Option QEntry :=
  let g := (s.fg n).eng e
  (g.lane ++ g.q).find? (fun q => q.started && decide (0 < q.outst))

/-- The granule that an answer with an uncorrectable error names (R245). -/
def badGranule (cause : Nat) (bs : List Byte) : Option Word := if cause = 0x0A then some (wOf (leNat (bs.take 8))) else none

/-- The answer to a packet's access that left the package, found by its target and address: it is counted and frees its
entries of the store queue; an uncorrectable error is reported as R245 gives, and any other cause stops the engine at
the piece. -/
def State.ceAnswer (s : State) (n : Nat) (e : Eng) (src addr cause : Nat) (fl : BitVec 6) (bad : Option Word) : State :=
  let ce1 := decide (e = .ce1)
  let k := s.core n
  match k.farw.find? (fun w => decide (w.ce1 = ce1 ∧ w.pkg = src ∧ w.addr = addr)) with
  | none => s
  | some w =>
    let gone (x : FarWr) : Bool := decide (x.ce1 = ce1 ∧ x.ord = w.ord ∧ x.pkg = src ∧ x.addr / 256 = addr / 256)
    let s := (s.setCore n { k with farw := k.farw.filter (fun x => !gone x) }).modFg n (fun c => c.wrote ce1 w.ord fl bad)
    if cause = 0 ∨ cause = 0x0A then s else s.stopFault n e cause (wOf addr)

/-- The same for the Hamper's copy engines: the oldest packet that waits. -/
def State.hcAnswer (s : State) (cause : Nat) (fl : BitVec 6) (old : Option Nat) (bad : Option Word) : State :=
  match s.hamper.copies.find? (fun h => decide (0 < h.entry.outst)) with
  | none => s
  | some h =>
    let s := match old, h.entry.instr with
      | some v, some (.fop p) => s.putOld h.cx (some (Packet.par' p 24 8)) [v] (elBytes (cmdTy p))
      | some v, some (.cas p) => s.putOld h.cx (some (Packet.par' p 32 8)) [v] (elBytes (cmdTy p))
      | _, _ => s
    let q := { h.entry with outst := h.entry.outst - 1, flg := h.entry.flg ||| fl }
    let q := match bad with
      | some d => q.note 6 d
      | none => if cause = 0 then q else { q.note 7 (wOf cause) with fin := true }
    (s.setHcopy { h with entry := q }).moveHcopy h.eng

/-- The copy engine of a master ID of class 1. -/
def midEng (m : Nat) : Eng := if m / 2 ^ 12 % 2 = 1 then .ce1 else .ce0

/-- The message that a packet's acknowledgement concerns (R353). -/
def State.ackMsg (s : State) (src key : Nat) (ok : Bool) : State :=
  match s.hamper.sent.find? (fun x => decide (x.dest.toNat = 2 ^ 62 + src ∧ x.key = key)) with
  | some x => (s.dropSent x).ackSend x ok
  | none => s

/-- A write acknowledgement. -/
def State.ackIn (s : State) (p : FabPkt) : State :=
  let m := p.mid.toNat
  let cause := wfld p.aux 31 0
  if m / 2 ^ 13 = 0 then s.ackPosted (m % 4096) p.src.toNat p.addr.toNat cause
  else if m / 2 ^ 13 = 1 then s.ceAnswer (m % 4096) (midEng m) p.src.toNat p.addr.toNat cause 0 (badGranule cause p.payload)
  else if wfld p.aux 63 32 = 1 then s.ackMsg p.src.toNat cause (decide (p.addr = 0))
  else if p.path = 3 then s.hcAnswer cause 0 none (badGranule cause p.payload)
  else s

/-- The answer to an append (R325): the index, a full queue, or a header that is not valid. -/
def State.appendAnswer (s : State) (n : Nat) (e : Eng) (q : QEntry) (retry : Bool) (code v : Nat) : State :=
  let put (q : QEntry) : State := s.modFg n (fun c =>
    let g (x : QEntry) : QEntry := if x.started ∧ x.ord = q.ord then { q with outst := q.outst - 1 } else x
    c.setEng e { c.eng e with q := (c.eng e).q.map g, lane := (c.eng e).lane.map g })
  if code = 0 then put { q with res := wOf v }
  else if code = 4 then put { q.note 7 0x07 with res := wOf v }
  else if code = 5 then put (q.note 6 (wOf v))
  else if code = 3 then (put q).stopFault n e v 0
  else if code = 1 ∧ retry = true then put { q with piece := 0, fin := false }
  else put (q.note 4 0)

/-- An atomic response: an atomic's old element and flags, or the answer to an append. -/
def State.respIn (s : State) (p : FabPkt) : State :=
  let m := p.mid.toNat
  let a := leNat (p.payload.take 8)
  let b := leNat ((p.payload.drop 8).take 1)
  let cause := wfld p.aux 31 0
  let bad := badGranule cause (p.payload.drop 9)
  let fl : BitVec 6 := BitVec.ofNat 6 b
  if m / 2 ^ 13 = 1 then
    let n := m % 4096
    let e := midEng m
    if p.payload.length = 9 ∧ b = 7 ∧ p.addr = 0 then s.stopFault n e 0x07 (wOf a)
    else match s.ceWaits n e with
    | none => s.ceAnswer n e p.src.toNat p.addr.toNat cause fl bad
    | some q =>
      let x := s.cxOf n e q.ord
      match q.instr with
      | some (.qappend r) => s.appendAnswer n e q (r.cmd.fl.getLsbD 0) b a
      | some (.sigrem _) => s.appendAnswer n e q false (if b = 3 then 3 else if b = 4 then 4 else 0) a
      | some (.fop r) =>
        (if cause = 0 then s.putOld x (some (Packet.par' r 24 8)) [a] (elBytes (cmdTy r)) else s).ceAnswer
          n e p.src.toNat p.addr.toNat cause fl bad
      | some (.cas r) =>
        (if cause = 0 then s.putOld x (some (Packet.par' r 32 8)) [a] (elBytes (cmdTy r)) else s).ceAnswer
          n e p.src.toNat p.addr.toNat cause fl bad
      | _ => s.ceAnswer n e p.src.toNat p.addr.toNat cause fl bad
  else
    match s.hamper.copies.find? (fun h => decide (0 < h.entry.outst)) with
    | none => s
    | some h =>
      match h.entry.instr with
      | some (.qappend r) =>
        let q := { h.entry with outst := h.entry.outst - 1 }
        let q := if b = 0 then { q with res := wOf a } else if b = 4 then { q.note 7 0x07 with res := wOf a }
          else if b = 5 then q.note 6 (wOf a)
          else if b = 3 then q.note 7 (wOf a) else if b = 1 ∧ r.cmd.fl.getLsbD 0 = true then { q with piece := 0, fin := false }
          else q.note 4 0
        (s.setHcopy { h with entry := q }).moveHcopy h.eng
      | some (.sigrem _) =>
        let q := { h.entry with outst := h.entry.outst - 1 }
        (s.setHcopy { h with entry := if b = 4 then q.note 7 0x07 else if b = 3 then q.note 7 (wOf a) else q }).moveHcopy h.eng
      | _ => s.hcAnswer cause fl (if cause = 0 then some a else none) bad

/-! ## Control payloads (R430, R439; their layout is the model's, notes/assumptions/13.md) -/

/-- Indices that another package's scheduler hands to this one (R363); the launch's number shows how far the job's count
has gone (R200). -/
def State.shareIn (s : State) (slot num lo n : Nat) (rdy : Word) (d : Desc) : State :=
  let l0 : Launch := { job := slot, num := num, desc := d, grp := 0, rdy := (rdy - s.slew).toNat, home := false }
  let put (l : Launch) : Launch :=
    if d.timed then
      match s.dom slot d.tdom with
      | some m => l.spread lo n ((List.range 16).filter m.hasCl)
      | none => l
    else l.overDies lo n (List.range 8)
  let j := s.job slot
  let s := if (num + 2 ^ 32 - j.launches) % 2 ^ 32 < 2 ^ 31 then s.setJob slot { j with launches := (num + 1) % 2 ^ 32 } else s
  match s.launch slot num with
  | some l => if l.home then s else s.setLaunch (put { l with rdy := l0.rdy })
  | none => { s with sch := { s.sch with launches := s.sch.launches ++ [put l0] } }

/-- Another package's report reaches the Hamper of the job's first package (R368). -/
def State.reportSum (s : State) (slot num extra : Nat) (d : Desc) : State :=
  let l0 : Launch := { job := slot, num := num, desc := d, grp := 0, rdy := s.now, home := false }
  let s : State := if (s.launch slot num).isSome then s else { s with sch := { s.sch with launches := s.sch.launches ++ [l0] } }
  s.addReport slot num extra

/-- A kill of a launch's tasks that another package decided (R391). -/
def State.killIn (s : State) (slot num : Nat) (retry : Bool) : State :=
  let d := ((s.launch slot num).map (fun l => l.desc)).getD {}
  s.killGroup { job := slot, num := num, desc := d } 5 0 retry

/-- The origins of a payload: 16 bytes each. -/
def originsOf : Nat → List Byte → List (Word × Word)
  | 0, _ => []
  | k + 1, bs => if bs.length < 16 then [] else (wOf (leNat (bs.take 8)), wOf (leNat ((bs.drop 8).take 8))) :: originsOf k (bs.drop 16)

/-- A control payload of a job acts at this package. -/
def State.ctrlIn (s : State) (bs : List Byte) : State :=
  let n (lo k : Nat) : Nat := leNat ((bs.drop lo).take k)
  let tag := n 0 1
  let job (f : Nat → State) : State :=
    match s.slotOf (n 1 4) with
    | some slot => f slot
    | none => s
  let bar (slot : Nat) : BarKey := { job := slot, scope := n 5 1, grp := 0, num := n 6 8 }
  let ans : BarAns := match n 30 1 with
    | 1 => .joined (BitVec.ofNat 16 (n 31 8))
    | 2 => .completed (BitVec.ofNat 16 (n 31 8))
    | 3 => .broken (BitVec.ofNat 16 (n 31 8))
    | 4 => .withdrawn
    | 5 => .mismatch
    | _ => .noRecord
  match tag with
  | 1 => job (fun j => s.takeWave j (wOf (n 5 8)) (wOf (n 13 8)) false)
  | 3 => job (fun j =>
      if n 14 16 / 2 ^ 64 = s.ownKey then
        { s with sch := { s.sch with barAns := s.sch.barAns ++ [⟨bar j, n 14 16, ans, s.now⟩] } }
      else s)
  | 4 => job (fun j =>
      if s.homeHere (bar j) then
        { s with sch := { s.sch with
          barArr := s.sch.barArr ++ [⟨bar j, n 14 16, BitVec.ofNat 32 (n 31 8), decide (n 30 1 = 1), s.now⟩] } }
      else s)
  | 5 => job (fun j =>
      if s.homeHere (bar j) = false then s
      else if n 30 1 = 2 then s.breakPhase (bar j) (n 14 16)
      else
        { s with sch := { s.sch with
          barWdr := s.sch.barWdr ++ [⟨bar j, n 14 16, BitVec.ofNat 16 (n 31 8), decide (n 30 1 = 1), s.now⟩] } })
  | 6 => job (fun j => s.shareIn j (n 5 4) (n 9 4) (n 13 4) (wOf (n 17 8)) (descOf (n 25 64)))
  | 8 => job (fun j => s.reportSum j (n 5 4) (n 9 4) (descOf (n 13 64)))
  | 9 => job (fun j => s.gangReport j (n 5 8))
  | 10 => job (fun j => s.setJob j { s.job j with ts := some (wOf (n 5 8)) })
  | 11 => job (fun j => s.setJob j { s.job j with gang := some (wOf (n 5 8), wOf (n 13 8)) })
  | 12 => job (fun j => outState s (execResumeWaveArrival j (wOf (n 5 8)) (wOf (n 13 8)) s))
  | 13 => job (fun j => s.settleIn j (wOf (n 5 8)) (n 13 4) (originsOf (n 13 4) (bs.drop 17)))
  | 14 => job (fun j => s.reportIn j (n 5 4) (wOf (n 9 8)) (originsOf 12 (bs.drop 17)))
  | 25 => job (fun j => s.setJob j ((s.job j).addOrigins (originsOf 12 (bs.drop 5))))
  | 15 => job (fun j => s.event 0x25 (wOf (n 5 4 % 2048)) (s.jobid j) [])
  | 16 => job (fun j => s.killIn j (n 5 8) (decide (n 13 1 = 1)))
  | 17 => job (fun j => s.decideFar j (n 5 4) (n 9 4) (n 13 8) (BitVec.ofNat 14 (n 21 2)))
  | 18 => job (fun _ => if n 5 4 = s.pkgid then s.decidedFar (n 9 4) (n 13 1) (n 14 1) else s)
  | 24 => job (fun j => s.bumpCtr (s.ctrBase j + n 5 2) (s.jobid j))
  | 20 => job (fun j => s.stolenFrom j (n 5 4) (n 9 4) (n 13 1))
  | 21 => job (fun j => s.stolenBy j (n 5 4) (n 13 1) (n 14 4) (n 18 4) (wOf (n 22 8)))
  | _ => s

/-! ## Messages (R338, R346) -/

/-- A message that has arrived whole: a control payload, a collective's, or one for the match unit. -/
def State.messageIn (s : State) (m : Msg) : State × Bool :=
  if m.kind = 1 ∧ m.port.toNat = ctrlPort then (s.ctrlIn m.payload, true)
  else if m.kind = 1 ∧ m.port.toNat = collPort then (s.collIn m.jobid.toNat m.payload, true)
  else s.arriveMsg m

/-- `MESSAGE_ARRIVAL_CTRL` (R338): what the hardware's own ports carry acts at once; any other message is the match
unit's. -/
def execMessageArrivalCtrl (m : Msg) (s : State) : Out :=
  .next (
    if m.kind ≠ 1 then s
    else if m.port.toNat = ctrlPort ∨ m.port.toNat = collPort then (s.messageIn m).1
    else s.messageArrival m)

/-- A part of a message: with the last, the message has arrived, and its acknowledgement leaves. -/
def State.partIn (s : State) (p : FabPkt) : State :=
  let src := p.src.toNat
  let bs := if p.addr = 0 then p.payload else tget [] s.fab.parts src ++ p.payload
  let m := msgOf (leNat (bs.take 32)) (bs.drop 32)
  if bs.length < 32 ∨ bs.length < 32 + m.len.toNat then { s with fab := { s.fab with parts := tset [] s.fab.parts src bs } }
  else
    let s : State := { s with fab := { s.fab with parts := tset [] s.fab.parts src [] } }
    let r := s.messageIn { m with src := p.src }
    r.1.inject 1 src p.mid.toNat 4 (if r.2 then 0 else 1) (wOf (2 ^ 32 + p.aux.toNat)) []

/-- A signal (R430): an append to a queue, a decrement of a dependence counter, an increment of a Hamper counter or of a
semaphore; its payload says which (notes/assumptions/13.md).  It carries class 6 at its target (R240): the cluster's
external port for a semaphore or a named-task slot, the Hamper queues for a counter (notes/assumptions/60.md). -/
def State.signalIn (s : State) (p : FabPkt) : State :=
  let t := p.aux.toNat
  let m := midPkg p.src.toNat
  let sig (u i a : Nat) : Sig := { unit := u, idx := i, amt := a, src := p.src.toNat, mid := p.mid.toNat }
  match p.payload.length with
  | 64 =>
    let r := s.appendIn p
    r.1.inject 5 p.src.toNat p.mid.toNat p.path.toNat p.addr 0 (leBytes 8 r.2.2 ++ leBytes 1 r.2.1)
  | 1 =>
    if s.allows 1 (fld t 15 12) m .w = false then s.answerSig (sig 0 0 0) 3 0x09
    else { s with sch := { s.sch with depOut := s.sch.depOut ++ [sig (fld t 15 12) (fld t 11 0) (fld t 47 32)] } }
  | 0 =>
    if s.allows 1 (fld t 19 16) m .w = false then s.answerSig (sig 0 0 0) 3 0x09
    else
      { s with sch := { s.sch with sigIn := s.sch.sigIn ++ [sig (coreNum (fld t 19 16) (fld t 15 8)) (t % 256) p.addr.toNat] } }
  | _ =>
    let jid := leNat (p.payload.take 4)
    match s.slotOf jid with
    | some slot => if s.allows 3 0 m .w = false then s else s.bumpCtr (s.ctrBase slot + wfld p.aux 15 0) jid
    | none => s

/-! ## Delivery (R431) -/

/-- What the package does with a packet that is delivered to it. -/
def State.deliver (s : State) (p : FabPkt) : State :=
  let src := p.src.toNat
  let mid := p.mid.toNat
  match p.kind.toNat with
  | 0 => s.writeIn p
  | 1 => s.ackIn p
  | 2 => s.sendRead p (s.readIn p)
  | 3 =>
    let r : ReadAns :=
      if p.payload.isEmpty = false then .data p.payload
      else if 2 ^ 44 ≤ p.addr.toNat then .poison (wOf (p.addr.toNat - 2 ^ 44))
      else .refused (BitVec.ofNat 8 p.addr.toNat)
    outState s (execReadReplyArrival (mid % 4096) p.aux.toNat (some r) s)
  | 4 => s.atomIn p
  | 5 => s.respIn p
  | 6 => s.signalIn p
  | 7 => s.partIn p
  | _ =>
    let n (lo k : Nat) : Nat := leNat ((p.payload.drop lo).take k)
    if n 0 1 = 2 then s.tlbAsked src (n 1 1) (n 2 8) (n 10 8)
    else if n 0 1 = 22 then s.tlbTaken src (n 1 1) (n 2 8) (n 10 8)
    else s.ctrlIn p.payload

/-- The control packets that stand outside the sequence: an acknowledgement, and the mark of an abandoned `seq`. -/
def ackPayload (tag seq : Nat) : List Byte := leBytes 1 tag ++ leBytes 2 seq

/-- Sends such a packet. -/
def State.sendLoose (s : State) (dst : Nat) (payload : List Byte) : State :=
  if s.routed dst = false then s
  else
    s.emit { kind := 8, src := BitVec.ofNat 16 s.pkgid, dst := BitVec.ofNat 16 dst, via := 2047, path := 4, hop := 0, seq := 0
             mid := 0, len := BitVec.ofNat 16 payload.length, addr := 0, aux := 0, payload := payload }

/-- Acknowledges what has been delivered from a source: the next `seq` expected. -/
def State.sendAck (s : State) (src : Nat) : State :=
  ({ s with fab := { s.fab with rxOwed := tset 0 s.fab.rxOwed src 0, rxAt := tset 0 s.fab.rxAt src 0 } }).sendLoose src (ackPayload 0 (tget 0 s.fab.rxNext src))

/-- One more packet of a source is delivered: an acknowledgement is owed, and sent once for every 64. -/
def State.owe (s : State) (src : Nat) : State :=
  let k := tget 0 s.fab.rxOwed src + 1
  let t := if k = 1 then s.now + 1 else tget 0 s.fab.rxAt src
  let s : State := { s with fab := { s.fab with rxOwed := tset 0 s.fab.rxOwed src k, rxAt := tset 0 s.fab.rxAt src t } }
  if 64 ≤ k then s.sendAck src else s

/-- Delivers the packets of a source that are next in `seq` order. -/
def drainRx (src : Nat) : Nat → State → State
  | 0, s => s
  | k + 1, s =>
    let q := tget 0 s.fab.rxNext src
    match s.fab.rxBuf.find? (fun p => decide (p.src.toNat = src ∧ p.seq.toNat = q)) with
    | none => s
    | some p =>
      let s : State := { s with fab := { s.fab with
        rxBuf := s.fab.rxBuf.erase p
        rxNext := tset 0 s.fab.rxNext src ((q + 1) % 2 ^ 16) } }
      drainRx src k ((s.owe src).deliver p)

/-- Injects what waits at the source and may now leave, in order (R431). -/
def pumpGo : List FabPkt → State → State
  | [], s => s
  | p :: r, s =>
    if s.mustWait p ∨ s.fab.out.any (fun x => decide (x.dst = p.dst)) = true then
      pumpGo r { s with fab := { s.fab with out := s.fab.out ++ [p] } }
    else pumpGo r (s.injectNow p)

def State.pump (s : State) : State := pumpGo s.fab.out { s with fab := { s.fab with out := [] } }

/-- An acknowledgement of a target: what lies before the `seq` it names is done. -/
def State.acked (s : State) (src seq : Nat) : State :=
  let done (t : TxPkt) : Bool :=
    decide (t.pkt.dst.toNat = src) && decide ((seq + 2 ^ 16 - 1 - t.pkt.seq.toNat) % 2 ^ 16 < 2 ^ 15)
  ({ s with fab := { s.fab with tx := s.fab.tx.filter (fun t => !done t) } }).pump

/-- A packet in the reorder buffer of its source: a duplicate is discarded, and acknowledged again. -/
def State.arrive' (s : State) (p : FabPkt) : State :=
  let src := p.src.toNat
  let d := (p.seq.toNat + 2 ^ 16 - tget 0 s.fab.rxNext src) % 2 ^ 16
  if 2 ^ 15 ≤ d then s.owe src
  else if 512 ≤ d ∨ s.fab.rxBuf.any (fun x => decide (x.src = p.src ∧ x.seq = p.seq)) = true then s
  else
    let s : State := { s with fab := { s.fab with rxBuf := s.fab.rxBuf ++ [p] } }
    drainRx src s.fab.rxBuf.length s

/-- A packet that passes through: one hop more, to its intermediate or its target (R429). -/
def State.transit (s : State) (p : FabPkt) : State :=
  let met := p.hop.getLsbD 2 || decide (p.via.toNat = s.pkgid)
  let hop := (p.hop.toNat + 1) % 4 + boolNat met * 4
  if s.routed (if met ∨ p.via = 2047 then p.dst.toNat else p.via.toNat) = false then s
  else s.emitOn (s.portOf (if met then 2047 else p.via.toNat) p.dst.toNat) { p with hop := BitVec.ofNat 8 hop }

/-- `FABRIC_PACKET_RECEIVE` (R430, R431): a packet reaches the package. -/
def execFabricPacketReceive (p : FabPkt) (s : State) : Out :=
  .next (
    if pktBad p then { s with fab := { s.fab with discards := s.fab.discards + 1 } }
    else if p.dst.toNat ≠ s.pkgid then s.transit p
    else
      let tag := (p.payload.headD 0xFF).toNat
      let q := leNat ((p.payload.drop 1).take 2)
      if p.kind = 8 ∧ tag = 0 then s.acked p.src.toNat q
      else if p.kind = 8 ∧ tag = 19 then s.arrive' { p with seq := BitVec.ofNat 16 q, payload := [0xFF], len := 1 }
      else s.arrive' p)

/-- `FABRIC_ACK_TIMER` (R431): what is delivered and not yet acknowledged is acknowledged. -/
def execFabricAckTimer (src : Nat) (s : State) : Out :=
  .next (if tget 0 s.fab.rxOwed src = 0 then s else s.sendAck src)

/-! ## Resending (R432) -/

/-- The initiator of an abandoned packet is told with cause 0x12. -/
def State.abandon (s : State) (p : FabPkt) : State :=
  let m := p.mid.toNat
  let dst := p.dst.toNat
  if p.kind = 0 ∧ m / 2 ^ 13 = 0 then s.ackPosted (m % 4096) dst p.addr.toNat 0x12
  else if (p.kind = 0 ∨ p.kind = 4) ∧ m / 2 ^ 13 = 1 then s.ceAnswer (m % 4096) (midEng m) dst p.addr.toNat 0x12 0 none
  else if p.kind = 6 ∧ m / 2 ^ 13 = 1 then
    match (if p.payload.length = 1 then none else s.ceWaits (m % 4096) (midEng m)) with
    | some q => s.appendAnswer (m % 4096) (midEng m) q false 3 0x12
    | none => s.stopFault (m % 4096) (midEng m) 0x12 p.addr
  else if (p.kind = 0 ∨ p.kind = 4) ∧ p.path = 3 then s.hcAnswer 0x12 0 none none
  else if p.kind = 7 then
    match s.hamper.sent.find? (fun x => decide (x.dest.toNat = 2 ^ 62 + dst ∧ x.key = p.aux.toNat)) with
    | none => s
    | some x =>
      let s := s.dropSent x
      if x.msg.port.toNat = collPort then
        match s.slotOf x.msg.jobid.toNat with
        | some slot =>
          match s.collAt slot (BitVec.ofNat 32 (leNat ((x.msg.payload.drop 3).take 4))) (leNat ((x.msg.payload.drop 7).take 4)) with
          | some c => if c.code = 7 then s else s.collFault slot c 0x12 true
          | none => s
        | none => s
      else
        s.endSend x (.refused 0x12)
  else s

/-- A resend takes the next valid alternative of the route entry. -/
def nextVia (r : Word) (tries : Nat) : Nat :=
  let alts := ((List.range 4).filter (fun i => r.getLsbD (58 + i))).map (fun i => wfld r (22 + 11 * i) (12 + 11 * i))
  if alts.isEmpty then 2047 else alts.getD (tries % alts.length) 2047

/-- Sends a packet once more; the fourth time its timer ends it is abandoned, and the target skips its `seq`. -/
def State.resend (s : State) (t : TxPkt) : State :=
  let dst := t.pkt.dst.toNat
  if 3 ≤ t.tries then
    let s : State := { s with fab := { s.fab with tx := s.fab.tx.filter (fun x => decide (x ≠ t)) } }
    ((s.sendLoose dst (ackPayload 19 t.pkt.seq.toNat)).abandon t.pkt).pump
  else
    let p := { t.pkt with via := BitVec.ofNat 16 (nextVia (tget 0 s.fab.route dst) t.tries) }
    let s : State := { s with fab := { s.fab with
      tx := s.fab.tx.map (fun (x : TxPkt) => if x = t then { pkt := p, sent := s.now, tries := t.tries + 1 } else x) } }
    s.emit p

/-- `PACKET_RESEND_TIMEOUT`: the oldest packet to a target that is due. -/
def execPacketResendTimeout (dst : Nat) (s : State) : Out :=
  .next (match s.fab.tx.find? (fun t => decide (t.pkt.dst.toNat = dst ∧ t.sent + 50000 ≤ s.now)) with
    | some t => s.resend t
    | none => s)

/-! ## Flits (R433) -/

/-- A flit is accepted: the 32nd since an `ack` left is answered by one at once, and what waited may go. -/
def Port.accept (o : Port) : Port :=
  let o := { o with rxNext := (o.rxNext + 1) % 4096, owed := o.owed + 1 }
  let o := Port.drain o.wait.length o
  if 32 ≤ o.owed ∧ o.sends 1 = true then o.sentIdle else o

/-- `FLIT_RECEIVE`: the CRC and the next `fsq` expected decide; its `ack` frees what the sender kept. -/
def execFlitReceive (port : Nat) (f : Flit) (s : State) : Out :=
  .next (
    let o := s.fport port
    if 33 ≤ port ∨ o.st = .retrain ∨ o.st = .lost then s
    else if f.crc ≠ crc32 (Flit.covered f.data f.fsq f.ack) ∨ f.data.length ≠ 56 ∨ 4096 ≤ f.ack.toNat then
      s.setPort' port { o with replays := o.replays + 1, errs := o.errs + 1 }
    else
      let kept := o.replay.filter (fun x =>
        decide (2048 ≤ (f.ack.toNat + 4096 - x.fsq.toNat % 4096) % 4096))
      let o := { o with replay := kept }
      if f.fsq.toNat % 4096 = o.rxNext then (s.setPort' port o.accept).pump
      else (s.setPort' port (Port.drain o.wait.length { o with replays := o.replays + 1 })).pump)

/-! ## Lanes and width (R434, R435) -/

/-- The lanes a port uses. -/
def Port.group (o : Port) : List Nat :=
  match o.st with
  | .x16 => List.range 16
  | .x8 => (List.range 8).map (fun k => 8 * o.grp + k)
  | .x4 => (List.range 4).map (fun k => 4 * o.grp + k)
  | _ => []

/-- `LANE_DOWN`: a lane goes down; one of the current group sends the link to retraining.  While it retrains, `full`
says that it was X16, and `grp` is 4 more where it was X4. -/
def execLaneDown (port lane : Nat) (s : State) : Out :=
  .next (
    let o := s.fport port
    if 33 ≤ port ∨ 16 ≤ lane ∨ o.lanes.getLsbD lane = false then s
    else
      let o' := { o with lanes := o.lanes &&& ~~~(1#16 <<< lane) }
      if o.group.contains lane then s.setPort' port { o' with
        st := .retrain, full := decide (o.st = .x16), grp := if o.st = .x4 then 4 + o.grp else o.grp, since := s.now }
      else s.setPort' port o')

/-- The width and the group that a retrain reaches: X8 where the link was X16, or in the other group where it was X8. -/
def Port.reach (o : Port) (mgmt : Bool) : Option (LinkSt × Nat) :=
  let up (lo k : Nat) : Bool := (List.range k).all (fun j => o.lanes.getLsbD (lo + j))
  let eight (g : Nat) : Bool := mgmt || o.full || (decide (o.grp < 4) && decide (g ≠ o.grp))
  if mgmt && up 0 16 then some (.x16, 0)
  else if eight 0 && up 0 8 then some (.x8, 0)
  else if eight 1 && up 8 8 then some (.x8, 1)
  else ((List.range 4).find? (fun k => up (4 * k) 4)).map (fun k => (.x4, k))

def widthOf : LinkSt → Nat
  | .x16 => 16
  | .x8 => 8
  | .x4 => 4
  | _ => 0

/-- The event of a width change. -/
def State.widthEvent (s : State) (tag port : Nat) (st : LinkSt) : State :=
  s.event (wOf tag) (wOf (port % 64 + widthOf st * 2 ^ 8 + portPkg s.pkgid port * 2 ^ 16)) 0 []

/-- The alternatives of a route entry that a lost port takes: their own minimal path starts there. -/
def State.altsLost (s : State) (port : Nat) (r : Word) : List Nat :=
  (List.range 4).filter (fun i => r.getLsbD (58 + i) && decide (wfld (tget 0 s.fab.route (wfld r (22 + 11 * i) (12 + 11 * i))) 5 0 = port))

/-- The entry of a destination after a port is lost (R435): `nmo` where its minimal path starts there, and no
alternative through it; new alternatives, which a free value chooses among those that live, where none is left; `v`
falls where none exists. -/
def State.rerouted (s : State) (port dst : Nat) (r : Word) : Word :=
  let nmo := r.getLsbD 56 || decide (wfld r 5 0 = port)
  let gone := s.altsLost port r
  let r1 := gone.foldl (fun (r : Word) i => r &&& ~~~(1#64 <<< (58 + i))) r
  let r2 := if nmo then r1 ||| (1#64 <<< 56) else r1
  if nmo && decide (wfld r2 61 58 = 0) then
    let live := (s.fab.route.filter (fun e => e.2.getLsbD 63 && !e.2.getLsbD 56 && decide (e.1 ≠ dst ∧ e.1 ≠ s.pkgid ∧ wfld e.2 5 0 ≠ port))).map (fun e => e.1)
    match live[s.nextFree.1.toNat % max live.length 1]? with
    | some a => wOf (r2.toNat - wfld r2 22 12 * 2 ^ 12 + a * 2 ^ 12) ||| (1#64 <<< 58)
    | none => r2 &&& ~~~(1#64 <<< 63)
  else r2

/-- The link is LOST: its packets are sent again at once, firmware rewrites the routes, and an event says so. -/
def State.loseLink (s : State) (port : Nat) : State :=
  let o := s.fport port
  let due := s.fab.tx.filter (fun t => decide (s.portOf t.pkt.via.toNat t.pkt.dst.toNat = port))
  let old := s.fab.route
  let new := old.map (fun e => (e.1, if e.2.getLsbD 63 then s.rerouted port e.1 e.2 else e.2))
  let mark := (old.zip new).foldl (fun l x => if x.1.2 = x.2.2 then l else tset 0 l (port * 2048 + x.1.1) x.1.2) s.fab.lost
  let s1 : State := { s with free := s.free + 1, fab := { s.fab with
    route := new.filter (fun e => decide (e.2 ≠ 0))
    lost := mark
    ports := tset {} s.fab.ports port { o with st := .lost, replay := [], wait := [] } } }
  (due.foldl (fun s t => s.resend t) s1).widthEvent 0x22 port .lost

/-- The link comes up at a width: each end replays from the last `ack` it received. -/
def State.setWidth (s : State) (port : Nat) (st : LinkSt) (grp : Nat) : State :=
  let o := { s.fport port with st := st, grp := grp, replays := (s.fport port).replays + 1 }
  (s.setPort' port (Port.drain o.wait.length o)).widthEvent 0x21 port st

/-- `RETRAIN_COMPLETE`: retraining reaches X8 or X4, or finds no group. -/
def execRetrainComplete (port : Nat) (s : State) : Out :=
  .next (
    let o := s.fport port
    if o.st = .retrain ∧ s.now ≤ o.since + 2100 then
      match o.reach false with
      | some (st, g) => s.setWidth port st g
      | none => s.loseLink port
    else s)

/-- `RETRAIN_TIMEOUT`: no group is available, or 2,100 cycles have passed. -/
def execRetrainTimeout (port : Nat) (s : State) : Out :=
  .next (
    let o := s.fport port
    if o.st = .retrain ∧ ((o.reach false).isNone = true ∨ o.since + 2100 < s.now) then s.loseLink port else s)

/-- The fabric's timers that have run out: acknowledgements that have been owed for 1,000 cycles, resends after 50,000,
retraining after 2,100 (R431, R432, R434). -/
def State.dueFabric (s : State) : State :=
  let owed := (s.fab.rxAt.filter (fun e => decide (e.2 ≠ 0 ∧ e.2 + 999 ≤ s.now))).map (fun e => e.1)
  let s := owed.foldl State.sendAck s
  let s := (s.fab.tx.filter (fun t => decide (t.sent + 50000 ≤ s.now))).foldl State.resend s
  ((s.fab.ports.filter (fun (e : Nat × Port) => decide (e.2.st = .retrain ∧ e.2.since + 2100 < s.now))).map (fun e => e.1)).foldl
    State.loseLink s

/-- `SEAM_LINK_FAIL` (R424): traffic of the link goes through the Hamper from here on; an event names it. -/
def execSeamLinkFail (link : Nat) (s : State) : Out :=
  .next (
    if 20 ≤ link ∨ tget 0 s.fab.seam link ≠ 0 then s
    else
      ({ s with fab := { s.fab with seam := tset 0 s.fab.seam link (s.now + 1) } }).event 0x21 (wOf (33 + link)) 0 [])

/-! ## Time (R436) -/

/-- The lowest package of the pod that is up: this one, or one it has a route to. -/
def State.timeMaster (s : State) : Nat :=
  (s.fab.route.filter (fun e => e.2.getLsbD 63)).foldl (fun a e => min a e.1) s.pkgid

/-- `TIME_SYNC_MEASURE`: the offset of four stamps.  A package on which no job has run yet sets its `ccyc` once;
any other slews. -/
def execTimeSyncMeasure (t0 t1 t2 t3 : Word) (s : State) : Out :=
  .next (
    if s.timeMaster = s.pkgid then s
    else
      let off := ((t1 - t0).toInt - (t3 - t2).toInt) / 2
      if s.slewAt = 0 ∧ s.jobs.all (fun j => !s.jobValid j.1) = true then
        { s with slew := s.slew + BitVec.ofInt 64 off, slewTodo := 0, slewAt := max 1 s.now }
      else { s with slewTodo := off, slewAt := max 1 s.slewAt })

/-- One tick of a slew, at most once in any 1,024 cycles: `ccyc` advances by one more, or holds. -/
def State.slewTick (s : State) : State :=
  if s.slewTodo = 0 ∨ s.now < s.slewAt + 1024 then s
  else
    let s := s.mapCores (fun _ k => if k.fg.stop.isNone then { k with fg := s.markDc k.fg } else k)
    if 0 < s.slewTodo then { s with slew := s.slew + 1, slewTodo := s.slewTodo - 1, slewAt := s.now }
    else { s with slew := s.slew - 1, slewTodo := s.slewTodo + 1, slewAt := s.now }

end Sys2Proof.Machine
end

