-- ==== Sys2Proof/Machine/Mgmt.lean ====
section
/-! DEFINITION. The host interface, boot, the management mailbox, power and cooling (R243, R466 to R479). -/

namespace Sys2Proof.Machine

/-! ## Queue pages (R468 to R470) -/

def pageBase (page : Nat) : Nat := hamperBase + 0x1000000 + 4096 * (page % 1024)

/-- The host port refuses an access of a function (R467). -/
def State.hostDenied (s : State) (f : Nat) (p : Perm) : Bool := !s.allows 4 0 (midHost f) p

/-- A refused write is discarded, and an event says so; what its `imm` holds is open (notes/assumptions/8.md). -/
def State.hostRefused (s : State) : State :=
  let f := s.nextFree
  f.2.event 0x09 f.1 0 []

/-- Bytes that a write puts at places of a page: those of the slots are written to the backing. -/
def slotCells (page off : Nat) (data : List Byte) : List (Nat × Byte) :=
  (cellsAt off data).filterMap (fun c => if 0x800 ≤ c.1 ∧ c.1 < 0x1000 then some (pageBase page + c.1, c.2) else none)

/-- The tail after a write of some of its bytes; none where it has none of them. -/
def tailAfter (old : BitVec 32) (off : Nat) (data : List Byte) : Option (BitVec 32) :=
  let cs := (cellsAt off data).filter (fun c => decide (c.1 < 4))
  if cs.isEmpty then none
  else
    some (BitVec.ofNat 32 ((List.range 4).foldl (fun a j =>
      let b := match cs.find? (fun c => decide (c.1 = j)) with
        | some c => c.2.toNat
        | none => old.toNat / 2 ^ (8 * j) % 256
      a + b * 2 ^ (8 * j)) 0))

/-- A host write to a queue page. -/
def State.pageWrite (s : State) (f page off : Nat) (data : List Byte) : State :=
  if s.hostDenied f .w then s.hostRefused
  else
    let s := s.writeCells (slotCells page off data)
    match tailAfter (tget 0 s.mgmt.tails page) off data with
    | none => s
    | some t =>
      let s : State := { s with mgmt := { s.mgmt with tails := tset 0 s.mgmt.tails page t } }
      outState s (execTailWrite page t s)

/-- `QUEUE_PAGE_WRITE` (R468). -/
def execQueuePageWrite (func page off : Nat) (data : List Byte) (s : State) : Out :=
  .next (if 64 ≤ func ∨ 1024 ≤ page then s else s.pageWrite func page off data)

/-- A byte of a queue page as the host reads it. -/
def State.pageByte (s : State) (page off : Nat) : Byte :=
  if off < 4 then BitVec.ofNat 8 ((tget 0 s.mgmt.tails page).toNat / 2 ^ (8 * off))
  else if (0x008 ≤ off ∧ off < 0x010) ∨ off = 0x040 ∨ off = 0x041 ∨ 0x800 ≤ off then memByte s.mem (pageBase page + off)
  else 0

/-- `VEC_STORE_MSIX` (R470): the message that a thread's store to a page's backing asked for leaves for the host. -/
def execVecStoreMsix (page : Nat) (s : State) : Out :=
  .next (match s.mgmt.due.find? (fun d => decide (d.1 = page)) with
    | none => s
    | some d =>
      let f := tget 0 s.mgmt.owner page
      { s with mgmt := { s.mgmt with
        due := s.mgmt.due.erase d
        msix := if f = 0 then s.mgmt.msix else s.mgmt.msix ++ [(f - 1, d.2)] } })

/-! ## The mailbox (R475) -/

def State.reqNum (s : State) (lo k : Nat) : Nat := leNat ((s.mgmt.req.drop lo).take k)
/-- The command of the request block. -/
def State.command (s : State) : Nat := s.reqNum 0 2
/-- Argument i of a command: a word of eight bytes from byte 8 on (notes/assumptions/34.md). -/
def State.arg (s : State) (i : Nat) : Nat := s.reqNum (8 + 8 * i) 8

/-- `mbst`: the status of boot stands in its low byte where boot has failed (R473). -/
def State.mbst (s : State) : Nat := s.mgmt.res.toNat * 2 ^ 8 + s.mgmt.boot.toNat + boolNat s.mgmt.busy

/-- A command ends: the response, and MSI-X vector 0 of function 0. -/
def State.reply (s : State) (res : Nat) (data : List Byte) : State :=
  { s with mgmt := { s.mgmt with
    busy := false
    res := BitVec.ofNat 8 res
    resp := leBytes 2 s.command ++ leBytes 2 res ++ leBytes 4 0 ++ data.take 56 ++ List.replicate (56 - data.length) 0
    msix := s.mgmt.msix ++ [(0, 0)] } }

/-- Words as response data. -/
def wordsOf (l : List Nat) : List Byte := (l.map (leBytes 8)).flatten

/-- A doorbell write: a 1 starts the command of the request; while one runs it is ignored (R475). -/
def State.doorbell (s : State) (v : Nat) : State :=
  if v ≠ 1 then s
  else if s.mgmt.busy then { s with mgmt := { s.mgmt with res := 3 } }
  else if s.command = 0 ∨ 10 < s.command then s.reply 1 []
  else { s with mgmt := { s.mgmt with busy := true } }

/-- `DOORBELL_WRITE`. -/
def execDoorbellWrite (v : BitVec 32) (s : State) : Out := .next (s.doorbell v.toNat)

/-- Runs a command that has been started. -/
def State.onCommand (s : State) (k : Nat) (f : State) : State := if s.mgmt.busy ∧ s.command = k then f else s

/-- `IDENT`. -/
def execIdent (s : State) : Out :=
  .next (s.onCommand 1 (s.reply 0 (wordsOf [0x4F4A57500004, Config.serial.toNat, s.mgmt.ver.toNat, s.mgmt.svn, s.mgmt.fusedSvn])))

/-- `READ`: 56 bytes of an object; bytes past its end read 0. -/
def execRead (s : State) : Out :=
  .next (s.onCommand 2 (
    match s.arg 0 with
    | 0 => s.reply 0 ((Config.publicKey.drop (s.arg 1)).take 56)
    | 1 => s.reply 0 ((Config.certificate.drop (s.arg 1)).take 56)
    | 2 => s.reply 0 ((s.mgmt.report.drop (s.arg 1)).take 56)
    | _ => s.reply 4 []))

/-- `ATTEST` (R474): the report over the host's nonce, with its signature. -/
def execAttest (s : State) : Out :=
  .next (s.onCommand 3 (
    let body := (s.mgmt.req.drop 8).take 32 ++ Config.romDigest ++ s.mgmt.measure ++ wordsOf [s.mgmt.svn, s.mgmt.fusedSvn] ++
      leBytes 8 Config.serial.toNat ++ leBytes 8 s.ccyc.toNat
    let rep := body ++ Config.falconSign (Config.shake256 body 64)
    ({ s with mgmt := { s.mgmt with report := rep } }).reply 0 (wordsOf [rep.length])))

/-- The key of a bank's error count. -/
def bankKey (stack ch pc bank : Nat) : Nat := ((stack * 32 + ch) * 2 + pc) * 32 + bank

/-- `HBMERR` (R476): the 32 bank counts of a pseudo-channel, cleared in the same access when asked. -/
def execHbmerr (s : State) : Out :=
  .next (s.onCommand 4 (
    let st := s.arg 0
    let ch := s.arg 1
    let pc := s.arg 2
    if 16 ≤ st ∨ 32 ≤ ch ∨ 2 ≤ pc ∨ 2 ≤ s.arg 3 then s.reply 4 []
    else
      let out := (List.range 32).map (fun b => BitVec.ofNat 8 (tget 0 s.mgmt.hbmErr (bankKey st ch pc b)))
      let t := if s.arg 3 = 1 then (List.range 32).foldl (fun t b => tset 0 t (bankKey st ch pc b) 0) s.mgmt.hbmErr else s.mgmt.hbmErr
      ({ s with mgmt := { s.mgmt with hbmErr := t } }).reply 0 out))

/-- `WINDOW` (R467): the base of a function's BAR4 window. -/
def execWindow (s : State) : Out :=
  .next (s.onCommand 5 (
    let f := s.arg 0
    let w := s.arg 1
    if 64 ≤ f ∨ w % 2 ^ 34 ≠ 0 ∨ (memKind w ≠ .hbm ∧ memKind w ≠ .cxl) then s.reply 4 []
    else
      ({ s with mgmt := { s.mgmt with wbase := tset 0 s.mgmt.wbase f (wOf w) } }).reply 0
        (wordsOf [(tget 0 s.mgmt.wbase f).toNat])))

/-! ### LINK (R434, R476) -/

/-- Firmware restores the route entries that the loss of a port changed. -/
def State.restoreRoutes (s : State) (port : Nat) : State :=
  let mine := s.fab.lost.filter (fun e => decide (e.1 / 2048 = port))
  { s with fab := { s.fab with
    route := mine.foldl (fun t e => tset 0 t (e.1 % 2048) e.2) s.fab.route
    lost := s.fab.lost.filter (fun e => decide (e.1 / 2048 ≠ port)) } }

/-- A management retrain of a fabric port, from X16: which lanes have their signal again is a free value
(notes/assumptions/8.md). -/
def State.retrain (s : State) (port : Nat) : State :=
  let f := s.nextFree
  let o0 := s.fport port
  let o : Port := { o0 with lanes := o0.lanes ||| BitVec.ofNat 16 f.1.toNat, full := true, since := s.now }
  let s := f.2.setPort' port o
  match o.reach true with
  | none => if o0.st = .lost then s else s.loseLink port
  | some (st, g) =>
    let s := s.setWidth port st g
    if o0.st = .lost ∧ st ≠ .x4 then s.restoreRoutes port else s

def linkCode : LinkSt → Nat
  | .x16 => 0
  | .x8 => 1
  | .x4 => 2
  | .retrain => 3
  | .lost => 4

/-- What `LINK` reports: state, width, errors, drops. -/
def State.linkWords (s : State) (kind i : Nat) : List Nat :=
  match kind with
  | 0 => [linkCode (s.fport i).st, widthOf (s.fport i).st, (s.fport i).errs, s.fab.discards]
  | 1 => [if tget 0 s.fab.seam i = 0 then 0 else 4, if tget 0 s.fab.seam i = 0 then 16 else 0, tget 0 s.mgmt.errs (64 + i), 0]
  | 2 => [if tget false s.mgmt.cxlDown i then 4 else 0, if tget false s.mgmt.cxlDown i then 0 else 16, tget 0 s.mgmt.errs (128 + i), 0]
  | _ => [if tget false s.mgmt.ethDown i then 4 else 0, if tget false s.mgmt.ethDown i then 0 else 8, tget 0 s.mgmt.errs (192 + i),
      tget 0 s.mgmt.ethDrop i]

/-- `LINK`: reports a link, and may retrain it first; whether a CXL, Seam or Ethernet link that is down comes up is a free value. -/
def execLink (s : State) : Out :=
  .next (s.onCommand 6 (
    let kind := s.arg 0
    let i := s.arg 1
    let many := match kind with
      | 0 => 33
      | 1 => 20
      | 2 => 8
      | 3 => 8
      | _ => 0
    if many ≤ i ∨ 2 ≤ s.arg 2 then s.reply 4 []
    else
      let f := s.nextFree
      let s := if s.arg 2 = 0 then s
        else if kind = 0 then s.retrain i
        else if kind = 1 ∧ tget 0 s.fab.seam i ≠ 0 then
          { f.2 with fab := { f.2.fab with seam := if f.1.getLsbD 0 then s.fab.seam else tset 0 s.fab.seam i 0 } }
        else if kind = 2 ∧ tget false s.mgmt.cxlDown i = true then
          { f.2 with mgmt := { f.2.mgmt with cxlDown := tset false s.mgmt.cxlDown i (f.1.getLsbD 0) } }
        else if kind = 3 ∧ tget false s.mgmt.ethDown i = true then
          { f.2 with mgmt := { f.2.mgmt with ethDown := tset false s.mgmt.ethDown i (f.1.getLsbD 0) } }
        else s
      s.reply 0 (wordsOf (s.linkWords kind i))))

/-- `COMMIT` (R474): the fused security version rises to the `svn` of the running image. -/
def execCommit (s : State) : Out :=
  .next (s.onCommand 7 (
    let v := max s.mgmt.fusedSvn s.mgmt.svn
    ({ s with mgmt := { s.mgmt with fusedSvn := v } }).reply 0 (wordsOf [v])))

/-- `BOOTLD`: the image that the host has written through function 0's window, from its start on, is offered to the
next boot. -/
def execBootld (s : State) : Out :=
  .next (s.onCommand 8 (
    let k := s.arg 0
    if k < 64 ∨ 2 ^ 25 < k then s.reply 4 []
    else ({ s with mgmt := { s.mgmt with offered := s.bytes (tget 0 s.mgmt.wbase 0).toNat k } }).reply 0 []))

/-! ## Power and cooling (R477 to R479) -/

/-- Some job holds a core. -/
def State.anyTask (s : State) : Bool := s.cores.any (fun c => c.2.busy)

/-- `POWER`: asks for a power state; state 2 is refused while a job holds a core. -/
def execPower (s : State) : Out :=
  .next (s.onCommand 9 (
    let p := s.arg 0
    if 3 ≤ p then s.reply 4 []
    else if p = 2 ∧ s.anyTask = true then s.reply 2 []
    else
      let at_ := (s.ccyc.toNat / 1050 + 1) * 1050
      ({ s with mgmt := { s.mgmt with pnext := some (4 * at_ + p) } }).reply 0 (wordsOf [s.mgmt.pstate])))

/-- `THERM`: what the sensors read is open (notes/assumptions/8.md). -/
def execTherm (s : State) : Out :=
  .next (s.onCommand 10 (({ s with free := s.free + 56 }).reply 0 ((List.range 56).map (fun k => Config.freeByte (s.free + k)))))

/-- The requested state takes effect at the next `ccyc` multiple of 1,050 (R478). -/
def State.duePower (s : State) : State :=
  match s.mgmt.pnext with
  | none => s
  | some v =>
    if s.ccyc.toNat < v / 4 then s
    else if v % 4 = 2 ∧ s.anyTask = true then { s with mgmt := { s.mgmt with pnext := none } }
    else { s with mgmt := { s.mgmt with pnext := none, pstate := v % 4 } }

/-- `POWER_STATE_CHANGE`. -/
def execPowerStateChange (s : State) : Out := .next s.duePower

/-- `POWER_MEASURE` (R477): a share's draw; a compute die at its limit gets a lower ceiling, how low is a free value
of 525 to 1,050, and one below it its full ceiling again. -/
def execPowerMeasure (share watts : Nat) (s : State) : Out :=
  .next (
    let f := s.nextFree
    let s1 : State := { s with mgmt := { s.mgmt with watts := tset 0 s.mgmt.watts share watts } }
    if 8 ≤ share then s1
    else if watts < 230 then { s1 with mgmt := { s1.mgmt with dieCeil := tset 1050 s1.mgmt.dieCeil share 1050 } }
    else
      { s1 with
        free := f.2.free
        mgmt := { s1.mgmt with dieCeil := tset 1050 s1.mgmt.dieCeil share (525 + f.1.toNat % 526) } })

/-- Halts every job that runs, as a supervisor request (R437); the origin is thread 0 of the Hamper. -/
def State.haltAll (s : State) : State :=
  s.jobs.foldl (fun s j =>
    if s.jobValid j.1 ∧ (s.job j.1).ph = .run then
      s.takeWave j.1 (originWord 0x0D s.podid.toNat s.pkgid true 0) (s.jtime j.1) true
    else s) s

/-- `THERMAL_THRESHOLD` (R479): the hottest sensor of a compute die reads `temp`. -/
def execThermalThreshold (temp : Nat) (s : State) : Out :=
  .next (
    let hot := if 95 ≤ temp then true else if temp < 90 then false else s.mgmt.hot
    let up := decide (s.mgmt.temp < 105 ∧ 105 ≤ temp)
    let s : State := { s with mgmt := { s.mgmt with temp := temp, hot := hot, off := s.mgmt.off || decide (115 ≤ temp) } }
    if up then
      let f := s.nextFree
      (f.2.haltAll).event 0x30 f.1 0 []
    else s)

/-! ## Host window (R466, R467) -/

/-- The completion of a host's read. -/
def State.complete' (s : State) (c : CplSt) (bs : List Byte) : State := { s with mgmt := { s.mgmt with cpl := some (c, bs) } }

/-- An access through BAR4 to the memory of the package (notes/assumptions/65.md). -/
def State.windowAccess (s : State) (f off : Nat) (write : Bool) (data : List Byte) : State :=
  let a := (tget 0 s.mgmt.wbase f).toNat + off
  let m := midHost f
  let k := data.length
  let bad : Option Nat :=
    if s.hostDenied f (if write then .w else .r) then some 0x09 else s.refuses m a k (if write then .w else .r)
  match bad with
  | some c => if write then (s.cxlEvent a c).hostRefused else (s.cxlEvent a c).complete' .abort []
  | none =>
    if write then
      if memKind a = .hbm then (s.storeCells (cellsAt a data) (fun _ => false)).1 else s.writeCells (cellsAt a data)
    else s.complete' (if (firstPoison s.poison a k).isSome then .poisoned else .ok) (s.bytes a k)

/-- A byte of the mailbox as function 0 reads it. -/
def State.boxByte (s : State) (off : Nat) : Byte :=
  if off < 0x40 then s.mgmt.req.getD off 0
  else if off < 0x80 then s.mgmt.resp.getD (off - 0x40) 0
  else if 0x88 ≤ off ∧ off < 0x90 then BitVec.ofNat 8 (s.mbst / 2 ^ (8 * (off - 0x88)))
  else 0

/-- A write to the mailbox: the request block, or the doorbell. -/
def State.boxWrite (s : State) (off : Nat) (data : List Byte) : State :=
  if off = 0x80 then s.doorbell (leNat data)
  else
    let old := s.mgmt.req ++ List.replicate (64 - s.mgmt.req.length) 0
    let new := (List.range 64).map (fun j => if off ≤ j ∧ j < off + data.length then data.getD (j - off) 0 else old.getD j 0)
    { s with mgmt := { s.mgmt with req := new } }

/-- `HOST_WINDOW_ACCESS` (R467): a host's read of `data`'s length, or a write, through BAR4.  Offsets from 2³⁴ name
BAR0 of function 0, and from 2³⁵ the queue pages of BAR2 (notes/assumptions/34.md); any other is an Unsupported
Request. -/
def execHostWindowAccess (func off : Nat) (write : Bool) (data : List Byte) (s : State) : Out :=
  .next (
    let none' := if write then s else s.complete' .unsupported []
    if 64 ≤ func then none'
    else if off < 2 ^ 34 then s.windowAccess func off write data
    else if off < 2 ^ 34 + 4096 then
      if func ≠ 0 then none'
      else if write then s.boxWrite (off - 2 ^ 34) data
      else s.complete' .ok ((List.range data.length).map (fun j => s.boxByte (off - 2 ^ 34 + j)))
    else if 2 ^ 35 ≤ off ∧ off < 2 ^ 35 + 2 ^ 22 then
      let page := (off - 2 ^ 35) / 4096
      let o := off % 4096
      if write then s.pageWrite func page o data
      else if s.hostDenied func .r then s.complete' .abort []
      else s.complete' .ok ((List.range data.length).map (fun j => s.pageByte page (o + j)))
    else none')

/-! ## Second tier, scrubbing (R243, R471, R476) -/

/-- `CXL_LINK_DOWN_ACCESS`: an access meets port k with its link down: the event; from here on the port's link is
down. -/
def execCxlLinkDownAccess (port : Nat) (s : State) : Out :=
  .next (
    if 8 ≤ port then s
    else
      ({ s with mgmt := { s.mgmt with cxlDown := tset false s.mgmt.cxlDown port true } }).event 0x22 (wOf (40 + port)) 0 [])

/-- A corrected error of core n's arrays (R378). -/
def State.countCore (s : State) (n : Nat) : State :=
  s.modFg n (fun c => { c with rcd := { c.rcd with cerr := wOf (min (2 ^ 32 - 1) (c.rcd.cerr.toNat + 1)) } })

/-- A corrected error of a granule of memory: counted for its HBM bank, its core, or its memory.  Which bank of its
stack holds a granule is open (notes/assumptions/8.md). -/
def State.countErr (s : State) (a : Nat) : State :=
  let mem (k : Nat) : State := { s with mgmt := { s.mgmt with memErr := tset 0 s.mgmt.memErr k (tget 0 s.mgmt.memErr k + 1) } }
  match memKind a with
  | .hbm =>
    let f := s.nextFree
    let k := a / 2 ^ 36 * 2048 + f.1.toNat % 2048
    { f.2 with mgmt := { f.2.mgmt with hbmErr := tset 0 f.2.mgmt.hbmErr k (min 255 (tget 0 f.2.mgmt.hbmErr k + 1)) } }
  | .spad => s.countCore ((a - spadKey 0 0) / 2 ^ 19)
  | .cxl => mem 0
  | .hamper => mem 1
  | .none => s

/-- An error of an array of R393, by its array code, its core, and its entry there: corrected and counted, or the entry is
poisoned; one of the Hamper's is frozen, with its event.  An engine entry is known by its place in program order. -/
def State.arrayErr (s : State) (code n k : Nat) (ok : Bool) : State :=
  if code = 6 then
    if ok then s
    else ({ s with hamper := { s.hamper with frozen := s.hamper.frozen ++ [(k / 2 ^ 24, k % 2 ^ 24)] } }).event 0x0A (wOf k) 0 []
  else if ok then s.countCore n
  else if code = 3 then s.modFg n (fun c => { c with regs := { c.regs with tilePois := tset false c.regs.tilePois k true } })
  else s.modFg n (fun c => { c with regs := { c.regs with pois := (code, k) :: c.regs.pois } })

/-- `SCRUBBING` (R243, R393): an error that the checks of an array find is corrected and counted, or its granule is
poisoned.  Numbers below 2⁶⁰ name granules of memory and of the scratchpads, those above the other arrays
(notes/assumptions/56.md). -/
def execScrubbing (g : Nat) (ok : Bool) (s : State) : Out :=
  .next (
    if 2 ^ 60 ≤ g then s.arrayErr (g / 2 ^ 56 % 16) (g / 2 ^ 32 % 2 ^ 12) (g % 2 ^ 32) ok
    else if memKind (32 * g) = .none then s
    else if ok then s.countErr (32 * g)
    else { s with poison := poisonGranule s.poison (32 * g) })

/-! ## Boot (R473) -/

/-- The word `jal x0` from offset 0 to the firmware's first instruction. -/
def jalFirmware : Nat := 0x0004206F

/-- The first step of boot that an image fails, or what it loads: its code, its digest, `ver` and `svn`. -/
def bootImage (img : List Byte) (fused : Nat) : Nat ⊕ (List Byte × List Byte × Nat × Nat) :=
  let n (lo k : Nat) : Nat := leNat ((img.drop lo).take k)
  let clen := n 16 8
  let slen := n 24 8
  let klen := n 32 8
  let code := (img.drop 64).take clen
  let key := (img.drop (64 + clen)).take klen
  let sig := (img.drop (64 + clen + klen)).take slen
  let d := Config.shake256 (img.take 64 ++ code) 64
  if img.length < 64 then .inl 1
  else if n 0 4 ≠ 0x57465057 ∨ n 40 24 ≠ 0 ∨ klen ≠ 1793 ∨ slen = 0 ∨ 1462 < slen ∨ clen % 4 ≠ 0 ∨ clen < 4 ∨ 16506880 < clen ∨
      63 < n 8 8 ∨ img.length < 64 + clen + klen + slen ∨ Config.falconVerify d key sig = false ∨
      Config.shake256 key 32 ≠ Config.rootDigest then .inl 2
  else if n 8 8 < fused then .inl 3
  else .inr (code, d, n 4 4, n 8 8)

/-- `DEVICE_RESET`: every field takes its reset value but what is fused, cabled or physical, or offered by the host;
then the boot ROM runs, and the firmware it starts forms the pod: it writes the route entries (R428). -/
def execDeviceReset (s : State) : Out :=
  .next (
    let m := s.mgmt
    let r : State := { State.reset with
      pkgid := s.pkgid
      podid := s.podid
      sched := s.sched
      lockstep := s.lockstep
      free := s.free
      spares := s.spares
      mgmt := { fusedSvn := m.fusedSvn, offered := m.offered, cxlCap := m.cxlCap, cxlDown := m.cxlDown, ethDown := m.ethDown, temp := m.temp, watts := m.watts } }
    match bootImage (if m.offered.isEmpty then Config.flash else m.offered) m.fusedSvn with
    | .inl k => { r with mgmt := { r.mgmt with boot := BitVec.ofNat 8 (0x40 + k) } }
    | .inr (code, d, ver, svn) =>
      let r := (r.putBytes (hamperBase + 0x42000) code).putBytes hamperBase (leBytes 4 jalFirmware)
      let r : State := { r with fab := { r.fab with route := podRoutes s.pkgid Config.podPackages } }
      { r with mgmt := { r.mgmt with measure := d, ver := BitVec.ofNat 32 ver, svn := svn, up := true } })

end Sys2Proof.Machine
end

