-- ==== Sys2Proof/Machine/Dispatch.lean ====
section
/-! DEFINITION. The dispatch: one direct call of a meaning for each constructor of `Instr`. -/

namespace Sys2Proof.Machine

def exec (i : Instr) (s : State) : Host.Outcome State Fault Refusal :=
  match i with
  | .scalarLoad f => Sys2Proof.Machine.execScalarLoad f s
  | .scalarStore f => Sys2Proof.Machine.execScalarStore f s
  | .rv64IntegerOp o enc => Sys2Proof.Machine.execRv64IntegerOp o enc s
  | .instructionFetch => Sys2Proof.Machine.execInstructionFetch s
  | .fence f => Sys2Proof.Machine.execFence f s
  | .fenceI f => Sys2Proof.Machine.execFenceI f s
  | .ecall => Sys2Proof.Machine.execEcall s
  | .ebreak => Sys2Proof.Machine.execEbreak s
  | .cEbreak => Sys2Proof.Machine.execCEbreak s
  | .csrAccess f => Sys2Proof.Machine.execCsrAccess f s
  | .bfmtWrite f => Sys2Proof.Machine.execBfmtWrite f s
  | .bfmtTakesEffect n => Sys2Proof.Machine.execBfmtTakesEffect n s
  | .sleepu f => Sys2Proof.Machine.execSleepu f s
  | .engdl f => Sys2Proof.Machine.execEngdl f s
  | .engst f => Sys2Proof.Machine.execEngst f s
  | .engsync f => Sys2Proof.Machine.execEngsync f s
  | .semwait f => Sys2Proof.Machine.execSemwait f s
  | .semsig f => Sys2Proof.Machine.execSemsig f s
  | .semadd f => Sys2Proof.Machine.execSemadd f s
  | .semrd f => Sys2Proof.Machine.execSemrd f s
  | .engringOff f => Sys2Proof.Machine.execEngringOff f s
  | .engringOn f => Sys2Proof.Machine.execEngringOn f s
  | .engringGo f => Sys2Proof.Machine.execEngringGo f s
  | .engringSkip f => Sys2Proof.Machine.execEngringSkip f s
  | .engringDrop f => Sys2Proof.Machine.execEngringDrop f s
  | .slcfg f => Sys2Proof.Machine.execSlcfg f s
  | .sladvCons f => Sys2Proof.Machine.execSladvCons f s
  | .sladvProd f => Sys2Proof.Machine.execSladvProd f s
  | .sltokRd f => Sys2Proof.Machine.execSltokRd f s
  | .sltokPut f => Sys2Proof.Machine.execSltokPut f s
  | .sltokTake f => Sys2Proof.Machine.execSltokTake f s
  | .bar f => Sys2Proof.Machine.execBar f s
  | .bara f => Sys2Proof.Machine.execBara f s
  | .barw f => Sys2Proof.Machine.execBarw f s
  | .barx f => Sys2Proof.Machine.execBarx f s
  | .barrierArrivalAtHome a => Sys2Proof.Machine.execBarrierArrivalAtHome a s
  | .barrierWithdrawalAtHome w => Sys2Proof.Machine.execBarrierWithdrawalAtHome w s
  | .barrierReply r => Sys2Proof.Machine.execBarrierReply r s
  | .tlaunch f => Sys2Proof.Machine.execTlaunch f s
  | .texit f => Sys2Proof.Machine.execTexit f s
  | .taskEnd n => Sys2Proof.Machine.execTaskEnd n s
  | .tyield f => Sys2Proof.Machine.execTyield f s
  | .tarm f => Sys2Proof.Machine.execTarm f s
  | .depCounterDecrement cl slot amt => Sys2Proof.Machine.execDepCounterDecrement cl slot amt s
  | .mark f => Sys2Proof.Machine.execMark f s
  | .pfence f => Sys2Proof.Machine.execPfence f s
  | .xfence f => Sys2Proof.Machine.execXfence f s
  | .dld f => Sys2Proof.Machine.execDld f s
  | .taglk f => Sys2Proof.Machine.execTaglk f s
  | .tagset f => Sys2Proof.Machine.execTagset f s
  | .tagclr f => Sys2Proof.Machine.execTagclr f s
  | .tagclrAll f => Sys2Proof.Machine.execTagclrAll f s
  | .tagvic f => Sys2Proof.Machine.execTagvic f s
  | .cpput f => Sys2Proof.Machine.execCpput f s
  | .cpputP f => Sys2Proof.Machine.execCpputP f s
  | .tret f => Sys2Proof.Machine.execTret f s
  | .tretSkip f => Sys2Proof.Machine.execTretSkip f s
  | .cutrd f => Sys2Proof.Machine.execCutrd f s
  | .ctxswap f => Sys2Proof.Machine.execCtxswap f s
  | .contextExchangeComplete n => Sys2Proof.Machine.execContextExchangeComplete n s
  | .ctxsave f => Sys2Proof.Machine.execCtxsave f s
  | .ctxsaveKeep f => Sys2Proof.Machine.execCtxsaveKeep f s
  | .contextSaveComplete n => Sys2Proof.Machine.execContextSaveComplete n s
  | .ctxload f => Sys2Proof.Machine.execCtxload f s
  | .contextFillComplete n => Sys2Proof.Machine.execContextFillComplete n s
  | .sbset f => Sys2Proof.Machine.execSbset f s
  | .tkill f => Sys2Proof.Machine.execTkill f s
  | .matset f => Sys2Proof.Machine.execMatset f s
  | .tlbinvPg f => Sys2Proof.Machine.execTlbinvPg f s
  | .tlbinvAs f => Sys2Proof.Machine.execTlbinvAs f s
  | .tlbinvAll f => Sys2Proof.Machine.execTlbinvAll f s
  | .hreq f => Sys2Proof.Machine.execHreq f s
  | .vadd f => Sys2Proof.Machine.execVadd f s
  | .vsub f => Sys2Proof.Machine.execVsub f s
  | .vmul f => Sys2Proof.Machine.execVmul f s
  | .vmulh f => Sys2Proof.Machine.execVmulh f s
  | .vfma f => Sys2Proof.Machine.execVfma f s
  | .vfms f => Sys2Proof.Machine.execVfms f s
  | .vfnma f => Sys2Proof.Machine.execVfnma f s
  | .vdiv f => Sys2Proof.Machine.execVdiv f s
  | .vsqrt f => Sys2Proof.Machine.execVsqrt f s
  | .vmin f => Sys2Proof.Machine.execVmin f s
  | .vmax f => Sys2Proof.Machine.execVmax f s
  | .vabs f => Sys2Proof.Machine.execVabs f s
  | .vneg f => Sys2Proof.Machine.execVneg f s
  | .vadds f => Sys2Proof.Machine.execVadds f s
  | .vsubs f => Sys2Proof.Machine.execVsubs f s
  | .vshl f => Sys2Proof.Machine.execVshl f s
  | .vshr f => Sys2Proof.Machine.execVshr f s
  | .vsra f => Sys2Proof.Machine.execVsra f s
  | .vaddi f => Sys2Proof.Machine.execVaddi f s
  | .vcmp f => Sys2Proof.Machine.execVcmp f s
  | .vredsum f => Sys2Proof.Machine.execVredsum f s
  | .vredmin f => Sys2Proof.Machine.execVredmin f s
  | .vredmax f => Sys2Proof.Machine.execVredmax f s
  | .vand f => Sys2Proof.Machine.execVand f s
  | .vandNb f => Sys2Proof.Machine.execVandNb f s
  | .vor f => Sys2Proof.Machine.execVor f s
  | .vorNb f => Sys2Proof.Machine.execVorNb f s
  | .vxor f => Sys2Proof.Machine.execVxor f s
  | .vxorNb f => Sys2Proof.Machine.execVxorNb f s
  | .vlut3 f => Sys2Proof.Machine.execVlut3 f s
  | .vfsh f => Sys2Proof.Machine.execVfsh f s
  | .vfshw f => Sys2Proof.Machine.execVfshw f s
  | .vrot f => Sys2Proof.Machine.execVrot f s
  | .vpopc f => Sys2Proof.Machine.execVpopc f s
  | .vclz f => Sys2Proof.Machine.execVclz f s
  | .vlrot f => Sys2Proof.Machine.execVlrot f s
  | .vshuf f => Sys2Proof.Machine.execVshuf f s
  | .vslide f => Sys2Proof.Machine.execVslide f s
  | .vbcast f => Sys2Proof.Machine.execVbcast f s
  | .vbcastEl f => Sys2Proof.Machine.execVbcastEl f s
  | .vzip f => Sys2Proof.Machine.execVzip f s
  | .vzipHi f => Sys2Proof.Machine.execVzipHi f s
  | .vunzip f => Sys2Proof.Machine.execVunzip f s
  | .vunzipOdd f => Sys2Proof.Machine.execVunzipOdd f s
  | .vsel f => Sys2Proof.Machine.execVsel f s
  | .vmvx f => Sys2Proof.Machine.execVmvx f s
  | .vmxv f => Sys2Proof.Machine.execVmxv f s
  | .pand f => Sys2Proof.Machine.execPand f s
  | .por f => Sys2Proof.Machine.execPor f s
  | .pxor f => Sys2Proof.Machine.execPxor f s
  | .pandn f => Sys2Proof.Machine.execPandn f s
  | .pset f => Sys2Proof.Machine.execPset f s
  | .pcnt f => Sys2Proof.Machine.execPcnt f s
  | .vcvt f => Sys2Proof.Machine.execVcvt f s
  | .vcvtSat f => Sys2Proof.Machine.execVcvtSat f s
  | .vpack f => Sys2Proof.Machine.execVpack f s
  | .vunpk f => Sys2Proof.Machine.execVunpk f s
  | .vqmx f => Sys2Proof.Machine.execVqmx f s
  | .vdqmx f => Sys2Proof.Machine.execVdqmx f s
  | .vcbl f => Sys2Proof.Machine.execVcbl f s
  | .vcblEnc f => Sys2Proof.Machine.execVcblEnc f s
  | .vld f => Sys2Proof.Machine.execVld f s
  | .vlds f => Sys2Proof.Machine.execVlds f s
  | .vldx f => Sys2Proof.Machine.execVldx f s
  | .vst f => Sys2Proof.Machine.execVst f s
  | .vsts f => Sys2Proof.Machine.execVsts f s
  | .vstx f => Sys2Proof.Machine.execVstx f s
  | .vldw f => Sys2Proof.Machine.execVldw f s
  | .vtrd f => Sys2Proof.Machine.execVtrd f s
  | .readReplyArrival n k r => Sys2Proof.Machine.execReadReplyArrival n k r s
  | .postedWritePerformed n => Sys2Proof.Machine.execPostedWritePerformed n s
  | .postedWriteAck n w => Sys2Proof.Machine.execPostedWriteAck n w s
  | .mmaAcc f => Sys2Proof.Machine.execMmaAcc f s
  | .mmaOvw f => Sys2Proof.Machine.execMmaOvw f s
  | .mmaSacc f => Sys2Proof.Machine.execMmaSacc f s
  | .mmaSovw f => Sys2Proof.Machine.execMmaSovw f s
  | .mzero f => Sys2Proof.Machine.execMzero f s
  | .mcfg f => Sys2Proof.Machine.execMcfg f s
  | .mgetr f => Sys2Proof.Machine.execMgetr f s
  | .msetr f => Sys2Proof.Machine.execMsetr f s
  | .mgetc f => Sys2Proof.Machine.execMgetc f s
  | .msetc f => Sys2Proof.Machine.execMsetc f s
  | .mload f => Sys2Proof.Machine.execMload f s
  | .mhadRow f => Sys2Proof.Machine.execMhadRow f s
  | .mhadCol f => Sys2Proof.Machine.execMhadCol f s
  | .mdrain f => Sys2Proof.Machine.execMdrain f s
  | .mcbld f => Sys2Proof.Machine.execMcbld f s
  | .mbind f => Sys2Proof.Machine.execMbind f s
  | .mcopy f => Sys2Proof.Machine.execMcopy f s
  | .mcopyAdd f => Sys2Proof.Machine.execMcopyAdd f s
  | .copy p => Sys2Proof.Machine.execCopy p s
  | .tcopyRd p => Sys2Proof.Machine.execTcopyRd p s
  | .tcopyWr p => Sys2Proof.Machine.execTcopyWr p s
  | .im2colw p => Sys2Proof.Machine.execIm2colw p s
  | .fill p => Sys2Proof.Machine.execFill p s
  | .accw p => Sys2Proof.Machine.execAccw p s
  | .fop p => Sys2Proof.Machine.execFop p s
  | .cas p => Sys2Proof.Machine.execCas p s
  | .redcopy p => Sys2Proof.Machine.execRedcopy p s
  | .mcast p => Sys2Proof.Machine.execMcast p s
  | .amcast p => Sys2Proof.Machine.execAmcast p s
  | .multicastTileArrival n => Sys2Proof.Machine.execMulticastTileArrival n s
  | .amcastRetry e => Sys2Proof.Machine.execAmcastRetry e s
  | .spfill p => Sys2Proof.Machine.execSpfill p s
  | .spdrain p => Sys2Proof.Machine.execSpdrain p s
  | .qappend p => Sys2Proof.Machine.execQappend p s
  | .qappendAtTarget c => Sys2Proof.Machine.execQappendAtTarget c s
  | .sigrem p => Sys2Proof.Machine.execSigrem p s
  | .remoteSignalArrival n sem amt => Sys2Proof.Machine.execRemoteSignalArrival n sem amt s
  | .copyPacketCompletion c => Sys2Proof.Machine.execCopyPacketCompletion c s
  | .missedPromise n ce1 => Sys2Proof.Machine.execMissedPromise n ce1 s
  | .wordForward w rest => Sys2Proof.Machine.execWordForward w rest s
  | .forwardHoldRelease n => Sys2Proof.Machine.execForwardHoldRelease n s
  | .forwardHoldTimeout n => Sys2Proof.Machine.execForwardHoldTimeout n s
  | .engineEntryStart n e => Sys2Proof.Machine.execEngineEntryStart n e s
  | .engineWaitTimeout n e => Sys2Proof.Machine.execEngineWaitTimeout n e s
  | .engineCommandComplete n e => Sys2Proof.Machine.execEngineCommandComplete n e s
  | .waitConditionMet a => Sys2Proof.Machine.execWaitConditionMet a s
  | .deadlineExpiry a => Sys2Proof.Machine.execDeadlineExpiry a s
  | .trapTake n => Sys2Proof.Machine.execTrapTake n s
  | .containmentDecision n => Sys2Proof.Machine.execContainmentDecision n s
  | .inFlightReinject n => Sys2Proof.Machine.execInFlightReinject n s
  | .launchDivide => Sys2Proof.Machine.execLaunchDivide s
  | .leafLaunchTake cl => Sys2Proof.Machine.execLeafLaunchTake cl s
  | .steal die job num => Sys2Proof.Machine.execSteal die job num s
  | .taskDispatch cl => Sys2Proof.Machine.execTaskDispatch cl s
  | .completionReport cl job num => Sys2Proof.Machine.execCompletionReport cl job num s
  | .hbmFrameBoundary => Sys2Proof.Machine.execHbmFrameBoundary s
  | .storePerformedInSlot stack n bad => Sys2Proof.Machine.execStorePerformedInSlot stack n bad s
  | .storeBackpressure n ce1 => Sys2Proof.Machine.execStoreBackpressure n ce1 s
  | .migrationCheck page => Sys2Proof.Machine.execMigrationCheck page s
  | .migrationSwitch page => Sys2Proof.Machine.execMigrationSwitch page s
  | .hamperScalarAccess store f3 r rs1 off enc => Sys2Proof.Machine.execHamperScalarAccess store f3 r rs1 off enc s
  | .hamperThreadTrap h cause val => Sys2Proof.Machine.execHamperThreadTrap h cause val s
  | .messageArrivalData m => Sys2Proof.Machine.execMessageArrivalData m s
  | .messageArrivalCtrl m => Sys2Proof.Machine.execMessageArrivalCtrl m s
  | .messageArrivalCount m => Sys2Proof.Machine.execMessageArrivalCount m s
  | .nrecv f => Sys2Proof.Machine.execNrecv f s
  | .nsend f => Sys2Proof.Machine.execNsend f s
  | .nprobe f => Sys2Proof.Machine.execNprobe f s
  | .npost f => Sys2Proof.Machine.execNpost f s
  | .npostCancel f => Sys2Proof.Machine.execNpostCancel f s
  | .trgarm f => Sys2Proof.Machine.execTrgarm f s
  | .trgdis f => Sys2Proof.Machine.execTrgdis f s
  | .trgrd f => Sys2Proof.Machine.execTrgrd f s
  | .trgrdBlk f => Sys2Proof.Machine.execTrgrdBlk f s
  | .ctradd f => Sys2Proof.Machine.execCtradd f s
  | .ctrrd f => Sys2Proof.Machine.execCtrrd f s
  | .ctrwait f => Sys2Proof.Machine.execCtrwait f s
  | .ctrset f => Sys2Proof.Machine.execCtrset f s
  | .nlaunch f => Sys2Proof.Machine.execNlaunch f s
  | .ncopy f => Sys2Proof.Machine.execNcopy f s
  | .collst f => Sys2Proof.Machine.execCollst f s
  | .jcfgHandle f => Sys2Proof.Machine.execJcfgHandle f s
  | .jcfgWindowTemplate f => Sys2Proof.Machine.execJcfgWindowTemplate f s
  | .jcfgWindowContext f => Sys2Proof.Machine.execJcfgWindowContext f s
  | .haltgo f => Sys2Proof.Machine.execHaltgo f s
  | .hstep f => Sys2Proof.Machine.execHstep f s
  | .stepEnd n => Sys2Proof.Machine.execStepEnd n s
  | .hresume f => Sys2Proof.Machine.execHresume f s
  | .hcause f => Sys2Proof.Machine.execHcause f s
  | .hcauseCore f => Sys2Proof.Machine.execHcauseCore f s
  | .tailWrite page t => Sys2Proof.Machine.execTailWrite page t s
  | .ecallReply n reply => Sys2Proof.Machine.execEcallReply n reply s
  | .retentionEnter u => Sys2Proof.Machine.execRetentionEnter u s
  | .retentionWake u => Sys2Proof.Machine.execRetentionWake u s
  | .domainDeclare rcd => Sys2Proof.Machine.execDomainDeclare rcd s
  | .swallowRateUpdate dom sw => Sys2Proof.Machine.execSwallowRateUpdate dom sw s
  | .rampWindowBoundary n => Sys2Proof.Machine.execRampWindowBoundary n s
  | .jobStopInstant job => Sys2Proof.Machine.execJobStopInstant job s
  | .gangResumeInstant job => Sys2Proof.Machine.execGangResumeInstant job s
  | .gangGraceExpiry job => Sys2Proof.Machine.execGangGraceExpiry job s
  | .haltWaveArrival job origin jt => Sys2Proof.Machine.execHaltWaveArrival job origin jt s
  | .haltReport job => Sys2Proof.Machine.execHaltReport job s
  | .causeRecordSettle job => Sys2Proof.Machine.execCauseRecordSettle job s
  | .resumeWaveArrival job tr jz => Sys2Proof.Machine.execResumeWaveArrival job tr jz s
  | .resumeInstant job => Sys2Proof.Machine.execResumeInstant job s
  | .seamLinkFail link => Sys2Proof.Machine.execSeamLinkFail link s
  | .fabricPacketReceive p => Sys2Proof.Machine.execFabricPacketReceive p s
  | .fabricAckTimer src => Sys2Proof.Machine.execFabricAckTimer src s
  | .packetResendTimeout dst => Sys2Proof.Machine.execPacketResendTimeout dst s
  | .flitReceive port f => Sys2Proof.Machine.execFlitReceive port f s
  | .laneDown port lane => Sys2Proof.Machine.execLaneDown port lane s
  | .retrainComplete port => Sys2Proof.Machine.execRetrainComplete port s
  | .retrainTimeout port => Sys2Proof.Machine.execRetrainTimeout port s
  | .timeSyncMeasure t0 t1 t2 t3 => Sys2Proof.Machine.execTimeSyncMeasure t0 t1 t2 t3 s
  | .collectiveHandshake h => Sys2Proof.Machine.execCollectiveHandshake h s
  | .collectiveGo job num ok => Sys2Proof.Machine.execCollectiveGo job num ok s
  | .collectiveCompletion job num => Sys2Proof.Machine.execCollectiveCompletion job num s
  | .hostWindowAccess func off write data => Sys2Proof.Machine.execHostWindowAccess func off write data s
  | .queuePageWrite func page off data => Sys2Proof.Machine.execQueuePageWrite func page off data s
  | .vecStoreMsix page => Sys2Proof.Machine.execVecStoreMsix page s
  | .ident => Sys2Proof.Machine.execIdent s
  | .read => Sys2Proof.Machine.execRead s
  | .attest => Sys2Proof.Machine.execAttest s
  | .hbmerr => Sys2Proof.Machine.execHbmerr s
  | .window => Sys2Proof.Machine.execWindow s
  | .link => Sys2Proof.Machine.execLink s
  | .commit => Sys2Proof.Machine.execCommit s
  | .bootld => Sys2Proof.Machine.execBootld s
  | .power => Sys2Proof.Machine.execPower s
  | .therm => Sys2Proof.Machine.execTherm s
  | .powerStateChange => Sys2Proof.Machine.execPowerStateChange s
  | .powerMeasure share watts => Sys2Proof.Machine.execPowerMeasure share watts s
  | .thermalThreshold temp => Sys2Proof.Machine.execThermalThreshold temp s
  | .deviceReset => Sys2Proof.Machine.execDeviceReset s
  | .cxlLinkDownAccess port => Sys2Proof.Machine.execCxlLinkDownAccess port s
  | .spoolOrAmcastWaitPassesD c => Sys2Proof.Machine.execSpoolOrAmcastWaitPassesD c s
  | .uetWriteOrRead job region off write data => Sys2Proof.Machine.execUetWriteOrRead job region off write data s
  | .receivedFrameDropped port => Sys2Proof.Machine.execReceivedFrameDropped port s
  | .doorbellWrite v => Sys2Proof.Machine.execDoorbellWrite v s
  | .spareCoreRemap n => Sys2Proof.Machine.execSpareCoreRemap n s
  | .scrubbing granule ok => Sys2Proof.Machine.execScrubbing granule ok s

end Sys2Proof.Machine
end

