-- ==== Sys2Proof/Machine/Cycle.lean ====
section
/-! DEFINITION. One cycle of the engines and of the waits: what completes and signals, what takes, what starts, in the
order of R289; and the cycles that pass while an agent moves (R81, R165, R172, R177, R178, R254, R288, R289, R372,
R381; notes/assumptions/2.md). -/

namespace Sys2Proof.Machine

/-- The state after an event of the machine. -/
def State.after (s : State) (i : Instr) : State :=
  match exec i s with
  | .next t => t
  | _ => s

/-- Something that happens in cycle t, whatever cycle it is now, and whoever moves. -/
def State.inCycle (s : State) (t : Nat) (f : State → State) : State :=
  { f { s with now := t } with now := s.now, cur := s.cur }

/-! ## Completions and signals -/

/-- Every command of a core's units that is ready completes, and every reply that is due lands. -/
def State.landAll (s : State) (n : Nat) : State :=
  let c := s.fg n
  let s := c.inflight.foldl (fun s _ => s.after (.inFlightReinject n)) s
  let s := c.vx.run.foldl (fun s _ => s.after (.engineCommandComplete n .vx)) s
  let s := c.mt.run.foldl (fun s _ => s.after (.engineCommandComplete n .mt)) s
  let s := c.vreads.foldl (fun s _ =>
    match s.heldRead n with
    | some (v, r) => s.landRead n v r
    | none => s) s
  c.vreads.foldl (fun s _ =>
    match s.lateRead n with
    | some v => s.endRead n v 1 0 none
    | none => s) s

/-- The packets of a copy engine with nothing left to wait for complete; a promise may have passed (R316, R329). -/
def State.landCopies (s : State) (n : Nat) : State :=
  let s := if (s.fg n).ce0.q.isEmpty && (s.fg n).ce0.lane.isEmpty then s
    else (s.after (.copyPacketCompletion (.core n false))).after (.missedPromise n false)
  if (s.fg n).ce1.q.isEmpty && (s.fg n).ce1.lane.isEmpty then s
  else (s.after (.copyPacketCompletion (.core n true))).after (.missedPromise n true)

/-- The running commands of the Mangle read and write what this cycle gives them (R172, R177, R178). -/
def State.workAll (s : State) (n : Nat) : State :=
  let r := (s.fg n).mt.run.foldl (fun (a : State × List Pending) p =>
    let x := a.1.workCycle n p
    (x.1, a.2 ++ [x.2])) (s, [])
  r.1.modFg n (fun c => { c with mt := { c.mt with run := r.2 } })

/-- What completes and signals at core n in this cycle. -/
def State.signalsOf (s : State) (n : Nat) : State :=
  if (s.core n).busy = false ∨ (s.fg n).stop.isSome = true ∨ s.pulse n = false then s
  else
    let t := (s.landAll n).landCopies n
    if (t.fg n).mt.run.isEmpty then t else t.workAll n

/-! ## The heads of the engines -/

/-- Whether an engine has a head, or a ring that gives it one. -/
def Engine.alive (g : Engine) : Bool := !g.q.isEmpty || !g.lane.isEmpty || decide (g.st = .ring)

/-- The head of an engine is tried, and its wait may have passed D. -/
def State.headOf (s : State) (n : Nat) (e : Eng) : State :=
  if ((s.fg n).eng e).alive = false then s
  else (s.after (.engineEntryStart n e)).after (.engineWaitTimeout n e)

/-- The heads of VX and MT.  An `MMA` that starts in this cycle leases its banks against a vector command that starts
in it too (R172): the vector head is then tried again, and fails where it reads a leased bank. -/
def State.unitHeads (s : State) (n : Nat) : State :=
  let v := s.headOf n .vx
  let m := v.headOf n .mt
  let run := (m.fg n).mt.run
  let put (s : State) (l : List Pending) : State := s.modFg n (fun c => { c with mt := { c.mt with run := l } })
  if (m.fg n).mt.seq = (v.fg n).mt.seq ∨ (v.fg n).vx.seq = (s.fg n).vx.seq then m
  else
    let u := (put s run).headOf n .vx
    if (u.fg n).vx.st = .stopped ∧ (u.fg n).vx.cause = 2 then (put u (s.fg n).mt.run).headOf n .mt else m

/-- What starts at core n in this cycle: the heads take in the order VX, MT, CE0, CE1 (R289). -/
def State.headsOf (s : State) (n : Nat) : State :=
  if s.engMoves n = false ∨ s.pulse n = false then s
  else ((s.unitHeads n).headOf n .ce0).headOf n .ce1

/-! ## Waits -/

/-- The instructions of the sequencer that signal or take before the heads do (R289). -/
def semFirst : Instr → Bool
  | .semwait _ => true
  | .semsig _ => true
  | .semadd _ => true
  | _ => false

/-- An agent's wait is tested: its condition, then its deadline; `sem` says which waits are meant. -/
def State.testWait (s : State) (sem : Bool) (a : Agent) : State :=
  match s.waiting a with
  | some (_, w, _, _) =>
    if semFirst w.instr = sem then s.inCycle s.now (fun s => (s.after (.waitConditionMet a)).after (.deadlineExpiry a)) else s
  | none => s

/-- A core's held word, and its wait for a bank format, are tried (R45, R283). -/
def State.testHold (s : State) (a : Agent) : State :=
  match a with
  | .core n =>
    s.inCycle s.now (fun s =>
      let s := if (s.fg n).hold.isSome then (s.after (.forwardHoldRelease n)).after (.forwardHoldTimeout n) else s
      if (s.fg n).bfmtPend.isSome then s.after (.bfmtTakesEffect n) else s)
  | .thread _ => s

/-- The agents other than the one that moves. -/
def State.others (s : State) (me : Option Agent) : List Agent :=
  (s.cores.map (fun c => Agent.core c.1) ++ s.hamper.threads.map (fun t => Agent.thread t.1)).filter
    (fun a => decide (some a ≠ me))

/-! ## A cycle of the package -/

/-- The first part of a cycle: the signals, and the takes of the waiting sequencers. -/
def State.cycleFirst (s : State) (me : Option Agent) : State :=
  (s.others me).foldl (fun s a => s.testWait true a) ((s.cores.map (fun c => c.1)).foldl State.signalsOf s)

/-- The second part: the heads' takes and starts, and the other waits. -/
def State.cycleRest (s : State) (me : Option Agent) : State :=
  (s.others me).foldl (fun s a => (s.testWait false a).testHold a) ((s.cores.map (fun c => c.1)).foldl State.headsOf s)

/-- The cycles from `seen` on, k of them, in which no agent moves. -/
def State.catchGo : Nat → State → State
  | 0, s => s
  | k + 1, s =>
    let t := s.inCycle s.seen (fun s => (s.cycleFirst none).cycleRest none)
    State.catchGo k { t with seen := s.seen + 1 }

/-- The cycles that have passed while an agent moved: where engines run beside their sequencers, each goes on in each of
them.  Before boot is over and in power state 2 nothing moves. -/
def State.catchUp (s : State) : State :=
  if s.lockstep then s
  else if s.mgmt.up = false ∨ s.mgmt.pstate = 2 then { s with seen := s.now }
  else State.catchGo (s.now - s.seen) s

/-- What the captured commands of core n still do before a freeze takes effect (R381). -/
def State.drainFrozen (s : State) (n : Nat) : State :=
  if (s.fg n).stop.isSome && (s.fg n).inflight.any (fun p => p.drain) then
    let r := (s.fg n).inflight.foldl (fun (a : State × List Pending) p =>
      let x := if p.drain then a.1.drainWork n p else (a.1, p)
      (x.1, a.2 ++ [x.2])) (s, [])
    r.1.modFg n (fun c => { c with inflight := r.2 })
  else s

/-- The engines' part of a turn before the sequencer's own takes: in the view of the first part those of the core that
moves, else one cycle of the package. -/
def State.turnFirst (s : State) (n : Nat) : State :=
  if s.lockstep then s.signalsOf n
  else if s.seen ≤ s.now then s.cycleFirst (some (.core n))
  else s

/-- The rest of it, in the cycle t in which the turn began. -/
def State.turnRest (s : State) (n t : Nat) : State :=
  if s.lockstep then s.inCycle t (fun s => s.headsOf n)
  else if s.seen ≤ t then { s.inCycle t (fun s => s.cycleRest (some (.core n))) with seen := t + 1 }
  else s

end Sys2Proof.Machine
end

