-- ==== Sys2Proof/Machine/Turn.lean ====
section
/-! DEFINITION. One turn of an agent: what a core or a Hamper thread does next when it is its turn, and the turns of a
core that is stepped (R12, R17, R37, R78, R82, R282, R330, R379, R445, R446). -/

namespace Sys2Proof.Machine

/-! ## The instruction at a core's PC (R17, R78) -/

/-- The byte at an address of core n's task, where its page may be executed and the instruction cache holds it. -/
def State.icAt (s : State) (n : Nat) (va : Word) : Option Byte :=
  if zoneOf va.toNat ≠ .paged then none
  else
    match (s.translate n (s.fg n).ident.job va.toNat needX).1 with
    | .ok pa _ => (s.core n).icByte pa
    | _ => none

/-- k bytes from an address, where the instruction cache holds them. -/
def State.icBytes (s : State) (n : Nat) (va : Word) : Nat → Option (List Byte)
  | 0 => some []
  | m + 1 =>
    match s.icAt n va with
    | none => none
    | some b => (State.icBytes s n (va + 1) m).map (fun r => b :: r)

/-- The whole instruction at core n's PC, where the instruction cache holds it. -/
def State.fetched (s : State) (n : Nat) : Option (List Byte) :=
  let va := (s.fg n).pc
  match s.icBytes n va 2 with
  | none => none
  | some h =>
    match s.icBytes n (va + 2) (fetchLen h - 2) with
    | none => none
    | some r =>
      let bs := h ++ r
      match s.icBytes n (va + 8) (fetchLen bs - bs.length) with
      | none => none
      | some q => some (bs ++ q)

/-- Which poison keeps an instruction from issuing: that of a scalar it reads, or of a control entry that it reads at
the sequencer (R394). -/
def Ctx.poisonAt (c : Ctx) (i : Instr) : Option Nat :=
  if c.regs.pois.isEmpty then none
  else
    match c.regs.poisonAmong ((seqReads i).filter (fun k => decide (k < 32))) with
    | some a => some a
    | none =>
      let w := (encode64 i).getD 0
      if 1 ≤ getClass w ∧ getClass w ≤ 3 then none
      else if c.regs.ctlPoisoned i then some 4
      else
        match i with
        | .dld f =>
          match zoneOf ((xget c.regs.x f.a).toNat : Int) with
          | .window k _ => if c.regs.pois.contains (poisWin k) then some 4 else none
          | _ => none
        | _ => none

/-- Whether a word's class is illegal in this context (R82): it traps before any wait. -/
def Ctx.barred (c : Ctx) (i : Instr) : Bool :=
  match encode64 i with
  | some w => decide (getClass w = 4) || (decide (getClass w = 5) && !c.ident.desc.sup)
  | none => false

/-- The bytes at the PC are issued: as an illegal instruction, behind an interlock not yet, as poison, or as the
instruction that they decode to. -/
def State.issue (s : State) (n : Nat) (bs : List Byte) : Out :=
  match decodeBytes bs with
  | none => .next (s.trapHere 0x01 (illegalWord bs))
  | some (i, _) =>
    if (s.fg n).barred i then exec i s
    else if (s.fg n).stalls i then .next (s.tick 1)
    else
      match (s.fg n).poisonAt i with
      | some a => .next (s.trapHere 0x0A (wOf (2 ^ 63 + a)))
      | none => exec i (s.begins n)

/-! ## The turn of a core -/

/-- A waiting instruction's turn: its test, then its expiry, then a cycle passes. -/
def State.waitTurn (s : State) (a : Agent) (waits : State → Bool) : State :=
  let s1 := s.after (.waitConditionMet a)
  if waits s1 then
    let s2 := s1.after (.deadlineExpiry a)
    if waits s2 then s2.tick 1 else s2
  else s1

/-- Whether core n's sequencer signals or takes in this cycle, and so comes before the heads of its engines (R289). -/
def State.seqFirst (s : State) (n : Nat) : Bool :=
  let c := s.fg n
  match c.wait with
  | some w => semFirst w.instr
  | none => (((s.fetched n).bind decodeBytes).map (fun x => semFirst x.1)).getD false

/-- The turn of core n's sequencer: a cycle whose pulse is swallowed only passes (R372). -/
def State.seqTurn (s : State) (n : Nat) : Out :=
  let c := s.fg n
  if c.stop.isSome ∨ s.pulse n = false then .next (s.pass 1)
  else if c.atBoundary && (c.pendingTrap.isSome || c.drainStuck) then exec (.trapTake n) s
  else if c.bfmtPend.isSome then
    let t := s.after (.bfmtTakesEffect n)
    .next (if (t.fg n).bfmtPend.isNone then t else s.tick 1)
  else if c.hold.isSome then
    let t := s.after (.forwardHoldRelease n)
    if (t.fg n).hold.isNone then .next t
    else
      let t := s.after (.forwardHoldTimeout n)
      .next (if (t.fg n).hold.isNone then t else s.tick 1)
  else if (s.heldRead n).isSome then exec (.waitConditionMet (.core n)) s
  else if c.wait.isSome then .next (s.waitTurn (.core n) (fun t => (t.fg n).wait.isSome))
  else if c.exiting then
    let t := s.after (.taskEnd n)
    .next (if (t.core n).busy then s.tick 1 else t)
  else
    match s.fetched n with
    | none => exec .instructionFetch s
    | some bs => s.issue n bs

/-! ## The turns of a core that is stepped (R445, R446) -/

/-- Whether an instruction of the sequencer would put traffic outside the core (R446) (notes/assumptions/49.md). -/
def State.outward (s : State) (i : Instr) : Bool :=
  match i with
  | .dld f => decide (zoneOf ((s.xr f.a).toNat : Int) ≠ .loc)
  | .bar _ => true
  | .bara _ => true
  | .barx _ => true
  | .ecall => true
  | .tlaunch _ => true
  | .tarm _ => true
  | .tyield _ => true
  | .ctxswap _ => true
  | .ctxsave _ => true
  | .ctxsaveKeep _ => true
  | .ctxload _ => true
  | .tkill _ => true
  | .matset _ => true
  | .tlbinvPg _ => true
  | .tlbinvAs _ => true
  | .tlbinvAll _ => true
  | .hreq _ => true
  | _ => false

/-- Whether a copy packet has an endpoint outside the core's own scratchpad, or sends a signal or a decrement. -/
def copyOutward (i : Instr) : Bool :=
  let far (a : Word) : Bool := decide (zoneOf (a.toNat : Int) ≠ .loc)
  match i with
  | .copy p => p.cmd.dc || far p.dst || far p.src
  | .fill p => p.cmd.dc || far p.dst
  | .accw p => p.cmd.dc || far p.dst || far p.src
  | .fop p => p.cmd.dc || far p.dst || far p.src
  | .cas p => p.cmd.dc || far p.dst || far p.src
  | .redcopy p => p.cmd.dc || far p.dst || far p.src
  | .spfill p => p.cmd.dc || far p.src
  | .spdrain p => p.cmd.dc || far p.dst
  | _ => true

/-- Whether an engine entry would put traffic outside the core. -/
def entryOutward (q : QEntry) : Bool :=
  match q.instr with
  | none => false
  | some (.vldw _) => true
  | some (.vtrd _) => true
  | some (.vst _) => decide (zoneOf (q.xa.toNat : Int) ≠ .loc)
  | some (.vsts _) => decide (zoneOf (q.xa.toNat : Int) ≠ .loc)
  | some (.vstx _) => decide (zoneOf (q.xa.toNat : Int) ≠ .loc)
  | some i => getClass q.word = 3 && copyOutward i

def State.stepResult (s : State) (n : Nat) (r : Nat) : State :=
  s.setCore n { s.core n with stepRes := some (r, 0) }

/-- Whether something of core n is in progress that later pulses bring to its end. -/
def Ctx.progress (c : Ctx) : Bool := !c.inRun.isEmpty

/-- The engines' part of a step's pulse: what is ready completes. -/
def State.landReady (s : State) (n : Nat) : State := (s.turnFirst n).turnRest n s.now

/-- The sequencer's item of a step: what has come of the instruction at the PC, or of what the sequencer was waiting
for; none where the item is blocked, which leaves everything as it was. -/
def State.stepSeq (s : State) (n : Nat) : Option State :=
  let c := s.fg n
  if c.hold.isSome then
    let t := s.after (.forwardHoldRelease n)
    if (t.fg n).hold.isNone then some (t.stepResult n 0) else none
  else if c.exiting then none
  else
    match c.wait with
    | some _ =>
      match s.waiting (.core n) with
      | none => none
      | some (k, w, test, _) => (test s k w).map (fun t => if (t.core n).stepRes.isSome then t else t.stepResult n 0)
    | none =>
      let s := if (s.fetched n).isSome then s else s.after .instructionFetch
      if (s.core n).stepRes.isSome then some s
      else
        match s.fetched n with
        | none => none
        | some bs =>
          let d := decodeBytes bs
          let wait := (d.map (fun x => c.stalls x.1)).getD false
          if wait ∧ c.progress = true then some (s.tick 1)
          else if wait ∨ (d.map (fun x => s.outward x.1)).getD false = true then none
          else
            match s.issue n bs with
            | .next t =>
              let t := if (t.fg n).bfmtPend.isSome then t.after (.bfmtTakesEffect n) else t
              let k := t.core n
              match k.stepRes with
              | some (1, _) => none
              | some _ => some t
              | none => if k.fg.wait.isSome ∨ k.fg.hold.isSome ∨ k.fg.bfmtPend.isSome then none else some (t.stepResult n 0)
            | _ => none

/-- The head of an engine is tried. -/
def State.tryHead (s : State) (n : Nat) (e : Eng) : State :=
  match e with
  | .vx => s.moveUnit n .vx
  | .mt => s.moveUnit n .mt
  | .ce0 => s.moveCopy n .ce0
  | .ce1 => s.moveCopy n .ce1

/-- A trap that the stepped engine has raised is the step's (R444). -/
def State.stepTrap (s : State) (n : Nat) (e : Eng) : State :=
  let c := s.fg n
  match (c.eng e).trap with
  | some (cause, v) =>
    (s.setFg n (c.setEng e { c.eng e with trap := none })).takeTrap n cause.toNat (engUnit e) c.pc v
  | none => if (c.eng e).st = .stopped then s.stepResult n 0 else s

/-- An engine's item of a step: its head starts, after one test. -/
def State.stepEng (s : State) (n : Nat) (e : Eng) : State :=
  if ((s.fg n).eng e).st = .stopped then s.stepResult n 3
  else
    let t := s.ringFetch n e
    let g := (t.fg n).eng e
    match (t.fg n).copyHead e with
    | none => if g.st = .stopped then t.stepTrap n e else s.stepResult n 3
    | some (_, q) =>
      if entryOutward q then s.stepResult n 1
      else
        let u := t.tryHead n e
        let h := (u.fg n).eng e
        if h.st = .stopped then u.stepTrap n e
        else if h.seq ≠ g.seq then u.stepResult n 0
        else if q.started then u.stepResult n 0
        else if (s.fg n).progress then s.tick 1
        else s.stepResult n 1

/-- The pulses of a step while its result is not out: the item is tried, or what it started goes on to its end. -/
def State.stepTurn (s : State) (n u : Nat) (res : Option (Nat × Byte)) : State :=
  let s := s.landReady n
  match res with
  | none =>
    if u = 0 then
      match ({ s with lockstep := false } : State).stepSeq n with
      | some t => { t with lockstep := s.lockstep }
      | none => s.stepResult n 1
    else s.stepEng n (engOf (u - 1))
  | some (2, _) => s.after (.stepEnd n)
  | some _ =>
    let e := engOf (u - 1)
    if (s.fg n).stepDone u then s.after (.stepEnd n)
    else
      let s := if u ≤ 2 then s else (s.tryHead n e)
      (if ((s.fg n).eng e).trap.isSome then s.stepTrap n e else s).tick 1

/-! ## The turn of a Hamper thread (R330, R331) -/

/-- k bytes of Hamper memory from an offset; those of the hardware's own regions are free values. -/
def State.codeBytes (s : State) (a k : Nat) : List Byte :=
  (List.range k).map (fun j =>
    if 0x2800000 ≤ a + j then Config.freeByte (a + j) else memByte s.mem (hamperBase + a + j))

/-- The turn of thread h: its wait's, or the instruction at its PC. -/
def State.threadTurn (s : State) (h : Nat) : Out :=
  if (s.thread h).wait.isSome then
    .next (if (s.waiting (.thread h)).isSome then s.waitTurn (.thread h) (fun t => (t.thread h).wait.isSome) else s.tick 1)
  else
    let pc := (s.thread h).pc
    let bs := s.codeBytes pc.toNat 8
    let len := min 8 (lenOf (leTake bs 2))
    if 2 ^ 26 < pc.toNat + len then .next (s.trapHere 0x10 pc)
    else if (firstPoison s.poison (hamperBase + pc.toNat) len).isSome then .next (s.trapHere 0x0A pc)
    else
      match decodeThread (bs.take len) with
      | none => .next (s.trapHere 0x01 (illegalWord bs))
      | some (i, _) => exec i s

/-! ## Whose turn it is -/

/-- The turn of an agent: before boot has released them, and for cores while the power state is 2, nothing moves and
a cycle passes (R473, R477). -/
def State.agentTurn (s : State) : Out :=
  match s.cur with
  | .core n =>
    let k := s.core n
    if s.mgmt.up = false ∨ s.mgmt.pstate = 2 ∨ k.busy = false ∨ k.fg.stop.isSome = true then .next (s.pass 1)
    else
      match k.stepping with
      | some (u, _) => .next (s.stepTurn n u k.stepRes)
      | none =>
        let t := s.turnFirst n
        if t.seqFirst n then
          match t.seqTurn n with
          | .next u => .next (u.turnRest n s.now)
          | o => o
        else (t.turnRest n s.now).seqTurn n
  | .thread h => if s.mgmt.up = false ∨ 512 ≤ h then .next (s.tick 1) else s.threadTurn h

/-- Whether a constructor is an event of the package, and not an instruction of a program: those come only from
memory.  A word is forwarded only as an instruction at a PC, and a thread is restarted from outside only by the
failure of its core (R395).  What the machine does by itself in its own cycle comes from no schedule either; of a copy
engine, only that a started packet goes on. -/
def isEvent : Instr → Bool
  | .wordForward _ _ => false
  | .forwardHoldRelease _ => false
  | .forwardHoldTimeout _ => false
  | .engineWaitTimeout _ _ => false
  | .engineCommandComplete _ _ => false
  | .inFlightReinject _ => false
  | .bfmtTakesEffect _ => false
  | .trapTake _ => false
  | .waitConditionMet _ => false
  | .deadlineExpiry _ => false
  | .instructionFetch => false
  | .stepEnd _ => false
  | .hamperThreadTrap _ c _ => decide (c = 0x0A)
  | i => (encode i).isEmpty

/-- Whether a packet's next piece begins with the claim of a slot: claims are made in the order of R301. -/
def QEntry.claims (q : QEntry) : Bool :=
  match q.instr with
  | some (.spfill _) => q.claim.isNone
  | some (.spdrain _) => q.claim.isNone
  | _ => false

/-- Of the engines' heads, only a copy engine's started packet goes on when the schedule says so, and the Hamper's. -/
def State.fromOutside (s : State) (i : Instr) : Bool :=
  match i with
  | .engineEntryStart n e =>
    decide (4096 ≤ n) || (match (s.fg n).copyHead e with
      | some (_, q) => q.started && (s.lockstep || !q.claims)
      | none => false)
  | _ => true

/-- One turn: what the schedule of agents and events names next, or else the current agent's. -/
def State.turn (s : State) : Out :=
  match s.sched with
  | [] => s.agentTurn
  | .run a :: r => ({ s with sched := r, cur := a } : State).agentTurn
  | .event i :: r => if isEvent i && s.fromOutside i then exec i { s with sched := r } else .next { s with sched := r }
  | .pass k :: r => .next (({ s with sched := r } : State).pass k)

end Sys2Proof.Machine
end

