-- ==== Sys2Proof/Machine/Step.lean ====
section
/-! DEFINITION. The step of the package, and how a word is placed where the step fetches next. -/

namespace Sys2Proof.Machine

/-- What stands around every turn: a freeze takes effect, the cycles that the turn took pass for every unit, copies that
wait for a free entry of their store queue go on (R235), those of a frozen core come to the end of their piece (R381), acknowledgements of invalidations leave (R239),
killed tasks whose writes are performed count (R193), units in retention wake (R361), `ccyc` slews as
time passes (R33), and the stop and resume instants of jobs that have come take effect (R402, R415, R416, R447), what their collectives hold back goes out (R461), as do the fabric's timers that have run out (R431, R432, R434), and
the power state changes (R478). -/
def State.settleTurn (s : State) : State :=
  let s := ((s.cores.map (fun c => c.1)).foldl State.drainFrozen s).catchUp
  (((s.cores.map (fun c => c.1)).foldl State.copyTurn s).tlbAnswer).settleEnding.wakeUnits.slewTick.dueJobs.dueColls.dueFabric.duePower

def afterTurn : Out → Out
  | .next s => .next s.settleTurn
  | o => o

/-- One step: a module whose power is removed has no machine left (R479). -/
def step (s : State) : Host.Outcome State Fault Refusal :=
  if s.mgmt.off then .fault .powerRemoved else afterTurn s.turn

/-- Places an instruction of `nbits` bits, with zeros above them, where the next step fetches: at the PC of thread 0
in Hamper memory where its class is that of Hamper threads, else in the instruction cache of core 0, which holds a
task in supervisor mode whose PC lies in a mapped page; that agent is the current one, and boot is over
(notes/assumptions/20.md). -/
def State.withFetchWord (s : State) (nbits w : Nat) : State :=
  let bs := tableBytes 64 (w % 2 ^ nbits)
  let s : State := { s with sched := [], mgmt := { s.mgmt with up := true, off := false, pstate := 0 } }
  if leTake bs 2 % 64 = 63 ∧ leTake bs 8 / 128 % 8 = 4 then
    let t := s.thread 0
    (({ s with cur := .thread 0 } : State).setThread 0 { t with wait := none }).putBytes (hamperBase + t.pc.toNat) bs
  else
    let k := s.core 0
    let f := k.fg
    let d : Desc := { f.ident.desc with sup := true }
    let i : Ident := { f.ident with desc := d }
    let pc : Word := if zoneOf f.pc.toNat = .paged ∧ f.pc.toNat % 2 ^ 14 + 64 ≤ 2 ^ 14 then f.pc else 0x40000000
    let c : Ctx := { f with ident := i, pc := pc, wait := none, hold := none, bfmtPend := none, stop := none, exiting := false }
    let page : Tlb := { asid := s.asidOf f.ident.job, va := pc.toNat / 2 ^ 14 * 2 ^ 14, size := 2 ^ 14
                        pte := wOf (s.pkgid * 2 ^ 45 + 1 + 2 + 4 + 16) }
    let ic := (List.range 64).map (fun j => (s.pkgid * 2 ^ 45 + pc.toNat % 2 ^ 14 + j, bs.getD j 0))
    ({ s with cur := .core 0 } : State).setCore 0
      { k with busy := true, stepping := none, stepRes := none, fg := c, utlb := page :: k.utlb, icache := ic ++ k.icache }

end Sys2Proof.Machine
end

