-- ==== Sys2Proof/Safety.lean ====
section
/-! DEFINITION. The terms that claims are stated in: what a safe step is, the invariants, and what a state keeps of
an earlier one. -/

namespace Sys2Proof.Machine

/-! ## Safe steps and invariants -/

/-- A step is safe when it reaches a next state: it neither faults nor is refused. -/
def State.stepsOn (s : State) : Prop := ∃ t, step s = .next t

/-- The memory and the tables of poison and of cores are in their canonical forms, so that equal contents are equal
data. -/
def State.canonical (s : State) : Prop := Memory.wf s.mem = true

/-! ## What issues -/

/-- The sequencer of core n issues an instruction: it runs, in a cycle with a pulse, with no trap pending and nothing that it
waits for, the bytes at its PC decode to the instruction, whose class its context may run, and neither an interlock nor
poison keeps it back. -/
def State.issues (s : State) (n : Nat) (i : Instr) : Prop :=
  let c := s.fg n
  c.stop = none ∧ s.pulse n = true ∧ c.pendingTrap = none ∧ c.drainStuck = false ∧ c.bfmtPend = none ∧ c.hold = none ∧
    s.heldRead n = none ∧ c.wait = none ∧ c.exiting = false ∧
    (∃ bs len, s.fetched n = some bs ∧ decodeBytes bs = some (i, len)) ∧ c.barred i = false ∧ c.stalls i = false ∧
    c.poisonAt i = none

/-- Core n is what moves: the schedule names nothing else, boot is over, the power state lets it run, and a task runs on it,
neither stopped nor stepped. -/
def State.moves (s : State) (n : Nat) : Prop :=
  s.mgmt.off = false ∧ s.mgmt.up = true ∧ s.mgmt.pstate ≠ 2 ∧ s.sched = [] ∧ s.cur = .core n ∧ (s.core n).busy = true ∧
    (s.fg n).stop = none ∧ (s.core n).stepping = none

/-- Nothing is queued, started or awaited in the engines of core n. -/
def State.enginesEmpty (s : State) (n : Nat) : Prop :=
  (∀ e, ((s.fg n).eng e).alive = false) ∧ (s.fg n).inflight = [] ∧ (s.fg n).vreads = [] ∧ (s.fg n).vx.run = [] ∧
    (s.fg n).mt.run = []

/-! ## What is kept -/

/-- Every byte of memory, and the poison of every byte, reads in `t` as in `s`. -/
def State.sameMemory (s t : State) : Prop :=
  ∀ a, memByte t.mem a = memByte s.mem a ∧ poisonedByte t.poison a = poisonedByte s.poison a

/-- Every byte of memory outside k bytes from a reads in `t` as in `s`. -/
def State.sameMemoryOutside (s t : State) (a k : Nat) : Prop :=
  ∀ b, (b < a ∨ a + k ≤ b) → memByte t.mem b = memByte s.mem b

/-- Everything but core n, memory and time is as before: the other cores, the jobs, the Hamper, the schedulers, the
master access tables, the fabric and the management state. -/
def State.sameElsewhere (s t : State) (n : Nat) : Prop :=
  (∀ m, m ≠ n → t.core m = s.core m) ∧ t.jobs = s.jobs ∧ t.hamper = s.hamper ∧ t.sch = s.sch ∧ t.mat = s.mat ∧
    t.fab = s.fab ∧ t.mgmt = s.mgmt ∧ t.cur = s.cur

/-- The registers of a context outside the scalar file, its engines and its control state are as before: vectors,
predicates, tiles, codebooks, CSRs, semaphores, spools, tags, windows, the trap record. -/
def Ctx.sameButScalars (c d : Ctx) : Prop :=
  (∀ r, d.v r = c.v r) ∧ (∀ r, d.p r = c.p r) ∧ d.regs.tile = c.regs.tile ∧ d.regs.tcfg = c.regs.tcfg ∧
    d.regs.cb = c.regs.cb ∧ d.regs.bind = c.regs.bind ∧ d.csr = c.csr ∧ (∀ k, d.semOf k = c.semOf k) ∧
    (∀ k, d.spool k = c.spool k) ∧ d.tag = c.tag ∧ d.tvp = c.tvp ∧ d.win = c.win ∧ d.rcd = c.rcd ∧ d.hact = c.hact ∧
    (∀ e, d.eng e = c.eng e) ∧ d.ident = c.ident

/-- Every scalar register but `rd` is as before. -/
def Ctx.sameScalarsBut (c d : Ctx) (rd : BitVec 5) : Prop := ∀ r, r ≠ rd → d.x r = c.x r

/-! ## The units of a core at rest -/

/-- Core n moves, in the view in which an engine word with nothing ahead of it starts at once, outside its handler;
nothing of its vector unit or its Mangle is queued, started or waited for, no register is poisoned, no scalar
register was written by a later instruction than the next one, and `vflags` holds only its six flags. -/
def State.unitsAtRest (s : State) (n : Nat) : Prop :=
  let c := s.fg n
  s.cur = .core n ∧ s.lockstep = true ∧ c.hact = false ∧
    (c.vx.st = .idle ∧ c.vx.q = [] ∧ c.vx.lane = [] ∧ c.vx.run = []) ∧
    (c.mt.st = .idle ∧ c.mt.q = [] ∧ c.mt.lane = [] ∧ c.mt.run = []) ∧
    c.inflight = [] ∧ c.vreads = [] ∧ c.regs.pois = [] ∧ (∀ k, tget 0 c.xord k ≤ c.ord) ∧ c.csr.vflags.toNat < 64

/-- The semaphores let a word start and signal: its `wait` count is there, and its `sig` count does not overflow. -/
def Ctx.semsAllow (c : Ctx) (w sg : BitVec 8) : Prop :=
  (w = 0 ∨ 1 ≤ (c.semOf w.toNat).toNat) ∧ (sg = 0 ∨ sg = w ∨ (c.semOf sg.toNat).toNat < 65535)

/-- The counts after a word has taken its `wait` and given its `sig`; semaphore 0 keeps its count. -/
def Ctx.semsMoved (c d : Ctx) (w sg : BitVec 8) : Prop :=
  ∀ k, (d.semOf k).toNat + (if k = w.toNat ∧ k ≠ 0 then 1 else 0) =
    (c.semOf k).toNat + (if k = sg.toNat ∧ k ≠ 0 then 1 else 0)

/-- A spool that can be a vector operand: configured with slots of 128 bytes. -/
def Spool.vectors (p : Spool) : Prop := p.cfg = true ∧ p.ssz = 2

/-- The offset of a spool's head slot. -/
def Spool.headAt (p : Spool) : Nat := p.base + 64 * p.ssz * p.hd

/-- The offset of the slot that a spool's next producer gets. -/
def Spool.tailAt (p : Spool) : Nat := p.base + 64 * p.ssz * p.tl

/-- The spool operands of a vector word at core n are ready: a source has a filled head slot without a token, clean and
not leased; a destination has a free slot. -/
def State.spoolsAllow (s : State) (n : Nat) (sm : BitVec 2) (a d : BitVec 5) : Prop :=
  let p := (s.fg n).spool a.toNat
  let q := (s.fg n).spool d.toNat
  (sm.getLsbD 0 = true → p.vectors ∧ 1 ≤ p.cnt ∧ p.tok.getLsbD p.hd = false ∧ s.leasedAt n p.headAt 128 = none ∧
    s.spadPoison n p.headAt 128 = false) ∧
  (sm.getLsbD 1 = true → q.vectors ∧ q.cnt + q.prs < q.nsl)

/-- A vector word of core n has completed with a result: the PC has moved past it, its semaphores have moved, the
result stands in its destination register or spool slot, and nothing else of the registers, of memory or outside the
core has changed. -/
def State.vxDone (s t : State) (n : Nat) (w sg : BitVec 8) (sm : BitVec 2) (d b : BitVec 5) (r : VDst) : Prop :=
  let c := s.fg n
  let u := t.fg n
  let slot := spadKey n (c.spool d.toNat).tailAt
  u.pc = c.pc + 8 ∧ c.semsMoved u w sg ∧ s.sameElsewhere t n ∧ u.tag = c.tag ∧ u.regs.tile = c.regs.tile ∧
    u.regs.tcfg = c.regs.tcfg ∧ u.regs.cb = c.regs.cb ∧ u.rcd = c.rcd ∧ u.csr.vfmode = c.csr.vfmode ∧
    u.csr.bfmt = c.csr.bfmt ∧
    (∀ k, u.v k = match r with
      | .vec v => if k = d ∧ sm.getLsbD 1 = false then v else c.v k
      | .vecScal v _ => if k = d ∧ sm.getLsbD 1 = false then v else c.v k
      | _ => c.v k) ∧
    (∀ k, k < 8 → u.p k = match r with
      | .pred v => if k = d.toNat % 8 then v else c.p k
      | _ => c.p k) ∧
    (∀ k, u.x k = match r with
      | .scal v => if k = 0 then 0 else if k = d then v else c.x k
      | .vecScal _ v => if k = 0 then 0 else if k = b then v else c.x k
      | _ => c.x k) ∧
    (sm.getLsbD 1 = false → s.sameMemory t) ∧
    (sm.getLsbD 1 = true → s.sameMemoryOutside t slot 128 ∧ (match r with
      | .vec v => memNat t.mem slot 128 = v.toNat
      | .vecScal v _ => memNat t.mem slot 128 = v.toNat
      | _ => True))

/-- The operands of a vector word of core n: its registers, the head slot in place of a spool source, zeros in place of
a spool destination's old elements, its predicate or all ones, and the scalars and the mode at the word. -/
def State.vxOperands (s : State) (n : Nat) (a b c d : BitVec 5) (pe : Bool) (pg : BitVec 3) (sm : BitVec 2)
    (xa xb xc : Word) : VIn :=
  let x := s.fg n
  { a := if sm.getLsbD 0 then BitVec.ofNat 1024 (memNat s.mem (spadKey n (x.spool a.toNat).headAt) 128) else x.v a
    b := x.v b, c := x.v c, d := if sm.getLsbD 1 then 0 else x.v d, a1 := x.v (a + 1), a2 := x.v (a + 2)
    a3 := x.v (a + 3), act := if pe then x.p pg.toNat else BitVec.allOnes 128, pa := x.p (a.toNat % 8)
    pb := x.p (b.toNat % 8), pd := x.p (d.toNat % 8), xa := xa, xb := xb, xc := xc, rm := wfld x.csr.vfmode 2 0
    nanz := x.csr.vfmode.getLsbD 3, cb := x.codebook
    fp := { fl := BitVec.ofNat 6 x.csr.vflags.toNat, seed := x.csr.srseed } }

/-- A vector word in Format V completes at core n with what `g` makes of its operands, flags and seed included. -/
def State.runsV (s : State) (n : Nat) (i : Instr) (f : FmtV) (g : VIn → VOut) : Prop :=
  (s.fg n).semsAllow f.wait f.sig → s.spoolsAllow n f.sm f.a f.d →
    let o := g (s.vxOperands n f.a f.b f.c f.d f.pe f.pg f.sm (s.xr f.a) (s.xr f.b) (s.xr f.c))
    ∃ t, exec i s = .next t ∧ s.vxDone t n f.wait f.sig f.sm f.d f.b o.dst ∧
      (t.fg n).csr.vflags = wOf o.fp.fl.toNat ∧ (t.fg n).csr.srseed = o.fp.seed

/-- The same in Format VI. -/
def State.runsVI (s : State) (n : Nat) (i : Instr) (f : FmtVI) (g : VIn → VOut) : Prop :=
  (s.fg n).semsAllow f.wait f.sig → s.spoolsAllow n f.sm f.a f.d →
    let o := g (s.vxOperands n f.a 0 0 f.d f.pe f.pg f.sm (s.xr f.a) 0 0)
    ∃ t, exec i s = .next t ∧ s.vxDone t n f.wait f.sig f.sm f.d 0 o.dst ∧
      (t.fg n).csr.vflags = wOf o.fp.fl.toNat ∧ (t.fg n).csr.srseed = o.fp.seed

end Sys2Proof.Machine
end

