-- ==== Sys2Proof/Certificates/Slice0/Obligations.lean ====
section
/-! DEFINITION. The statements for the provers.  Each says what the numbered rules of spec/ give an instruction, an
event or the machine; a statement named as the model's choice says so in its docstring. -/

open Sys2Proof Sys2Proof.Machine

/-! ## Reset -/

/-- Device reset leaves every counter, register and memory at the values that the spec states, and every core without
a task: R8, R26 to R32, R42, R401, R473.  The registers without a stated value are 0 by the model's choice
(notes/assumptions/1.md). -/
def Obligations.ResetLeavesStatedValues : Prop :=
  State.reset.ccyc = 0 ∧ Memory.wf State.reset.mem = true ∧
    ∀ n, (State.reset.core n).busy = false ∧ (State.reset.core n).shSt = .empty ∧
      (State.reset.fg n).csr.vfmode = 0 ∧ (State.reset.fg n).csr.vflags = 0 ∧ (State.reset.fg n).csr.tvec = 0 ∧
      (State.reset.fg n).csr.sdl = 0x1000 ∧ (State.reset.fg n).csr.srseed = 1 ∧ (State.reset.fg n).hact = false ∧
      (∀ k, (State.reset.fg n).semOf k = 0) ∧ (∀ k, ((State.reset.fg n).spool k).cfg = false) ∧
      (∀ t, tget 0 (State.reset.fg n).regs.tcfg t = 0) ∧ (∀ k, tget 0 (State.reset.fg n).tag k = 0) ∧
      (∀ e, ((State.reset.fg n).eng e).st = .idle ∧ ((State.reset.fg n).eng e).q = [])

/-! ## A step runs the decoded instruction -/

/-- A step of a core whose sequencer issues an instruction executes it: after the signals of the engines in the same cycle
and, unless it signals or takes a semaphore itself, after their takes and starts, which otherwise follow it; engines that
hold nothing change nothing around it, and a task's issue is noted only for a persistent launch.  A step of a Hamper thread
executes the instruction that the bytes at its PC in Hamper memory decode to, and a step executes the event that the
schedule names next, the model's form of what happens outside the programs (notes/assumptions/3.md): R12, R78, R194,
R282, R289, R330. -/
def Obligations.StepRunsTheDecodedInstruction : Prop :=
  (∀ (s u : State) (n : Nat) (i : Instr), s.moves n →
      let t := s.turnFirst n
      (t.seqFirst n = true → t.issues n i → exec i (t.begins n) = .next u → step s = .next (u.turnRest n s.now).settleTurn) ∧
      (t.seqFirst n = false → (t.turnRest n s.now).issues n i → exec i ((t.turnRest n s.now).begins n) = .next u →
        step s = .next u.settleTurn)) ∧
  (∀ (s : State) (n t : Nat), s.lockstep = true → s.enginesEmpty n → s.turnFirst n = s ∧ s.turnRest n t = s) ∧
  (∀ (s : State) (n : Nat), (s.fg n).ident.desc.pers = false → s.begins n = s) ∧
  (∀ (s : State) (h : Nat) (i : Instr) (k : Nat),
      s.mgmt.off = false → s.mgmt.up = true → s.sched = [] → s.cur = .thread h → h < 512 → (s.thread h).wait = none →
      let bs := s.codeBytes (s.thread h).pc.toNat 8
      let len := min 8 (lenOf (leTake bs 2))
      (s.thread h).pc.toNat + len ≤ 2 ^ 26 →
      firstPoison s.poison (hamperBase + (s.thread h).pc.toNat) len = none →
      decodeThread (bs.take len) = some (i, k) → step s = afterTurn (exec i s)) ∧
  (∀ (s : State) (i : Instr) (r : List Turn), s.mgmt.off = false → s.sched = .event i :: r → isEvent i = true →
      s.fromOutside i = true → step s = afterTurn (exec i { s with sched := r }))

/-- Bytes that decode to no instruction take the illegal-instruction trap, precise at them, with the value of R78:
R15, R78, R82. -/
def Obligations.IllegalWordTraps : Prop :=
  ∀ (s : State) (n : Nat) (bs : List Byte), decodeBytes bs = none →
    s.issue n bs = .next (s.trapHere 0x01 (illegalWord bs))

/-- No step ever stops the machine while the module has power: every instruction, trap and event has a next state; once
power is removed every step reports it: R12, R377, R479. -/
def Obligations.OnlyLossOfPowerStops : Prop :=
  (∀ s : State, s.mgmt.off = false → s.stepsOn) ∧ (∀ s : State, s.mgmt.off = true → step s = .fault .powerRemoved)

/-- Every step keeps the memory's canonical form, whatever instruction, trap or event it runs: bytes listed by strictly
rising address and none that an unlisted address reads as anyway, so that equal memories stay equal data: R217, R237. -/
def Obligations.EveryStepKeepsMemoryCanonical : Prop :=
  ∀ s t : State, s.canonical → step s = .next t → t.canonical

/-! ## Scalar instructions -/

/-- An RV64 instruction that computes writes its result to rd and moves the PC past itself, on a core and on a Hamper
thread: R14, R330. -/
def Obligations.IntegerInstructionsComplete : Prop :=
  ∀ (s : State) (rd a b : BitVec 5) (e : RvEnc),
    (∀ k, exec (.rv64IntegerOp (.alu k rd a b) e) s =
      .next ((s.setXr rd (rvAlu k (s.xr a) (s.xr b))).retire (RvLen e) 1)) ∧
    (∀ k, exec (.rv64IntegerOp (.aluw k rd a b) e) s =
      .next ((s.setXr rd (rvAluW k (s.xr a) (s.xr b))).retire (RvLen e) 1)) ∧
    (∀ k i, exec (.rv64IntegerOp (.imm k rd a i) e) s = .next ((s.setXr rd (rvImm k (s.xr a) i)).retire (RvLen e) 1)) ∧
    (∀ k sh, exec (.rv64IntegerOp (.shift k rd a sh) e) s =
      .next ((s.setXr rd (rvShift k (s.xr a) sh.toNat)).retire (RvLen e) 1)) ∧
    (∀ k, exec (.rv64IntegerOp (.unary k rd a) e) s = .next ((s.setXr rd (rvUnary k (s.xr a))).retire (RvLen e) 1)) ∧
    (∀ i, exec (.rv64IntegerOp (.lui rd i) e) s =
      .next ((s.setXr rd ((i ++ 0#12).signExtend 64)).retire (RvLen e) 1)) ∧
    (∀ i, exec (.rv64IntegerOp (.auipc rd i) e) s =
      .next ((s.setXr rd (s.pc + (i ++ 0#12).signExtend 64)).retire (RvLen e) 1))

/-- What the operations of RV64I, M, Zba and Zbb compute, in the integers that their operands stand for, with the results
of division by zero and on overflow that R14 keeps; the 32-bit operations work on the low halves and sign-extend. -/
def Obligations.IntegerResultsAreExact : Prop :=
  (∀ (x y : Word),
      ((rvAlu .add x y).toNat = (x.toNat + y.toNat) % 2 ^ 64) ∧
      ((rvAlu .sub x y).toInt = (x.toInt - y.toInt).bmod (2 ^ 64)) ∧
      ((rvAlu .mul x y).toNat = x.toNat * y.toNat % 2 ^ 64) ∧
      ((rvAlu .mulh x y).toInt = x.toInt * y.toInt / 2 ^ 64) ∧
      ((rvAlu .mulhu x y).toNat = x.toNat * y.toNat / 2 ^ 64) ∧
      ((rvAlu .mulhsu x y).toInt = x.toInt * (y.toNat : Int) / 2 ^ 64) ∧
      (y = 0 → rvAlu .div x y = BitVec.allOnes 64 ∧ rvAlu .divu x y = BitVec.allOnes 64 ∧ rvAlu .rem x y = x ∧
        rvAlu .remu x y = x) ∧
      (y ≠ 0 → ¬(x.toInt = -(2 ^ 63) ∧ y.toInt = -1) → (rvAlu .div x y).toInt = Int.tdiv x.toInt y.toInt ∧
        (rvAlu .rem x y).toInt = Int.tmod x.toInt y.toInt) ∧
      (x.toInt = -(2 ^ 63) ∧ y.toInt = -1 → rvAlu .div x y = x ∧ rvAlu .rem x y = 0) ∧
      (y ≠ 0 → (rvAlu .divu x y).toNat = x.toNat / y.toNat ∧ (rvAlu .remu x y).toNat = x.toNat % y.toNat) ∧
      ((rvAlu .sll x y).toNat = x.toNat * 2 ^ (y.toNat % 64) % 2 ^ 64) ∧
      ((rvAlu .srl x y).toNat = x.toNat / 2 ^ (y.toNat % 64)) ∧
      ((rvAlu .sra x y).toInt = x.toInt / 2 ^ (y.toNat % 64)) ∧
      (rvAlu .slt x y = if x.toInt < y.toInt then 1 else 0) ∧
      (rvAlu .sltu x y = if x.toNat < y.toNat then 1 else 0) ∧
      ((rvAlu .max x y).toInt = max x.toInt y.toInt) ∧ ((rvAlu .min x y).toInt = min x.toInt y.toInt) ∧
      ((rvAlu .maxu x y).toNat = max x.toNat y.toNat) ∧ ((rvAlu .minu x y).toNat = min x.toNat y.toNat) ∧
      ((rvAlu .sh1add x y).toNat = (2 * x.toNat + y.toNat) % 2 ^ 64) ∧
      ((rvAlu .sh2add x y).toNat = (4 * x.toNat + y.toNat) % 2 ^ 64) ∧
      ((rvAlu .sh3add x y).toNat = (8 * x.toNat + y.toNat) % 2 ^ 64) ∧
      (∀ i : Nat, i < 64 →
        (rvAlu .and x y).getLsbD i = (x.getLsbD i && y.getLsbD i) ∧
        (rvAlu .or x y).getLsbD i = (x.getLsbD i || y.getLsbD i) ∧
        (rvAlu .xor x y).getLsbD i = (x.getLsbD i ^^ y.getLsbD i) ∧
        (rvAlu .andn x y).getLsbD i = (x.getLsbD i && !y.getLsbD i) ∧
        (rvAlu .orn x y).getLsbD i = (x.getLsbD i || !y.getLsbD i) ∧
        (rvAlu .xnor x y).getLsbD i = !(x.getLsbD i ^^ y.getLsbD i) ∧
        (rvAlu .rol x y).getLsbD i = x.getLsbD ((i + 64 - y.toNat % 64) % 64) ∧
        (rvAlu .ror x y).getLsbD i = x.getLsbD ((i + y.toNat % 64) % 64))) ∧
  (∀ (x y : Word),
      let a := x.setWidth 32
      let b := y.setWidth 32
      ((rvAluW .addw x y).toInt = ((x.toNat + y.toNat : Nat) : Int).bmod (2 ^ 32)) ∧
      ((rvAluW .subw x y).toInt = ((x.toNat : Int) - y.toNat).bmod (2 ^ 32)) ∧
      ((rvAluW .mulw x y).toInt = ((x.toNat * y.toNat : Nat) : Int).bmod (2 ^ 32)) ∧
      ((rvAluW .sllw x y).toInt = ((x.toNat * 2 ^ (y.toNat % 32) : Nat) : Int).bmod (2 ^ 32)) ∧
      ((rvAluW .srlw x y).toInt = ((x.toNat % 2 ^ 32 / 2 ^ (y.toNat % 32) : Nat) : Int).bmod (2 ^ 32)) ∧
      ((rvAluW .sraw x y).toInt = a.toInt / 2 ^ (y.toNat % 32)) ∧
      (b = 0 → (rvAluW .divw x y).toInt = -1 ∧ (rvAluW .divuw x y).toInt = -1 ∧ (rvAluW .remw x y).toInt = a.toInt ∧
        (rvAluW .remuw x y).toInt = a.toInt) ∧
      (b ≠ 0 → ¬(a.toInt = -(2 ^ 31) ∧ b.toInt = -1) → (rvAluW .divw x y).toInt = Int.tdiv a.toInt b.toInt ∧
        (rvAluW .remw x y).toInt = Int.tmod a.toInt b.toInt) ∧
      ((rvAluW .adduw x y).toNat = (x.toNat % 2 ^ 32 + y.toNat) % 2 ^ 64) ∧
      ((rvImm .addiw x 1).toInt = ((x.toNat + 1 : Nat) : Int).bmod (2 ^ 32)))



/-- Jumps and branches write the link and go to their target; an odd target takes the misaligned trap at the jump and
writes nothing else: R14, R16. -/
def Obligations.JumpsAndBranchesGoToTheirTargets : Prop :=
  ∀ (s : State) (rd a b : BitVec 5) (e : RvEnc),
    (∀ off : BitVec 21,
      let t := s.pc + off.signExtend 64
      (t.getLsbD 0 = false → exec (.rv64IntegerOp (.jal rd off) e) s =
        .next (((s.setXr rd (s.pc + wOf (RvLen e))).setPc t).tick 1)) ∧
      (t.getLsbD 0 = true → exec (.rv64IntegerOp (.jal rd off) e) s = .next (s.trapHere 0x0F t))) ∧
    (∀ off : BitVec 12,
      let t := (s.xr a + off.signExtend 64) &&& 0xFFFFFFFFFFFFFFFE
      exec (.rv64IntegerOp (.jalr rd a off) e) s = .next (((s.setXr rd (s.pc + wOf (RvLen e))).setPc t).tick 1)) ∧
    (∀ (k : RvBranch) (off : BitVec 13),
      let t := s.pc + off.signExtend 64
      let taken := match k with
        | .beq => s.xr a = s.xr b
        | .bne => s.xr a ≠ s.xr b
        | .blt => (s.xr a).toInt < (s.xr b).toInt
        | .bge => (s.xr b).toInt ≤ (s.xr a).toInt
        | .bltu => (s.xr a).toNat < (s.xr b).toNat
        | .bgeu => (s.xr b).toNat ≤ (s.xr a).toNat
      (¬taken → exec (.rv64IntegerOp (.branch k a b off) e) s = .next (s.retire (RvLen e) 1)) ∧
      (taken → t.getLsbD 0 = false → exec (.rv64IntegerOp (.branch k a b off) e) s =
        .next (((s.setXr 0 (s.pc + wOf (RvLen e))).setPc t).tick 1)) ∧
      (taken → t.getLsbD 0 = true → exec (.rv64IntegerOp (.branch k a b off) e) s = .next (s.trapHere 0x0F t)))



/-- The frame of the register instructions: each leaves every scalar register but its destination, every other register
of the core, its CSRs, its engines, all of memory and everything outside the core as they were, when it does not trap:
R12, R14, R106. -/
def Obligations.RegisterInstructionsKeepTheRest : Prop :=
  ∀ (s : State) (n : Nat), s.cur = .core n →
    (∀ (o : RvOp) (e : RvEnc) (rd : BitVec 5),
      (match o with
        | .alu _ d _ _ => d = rd
        | .aluw _ d _ _ => d = rd
        | .imm _ d _ _ => d = rd
        | .shift _ d _ _ => d = rd
        | .unary _ d _ => d = rd
        | .lui d _ => d = rd
        | .auipc d _ => d = rd
        | .jal d off => d = rd ∧ (s.pc + off.signExtend 64).getLsbD 0 = false
        | .jalr d _ _ => d = rd
        | .branch _ _ _ off => rd = 0 ∧ (s.pc + off.signExtend 64).getLsbD 0 = false) →
      ∃ t : State, exec (.rv64IntegerOp o e) s = .next t ∧ (s.fg n).sameScalarsBut (t.fg n) rd ∧
        (s.fg n).sameButScalars (t.fg n) ∧ s.sameMemory t ∧ s.sameElsewhere t n) ∧
    (∀ f, ∃ t : State, exec (.fence f) s = .next t ∧ (s.fg n).sameScalarsBut (t.fg n) 0 ∧ (s.fg n).sameButScalars (t.fg n) ∧
      s.sameMemory t ∧ s.sameElsewhere t n ∧ t.pc = s.pc + 4)

/-- A scalar load of the own scratchpad returns the little-endian bytes at its address, sign-extended or zero-extended
by its width code, after 3 cycles; loads of the register views read the semaphore counts and the Tag Table entries: R18,
R20, R21, R22, R28, R29. -/
def Obligations.ScalarLoadsReadTheirBytes : Prop :=
  (∀ (s : State) (n a : Nat) (f : LoadF), s.cur = .core n → ((s.xr f.rs1).toNat : Int) + f.off.toInt = (a : Int) →
      let k : Nat := 2 ^ (f.f3.toNat % 4)
      a % k = 0 → a < 0x80000 → s.leasedAt n a k = none → s.spadPoison n a k = false →
      exec (.scalarLoad f) s =
        .next ((s.setXr f.rd (if f.f3.toNat < 4 then wOfInt (sextN (memNat s.mem (spadKey n a) k) (8 * k))
          else wOf (memNat s.mem (spadKey n a) k))).retire (RvLen f.enc) 3)) ∧
  (∀ (s : State) (n i : Nat) (f : LoadF), s.cur = .core n → (s.fg n).regs.pois = [] →
      let e : Int := (s.xr f.rs1).toNat + f.off.toInt
      (f.f3 = 5 → i < 256 → e = 0x100000 + 2 * i →
        exec (.scalarLoad f) s =
          .next ((s.setXr f.rd (if i = 0 then 0 else wOf ((s.fg n).semOf i).toNat)).retire (RvLen f.enc) 3)) ∧
      (f.f3 = 3 → i < 256 → e = 0x101000 + 8 * i →
        exec (.scalarLoad f) s = .next ((s.setXr f.rd (tget 0 (s.fg n).tag i)).retire (RvLen f.enc) 3)))

/-- A scalar load or store that is not aligned or reaches an address with no target, a load of a leased bank or of poisoned
data, and a store to a register view take the trap that the rules name, and write nothing; the effective address is an
integer that never wraps: R18, R19, R20, R172, R215, R244. -/
def Obligations.ScalarAccessTraps : Prop :=
  (∀ (s : State) (n : Nat) (f : LoadF), s.cur = .core n →
      let e : Int := (s.xr f.rs1).toNat + f.off.toInt
      let k : Nat := 2 ^ (f.f3.toNat % 4)
      let view := 0x100000 ≤ e ∧ e < 0x100200 ∨ 0x101000 ≤ e ∧ e < 0x101800 ∨ 0x102000 ≤ e ∧ e < 0x102200
      (e % (k : Int) ≠ 0 → exec (.scalarLoad f) s = .next (s.trapHere 0x0F (wOfInt e))) ∧
      (∀ a : Nat, e = (a : Int) → a % k = 0 → a < 0x80000 →
        (∀ b, s.leasedAt n a k = some b → exec (.scalarLoad f) s = .next (s.trapHere 0x02 (wOf b))) ∧
        (s.leasedAt n a k = none → s.spadPoison n a k = true → exec (.scalarLoad f) s = .next (s.trapHere 0x0A (wOf a)))) ∧
      (e % (k : Int) = 0 → (e < 0 ∨ 0x80000 ≤ e) → ¬view → exec (.scalarLoad f) s = .next (s.trapHere 0x10 (wOfInt e)))) ∧
  (∀ (s : State) (n : Nat) (f : StoreF), s.cur = .core n →
      let e : Int := (s.xr f.rs1).toNat + f.off.toInt
      let k : Nat := 2 ^ (f.f3.toNat % 4)
      let view := 0x100000 ≤ e ∧ e < 0x100200 ∨ 0x101000 ≤ e ∧ e < 0x101800 ∨ 0x102000 ≤ e ∧ e < 0x102200
      (e % (k : Int) ≠ 0 → exec (.scalarStore f) s = .next (s.trapHere 0x0F (wOfInt e))) ∧
      (e % (k : Int) = 0 → view → exec (.scalarStore f) s = .next (s.trapHere 0x09 (wOfInt e))) ∧
      (e % (k : Int) = 0 → (e < 0 ∨ 0x80000 ≤ e) → ¬view → exec (.scalarStore f) s = .next (s.trapHere 0x10 (wOfInt e))))

/-- A scalar store writes the low bytes of rs2 to the own scratchpad, little-endian; every other byte of memory keeps
its value, no register changes but the PC, and what it stored reads back: R18, R20, R22. -/
def Obligations.ScalarStoreWritesItsBytes : Prop :=
  ∀ (s : State) (n a : Nat) (f : StoreF), s.cur = .core n → ((s.xr f.rs1).toNat : Int) + f.off.toInt = (a : Int) →
    let k : Nat := 2 ^ (f.f3.toNat % 4)
    a % k = 0 → a < 0x80000 →
    ∃ t : State, exec (.scalarStore f) s = .next t ∧
      memNat t.mem (spadKey n a) k = (s.xr f.rs2).toNat % 2 ^ (8 * k) ∧ s.sameMemoryOutside t (spadKey n a) k ∧
      (s.fg n).sameScalarsBut (t.fg n) 0 ∧ (s.fg n).sameButScalars (t.fg n) ∧ s.sameElsewhere t n ∧
      t.pc = s.pc + wOf (RvLen f.enc)



/-- The fences and calls of path S: `FENCE` only passes a cycle, `FENCE.I` empties the core's instruction cache, an
accepted `ECALL` posts its 64-byte request to port 1 and writes 0 after 2 cycles, one issued while the core's earlier
request is outstanding, or which finds the port full, writes 4, a refused offset traps; an offset that breaks both rules is
misaligned by the model's choice (notes/assumptions/54.md): R106, R107, R108, R339. -/
def Obligations.FencesAndServiceCalls : Prop :=
  ∀ (s : State) (n : Nat), s.cur = .core n →
    (∀ f, exec (.fence f) s = .next (s.retire 4 1)) ∧
    (∀ f, exec (.fenceI f) s = .next ((s.setCore n { s.core n with icache := [] }).retire 4 16)) ∧
    (let a := (s.xr 11).toNat
     (a % 64 ≠ 0 → exec .ecall s = .next (s.trapHere 0x0F (s.xr 11))) ∧
     (a % 64 = 0 → 2 ^ 19 ≤ a → exec .ecall s = .next (s.trapHere 0x10 (s.xr 11))) ∧
     (a % 64 = 0 → a < 2 ^ 19 → s.leasedAt n a 64 = none → s.spadPoison n a 64 = false →
       ((s.core n).ecall.isSome = true → exec .ecall s = .next ((s.setXr 10 4).retire 4 2)) ∧
       ((s.core n).ecall = none →
         let m := ctrlMsg (s.xr 10) (wOf ((s.fg n).ident.taskid.toNat * 2 ^ 32 + n / 256 * 2 ^ 8 + n % 256))
           (s.jobid (s.fg n).ident.job) 1 (memRead s.mem (spadKey n a) 64)
         (portUsed (s.port 1) + msgSpace m ≤ 131072 →
           exec .ecall s = .next ((((s.setPort 1 (s.port 1 ++ [m])).setCore n
             { s.core n with ecall := some ((s.xr 12).setWidth 8, s.xr 11) }).setXr 10 0).retire 4 2)) ∧
         (131072 < portUsed (s.port 1) + msgSpace m → exec .ecall s = .next ((s.setXr 10 4).retire 4 2)))))

/-- `EBREAK` and `C.EBREAK` take the breakpoint trap at their own address, and keep the length by which a resume moves past them: R109. -/
def Obligations.BreakpointsTrapAtThemselves : Prop :=
  ∀ (s : State) (n : Nat), s.cur = .core n →
    exec .ebreak s = .next ((s.trapHere 0x0C s.pc).modFg n (fun c => { c with bpkLen := 4 })) ∧
    exec .cEbreak s = .next ((s.trapHere 0x0C s.pc).modFg n (fun c => { c with bpkLen := 2 }))

/-- A CSR instruction of a core returns the old value of a register of R42 and writes the new one by its operation; a
number outside the table, and a write of a read-only register, raise illegal instruction.  A write of a bank format lands
at once where no earlier command uses the bank, and otherwise waits for the last one: R42, R45, R218. -/
def Obligations.CsrAccessReadsAndWrites : Prop :=
  (∀ (s : State) (n : Nat) (f : CsrF) (old : Word), s.cur = .core n → (s.fg n).regs.pois = [] →
      let k := f.csr.toNat
      let arg := if f.f3.toNat < 4 then s.xr f.rs1 else wOf f.rs1.toNat
      let new := if f.f3.toNat % 4 = 1 then arg else if f.f3.toNat % 4 = 2 then old ||| arg else old &&& ~~~arg
      let writes := f.f3.toNat % 4 = 1 ∨ f.rs1 ≠ 0
      let c := s.fg n
      (csrF3 f.f3 = true) →
      (s.csrRead n k = none → exec (.csrAccess f) s = .next (s.trapHere 0x01 (wOf (encCsr f).toNat))) ∧
      (s.csrRead n k = some old → ¬writes → exec (.csrAccess f) s = .next ((s.setXr f.rd old).retire 4 1)) ∧
      (s.csrRead n k = some old → writes →
        (¬(0x800 ≤ k ∧ k ≤ 0x808) → exec (.csrAccess f) s = .next (s.trapHere 0x01 (wOf (encCsr f).toNat))) ∧
        (k = 0x800 → old = c.csr.vfmode ∧
          let rm := if new.toNat % 8 ≤ 4 then new.toNat % 8 else old.toNat % 8
          let m := wOf (rm + (if new.getLsbD 3 then 8 else 0))
          exec (.csrAccess f) s =
            .next (((s.setFg n { c with csr := { c.csr with vfmode := m } }).setXr f.rd old).retire 4 1)) ∧
        (k = 0x803 → old = c.csr.tcause ∧ exec (.csrAccess f) s =
          .next (((s.setFg n { c with csr := { c.csr with tcause := wOf (new.toNat % 2 ^ 16) } }).setXr f.rd old).retire 4 1)) ∧
        (k = 0x805 → old = c.csr.tval ∧ exec (.csrAccess f) s =
          .next (((s.setFg n { c with csr := { c.csr with tval := new } }).setXr f.rd old).retire 4 1)) ∧
        (k = 0x806 → old = c.csr.dlesc ∧
          let m := wOf (old.toNat / 256 % 256 * 256 + new.toNat % 256)
          exec (.csrAccess f) s =
            .next (((s.setFg n { c with csr := { c.csr with dlesc := m } }).setXr f.rd old).retire 4 1)) ∧
        (k = 0x801 → old = c.csr.vflags ∧ exec (.csrAccess f) s =
          .next (((s.setFg n { c with csr := { c.csr with vflags := wOf (new.toNat % 64) } }).setXr f.rd old).retire 4 1)) ∧
        (k = 0x802 → old = c.csr.tvec ∧ exec (.csrAccess f) s =
          .next (((s.setFg n { c with csr := { c.csr with tvec := new } }).setXr f.rd old).retire 4 1)) ∧
        (k = 0x804 → old = c.csr.tepc ∧ exec (.csrAccess f) s =
          .next (((s.setFg n { c with csr := { c.csr with tepc := new } }).setXr f.rd old).retire 4 1)) ∧
        (k = 0x807 → old = c.csr.sdl ∧ exec (.csrAccess f) s =
          .next (((s.setFg n { c with csr := { c.csr with sdl := wOf (new.toNat % 2 ^ 40) } }).setXr f.rd old).retire 4 1)) ∧
        (k = 0x808 → old = c.csr.srseed ∧ exec (.csrAccess f) s =
          .next (((s.setFg n { c with csr := { c.csr with srseed := new } }).setXr f.rd old).retire 4 1)))) ∧
  (∀ (s : State) (n : Nat) (f : CsrF), s.cur = .core n →
      let bank := f.csr.toNat % 16
      let old := tget 0 (s.fg n).csr.bfmt bank
      let arg := if f.f3.toNat < 4 then s.xr f.rs1 else wOf f.rs1.toNat
      let new := if f.f3.toNat % 4 = 1 then arg else if f.f3.toNat % 4 = 2 then old ||| arg else old &&& ~~~arg
      csrF3 f.f3 = true →
      (s.bankBusy n bank = false → ∃ t : State, exec (.bfmtWrite f) s = .next t ∧
        tget 0 (t.fg n).csr.bfmt bank = bfmtNew bank old new ∧ (∀ j, j ≠ bank → tget 0 (t.fg n).csr.bfmt j = tget 0 (s.fg n).csr.bfmt j) ∧
        t.pc = s.pc + 4 ∧ t.mem = s.mem ∧ (f.rd ≠ 0 → t.xr f.rd = old)) ∧
      (s.bankBusy n bank = true → ∃ t : State, exec (.bfmtWrite f) s = .next t ∧ t.pc = s.pc ∧ (t.fg n).csr = (s.fg n).csr ∧
        t.mem = s.mem ∧ ∃ b, (t.fg n).bfmtPend = some b ∧ b.bank = bank ∧ b.val = new ∧ b.rd = f.rd) ∧
      (∀ b, (s.fg n).bfmtPend = some b → s.bankBusy n b.bank = false → (s.fg n).stop = none →
        ∃ t : State, exec (.bfmtTakesEffect n) s = .next t ∧ (t.fg n).bfmtPend = none ∧
          tget 0 (t.fg n).csr.bfmt b.bank = bfmtNew b.bank (tget 0 (s.fg n).csr.bfmt b.bank) b.val ∧
          t.pc = s.pc + 4 ∧ t.mem = s.mem))



/-! ## Taking a trap and returning from one -/

/-- A recoverable trap that the task handler takes: the trap record is written with bit 19 of `cw` set, `tcause`, `tepc`
and `tval` are written, `hact` is set, the core continues at `tvec.base` << 2, and every other register, CSR and byte of
memory keeps its value; a trap precise at the moving core's instruction has its own address as the cut PC: R43, R377,
R378, R383. -/
def Obligations.HandlerTrapEntersTheHandler : Prop :=
  (∀ (s : State) (n cause unit : Nat) (cut val : Word),
      let c := s.fg n
      (s.core n).stepping = none → c.hact = false → c.csr.tvec.getLsbD 0 = true →
      cause = 4 ∨ cause = 5 ∨ cause = 3 ∧ c.csr.tvec.getLsbD 1 = true → unit ≤ 4 →
      let t := s.takeTrap n cause unit cut val
      let d := t.fg n
      d.hact = true ∧ d.pc = wOf (c.csr.tvec.toNat / 4 * 4) ∧ d.csr.tcause = wOf (cause + unit * 256) ∧
        d.csr.tepc = cut ∧ d.csr.tval = val ∧
        d.csr = { c.csr with tcause := d.csr.tcause, tepc := cut, tval := val } ∧
        d.rcd.cpc = cut ∧ d.rcd.cval = val ∧ d.rcd.cw = wOf (cause + unit * 2 ^ 8 + 7 * 2 ^ 16 + 2 ^ 19) ∧
        d.rcd.cjt = s.jtime c.ident.job ∧ d.rcd.cdc = wOf (s.dcyc c) ∧
        d.rcd.cvx = wOf c.vx.seq.toNat ∧ d.rcd.cmt = wOf c.mt.seq.toNat ∧ d.rcd.cce0 = wOf c.ce0.seq.toNat ∧
        d.rcd.cce1 = wOf c.ce1.seq.toNat ∧ d.regs = c.regs ∧ d.sem = c.sem ∧ d.sl = c.sl ∧ d.tag = c.tag ∧
        (∀ e, d.eng e = c.eng e) ∧ d.stop = c.stop ∧ s.sameMemory t ∧ s.sameElsewhere t n) ∧
  (∀ (s : State) (n cause : Nat) (val : Word), s.cur = .core n →
      s.trapHere cause val = (s.takeTrap n cause 0 (s.fg n).pc val).tick 1)

/-- Any other trap but a breakpoint freezes the core for containment at the cut: the record is written, started
commands go into the in-flight queue, and `tcause`, `tepc` and `tval`, every other CSR, every register and memory keep
their values: R378, R380, R381, R387, R389. -/
def Obligations.OtherTrapsFreezeForContainment : Prop :=
  ∀ (s : State) (n cause unit : Nat) (cut val : Word),
    let c := s.fg n
    (s.core n).stepping = none → c.takesHandler cause = false → cause ≠ 0x0C →
    let t := s.takeTrap n cause unit cut val
    let d := t.fg n
    d.stop = some .containment ∧ d.pc = cut ∧ d.csr = c.csr ∧ d.hact = c.hact ∧ d.rcd.cpc = cut ∧ d.rcd.cval = val ∧
      d.rcd.cw = wOf (cause % 256 + unit % 256 * 2 ^ 8 + 7 * 2 ^ 16) ∧ d.rcd.cdc = wOf (s.dcyc c) ∧
      d.dcSave = s.dcyc c ∧ d.inflight = c.captured (s.dcyc c) ∧ d.vx.run = [] ∧ d.mt.run = [] ∧ d.vx.q = c.vx.q ∧
      d.mt.q = c.mt.q ∧ d.ce0 = c.ce0 ∧ d.ce1 = c.ce1 ∧ d.regs = c.regs ∧ d.sem = c.sem ∧ s.sameMemory t ∧
      s.sameElsewhere t n

/-- A breakpoint freezes its core at the breakpoint's own address with `bpk` set in the record, and starts a halt wave
where its job runs: R109, R378, R380, R437. -/
def Obligations.BreakpointStartsHaltWave : Prop :=
  ∀ (s : State) (n unit : Nat) (cut val : Word),
    let c := s.fg n
    (s.core n).stepping = none → (s.core n).busy = true → c.stop = none → (s.job c.ident.job).ph = .run →
    let t := s.takeTrap n 0x0C unit cut val
    let d := t.fg n
    d.stop = some .haltWave ∧ d.pc = cut ∧ d.rcd.cpc = cut ∧ d.rcd.cw.getLsbD 20 = true ∧
      (t.job c.ident.job).ph = .freezing ∧ (t.job c.ident.job).stopped = s.jtime c.ident.job



/-- `TRET` outside a handler is illegal; inside one, with every lane empty, it clears `hact`, retries (`TRET`) or
discards (`TRET.skip`) the head entry of the stopped engine that `tcause.unit` names, clears that engine's `ev`, and continues
at `tepc`; while a lane holds an entry it waits, up to the lanes' first deadline, and then raises deadline escalation: R386,
R297. -/
def Obligations.TrapReturnLeavesTheHandler : Prop :=
  ∀ (s : State) (n : Nat) (f : FmtQ), s.cur = .core n → (s.core n).stepping = none →
    let c := s.fg n
    let u := wfld c.csr.tcause 15 8
    let e := engOf (u - 1)
    let g := c.eng e
    let returns (i : Instr) (first : Nat) : Prop :=
      ∃ t : State, exec i s = .next t ∧ (t.fg n).hact = false ∧ (t.fg n).pc = c.csr.tepc ∧ (t.fg n).csr = c.csr ∧
        (t.fg n).regs = c.regs ∧ (t.fg n).sem = c.sem ∧ s.sameMemory t ∧
        (1 ≤ u → u ≤ 4 → g.st = .stopped →
          let g' := (t.fg n).eng e
          g'.ev = false ∧ g'.trap = none ∧
          (g.r = false → g'.st = (if g.q.drop first = [] then .idle else .running) ∧
            g'.q.map (fun x => x.word) = (g.q.drop first).map (fun x => x.word) ∧
            g'.seq = g.seq + (if first = 1 ∧ g.q ≠ [] then 1 else 0)) ∧
          (g.r = true → g'.st = .ring ∧ g'.rIdx = (if first = 1 then (g.rIdx + 1) % max g.rCnt 1 else g.rIdx) ∧
            g'.seq = g.seq + (if first = 1 then 1 else 0)))
    let blocks (i : Instr) : Prop :=
      ((c.laneD s.agentTime).toNat < s.agentTime.toNat →
        exec i s = .next ((s.takeTrap n 0x06 0 s.pc c.holdReport).tick 1)) ∧
      (s.agentTime.toNat ≤ (c.laneD s.agentTime).toNat →
        exec i s = .next (s.setWait (s.waitQ f i (c.laneD s.agentTime))))
    (c.hact = false → exec (.tret f) s = .next (s.trapHere 0x01 (encodeWord (.tret f))) ∧
      exec (.tretSkip f) s = .next (s.trapHere 0x01 (encodeWord (.tretSkip f)))) ∧
    (c.hact = true → (∀ e, (c.eng e).lane = []) → returns (.tret f) 0 ∧ returns (.tretSkip f) 1) ∧
    (c.hact = true → (∃ e, (c.eng e).lane ≠ []) → blocks (.tret f) ∧ blocks (.tretSkip f))

/-- A trap of a Hamper thread posts an event to port 0, saves the cause, the PC and the value in the thread's CSRs and
in a0 to a2, and restarts the thread at `hvec`: R334. -/
def Obligations.ThreadTrapRestartsTheThread : Prop :=
  ∀ (s : State) (h cause : Nat) (val : Word), s.cur = .thread h →
    let t := s.thread h
    let jid := if t.hjob = 0 then 0 else s.jobid t.hjob.toNat
    let u := s.trapHere cause val
    (u.thread h).hcause = wOf cause ∧ (u.thread h).hepc = t.pc ∧ (u.thread h).hval = val ∧ u.xr 10 = wOf cause ∧
      u.xr 11 = t.pc ∧ u.xr 12 = val ∧ (∀ r, r ≠ 10 → r ≠ 11 → r ≠ 12 → u.xr r = s.xr r) ∧
      (u.thread h).pc = t.hvec &&& 0xFFFFFFFFFFFFFFFE ∧ (u.thread h).hjob = t.hjob ∧ (u.thread h).wait = none ∧
      u.port 0 = (s.event (wOf cause) (wOf h) jid []).port 0 ∧ u.cores = s.cores ∧ u.mem = s.mem ∧
      (∀ k, k ≠ h → u.thread k = s.thread k)

/-! ## The sequencer's own instructions -/

/-- A deadline-bearing instruction writes its 64-bit status (code in bits [3:0], detail above bit 16) to xst and moves
on; where no deadline-bearing read before it in program order is unfinished, consecutive timeouts at one address are
counted, any other completion clears the count, and `.x` or a full count raises deadline escalation with the cut at the next
instruction; behind an unfinished read its count is kept for that read's completion, so that completions count in program
order: R39, R40. -/
def Obligations.DeadlineStatusIsWrittenAndCounted : Prop :=
  ∀ (s : State) (n : Nat) (st : BitVec 5) (x : Bool) (pc : Word) (code detail : Nat), s.cur = .core n → code < 16 →
    let c := s.fg n
    let thr := c.csr.dlesc.toNat % 256
    let cnt := if c.dlPrev = some pc then c.csr.dlesc.toNat / 256 % 256 + 1 else 1
    let t := s.finishD n st x pc code detail
    let moved (t : State) : Prop := t.pc = pc + 8 ∧ (t.fg n).wait = none ∧ t.mem = s.mem ∧
      (∀ r, t.xr r = if r = 0 then 0 else if r = st then wOf (code + detail % 2 ^ 48 * 2 ^ 16) else s.xr r)
    let went (t : State) (k : Nat) : Prop := moved t ∧ (t.fg n).csr.dlesc = wOf (thr + k * 256)
    (c.bearsBefore c.ord = false → c.dlWait = [] →
      (code ≠ 1 → went t 0 ∧ (t.fg n).dlPrev = none) ∧
      (code = 1 → x = false → (thr = 0 ∨ cnt < thr) → went t (cnt % 256) ∧ (t.fg n).dlPrev = some pc) ∧
      (code = 1 → thr ≠ 0 → thr ≤ cnt → ∃ u : State, went u 0 ∧ t = u.takeTrap n 0x06 0 (pc + 8) pc) ∧
      (code = 1 → x = true → (thr = 0 ∨ cnt < thr) →
        ∃ u : State, went u (cnt % 256) ∧ t = u.takeTrap n 0x06 0 (pc + 8) pc)) ∧
    (c.bearsBefore c.ord = true →
      let kept (t : State) : Prop := moved t ∧ (t.fg n).csr.dlesc = c.csr.dlesc ∧ (t.fg n).dlPrev = c.dlPrev ∧
        (t.fg n).dlWait = insertLate (c.ord, pc, code) c.dlWait
      ((code ≠ 1 ∨ x = false) → kept t) ∧
      (code = 1 → x = true → ∃ u : State, kept u ∧ t = u.takeTrap n 0x06 0 (pc + 8) pc))

/-- `SLEEPU` and `ENGSYNC`: they complete at their first test where an engine event is pending or the named engines are
at rest, report a stopped engine with code 7 and its cause, and wait otherwise; `ENGDL` writes engine deadlines, and
`ENGST` reads an engine's status and may clear its event: R111, R112, R113, R115. -/
def Obligations.EngineControlInstructions : Prop :=
  ∀ (s : State) (n : Nat), s.cur = .core n → (s.core n).stepping = none →
    let c := s.fg n
    (∀ f : FmtD, let d := deadlineAt s.agentTime (s.xr f.dl)
      ((∃ e, (c.eng e).ev = true) → exec (.sleepu f) s = .next ((s.modFg n (fun c =>
        { c.setX f.st (statusWord 0 (engMask (fun e => (c.eng e).ev))) with wait := none, pc := s.pc + 8 })).tick 1)) ∧
      ((∀ e, (c.eng e).ev = false) → d.toNat ≤ s.agentTime.toNat → exec (.sleepu f) s = .next ((s.modFg n (fun c =>
        { c.setX f.st 0 with wait := none, pc := s.pc + 8 })).tick 1)) ∧
      ((∀ e, (c.eng e).ev = false) → s.agentTime.toNat < d.toNat →
        exec (.sleepu f) s = .next (s.setWait (s.waitOf f (.sleepu f))))) ∧
    (∀ f : FmtQ, f.imm.toNat ≤ 4 → ∃ t : State, exec (.engdl f) s = .next t ∧ t.pc = s.pc + 8 ∧ t.mem = s.mem ∧
      (∀ e, (t.fg n).edl e = if f.imm.toNat = 4 ∨ f.imm.toNat = engNum e then s.xr f.a else c.edl e)) ∧
    (∀ f : FmtQ, let e := engOf (f.imm.toNat % 4)
      let g := c.eng e
      let v := wOf (g.seq.toNat * 2 ^ 32 + g.cause.toNat * 2 ^ 24 + g.code % 16 * 2 ^ 16 + g.q.length % 256 * 2 ^ 8 +
        boolNat g.ev * 8 + (match g.st with | .idle => 0 | .running => 1 | .stopped => 2 | .ring => 3))
      (f.imm.getLsbD 3 = false → exec (.engst f) s = .next ((s.setXr f.d v).retire 8 1)) ∧
      (f.imm.getLsbD 3 = true →
        exec (.engst f) s = .next (((s.modFg n (fun c => c.setEng e { g with ev := false })).setXr f.d v).retire 8 1))) ∧
    (∀ f : FmtD,
      let named (e : Eng) : Prop := f.aux.getLsbD (engNum e) = true
      ((∀ e, named e → (c.eng e).st ≠ .stopped) → (∀ e, named e → c.quiet e = true) →
        exec (.engsync f) s = .next (s.finishD n f.st f.x s.pc 0 0)) ∧
      (∀ e, named e → (c.eng e).st = .stopped → (∀ e', engNum e' < engNum e → named e' → (c.eng e').st ≠ .stopped) →
        ∃ m, m < 16 ∧ (∀ e', m.testBit (engNum e') = true ↔ named e' ∧ (c.eng e').st = .stopped) ∧
          exec (.engsync f) s = .next (s.finishD n f.st f.x s.pc 7 ((c.eng e).cause.toNat + m * 2 ^ 8))) ∧
      ((∀ e, named e → (c.eng e).st ≠ .stopped) → (∃ e, named e ∧ c.quiet e = false) →
        s.agentTime.toNat ≤ (deadlineAt s.agentTime (s.xr f.dl)).toNat →
        exec (.engsync f) s = .next (s.setWait (s.waitOf f (.engsync f)))))

/-- Semaphores: a `SEMWAIT` takes one count and returns what is left, semaphore 0 never blocks, an empty one waits, and
a pending engine event ends the wait with code 7; `SEMSIG` and `SEMADD` add, trapping on overflow with nothing added;
`SEMRD` reads: R289, R290, R292, R293, R294, R295. -/
def Obligations.SemaphoreInstructions : Prop :=
  ∀ (s : State) (n : Nat), s.cur = .core n → (s.core n).stepping = none →
    let c := s.fg n
    let sig (k a : Nat) (i : Instr) : Prop :=
      (k = 0 ∨ a = 0 → exec i s = .next ((s.modFg n (fun c => c)).retire 8 1)) ∧
      (k ≠ 0 → a ≠ 0 → (c.semOf k).toNat + a ≤ 65535 →
        exec i s = .next ((s.modFg n (fun c => c.setSem k (BitVec.ofNat 16 ((c.semOf k).toNat + a)))).retire 8 1)) ∧
      (k ≠ 0 → 65535 < (c.semOf k).toNat + a → exec i s = .next (s.trapHere 0x07 (wOf k)))
    (∀ f : FmtD, let k := f.aux.toNat + f.b.toNat % 4 * 64
      (k = 0 → exec (.semwait f) s = .next ((s.modFg n (fun c => c.setX f.d 0)).finishD n f.st f.x s.pc 0 0)) ∧
      (k ≠ 0 → 1 ≤ (c.semOf k).toNat → exec (.semwait f) s = .next ((s.modFg n (fun c =>
        (c.setSem k (c.semOf k - 1)).setX f.d (wOf ((c.semOf k).toNat - 1)))).finishD n f.st f.x s.pc 0 0)) ∧
      (k ≠ 0 → c.semOf k = 0 → ∀ e, (c.eng e).ev = true → (∀ e', engNum e' < engNum e → (c.eng e').ev = false) →
        exec (.semwait f) s = .next (s.finishD n f.st f.x s.pc 7 ((c.eng e).cause.toNat +
          engMask (fun e => (c.eng e).ev) * 2 ^ 8 + (c.eng e).code % 16 * 2 ^ 12))) ∧
      (k ≠ 0 → c.semOf k = 0 → (∀ e, (c.eng e).ev = false) →
        s.agentTime.toNat ≤ (deadlineAt s.agentTime (s.xr f.dl)).toNat →
        exec (.semwait f) s = .next (s.setWait (s.waitOf f (.semwait f))))) ∧
    (∀ f : FmtQ, sig (f.imm.toNat % 256) 1 (.semsig f)) ∧
    (∀ f : FmtQ, sig (f.imm.toNat % 256) (s.xr f.a).toNat (.semadd f)) ∧
    (∀ f : FmtQ, let k := f.imm.toNat % 256
      exec (.semrd f) s = .next ((s.setXr f.d (if k = 0 then 0 else wOf (c.semOf k).toNat)).retire 8 2))

/-- `ENGRING`: `.on` puts an idle engine into a ring whose range lies in the scratchpad, `.off` ends a ring and forgets what
it has fetched and not started, `.go` and `.skip` restart a stopped engine with or without its head entry (in a ring, the next
fetch), `.drop` discards what has not started; each answers 2^63 + 1 in a state that refuses it, `.on` answers 2^63 + 2 for a
bad range, and an engine that is left with nothing queued and nothing in progress is idle: R285, R286, R296, R297. -/
def Obligations.RingInstructions : Prop :=
  ∀ (s : State) (n : Nat) (f : FmtQ), s.cur = .core n →
    let c := s.fg n
    let e := engOf (f.imm.toNat % 4)
    let g := c.eng e
    let a := (s.xr f.a).toNat
    let b := (s.xr f.b).toNat
    let size := if e = .vx ∨ e = .mt then 8 else 64
    let fits := a % size = 0 ∧ 1 ≤ b ∧ b ≤ 4096 ∧ a + b * size ≤ 0x80000
    let bad : Host.Outcome State Fault Refusal := .next ((s.setXr f.d 0x8000000000000001).retire 8 2)
    let becomes (g' : Engine) (v : Word) : Host.Outcome State Fault Refusal :=
      .next (((s.modFg n (fun c => c.setEng e g')).setXr f.d v).retire 8 2)
    let busy := c.inflight.any (fun p => decide (p.eng = e)) = true ∨ e = .vx ∧ c.vreads ≠ []
    let fresh (l : List QEntry) : List QEntry := l.map (fun q => { q with wt0 := none })
    let held := g.q.filter (fun q => q.started)
    let inRing := g.st = .ring ∨ g.st = .stopped ∧ g.r = true
    (g.st ≠ .idle → exec (.engringOn f) s = bad) ∧
    (g.st = .idle → fits →
      exec (.engringOn f) s = becomes { g with r := true, st := .ring, rOff := a, rCnt := b, rIdx := 0 } 0) ∧
    (g.st = .idle → ¬fits → exec (.engringOn f) s = becomes g 0x8000000000000002) ∧
    (¬inRing → exec (.engringOff f) s = bad) ∧
    (g.st = .ring → (held = [] ∧ g.run = [] ∧ ¬busy) →
      exec (.engringOff f) s = becomes { g with r := false, st := .idle, q := held } 0) ∧
    (g.st = .ring → ¬(held = [] ∧ g.run = [] ∧ ¬busy) →
      exec (.engringOff f) s = becomes { g with r := false, st := .running, q := held } 0) ∧
    (g.st = .stopped → g.r = true →
      exec (.engringOff f) s = becomes { g with r := false, st := .idle, trap := none, q := [] } 0) ∧
    (g.st ≠ .stopped → exec (.engringGo f) s = bad ∧ exec (.engringSkip f) s = bad) ∧
    (g.st = .stopped → g.r = true →
      exec (.engringGo f) s = becomes { g with trap := none, st := .ring, q := fresh held } 0 ∧
      exec (.engringSkip f) s = becomes { g with
        trap := none, st := .ring, seq := g.seq + 1, rIdx := (g.rIdx + 1) % max g.rCnt 1
        q := fresh ((g.q.drop 1).filter (fun q => q.started)) } 0) ∧
    (g.st = .stopped → g.r = false → g.q = [] →
      exec (.engringGo f) s = becomes { g with trap := none, st := .idle } 0 ∧
      exec (.engringSkip f) s = becomes { g with trap := none, st := .idle } 0) ∧
    (g.st = .stopped → g.r = false → g.q ≠ [] →
      exec (.engringGo f) s = becomes { g with trap := none, st := .running, q := fresh g.q } 0) ∧
    (g.st = .stopped → g.r = false → ∀ h l, g.q = h :: l →
      exec (.engringSkip f) s = becomes { g with
        trap := none, seq := g.seq + 1, q := fresh l, st := if l = [] then .idle else .running } 0) ∧
    (inRing → exec (.engringDrop f) s = bad) ∧
    (¬inRing →
      let k := (g.q.filter (fun q => !q.started)).length
      exec (.engringDrop f) s = becomes { g with
        trap := none, q := held, seq := g.seq + BitVec.ofNat 32 k
        st := if held = [] ∧ g.run = [] ∧ ¬busy then .idle else .running } (wOf k))

/-- The spool instructions: while a queued entry that may still claim from the spool names it they wait, and where its
engine has stopped they answer 2^64 - 2 and change nothing; else `SLCFG`, which ignores bit 63, configures the spool or
answers all ones, `SLADV` consumes or produces slots, `SLTOK` reads, puts and takes tokens.  A claim sees the descriptor
as it stood at the start of the cycle, less what was claimed in it since; one that would have fitted then waits, and one
that would not takes trap 0x11 with the spool's number: R300, R301, R304, R306, R307, R308, R309. -/
def Obligations.SpoolInstructions : Prop :=
  ∀ (s : State) (n : Nat) (f : FmtQ), s.cur = .core n → (s.core n).stepping = none →
    let k := f.imm.toNat % 16
    let p := (s.fg n).spool k
    let z := p.seen s.spoolCycle
    let y := p.atStart s.spoolCycle
    let v := (s.xr f.a).toNat
    let low := if p.cfg then wOf (2 ^ 63 + p.ssz * 2 ^ 48 + p.nsl * 2 ^ 40 + p.base) else 0
    let high := if p.cfg then p.hd + p.tl * 2 ^ 8 + p.cnt * 2 ^ 16 + p.prs * 2 ^ 24 else 0
    let ssz := v / 2 ^ 48 % 2 ^ 8
    let nsl := v / 2 ^ 40 % 2 ^ 8
    let base := v % 2 ^ 19
    let good := v / 2 ^ 56 % 2 ^ 7 = 0 ∧ v / 2 ^ 19 % 2 ^ 21 = 0 ∧ 1 ≤ ssz ∧ ssz ≤ 64 ∧ 2 ≤ nsl ∧ nsl ≤ 64 ∧ base % 64 = 0 ∧
      base + 64 * ssz * nsl ≤ 0x80000
    let ends (s' : State) (x : Word) : Host.Outcome State Fault Refusal :=
      .next ((s'.modFg n (fun c => { c.setX f.d x with wait := none, pc := s.pc + 8 })).tick 2)
    let done (p' : Spool) (x : Word) : Host.Outcome State Fault Refusal := ends (s.putSpool n k p') x
    let config (p' : Spool) (x : Word) : Host.Outcome State Fault Refusal := ends (s.modFg n (fun c => c.setSpool k p')) x
    let traps : Host.Outcome State Fault Refusal := .next ((s.takeTrap n 0x11 0 s.pc (wOf k)).tick 1)
    let stopped : Host.Outcome State Fault Refusal :=
      .next ((s.modFg n (fun c => { c.setX f.d 0xFFFFFFFFFFFFFFFE with wait := none, pc := s.pc + 8 })).tick 2)
    let waits (i : Instr) : Host.Outcome State Fault Refusal := .next (s.setWait (s.waitQ f i 0xFFFFFFFFFFFFFFFF))
    let others (o : Instr → Host.Outcome State Fault Refusal) : Prop :=
      exec (.sladvCons f) s = o (.sladvCons f) ∧ exec (.sladvProd f) s = o (.sladvProd f) ∧
        exec (.sltokRd f) s = o (.sltokRd f) ∧ exec (.sltokPut f) s = o (.sltokPut f) ∧
        exec (.sltokTake f) s = o (.sltokTake f)
    ((s.fg n).spoolBusy k true = some false → exec (.slcfg f) s = stopped) ∧
    ((s.fg n).spoolBusy k true = some true → exec (.slcfg f) s = waits (.slcfg f)) ∧
    ((s.fg n).spoolBusy k false = some false → others (fun _ => stopped)) ∧
    ((s.fg n).spoolBusy k false = some true → others waits) ∧
    ((s.fg n).spoolBusy k true = none →
      (v % 2 ^ 63 = 0 → exec (.slcfg f) s = config {} low) ∧
      (v % 2 ^ 63 ≠ 0 → good → exec (.slcfg f) s = config { cfg := true, ssz := ssz, nsl := nsl, base := base } low) ∧
      (v % 2 ^ 63 ≠ 0 → ¬good → exec (.slcfg f) s = config p 0xFFFFFFFFFFFFFFFF)) ∧
    (s.lockstep = true → z = p ∧ y = p) ∧
    ((s.fg n).spoolBusy k false = none →
      (p.cfg = false → exec (.sladvCons f) s = traps ∧ exec (.sladvProd f) s = traps ∧ exec (.sltokRd f) s = traps ∧
        exec (.sltokPut f) s = traps ∧ exec (.sltokTake f) s = traps) ∧
      (p.cfg = true → z.cnt < v → y.cnt < v → exec (.sladvCons f) s = traps) ∧
      (p.cfg = true → z.cnt < v → v ≤ y.cnt → exec (.sladvCons f) s = waits (.sladvCons f)) ∧
      (p.cfg = true → v ≤ p.cnt → v ≤ z.cnt → p.hd < p.nsl → ∃ p', exec (.sladvCons f) s = done p' (wOf (p.cnt - v)) ∧
        p'.cnt = p.cnt - v ∧ p'.hd = (p.hd + v) % p.nsl ∧ p'.tl = p.tl ∧ p'.prs = p.prs) ∧
      (p.cfg = true → z.free < v → y.free < v → exec (.sladvProd f) s = traps) ∧
      (p.cfg = true → z.free < v → v ≤ y.free → exec (.sladvProd f) s = waits (.sladvProd f)) ∧
      (p.cfg = true → v ≤ p.nsl - p.cnt → v ≤ z.free → p.nsl ≤ 64 → p.tl < p.nsl → p.prs = 0 → p.early = [] →
        ∃ p', exec (.sladvProd f) s = done p' (wOf (p.cnt + v)) ∧ p'.cnt = p.cnt + v ∧ p'.tl = (p.tl + v) % p.nsl ∧
        p'.hd = p.hd ∧ p'.prs = 0) ∧
      (p.cfg = true → exec (.sltokRd f) s =
        done p (wOf ((wOf high).toNat % 2 ^ 63 + boolNat (decide (1 ≤ p.cnt) && p.tok.getLsbD p.hd) * 2 ^ 63))) ∧
      (p.cfg = true → z.free = 0 → y.free = 0 → exec (.sltokPut f) s = traps) ∧
      (p.cfg = true → z.free = 0 → y.free ≠ 0 → exec (.sltokPut f) s = waits (.sltokPut f)) ∧
      (p.cfg = true → p.cnt < p.nsl → 1 ≤ z.free → p.nsl ≤ 64 → p.tl < p.nsl → p.prs = 0 → p.early = [] →
        ∃ p', exec (.sltokPut f) s = done p' (wOf (p.cnt + 1)) ∧ p'.cnt = p.cnt + 1 ∧ p'.tok.getLsbD p.tl = true ∧
        p'.tl = (p.tl + 1) % p.nsl) ∧
      (p.cfg = true → 1 ≤ p.cnt → 1 ≤ z.cnt → p.tok.getLsbD p.hd = true → ∃ p', exec (.sltokTake f) s = done p' 1 ∧
        p'.cnt = p.cnt - 1 ∧ p'.hd = (p.hd + 1) % p.nsl ∧ p'.tok.getLsbD p.hd = false) ∧
      (p.cfg = true → (z.cnt = 0 ∨ p.tok.getLsbD p.hd = false) → exec (.sltokTake f) s = done p 0))

/-- The Tag Table: `TAGLK` answers the lowest valid entry with the key or all ones, `TAGSET` and `TAGCLR` replace an
entry and answer the old one, `TAGCLR.all` keeps the locked entries, `TAGVIC` answers the lowest invalid entry or the
next unlocked one from the victim pointer; `CUTRD` reads a trap record field, or traps where the record is poisoned: R258, R259, R260, R397. -/
def Obligations.TagTableInstructions : Prop :=
  ∀ (s : State) (n : Nat) (f : FmtQ), s.cur = .core n →
    let c := s.fg n
    let t (k : Nat) : Word := tget 0 c.tag k
    let key := (s.xr f.a).toNat % 2 ^ 48
    let hit (k : Nat) : Prop := (t k).getLsbD 63 = true ∧ (t k).toNat % 2 ^ 48 = key
    let answers (i : Instr) (v : Word) (cyc : Nat) : Prop := exec i s = .next ((s.setXr f.d v).retire 8 cyc)
    (∀ k, k < 256 → hit k → (∀ j, j < k → ¬hit j) → answers (.taglk f) (wOf k) 3) ∧
    ((∀ k, k < 256 → ¬hit k) → answers (.taglk f) 0xFFFFFFFFFFFFFFFF 3) ∧
    (decode64 0x00000000016A803F 0 = some (.taglk { wait := 0, sig := 0, imm := 0, c := 0, b := 0, a := 11, d := 10 })) ∧
    (let k := (s.xr f.b).toNat % 256
     ∃ u : State, exec (.tagset f) s = .next u ∧ u.pc = s.pc + 8 ∧ u.mem = s.mem ∧ (f.d ≠ 0 → u.xr f.d = t k) ∧
       ∀ j, tget 0 (u.fg n).tag j = if j = k then wOf (2 ^ 63 + boolNat ((s.xr f.b).getLsbD 8) * 2 ^ 62 + key) else t j) ∧
    (let k := (s.xr f.a).toNat % 256
     ∃ u : State, exec (.tagclr f) s = .next u ∧ u.pc = s.pc + 8 ∧ u.mem = s.mem ∧ (f.d ≠ 0 → u.xr f.d = t k) ∧
       ∀ j, tget 0 (u.fg n).tag j = if j = k then 0 else t j) ∧
    (tableOk 0 c.tag = true → ∃ u : State, exec (.tagclrAll f) s = .next u ∧ u.pc = s.pc + 8 ∧ u.mem = s.mem ∧
       (f.d ≠ 0 → u.xr f.d = wOf (256 - (c.tag.filter (fun p => p.2.getLsbD 62)).length)) ∧
       ∀ j, tget 0 (u.fg n).tag j = if (t j).getLsbD 62 then t j else 0) ∧
    (∀ k, k < 256 → (t k).getLsbD 63 = false → (∀ j, j < k → (t j).getLsbD 63 = true) → answers (.tagvic f) (wOf k) 3) ∧
    ((∀ k, k < 256 → (t k).getLsbD 63 = true) → ∀ j, j < 256 → (t ((c.tvp + j) % 256)).getLsbD 62 = false →
      (∀ i, i < j → (t ((c.tvp + i) % 256)).getLsbD 62 = true) →
      let k := (c.tvp + j) % 256
      exec (.tagvic f) s =
        .next (((s.modFg n (fun c => { c with tvp := (k + 1) % 256 })).setXr f.d (wOf k)).retire 8 3)) ∧
    ((∀ k, k < 256 → (t k).getLsbD 63 = true ∧ (t k).getLsbD 62 = true) → answers (.tagvic f) 0xFFFFFFFFFFFFFFFF 3) ∧
    (c.regs.pois.contains (poisCsr 0x1000) = true → exec (.cutrd f) s = .next (s.trapHere 0x0A 0x8000000000000002)) ∧
    (c.regs.pois.contains (poisCsr 0x1000) = false → answers (.cutrd f) (match f.imm.toNat % 16 with
      | 0 => c.rcd.cpc
      | 1 => c.rcd.cvx
      | 2 => c.rcd.cmt
      | 3 => c.rcd.cce0
      | 4 => c.rcd.cce1
      | 5 => c.rcd.cw
      | 6 => c.rcd.cval
      | 7 => c.rcd.cjt
      | 8 => c.rcd.cdc
      | 9 => c.rcd.cifq
      | 10 => c.rcd.cerr
      | _ => 0) 2)

/-! ## Reads, fences, promises, barriers and tasks -/

/-- `DLD`: a misaligned address traps; a read of the own scratchpad completes 3 cycles after issue with the bytes, extended by
its size code, or with POISON; one that left the package completes 2 cycles after its own reply: OK with the value, POISON,
STALE, or the target's refusal as a precise trap; a reply after D, or to another request, is discarded: R253, R254, R255,
R257, R265. -/
def Obligations.DeadlineLoadCompletes : Prop :=
  ∀ (s : State) (n : Nat) (f : FmtD), s.cur = .core n →
    let v := s.xr f.a
    let k := 2 ^ (f.aux.toNat % 4)
    let value (x : Nat) : Word := if f.aux.toNat % 8 < 4 then wOfInt (sextN x (8 * k)) else wOf x
    (v.toNat % k ≠ 0 → exec (.dld f) s = .next (s.trapHere 0x0F v)) ∧
    (∀ b, v.toNat % k = 0 → v.toNat < 0x80000 → s.leasedAt n v.toNat k = some b →
      exec (.dld f) s = .next (s.trapHere 0x02 (wOf b))) ∧
    (v.toNat % k = 0 → v.toNat < 0x80000 → s.leasedAt n v.toNat k = none → s.spadPoison n v.toNat k = false →
      exec (.dld f) s = .next ((s.modFg n (fun c => c.setX f.d (value (memNat s.mem (spadKey n v.toNat) k)))).finishDk
        n 3 f.st f.x s.pc 0 0)) ∧
    (v.toNat % k = 0 → v.toNat < 0x80000 → s.leasedAt n v.toNat k = none → s.spadPoison n v.toNat k = true →
      exec (.dld f) s = .next (s.finishDk n 3 f.st f.x s.pc 6 0)) ∧
    (∀ w, (s.fg n).wait = some w → w.instr = .dld f → w.ans = none → 2 ^ 63 ≤ w.b.toNat → w.since < s.now →
      (s.fg n).stop = none →
      let late := w.d.toNat < (s.jtime (s.fg n).ident.job).toNat
      let reply (a : ReadAns) := exec (.readReplyArrival n w.b.toNat (some a)) s
      (∀ a, late → reply a = .next s) ∧
      (∀ a key, 2 ^ 63 ≤ key → key ≠ w.b.toNat → exec (.readReplyArrival n key (some a)) s = .next s) ∧
      (∀ bs, ¬late → reply (.data bs) =
        .next ((s.modFg n (fun c => c.setX f.d (value (leNat bs)))).finishD n f.st f.x w.pc 0 0)) ∧
      (∀ d, ¬late → reply (.poison d) = .next (s.finishD n f.st f.x w.pc 6 d.toNat)) ∧
      (¬late → reply .stale = .next (s.finishD n f.st f.x w.pc 8 0)) ∧
      (∀ c, ¬late → reply (.refused c) = .next ((s.takeTrap n c.toNat 0 w.pc w.a).tick 1)))

/-- `PFENCE` and `XFENCE`: with nothing under way on any path they complete with code 0; a pending report of a window (at a
scope above the package, when the mask names path 1) completes with FAULTED and its cause, else a store failure, when the mask
names path 3, with POISON, and either is then forgotten; with earlier work on a named path they wait; `MARK` puts a marker
behind the queued stores, and one before later packets, and moves on: R245, R261, R262, R263. -/
def Obligations.FencesAndMarkers : Prop :=
  ∀ (s : State) (n : Nat) (f : FmtD), s.cur = .core n → (s.core n).stepping = none →
    let c := s.fg n
    let both (t : Instr → State) : Prop := exec (.pfence f) s = .next (t (.pfence f)) ∧ exec (.xfence f) s = .next (t (.xfence f))
    let window := 6 ≤ f.aux.toNat % 16 ∧ (s.xr f.a).getLsbD 1 = true
    let stores := (s.xr f.a).getLsbD 3 = true
    ((∀ e, (c.eng e).q = [] ∧ (c.eng e).lane = [] ∧ (c.eng e).run = []) → c.inflight = [] → c.vreads = [] →
      (∀ w, w ∈ c.winCnt → w.2 = 0) → (s.core n).sq = [] → (s.core n).farw = [] →
      (∀ k cause r, window → c.winFail = (k, cause) :: r → both (fun _ =>
        (s.setFg n { c with winFail := tset 0 c.winFail k 0 }).finishD n f.st f.x s.pc 7 cause.toNat)) ∧
      (¬window ∨ c.winFail = [] → c.storeErr = none ∨ ¬stores → both (fun _ => s.finishD n f.st f.x s.pc 0 0)) ∧
      (∀ d, ¬window ∨ c.winFail = [] → c.storeErr = some d → stores →
        both (fun _ => (s.setFg n { c with storeErr := none }).finishD n f.st f.x s.pc 6 d.toNat))) ∧
    ((s.xr f.a).getLsbD 2 = true → (c.eng .mt).inRing = false → (∃ q, q ∈ c.mt.q ∧ q.ord < c.ord ∧ q.ring = 0) →
      s.agentTime.toNat ≤ (deadlineAt s.agentTime (s.xr f.dl)).toNat → both (fun i => s.setWait (s.waitOf f i))) ∧
    (∀ g : FmtQ, ∃ t : State, exec (.mark g) s = .next t ∧ t.pc = s.pc + 8 ∧ t.mem = s.mem ∧
      (t.core n).sq = (if (s.core n).sq = [] then [] else (s.core n).sq ++ [{ marker := true }]) ∧
      (c.ce0.q = [] ∧ c.ce0.lane = [] ∧ c.ce1.q = [] ∧ c.ce1.lane = [] → (t.fg n).marks = c.marks) ∧
      (¬(c.ce0.q = [] ∧ c.ce0.lane = [] ∧ c.ce1.q = [] ∧ c.ce1.lane = []) → (t.fg n).marks = c.marks ++ [c.ord]))

/-- `CPPUT` and `CPPUT.p` claim an entry for the 64-byte packet at their offset: the packet joins the engine's queue
and xst tells its number and engine, they wait while the queue is full, and trap where the engine is in ring mode; bad
offsets, leased banks and poisoned lines trap: R312, R328. -/
def Obligations.PromisedCopyIsQueued : Prop :=
  ∀ (s : State) (n : Nat) (f : FmtD), s.cur = .core n → (s.core n).stepping = none →
    let v := s.xr f.a
    let a := v.toNat
    let both (o : Instr → Host.Outcome State Fault Refusal) : Prop :=
      exec (.cpput f) s = o (.cpput f) ∧ exec (.cpputP f) s = o (.cpputP f)
    (0x80000 ≤ a → both (fun _ => .next (s.trapHere 0x10 v))) ∧
    (a < 0x80000 → a % 64 ≠ 0 → both (fun _ => .next (s.trapHere 0x0F v))) ∧
    (∀ b, a < 0x80000 → a % 64 = 0 → s.leasedAt n a 64 = some b → both (fun _ => .next (s.trapHere 0x02 (wOf b)))) ∧
    (a < 0x80000 → a % 64 = 0 → s.leasedAt n a 64 = none → s.spadPoison n a 64 = true →
      both (fun _ => .next (s.trapHere 0x0A v))) ∧
    (a < 0x80000 → a % 64 = 0 → s.leasedAt n a 64 = none → s.spadPoison n a 64 = false →
      let target := (s.fg n).putEngine (memNat s.mem (spadKey n a) 64 / 2 ^ 42 % 4)
      (target = none → both (fun _ => .next (s.trapHere 0x0E (wOf (memNat s.mem (spadKey n a) 8))))) ∧
      (∀ e, target = some e →
        let g := (s.fg n).eng e
        let q : QEntry := { word := wOf (memNat s.mem (spadKey n a) 64), rest := BitVec.ofNat 448 (memNat s.mem (spadKey n a) 64 / 2 ^ 64)
                            dl := (s.fg n).edl e, ord := (s.fg n).ord, pc := s.pc }
        (16 ≤ g.q.length → s.agentTime.toNat ≤ (deadlineAt s.agentTime (s.xr f.dl)).toNat → both (fun i =>
          .next (s.setWait { s.waitOf f i with b := wOf (engNum e), bytes := memRead s.mem (spadKey n a) 64 }))) ∧
        (g.q.length < 16 → ∀ i, i = .cpput f ∨ i = .cpputP f → ∃ t : State, exec i s = .next t ∧
          (t.fg n).pc = s.pc + 8 ∧
          (f.st ≠ 0 → (t.fg n).x f.st = wOf ((g.wcnt.toNat * 2 ^ 16 + boolNat (decide (e = .ce1))) * 2 ^ 16)) ∧
          (i = .cpputP f → f.d ≠ 0 → f.d ≠ f.st → (t.fg n).x f.d = s.promiseOf n e q) ∧
          (s.lockstep = false ∨ g.q ≠ [] ∨ g.st = .stopped ∨ g.st = .ring → t.mem = s.mem ∧
            ((t.fg n).eng e).q =
              g.q ++ [{ q with promise := s.promiseOf n e q, missed := decide (i ≠ .cpputP f) }] ∧
            ((t.fg n).eng e).wcnt = g.wcnt + 1))))

/-- The barrier instructions: one that the task's records forbid is refused at once; otherwise `BAR` sends its arrival
and waits, `BARA` sends it and moves on, `BARW` completes with the phase of an answered record, and `BARX` forgets an
answered record or sends its withdrawal, the messages reaching a home in the package after the one-way latency: R205, R208,
R209, R210, R211, R214. -/
def Obligations.BarrierInstructions : Prop :=
  ∀ (s : State) (n : Nat), s.cur = .core n → (s.core n).stepping = none →
    let c := s.fg n
    (∀ f : FmtD,
      let k : BarKey := s.barKey n (f.aux.toNat % 16) (s.xr f.a)
      let cnt : BitVec 32 := BitVec.ofNat 32 ((s.xr f.a).toNat / 2 ^ 32)
      let arr : BarArr := ⟨k, s.gid c, cnt, true, s.now + s.barWay k⟩
      ((c.barRec k).isSome = true → exec (.bar f) s = .next (s.finishDk n 1 f.st f.x s.pc 5 1)) ∧
      (c.barRec k = none → 4 ≤ c.bars.length → exec (.bar f) s = .next (s.finishDk n 1 f.st f.x s.pc 5 2)) ∧
      (c.barRec k = none → c.bars.length < 4 →
        s.agentTime.toNat ≤ (deadlineAt s.agentTime (s.xr f.dl)).toNat → ∃ t : State, exec (.bar f) s = .next t ∧
        t.pc = s.pc ∧ t.mem = s.mem ∧ (s.homeHere k = true → t.sch.barArr = s.sch.barArr ++ [arr]) ∧
        (s.homeHere k = false → t.sch.barArr = s.sch.barArr) ∧ (t.fg n).bars = c.bars ++ [{ key := k }] ∧
        (t.fg n).wait = some (s.waitOf f (.bar f))) ∧
      (c.barRec k = none → exec (.barw f) s = .next (s.finishDk n 1 f.st f.x s.pc 5 0)) ∧
      (∀ r ph, c.barRec k = some r → r.ans = some (.completed ph) → ∃ t : State, exec (.barw f) s =
        .next (t.finishDk n 1 f.st f.x s.pc 0 0) ∧ (t.fg n).barRec k = none ∧ t.mem = s.mem ∧
          (t.fg n).x f.d = (if f.d = 0 then 0 else wOf ph.toNat)) ∧
      (∀ r ph, c.barRec k = some r → r.ans = some (.broken ph) → ∃ t : State, exec (.barw f) s =
        .next (t.finishDk n 1 f.st f.x s.pc 3 0) ∧ (t.fg n).barRec k = none ∧ t.mem = s.mem ∧
          (t.fg n).x f.d = (if f.d = 0 then 0 else wOf ph.toNat)) ∧
      (∀ r, c.barRec k = some r → r.ans = none → s.agentTime.toNat ≤ (deadlineAt s.agentTime (s.xr f.dl)).toNat →
        exec (.barw f) s = .next (s.setWait (s.waitOf f (.barw f))))) ∧
    (∀ f : FmtQ,
      let k : BarKey := s.barKey n (f.imm.toNat % 16) (s.xr f.a)
      let cnt : BitVec 32 := BitVec.ofNat 32 ((s.xr f.a).toNat / 2 ^ 32)
      ((c.barRec k).isSome = true → exec (.bara f) s = .next ((s.setXr f.d 0x8000000000000001).retire 8 4)) ∧
      (c.barRec k = none → 4 ≤ c.bars.length → exec (.bara f) s = .next ((s.setXr f.d 0x8000000000000002).retire 8 4)) ∧
      (c.barRec k = none → c.bars.length < 4 → ∃ t : State, exec (.bara f) s = .next t ∧
        t.pc = s.pc + 8 ∧ t.mem = s.mem ∧
        (s.homeHere k = true → t.sch.barArr = s.sch.barArr ++ [⟨k, s.gid c, cnt, false, s.now + s.barWay k⟩]) ∧
        (s.homeHere k = false → t.sch.barArr = s.sch.barArr) ∧ (t.fg n).bars = c.bars ++ [{ key := k }] ∧
        (t.fg n).baraTo = c.baraTo ++ [(k, false, f.d)]) ∧
      (c.barRec k = none → exec (.barx f) s = .next ((s.setXr f.d 2).retire 8 2)) ∧
      (∀ r, c.barRec k = some r → r.ans.isSome = true → ∃ t : State, exec (.barx f) s = .next t ∧ t.pc = s.pc + 8 ∧
        t.mem = s.mem ∧ (t.fg n).barRec k = none ∧ (f.d ≠ 0 → t.xr f.d = 1)) ∧
      (∀ r, c.barRec k = some r → r.ans = none → ∃ t : State, exec (.barx f) s = .next t ∧
        t.pc = s.pc + 8 ∧ t.mem = s.mem ∧ (t.fg n).barRec k = some { r with withdrawn := true } ∧
        (t.fg n).baraTo = c.baraTo ++ [(k, true, f.d)] ∧
        (s.homeHere k = true → r.withdrawn = false →
          t.sch.barWdr = s.sch.barWdr ++ [⟨k, s.gid c, r.phase, r.known, s.now + s.barWay k⟩]) ∧
        (s.homeHere k = false ∨ r.withdrawn = true → t.sch.barWdr = s.sch.barWdr)))

/-- A barrier's home takes what has reached it in the order in which it came, the arrivals of a cycle before its
withdrawals: an arrival with another count or none is a mismatch, one without a free record is told so, or tried again at the
next tick where its task waits, any other joins the open phase, and the last one completes it and opens the next; a withdrawal
takes a waiting arrival back; a task's reply ends its `BAR` or `BARW` with the phase: R205, R207, R208, R212, R213, R482. -/
def Obligations.BarrierHomesDecide : Prop :=
  (∀ (s : State) (a : BarArr), a ∈ s.sch.barArr → s.rs a.key.job = 0 → s.barNext a.key a.due false = true →
    let b := s.bar a.key
    let u : State := { s with sch := { s.sch with barArr := s.sch.barArr.erase a } }
    let clash := a.n = 0 ∨ (b.n ≠ none ∧ b.n ≠ some a.n.toNat)
    let full := b.n = none ∧ poolSize a.key.scope ≤ s.poolUsed a.key
    let joined : State := (u.setBar { b with n := some a.n.toNat, who := b.who ++ [a.core] }).barAnswer a.key a.core
      (.joined b.phase)
    (clash → exec (.barrierArrivalAtHome a) s = .next (u.barAnswer a.key a.core .mismatch)) ∧
    (¬clash → full → a.wait = false → exec (.barrierArrivalAtHome a) s = .next (u.barAnswer a.key a.core .noRecord)) ∧
    (¬clash → full → a.wait = true → exec (.barrierArrivalAtHome a) s =
      .next { u with sch := { u.sch with barArr := u.sch.barArr ++ [{ a with due := s.now + 1 }] } }) ∧
    (¬clash → ¬full → b.who.length + 1 ≠ a.n.toNat → exec (.barrierArrivalAtHome a) s = .next joined) ∧
    (¬clash → ¬full → b.who.length + 1 = a.n.toNat → ∃ t : State, exec (.barrierArrivalAtHome a) s = .next t ∧
      (t.bar a.key).phase = b.phase + 1 ∧ (t.bar a.key).n = none ∧ (t.bar a.key).who = [])) ∧
  (∀ (s : State) (w : BarWdr) (a : BarArr), w ∈ s.sch.barWdr → a ∈ s.sch.barArr → a.key = w.key → a.due ≤ w.due →
    exec (.barrierWithdrawalAtHome w) s = .next s) ∧
  (∀ (s : State) (w : BarWdr), w ∈ s.sch.barWdr → s.rs w.key.job = 0 → s.barNext w.key w.due true = true →
    let u : State := { s with sch := { s.sch with barWdr := s.sch.barWdr.erase w } }
    let b := s.bar w.key
    let left := b.who.erase w.core
    let b' : Bar := { b with who := left, n := if left.isEmpty then none else b.n, wdAt := s.now + 1 }
    let stale := w.known = true ∧ w.phase ≠ b.phase
    (w.core ∉ b.who → (∀ a, a ∈ s.sch.barArr → ¬(a.key = w.key ∧ a.core = w.core)) →
      exec (.barrierWithdrawalAtHome w) s = .next u) ∧
    (w.core ∈ b.who → stale → exec (.barrierWithdrawalAtHome w) s = .next u) ∧
    (w.core ∈ b.who → ¬stale → exec (.barrierWithdrawalAtHome w) s = .next ((u.setBar b').barAnswer w.key w.core .withdrawn))) ∧
  (∀ (s : State) (r : BarReply) (n : Nat) (f : FmtD) (w : Wait) (ph : BitVec 16),
    s.sch.barAns.find? (fun x => decide (x.key = r.key ∧ x.core = r.core)) = some r →
    s.coreOf r.key.job r.core = some n → (s.fg n).stop = none → (s.fg n).wait = some w →
    r.due + (s.fg n).barLag r.key r.ans ≤ s.now →
    (∀ x, (s.fg n).barRec r.key = some x → x.withdrawn = false) →
    (w.instr = .bar f ∨ w.instr = .barw f) → s.barKey n (f.aux.toNat % 16) w.a = r.key →
    (r.ans = .completed ph → ∃ t : State, exec (.barrierReply r) s = .next (t.finishDk n 0 f.st f.x w.pc 0 0) ∧
      (t.fg n).x f.d = (if f.d = 0 then 0 else wOf ph.toNat) ∧ (t.fg n).barRec r.key = none) ∧
    (r.ans = .broken ph → ∃ t : State, exec (.barrierReply r) s = .next (t.finishDk n 0 f.st f.x w.pc 3 0) ∧
      (t.fg n).x f.d = (if f.d = 0 then 0 else wOf ph.toNat) ∧ (t.fg n).barRec r.key = none) ∧
    (r.ans = .withdrawn → ∃ t : State, exec (.barrierReply r) s = .next (t.finishDk n 0 f.st f.x w.pc 1 0) ∧
      (t.fg n).barRec r.key = none) ∧
    (r.ans = .mismatch → ∃ t : State, exec (.barrierReply r) s = .next (t.finishDk n 0 f.st f.x w.pc 5 0) ∧
      (t.fg n).barRec r.key = none))

/-- Task control: `TLAUNCH` queues an accepted launch with the job's next number, refuses a bad descriptor with the
number of the first failing check, and waits at a full queue; `TEXIT` stops issue, and the core is free once drained and
without an unanswered barrier arrival; `TYIELD` leaves the core only for a ready task of the job; `TARM` arms a FREE slot:
R192, R193, R200, R201, R202, R203, R204. -/
def Obligations.TaskControl : Prop :=
  ∀ (s : State) (n : Nat), s.cur = .core n → (s.core n).stepping = none →
    let c := s.fg n
    (∀ f : FmtD,
      let a := (s.xr f.a).toNat
      let raw := memNat s.mem (spadKey n a) 64
      let d := descOf raw
      let num := s.launchNum c.ident.job
      let waits : Host.Outcome State Fault Refusal :=
        .next (s.setWait { s.waitOf f (.tlaunch f) with bytes := leBytes 64 raw })
      (2 ^ 19 ≤ a → exec (.tlaunch f) s = .next (s.trapHere 0x10 (s.xr f.a))) ∧
      (a < 2 ^ 19 → a % 64 ≠ 0 → exec (.tlaunch f) s = .next (s.trapHere 0x0F (s.xr f.a))) ∧
      ((s.spanPkgs c.ident.job 7).length = 1 → num = (s.job c.ident.job).launches) ∧
      (a < 2 ^ 19 → a % 64 = 0 → s.leasedAt n a 64 = none → s.spadPoison n a 64 = false →
        (∀ k, s.descCheck raw (s.issuer n d.span) = some k →
          exec (.tlaunch f) s = .next (s.finishDk n 4 f.st f.x s.pc 4 k)) ∧
        (s.descCheck raw (s.issuer n d.span) = none →
          (d.span = 3 → (s.leafQ (n / 256)).length < 64 →
            ∃ t : State, exec (.tlaunch f) s = .next (t.finishDk n 4 f.st f.x s.pc 0 0) ∧
              (t.fg n).x f.d = (if f.d = 0 then 0 else wOf num) ∧
              t.leafQ (n / 256) = s.leafQ (n / 256) ++ [(c.ident.job, num)] ∧ t.mem = s.mem ∧
              ∃ l, t.sch.launches = s.sch.launches ++ [l] ∧ l.job = c.ident.job ∧ l.num = num ∧ l.desc = d) ∧
          (d.span ≠ 3 → s.sch.globQ.length < 256 →
            ∃ t : State, exec (.tlaunch f) s = .next (t.finishDk n 4 f.st f.x s.pc 0 0) ∧
              (t.fg n).x f.d = (if f.d = 0 then 0 else wOf num) ∧
              t.sch.globQ = s.sch.globQ ++ [(c.ident.job, num)] ∧ t.mem = s.mem ∧
              ∃ l, t.sch.launches = s.sch.launches ++ [l] ∧ l.job = c.ident.job ∧ l.num = num ∧ l.desc = d) ∧
          (s.agentTime.toNat ≤ (deadlineAt s.agentTime (s.xr f.dl)).toNat →
            (d.span = 3 → 64 ≤ (s.leafQ (n / 256)).length → exec (.tlaunch f) s = waits) ∧
            (d.span ≠ 3 → 256 ≤ s.sch.globQ.length → exec (.tlaunch f) s = waits))))) ∧
    (∀ f, ∃ t : State, exec (.texit f) s = .next t ∧ (t.fg n).exiting = true ∧ t.mem = s.mem ∧
      ∀ e, ((t.fg n).eng e).st ≠ .ring) ∧
    (c.exiting = true → c.stop = none → s.drained n = true → (∀ e, (c.eng e).st ≠ .stopped) →
      ((∀ r, r ∈ c.bars → r.ans.isSome = true) →
        ∃ t : State, exec (.taskEnd n) s = .next t ∧ (t.core n).busy = false ∧ t.fg n = {}) ∧
      (∀ r, r ∈ c.bars → r.ans = none → ∃ t : State, exec (.taskEnd n) s = .next t ∧ (t.core n).busy = (s.core n).busy ∧
        (t.fg n).bars = (c.bars.filter (fun r => r.ans.isNone)).map (fun r => { r with withdrawn := true }))) ∧
    (∀ f, (c.atRest = false ∨ ∀ r, r ∈ s.readyTasks (n / 256) → ¬(r.job = c.ident.job ∧ c.ident.desc.prio ≤ r.prio)) →
      exec (.tyield f) s = .next ((s.setXr f.d 0).retire 8 2)) ∧
    (∀ f r, c.atRest = true → r ∈ s.readyTasks (n / 256) → r.job = c.ident.job → c.ident.desc.prio ≤ r.prio →
      ∃ (t : State) (y : Yielded), exec (.tyield f) s = .next t ∧ (t.core n).busy = false ∧ t.sch.yielded = s.sch.yielded ++ [y] ∧
        y.ctx.pc = c.pc + 8 ∧ y.rd = f.d ∧ y.cl = n / 256 ∧ y.ctx.regs = c.regs ∧ y.ctx.sem = c.sem ∧ t.mem = s.mem) ∧
    (∀ f : FmtQ,
      let a := (s.xr f.a).toNat
      let b := (s.xr f.b).toNat
      let raw := memNat s.mem (spadKey n a) 64
      let cl := n / 256
      let v := s.slot cl (b % 2 ^ 12)
      let cnt := b / 2 ^ 32 % 2 ^ 16
      let u : Issuer := s.issuer n (descOf raw).span
      let here := b / 2 ^ 16 % 2 ^ 11 = s.pkgid ∧ b / 2 ^ 12 % 2 ^ 4 = cl
      a < 2 ^ 19 → a % 64 = 0 → s.leasedAt n a 64 = none → s.spadPoison n a 64 = false →
      (¬here → exec (.tarm f) s = .next ((s.setXr f.d 3).retire 8 6)) ∧
      (here → v.st ≠ .free → exec (.tarm f) s = .next ((s.setXr f.d 2).retire 8 6)) ∧
      (here → v.st = .free → ∀ k, s.descCheck raw { u with one := true } = some k →
        exec (.tarm f) s = .next ((s.setXr f.d (wOf (4 + k))).retire 8 6)) ∧
      (here → v.st = .free → s.descCheck raw { u with one := true } = none →
        ∃ t : State, exec (.tarm f) s = .next t ∧ t.pc = s.pc + 8 ∧ t.mem = s.mem ∧
          (f.d ≠ 0 → t.xr f.d = if v.pend < cnt then 0 else 1) ∧ (t.slot cl (b % 2 ^ 12)).desc = descOf raw ∧
          (v.pend < cnt → (t.slot cl (b % 2 ^ 12)).st = .armed ∧ (t.slot cl (b % 2 ^ 12)).cnt = cnt - v.pend) ∧
          (cnt ≤ v.pend → (t.slot cl (b % 2 ^ 12)).st = .ready ∧ (t.slot cl (b % 2 ^ 12)).pend = v.pend - cnt)))
/-! ## The vector unit -/

/-- Vector words at a unit at rest: each completes with what its operation makes of its operands, takes and gives its
semaphores, moves the PC past itself, and changes nothing else; its result goes to a register or a spool slot, its flags
and the stochastic seed to their CSRs: R12, R57, R62, R81, R117, R118, R119, R132, R151, R287, R303. -/
def Obligations.VectorWordsComplete : Prop :=
  (∀ (s : State) (n : Nat), s.unitsAtRest n →
      (∀ f, s.runsV n (.vadd f) f (effVadd f)) ∧ (∀ f, s.runsV n (.vsub f) f (effVsub f)) ∧
      (∀ f, s.runsV n (.vmul f) f (effVmul f)) ∧ (∀ f, s.runsV n (.vmulh f) f (effVmulh f)) ∧
      (∀ f, s.runsV n (.vfma f) f (effVfma f)) ∧ (∀ f, s.runsV n (.vfms f) f (effVfms f)) ∧
      (∀ f, s.runsV n (.vfnma f) f (effVfnma f)) ∧ (∀ f, s.runsV n (.vdiv f) f (effVdiv f)) ∧
      (∀ f, s.runsV n (.vsqrt f) f (effVsqrt f)) ∧ (∀ f, s.runsV n (.vmin f) f (effVmin f)) ∧
      (∀ f, s.runsV n (.vmax f) f (effVmax f)) ∧ (∀ f, s.runsV n (.vabs f) f (effVabs f)) ∧
      (∀ f, s.runsV n (.vneg f) f (effVneg f)) ∧ (∀ f, s.runsV n (.vadds f) f (effVadds f)) ∧
      (∀ f, s.runsV n (.vsubs f) f (effVsubs f)) ∧ (∀ f, s.runsV n (.vshl f) f (effVshl f)) ∧
      (∀ f, s.runsV n (.vshr f) f (effVshr f)) ∧ (∀ f, s.runsV n (.vsra f) f (effVsra f)) ∧
      (∀ f, s.runsV n (.vcmp f) f (effVcmp f)) ∧ (∀ f, s.runsV n (.vredsum f) f (effVredsum f)) ∧
      (∀ f, s.runsV n (.vredmin f) f (effVredmin f)) ∧ (∀ f, s.runsV n (.vredmax f) f (effVredmax f)) ∧
      (∀ f, s.runsVI n (.vaddi f) f (effVaddi f))) ∧
  (∀ (s : State) (n : Nat), s.unitsAtRest n →
      (∀ f, s.runsV n (.vand f) f (effVand f)) ∧ (∀ f, s.runsV n (.vandNb f) f (effVandNb f)) ∧
      (∀ f, s.runsV n (.vor f) f (effVor f)) ∧ (∀ f, s.runsV n (.vorNb f) f (effVorNb f)) ∧
      (∀ f, s.runsV n (.vxor f) f (effVxor f)) ∧ (∀ f, s.runsV n (.vxorNb f) f (effVxorNb f)) ∧
      (∀ f, s.runsV n (.vfsh f) f (effVfsh f)) ∧ (∀ f, s.runsV n (.vfshw f) f (effVfshw f)) ∧
      (∀ f, s.runsV n (.vrot f) f (effVrot f)) ∧ (∀ f, s.runsV n (.vpopc f) f (effVpopc f)) ∧
      (∀ f, s.runsV n (.vclz f) f (effVclz f)) ∧ (∀ f, s.runsV n (.vshuf f) f (effVshuf f)) ∧
      (∀ f, s.runsV n (.vbcast f) f (effVbcast f)) ∧ (∀ f, s.runsV n (.vbcastEl f) f (effVbcastEl f)) ∧
      (∀ f, s.runsV n (.vzip f) f (effVzip f)) ∧ (∀ f, s.runsV n (.vzipHi f) f (effVzipHi f)) ∧
      (∀ f, s.runsV n (.vunzip f) f (effVunzip f)) ∧ (∀ f, s.runsV n (.vunzipOdd f) f (effVunzipOdd f)) ∧
      (∀ f, s.runsV n (.vsel f) f (effVsel f)) ∧ (∀ f, s.runsV n (.vmvx f) f (effVmvx f)) ∧
      (∀ f, s.runsV n (.vmxv f) f (effVmxv f)) ∧ (∀ f, s.runsV n (.pand f) f (effPand f)) ∧
      (∀ f, s.runsV n (.por f) f (effPor f)) ∧ (∀ f, s.runsV n (.pxor f) f (effPxor f)) ∧
      (∀ f, s.runsV n (.pandn f) f (effPandn f)) ∧ (∀ f, s.runsV n (.pcnt f) f (effPcnt f)) ∧
      (∀ f, s.runsVI n (.vlrot f) f (effVlrot f)) ∧ (∀ f, s.runsVI n (.vslide f) f (effVslide f)) ∧
      (∀ f, s.runsVI n (.pset f) f (effPset f)) ∧
      (∀ f : FmtVL, (s.fg n).semsAllow f.wait f.sig →
        let o := effVlut3 f (s.vxOperands n f.a f.b f.c f.d false 0 0 0 0 0)
        ∃ t : State, exec (.vlut3 f) s = .next t ∧ s.vxDone t n f.wait f.sig 0 f.d f.b o.dst)) ∧
  (∀ (s : State) (n : Nat), s.unitsAtRest n →
      (∀ f, s.runsV n (.vcvt f) f (effVcvt f)) ∧ (∀ f, s.runsV n (.vcvtSat f) f (effVcvtSat f)) ∧
      (∀ f, s.runsV n (.vpack f) f (effVpack f)) ∧ (∀ f, s.runsV n (.vunpk f) f (effVunpk f)) ∧
      (∀ f, s.runsV n (.vqmx f) f (effVqmx f)) ∧ (∀ f, s.runsV n (.vdqmx f) f (effVdqmx f)) ∧
      (∀ f, s.runsV n (.vcbl f) f (effVcbl f)) ∧ (∀ f, s.runsV n (.vcblEnc f) f (effVcblEnc f)))





/-- An element-wise operation replaces the active elements, each by its own value, keeps the inactive ones, and threads
the flags through the active elements in ascending order: R118, R120. -/
def Obligations.ElementwiseWritesActiveElements : Prop :=
  ∀ (o : VIn) (w : Nat), w ∈ [4, 8, 16, 32, 64] →
    (∀ (g : Nat → Nat) (i : Nat), i < 1024 / w → (∀ j, g j < 2 ^ w) → ∃ v, elementwise' o w g = ⟨.vec v, o.fp⟩ ∧
      getEl v w i = if activeEl o.act w i then g i else getEl o.d w i) ∧
    (∀ (f : Nat → FpSt → Nat × FpSt) (i : Nat), i < 1024 / w → ∃ v st u, elementwise o w f = ⟨.vec v, st⟩ ∧
      getEl v w i = if activeEl o.act w i then (f i u).1 % 2 ^ w else getEl o.d w i) ∧
    (∀ (f : Nat → FpSt → Nat × FpSt), (∀ i, i < 1024 / w → activeEl o.act w i = false) →
      elementwise o w f = ⟨.vec o.d, o.fp⟩)

/-- Integer vector arithmetic by element over unbounded integers: the plain forms wrap, the saturating ones saturate, the
shifts fill beyond their width, `VDIV` truncates; and by element the bitwise operations, `VLUT3`'s truth table,
rotation, counting, lane rotation, slide, shuffle, broadcast, zip, unzip and select: R11, R122, R123, R124, R125, R126,
R134, R135, R136, R139, R140, R141, R142, R143, R144, R145. -/
def Obligations.IntegerAndPermutationElements : Prop :=
  (∀ (f : FmtV) (o : VIn) (i : Nat), tyB f.ty = true → 8 ≤ tyWidth f.ty →
      let w := tyWidth f.ty
      let x := elInt f.ty o.a i
      let y := elInt f.ty o.b i
      let lo : Int := if tyI f.ty then -(2 ^ (w - 1)) else 0
      let hi : Int := if tyI f.ty then 2 ^ (w - 1) - 1 else 2 ^ w - 1
      let k := if f.fx then o.xb.toNat else getEl o.b w i
      let has (r : VOut) (z : Int) : Prop := ∃ v, r.dst = .vec v ∧ (getEl v w i : Int) = z % 2 ^ w
      i < 1024 / w → activeEl o.act w i = true →
      (has (effVadd f o) (x + y) ∧ has (effVsub f o) (x - y) ∧ has (effVmul f o) (x * y) ∧
        has (effVmulh f o) (x * y / 2 ^ w) ∧ has (effVmin f o) (min x y) ∧ has (effVmax f o) (max x y)) ∧
      (has (effVadds f o) (max lo (min hi (x + y))) ∧ has (effVsubs f o) (max lo (min hi (x - y))) ∧
        has (effVabs f o) (max lo (min hi |x|)) ∧ has (effVneg f o) (max lo (min hi (-x)))) ∧
      (has (effVshl f o) (if w ≤ k then 0 else getEl o.a w i * 2 ^ k) ∧
        has (effVshr f o) (if w ≤ k then 0 else (getEl o.a w i / 2 ^ k : Nat)) ∧
        has (effVsra f o) (sextN (getEl o.a w i) w / 2 ^ min k w)) ∧
      (has (effVdiv f o) (if y = 0 then -1 else Int.tdiv x y)) ∧
      (∀ g : FmtVI, g.ty = f.ty → has (effVaddi g o) (x + g.imm.toInt))) ∧
  (∀ (f : FmtV) (g : FmtVI) (l : FmtVL) (o : VIn) (i : Nat), tyWidth f.ty ∈ [4, 8, 16, 32, 64] → g.ty = f.ty →
      let w := tyWidth f.ty
      let m := 1024 / w
      let x (j : Nat) : Nat := getEl o.a w j
      let y (j : Nat) : Nat := getEl o.b w j
      let has (r : VOut) (z : Nat) : Prop := ∃ v, r.dst = .vec v ∧ getEl v w i = z
      let inReg (j : Nat) : Nat := if j < m then x j else 0
      let imm := g.imm.toInt
      i < m → activeEl o.act w i = true →
      (has (effVand f o) (x i &&& y i) ∧ has (effVor f o) (x i ||| y i) ∧ has (effVxor f o) (x i ^^^ y i) ∧
        has (effVandNb f o) (x i &&& (2 ^ w - 1 - y i)) ∧ has (effVorNb f o) (x i ||| (2 ^ w - 1 - y i)) ∧
        has (effVxorNb f o) (x i ^^^ (2 ^ w - 1 - y i))) ∧
      (∃ v, (effVlut3 l o).dst = .vec v ∧ ∀ j, j < 1024 → v.getLsbD j =
        l.tt.getLsbD (4 * boolNat (o.a.getLsbD j) + 2 * boolNat (o.b.getLsbD j) + boolNat (o.c.getLsbD j))) ∧
      (has (effVrot f o) (let k := (if f.fx then o.xb.toNat else y i) % w; x i * 2 ^ k % 2 ^ w + x i / 2 ^ (w - k)) ∧
        has (effVpopc f o) ((List.range w).filter (fun j => (x i).testBit j)).length) ∧
      (has (effVlrot g o) (x (((i : Int) + imm) % (m : Int)).toNat) ∧
        has (effVslide g o) (if (i : Int) + imm < 0 then 0 else inReg ((i : Int) + imm).toNat) ∧
        has (effVshuf f o) (inReg (y i))) ∧
      (has (effVbcast f o) (o.xa.toNat % 2 ^ w) ∧ has (effVbcastEl f o) (inReg o.xb.toNat) ∧
        has (effVzip f o) (if i % 2 = 0 then x (i / 2) else y (i / 2)) ∧
        has (effVzipHi f o) (if i % 2 = 0 then x (m / 2 + i / 2) else y (m / 2 + i / 2)) ∧
        has (effVunzip f o) (if i < m / 2 then x (2 * i) else y (2 * (i - m / 2))) ∧
        has (effVunzipOdd f o) (if i < m / 2 then x (2 * i + 1) else y (2 * (i - m / 2) + 1)) ∧
        has (effVsel f o) (x i)) ∧
      (∃ v, (effVmvx f o).dst = .scal v ∧ v.toNat =
        (if tyI f.ty then (sextN (inReg o.xb.toNat) w % 2 ^ 64).toNat else inReg o.xb.toNat)) ∧
      (has (effVmxv f o) (if i = o.xb.toNat then o.xa.toNat % 2 ^ w else getEl o.d w i)))



/-- Predicates and counts: `PAND` to `PANDN` work bit by bit, `PSET` makes the first elements active, `PCNT` counts the
active ones, and an integer `VCMP` writes the predicate bits of its active elements with the comparison and keeps the
others: R25, R127, R148, R149, R150. -/
def Obligations.PredicatesAndComparisons : Prop :=
  ∀ (f : FmtV) (g : FmtVI) (o : VIn) (i : Nat), tyWidth f.ty ∈ [8, 16, 32, 64] → g.ty = f.ty → i < 1024 / tyWidth f.ty →
    let w := tyWidth f.ty
    let m := 1024 / w
    (effPand f o).dst = .pred (o.pa &&& o.pb) ∧ (effPor f o).dst = .pred (o.pa ||| o.pb) ∧
    (effPxor f o).dst = .pred (o.pa ^^^ o.pb) ∧ (effPandn f o).dst = .pred (o.pa &&& ~~~o.pb) ∧
    (∃ p, (effPset g o).dst = .pred p ∧
      (activeEl p w i = true ↔ (i : Int) < o.xa.toInt + g.imm.toInt)) ∧
    ((effPcnt f o).dst = .scal (wOf ((List.range m).filter (fun j => activeEl o.pa w j)).length)) ∧
    (tyB f.ty = true → f.c.toNat ≤ 5 → ∃ p, (effVcmp f o).dst = .pred p ∧
      (activeEl o.act w i = true →
        let x := elInt f.ty o.a i
        let y := elInt f.ty o.b i
        let c : Prop := match f.c.toNat with
          | 0 => x = y
          | 1 => x ≠ y
          | 2 => x < y
          | 3 => x ≤ y
          | 4 => x > y
          | _ => x ≥ y
        ∀ j, j < w / 8 → (p.getLsbD (i * (w / 8) + j) = true ↔ c)) ∧
      (activeEl o.act w i = false → ∀ j, j < w / 8 → p.getLsbD (i * (w / 8) + j) = o.pd.getLsbD (i * (w / 8) + j)))

/-- `VLD`, `VLDS` and `VLDX` of the own scratchpad: an active element becomes the bytes at its address, an inactive one
keeps its old value, and `VLDW` reads its 128 bytes at once and completes with status 0: R246, R247, R248, R249, R253. -/
def Obligations.VectorLoadsReadTheScratchpad : Prop :=
  ∀ (s : State) (n : Nat), s.unitsAtRest n →
    (∀ f : FmtVM, (s.fg n).semsAllow f.wait f.sig → s.spoolsAllow n (f.sm &&& 2) 0 f.d →
      let c := s.fg n
      let w := tyWidth f.ty
      let ea : Int := ((s.xr f.a).toNat : Int) + 64 * f.off.toInt
      let act : PReg := if f.pe then c.p f.pg.toNat else BitVec.allOnes 128
      let old : VReg := if f.sm.getLsbD 1 then 0 else c.v f.d
      let fits (a : Int) (k : Nat) : Prop := 0 ≤ a ∧ a + k ≤ 0x80000 ∧ c.bankFits (a.toNat / 2 ^ 15) w = true ∧
        s.leasedAt n a.toNat k = none ∧ s.spadPoison n a.toNat k = false
      let gather (i : Instr) (at_ : Nat → Int) : Prop :=
        w ∈ [8, 16, 32, 64] →
        (∀ j, j < 1024 / w → activeEl act w j = true → at_ j % (w / 8 : Nat) = 0 ∧ fits (at_ j) (w / 8)) →
        ∃ (t : State) (v : VReg), exec i s = .next t ∧ s.vxDone t n f.wait f.sig (f.sm &&& 2) f.d 0 (.vec v) ∧
          (∀ j, j < 1024 / w → getEl v w j = if activeEl act w j then
            memNat s.mem (spadKey n (at_ j).toNat) (w / 8) else getEl old w j)
      (w ∈ [4, 8, 16, 32, 64] → ea % 64 = 0 → (∀ j, j < 128 → byteActive act w j = true → fits (ea + j) 1) →
        ∃ (t : State) (v : VReg), exec (.vld f) s = .next t ∧ s.vxDone t n f.wait f.sig (f.sm &&& 2) f.d 0 (.vec v) ∧
          (∀ j, j < 128 → getEl v 8 j = if byteActive act w j then
            (memByte s.mem (spadKey n (ea + j).toNat)).toNat else getEl old 8 j)) ∧
      gather (.vlds f) (fun j => ea + j * (s.xr f.b).toInt) ∧
      gather (.vldx f) (fun j => ea + (getEl (c.v f.b) w j * (w / 8) : Nat))) ∧
    (∀ f : FmtD, (s.fg n).semsAllow f.wait f.sig →
      let a := (s.xr f.a).toNat
      a % 128 = 0 → a + 128 ≤ 0x80000 → s.leasedAt n a 128 = none → s.spadPoison n a 128 = false →
      ∃ t : State, exec (.vldw f) s = .next t ∧ t.pc = s.pc + 8 ∧ t.mem = s.mem ∧
        ((t.fg n).v f.d).toNat = memNat s.mem (spadKey n a) 128 ∧ (f.st ≠ 0 → t.xr f.st = 0) ∧
        (s.fg n).semsMoved (t.fg n) f.wait f.sig ∧ (t.fg n).vreads = [])

/-- `VST`, `VSTS` and `VSTX` to the own scratchpad: the bytes of each active element go to its address, of two elements
that name one byte the higher index stands, and every other byte of memory keeps its value: R246, R247, R248, R249,
R250. -/
def Obligations.VectorStoresWriteTheirElements : Prop :=
  ∀ (s : State) (n : Nat) (f : FmtVM), s.unitsAtRest n → (s.fg n).semsAllow f.wait f.sig →
    s.spoolsAllow n (if f.sm.getLsbD 1 then 1 else 0) f.d 0 →
    let c := s.fg n
    let w := tyWidth f.ty
    let ea : Int := ((s.xr f.a).toNat : Int) + 64 * f.off.toInt
    let act : PReg := if f.pe then c.p f.pg.toNat else BitVec.allOnes 128
    let p := c.spool f.d.toNat
    let src : VReg := if f.sm.getLsbD 1 then BitVec.ofNat 1024 (memNat s.mem (spadKey n p.headAt) 128) else c.v f.d
    let key (a : Int) : Nat := spadKey n a.toNat
    let fits (a : Int) (k : Nat) : Prop := 0 ≤ a ∧ a + k ≤ 0x80000 ∧ c.bankFits (a.toNat / 2 ^ 15) w = true
    let kept (t : State) : Prop := t.pc = s.pc + 8 ∧ c.semsMoved (t.fg n) f.wait f.sig ∧ (∀ r, (t.fg n).v r = c.v r) ∧
      (∀ r, (t.fg n).x r = c.x r) ∧ (∀ r, (t.fg n).p r = c.p r) ∧ s.sameElsewhere t n
    let scatter (i : Instr) (at_ : Nat → Int) : Prop :=
      w ∈ [8, 16, 32, 64] →
      (∀ j, j < 1024 / w → activeEl act w j = true → at_ j % (w / 8 : Nat) = 0 ∧ fits (at_ j) (w / 8)) →
      ∃ t : State, exec i s = .next t ∧ kept t ∧
        (∀ j, j < 1024 / w → activeEl act w j = true →
          (∀ k, j < k → k < 1024 / w → activeEl act w k = true → at_ k ≠ at_ j) →
          memNat t.mem (key (at_ j)) (w / 8) = getEl src w j) ∧
        (∀ b, (∀ j, j < 1024 / w → activeEl act w j = true → ¬(key (at_ j) ≤ b ∧ b < key (at_ j) + w / 8)) →
          memByte t.mem b = memByte s.mem b)
    (w ∈ [4, 8, 16, 32, 64] → ea % 64 = 0 → 0 ≤ ea → ea + 128 ≤ 0x80000 →
      (∀ j, j < 128 → byteActive act w j = true → c.bankFits ((ea.toNat + j) / 2 ^ 15) w = true) →
      ∃ t : State, exec (.vst f) s = .next t ∧ kept t ∧
        (∀ j, j < 128 → byteActive act w j = true → (memByte t.mem (key ea + j)).toNat = getEl src 8 j) ∧
        (∀ b, (∀ j, j < 128 → byteActive act w j = true → b ≠ key ea + j) → memByte t.mem b = memByte s.mem b)) ∧
    scatter (.vsts f) (fun j => ea + j * (s.xr f.b).toInt) ∧
    scatter (.vstx f) (fun j => ea + (getEl (c.v f.b) w j * (w / 8) : Nat))

/-! ## The Mangle -/

/-- Tile instructions at a unit at rest: `MCFG` gives a tile its shape and clears it, `MZERO` clears its region, `MSETR`
and `MSETC` write a row or half a column from a vector, `MGETR` and `MGETC` read one into a vector, `MCOPY` copies or adds
a tile, `MHAD` transforms it, `MLOAD` fills it from the scratchpad; an unconfigured tile and a bad index stop the engine:
R162, R166, R175, R176, R177, R180, R181. -/
def Obligations.TileInstructions : Prop :=
  ∀ (s : State) (n : Nat) (f : FmtM), s.unitsAtRest n → (s.fg n).semsAllow f.wait f.sig →
    (∀ k, tget false (s.fg n).regs.tilePois k = false) →
    let c := s.fg n
    let t := f.t.toNat
    let m := f.aux.toNat % 8
    let ia := (s.xr f.a).toNat
    let ib := (s.xr f.b).toNat
    let moved (u : State) : Prop := u.pc = s.pc + 8 ∧ c.semsMoved (u.fg n) f.wait f.sig ∧ s.sameMemory u ∧
      s.sameElsewhere u n ∧ (∀ r, (u.fg n).x r = c.x r) ∧ (∀ r, (u.fg n).p r = c.p r)
    let writes (i : Instr) (inside : Nat → Nat → Prop) (val : Nat → Nat → Nat) : Prop :=
      ∃ u : State, exec i s = .next u ∧ moved u ∧ (∀ r, (u.fg n).v r = c.v r) ∧
        ∀ k i j, k < 8 → i < 64 → j < 32 →
          (k = t ∧ inside i j → (u.fg n).tileAt k i j = val i j % 2 ^ 32) ∧
          (¬(k = t ∧ inside i j) → (u.fg n).tileAt k i j = c.tileAt k i j)
    let reads (i : Instr) (val : Nat → Nat) : Prop :=
      ∃ u : State, exec i s = .next u ∧ moved u ∧ u.mem = s.mem ∧ (∀ r, r ≠ f.a → (u.fg n).v r = c.v r) ∧
        ∀ j, j < 32 → getEl ((u.fg n).v f.a) 32 j = val j
    let stops (i : Instr) (cause : Nat) : Prop := ∃ u : State, exec i s = .next u ∧ u.pc = s.pc + 8 ∧ u.mem = s.mem ∧
      ((u.fg n).mt).st = .stopped ∧ ((u.fg n).mt).trap = some (BitVec.ofNat 8 cause, encodeWord i) ∧ (u.fg n).regs = c.regs
    (writes (.mcfg f) (fun _ _ => True) (fun _ _ => 0)) ∧
    (∃ u : State, exec (.mcfg f) s = .next u ∧ ∀ k, tget 0 (u.fg n).regs.tcfg k =
      if k = t then (let v := ia % 2 ^ 13; if 1 ≤ v / 64 ∧ v / 64 ≤ 64 ∧ 1 ≤ v % 64 ∧ v % 64 ≤ 32 then wOf v else 0)
      else tget 0 c.regs.tcfg k) ∧
    (c.shape t = none → stops (.mzero f) 0x03 ∧ stops (.mgetr f) 0x03 ∧ stops (.msetr f) 0x03 ∧ stops (.mgetc f) 0x03 ∧
      stops (.msetc f) 0x03 ∧ stops (.mload f) 0x03 ∧ stops (.mhadRow f) 0x03 ∧ stops (.mhadCol f) 0x03 ∧
      stops (.mcopy f) 0x03 ∧ stops (.mcopyAdd f) 0x03 ∧ stops (.mdrain f) 0x03 ∧ stops (.mmaAcc f) 0x03 ∧
      stops (.mmaOvw f) 0x03 ∧ stops (.mmaSacc f) 0x03 ∧ stops (.mmaSovw f) 0x03) ∧
    (∀ rows cols, c.shape t = some (rows, cols) → rows ≤ 64 → cols ≤ 32 →
      let here (i j : Nat) : Prop := i < rows ∧ j < cols
      (writes (.mzero f) here (fun _ _ => 0)) ∧
      (ib < rows → writes (.msetr f) (fun i j => i = ib ∧ j < cols) (fun _ j => getEl (c.v f.a) 32 j) ∧
        reads (.mgetr f) (fun j => if j < cols then c.tileAt t ib j else 0)) ∧
      (rows ≤ ib → stops (.msetr f) 0x0E ∧ stops (.mgetr f) 0x0E) ∧
      (ib < cols → let h := 32 * (f.aux.toNat % 2)
        writes (.msetc f) (fun i j => j = ib ∧ h ≤ i ∧ i < h + 32 ∧ i < rows) (fun i _ => getEl (c.v f.a) 32 (i - h)) ∧
        reads (.mgetc f) (fun r => if h + r < rows then c.tileAt t (h + r) ib else 0)) ∧
      (cols ≤ ib → stops (.msetc f) 0x0E ∧ stops (.mgetc f) 0x0E) ∧
      (c.shape m = some (rows, cols) → writes (.mcopy f) here (fun i j => c.tileAt m i j) ∧
        writes (.mcopyAdd f) here (fun i j => rneBits (add' (dec f32 (c.tileAt t i j)) (dec f32 (c.tileAt m i j))))) ∧
      (let o := 16 * 2 ^ (f.aux.toNat % 4)
       (cols % o = 0 → writes (.mhadRow f) here
         (fun i j => hpassAt ((List.range o).map (fun k => dec f32 (c.tileAt t i (j / o * o + k)))) o (j % o))) ∧
       (rows % o = 0 → writes (.mhadCol f) here
         (fun i j => hpassAt ((List.range o).map (fun k => dec f32 (c.tileAt t (i / o * o + k) j))) o (i % o)))) ∧
      (let wb := tyWidth f.fa / 8
       ia % 4 = 0 → ib % 4 = 0 → ia + (rows - 1) * ib + cols * wb ≤ 0x80000 →
       (∀ k, k < 16 → (c.bfmt k).toNat % 32 = f.fa.toNat) → (∀ i, i < rows → s.spadPoison n (ia + i * ib) (cols * wb) = false) →
       writes (.mload f) here (fun i j =>
         let e := memNat s.mem (spadKey n (ia + i * ib + j * wb)) wb
         if f.fa = 0 then e else (enc f32 (dec (fmtOf f.fa.toNat) e) 0 false {}).1)))

/-- Matrix multiply at a unit at rest: where its operands, formats and binding pass the checks, each element of the
tile's region becomes the rounded sum of its blocks, from its old value or from +0, and nothing outside the tile
changes; bad operands stop the engine with cause 0x0E; `MCBLD` loads a codebook, `MBIND` binds a pair of 4-bit formats,
and a plain FP32 `MDRAIN` writes each row's bytes to the scratchpad: R70, R166, R170, R171, R178, R179, R182, R183, R184. -/
def Obligations.MatrixInstructions : Prop :=
  ∀ (s : State) (n : Nat) (f : FmtM), s.unitsAtRest n → (s.fg n).semsAllow f.wait f.sig →
    (∀ k, tget false (s.fg n).regs.tilePois k = false) →
    let c := s.fg n
    let t := f.t.toNat
    let o := mmaOp f (s.xr f.a) (s.xr f.b)
    let ia := (s.xr f.a).toNat
    let moved (u : State) : Prop := u.pc = s.pc + 8 ∧ c.semsMoved (u.fg n) f.wait f.sig ∧ s.sameElsewhere u n ∧
      (∀ r, (u.fg n).x r = c.x r) ∧ (∀ r, (u.fg n).p r = c.p r) ∧ (∀ r, (u.fg n).v r = c.v r)
    let bad := c.mmaBad o = true ∨ c.unbound o = true
    let stops (i : Instr) : Prop := ∃ u : State, exec i s = .next u ∧ u.pc = s.pc + 8 ∧ (u.fg n).mt.st = .stopped ∧
      (u.fg n).mt.trap = some (0x0E, encodeWord i) ∧ (u.fg n).regs = c.regs
    (∀ rows cols, c.shape t = some (rows, cols) → rows ≤ 64 → cols ≤ 32 →
      let multiplies (i : Instr) (start : Nat → Nat → Val) : Prop :=
        ∃ u : State, exec i s = .next u ∧ moved u ∧ s.sameMemory u ∧
          ∀ k i j, k < 8 → i < 64 → j < 32 → (u.fg n).tileAt k i j =
            if k = t ∧ i < rows ∧ j < cols then s.mmaEl n o (start i j) i j % 2 ^ 32 else c.tileAt k i j
      (bad → stops (.mmaAcc f) ∧ stops (.mmaOvw f) ∧ stops (.mmaSacc f) ∧ stops (.mmaSovw f)) ∧
      (¬bad → multiplies (.mmaAcc f) (fun i j => dec f32 (c.tileAt t i j)) ∧
        multiplies (.mmaSacc f) (fun i j => dec f32 (c.tileAt t i j)) ∧
        multiplies (.mmaOvw f) (fun _ _ => .fin false 0 0 false) ∧
        multiplies (.mmaSovw f) (fun _ _ => .fin false 0 0 false)) ∧
      (let st := (s.xr f.b).toNat
       f.fa = 0 → (∀ k, k < 16 → c.bfmt k = 0) → ia < 0x80000 → ia % 4 = 0 → st % 4 = 0 → 4 * cols ≤ st → 1 ≤ rows →
       ia + (rows - 1) * st + 4 * cols ≤ 0x80000 →
       ∃ u : State, exec (.mdrain f) s = .next u ∧ moved u ∧
         (∀ i j, i < rows → j < cols → memNat u.mem (spadKey n (ia + i * st + 4 * j)) 4 = c.tileAt t i j) ∧
         (∀ b, (∀ i, i < rows → ¬(spadKey n (ia + i * st) ≤ b ∧ b < spadKey n (ia + i * st) + 4 * cols)) →
           memByte u.mem b = memByte s.mem b))) ∧
    (o.nb = 1 → ∀ acc i j, s.mmaEl n o acc i j =
      (let rd := s.spadNum n
       let b := c.regs.bind.getD (0, 0, 0, 0)
       let four := decide (o.fa = 7 ∨ o.fa = 8)
       let ps := (List.range (min 32 o.k)).map (fun k => prodOf four
         (mxElem o.fa (c.codebook b.2.1) (aCode rd o i k)) (mxElem o.fb (c.codebook b.2.2.2) (bCode rd o j k)))
       rneBits (rneVal (add' acc (rneVal (mul' (bsum ps) (mul' (scaleA rd o i 0) (scaleB rd o j 0)))))))) ∧
    (ia % 32 = 0 → ia < 0x80000 → s.spadPoison n ia 32 = false → ∃ u : State, exec (.mcbld f) s = .next u ∧ moved u ∧ s.sameMemory u ∧
      ∀ k j, k < 16 → j < 16 → ((u.fg n).codebook k).getD j 0 =
        if k = f.aux.toNat then memNat s.mem (spadKey n (ia + 2 * j)) 2 else (c.codebook k).getD j 0) ∧
    (∃ u : State, exec (.mbind f) s = .next u ∧ moved u ∧ s.sameMemory u ∧ (u.fg n).regs.bind =
      some (f.fa.toNat, if f.fa = 8 then ia % 16 else 0, f.fb.toNat, if f.fb = 8 then ia / 16 % 16 else 0))


/-! ## Copy packets -/

/-- A copy packet of any op is forwarded whole, in 4 cycles, into the queue of CE0, of CE1, or of the one of the two not
in ring mode with more free entries; a packet for an engine in ring mode traps with 0x0E and the engine's unit, and one
that meets a full queue is held.  `WORD_FORWARD` does the same for a word of each engine's class: R93, R95, R282, R283, R284. -/
def Obligations.CopyPacketsAreForwarded : Prop :=
  ∀ (s : State) (n : Nat), s.cur = .core n → (s.fg n).hact = false →
    let c := s.fg n
    let picked (g : BitVec 2) (e : Eng) : Prop := (g = 1 ∧ e = .ce0) ∨ (g = 2 ∧ e = .ce1) ∨
      (g = 0 ∧ e = if c.ce1.inRing then .ce0 else if c.ce0.inRing then .ce1
        else if c.ce0.q.length ≤ c.ce1.q.length then .ce0 else .ce1)
    let takes (e : Eng) : Prop := (c.eng e).inRing = false ∧ (c.eng e).q.length < 16
    (∀ (p : Packet) (mk : Packet → Instr),
      mk ∈ [.copy, .tcopyRd, .tcopyWr, .im2colw, .fill, .accw, .fop, .cas, .redcopy, .mcast, .amcast, .spfill, .spdrain,
        .qappend, .sigrem] →
      (∀ e, picked p.cmd.eng e → takes e → (s.lockstep = false ∨ c.freeNow e = false) →
        ∃ q : QEntry, exec (mk p) s = .next ((s.push n e q).retire 64 4) ∧ q.word = encodeWord (mk p) ∧
          q.rest = encodeRest (mk p) ∧ q.dl = c.edl e ∧ q.ord = c.ord ∧ q.started = false ∧ q.piece = 0 ∧ q.wt0 = none) ∧
      (∀ e, e = .ce0 ∨ e = .ce1 → picked p.cmd.eng e → (p.cmd.eng = 0 → c.ce0.inRing = true) → (c.eng e).inRing = true →
        exec (mk p) s = .next ((s.takeTrap n 0x0E (engUnit e) c.pc (encodeWord (mk p))).tick 1)) ∧
      (∀ e, picked p.cmd.eng e → p.cmd.eng ≠ 0 → (c.eng e).st = .running → 16 ≤ (c.eng e).q.length →
        ∃ q : QEntry, exec (mk p) s = .next (s.holdAt n e false q 64) ∧ q.word = encodeWord (mk p))) ∧
    (∀ (w : Word) (rest : BitVec 448) (i : Instr) (e : Eng), decode64 w rest = some i →
      ((getClass w = 1 ∧ e = .vx) ∨ (getClass w = 2 ∧ e = .mt) ∨ (getClass w = 3 ∧ picked (getC w).eng e)) → takes e →
      ∃ q : QEntry, exec (.wordForward w rest) s =
          .next ((s.push n e q).retire (if getClass w = 3 then 64 else 8) (if getClass w = 3 then 4 else 1)) ∧
        q.word = w ∧ (getClass w = 3 → q.rest = rest) ∧ (q.xa, q.xb, q.xc) = c.scalars i w ∧ q.vfm = c.csr.vfmode ∧
        q.dl = c.edl e ∧ q.ord = c.ord ∧ q.started = false)

/-- The head of a copy engine, beside its sequencer: an entry whose checks pass and whose `wait` is met starts; a started
`COPY` of raw bytes or `FILL` within the scratchpad moves one piece, an aligned unit of 64 bytes at the destination,
and nothing else in memory changes; after its last piece it has nothing left to issue: R287, R314, R315, R327. -/
def Obligations.CopyPiecesMoveTheirBytes : Prop :=
  ∀ (s : State) (n : Nat) (e : Eng) (h : QEntry) (r : List QEntry), n < 4096 → e = .ce0 ∨ e = .ce1 → s.lockstep = false →
    (s.core n).busy = true → (s.fg n).stop = none → (s.core n).stepping = none → (s.fg n).hact = false →
    ((s.fg n).eng e).st = .running → ((s.fg n).eng e).q = h :: r → h.fullAt = none →
    let c := s.fg n
    let run (u : State) (h' : QEntry) : Prop := exec (.engineEntryStart n e) s = .next u ∧
      ((u.fg n).eng e).q = h' :: r ∧ ((u.fg n).eng e).st = .running ∧ (u.fg n).regs = c.regs ∧ h'.word = h.word ∧ h'.started = true
    (∀ i p, i = .copy p ∨ i = .fill p → h.instr = some i → h.started = false → c.regs.pois = [] →
      h.expired (s.jtime c.ident.job) = false →
      s.startBad (s.cxOf n e h.ord) i h.word = none → c.semReady (wfld h.word 63 56) = true →
      ∃ (u : State) (h' : QEntry), run u h' ∧ h'.piece = h.piece ∧ u.mem = s.mem ∧ ((u.fg n).eng e).seq = (c.eng e).seq + 1 ∧
        (∀ k, ((u.fg n).semOf k).toNat + (if k = wfld h.word 63 56 ∧ k ≠ 0 then 1 else 0) = (c.semOf k).toNat)) ∧
    (∀ p, h.instr = some (.copy p) → h.started = true → h.fin = false → p.cmd.fl.getLsbD 0 = true →
      let k := Packet.par' p 24 4
      let d := p.dst.toNat
      let f := p.src.toNat
      let u0 := unitOf d k h.piece
      d + k ≤ 0x80000 → f + k ≤ 0x80000 → h.piece < unitCount d k → s.leasedAt n (f + u0.1) u0.2 = none →
      s.spadPoison n (f + u0.1) u0.2 = false →
      ∃ (u : State) (h' : QEntry), run u h' ∧ h'.piece = h.piece + 1 ∧ h'.res = h.res + wOf u0.2 ∧
        memRead u.mem (spadKey n (d + u0.1)) u0.2 = memRead s.mem (spadKey n (f + u0.1)) u0.2 ∧
        s.sameMemoryOutside u (spadKey n (d + u0.1)) u0.2) ∧
    (∀ p, h.instr = some (.fill p) → h.started = true → h.fin = false →
      let k := Packet.par' p 24 4
      let d := p.dst.toNat
      let w := 2 ^ (p.cmd.fl.toNat % 4)
      let u0 := unitOf d k h.piece
      d + k ≤ 0x80000 → h.piece < unitCount d k →
      ∃ (u : State) (h' : QEntry), run u h' ∧ h'.piece = h.piece + 1 ∧ h'.res = h.res + wOf u0.2 ∧
        (∀ b, b < u0.2 → memByte u.mem (spadKey n (d + u0.1 + b)) =
          BitVec.ofNat 8 (Packet.par' p 32 8 / 2 ^ (8 * ((d + u0.1 + b) % w)))) ∧
        s.sameMemoryOutside u (spadKey n (d + u0.1)) u0.2) ∧
    (∀ i, h.instr = some i → h.started = true → h.fin = false →
      (∀ p, i = .copy p → unitCount p.dst.toNat (Packet.par' p 24 4) ≤ h.piece ∧ p.cmd.fl.getLsbD 0 = true) →
      (∀ p, i = .fill p → unitCount p.dst.toNat (Packet.par' p 24 4) ≤ h.piece) →
      ((∃ p, i = .copy p) ∨ (∃ p, i = .fill p)) → ∃ (u : State) (h' : QEntry), run u h' ∧ h'.fin = true ∧ h'.piece = h.piece ∧ u.mem = s.mem)

/-- The events of packets in progress: completion writes the record, pops the head and signals; a signal from another
package and a multicast tile meet their semaphores; an append takes a slot of its queue; a refused receiver is tried
again; a wait past D ends; a passed promise and a full store queue raise their traps: R290, R313, R316, R322, R323,
R324, R325, R327, R329. -/
def Obligations.PacketEventsComplete : Prop :=
  ∀ (s : State) (n : Nat) (ce1 : Bool) (h : QEntry) (r : List QEntry) (p : Packet), (s.fg n).stop = none →
    (s.fg n).hact = false →
    let e : Eng := if ce1 then .ce1 else .ce0
    let c := s.fg n
    let g := c.eng e
    (∀ i, i = .copy p ∨ i = .fill p → g.q = h :: r → g.st = .running → g.r = false → h.instr = some i → h.started = true →
      h.fin = true → h.outst = 0 → h.mask = 0 → h.code ≠ 7 → p.cmd.dc = false →
      (p.cmd.sig = 0 ∨ (c.semOf p.cmd.sig.toNat).toNat < 65535) → p.rcd.toNat + 32 ≤ 0x80000 →
      ∃ u : State, exec (.copyPacketCompletion (.core n ce1)) s = .next u ∧ ((u.fg n).eng e).q = r ∧
        ((u.fg n).eng e).st = (if r = [] ∧ g.run = [] ∧ c.awaits e = false then .idle else .running) ∧
        (u.fg n).regs.x = c.regs.x ∧
        (∀ k, ((u.fg n).semOf k).toNat = (c.semOf k).toNat + (if k = p.cmd.sig.toNat ∧ k ≠ 0 then 1 else 0)) ∧
        (p.cmd.cr = false → u.mem = s.mem) ∧
        (p.cmd.cr = true → s.sameMemoryOutside u (spadKey n p.rcd.toNat) 32 ∧
          memNat u.mem (spadKey n p.rcd.toNat) 8 = h.code % 16 + h.det.toNat % 2 ^ 48 * 2 ^ 16 ∧
          memNat u.mem (spadKey n (p.rcd.toNat + 8)) 8 = h.res.toNat ∧
          memNat u.mem (spadKey n (p.rcd.toNat + 16)) 8 = (s.jtime c.ident.job).toNat ∧
          memNat u.mem (spadKey n (p.rcd.toNat + 24)) 8 = h.flg.toNat)) ∧
    (∀ sem amt x rest, takeSig n sem amt s.sch.sigIn [] = some (x, rest) →
      let s1 : State := { s with sch := { s.sch with sigIn := rest } }
      (sem = 0 ∨ amt = 0 → exec (.remoteSignalArrival n sem amt) s = .next ((s1.modFg n (fun c => c)).answerSig x 0 0)) ∧
      (sem ≠ 0 → amt ≠ 0 → (c.semOf sem).toNat + amt ≤ 65535 → exec (.remoteSignalArrival n sem amt) s =
        .next ((s1.modFg n (fun c => c.setSem sem (BitVec.ofNat 16 ((c.semOf sem).toNat + amt)))).answerSig x 0 0)) ∧
      (sem ≠ 0 → 65535 < (c.semOf sem).toNat + amt → exec (.remoteSignalArrival n sem amt) s = .next (s1.answerSig x 4 0))) ∧
    (∀ (t : Tile) (ts : List Tile), (s.core n).tiles = t :: ts → t.off + t.data.length ≤ 0x80000 →
      (t.asem = 0 ∨ t.asem = t.rsem ∨ (c.semOf t.asem).toNat < 65535) →
      (t.rsem = 0 ∨ 1 ≤ (c.semOf t.rsem).toNat → ∃ u : State, exec (.multicastTileArrival n) s = .next u ∧ (u.core n).tiles = ts ∧
        memRead u.mem (spadKey n t.off) t.data.length = t.data ∧ s.sameMemoryOutside u (spadKey n t.off) t.data.length ∧
        (∀ k, ((u.fg n).semOf k).toNat + (if k = t.rsem ∧ k ≠ 0 then 1 else 0) =
          (c.semOf k).toNat + (if k = t.asem ∧ k ≠ 0 then 1 else 0))) ∧
      (t.rsem ≠ 0 → c.semOf t.rsem = 0 → ∃ u : State, exec (.multicastTileArrival n) s = .next u ∧ (u.core n).tiles = ts ∧
        u.mem = s.mem ∧ (u.fg n).sem = c.sem)) ∧
    (g.q = h :: r → g.st = .running → h.instr = some (.qappend p) → h.started = true → h.fin = false → h.piece = 0 →
      h.code = 0 → h.fullAt = none → p.src.toNat + 64 ≤ 0x80000 → p.dst.toNat < 0x80000 → p.dst.toNat % 64 = 0 →
      s.leasedAt n p.src.toNat 64 = none → s.spadPoison n p.src.toNat 64 = false →
      s.leasedAt n p.dst.toNat 64 = none → s.spadPoison n p.dst.toNat 64 = false →
      let d := p.dst.toNat
      let q := s.qhdr n d
      let went (u : State) (h' : QEntry) : Prop := exec (.qappendAtTarget (.core n ce1)) s = .next u ∧
        ((u.fg n).eng e).q = h' :: r ∧ h'.piece = 1
      (q.ok = true → (q.wix + 2 ^ 64 - q.rix) % 2 ^ 64 < 2 ^ q.lgn → q.wb = 0 → q.cmt = q.wix → q.sem ≠ 0 →
        (c.semOf q.sem).toNat < 65535 → ∃ (u : State) (h' : QEntry), went u h' ∧ h'.res = wOf q.wix ∧
          memRead u.mem (spadKey n (q.base + 64 * (q.wix % 2 ^ q.lgn))) 64 = memRead s.mem (spadKey n p.src.toNat) 64 ∧
          memNat u.mem (spadKey n (d + 8)) 8 = (q.wix + 1) % 2 ^ 64 ∧
          memNat u.mem (spadKey n (d + 16)) 8 = (q.wix + 1) % 2 ^ 64 ∧ (u.fg n).semOf q.sem = c.semOf q.sem + 1) ∧
      (q.ok = false ∨ (2 ^ q.lgn ≤ (q.wix + 2 ^ 64 - q.rix) % 2 ^ 64 ∧ p.cmd.fl.getLsbD 0 = false) →
        ∃ (u : State) (h' : QEntry), went u h' ∧ h'.code = 4 ∧ h'.fin = true ∧ u.mem = s.mem)) ∧
    (∀ k x, s.hcopy k = some x → x.entry.instr = some (.amcast p) → x.entry.mask ≠ 0 →
      (x.entry.fin = true → x.entry.outst = 0 → x.entry.sub + 64 ≤ s.now →
        let got := s.readVa x.cx.who (p.src.toNat : Int) (Packet.par' p 24 4)
        let rs := (x.cx.receivers p true).filter (fun y => x.entry.mask.testBit y.1)
        exec (.amcastRetry k) s = .next ((got.2.sendTiles x.cx p x.entry.ord got.1.bytes got.1.pois rs).setHcopy
          { x with entry := { x.entry with outst := rs.length, sub := s.now } })) ∧
      (x.d.toNat < (if x.job = 0 then s.ccyc else s.jtime x.job).toNat →
        exec (.spoolOrAmcastWaitPassesD (.hamper k)) s = .next (s.hcopyEnd
          { x with entry := { x.entry.note 4 (wOf x.entry.mask) with fin := true, outst := 0 } }))) ∧
    (g.q = h :: r → g.st = .running → h.instr = some (.spdrain p) → h.started = true → h.fin = false → h.code = 0 →
      h.piece < Packet.par' p 24 4 → h.claim = none → (c.spool (p.src.toNat % 16)).cfg = true →
      ((c.spool (p.src.toNat % 16)).seen s.spoolCycle).cnt = 0 →
      (∀ t0, h.wt0 = some t0 → (deadlineAt t0 h.dl).toNat < (s.jtime c.ident.job).toNat →
        ∃ (u : State) (h' : QEntry), exec (.spoolOrAmcastWaitPassesD (.core n ce1)) s = .next u ∧ ((u.fg n).eng e).q = h' :: r ∧ h'.code = 1 ∧
          h'.fin = true ∧ u.mem = s.mem ∧ (u.fg n).sl = c.sl)) ∧
    (g.q = h :: r → g.missed = none → h.missed = false → h.promise ≠ 0 → h.promise.toNat < (s.jtime c.ident.job).toNat →
      exec (.missedPromise n ce1) s =
        .next (s.setFg n (c.setEng e { g with q := { h with missed := true } :: r, missed := some h.promise }))) ∧
    (∀ w, g.q = h :: r → g.st = .running → h.started = true → h.fin = false → h.fullAt = some w →
      (w.1.toNat + wfld c.csr.sdl 39 0 ≤ (s.jtime c.ident.job).toNat → exec (.storeBackpressure n ce1) s =
        .next ((s.modFg n (fun c => c.setEng e { c.eng e with q := { h with fullAt := none } :: r })).stopFault n e 0x05 w.2)) ∧
      ((s.jtime c.ident.job).toNat < w.1.toNat + wfld c.csr.sdl 39 0 → exec (.storeBackpressure n ce1) s = .next s))

/-! ## Events of engines, waits and the paths of a core -/

/-- A held word goes into its queue once there is room, or traps with 0x06 once D has passed or its engine has stopped;
a head that waits past D stops its engine with code 1; a ready command lands its result and signals; an engine's trap is
taken with the unit's number; a waiting instruction completes when its test holds by D, and with TIMEOUT after: R37, R81,
R283, R288, R377, R379, R382. -/
def Obligations.EngineEventsComplete : Prop :=
  ∀ (s : State) (n : Nat), (s.fg n).stop = none →
    let c := s.fg n
    (∀ h : Hold, c.hold = some h → h.any = false → h.len = 8 → c.hact = false →
      ((c.eng h.eng).q.length < 16 → exec (.forwardHoldRelease n) s =
        .next (((s.push n h.eng { h.entry with dl := c.edl h.eng }).modFg n
          (fun c => { c with hold := none, pc := h.pc + 8 })).tick 1)) ∧
      (16 ≤ (c.eng h.eng).q.length → h.d.toNat < (s.jtime c.ident.job).toNat ∨ (c.eng h.eng).st = .stopped →
        exec (.forwardHoldTimeout n) s = .next (s.takeTrap n 0x06 0 h.pc c.holdReport)) ∧
      (16 ≤ (c.eng h.eng).q.length → exec (.forwardHoldRelease n) s = .next s)) ∧
    (∀ (e : Eng) (q : QEntry) (r : List QEntry) (t0 : Word), c.hact = false → (c.eng e).st ≠ .stopped →
      (c.eng e).q = q :: r → q.wt0 = some t0 → q.started = false →
      ((deadlineAt t0 q.dl).toNat < (s.jtime c.ident.job).toNat → exec (.engineWaitTimeout n e) s =
        .next (s.modFg n (fun c => c.setEng e { c.eng e with st := .stopped, code := 1, cause := 0, ev := true, trap := none }))) ∧
      ((s.jtime c.ident.job).toNat ≤ (deadlineAt t0 q.dl).toNat → exec (.engineWaitTimeout n e) s = .next s)) ∧
    (∀ (e : Eng) (p : Pending), p.ready ≤ s.dcyc c → p.kind = 1 → p.spool = none → p.dst < 32 →
      (p.sig = 0 ∨ (c.semOf p.sig.toNat).toNat < 65535) →
      let lands (u : State) : Prop := u.mem = s.mem ∧ (u.fg n).pc = c.pc ∧
        (∀ r, (u.fg n).v r = if r.toNat = p.dst then p.val else c.v r) ∧ (∀ r, (u.fg n).x r = c.x r) ∧
        (∀ k, ((u.fg n).semOf k).toNat = (c.semOf k).toNat + (if k = p.sig.toNat ∧ k ≠ 0 then 1 else 0))
      ((c.eng e).run = [p] → ∃ u : State, exec (.engineCommandComplete n e) s = .next u ∧ lands u ∧ ((u.fg n).eng e).run = [] ∧
        ((c.eng e).st = .running → (c.eng e).q = [] → c.awaits e = false → ((u.fg n).eng e).st = .idle)) ∧
      (c.inflight = [p] → c.regs.pois.contains (5, p.ord) = false → ∃ u : State, exec (.inFlightReinject n) s = .next u ∧ lands u ∧ (u.fg n).inflight = [])) ∧
    (∀ (e : Eng) (cause : Byte) (v : Word), (s.core n).busy = true → (s.core n).stepping = none → c.atBoundary = true →
      c.late = [] → (c.eng e).trap = some (cause, v) → (∀ e', engNum e' < engNum e → (c.eng e').pending = none) →
      exec (.trapTake n) s = .next ((s.modFg n (fun c => c.setEng e { c.eng e with trap := none })).takeTrap n cause.toNat
        (engUnit e) c.pc v)) ∧
    (∀ (w : Wait) (f : FmtD), c.wait = some w → w.instr = .semwait f → w.fresh = false → c.vreads = [] →
      (s.core n).busy = true → f.x = false → c.csr.dlesc = 0 → c.bearsBefore c.ord = false → c.dlWait = [] →
      let k := f.aux.toNat + f.b.toNat % 4 * 64
      let ends (u : State) (code : Word) : Prop := (u.fg n).wait = none ∧ (u.fg n).pc = w.pc + 8 ∧ u.mem = s.mem ∧
        u.cur = s.cur ∧ (f.st ≠ 0 → (u.fg n).x f.st = code)
      k ≠ 0 →
      ((s.jtime c.ident.job).toNat ≤ w.d.toNat → 1 ≤ (c.semOf k).toNat →
        ∃ u : State, exec (.waitConditionMet (.core n)) s = .next u ∧ ends u 0 ∧ (u.fg n).semOf k = c.semOf k - 1 ∧
          (f.d ≠ 0 → f.d ≠ f.st → ((u.fg n).x f.d).toNat = (c.semOf k).toNat - 1)) ∧
      (w.d.toNat < (s.jtime c.ident.job).toNat →
        ∃ u : State, exec (.deadlineExpiry (.core n)) s = .next u ∧ ends u 1 ∧ (u.fg n).sem = c.sem))

/-- The paths between a core and memory: an instruction at a mapped address is fetched into the instruction cache, one
that the cache holds stays there, and one outside the paged region traps with 0x08; a posted write is performed or
refused at its target, and its acknowledgement counts its window down; `VTRD` checks its block, asks for its box, and
lands the reply: R17, R78, R226, R227, R253, R254, R256. -/
def Obligations.CorePathsComplete : Prop :=
  ∀ (s : State) (n : Nat),
    let c := s.fg n
    let k := s.core n
    (s.cur = .core n → c.pc.toNat < 0x40000000 ∨ 2 ^ 48 ≤ c.pc.toNat →
      exec .instructionFetch s = .next ((s.takeTrap n 0x08 0 c.pc c.pc).tick 1)) ∧
    (∀ (t : Tlb) (r : List Tlb), s.cur = .core n → k.utlb = t :: r →
      t.asid = s.asidOf c.ident.job → 0x40000000 ≤ c.pc.toNat → t.va ≤ c.pc.toNat →
      c.pc.toNat + 64 ≤ t.va + t.size → c.pc.toNat + 64 ≤ 2 ^ 48 →
      (∀ bs, s.fetched n = some bs → ∃ u : State, exec .instructionFetch s = .next u ∧ u.fetched n = some bs ∧ u.fg n = c ∧
        (u.core n).icache = k.icache ∧ u.mem = s.mem ∧ u.now = s.now) ∧
      (∀ a : Nat, k.icache = [] → t.pte.getLsbD 4 = true →
        ptePa t.pte + (c.pc.toNat - t.va) = s.pkgid * 2 ^ 45 + a → a + 64 ≤ 2 ^ 40 →
        (∀ j, j < 64 → s.allows 0 ((a + j) / 2 ^ 36) (midCore n) .r = true) →
        (∀ b, poisonedByte s.poison b = false) →
        ∃ (u : State) (bs : List Byte), exec .instructionFetch s = .next u ∧ u.fetched n = some bs ∧ bs = s.bytes a bs.length ∧
          2 ≤ bs.length ∧ u.fg n = c ∧ u.mem = s.mem ∧ u.now = s.now) ∧
      (t.pte.getLsbD 4 = false → exec .instructionFetch s =
        .next (({ s with ctlb := (s.keepTlb n t).ctlb }.setCore n k).takeTrap n 0x08 0 c.pc c.pc |>.tick 1))) ∧
    (∀ (p : Posted) (off : Nat) (bs : List Byte), k.posted = [p] → p.pkg = s.pkgid → p.data = cellsAt off bs →
      off + bs.length ≤ 2 ^ 19 → c.vreads = [] → p.own = c.key → p.win ≠ 255 →
      (s.allows 1 (p.tgt / 256) (midCore n) .w = true → (∀ b, poisonedByte s.poison b = false) →
        ∃ u : State, exec (.postedWritePerformed n) s = .next u ∧ (u.core n).posted = [] ∧
          (u.core n).acks = k.acks ++ [⟨p.win, p.own, p.ring⟩] ∧
          memRead u.mem (spadKey p.tgt off) bs.length = bs ∧ s.sameMemoryOutside u (spadKey p.tgt off) bs.length ∧
          (u.fg n).winFail = c.winFail) ∧
      (s.allows 1 (p.tgt / 256) (midCore n) .w = false →
        ∃ u : State, exec (.postedWritePerformed n) s = .next u ∧ (u.core n).posted = [] ∧
          (u.core n).acks = k.acks ++ [⟨p.win, p.own, p.ring⟩] ∧
          u.mem = s.mem ∧ tget 0 (u.fg n).winFail p.win = 0x09)) ∧
    (∀ (w : Nat) (a : PostAck), k.acks.find? (fun a => decide (a.win = w)) = some a → a.own = c.key → w ≠ 255 →
      ∃ u : State, exec (.postedWriteAck n w) s = .next u ∧ (u.core n).acks = k.acks.erase a ∧
        tget 0 (u.fg n).winCnt w = tget 0 c.winCnt w - 1 ∧ u.mem = s.mem) ∧
    (∀ f : FmtD, s.unitsAtRest n → c.stop = none → c.semsAllow f.wait f.sig →
      let a := (s.xr f.a).toNat
      let blk := s.spadRead n a 32
      let h := s.hEntry c.ident.job (u32 blk 0)
      let wd := packWidth (hFmt h.1)
      let size := u16 blk 24 * u16 blk 26 * wd
      let conv := u16 blk 28 % 256
      let ends (code detail : Nat) : Prop := ∃ u : State, exec (.vtrd f) s = .next u ∧ u.pc = s.pc + 8 ∧ u.mem = s.mem ∧
        (u.fg n).vreads = [] ∧ (∀ r, (u.fg n).v r = c.v r) ∧ c.semsMoved (u.fg n) f.wait f.sig ∧
        (f.st ≠ 0 → u.xr f.st = wOf (code + detail * 2 ^ 16))
      (a % 32 ≠ 0 → ∃ u : State, exec (.vtrd f) s = .next u ∧ u.pc = s.pc + 8 ∧ u.mem = s.mem ∧ (u.fg n).vx.st = .stopped ∧
        (u.fg n).vx.trap = some (0x0F, s.xr f.a)) ∧
      (a % 32 = 0 → a < 2 ^ 19 → s.leasedAt n a 32 = none → s.spadPoison n a 32 = false →
        (leNat (blk.drop 29) = 0 → conv < 2 → hFresh h.1 (u32 blk 0) = false → ends 8 0) ∧
        (leNat (blk.drop 29) ≠ 0 ∨ 2 ≤ conv → ends 7 0x0E) ∧
        (leNat (blk.drop 29) = 0 → conv = 0 → hFresh h.1 (u32 blk 0) = true → 1 ≤ size → size ≤ 1024 → wd ≠ 6 →
          (h.2.boxRead { core := some n, slot := c.ident.job, mid := midFolder 0 } h.1 (origins blk 4) (vtrdBox blk) 0).1.fault
            = none →
          ∃ (u : State) (v : VRead), exec (.vtrd f) s = .next u ∧ u.pc = s.pc + 8 ∧ u.mem = s.mem ∧ (u.fg n).vreads = [v] ∧
            v.instr = .vtrd f ∧ v.blk = blk ∧ v.hent = h.1 ∧ v.ans = none ∧
            v.d = deadlineAt (s.jtime c.ident.job) (s.xr f.dl)))) ∧
    (∀ (v : VRead) (f : FmtD) (bs : List Byte), c.vreads = [v] → v.instr = .vtrd f → v.id ≠ 0 → v.ans = none →
      v.entry.flg = 0 → v.entry.piece = s.pkgid → (∀ r, tget 0 c.xord r ≤ v.entry.ord) → c.stop = none →
      k.vBefore v = false → (s.jtime c.ident.job).toNat ≤ v.d.toNat → (s.vreadAnswer n v).1 = .data bs →
      (s.lockstep = true → ∃ u : State, exec (.readReplyArrival n v.id none) s = .next u ∧ (u.fg n).vreads = [] ∧
        (u.fg n).v f.d = BitVec.ofNat 1024 (leNat bs) ∧ (f.st ≠ 0 → (u.fg n).x f.st = 0)) ∧
      (s.lockstep = false → ∃ (u : State) (v' : VRead), exec (.readReplyArrival n v.id none) s = .next u ∧
        (u.fg n).vreads = [v'] ∧ v'.id = v.id ∧ v'.ans = some (.data bs) ∧ 2 ≤ v'.rdy))

/-! ## Scheduling -/

/-- The scheduler's events: a launch is divided over its clusters, a leaf controller takes one, a dry die steals the
upper half of a range, a ready task starts on its core with the state of R195, a finished cluster reports, a dependence
counter falls; a domain is declared or withdrawn, its swallow rate changes without a jump of `dcyc`, and a ramp window
ends: R195, R203, R363, R364, R365, R368, R369, R372, R373, R481. -/
def Obligations.SchedulingEventsComplete : Prop :=
  ∀ (s : State) (job num : Nat) (l : Launch), s.launch job num = some l →
    let count := l.desc.count
    (∀ r, s.sch.globQ = (job, num) :: r → l.desc.timed = false → l.desc.span = 4 ∨ l.desc.span = 5 →
      l.ranges = [] → l.assigned = [] →
      ∃ (u : State) (l' : Launch), exec .launchDivide s = .next u ∧ u.sch.globQ = r ∧ u.launch job num = some l' ∧ l'.desc = l.desc ∧ u.mem = s.mem ∧
        (l.desc.span = 4 → l'.ranges = [⟨2 * l.grp, 0, (count + 1) / 2, l.rdy⟩,
            ⟨2 * l.grp + 1, (count + 1) / 2, count / 2, l.rdy⟩].filter (fun r => decide (r.n ≠ 0)) ∧
          tget 0 l'.assigned (2 * l.grp) = (count + 1) / 2 ∧ tget 0 l'.assigned (2 * l.grp + 1) = count / 2) ∧
        (l.desc.span = 5 → ∀ d, d < 8 →
          let z := count / 8 + (if d < count % 8 then 1 else 0)
          tget 0 l'.assigned (2 * d) = (z + 1) / 2 ∧ tget 0 l'.assigned (2 * d + 1) = z / 2)) ∧
    (∀ cl r, s.leafQ cl = (job, num) :: r → l.desc.timed = false → count ≠ 0 →
      ∃ (u : State) (l' : Launch), exec (.leafLaunchTake cl) s = .next u ∧ u.leafQ cl = r ∧ u.launch job num = some l' ∧
        l'.ranges = l.ranges ++ [⟨cl, 0, count, l.rdy⟩] ∧ tget 0 l'.assigned cl = tget 0 l.assigned cl + count) ∧
    (∀ die v, l.desc.span = 5 → l.desc.timed = false → die < 8 → l.unplaced die = 0 → s.rs job = 0 →
      l.largest l.busiest = some v → 2 ≤ v.n → ∃ (u : State) (l' : Launch), exec (.steal die job num) s = .next u ∧
        u.launch job num = some l' ∧ l'.ranges = l.ranges.map (fun (r : Range) => if r = v then { r with n := r.n - v.n / 2 } else r) ++
          [⟨2 * die, v.lo + (v.n - v.n / 2), v.n / 2, v.rdy⟩]) ∧
    (∀ cl, tget 0 l.ended cl = tget 0 l.assigned cl → tget 0 l.reported cl < tget 0 l.ended cl →
      (∀ r ∈ l.ranges, r.cl ≠ cl) → s.isFirst job = true →
      l.sum + (tget 0 l.ended cl - tget 0 l.reported cl) ≠ count → ∃ (u : State) (l' : Launch), exec (.completionReport cl job num) s = .next u ∧
        u.launch job num = some l' ∧ l'.sum = l.sum + (tget 0 l.ended cl - tget 0 l.reported cl) ∧
        tget 0 l'.reported cl = tget 0 l.ended cl) ∧
    (∀ cl t n lo, s.mgmt.pstate ≠ 2 → s.choose cl = some (t, n) → t.what = .launch job num lo →
      ∃ u : State, exec (.taskDispatch cl) s = .next u ∧ (u.core n).busy = true ∧ (u.fg n).pc = t.desc.entry ∧
        (∀ r, (u.fg n).x r = if r = 10 then t.desc.args else if r = 11 then wOf (t.tid % 2 ^ 31) else
          if r = 12 then wOf t.desc.count else 0) ∧ (∀ r, (u.fg n).v r = 0) ∧ (∀ k, (u.fg n).semOf k = 0) ∧
        (u.fg n).csr.tvec = 0 ∧ (u.fg n).csr.sdl = 0x1000 ∧ (u.fg n).hact = false ∧ (u.fg n).ident.job = t.job ∧
        (u.fg n).ident.taskid = BitVec.ofNat 32 t.tid ∧ (u.core n).sjob = some t.job ∧ u.now = s.now) ∧
    (∀ cl k a x rest, takeSig cl k a s.sch.depOut [] = some (x, rest) →
      let s1 : State := { s with sch := { s.sch with depOut := rest } }
      let v := s.slot cl k
      (v.st = .armed → a < v.cnt →
        exec (.depCounterDecrement cl k a) s = .next (s1.setSlot cl k { v with cnt := v.cnt - a })) ∧
      (v.st = .armed → v.cnt ≤ a → exec (.depCounterDecrement cl k a) s =
        .next (s1.setSlot cl k { v with pend := a - v.cnt, cnt := 0, st := .ready, rdy := s.now })) ∧
      (v.st ≠ .armed → v.pend + a ≤ 65535 →
        exec (.depCounterDecrement cl k a) s = .next (s1.setSlot cl k { v with pend := v.pend + a })) ∧
      (v.st ≠ .armed → 65535 < v.pend + a → ∃ u : State, exec (.depCounterDecrement cl k a) s = .next u ∧
        u.slot cl k = { v with pend := 65535 } ∧ u.sch.depOut = rest)) ∧
    (∀ (bs : List Byte) (slot : Nat), let r := leNat (bs.take 64)
      s.slotOf (fld r 159 128) = some slot → fld r 511 160 = 0 → fld r 15 8 = 0 → fld r 95 32 = 0 →
      let d := domOf r slot
      (d.clm ≠ 0 → s.sch.doms = [] → d.rds ≤ 96 → d.wrs ≤ 32 → d.nts ≤ 8 → d.sms ≤ 8 →
        exec (.domainDeclare bs) s = .next { s with sch := { s.sch with doms := [d] } }) ∧
      (d.clm = 0 → ∃ u : State, exec (.domainDeclare bs) s = .next u ∧
        ∀ x, x ∈ u.sch.doms ↔ x ∈ s.sch.doms ∧ ¬(x.num = d.num ∧ x.job = slot))) ∧
    (∀ dom sw, s.ccyc.toNat % 1050 = 0 → sw ≤ 8 → ∃ u : State, exec (.swallowRateUpdate dom sw) s = .next u ∧
      u.sch.doms = s.sch.doms.map (fun (d : Dom) => if d.num = dom then
        { d with s0 := d.s, s := sw, fr := (s.now + s.slew.toNat + 15) / 16 * 16 } else d) ∧
      (∀ n, u.dcyc (u.fg n) = s.dcyc (s.fg n)) ∧ u.mem = s.mem) ∧
    (∀ n, ((s.core n).rampWin + 1) * 1050 ≤ s.ccyc.toNat →
      let k := s.core n
      exec (.rampWindowBoundary n) s =
        .next (s.setCore n { k with rampPrev := max k.rampCur (k.rampPrev - 131), rampCur := 0, rampWin := k.rampWin + 1 }))

/-- The memory system's instructions and events: `TLBINV` drops the matching translations of its group, `MATSET` and
`SBSET` write their entries in supervisor mode and trap in user mode, a frame gives every core its budget, a store is
performed in its slot and costs 128 bytes of credit, and a page is checked and moved: R232, R233, R234, R235, R236, R239,
R241, R242, R245, R399. -/
def Obligations.MemoryEventsComplete : Prop :=
  ∀ (s : State) (n : Nat), s.cur = .core n →
    let c := s.fg n
    (∀ (f : FmtD), c.ident.desc.sup = true → f.aux.toNat % 16 ∈ [3, 4, 5, 6] →
      (f.aux.toNat % 16 = 6 → s.podPkgs = [] ∧ s.tlbWant = []) →
      (∀ x ∈ s.cores, x.2.sq = [] ∧ x.2.farw = [] ∧ x.2.fg.vreads = [] ∧ x.2.fg.wait = none) →
      let cls := groupOf (n / 256) (f.aux.toNat % 16)
      let va := (s.xr f.a).toNat % 2 ^ 48
      let asid := (s.xr f.b).toNat % 2 ^ 14
      let drops (i : Instr) (hit : Tlb → Prop) : Prop := ∃ u : State, exec i s = .next u ∧ u.pc = s.pc + 8 ∧ u.mem = s.mem ∧
        (f.st ≠ 0 → u.xr f.st = 0) ∧ (∀ m, cls.contains (m / 256) = true → ∀ t,
          t ∈ (u.core m).utlb ↔ t ∈ (s.core m).utlb ∧ ¬hit t) ∧
        (∀ cl, cls.contains cl = true → ∀ t, t ∈ tget [] u.ctlb cl → ¬hit t)
      drops (.tlbinvPg f) (fun t => t.asid = asid ∧ t.va ≤ va ∧ va < t.va + t.size) ∧
      drops (.tlbinvAs f) (fun t => t.asid = asid) ∧ drops (.tlbinvAll f) (fun _ => True)) ∧
    (∀ (f : FmtD) (q : FmtQ), c.ident.desc.sup = false → ∀ i, i ∈ [.tlbinvPg f, .tlbinvAs f, .tlbinvAll f, .matset q, .sbset q] →
      exec i s = .next (s.trapHere 0x01 (encodeWord i))) ∧
    (∀ f : FmtQ, c.ident.desc.sup = true →
      let a := (s.xr f.a).toNat
      let b := s.xr f.b
      let kind := a % 16
      let units := if kind ≤ 1 then 16 else if kind = 2 then 8 else 1
      let key := matKey kind (fld a 11 8) (fld a 21 16)
      let ok := wfld b 62 51 = 0 ∧ wfld b 31 16 = 0 ∧ fld a 7 4 = 0 ∧ fld a 15 12 = 0 ∧ a < 2 ^ 22 ∧ kind < 5 ∧
        fld a 11 8 < units
      let t := coreNum (n / 256) b.toNat
      let k := (s.core t).settleCredit (frameAt (s.now + s.span 4 - 1))
      (ok → exec (.matset f) s =
        .next ((({ s with mat := tset 0 s.mat key b } : State).setXr f.d (tget 0 s.mat key)).retire 8 1)) ∧
      (¬ok → exec (.matset f) s = .next ((s.setXr f.d 0xFFFFFFFFFFFFFFFF).retire 8 1)) ∧
      (b.toNat < 256 → a ≤ 8192 → a % 128 = 0 → exec (.sbset f) s = .next (((s.setCore t { k with fg :=
        { k.fg with csr := { k.fg.csr with sbud := s.xr f.a } } }).setXr f.d (s.fg t).csr.sbud).retire 8 4)) ∧
      ((256 ≤ b.toNat ∨ 8192 < a ∨ a % 128 ≠ 0) →
        exec (.sbset f) s = .next ((s.setXr f.d 0xFFFFFFFFFFFFFFFF).retire 8 4))) ∧
    ((s.now < frameStart (s.frame + 1) → exec .hbmFrameBoundary s = .next s) ∧
      (frameStart (s.frame + 1) ≤ s.now → ∃ u : State, exec .hbmFrameBoundary s = .next u ∧ u.frame = s.frame + 1 ∧ u.mem = s.mem ∧
        ∀ m, (s.core m).cframe = s.frame → let b := (s.fg m).csr.sbud.toNat
          (u.core m).credit = min ((s.core m).credit + b) (2 * b))) ∧
    (∀ st bad, 64 ≤ (s.stackAt st).wr → exec (.storePerformedInSlot st n bad) s = .next s) ∧
    (∀ st bad, s.slotTurn st ≠ some n → exec (.storePerformedInSlot st n bad) s = .next s) ∧
    (∀ (e : SqEntry) (r : List SqEntry) (bs : List Byte) (a : Nat), (s.core n).sq = e :: r → e.marker = false → e.atom = none →
      e.addr = s.pkgid * 2 ^ 45 + a → a < 2 ^ 40 → a + bs.length ≤ 2 ^ 40 → e.data = cellsAt 0 bs → e.pm = [] → e.part = [] →
      (∀ b, poisonedByte s.poison b = false) → (s.core n).farw = [] → n < 4096 → s.slotTurn (a / 2 ^ 36) = some n →
      ∃ u : State, exec (.storePerformedInSlot (a / 2 ^ 36) n 0) s = .next u ∧
        memRead u.mem a bs.length = bs ∧ s.sameMemoryOutside u a bs.length ∧
        (u.core n).credit = (s.core n).creditAt s.frameNow - 128 ∧ (u.core n).sq = dropMarks r ∧
        (u.stackAt (a / 2 ^ 36)).wr = (s.stackAt (a / 2 ^ 36)).wr + 1) ∧
    (∀ (page : Nat) (p : PgCnt), tget {} s.pages page = p →
      (s.ccyc.toNat / 2 ^ 20 ≤ p.per → exec (.migrationCheck page) s = .next s) ∧
      (∀ a at_, p.per < s.ccyc.toNat / 2 ^ 20 → leadingGo p.cnt 9 = some a →
        leafAtGo s p.va levels (s.ptroot p.job) = some at_ →
        let base := page * 2 ^ 14
        let pte := wOf (s.num at_ 8)
        pte.getLsbD 6 = false → a < 8 → a ≠ base / 2 ^ 37 → s.mthr p.job ≠ 0 → s.mthr p.job ≤ tget 0 p.cnt a →
        2 * tget 0 p.cnt (base / 2 ^ 37) ≤ tget 0 p.cnt a → base < 2 ^ 40 → ptePa pte = s.pkgid * 2 ^ 45 + base →
        (∀ m ∈ s.migs, m.old ≠ base) → 0 < p.size → p.size ≤ 2 ^ 37 →
        ∃ (u : State) (m : Mig), exec (.migrationCheck page) s = .next u ∧ u.migs = s.migs ++ [m] ∧ m.old = base ∧ m.new / 2 ^ 37 = a ∧
          m.size = p.size ∧ m.va = p.va ∧ m.pteAt = at_ ∧ (tget {} u.pages page).cnt = [] ∧ u.mem = s.mem)) ∧
    (∀ (page : Nat) (m : Mig), s.migs.find? (fun x => decide (x.old = page * 2 ^ 14)) = some m → Memory.wf s.mem = true →
      (∀ k, (s.core k).sq = []) → s.inq = [] → (m.pteAt + 8 ≤ m.new ∨ m.new + m.size ≤ m.pteAt) →
      ∃ u : State, exec (.migrationSwitch page) s = .next u ∧
        (∀ j, j < m.size → memByte u.mem (m.new + j) = memByte s.mem (m.old + j)) ∧
        (let pte := memNat s.mem m.pteAt 8
         memNat u.mem m.pteAt 8 = (pte - fld pte 55 14 * 2 ^ 14 + (s.pkgid * 2 ^ 45 + m.new)) % 2 ^ 64) ∧
        (∀ x ∈ u.migs, x.old ≠ m.old) ∧
        (∀ k t, t ∈ (u.core k).utlb → k < 4096 → ¬(t.asid = m.asid ∧ t.va ≤ m.va ∧ m.va < t.va + t.size)))

/-! ## Hamper threads -/

/-- A Hamper thread's loads and stores of its own memory, its counters, triggers and posts: each completes with the
result and the effect of its rule, or traps with the cause of its check; an update of a counter fires the entries that it
brings to their thresholds: R331, R334, R336, R340, R341, R342, R344, R348, R349, R350, R351, R352. -/
def Obligations.ThreadInstructionsComplete : Prop :=
  ∀ (s : State) (h : Nat), s.cur = .thread h →
    let j := s.hjob h
    let done (t : State) (d : BitVec 5) (v : Word) (cyc : Nat) : Host.Outcome State Fault Refusal :=
      .next ((t.setXr d v).retire 8 cyc)
    (∀ (f3 : BitVec 3) (r rs1 : BitVec 5) (off : BitVec 12) (enc : RvEnc),
      let a := scalarEa (s.xr rs1) off
      let k := accSize f3
      let key := hamperBase + a
      (a % k ≠ 0 → ∀ st, exec (.hamperScalarAccess st f3 r rs1 off enc) s = .next (s.trapHere 0x0F (wOf a))) ∧
      (a % k = 0 → 2 ^ 26 ≤ a → ∀ st,
        exec (.hamperScalarAccess st f3 r rs1 off enc) s = .next (s.trapHere 0x10 (wOf a))) ∧
      (a % k = 0 → a < 2 ^ 26 → 0x2800000 ≤ a →
        exec (.hamperScalarAccess true f3 r rs1 off enc) s = .next (s.trapHere 0x09 (wOf a)) ∧
        ∃ v, exec (.hamperScalarAccess false f3 r rs1 off enc) s =
          .next ((({ s with free := s.free + 1 } : State).setXr r v).retire (RvLen enc) 2)) ∧
      (a % k = 0 → a < 0x2800000 →
        (firstPoison s.poison key k = none → exec (.hamperScalarAccess false f3 r rs1 off enc) s =
          .next ((s.setXr r (extend f3 (memNat s.mem key k))).retire (RvLen enc) 2)) ∧
        (firstPoison s.poison key k ≠ none →
          exec (.hamperScalarAccess false f3 r rs1 off enc) s = .next (s.trapHere 0x0A (wOf a)))) ∧
      (a % k = 0 → 0x42000 ≤ a → a < 0x2800000 → (a < 0x1000000 ∨ 0x1400000 ≤ a ∨ a % 4096 ≠ 0x040) →
        exec (.hamperScalarAccess true f3 r rs1 off enc) s =
          .next ((s.putBytes key (leBytes k (s.xr r).toNat)).retire (RvLen enc) 1)) ∧
      (a % k = 0 → 0x1000000 ≤ a → a < 0x1400000 → a % 4096 = 0x040 → exec (.hamperScalarAccess true f3 r rs1 off enc) s =
        .next (({ s.putBytes key (leBytes k (s.xr r).toNat) with mgmt := { s.mgmt with
          due := s.mgmt.due ++ [((a - 0x1000000) / 4096, (s.xr r).toNat % 64)] } } : State).retire (RvLen enc) 1)) ∧
      (∀ slot, 0 < slot → slot < 4096 → f3 = 0 → a = 64 * slot + 14 → (s.xr r).toNat % 256 = 1 → s.jobValid slot = false →
        ∃ u : State, exec (.hamperScalarAccess true f3 r rs1 off enc) s = .next u ∧ u.jobValid slot = true ∧ u.rs slot = 0 ∧
          (u.job slot).base = s.ccyc ∧ (u.job slot).tmpl = [] ∧ (u.job slot).launches = 0 ∧
          (∀ b ∈ u.sch.bars, b.key.job ≠ slot) ∧ (∀ m, (u.core m).sjob ≠ some slot))) ∧
    (∀ (cause : Byte) (v : Word), h < 512 →
      let t := s.detachThread h
      exec (.hamperThreadTrap h cause v) s = .next (t.threadTrap h cause.toNat v) ∧ t.mem = s.mem ∧ t.core = s.core ∧
        t.thread = s.thread ∧ t.hamper.ctr = s.hamper.ctr ∧ t.hamper.trg = s.hamper.trg ∧ t.hamper.posts = s.hamper.posts ∧
        (∀ x ∈ t.hamper.copies, x.thread ≠ some h) ∧ (∀ x ∈ t.hamper.links, x.2.thr ≠ some h)) ∧
    (∀ (k : Nat) (c : Ctr), s.hamper.frozen = [] → let t : State := { s with hamper := { s.hamper with ctr := tset {} s.hamper.ctr k c } }
      ((∀ x ∈ s.hamper.trg, x.2.st = .armed → x.2.ctr = k → c.val < x.2.thr) → s.setCtr k c = t) ∧
      (∀ e g, s.hamper.trg = [(e, g)] → g.st = .armed → g.ctr = k → g.thr ≤ c.val → s.held g.job = false →
        s.setCtr k c = (t.setTrg e { g with st := .fired }).trgAct e)) ∧
    (∀ f : FmtQ,
      let k := (s.xr f.a).toNat % 65536
      let b := s.xr f.b
      let c := s.ctr k
      j = 0 ∨ (s.jobValid j = true ∧ s.ctrBase j ≤ k ∧ k ≤ s.ctrLast j) →
      (c.val + wfld b 31 0 < 2 ^ 32 → exec (.ctradd f) s =
        done (s.setCtr k { c with val := c.val + wfld b 31 0 }) f.d (wOf c.val) 4) ∧
      (2 ^ 32 ≤ c.val + wfld b 31 0 → exec (.ctradd f) s = .next (s.trapHere 0x07 (wOf k))) ∧
      exec (.ctrrd f) s = done s f.d (wOf (c.exp * 2 ^ 32 + c.val)) 4 ∧
      exec (.ctrset f) s = done (s.setCtr k { val := wfld b 31 0, exp := wfld b 63 32 }) f.d (wOf (c.exp * 2 ^ 32 + c.val)) 4 ∧
      (∀ g : FmtD, g.a = f.a → g.b = f.b →
        (wfld b 31 0 ≤ c.val → exec (.ctrwait g) s = .next ((s.setXr g.d (wOf c.val)).finishDT h g.st g.x s.pc 0 0)) ∧
        (c.val < wfld b 31 0 → s.agentTime.toNat ≤ (deadlineAt s.agentTime (s.xr g.dl)).toNat →
          exec (.ctrwait g) s = .next (s.setWait (s.waitOf g (.ctrwait g)))))) ∧
    (∀ f : FmtQ, j ≠ 0 → s.ctrLast j < (s.xr f.a).toNat % 65536 →
      exec (.ctradd f) s = .next (s.trapHere 0x09 (encodeWord (.ctradd f)))) ∧
    (∀ f : FmtQ, s.jobValid j = true →
      let e := (s.xr f.a).toNat % 32768
      let b := s.xr f.b
      let c := (s.xr f.c).toNat
      let t := s.trg e
      let st : Nat := match t.st with | .free => 0 | .armed => 1 | .fired => 2 | .held => 3
      let k := s.ctrBase j + wfld b 15 0
      let act := wfld b 49 48
      let armed : Trg := { st := .armed, act := act, grp := wfld b 53 50, thr := wfld b 47 16, ctr := k, blk := c, job := j }
      s.jt j 8 2 % 32768 ≤ e → e ≤ s.jt j 10 2 % 32768 →
      exec (.trgdis f) s = done (s.setTrg e {}) f.d (if t.st = .fired then 1 else 0) 4 ∧
      exec (.trgrd f) s = done s f.d (wOf (st * 2 ^ 62 + t.act % 4 * 2 ^ 60 + t.grp % 16 * 2 ^ 56 + t.thr % 2 ^ 32 * 2 ^ 16 +
        t.ctr % 2 ^ 16)) 4 ∧
      exec (.trgrdBlk f) s = done s f.d (wOf (t.blk % 2 ^ 26 + t.job % 2 ^ 12 * 2 ^ 32)) 4 ∧
      (c < 2 ^ 26 → c % 64 = 0 → wfld b 63 54 = 0 → act < 3 → (act = 0 → (descOf (s.hnum c 64)).span ≠ 4 ∨ wfld b 53 50 ≤ 7) →
        k ≤ s.ctrLast j →
        (t.st = .armed ∨ t.st = .held → exec (.trgarm f) s = done s f.d 2 4) ∧
        (t.st = .free ∨ t.st = .fired → (s.ctr k).val < wfld b 47 16 → exec (.trgarm f) s = done (s.setTrg e armed) f.d 0 4) ∧
        (t.st = .free ∨ t.st = .fired → wfld b 47 16 ≤ (s.ctr k).val →
          exec (.trgarm f) s = done ((s.setTrg e armed).trgReach e) f.d 1 4))) ∧
    (∀ f : FmtQ, s.jobValid j = true → s.hamper.frozen = [] →
      let a := (s.xr f.a).toNat
      let b := postBlkOf (s.hnum a 64)
      let k := s.ctrBase j + b.pc
      (a < 2 ^ 26 → a % 64 = 0 → firstPoison s.poison (hamperBase + a) 64 = none → k ≤ s.ctrLast j →
        s.hamper.posts.length < 65536 → s.hamper.unexp = [] →
        (∀ x ∈ s.hamper.trg, x.2.st ≠ .armed) → (s.ctr k).exp + b.cnt < 2 ^ 32 → 1 ≤ b.cnt →
        (b.bad = true → exec (.npost f) s = done s f.d 0x8000000000000001 6) ∧
        (b.bad = false → ∃ (u : State) (p : Post), exec (.npost f) s = .next u ∧ u.pc = s.pc + 8 ∧ u.hamper.posts = s.hamper.posts ++ [p] ∧
          (∀ x ∈ s.hamper.posts, x.num ≠ p.num) ∧ p.job = j ∧ p.tag = b.tag ∧ p.ign = b.ign ∧ p.dst = b.dst ∧ p.str = b.str ∧
          p.max = b.max ∧ p.left = b.cnt ∧ p.took = 0 ∧ p.pc = k ∧ (f.d ≠ 0 → u.xr f.d = wOf (2 ^ 62 + p.num)) ∧
          (u.ctr k).exp = (s.ctr k).exp + b.cnt ∧ (u.ctr k).val = (s.ctr k).val)) ∧
      ((∀ p ∈ s.hamper.posts, ¬(p.num = a % 65536 ∧ p.job = j)) →
        exec (.npostCancel f) s = done s f.d 0x8000000000000004 6) ∧
      (∀ p, s.hamper.posts.find? (fun p => decide (p.num = a % 65536 ∧ p.job = j)) = some p →
        (∀ x ∈ s.hamper.trg, x.2.st ≠ .armed) →
        ∃ u : State, exec (.npostCancel f) s = .next u ∧ u.pc = s.pc + 8 ∧ (∀ x ∈ u.hamper.posts, x.num ≠ a % 65536) ∧
          (u.ctr p.pc).exp = (s.ctr p.pc).exp - p.left ∧ (f.d ≠ 0 → u.xr f.d = wOf p.left)))

/-- A Hamper thread's messages, launches, copies and job set-up: `NRECV` and `NPROBE` write the oldest message of a port,
`NSEND` hands a message to its route, `NLAUNCH` accepts a launch or says which check failed, `NCOPY` starts a packet, and
`JCFG` writes a handle, a window template or a stopped context's window: R336, R346, R353, R354, R355, R356, R358. -/
def Obligations.ThreadMessagesComplete : Prop :=
  ∀ (s : State) (h : Nat), s.cur = .thread h →
    let j := s.hjob h
    let done (t : State) (d : BitVec 5) (v : Word) (cyc : Nat) : Host.Outcome State Fault Refusal :=
      .next ((t.setXr d v).retire 8 cyc)
    let readable (a al k : Nat) : Prop := a < 2 ^ 26 ∧ a % al = 0 ∧ firstPoison s.poison (hamperBase + a) k = none
    (∀ (f : FmtD) (m : Msg) (r : List Msg), s.port f.aux.toNat = m :: r → m.payload.length = m.len.toNat →
      let a := (s.xr f.a).toNat
      let n := min (32 + m.len.toNat) (s.xr f.b).toNat
      a % 32 = 0 → a + (32 + m.len.toNat) ≤ 0x2800000 → a < 0x2800000 →
      let ends (u : State) (d : Nat) : Prop := u.pc = s.pc + 8 ∧ (u.thread h).wait = none ∧
        (f.st ≠ 0 → u.xr f.st = wOf (d * 2 ^ 16)) ∧ (f.d ≠ 0 → f.d ≠ f.st → u.xr f.d = wOf (32 + m.len.toNat))
      ((∀ x ∈ s.hamper.threads, x.2.wait = none) → ∃ u : State, exec (.nrecv f) s = .next u ∧
        ends u (if n < 32 + m.len.toNat then 1 else 0) ∧ u.port f.aux.toNat = r ∧
        memRead u.mem (hamperBase + a) n = (hdrBytes m ++ m.payload).take n ∧ s.sameMemoryOutside u (hamperBase + a) n) ∧
      (∃ u : State, exec (.nprobe f) s = .next u ∧ ends u 0 ∧ u.port f.aux.toNat = m :: r ∧
        memRead u.mem (hamperBase + a) 32 = hdrBytes m ∧ s.sameMemoryOutside u (hamperBase + a) 32)) ∧
    (∀ f : FmtD, s.port f.aux.toNat = [] → (s.xr f.a).toNat % 32 = 0 → (s.xr f.a).toNat < 0x2800000 →
      s.agentTime.toNat ≤ (deadlineAt s.agentTime (s.xr f.dl)).toNat →
      exec (.nrecv f) s = .next (s.setWait (s.waitOf f (.nrecv f))) ∧
      exec (.nprobe f) s = .next (s.setWait (s.waitOf f (.nprobe f)))) ∧
    (∀ f : FmtD, let a := (s.xr f.a).toNat
      let b := (s.xr f.b).toNat
      let m := msgOf (s.hnum a 32) []
      let k := m.len.toNat
      readable a 32 (32 + k) → a + 32 + k ≤ 2 ^ 26 →
      (hdrOk m = false → exec (.nsend f) s = .next (s.finishDT h f.st f.x s.pc 7 0x0E)) ∧
      (hdrOk m = true → s.destOk j (s.xr f.b) k = true → b = 2 ^ 62 + s.pkgid → s.pkgid < 2 ^ 11 → (j ≠ 0 → s.held j = false) →
        ∃ (u : State) (x : Sent), exec (.nsend f) s = .next u ∧ u.pc = s.pc ∧ u.hamper.sent = s.hamper.sent ++ [x] ∧ x.dest = 0 ∧ x.thr = some h ∧
          x.msg.payload = s.hbytes (a + 32) k ∧ x.msg.tag = m.tag ∧ x.msg.imm = m.imm ∧
          x.msg.jobid = BitVec.ofNat 32 (if j = 0 then 0 else s.jobid j) ∧ (u.thread h).wait ≠ none)) ∧
    (∀ f : FmtQ, s.jobValid j = true → readable (s.xr f.a).toNat 64 64 →
      let a := (s.xr f.a).toNat
      let b := s.xr f.b
      let blk := s.hnum a 64
      let o := s.hlaunch j (b.toNat % 16) blk
      (∀ c, o = .inl c → exec (.nlaunch f) s = done s f.d (wOf (2 ^ 63 + c)) 3) ∧
      (∀ num t, o = .inr (num, t) → s.held j = false → ∃ l : Launch, exec (.nlaunch f) s = done t f.d (wOf num) 3 ∧
        num = s.launchNum j ∧ ((s.job j).pkgs = [] → num = (s.job j).launches) ∧ t.sch.launches = s.sch.launches ++ [l] ∧ l.desc = descOf blk ∧ l.job = j ∧ l.num = num) ∧
      (∀ i, i ∈ [.jcfgHandle f, .jcfgWindowTemplate f, .jcfgWindowContext f] → wfld b 61 20 = 0 →
        let cl := wfld b 19 16
        let w := wfld b 5 0
        let n := cl * 256 + wfld b 15 8
        let tab := s.htab j % 2 ^ 45 + 64 * wfld b 19 0
        (wfld b 63 62 = 3 → exec i s = done s f.d 0x8000000000000001 3) ∧
        (wfld b 63 62 = 0 → hentOk blk = true → s.htab j ≠ 0 → s.refuses (midThread 0) tab 64 .w = none →
          ∃ u : State, exec i s = .next u ∧ u.pc = s.pc + 8 ∧ (f.d ≠ 0 → u.xr f.d = 0) ∧ memNat u.mem tab 64 = blk ∧
            s.sameMemoryOutside u tab 64 ∧ tget none u.handles (hKey j (wfld b 19 0)) = some (BitVec.ofNat 512 blk)) ∧
        (wfld b 63 62 = 1 → wfld b 7 6 = 0 → wfld b 15 8 = 0 → winOk blk = true → exec i s =
          done (s.setJob j { s.job j with tmpl := tset 0 (s.job j).tmpl (64 * cl + w) (wOf blk) }) f.d 0 20) ∧
        (wfld b 63 62 = 2 → wfld b 7 6 = 0 → winOk blk = true →
          (s.held j = false → exec i s = done s f.d 0x8000000000000002 3) ∧
          (s.held j = true → (s.core n).busy = true → (s.fg n).ident.job = j →
            exec i s = done (s.setFg n ((s.fg n).setWin w (wOf blk))) f.d 0 20)))) ∧
    (∀ f : FmtD, s.jobValid j = true → readable (s.xr f.a).toNat 64 64 → s.held j = false →
      let q := s.hpacket (s.xr f.a).toNat
      (∀ c, s.hpacketBad j q = some c → exec (.ncopy f) s = .next ((s.setXr f.d 0).finishDT h f.st f.x s.pc 7 c)) ∧
      (s.hpacketBad j q = none → s.lockstep = false → (∀ x ∈ s.hamper.copies, x.thread ≠ some h) →
        s.agentTime.toNat ≤ (deadlineAt s.agentTime (s.xr f.dl)).toNat →
        ∃ (u : State) (x : HCopy), exec (.ncopy f) s = .next u ∧ u.pc = s.pc ∧ u.hamper.copies = s.hamper.copies ++ [x] ∧ x.job = j ∧
          x.thread = some h ∧ x.entry = q ∧ (∀ y ∈ s.hamper.copies, y.eng ≠ x.eng) ∧ (u.thread h).wait ≠ none))

/-! ## What reaches the Hamper -/

/-- Messages that arrive at the match unit, queue tails, transport and retention: a message of a valid job is counted,
appended to its port, placed through the first post that takes it, or stored; a send to the own package is answered; a
tail write adds its difference to the entry's counter; an `ECALL` reply lands; a unit's clock stops and starts; an
inbound transport write lands and counts; other frames are counted as dropped: R338, R340, R344, R345, R353, R359,
R360, R361, R362, R472. -/
def Obligations.HamperEventsComplete : Prop :=
  ∀ s : State,
    (∀ (m : Msg) (j : Nat), s.slotOf m.jobid.toNat = some j → hdrOk m = true → s.hamper.frozen = [] →
      let k := s.ctrBase j + m.ctr.toNat
      let jid := m.jobid.toNat
      let more (t : State) : State := t.setCtr k { t.ctr k with val := (t.ctr k).val + 1 }
      k ≤ s.ctrLast j →
      (s.hamper.sent = [] → (s.ctr k).val < 2 ^ 32 - 1 →
        (m.kind = 2 → exec (.messageArrivalCount m) s = .next (more s)) ∧
        (m.kind = 1 → portUsed (s.port m.port.toNat) + msgSpace m ≤ 131072 → exec (.messageArrivalCtrl m) s =
          .next (more (s.setPort m.port.toNat (s.port m.port.toNat ++ [m])))) ∧
        (m.kind = 1 → 131072 < portUsed (s.port m.port.toNat) + msgSpace m → exec (.messageArrivalCtrl m) s = .next s)) ∧
      (s.hamper.sent = [] → m.kind = 2 → (s.ctr k).val = 2 ^ 32 - 1 →
        exec (.messageArrivalCount m) s = .next (s.event 0x07 (wOf k) jid [])) ∧
      (s.hamper.sent = [] → m.kind = 0 →
        (∀ p, s.hamper.posts.find? (fun p => p.takes j m) = some p →
          let posts := if p.left ≤ 1 then s.hamper.posts.filter (fun x => decide (x.num ≠ p.num))
            else s.hamper.posts.map (fun (x : Post) =>
              if x.num = p.num then { x with left := x.left - 1, took := x.took + 1 } else x)
          let place := p.dst + wOf (p.took * p.str)
          let less (t : State) : State := t.setCtr p.pc { t.ctr p.pc with exp := (t.ctr p.pc).exp - 1 }
          let s' : State := { s with hamper := { s.hamper with posts := posts } }
          (∀ t, s'.putTw j place m.payload = .inr t → ((less t).ctr k).val < 2 ^ 32 - 1 → (less t).ctrBase j = s.ctrBase j →
            exec (.messageArrivalData m) s = .next (more (less t))) ∧
          (∀ c, s'.putTw j place m.payload = .inl c →
            exec (.messageArrivalData m) s = .next (less (s'.event (wOf c) place jid [])))) ∧
        ((∀ p ∈ s.hamper.posts, p.takes j m = false) → s.hamper.unexp.length < 65536 →
          (m.fl = 0 → m.len.toNat ≤ 16384 → s.unexpUsed + (32 + m.len.toNat + 255) / 256 * 256 ≤ 2 ^ 24 →
            exec (.messageArrivalData m) s =
              .next { s with hamper := { s.hamper with unexp := s.hamper.unexp ++ [(m, false)] } }) ∧
          (m.fl = 1 → s.unexpUsed + 256 ≤ 2 ^ 24 → exec (.messageArrivalData m) s =
              .next { s with hamper := { s.hamper with unexp := s.hamper.unexp ++ [(m, true)] } }))) ∧
      (∀ (x : Sent) (h : Nat) (w : Wait), s.hamper.sent = [x] → x.dest = 0 → x.msg = m → x.thr = some h →
        (s.thread h).wait = some w → w.sent = true → w.ord = x.num → m.kind = 2 → (s.ctr k).val < 2 ^ 32 - 1 →
        (∀ g ∈ s.hamper.trg, g.2.st ≠ .armed) → s.pkgid < 2 ^ 11 →
        ∃ u : State, exec (.messageArrivalCount m) s = .next u ∧ u.hamper.sent = [] ∧ (u.ctr k).val = (s.ctr k).val + 1 ∧
          (u.thread h).wait = some { w with ans := some (.data []) })) ∧
    (∀ (page : Nat) (t : BitVec 32), page < 1024 →
      let a := 0x40000 + 8 * page
      let e := s.hnum a 8
      let d := (t - BitVec.ofNat 32 (fld e 31 0)).toNat
      let k := fld e 47 32
      let s' : State := s.putBytes (hamperBase + a) (leBytes 4 t.toNat)
      (e.testBit 63 = true → d < 2 ^ 31 → (s.ctr k).val + d < 2 ^ 32 → exec (.tailWrite page t) s =
        .next (s'.setCtr k { s.ctr k with val := (s.ctr k).val + d })) ∧
      (e.testBit 63 = false ∨ 2 ^ 31 ≤ d → portUsed (s.port 2) + 64 ≤ 131072 → exec (.tailWrite page t) s =
        .next (s.setPort 2 (s.port 2 ++ [ctrlMsg (wOf page) (wOf t.toNat) 0 2 []])))) ∧
    (∀ (n cl h : Nat) (x : Sent) (reply : List Byte) (sem : Byte) (a : Word),
      s.hamper.links.find? (fun y => decide (y.1 = n / 256)) = some (cl, x) → x.msg.tag = 1 → x.msg.kind = 1 →
      x.msg.payload.length = 96 → (x.msg.payload.headD 0).toNat = n % 256 → x.msg.payload.drop 32 = reply →
      x.thr = some h → (s.core n).ecall = some (sem, a) → a.toNat + 64 ≤ 2 ^ 19 → ((s.fg n).semOf sem.toNat).toNat < 65535 →
      ∃ u : State, exec (.ecallReply n reply) s = .next u ∧ u.hamper.links = s.hamper.links.erase (cl, x) ∧
        (u.core n).ecall = none ∧ memRead u.mem (spadKey n a.toNat) 64 = reply ∧
        s.sameMemoryOutside u (spadKey n a.toNat) 64 ∧
        (sem ≠ 0 → ((u.fg n).semOf sem.toNat).toNat = ((s.fg n).semOf sem.toNat).toNat + 1)) ∧
    (∀ u : Nat, u < 64 → s.hamper.retained.contains u = false →
      (∀ k, k < 8 → ∃ w : Wait, (s.thread (8 * u + k)).wait = some w ∧ w.since + 1024 ≤ s.now) →
      exec (.retentionEnter u) s =
        .next { s with hamper := { s.hamper with retained := s.hamper.retained ++ [u] } }) ∧
    (∀ u : Nat, s.hamper.retained.contains u = true → ∃ t : State, exec (.retentionWake u) s = .next t ∧
      t.hamper.retained = s.hamper.retained.erase u ∧ tget 0 t.hamper.waking u = s.now + 128 ∧ t.now = s.now) ∧
    (∀ (j r off : Nat) (data : List Byte), r < 65536 → s.jobValid j = true →
      let g : Region := tget {} s.hamper.regions (j * 65536 + r)
      let k := s.ctrBase j + g.ctr
      g.len ≠ 0 → k ≤ s.ctrLast j →
      (off + data.length ≤ g.len → ∀ t, s.putTw j (g.tw + wOf off) data = .inr t → (t.ctr k).val < 2 ^ 32 - 1 →
        exec (.uetWriteOrRead j r off true data) s = .next (t.setCtr k { t.ctr k with val := (t.ctr k).val + 1 })) ∧
      (g.len < off + data.length → ∀ w, exec (.uetWriteOrRead j r off w data) s = .next s) ∧
      (off + data.length ≤ g.len → ∀ (x : Got) (t : State), x.fault = none → (t.ctr k).val < 2 ^ 32 - 1 →
        s.readVa (matchWho j) ((g.tw + wOf off).toNat : Int) data.length = (x, t) →
        exec (.uetWriteOrRead j r off false data) s =
          .next (t.setCtr k { t.ctr k with val := (t.ctr k).val + 1 }))) ∧
    (∀ p : Nat, p < 8 → exec (.receivedFrameDropped p) s = .next { s with mgmt := { s.mgmt with
      ethDrop := tset 0 s.mgmt.ethDrop p ((tget 0 s.mgmt.ethDrop p + 1) % 2 ^ 32) } })

/-! ## The fabric and collectives -/

/-- Packets, flits, lanes and links: a packet that is next in its source's order is delivered and an acknowledgement
owed, a duplicate only acknowledged, an early one kept, another package's passed on; acknowledgements release what was
sent, a timer that ends sends it once more and at most three times; flits are checked and counted; a lane that goes down
retrains its link to a smaller width or loses it; a failed seam link is bypassed; measured offsets slew the clock: R424,
R429, R430, R431, R432, R433, R434, R435, R436. -/
def Obligations.FabricEventsComplete : Prop :=
  ∀ s : State,
    let b := s.fab
    (∀ l : Nat, l < 20 →
      (tget 0 b.seam l ≠ 0 → exec (.seamLinkFail l) s = .next s) ∧
      (tget 0 b.seam l = 0 → exec (.seamLinkFail l) s =
        .next (({ s with fab := { b with seam := tset 0 b.seam l (s.now + 1) } }).event 0x21 (wOf (33 + l)) 0 []))) ∧
    (∀ p : FabPkt,
      let src := p.src.toNat
      let next := tget 0 b.rxNext src
      let d := (p.seq.toNat + 2 ^ 16 - next) % 2 ^ 16
      (8 < p.kind.toNat ∨ p.len.toNat ≠ p.payload.length ∨ 2 ^ 45 ≤ p.addr.toNat → exec (.fabricPacketReceive p) s =
        .next { s with fab := { b with discards := b.discards + 1 } }) ∧
      (pktBad p = false →
        (p.dst.toNat = s.pkgid → p.kind ≠ 8 → next < 2 ^ 16 →
          (d = 0 → b.rxBuf = [] → exec (.fabricPacketReceive p) s =
            .next ((({ s with fab := { b with rxNext := tset 0 b.rxNext src ((next + 1) % 2 ^ 16) } }).owe src).deliver p)) ∧
          (2 ^ 15 ≤ d → exec (.fabricPacketReceive p) s = .next (s.owe src)) ∧
          (1 ≤ d → d < 512 → b.rxBuf = [] → exec (.fabricPacketReceive p) s = .next { s with fab := { b with rxBuf := [p] } }) ∧
          (tget 0 b.rxOwed src < 63 →
            s.owe src = { s with fab := { b with
              rxOwed := tset 0 b.rxOwed src (tget 0 b.rxOwed src + 1)
              rxAt := tset 0 b.rxAt src (if tget 0 b.rxOwed src = 0 then s.now + 1 else tget 0 b.rxAt src) } }) ∧
          (p.kind = 0 → p.aux = BitVec.allOnes 64 → p.payload.length = 64 → p.part = [] →
            (∀ c off, padOf p.addr.toNat = some (c, off) → (s.core c).retired = false →
              s.allows 1 (c / 256) (midPkg src) .w = true → p.mid.toNat / 2 ^ 13 ≠ 0 →
              (s.deliver p).sameMemoryOutside s (spadKey c off) 64 ∧ memRead (s.deliver p).mem (spadKey c off) 64 = p.payload) ∧
            (padOf p.addr.toNat = none → memKind (s.homeOf p.addr.toNat) = .hbm →
              s.refuses (midPkg src) (s.homeOf p.addr.toNat) 64 .w = none →
              s.deliver p = { s with inq := s.inq ++ [{ pkt := p, addr := s.homeOf p.addr.toNat }] }))) ∧
        (p.dst.toNat = s.pkgid → p.kind = 8 → p.payload.length = 3 → p.payload.headD 0 = 0 → b.out = [] →
          let q := leNat (p.payload.drop 1)
          exec (.fabricPacketReceive p) s = .next { s with fab := { b with tx := b.tx.filter (fun t =>
            !(decide (t.pkt.dst.toNat = src) && decide ((q + 2 ^ 16 - 1 - t.pkt.seq.toNat) % 2 ^ 16 < 2 ^ 15))) } }) ∧
        (p.dst.toNat ≠ s.pkgid → p.hop = 4 →
          (s.routed p.dst.toNat = false → exec (.fabricPacketReceive p) s = .next s) ∧
          (s.routed p.dst.toNat = true → exec (.fabricPacketReceive p) s =
            .next (s.emitOn (wfld (tget 0 b.route p.dst.toNat) 5 0) { p with hop := 5 }))))) ∧
    (∀ src : Nat, (tget 0 b.rxOwed src = 0 → exec (.fabricAckTimer src) s = .next s) ∧
      (tget 0 b.rxOwed src ≠ 0 → exec (.fabricAckTimer src) s =
        .next (({ s with fab := { b with rxOwed := tset 0 b.rxOwed src 0, rxAt := tset 0 b.rxAt src 0 } }).sendLoose src
          (0 :: leBytes 2 (tget 0 b.rxNext src))))) ∧
    (∀ dst : Nat,
      ((∀ t ∈ b.tx, t.pkt.dst.toNat = dst → s.now < t.sent + 50000) → exec (.packetResendTimeout dst) s = .next s) ∧
      (∀ t, b.tx.find? (fun t => decide (t.pkt.dst.toNat = dst ∧ t.sent + 50000 ≤ s.now)) = some t →
        (t.tries < 3 → ∃ (u : State) (via : BitVec 16), exec (.packetResendTimeout dst) s = .next u ∧
          u.fab.tx = b.tx.map (fun (x : TxPkt) =>
            if x = t then { pkt := { t.pkt with via := via }, sent := s.now, tries := t.tries + 1 } else x)) ∧
        (3 ≤ t.tries → t.pkt.kind = 2 → b.out = [] → ∃ u : State, exec (.packetResendTimeout dst) s = .next u ∧
          u.fab.tx = b.tx.filter (fun x => decide (x ≠ t))))) ∧
    (∀ (port : Nat) (f : Flit), port < 33 →
      let o := s.fport port
      let kept := o.replay.filter (fun x => decide (2048 ≤ (f.ack.toNat + 4096 - x.fsq.toNat % 4096) % 4096))
      let ok : Prop := f.crc = crc32 (f.data ++ leBytes 2 f.fsq.toNat ++ leBytes 2 f.ack.toNat) ∧ f.data.length = 56 ∧
        f.ack.toNat < 4096
      (o.st = .retrain ∨ o.st = .lost → exec (.flitReceive port f) s = .next s) ∧
      (o.st ≠ .retrain → o.st ≠ .lost → b.out = [] →
        (¬ok → exec (.flitReceive port f) s = .next (s.setPort' port { o with replays := o.replays + 1, errs := o.errs + 1 })) ∧
        (ok → f.fsq.toNat % 4096 = o.rxNext →
          (o.wait = [] → o.owed < 31 → exec (.flitReceive port f) s = .next (s.setPort' port
            { o with replay := kept, rxNext := (o.rxNext + 1) % 4096, owed := o.owed + 1 })) ∧
          (o.wait = [] → o.owed = 31 → kept.length < 1024 → ∃ g : Flit, exec (.flitReceive port f) s = .next (s.setPort' port
            { o with replay := kept ++ [g], rxNext := (o.rxNext + 1) % 4096, txNext := (o.txNext + 1) % 4096, owed := 0 }) ∧
            g.ack.toNat = f.fsq.toNat % 4096) ∧
          (o.wait ≠ [] → exec (.flitReceive port f) s = .next (s.setPort' port ({ o with replay := kept } : Port).accept))) ∧
        (ok → f.fsq.toNat % 4096 ≠ o.rxNext → exec (.flitReceive port f) s = .next (s.setPort' port
          (Port.drain o.wait.length { o with replay := kept, replays := o.replays + 1 }))))) ∧
    (∀ port : Nat, port < 33 →
      let o := s.fport port
      (∀ l : Nat, l < 16 → o.lanes.getLsbD l = true →
        let lanes := o.lanes &&& ~~~(1#16 <<< l)
        (o.st = .x16 ∨ (o.st = .x8 ∧ l / 8 = o.grp) → exec (.laneDown port l) s = .next (s.setPort' port
          { o with lanes := lanes, st := .retrain, full := decide (o.st = .x16), since := s.now })) ∧
        (o.st = .x4 → l / 4 = o.grp → exec (.laneDown port l) s = .next (s.setPort' port
          { o with lanes := lanes, st := .retrain, full := false, grp := 4 + o.grp, since := s.now })) ∧
        ((o.st = .x8 ∧ o.grp < 2 ∧ l / 8 ≠ o.grp) ∨ (o.st = .x4 ∧ o.grp < 4 ∧ l / 4 ≠ o.grp) ∨ o.st = .retrain ∨ o.st = .lost →
          exec (.laneDown port l) s = .next (s.setPort' port { o with lanes := lanes }))) ∧
      (o.st = .retrain → s.now ≤ o.since + 2100 → o.wait = [] →
        let widens (st : LinkSt) (g k : Nat) : Prop := exec (.retrainComplete port) s =
          .next ((s.setPort' port { o with st := st, grp := g, replays := o.replays + 1 }).event 0x21
            (wOf (port + k * 2 ^ 8 + portPkg s.pkgid port * 2 ^ 16)) 0 [])
        (o.full = true → (∀ k, k < 8 → o.lanes.getLsbD k = true) → widens .x8 0 8) ∧
        (o.full = true → (∃ k, k < 8 ∧ o.lanes.getLsbD k = false) → (∀ k, k < 8 → o.lanes.getLsbD (8 + k) = true) →
          widens .x8 1 8) ∧
        (o.full = false → o.grp = 0 → (∀ k, k < 8 → o.lanes.getLsbD (8 + k) = true) → widens .x8 1 8) ∧
        (o.full = false → 4 ≤ o.grp → (∀ k, k < 4 → o.lanes.getLsbD k = true) → widens .x4 0 4)) ∧
      (o.st = .retrain → o.since + 2100 < s.now → b.tx = [] → ∃ u : State, exec (.retrainTimeout port) s = .next u ∧
        (u.fport port).st = .lost ∧ (u.fport port).replay = [] ∧ u.mem = s.mem ∧ u.cores = s.cores) ∧
      (o.st = .retrain → s.now ≤ o.since + 2100 → (∀ k, k < 4 → o.lanes.getLsbD k = true) →
        exec (.retrainTimeout port) s = .next s)) ∧
    (∀ t0 t1 t2 t3 : Word,
      let off := ((t1 - t0).toInt - (t3 - t2).toInt) / 2
      (s.timeMaster = s.pkgid → exec (.timeSyncMeasure t0 t1 t2 t3) s = .next s) ∧
      (s.timeMaster ≠ s.pkgid →
        (s.slewAt = 0 → (∀ j ∈ s.jobs, s.jobValid j.1 = false) → exec (.timeSyncMeasure t0 t1 t2 t3) s =
          .next { s with slew := s.slew + BitVec.ofInt 64 off, slewTodo := 0, slewAt := max 1 s.now }) ∧
        ((∃ j ∈ s.jobs, s.jobValid j.1 = true) → exec (.timeSyncMeasure t0 t1 t2 t3) s =
          .next { s with slewTodo := off, slewAt := max 1 s.slewAt })))

/-- Collectives: `COLLST` accepts a block as the lowest free number or says which check failed; a handshake is kept
once, and the coordinator answers when it has all of them, GO only where they are equal; after GO the last step writes
every output; a collective ends with its record, its counter and its number free: R357, R451, R455, R456, R457, R458,
R460. -/
def Obligations.CollectivesComplete : Prop :=
  ∀ s : State,
    (∀ (h : Nat) (f : FmtQ), s.cur = .thread h → s.jobValid (s.hjob h) = true →
      let j := s.hjob h
      let a := (s.xr f.a).toNat
      let refused (c : Nat) : Prop := exec (.collst f) s = .next ((s.setXr f.d (wOf (2 ^ 63 + c))).retire 8 3)
      a < 2 ^ 26 → a % 128 = 0 → firstPoison s.poison (hamperBase + a) 128 = none →
      (s.collOf h j a = none → refused 1) ∧
      (s.hnum (a + 64) 64 ≠ 0 ∨ s.hnum (a + 4) 4 = 0 ∨ s.hnum (a + 28) 1 = 0 → s.collOf h j a = none) ∧
      (∀ c0, s.collOf h j a = some c0 →
        (16 ≤ (s.job j).colls.length → refused 2) ∧
        ((s.job j).colls.length < 16 → s.held j = true → refused 3) ∧
        ((s.job j).colls.length < 16 → s.held j = false →
          (c0.rank ≠ 0 ∨ (1 < c0.gsz ∧ ∀ x ∈ (s.job j).shakes, x.crc ≠ c0.crc)) →
          ∃ (u : State) (c : Coll), exec (.collst f) s = .next u ∧ u.pc = s.pc + 8 ∧
            (u.job j).colls = (s.job j).colls ++ [c] ∧ c.num < 16 ∧ (∀ x ∈ (s.job j).colls, x.num ≠ c.num) ∧
            c.op = c0.op ∧ c.count = c0.count ∧ c.d = c0.d ∧ c.go = none ∧ (f.d ≠ 0 → u.xr f.d = wOf c.num)))) ∧
    (∀ h : Handshake, s.jobValid h.job = true →
      let r := s.job h.job
      let same (x : Handshake) : Bool := decide (x.crc = h.crc ∧ x.ordinal = h.ordinal)
      ((∃ x ∈ r.shakes, x.crc = h.crc ∧ x.ordinal = h.ordinal ∧ x.rank = h.rank) → exec (.collectiveHandshake h) s = .next s) ∧
      ((∀ x ∈ r.shakes, ¬(x.crc = h.crc ∧ x.ordinal = h.ordinal ∧ x.rank = h.rank)) → s.held h.job = false →
        (s.collAt h.job h.crc h.ordinal = none →
          exec (.collectiveHandshake h) s = .next (s.setJob h.job { r with shakes := r.shakes ++ [h] })) ∧
        (∀ c, s.collAt h.job h.crc h.ordinal = some c → s.coll h.job c.num = some c → c.rank = 0 → c.go = none →
          c.gsz = ((r.shakes ++ [h]).filter same).length →
          ∃ (u : State) (ok : Bool), exec (.collectiveHandshake h) s = .next u ∧ u.coll h.job c.num = some { c with go := some ok } ∧
            (ok = true ↔ ∀ x ∈ (r.shakes ++ [h]).filter same, x.fp = c.finger ∧ x.utag = c.utag ∧ x.root.toNat = c.root)))) ∧
    (∀ (j num : Nat) (c : Coll), s.coll j num = some c →
      (c.go ≠ some true → exec (.collectiveGo j num true) s = .next s) ∧
      exec (.collectiveGo j num false) s = .next s ∧
      (c.go = some true → c.code = 0 → s.rs j = 0 → s.jobValid j = true → (s.jtime j).toNat ≤ c.d.toNat → c.ph = 5 →
        (∀ x ∈ c.acc, x ≠ none) → ∀ (i o : Word) (v : State), c.ltab = [(i, o)] → s.collWrite j c o c.acc = .inr v →
        v.jobs = s.jobs → exec (.collectiveGo j num true) s = .next (v.setColl j { c with ph := 9, res := c.acc.length })) ∧
      (s.jobValid j = true → s.held j = true → exec (.collectiveCompletion j num) s = .next s) ∧
      (s.jobValid j = false ∨ s.held j = false →
        let t := s.jtime j
        let ends (code : Nat) (det res : Word) : Prop := exec (.collectiveCompletion j num) s = .next (
          let k := s.job j
          let s1 := s.setJob j { k with
            colls := k.colls.filter (fun x => decide (x.num ≠ num))
            coord := if code = 0 ∧ c.rank = 0 ∧ 1 < c.gsz then k.coord ++ [{ c with inbox := [], acc := [] }] else k.coord }
          let q : QEntry := { word := 0, code := code, det := det, flg := c.flg, res := res }
          let s2 := if c.cfl.getLsbD 0 then s1.putBytes (hamperBase + c.crec) (recBytes q t) else s1
          let s3 := if c.cfl.getLsbD 1 then s2.bumpCtr (s.ctrBase j + c.ctr) (s.jobid j) else s2
          if c.cfl.getLsbD 2 then s3.sendDep c.dep else s3)
        (c.go = some false → ends 5 0 0) ∧
        (c.go ≠ some false →
          (c.code = 7 → ends 7 c.det 0) ∧
          (c.code = 0 → c.ph = 9 → ends 0 0 (wOf c.res)) ∧
          (c.code = 6 → c.ph = 9 → ends 6 c.det (wOf c.res)) ∧
          (c.code ≠ 7 → c.ph ≠ 9 →
            (s.jobValid j = false → ends 3 0 0) ∧
            (s.jobValid j = true → c.d.toNat < t.toNat → ends 1 0 0) ∧
            (s.jobValid j = true → t.toNat ≤ c.d.toNat → exec (.collectiveCompletion j num) s = .next s)))))

/-! ## Host, management and boot -/

/-- The mailbox: a doorbell write of 1 starts the request's command, and each of the ten commands answers with its data,
its result code and the interrupt, and has its effect: R243, R467, R471, R473, R474, R475, R476, R477, R478. -/
def Obligations.MailboxCommandsComplete : Prop :=
  ∀ s : State,
    let m := s.mgmt
    let cmd := leNat (m.req.take 2)
    let arg (i : Nat) : Nat := leNat ((m.req.drop (8 + 8 * i)).take 8)
    (∀ v : BitVec 32, (v ≠ 1 → exec (.doorbellWrite v) s = .next s) ∧
      (v = 1 → m.busy = false → 1 ≤ cmd → cmd ≤ 10 →
        exec (.doorbellWrite v) s = .next { s with mgmt := { m with busy := true } }) ∧
      (v = 1 → m.busy = true → exec (.doorbellWrite v) s = .next { s with mgmt := { m with res := 3 } })) ∧
    (m.busy = true →
      let answers (i : Instr) (res : Nat) (data : List Byte) (more : State → Prop) : Prop := ∃ u : State, exec i s = .next u ∧
        u.mgmt.busy = false ∧ u.mgmt.res = BitVec.ofNat 8 res ∧ u.mgmt.msix = m.msix ++ [(0, 0)] ∧ u.mem = s.mem ∧
        u.mgmt.resp = leBytes 2 cmd ++ leBytes 2 res ++ leBytes 4 0 ++ (data ++ List.replicate 56 0).take 56 ∧ more u
      let words (l : List Nat) : List Byte := (l.map (leBytes 8)).flatten
      let keeps (u : State) : Prop := u.cores = s.cores ∧ u.jobs = s.jobs ∧ u.hamper = s.hamper ∧ u.fab = s.fab
      (cmd = 1 → answers .ident 0 (words [0x4F4A57500004, Config.serial.toNat, m.ver.toNat, m.svn, m.fusedSvn]) keeps) ∧
      (cmd = 2 → (arg 0 = 0 → answers .read 0 ((Config.publicKey.drop (arg 1)).take 56) keeps) ∧
        (arg 0 = 1 → answers .read 0 ((Config.certificate.drop (arg 1)).take 56) keeps) ∧
        (arg 0 = 2 → answers .read 0 ((m.report.drop (arg 1)).take 56) keeps) ∧ (2 < arg 0 → answers .read 4 [] keeps)) ∧
      (cmd = 3 →
        let body := (m.req.drop 8).take 32 ++ Config.romDigest ++ m.measure ++ words [m.svn, m.fusedSvn] ++
          leBytes 8 Config.serial.toNat ++ leBytes 8 s.ccyc.toNat
        let rep := body ++ Config.falconSign (Config.shake256 body 64)
        answers .attest 0 (words [rep.length]) (fun u => keeps u ∧ u.mgmt.report = rep)) ∧
      (cmd = 4 → arg 0 < 16 → arg 1 < 32 → arg 2 < 2 → arg 3 < 2 →
        let key (b : Nat) : Nat := bankKey (arg 0) (arg 1) (arg 2) b
        answers .hbmerr 0 ((List.range 32).map (fun b => BitVec.ofNat 8 (tget 0 m.hbmErr (key b))))
          (fun u => keeps u ∧ ∀ b, b < 32 → tget 0 u.mgmt.hbmErr (key b) = if arg 3 = 1 then 0 else tget 0 m.hbmErr (key b))) ∧
      (cmd = 5 → arg 0 < 64 → arg 1 % 2 ^ 34 = 0 → arg 1 < 2 ^ 40 ∨ (0x040000000000 ≤ arg 1 ∧ arg 1 < 0x080000000000) →
        answers .window 0 (words [(tget 0 m.wbase (arg 0)).toNat])
          (fun u => keeps u ∧ tget 0 u.mgmt.wbase (arg 0) = wOf (arg 1))) ∧
      (cmd = 6 → arg 2 = 0 → (arg 0 = 0 ∧ arg 1 < 33) ∨ (arg 0 = 1 ∧ arg 1 < 20) ∨ (arg 0 = 2 ∧ arg 1 < 8) ∨
          (arg 0 = 3 ∧ arg 1 < 8) → answers .link 0 (words (s.linkWords (arg 0) (arg 1))) keeps) ∧
      (cmd = 7 → answers .commit 0 (words [max m.fusedSvn m.svn])
        (fun u => keeps u ∧ u.mgmt.fusedSvn = max m.fusedSvn m.svn)) ∧
      (cmd = 8 → 64 ≤ arg 0 → arg 0 ≤ 2 ^ 25 → answers .bootld 0 []
        (fun u => keeps u ∧ u.mgmt.offered = s.bytes (tget 0 m.wbase 0).toNat (arg 0))) ∧
      (cmd = 9 → arg 0 < 3 →
        ((arg 0 ≠ 2 ∨ s.anyTask = false) → answers .power 0 (words [m.pstate])
          (fun u => keeps u ∧ u.mgmt.pnext = some (4 * ((s.ccyc.toNat / 1050 + 1) * 1050) + arg 0))) ∧
        (arg 0 = 2 → s.anyTask = true → answers .power 2 [] (fun u => keeps u ∧ u.mgmt.pnext = m.pnext))) ∧
      (cmd = 10 → ∃ data : List Byte, data.length = 56 ∧ answers .therm 0 data keeps))

/-- The host's accesses, boot, and the events of power, cooling, the second tier and scrubbing: R243, R466, R467, R468,
R470, R471, R473, R476, R477, R478, R479. -/
def Obligations.HostAndModuleEventsComplete : Prop :=
  ∀ s : State,
    let m := s.mgmt
    (∀ (f off k : Nat) (data : List Byte), f < 64 → off + data.length ≤ 2 ^ 34 → off < 2 ^ 34 →
      let a := (tget 0 m.wbase f).toNat + off
      let st : CplSt := if (firstPoison s.poison a data.length).isSome then .poisoned else .ok
      (s.hostDenied f .r = false → s.refuses (midHost f) a data.length .r = none →
        exec (.hostWindowAccess f off false data) s =
          .next { s with mgmt := { m with cpl := some (st, s.bytes a data.length) } }) ∧
      (s.hostDenied f .r = true →
        exec (.hostWindowAccess f off false data) s = .next { s with mgmt := { m with cpl := some (.abort, []) } }) ∧
      (s.hostDenied f .w = false → s.refuses (midHost f) a data.length .w = none → a + data.length ≤ 2 ^ 40 →
        (∀ b, poisonedByte s.poison b = false) → ∃ u : State, exec (.hostWindowAccess f off true data) s = .next u ∧
          memRead u.mem a data.length = data ∧ s.sameMemoryOutside u a data.length ∧ u.mgmt = m ∧ u.cores = s.cores) ∧
      (64 ≤ k → exec (.hostWindowAccess k off true data) s = .next s)) ∧
    (∀ (f page off : Nat) (data : List Byte), f < 64 → page < 1024 → s.hostDenied f .w = false → 0x800 ≤ off →
      off + data.length ≤ 0x1000 → ∃ u : State, exec (.queuePageWrite f page off data) s = .next u ∧
        memRead u.mem (pageBase page + off) data.length = data ∧ s.sameMemoryOutside u (pageBase page + off) data.length) ∧
    (∀ (f page : Nat) (t : BitVec 32), f < 64 → page < 1024 → s.hostDenied f .w = false →
      let s1 : State := { s with mgmt := { m with tails := tset 0 m.tails page t } }
      exec (.queuePageWrite f page 0 (leBytes 4 t.toNat)) s = exec (.tailWrite page t) s1) ∧
    (∀ d, m.due.find? (fun x => decide (x.1 = d.1)) = some d → tget 0 m.owner d.1 ≠ 0 →
      let sent : List (Nat × Nat) := m.msix ++ [(tget 0 m.owner d.1 - 1, d.2)]
      exec (.vecStoreMsix d.1) s = .next { s with mgmt := { m with due := m.due.erase d, msix := sent } }) ∧
    (∀ v, m.pnext = some v → (s.ccyc.toNat < v / 4 → exec .powerStateChange s = .next s) ∧
      (v / 4 ≤ s.ccyc.toNat → (v % 4 ≠ 2 ∨ s.anyTask = false) →
        exec .powerStateChange s = .next { s with mgmt := { m with pnext := none, pstate := v % 4 } })) ∧
    (∀ share watts, share < 8 → ∃ u : State, exec (.powerMeasure share watts) s = .next u ∧
      tget 0 u.mgmt.watts share = watts ∧ u.mem = s.mem ∧ u.cores = s.cores ∧
      (watts < 230 → tget 1050 u.mgmt.dieCeil share = 1050) ∧
      (230 ≤ watts → 525 ≤ tget 1050 u.mgmt.dieCeil share ∧ tget 1050 u.mgmt.dieCeil share ≤ 1050)) ∧
    (∀ temp, (temp < 105 ∨ 105 ≤ m.temp) →
      let hot : Bool := if 95 ≤ temp then true else if temp < 90 then false else m.hot
      let off : Bool := m.off || decide (115 ≤ temp)
      exec (.thermalThreshold temp) s = .next { s with mgmt := { m with temp := temp, hot := hot, off := off } }) ∧
    (∀ port, port < 8 →
      let s1 : State := { s with mgmt := { m with cxlDown := tset false m.cxlDown port true } }
      exec (.cxlLinkDownAccess port) s = .next (s1.event 0x22 (wOf (40 + port)) 0 [])) ∧
    (∀ g, 32 * g < 2 ^ 40 →
      exec (.scrubbing g false) s = .next { s with poison := poisonGranule s.poison (32 * g) } ∧
      ∃ (u : State) (k : Nat), exec (.scrubbing g true) s = .next u ∧ u.mem = s.mem ∧ u.poison = s.poison ∧ k / 2048 = 32 * g / 2 ^ 36 ∧
        u.mgmt.hbmErr = tset 0 m.hbmErr k (min 255 (tget 0 m.hbmErr k + 1))) ∧
    (let o := bootImage (if m.offered = [] then Config.flash else m.offered) m.fusedSvn
     (∀ k, o = .inl k → ∃ u : State, exec .deviceReset s = .next u ∧ u.mgmt.boot = BitVec.ofNat 8 (0x40 + k) ∧
       u.mgmt.up = false ∧ u.mem = [] ∧ u.cores = [] ∧ u.jobs = [] ∧ u.hamper = {}) ∧
     (∀ code d ver svn, o = .inr (code, d, ver, svn) → code.length ≤ 16506880 → ∃ u : State, exec .deviceReset s = .next u ∧
       u.mgmt.up = true ∧ u.mgmt.boot = 0 ∧ u.mgmt.measure = d ∧ u.mgmt.svn = svn ∧ u.mgmt.fusedSvn = m.fusedSvn ∧
       u.cores = [] ∧ u.jobs = [] ∧ memRead u.mem (hamperBase + 0x42000) code.length = code ∧
       memNat u.mem hamperBase 4 = 0x0004206F ∧ ∀ h, (u.thread h).pc = 0))

/-! ## Contexts, kills and containment -/

/-- The context instructions of a supervisor and the units that carry them out: `CTXSWAP` exchanges the banks of
another core or says which check failed; the exchange completes 48 cycles later at the earliest and leaves no byte of
another job; `CTXLOAD` and `CTXSAVE` start the Darner and wait, and its completion fills, keeps or empties the bank and
answers; a job stops at Ts and goes on at Tr; `TKILL` ends a task: R398, R401, R402, R404, R405, R407, R409, R415, R416. -/
def Obligations.ContextsComplete : Prop :=
  ∀ s : State,
    (∀ n : Nat, s.cur = .core n → (s.fg n).ident.desc.sup = true → (s.core n).stepping = none →
      let done (v : State) (d : BitVec 5) (w : Word) : Host.Outcome State Fault Refusal := .next ((v.setXr d w).retire 8 4)
      (∀ f : FmtQ,
        let t := coreNum (n / 256) ((s.xr f.a).toNat % 256)
        let xb := s.xr f.b
        let k := s.core t
        let idle : Prop := k.shSt = .empty ∨ k.shSt = .held
        let image : Bool := decide (xb.toNat % 64 = 0 ∧ xb.toNat / 2 ^ 45 = s.pkgid) &&
          (decide (memKind (xb.toNat % 2 ^ 45) = .hbm) || decide (memKind (xb.toNat % 2 ^ 45) = .cxl))
        let out : Option Ctx := if k.busy then
            some { k.fg with ihome := xb, tdirty := if k.fg.ihome ≠ xb then BitVec.ofNat 8 k.fg.tmask else k.fg.tdirty }
          else none
        let after : State := s.setCore t { k.noCredit s.frameNow with
          busy := k.sh.isSome, fg := k.sh.getD {}, sh := out, shSt := if k.busy then .held else .empty, exch := some s.now }
        (k.shSt = .loading ∨ k.shSt = .saving → exec (.ctxswap f) s = done s f.d 1) ∧
        (idle → t = n ∨ k.retired = true → exec (.ctxswap f) s = done s f.d 2) ∧
        (idle → t ≠ n → k.retired = false →
          (k.busy = true → s.rs k.fg.ident.job = 0 → exec (.ctxswap f) s = done s f.d 3) ∧
          (k.busy = true → s.rs k.fg.ident.job ≠ 0 → s.trafficAt t = true → exec (.ctxswap f) s = done s f.d 4) ∧
          (k.busy = true → s.rs k.fg.ident.job ≠ 0 → s.trafficAt t = false → image = false →
            exec (.ctxswap f) s = done s f.d 5) ∧
          (k.busy = true → s.rs k.fg.ident.job ≠ 0 → s.trafficAt t = false → image = true → k.exch = none →
            exec (.ctxswap f) s = done after f.d 0) ∧
          (k.busy = false → k.exch = none → exec (.ctxswap f) s = done after f.d 0))) ∧
      (∀ f : FmtQ,
        let t := coreNum (n / 256) ((s.xr f.a).toNat % 256)
        let k := s.core t
        let hit : Prop := k.busy = true ∧ k.fg.ident.job = (s.fg n).ident.job ∧
          k.fg.ident.taskid.toNat = (s.xr f.b).toNat % 2 ^ 32
        (¬hit → exec (.tkill f) s = done s f.d 1) ∧
        (hit → t = n → exec (.tkill f) s = done s f.d 2) ∧
        (hit → t ≠ n → ∃ v : State, exec (.tkill f) s = done v f.d 0 ∧ (v.core t).busy = false ∧ (v.core t).fg = {})) ∧
      (∀ f : FmtD,
        let t := coreNum (n / 256) ((s.xr f.a).toNat % 256)
        let k := s.core t
        let home := s.xr f.b
        let ends (i : Instr) (detail : Nat) : Prop := exec i s = .next (s.finishD n f.st f.x (s.fg n).pc 4 detail)
        let inTime : Prop := s.agentTime.toNat ≤ (deadlineAt s.agentTime (s.xr f.dl)).toNat
        (∀ i, i ∈ [.ctxload f, .ctxsave f, .ctxsaveKeep f] → k.retired = true → ends i 1) ∧
        (k.retired = false →
          (k.shSt ≠ .empty → ends (.ctxload f) 2) ∧
          (k.shSt = .empty → s.imgPlace home = false → ends (.ctxload f) 3) ∧
          (k.shSt = .empty → s.imgPlace home = true → s.readImage t home = .invalid → ends (.ctxload f) 4) ∧
          (k.shSt = .empty → s.imgPlace home = true → s.readImage t home ≠ .invalid → inTime →
            ∃ u : State, exec (.ctxload f) s = .next u ∧ (u.core t).shSt = .loading ∧ (u.core t).shImg = home ∧ u.mem = s.mem ∧
              (u.fg n).pc = (s.fg n).pc ∧ ∃ w : Wait, (u.fg n).wait = some w ∧ w.instr = .ctxload f ∧ w.a = s.xr f.a ∧ w.ans = none) ∧
          (k.shSt ≠ .held → ends (.ctxsave f) 2 ∧ ends (.ctxsaveKeep f) 2) ∧
          (∀ c, k.shSt = .held → k.exch = none → k.sh = some c →
            (c.imgBad = true → ends (.ctxsave f) 5 ∧ ends (.ctxsaveKeep f) 5) ∧
            (c.imgBad = false → inTime →
              let saves (i : Instr) (keep : Bool) : Prop := ∃ u : State, exec i s = .next u ∧ (u.core t).shSt = .saving ∧
                (u.core t).shKeep = keep ∧ (u.core t).sh = some c ∧ (u.fg n).pc = (s.fg n).pc ∧
                (∃ w : Wait, (u.fg n).wait = some w ∧ w.instr = i ∧ w.a = s.xr f.a ∧ w.ans = none) ∧
                s.sameMemoryOutside u (imgAt c.ihome 0) 4 ∧
                (s.refuses (midDarner t) (imgAt c.ihome 0) 64 .w = none → memNat u.mem (imgAt c.ihome 0) 4 = 0)
              saves (.ctxsave f) false ∧ saves (.ctxsaveKeep f) true))))) ∧
    (∀ (f : FmtD) (n : Nat) (w : Wait),
      (∀ bs, w.ans = some (.data bs) → ctxTest f s n w = some (s.finishD n f.st f.x w.pc 0 (leNat bs))) ∧
      (∀ c, w.ans = some (.refused c) → ctxTest f s n w = some (s.finishD n f.st f.x w.pc 7 c.toNat)) ∧
      (∀ d, w.ans = some (.poison d) → ctxTest f s n w = some (s.finishD n f.st f.x w.pc 6 d.toNat)) ∧
      (w.ans = none → ctxTest f s n w = none)) ∧
    (∀ t : Nat, let k := s.core t
      (k.exch = none → exec (.contextExchangeComplete t) s = .next s) ∧
      (∀ c, k.exch = some c →
        (s.now < c + 48 → exec (.contextExchangeComplete t) s = .next s) ∧
        (c + 48 ≤ s.now → k.sh = none →
          (k.busy = false → exec (.contextExchangeComplete t) s = .next (s.setCore t { k with exch := none })) ∧
          (k.busy = true → k.fg.dirty = 0 → k.fg.jmask = 0 → some k.fg.ident.job ≠ k.sjob → (s.job k.fg.ident.job).gang = none →
            ∃ u : State, exec (.contextExchangeComplete t) s = .next u ∧ (u.core t).exch = none ∧ (u.core t).sh = none ∧
              (u.core t).sjob = some k.fg.ident.job ∧ (∀ off, off < 2 ^ 19 → memByte u.mem (spadKey t off) = 0) ∧
              s.sameMemoryOutside u (spadKey t 0) (2 ^ 19) ∧
              (s.rs k.fg.ident.job = 0 → k.fg.stop = some .preempt → (u.fg t).stop = none)))) ∧
      (k.shSt = .loading →
        (∀ c, s.readImage t k.shImg = .ok c → ∃ u : State, exec (.contextFillComplete t) s = .next u ∧ (u.core t).shSt = .held ∧
          (u.core t).sh = some c ∧ u.mem = s.mem ∧
          (∀ m w, (s.setCore t { k with shSt := .held, sh := some c }).ctxWaiter t = some m → (s.fg m).wait = some w →
            (u.fg m).wait = some { w with ans := some (.data []) })) ∧
        (∀ d, s.readImage t k.shImg = .refused ∨ s.readImage t k.shImg = .poison d ∨ s.readImage t k.shImg = .invalid →
          ∃ u : State, exec (.contextFillComplete t) s = .next u ∧ (u.core t).shSt = .empty ∧ (u.core t).sh = k.sh ∧ u.mem = s.mem)) ∧
      (k.shSt ≠ .loading → exec (.contextFillComplete t) s = .next s) ∧
      (∀ c, k.shSt = .saving → k.sh = some c →
        (∀ e, s.refuses (midDarner t) (imgAt c.ihome 0) 64 .w = some e → ∃ u : State,
          exec (.contextSaveComplete t) s = .next u ∧ (u.core t).shSt = .held ∧ (u.core t).sh = some c ∧ u.mem = s.mem) ∧
        (s.refuses (midDarner t) (imgAt c.ihome 0) 64 .w = none → ∃ u : State, exec (.contextSaveComplete t) s = .next u ∧
          memNat u.mem (imgAt c.ihome 0) 4 = 1 ∧ memNat u.mem (imgAt c.ihome 8) 4 = c.ident.taskid.toNat ∧
          memNat u.mem (imgAt c.ihome 16) 16 = c.dirty.toNat ∧
          (k.shKeep = true → (u.core t).shSt = .held ∧ (u.core t).sh = some { c with tdirty := 0 }) ∧
          (k.shKeep = false → (u.core t).shSt = .empty ∧ (u.core t).sh = none))) ∧
      (k.shSt ≠ .saving → exec (.contextSaveComplete t) s = .next s)) ∧
    (∀ j : Nat, let r := s.job j
      let frozenBy (u : State) (why : Stop) : Prop := ∀ m, (s.core m).busy = true → (s.fg m).ident.job = j → (s.fg m).stop = none →
        (u.fg m).stop = some why ∧ (u.fg m).pc = (s.fg m).pc ∧ (u.fg m).rcd = (s.fg m).rcd ∧ (u.fg m).regs = (s.fg m).regs
      (r.ts = none → exec (.jobStopInstant j) s = .next s) ∧
      (∀ ts, r.ts = some ts →
        (s.ccyc.toNat < ts.toNat → exec (.jobStopInstant j) s = .next s) ∧
        (ts.toNat ≤ s.ccyc.toNat → s.rs j ≠ 0 → exec (.jobStopInstant j) s = .next (s.setJob j { r with ts := none })) ∧
        (ts.toNat ≤ s.ccyc.toNat → s.rs j = 0 → ∃ u : State, exec (.jobStopInstant j) s = .next u ∧ u.rs j = 2 ∧
          (u.job j).ts = none ∧ (u.job j).stopped = ts - r.base ∧ frozenBy u .preempt ∧
          (∀ m, (s.core m).busy = false ∨ (s.fg m).ident.job ≠ j ∨ (s.fg m).stop ≠ none → u.core m = s.core m) ∧
          s.sameMemoryOutside u (hamperBase + 64 * j + 14) 1)) ∧
      (r.gang = none → exec (.gangResumeInstant j) s = .next s ∧ exec (.gangGraceExpiry j) s = .next s) ∧
      (∀ tr g, r.gang = some (tr, g) →
        (s.ccyc.toNat < tr.toNat ∨ s.rs j ≠ 2 → exec (.gangResumeInstant j) s = .next s) ∧
        (tr.toNat ≤ s.ccyc.toNat → s.rs j = 2 → (∀ x ∈ s.hamper.trg, x.2.st ≠ .held) → ∃ u : State,
          exec (.gangResumeInstant j) s = .next u ∧ u.rs j = 0 ∧ (u.job j).base = tr - r.stopped ∧
          s.sameMemoryOutside u (hamperBase + 64 * j + 14) 1 ∧
          (∀ m, (s.core m).busy = true → (s.fg m).ident.job = j → (s.fg m).stop = some .preempt → (s.core m).exch = none →
            (u.fg m).stop = none ∧ (u.fg m).regs = (s.fg m).regs)) ∧
        (s.rs j ≠ 0 ∨ s.isFirst j = false ∨ s.ccyc.toNat < tr.toNat + g.toNat ∨ r.late = [] →
          exec (.gangGraceExpiry j) s = .next s) ∧
        (s.rs j = 0 → s.isFirst j = true → tr.toNat + g.toNat ≤ s.ccyc.toNat → r.late ≠ [] → ∃ u : State,
          exec (.gangGraceExpiry j) s = .next u ∧ (u.job j).gang = none ∧ (u.job j).ts = some (tr + g + 2048) ∧
          u.cores = s.cores ∧ u.mem = s.mem)))

/-- Containment: a frozen core's fault goes to the lowest level of its policy that absorbs it; a Retry of the core
level, twice at most, runs it again from its cut; a kill ends its task; where no level absorbs it the job's first
package halts the job, and any other package asks it; an idle core that fails is replaced by a spare without a byte of
what it held, or withdrawn: R389, R390, R391, R392, R395. -/
def Obligations.ContainmentCompletes : Prop :=
  ∀ (s : State) (n : Nat),
    let k := s.core n
    let c := s.fg n
    let i := c.ident
    let code (lv : Nat) : Nat := i.desc.policy.toNat / 4 ^ lv % 4
    let used := tget 0 s.sch.retries (retryKey i (n / 256) 0 n)
    (k.busy = false ∨ c.stop ≠ some .containment ∨ k.asked = true ∨ k.exch.isSome = true →
      exec (.containmentDecision n) s = .next s) ∧
    (k.busy = true → c.stop = some .containment → k.asked = false → k.exch = none →
      (code 0 = 1 → used < 2 → s.rs i.job = 0 → ∃ u : State, exec (.containmentDecision n) s = .next u ∧ (u.fg n).stop = none ∧
        (u.fg n).pc = c.pc ∧ (u.fg n).regs = c.regs ∧ wfld (u.fg n).rcd.cw 18 16 = 0 ∧ (u.fg n).rcd.cval = c.rcd.cval ∧
        tget 0 u.sch.retries (retryKey i (n / 256) 0 n) = used + 1 ∧ u.mem = s.mem) ∧
      (code 0 = 2 → ∃ u : State, exec (.containmentDecision n) s = .next u ∧ (u.core n).busy = false ∧ (u.fg n) = {}) ∧
      ((∀ lv, lv < 7 → code lv = 0) →
        (s.isFirst i.job = true → (s.job i.job).ph = .run → ∃ u : State, exec (.containmentDecision n) s = .next u ∧
          (u.fg n).stop = some .haltWave ∧ (u.job i.job).ph = .freezing ∧ u.rs i.job = 1 ∧
          (u.job i.job).origins = [(originWord (wfld c.rcd.cw 7 0) s.podid.toNat s.pkgid false (coreUnit n), c.rcd.cjt)]) ∧
        (s.isFirst i.job = false → ∃ u : State, exec (.containmentDecision n) s = .next u ∧ (u.core n).asked = true ∧
          u.fg n = c ∧ u.mem = s.mem))) ∧
    (k.busy = true ∨ k.shSt ≠ .empty ∨ k.exch.isSome = true ∨ k.retired = true → exec (.spareCoreRemap n) s = .next s) ∧
    (k.busy = false → k.shSt = .empty → k.exch = none → k.retired = false →
      (tget 0 s.spares (n / 256) < 4 → ∃ u : State, exec (.spareCoreRemap n) s = .next u ∧ u.core n = {} ∧
        tget 0 u.spares (n / 256) = tget 0 s.spares (n / 256) + 1 ∧
        (∀ off, off < 2 ^ 19 → memByte u.mem (spadKey n off) = 0) ∧ s.sameMemoryOutside u (spadKey n 0) (2 ^ 19) ∧
        (∀ m, m ≠ n → u.core m = s.core m)) ∧
      (4 ≤ tget 0 s.spares (n / 256) → exec (.spareCoreRemap n) s = .next (s.setCore n { k with retired := true })))

/-! ## Halts -/

/-- The halt wave and what follows it: a wave freezes every core of its job, each with cause 0x0D, stops Job Time and
keeps its origin; reports settle one cause record at the job's first package; `HCAUSE` reads it; `HSTEP` runs one frozen
core for a step; `HRESUME` arms an instant, at which the job runs again: R437, R438, R440, R442, R443, R444, R445, R446,
R447, R448, R449, R450. -/
def Obligations.HaltsComplete : Prop :=
  ∀ s : State,
    (∀ (j : Nat) (o jt : Word) (own : Bool), let r := s.job j
      let u := s.takeWave j o jt own
      (r.ph = .run →
        (u.job j).ph = .freezing ∧ (u.job j).stopped = s.jtime j ∧ (u.job j).origins = [(o, jt)] ∧ (u.job j).gang = none ∧
        (u.job j).ts = none ∧ (u.job j).settled = false ∧ u.rs j = 1 ∧ s.sameMemoryOutside u (hamperBase + 64 * j + 14) 1 ∧
        (∀ m, (s.core m).busy = true → (s.fg m).ident.job = j → (s.fg m).stop = none →
          let d := u.fg m
          d.stop = some .haltWave ∧ d.pc = (s.fg m).pc ∧ d.regs = (s.fg m).regs ∧ d.rcd.cpc = (s.fg m).pc ∧
            d.rcd.cval = o ∧ d.rcd.cw = wOf (0x0D + 7 * 2 ^ 16)) ∧
        (∀ m, (s.core m).busy = false ∨ (s.fg m).ident.job ≠ j ∨ (s.fg m).stop ≠ none → u.core m = s.core m)) ∧
      (r.ph ≠ .run → (r.origins.contains (o, jt) = true → u = s) ∧ (r.origins.contains (o, jt) = false →
        u = s.setJob j { r with origins := insertOrigin (o, jt) r.origins })) ∧
      (s.jobValid j = true → exec (.haltWaveArrival j o jt) s = .next (s.takeWave j o jt false)) ∧
      (s.jobValid j = false → exec (.haltWaveArrival j o jt) s = .next s)) ∧
    (∀ (n : Nat) (f : FmtQ), s.cur = .core n → (s.fg n).ident.desc.sup = true →
      let jid := (s.xr f.a).toNat % 2 ^ 32
      let done (w : Word) : State := (s.setXr f.d w).retire 8 60
      let has (j : Nat) : Prop := ∃ c ∈ s.cores, c.2.busy = true ∧ c.2.fg.ident.job = j
      ((∀ j, s.slotOf jid = some j → ¬has j) → exec (.hreq f) s = .next (done 0x8000000000000001)) ∧
      (∀ j, s.slotOf jid = some j → has j →
        ((s.job j).ph ≠ .run → exec (.hreq f) s = .next (done 0x8000000000000002)) ∧
        ((s.job j).ph = .run → exec (.hreq f) s = .next ((done 0).takeWave j
          (originWord 0x0D s.podid.toNat s.pkgid false (coreUnit n)) (s.jtime j) true)))) ∧
    (∀ h : Nat, s.cur = .thread h → s.jobValid (s.hjob h) = true → ∀ f : FmtQ,
      let j := s.hjob h
      let r := s.job j
      let done (v : State) (w : Word) : State := (v.setXr f.d w).retire 8 4
      let n := coreNum (wfld (s.xr f.a) 11 8) (wfld (s.xr f.a) 7 0)
      let k := s.core n
      let here : Prop := k.busy = true ∧ k.fg.ident.job = j
      (r.ph ≠ .run → exec (.haltgo f) s = .next (done s 0x8000000000000001)) ∧
      (r.ph = .run → exec (.haltgo f) s = .next ((done s 0).takeWave j
        (originWord 0x0D s.podid.toNat s.pkgid true h) (s.jtime j) true)) ∧
      (r.ph = .run → exec (.hcause f) s = .next (done s 0)) ∧
      (∀ o l, r.ph ≠ .run → r.origins = o :: l →
        (f.imm.toNat % 16 = 0 → exec (.hcause f) s = .next (done s (wOf (1 + (if r.settled then 2 else 0) + wfld o.1 63 56 * 2 ^ 8 +
          min (l.length + r.more) 65535 * 2 ^ 16 + min l.length 8 * 2 ^ 32)))) ∧
        (f.imm.toNat % 16 = 1 → exec (.hcause f) s = .next (done s o.1)) ∧
        (f.imm.toNat % 16 = 2 → exec (.hcause f) s = .next (done s o.2)) ∧
        (f.imm.toNat % 16 = 3 → exec (.hcause f) s = .next (done s (if r.settled then r.jz else 0))) ∧
        (∀ q x, l[q]? = some x → q < 8 → f.imm.toNat % 16 = q + 4 → exec (.hcause f) s = .next (done s x.1))) ∧
      (here → k.fg.regs.pois = [] → exec (.hcauseCore f) s =
        .next ((s.setXr f.d (k.fg.rcd.field (f.imm.toNat % 16))).retire 8 20)) ∧
      (¬here → exec (.hcauseCore f) s = .next ((s.setXr f.d 0xFFFFFFFFFFFFFFFF).retire 8 20)) ∧
      (r.ph = .run ∨ r.ph = .freezing ∨ r.settled = false → exec (.hstep f) s = .next (done s 0x8000000000000001)) ∧
      (r.ph = .frozen ∨ r.ph = .armed → r.settled = true →
        (¬here → exec (.hstep f) s = .next (done s 0x8000000000000002)) ∧
        (here → k.stepping.isSome = true → exec (.hstep f) s = .next (done s 0x8000000000000003)) ∧
        (here → k.stepping = none → r.ph = .armed → exec (.hstep f) s = .next (done s 0x8000000000000004)) ∧
        (here → k.stepping = none → r.ph = .frozen → ∃ v : State, exec (.hstep f) s = .next (done v 0) ∧
          (v.core n).stepping = some (f.imm.toNat % 8, k.fg.stop.getD .haltWave) ∧ (v.core n).stepRes = none ∧
          (v.fg n).stop = none ∧ (v.fg n).regs = k.fg.regs ∧ v.mem = s.mem ∧ (∀ m, m ≠ n → v.core m = s.core m) ∧
          (v.fg n).pc = (if k.fg.rcd.cw.getLsbD 20 then k.fg.pc + wOf k.fg.bpkLen else k.fg.pc))) ∧
      (let tr := s.xr f.a
        let soon : Prop := tr.toNat < s.ccyc.toNat + (if (s.jobFar j).isEmpty then 4096 else 65536)
        let steps : Prop := ∃ c ∈ s.cores, c.2.stepping.isSome = true ∧ c.2.fg.ident.job = j
        (r.ph = .run → exec (.hresume f) s = .next (done s 0x8000000000000001)) ∧
        (r.ph ≠ .run → r.settled = false → exec (.hresume f) s = .next (done s 0x8000000000000002)) ∧
        (r.ph ≠ .run → r.settled = true → s.isFirst j = false → exec (.hresume f) s = .next (done s 0x8000000000000003)) ∧
        (r.ph ≠ .run → r.settled = true → s.isFirst j = true →
          (soon → exec (.hresume f) s = .next (done s 0x8000000000000004)) ∧
          (¬soon → steps → exec (.hresume f) s = .next (done s 0x8000000000000005)) ∧
          (¬soon → ¬steps → ∃ v : State, exec (.hresume f) s = .next (done v r.jz) ∧ (v.job j).ph = .armed ∧
            (v.job j).tr = tr ∧ (v.job j).jz = r.jz ∧ v.cores = s.cores ∧ v.mem = s.mem)))) ∧
    (∀ n : Nat, let k := s.core n
      (k.stepping = none ∨ k.stepRes = none → exec (.stepEnd n) s = .next s) ∧
      (∀ why (r cause : Nat), r < 256 → cause < 256 → k.stepping = some (0, why) → k.stepRes = some (r, BitVec.ofNat 8 cause) →
        exec (.stepEnd n) s = .next ((s.setCore n { k with stepping := none, stepRes := none, fg := s.freezeCtx k.fg why }).event
          0x23 (wOf (r + cause * 2 ^ 8 + n % 4096 * 2 ^ 32)) (s.jobid k.fg.ident.job) []))) ∧
    (∀ j : Nat, let r := s.job j
      let key := s.podid.toNat * 2048 + s.pkgid
      let still : Prop := ∀ c ∈ s.cores, c.2.busy = true → c.2.fg.ident.job = j → c.2.fg.stop ≠ none
      let keys := (r.pkgs ++ [(s.podid.toNat, s.pkgid)]).map pkgKey
      (r.ph ≠ .freezing ∨ ¬still → exec (.haltReport j) s = .next s) ∧
      (r.ph = .freezing → still → s.fab.tx = [] → s.fab.out = [] → s.isFirst j = true → (∀ x ∈ r.reports, x.1 ≠ key) →
        exec (.haltReport j) s = .next (s.setJob j { r with ph := .frozen, reports := r.reports ++ [(key, r.stopped)] })) ∧
      (r.ph = .freezing → still → s.fab.tx = [] → s.fab.out = [] → s.isFirst j = false → ∃ u : State,
        exec (.haltReport j) s = .next u ∧ (u.job j).ph = .frozen ∧ (u.job j).reports = r.reports ∧ u.cores = s.cores) ∧
      (s.isFirst j = false ∨ r.ph ≠ .frozen ∨ r.settled = true ∨ (∃ p ∈ keys, ∀ x ∈ r.reports, x.1 ≠ p) →
        exec (.causeRecordSettle j) s = .next s) ∧
      (s.isFirst j = true → r.ph = .frozen → r.settled = false → (∀ p ∈ keys, ∃ x ∈ r.reports, x.1 = p) → ∃ u : State,
        exec (.causeRecordSettle j) s = .next u ∧ (u.job j).settled = true ∧ (u.job j).ph = .frozen ∧
        (∀ x ∈ r.reports, x.2.toNat ≤ (u.job j).jz.toNat) ∧ (∃ x ∈ r.reports, x.2 = (u.job j).jz) ∧ u.cores = s.cores) ∧
      (∀ tr jz : Word,
        (r.ph ≠ .frozen ∨ r.settled = false → exec (.resumeWaveArrival j tr jz) s = .next s) ∧
        (r.ph = .frozen → r.settled = true →
          let armed : State := s.setJob j { r with ph := .armed, tr := tr, jz := jz }
          (s.ccyc.toNat ≤ tr.toNat → exec (.resumeWaveArrival j tr jz) s = .next armed) ∧
          (tr.toNat < s.ccyc.toNat → ∃ u : State, exec (.resumeWaveArrival j tr jz) s = .next u ∧ u.jobs = armed.jobs ∧
            u.cores = s.cores ∧ u.mem = s.mem))) ∧
      (r.ph ≠ .armed ∨ s.ccyc.toNat < r.tr.toNat → exec (.resumeInstant j) s = .next s) ∧
      (r.ph = .armed → r.tr.toNat ≤ s.ccyc.toNat → (∀ x ∈ s.hamper.trg, x.2.st ≠ .held) → ∃ u : State,
        exec (.resumeInstant j) s = .next u ∧ (u.job j).ph = .run ∧ (u.job j).base = r.tr - r.jz ∧ (u.job j).origins = [] ∧
        u.rs j = 0 ∧ s.sameMemoryOutside u (hamperBase + 64 * j + 14) 1 ∧
        (∀ m, (s.core m).busy = true → (s.fg m).ident.job = j → (s.fg m).stop = some .haltWave → (s.core m).exch = none →
          (u.fg m).stop = none ∧ (u.fg m).regs = (s.fg m).regs)))

/-! ## Encodings -/

/-- Words written out from the formats and the opcode maps decode to the instructions they stand for, one of each class,
and a reserved major op, a reserved field and a reserved class decode to nothing: R14, R79, R81, R82, R83, R87, R88,
R89, R90, R91, R92. -/
def Obligations.WordsDecodeAsTheMapsSay : Prop :=
  (decode64 0x000000A58000043F 0 =
    some (.sleepu { wait := 0, sig := 0, x := false, aux := 0, st := 10, dl := 11, b := 0, a := 0, d := 0 })) ∧
  (decode64 0x05069580082404BF 0 = some (.vadd ⟨5, 6, 18, true, 3, 0, false, 0, 2, 1, 4⟩)) ∧
  (decode64 0x050608401062053F 0 =
    some (.mmaAcc { wait := 5, sig := 6, fa := 1, fb := 1, fm := 0, aux := 0, b := 4, a := 3, t := 2 })) ∧
  (decode64 0x08090901000005BF (1 + 2 * 2 ^ 64 + 3 * 2 ^ 128 + 4 * 2 ^ 320 + 5 * 2 ^ 384) = 
    some (.copy ⟨{ wait := 8, sig := 9, cr := true, dc := false, eng := 1, fl := 1, aux := 0 }, 1, 2, 3, 4, 5⟩)) ∧
  (decode64 0x00000EC6AD4E063F 0 =
    some (.nrecv { wait := 0, sig := 0, x := false, aux := 7, st := 12, dl := 13, b := 11, a := 10, d := 14 })) ∧
  (decode64 0x000000002D4C06BF 0 =
    some (.ctxswap { wait := 0, sig := 0, imm := 0, c := 0, b := 11, a := 10, d := 12 })) ∧
  (decodeBytes [0x93, 0x00, 0xF1, 0xFF] = some (.rv64IntegerOp (.imm .addi 1 2 0xFFF) .w32, 4)) ∧
  (decodeBytes [0x02, 0x90] = some (.cEbreak, 2)) ∧
  decode64 0x000000000000003F 0 = none ∧ decode64 0x010000A58000043F 0 = none ∧ decode64 0x000000000000073F 0 = none

/-- Decoding an encoded instruction gives it back, at every value of every operand that its fields admit, whatever
bytes follow: every instruction of every class, and a Hamper thread's loads and stores as a thread reads them.  The
three kinds of `JCFG` share one word, which the kind in `xb` tells apart when it runs (R358): R78, R79, R82, R83, R93, R94. -/
def Obligations.DecodingInvertsEncoding : Prop :=
  ∀ (i : Instr) (rest : List Byte), i.wf = true → encode i ≠ [] →
    let bs := encode i ++ rest
    match i with
    | .jcfgWindowTemplate f => decodeBytes bs = some (.jcfgHandle f, 8)
    | .jcfgWindowContext f => decodeBytes bs = some (.jcfgHandle f, 8)
    | .hamperScalarAccess _ _ _ _ _ _ => decodeThread bs = some (i, (encode i).length)
    | _ => decodeBytes bs = some (i, (encode i).length)
end

