-- ==== Sys2Proof/Laws/Coding.lean ====
section
/-! SUPPORT. The fields of an encoded word read back: each format's reader takes what its writer laid down. -/

namespace Sys2Proof

/-! ## Slices of a concatenation -/

theorem slice_hi {a b : Nat} (x : BitVec a) (y : BitVec b) (lo k : Nat) (h : b ≤ lo) :
    (x ++ y).extractLsb' lo k = x.extractLsb' (lo - b) k := by
  apply BitVec.eq_of_getLsbD_eq
  intro i hi
  simp only [BitVec.getLsbD_extractLsb', BitVec.getLsbD_append, hi, decide_true, Bool.true_and]
  rw [if_neg (by omega), show lo + i - b = lo - b + i by omega]

theorem slice_lo {a b : Nat} (x : BitVec a) (y : BitVec b) (lo k : Nat) (h : lo + k ≤ b) :
    (x ++ y).extractLsb' lo k = y.extractLsb' lo k := by
  apply BitVec.eq_of_getLsbD_eq
  intro i hi
  simp only [BitVec.getLsbD_extractLsb', BitVec.getLsbD_append, hi, decide_true, Bool.true_and]
  rw [if_pos (by omega)]

theorem slice_all {w : Nat} (x : BitVec w) : x.extractLsb' 0 w = x := by
  apply BitVec.eq_of_getLsbD_eq
  intro i hi
  simp [hi]

theorem bit_hi {a b : Nat} (x : BitVec a) (y : BitVec b) (i : Nat) (h : b ≤ i) : (x ++ y).getLsbD i = x.getLsbD (i - b) := by
  rw [BitVec.getLsbD_append, if_neg (by omega)]

theorem bit_lo {a b : Nat} (x : BitVec a) (y : BitVec b) (i : Nat) (h : i < b) : (x ++ y).getLsbD i = y.getLsbD i := by
  rw [BitVec.getLsbD_append, if_pos h]

theorem bit_ofBool (b : Bool) : (BitVec.ofBool b).getLsbD 0 = b := by cases b <;> rfl

/-! ## The formats -/

theorem getV_putV (f : FmtV) (m : Nat) : getV (putV f m) = f := by
  cases f
  simp (disch := omega) only [getV, putV, putWord, getWait, getSig, getF5, slice_hi, slice_lo, bit_hi, bit_lo, Nat.reduceSub, slice_all, bit_ofBool]
  simp only [Nat.reduceAdd, Nat.reduceSub, slice_all]

theorem getVI_putVI (f : FmtVI) (m : Nat) : getVI (putVI f m) = f := by
  cases f
  simp (disch := omega) only [getVI, putVI, putWord, getWait, getSig, getF5, slice_hi, slice_lo, bit_hi, bit_lo, Nat.reduceSub, slice_all, bit_ofBool]
  simp only [Nat.reduceAdd, Nat.reduceSub, slice_all]

theorem getVL_putVL (f : FmtVL) (m : Nat) : getVL (putVL f m) = f := by
  cases f
  simp (disch := omega) only [getVL, putVL, putWord, getWait, getSig, getF5, slice_hi, slice_lo, Nat.reduceSub, slice_all]
  simp only [Nat.reduceAdd, Nat.reduceSub, slice_all]

theorem getVM_putVM (f : FmtVM) (m : Nat) : getVM (putVM f m) = f := by
  cases f
  simp (disch := omega) only [getVM, putVM, putWord, getWait, getSig, getF5, slice_hi, slice_lo, bit_hi, bit_lo, Nat.reduceSub, slice_all, bit_ofBool]
  simp only [Nat.reduceAdd, Nat.reduceSub, slice_all]

theorem getD_putD (f : FmtD) (m c : Nat) : getD (putD f m c) = f := by
  cases f
  simp (disch := omega) only [getD, putD, putWord, getWait, getSig, getF5, slice_hi, slice_lo, bit_hi, bit_lo, Nat.reduceSub, slice_all, bit_ofBool]
  simp only [Nat.reduceAdd, Nat.reduceSub, slice_all]

theorem getQ_putQ (f : FmtQ) (m c : Nat) : getQ (putQ f m c) = f := by
  cases f
  simp (disch := omega) only [getQ, putQ, putWord, getWait, getSig, getF5, slice_hi, slice_lo, Nat.reduceSub, slice_all]
  simp only [Nat.reduceAdd, Nat.reduceSub, slice_all]

theorem getM_putM (f : FmtM) (m : Nat) : getM (putM f m) = f := by
  cases f
  simp (disch := omega) only [getM, putM, putWord, getWait, getSig, getF5, slice_hi, slice_lo, Nat.reduceSub, slice_all]
  simp only [Nat.reduceAdd, Nat.reduceSub, slice_all]

theorem getC_putC (f : FmtC) (m : Nat) : getC (putC f m) = f := by
  cases f
  simp (disch := omega) only [getC, putC, putWord, getWait, getSig, slice_hi, slice_lo, bit_hi, bit_lo, Nat.reduceSub, slice_all, bit_ofBool]
  simp only [Nat.reduceAdd, Nat.reduceSub, slice_all]

/-! ## Class, major op and length -/

theorem toNat_slice (w : Word) (lo k : Nat) : w.toNat / 2 ^ lo % 2 ^ k = (w.extractLsb' lo k).toNat := by
  simp [BitVec.extractLsb'_toNat, Nat.shiftRight_eq_div_pow]

theorem getMajor_putWord (w s : BitVec 8) (o : BitVec 32) (m c : Nat) (h : m < 64) : getMajor (putWord w s o m c) = m := by
  have e : getMajor (putWord w s o m c) = ((putWord w s o m c).extractLsb' 10 6).toNat := toNat_slice _ 10 6
  rw [e]
  simp (disch := omega) only [putWord, slice_hi, slice_lo, Nat.reduceSub, slice_all, BitVec.toNat_ofNat]
  omega

theorem getClass_putWord (w s : BitVec 8) (o : BitVec 32) (m c : Nat) (h : c < 8) : getClass (putWord w s o m c) = c := by
  have e : getClass (putWord w s o m c) = ((putWord w s o m c).extractLsb' 7 3).toNat := toNat_slice _ 7 3
  rw [e]
  simp (disch := omega) only [putWord, slice_hi, slice_lo, Nat.reduceSub, slice_all, BitVec.toNat_ofNat]
  omega

theorem getLen_putWord (w s : BitVec 8) (o : BitVec 32) (m c : Nat) : getLen (putWord w s o m c) = 0x3F := by
  have e : getLen (putWord w s o m c) = ((putWord w s o m c).extractLsb' 0 7).toNat := by
    have h := toNat_slice (putWord w s o m c) 0 7
    rwa [Nat.pow_zero, Nat.div_one] at h
  rw [e]
  simp (disch := omega) only [putWord, slice_lo, slice_all]
  rfl

theorem res_putVL (f : FmtVL) (m : Nat) : resVL (putVL f m) = true := by
  simp (disch := omega) only [resVL, putVL, putWord, slice_hi, slice_lo, Nat.reduceSub, slice_all]
  rfl

theorem res_putM (f : FmtM) (m : Nat) : resM (putM f m) = true := by
  simp (disch := omega) only [resM, putM, putWord, slice_hi, slice_lo, Nat.reduceSub, slice_all]
  rfl

theorem res_putC (f : FmtC) (m : Nat) : resC (putC f m) = true := by
  simp (disch := omega) only [resC, putC, putWord, slice_hi, slice_lo, Nat.reduceSub, slice_all]
  rfl

/-- The parameters of a packet read back (R94). -/
theorem getPacket_put (p : Packet) (m : Nat) : getPacket (putC p.cmd m) (putRest p) = p := by
  cases p
  simp only [getPacket, getC_putC, putRest]
  simp (disch := omega) only [slice_hi, slice_lo, Nat.reduceSub, slice_all]

/-! ## From a format to its class's map -/

theorem major_putV (f : FmtV) (m : Nat) (h : m < 64) : getMajor (putV f m) = m := getMajor_putWord _ _ _ _ _ h
theorem major_putVI (f : FmtVI) (m : Nat) (h : m < 64) : getMajor (putVI f m) = m := getMajor_putWord _ _ _ _ _ h
theorem major_putVL (f : FmtVL) (m : Nat) (h : m < 64) : getMajor (putVL f m) = m := getMajor_putWord _ _ _ _ _ h
theorem major_putVM (f : FmtVM) (m : Nat) (h : m < 64) : getMajor (putVM f m) = m := getMajor_putWord _ _ _ _ _ h
theorem major_putD (f : FmtD) (m c : Nat) (h : m < 64) : getMajor (putD f m c) = m := getMajor_putWord _ _ _ _ _ h
theorem major_putQ (f : FmtQ) (m c : Nat) (h : m < 64) : getMajor (putQ f m c) = m := getMajor_putWord _ _ _ _ _ h
theorem major_putM (f : FmtM) (m : Nat) (h : m < 64) : getMajor (putM f m) = m := getMajor_putWord _ _ _ _ _ h
theorem major_putC (f : FmtC) (m : Nat) (h : m < 64) : getMajor (putC f m) = m := getMajor_putWord _ _ _ _ _ h

theorem form_putV (f : FmtV) (m : Nat) (r : BitVec 448) : decodeForm (putV f m) r = majorVX (putV f m) := by
  simp [decodeForm, putV, getLen_putWord, getClass_putWord]
theorem form_putVI (f : FmtVI) (m : Nat) (r : BitVec 448) : decodeForm (putVI f m) r = majorVX (putVI f m) := by
  simp [decodeForm, putVI, getLen_putWord, getClass_putWord]
theorem form_putVL (f : FmtVL) (m : Nat) (r : BitVec 448) : decodeForm (putVL f m) r = majorVX (putVL f m) := by
  simp [decodeForm, putVL, getLen_putWord, getClass_putWord]
theorem form_putVM (f : FmtVM) (m : Nat) (r : BitVec 448) : decodeForm (putVM f m) r = majorVX (putVM f m) := by
  simp [decodeForm, putVM, getLen_putWord, getClass_putWord]
theorem form_putDX (f : FmtD) (m : Nat) (r : BitVec 448) : decodeForm (putD f m 1) r = majorVX (putD f m 1) := by
  simp [decodeForm, putD, getLen_putWord, getClass_putWord]
theorem form_putD (f : FmtD) (m : Nat) (r : BitVec 448) : decodeForm (putD f m 0) r = majorSQ (putD f m 0) := by
  simp [decodeForm, putD, getLen_putWord, getClass_putWord]
theorem form_putQ (f : FmtQ) (m : Nat) (r : BitVec 448) : decodeForm (putQ f m 0) r = majorSQ (putQ f m 0) := by
  simp [decodeForm, putQ, getLen_putWord, getClass_putWord]
theorem form_putDN (f : FmtD) (m : Nat) (r : BitVec 448) : decodeForm (putD f m 4) r = majorNT (putD f m 4) := by
  simp [decodeForm, putD, getLen_putWord, getClass_putWord]
theorem form_putQN (f : FmtQ) (m : Nat) (r : BitVec 448) : decodeForm (putQ f m 4) r = majorNT (putQ f m 4) := by
  simp [decodeForm, putQ, getLen_putWord, getClass_putWord]
theorem form_putDS (f : FmtD) (m : Nat) (r : BitVec 448) : decodeForm (putD f m 5) r = majorSY (putD f m 5) := by
  simp [decodeForm, putD, getLen_putWord, getClass_putWord]
theorem form_putQS (f : FmtQ) (m : Nat) (r : BitVec 448) : decodeForm (putQ f m 5) r = majorSY (putQ f m 5) := by
  simp [decodeForm, putQ, getLen_putWord, getClass_putWord]
theorem form_putM (f : FmtM) (m : Nat) (r : BitVec 448) : decodeForm (putM f m) r = majorMT (putM f m) := by
  have h := res_putM f m
  unfold putM at h
  simp [decodeForm, putM, getLen_putWord, getClass_putWord, h]
theorem form_putC (f : FmtC) (m : Nat) (r : BitVec 448) : decodeForm (putC f m) r = majorCP (putC f m) r := by
  have h := res_putC f m
  unfold putC at h
  simp [decodeForm, putC, getLen_putWord, getClass_putWord, h]

end Sys2Proof
end

