-- ==== Sys2Proof/Laws/Tbl.lean ====
section
/-! SUPPORT. The laws of sparse tables and of memory: a read after a write, and the canonical form. -/

namespace Sys2Proof.Machine

theorem tget_tput_self {α : Type} (d : α) (t : Tbl α) (k : Nat) (v : α) : tget d (tput t k v) k = v := by
  induction t with
  | nil => simp [tput, tget]
  | cons c r ih =>
    obtain ⟨j, w⟩ := c
    simp only [tput]
    split
    · simp [tget, ih, Nat.ne_of_lt ‹_›]
    · split <;> simp [tget]

theorem tget_tput_ne {α : Type} (d : α) (t : Tbl α) (k m : Nat) (v : α) (h : k ≠ m) :
    tget d (tput t k v) m = tget d t m := by
  induction t with
  | nil => simp [tput, tget, h]
  | cons c r ih =>
    obtain ⟨j, w⟩ := c
    simp only [tput]
    split
    · simp [tget, ih]
    · split
      · next e => subst e; simp [tget, h]
      · simp [tget, h]

theorem tget_filter_self {α : Type} (d : α) (t : Tbl α) (k : Nat) :
    tget d (t.filter (fun c => decide (c.1 ≠ k))) k = d := by
  induction t with
  | nil => rfl
  | cons c r ih =>
    obtain ⟨j, w⟩ := c
    by_cases h : j = k
    · simpa [h] using ih
    · simp only [List.filter_cons, ne_eq, h, not_false_eq_true, decide_true, ite_true, tget, ite_false]
      exact ih

theorem tget_filter_ne {α : Type} (d : α) (t : Tbl α) (k m : Nat) (h : k ≠ m) :
    tget d (t.filter (fun c => decide (c.1 ≠ k))) m = tget d t m := by
  induction t with
  | nil => rfl
  | cons c r ih =>
    obtain ⟨j, w⟩ := c
    by_cases e : j = k
    · subst e
      simpa [tget, h] using ih
    · simp only [List.filter_cons, ne_eq, e, not_false_eq_true, decide_true, ite_true, tget]
      rw [ih]

/-- A read after a write to the same key. -/
@[simp] theorem tget_tset_self {α : Type} [DecidableEq α] (d : α) (t : Tbl α) (k : Nat) (v : α) :
    tget d (tset d t k v) k = v := by
  unfold tset
  split
  · next h => rw [h]; exact tget_filter_self d t k
  · exact tget_tput_self d t k v

/-- A write leaves every other key alone. -/
theorem tget_tset_ne {α : Type} [DecidableEq α] (d : α) (t : Tbl α) (k m : Nat) (v : α) (h : k ≠ m) :
    tget d (tset d t k v) m = tget d t m := by
  unfold tset
  split
  · exact tget_filter_ne d t k m h
  · exact tget_tput_ne d t k m v h

theorem tget_tset {α : Type} [DecidableEq α] (d : α) (t : Tbl α) (k m : Nat) (v : α) :
    tget d (tset d t k v) m = if k = m then v else tget d t m := by
  split
  · next h => subst h; simp
  · next h => exact tget_tset_ne d t k m v h

/-! ## The canonical form -/

/-- Every key of a table is at least k. -/
def keysFrom {α : Type} (k : Nat) (t : Tbl α) : Prop := ∀ c ∈ t, k ≤ c.1

theorem tableOk_cons {α : Type} [DecidableEq α] (d : α) (j : Nat) (v : α) (r : Tbl α) :
    tableOk d ((j, v) :: r) = true ↔ v ≠ d ∧ keysFrom (j + 1) r ∧ tableOk d r = true := by
  induction r generalizing j v with
  | nil => simp [tableOk, keysFrom]
  | cons c r ih =>
    obtain ⟨k, w⟩ := c
    simp only [tableOk, Bool.and_eq_true, decide_eq_true_eq]
    constructor
    · rintro ⟨⟨h1, h2⟩, h3⟩
      refine ⟨h2, ?_, h3⟩
      intro c hc
      rcases List.mem_cons.1 hc with rfl | hc
      · exact h1
      · have := ((ih k w).1 h3).2.1 c hc
        omega
    · rintro ⟨h1, h2, h3⟩
      exact ⟨⟨h2 (k, w) (by simp), h1⟩, h3⟩

theorem keysFrom_tput {α : Type} (t : Tbl α) (j k : Nat) (v : α) (h : keysFrom j t) (hk : j ≤ k) :
    keysFrom j (tput t k v) := by
  induction t with
  | nil => intro c hc; simp [tput] at hc; subst hc; exact hk
  | cons c r ih =>
    obtain ⟨i, w⟩ := c
    have hr : keysFrom j r := fun c hc => h c (by simp [hc])
    have hi : j ≤ i := h (i, w) (by simp)
    simp only [tput]
    split
    · intro c hc
      rcases List.mem_cons.1 hc with rfl | hc
      · exact hi
      · exact ih hr c hc
    · split
      · intro c hc
        rcases List.mem_cons.1 hc with rfl | hc
        · exact hk
        · exact hr c hc
      · intro c hc
        rcases List.mem_cons.1 hc with rfl | hc
        · exact hk
        · exact h c hc

theorem tableOk_tput {α : Type} [DecidableEq α] (d : α) (t : Tbl α) (k : Nat) (v : α) (hv : v ≠ d)
    (h : tableOk d t = true) : tableOk d (tput t k v) = true := by
  induction t with
  | nil => simp [tput, tableOk, hv]
  | cons c r ih =>
    obtain ⟨j, w⟩ := c
    have hc := (tableOk_cons d j w r).1 h
    simp only [tput]
    split
    · next hjk => exact (tableOk_cons d j w _).2 ⟨hc.1, keysFrom_tput r (j + 1) k v hc.2.1 hjk, ih hc.2.2⟩
    · split
      · next _ e => subst e; exact (tableOk_cons d j v r).2 ⟨hv, hc.2.1, hc.2.2⟩
      · next h1 h2 =>
        refine (tableOk_cons d k v _).2 ⟨hv, ?_, h⟩
        intro c hc'
        rcases List.mem_cons.1 hc' with rfl | hc'
        · simp; omega
        · have := hc.2.1 c hc'; omega

theorem tableOk_filter {α : Type} [DecidableEq α] (d : α) (t : Tbl α) (p : Nat × α → Bool)
    (h : tableOk d t = true) : tableOk d (t.filter p) = true := by
  induction t with
  | nil => rfl
  | cons c r ih =>
    obtain ⟨j, w⟩ := c
    have hc := (tableOk_cons d j w r).1 h
    simp only [List.filter_cons]
    split
    · exact (tableOk_cons d j w _).2 ⟨hc.1, fun c m => hc.2.1 c (List.mem_filter.1 m).1, ih hc.2.2⟩
    · exact ih hc.2.2

/-- A write keeps a table in canonical form. -/
theorem tableOk_tset {α : Type} [DecidableEq α] (d : α) (t : Tbl α) (k : Nat) (v : α)
    (h : tableOk d t = true) : tableOk d (tset d t k v) = true := by
  unfold tset
  split
  · exact tableOk_filter d t _ h
  · next hv => exact tableOk_tput d t k v hv h

/-! ## Memory -/

@[simp] theorem memByte_memSet_self (m : List Host.Cell) (a : Nat) (b : Byte) : memByte (memSet m a b) a = b :=
  tget_tset_self _ _ _ _

theorem memByte_memSet_ne (m : List Host.Cell) (a c : Nat) (b : Byte) (h : a ≠ c) :
    memByte (memSet m a b) c = memByte m c := tget_tset_ne _ _ _ _ _ h

theorem memSet_wf (m : List Host.Cell) (a : Nat) (b : Byte) (h : Memory.wf m = true) :
    Memory.wf (memSet m a b) = true := tableOk_tset _ _ _ _ h

theorem memWrite_wf (bs : List Byte) (m : List Host.Cell) (a : Nat) (h : Memory.wf m = true) :
    Memory.wf (memWrite m a bs) = true := by
  induction bs generalizing m a with
  | nil => exact h
  | cons b r ih => exact ih _ _ (memSet_wf m a b h)

theorem memWriteCells_wf (cs : List (Nat × Byte)) (m : List Host.Cell) (h : Memory.wf m = true) :
    Memory.wf (memWriteCells m cs) = true := by
  induction cs generalizing m with
  | nil => exact h
  | cons c r ih => exact ih _ (memSet_wf m c.1 c.2 h)

/-- A write of bytes leaves every byte outside them alone. -/
theorem memByte_memWrite_out (bs : List Byte) (m : List Host.Cell) (a c : Nat) (h : c < a ∨ a + bs.length ≤ c) :
    memByte (memWrite m a bs) c = memByte m c := by
  induction bs generalizing m a with
  | nil => rfl
  | cons b r ih =>
    simp only [List.length_cons] at h
    simp only [memWrite]
    rw [ih _ _ (by omega), memByte_memSet_ne _ _ _ _ (by omega)]

/-- A byte that was written reads back. -/
theorem memByte_memWrite_in (bs : List Byte) (m : List Host.Cell) (a j : Nat) (h : j < bs.length) :
    memByte (memWrite m a bs) (a + j) = bs[j] := by
  induction bs generalizing m a j with
  | nil => simp at h
  | cons b r ih =>
    simp only [memWrite]
    cases j with
    | zero => rw [memByte_memWrite_out _ _ _ _ (by omega)]; simp
    | succ j =>
      have := ih (memSet m a b) (a + 1) j (by simpa using h)
      simpa [Nat.add_comm, Nat.add_left_comm] using this

theorem memRead_length (m : List Host.Cell) (a k : Nat) : (memRead m a k).length = k := by
  induction k generalizing a with
  | zero => rfl
  | succ k ih => simp [memRead, ih]

/-- Bytes outside a write read as before. -/
theorem memRead_memWrite_out (bs : List Byte) (m : List Host.Cell) (a c k : Nat)
    (h : c + k ≤ a ∨ a + bs.length ≤ c) : memRead (memWrite m a bs) c k = memRead m c k := by
  induction k generalizing c with
  | zero => rfl
  | succ k ih =>
    simp only [memRead]
    rw [memByte_memWrite_out _ _ _ _ (by omega), ih _ (by omega)]

/-- What was written reads back. -/
theorem memRead_memWrite_same (bs : List Byte) (m : List Host.Cell) (a : Nat) :
    memRead (memWrite m a bs) a bs.length = bs := by
  induction bs generalizing m a with
  | nil => rfl
  | cons b r ih =>
    simp only [memWrite, List.length_cons, memRead]
    rw [memByte_memWrite_out _ _ _ _ (by omega), ih]
    simp

theorem leBytes_length (k n : Nat) : (leBytes k n).length = k := by
  induction k generalizing n with
  | zero => rfl
  | succ k ih => simp [leBytes, ih]

/-- The number of little-endian bytes is the number, as far as they reach. -/
theorem leNat_leBytes (k n : Nat) : leNat (leBytes k n) = n % 256 ^ k := by
  induction k generalizing n with
  | zero => simp [leBytes, leNat, Nat.mod_one]
  | succ k ih =>
    simp only [leBytes, leNat, ih, BitVec.toNat_ofNat]
    have : (256 : Nat) ^ (k + 1) = 256 * 256 ^ k := by ring
    rw [this, Nat.mod_mul]

end Sys2Proof.Machine
end

