-- ==== Sys2Proof/Laws/State.lean ====
section
/-! SUPPORT. What each named update of the state leaves as it was, field by field, and what it makes of the field it
writes. -/

namespace Sys2Proof.Machine

/-! ### A core is replaced -/

@[simp] theorem setCore_now (s : State) (n : Nat) (k : Core) : (s.setCore n k).now = s.now := rfl
@[simp] theorem setCore_slew (s : State) (n : Nat) (k : Core) : (s.setCore n k).slew = s.slew := rfl
@[simp] theorem setCore_slewTodo (s : State) (n : Nat) (k : Core) : (s.setCore n k).slewTodo = s.slewTodo := rfl
@[simp] theorem setCore_slewAt (s : State) (n : Nat) (k : Core) : (s.setCore n k).slewAt = s.slewAt := rfl
@[simp] theorem setCore_pkgid (s : State) (n : Nat) (k : Core) : (s.setCore n k).pkgid = s.pkgid := rfl
@[simp] theorem setCore_podid (s : State) (n : Nat) (k : Core) : (s.setCore n k).podid = s.podid := rfl
@[simp] theorem setCore_cur (s : State) (n : Nat) (k : Core) : (s.setCore n k).cur = s.cur := rfl
@[simp] theorem setCore_lockstep (s : State) (n : Nat) (k : Core) : (s.setCore n k).lockstep = s.lockstep := rfl
@[simp] theorem setCore_free (s : State) (n : Nat) (k : Core) : (s.setCore n k).free = s.free := rfl
@[simp] theorem setCore_seen (s : State) (n : Nat) (k : Core) : (s.setCore n k).seen = s.seen := rfl
@[simp] theorem setCore_sched (s : State) (n : Nat) (k : Core) : (s.setCore n k).sched = s.sched := rfl
@[simp] theorem setCore_mem (s : State) (n : Nat) (k : Core) : (s.setCore n k).mem = s.mem := rfl
@[simp] theorem setCore_poison (s : State) (n : Nat) (k : Core) : (s.setCore n k).poison = s.poison := rfl
@[simp] theorem setCore_jobs (s : State) (n : Nat) (k : Core) : (s.setCore n k).jobs = s.jobs := rfl
@[simp] theorem setCore_hamper (s : State) (n : Nat) (k : Core) : (s.setCore n k).hamper = s.hamper := rfl
@[simp] theorem setCore_sch (s : State) (n : Nat) (k : Core) : (s.setCore n k).sch = s.sch := rfl
@[simp] theorem setCore_mat (s : State) (n : Nat) (k : Core) : (s.setCore n k).mat = s.mat := rfl
@[simp] theorem setCore_ctlb (s : State) (n : Nat) (k : Core) : (s.setCore n k).ctlb = s.ctlb := rfl
@[simp] theorem setCore_handles (s : State) (n : Nat) (k : Core) : (s.setCore n k).handles = s.handles := rfl
@[simp] theorem setCore_pages (s : State) (n : Nat) (k : Core) : (s.setCore n k).pages = s.pages := rfl
@[simp] theorem setCore_migs (s : State) (n : Nat) (k : Core) : (s.setCore n k).migs = s.migs := rfl
@[simp] theorem setCore_moved (s : State) (n : Nat) (k : Core) : (s.setCore n k).moved = s.moved := rfl
@[simp] theorem setCore_hbm (s : State) (n : Nat) (k : Core) : (s.setCore n k).hbm = s.hbm := rfl
@[simp] theorem setCore_inq (s : State) (n : Nat) (k : Core) : (s.setCore n k).inq = s.inq := rfl
@[simp] theorem setCore_tlbWant (s : State) (n : Nat) (k : Core) : (s.setCore n k).tlbWant = s.tlbWant := rfl
@[simp] theorem setCore_tlbOwed (s : State) (n : Nat) (k : Core) : (s.setCore n k).tlbOwed = s.tlbOwed := rfl
@[simp] theorem setCore_fab (s : State) (n : Nat) (k : Core) : (s.setCore n k).fab = s.fab := rfl
@[simp] theorem setCore_mgmt (s : State) (n : Nat) (k : Core) : (s.setCore n k).mgmt = s.mgmt := rfl
@[simp] theorem setCore_frame (s : State) (n : Nat) (k : Core) : (s.setCore n k).frame = s.frame := rfl
@[simp] theorem setCore_spares (s : State) (n : Nat) (k : Core) : (s.setCore n k).spares = s.spares := rfl

/-! ### A core's foreground context is replaced -/

@[simp] theorem setFg_now (s : State) (n : Nat) (c : Ctx) : (s.setFg n c).now = s.now := rfl
@[simp] theorem setFg_slew (s : State) (n : Nat) (c : Ctx) : (s.setFg n c).slew = s.slew := rfl
@[simp] theorem setFg_slewTodo (s : State) (n : Nat) (c : Ctx) : (s.setFg n c).slewTodo = s.slewTodo := rfl
@[simp] theorem setFg_slewAt (s : State) (n : Nat) (c : Ctx) : (s.setFg n c).slewAt = s.slewAt := rfl
@[simp] theorem setFg_pkgid (s : State) (n : Nat) (c : Ctx) : (s.setFg n c).pkgid = s.pkgid := rfl
@[simp] theorem setFg_podid (s : State) (n : Nat) (c : Ctx) : (s.setFg n c).podid = s.podid := rfl
@[simp] theorem setFg_cur (s : State) (n : Nat) (c : Ctx) : (s.setFg n c).cur = s.cur := rfl
@[simp] theorem setFg_lockstep (s : State) (n : Nat) (c : Ctx) : (s.setFg n c).lockstep = s.lockstep := rfl
@[simp] theorem setFg_free (s : State) (n : Nat) (c : Ctx) : (s.setFg n c).free = s.free := rfl
@[simp] theorem setFg_seen (s : State) (n : Nat) (c : Ctx) : (s.setFg n c).seen = s.seen := rfl
@[simp] theorem setFg_sched (s : State) (n : Nat) (c : Ctx) : (s.setFg n c).sched = s.sched := rfl
@[simp] theorem setFg_mem (s : State) (n : Nat) (c : Ctx) : (s.setFg n c).mem = s.mem := rfl
@[simp] theorem setFg_poison (s : State) (n : Nat) (c : Ctx) : (s.setFg n c).poison = s.poison := rfl
@[simp] theorem setFg_jobs (s : State) (n : Nat) (c : Ctx) : (s.setFg n c).jobs = s.jobs := rfl
@[simp] theorem setFg_hamper (s : State) (n : Nat) (c : Ctx) : (s.setFg n c).hamper = s.hamper := rfl
@[simp] theorem setFg_sch (s : State) (n : Nat) (c : Ctx) : (s.setFg n c).sch = s.sch := rfl
@[simp] theorem setFg_mat (s : State) (n : Nat) (c : Ctx) : (s.setFg n c).mat = s.mat := rfl
@[simp] theorem setFg_ctlb (s : State) (n : Nat) (c : Ctx) : (s.setFg n c).ctlb = s.ctlb := rfl
@[simp] theorem setFg_handles (s : State) (n : Nat) (c : Ctx) : (s.setFg n c).handles = s.handles := rfl
@[simp] theorem setFg_pages (s : State) (n : Nat) (c : Ctx) : (s.setFg n c).pages = s.pages := rfl
@[simp] theorem setFg_migs (s : State) (n : Nat) (c : Ctx) : (s.setFg n c).migs = s.migs := rfl
@[simp] theorem setFg_moved (s : State) (n : Nat) (c : Ctx) : (s.setFg n c).moved = s.moved := rfl
@[simp] theorem setFg_hbm (s : State) (n : Nat) (c : Ctx) : (s.setFg n c).hbm = s.hbm := rfl
@[simp] theorem setFg_inq (s : State) (n : Nat) (c : Ctx) : (s.setFg n c).inq = s.inq := rfl
@[simp] theorem setFg_tlbWant (s : State) (n : Nat) (c : Ctx) : (s.setFg n c).tlbWant = s.tlbWant := rfl
@[simp] theorem setFg_tlbOwed (s : State) (n : Nat) (c : Ctx) : (s.setFg n c).tlbOwed = s.tlbOwed := rfl
@[simp] theorem setFg_fab (s : State) (n : Nat) (c : Ctx) : (s.setFg n c).fab = s.fab := rfl
@[simp] theorem setFg_mgmt (s : State) (n : Nat) (c : Ctx) : (s.setFg n c).mgmt = s.mgmt := rfl
@[simp] theorem setFg_frame (s : State) (n : Nat) (c : Ctx) : (s.setFg n c).frame = s.frame := rfl
@[simp] theorem setFg_spares (s : State) (n : Nat) (c : Ctx) : (s.setFg n c).spares = s.spares := rfl

/-! ### A core's foreground context is changed -/

@[simp] theorem modFg_now (s : State) (n : Nat) (g : Ctx → Ctx) : (s.modFg n g).now = s.now := rfl
@[simp] theorem modFg_slew (s : State) (n : Nat) (g : Ctx → Ctx) : (s.modFg n g).slew = s.slew := rfl
@[simp] theorem modFg_slewTodo (s : State) (n : Nat) (g : Ctx → Ctx) : (s.modFg n g).slewTodo = s.slewTodo := rfl
@[simp] theorem modFg_slewAt (s : State) (n : Nat) (g : Ctx → Ctx) : (s.modFg n g).slewAt = s.slewAt := rfl
@[simp] theorem modFg_pkgid (s : State) (n : Nat) (g : Ctx → Ctx) : (s.modFg n g).pkgid = s.pkgid := rfl
@[simp] theorem modFg_podid (s : State) (n : Nat) (g : Ctx → Ctx) : (s.modFg n g).podid = s.podid := rfl
@[simp] theorem modFg_cur (s : State) (n : Nat) (g : Ctx → Ctx) : (s.modFg n g).cur = s.cur := rfl
@[simp] theorem modFg_lockstep (s : State) (n : Nat) (g : Ctx → Ctx) : (s.modFg n g).lockstep = s.lockstep := rfl
@[simp] theorem modFg_free (s : State) (n : Nat) (g : Ctx → Ctx) : (s.modFg n g).free = s.free := rfl
@[simp] theorem modFg_seen (s : State) (n : Nat) (g : Ctx → Ctx) : (s.modFg n g).seen = s.seen := rfl
@[simp] theorem modFg_sched (s : State) (n : Nat) (g : Ctx → Ctx) : (s.modFg n g).sched = s.sched := rfl
@[simp] theorem modFg_mem (s : State) (n : Nat) (g : Ctx → Ctx) : (s.modFg n g).mem = s.mem := rfl
@[simp] theorem modFg_poison (s : State) (n : Nat) (g : Ctx → Ctx) : (s.modFg n g).poison = s.poison := rfl
@[simp] theorem modFg_jobs (s : State) (n : Nat) (g : Ctx → Ctx) : (s.modFg n g).jobs = s.jobs := rfl
@[simp] theorem modFg_hamper (s : State) (n : Nat) (g : Ctx → Ctx) : (s.modFg n g).hamper = s.hamper := rfl
@[simp] theorem modFg_sch (s : State) (n : Nat) (g : Ctx → Ctx) : (s.modFg n g).sch = s.sch := rfl
@[simp] theorem modFg_mat (s : State) (n : Nat) (g : Ctx → Ctx) : (s.modFg n g).mat = s.mat := rfl
@[simp] theorem modFg_ctlb (s : State) (n : Nat) (g : Ctx → Ctx) : (s.modFg n g).ctlb = s.ctlb := rfl
@[simp] theorem modFg_handles (s : State) (n : Nat) (g : Ctx → Ctx) : (s.modFg n g).handles = s.handles := rfl
@[simp] theorem modFg_pages (s : State) (n : Nat) (g : Ctx → Ctx) : (s.modFg n g).pages = s.pages := rfl
@[simp] theorem modFg_migs (s : State) (n : Nat) (g : Ctx → Ctx) : (s.modFg n g).migs = s.migs := rfl
@[simp] theorem modFg_moved (s : State) (n : Nat) (g : Ctx → Ctx) : (s.modFg n g).moved = s.moved := rfl
@[simp] theorem modFg_hbm (s : State) (n : Nat) (g : Ctx → Ctx) : (s.modFg n g).hbm = s.hbm := rfl
@[simp] theorem modFg_inq (s : State) (n : Nat) (g : Ctx → Ctx) : (s.modFg n g).inq = s.inq := rfl
@[simp] theorem modFg_tlbWant (s : State) (n : Nat) (g : Ctx → Ctx) : (s.modFg n g).tlbWant = s.tlbWant := rfl
@[simp] theorem modFg_tlbOwed (s : State) (n : Nat) (g : Ctx → Ctx) : (s.modFg n g).tlbOwed = s.tlbOwed := rfl
@[simp] theorem modFg_fab (s : State) (n : Nat) (g : Ctx → Ctx) : (s.modFg n g).fab = s.fab := rfl
@[simp] theorem modFg_mgmt (s : State) (n : Nat) (g : Ctx → Ctx) : (s.modFg n g).mgmt = s.mgmt := rfl
@[simp] theorem modFg_frame (s : State) (n : Nat) (g : Ctx → Ctx) : (s.modFg n g).frame = s.frame := rfl
@[simp] theorem modFg_spares (s : State) (n : Nat) (g : Ctx → Ctx) : (s.modFg n g).spares = s.spares := rfl

/-! ### A thread is replaced -/

@[simp] theorem setThread_now (s : State) (h : Nat) (t : Thread) : (s.setThread h t).now = s.now := rfl
@[simp] theorem setThread_slew (s : State) (h : Nat) (t : Thread) : (s.setThread h t).slew = s.slew := rfl
@[simp] theorem setThread_slewTodo (s : State) (h : Nat) (t : Thread) : (s.setThread h t).slewTodo = s.slewTodo := rfl
@[simp] theorem setThread_slewAt (s : State) (h : Nat) (t : Thread) : (s.setThread h t).slewAt = s.slewAt := rfl
@[simp] theorem setThread_pkgid (s : State) (h : Nat) (t : Thread) : (s.setThread h t).pkgid = s.pkgid := rfl
@[simp] theorem setThread_podid (s : State) (h : Nat) (t : Thread) : (s.setThread h t).podid = s.podid := rfl
@[simp] theorem setThread_cur (s : State) (h : Nat) (t : Thread) : (s.setThread h t).cur = s.cur := rfl
@[simp] theorem setThread_lockstep (s : State) (h : Nat) (t : Thread) : (s.setThread h t).lockstep = s.lockstep := rfl
@[simp] theorem setThread_free (s : State) (h : Nat) (t : Thread) : (s.setThread h t).free = s.free := rfl
@[simp] theorem setThread_seen (s : State) (h : Nat) (t : Thread) : (s.setThread h t).seen = s.seen := rfl
@[simp] theorem setThread_sched (s : State) (h : Nat) (t : Thread) : (s.setThread h t).sched = s.sched := rfl
@[simp] theorem setThread_cores (s : State) (h : Nat) (t : Thread) : (s.setThread h t).cores = s.cores := rfl
@[simp] theorem setThread_mem (s : State) (h : Nat) (t : Thread) : (s.setThread h t).mem = s.mem := rfl
@[simp] theorem setThread_poison (s : State) (h : Nat) (t : Thread) : (s.setThread h t).poison = s.poison := rfl
@[simp] theorem setThread_jobs (s : State) (h : Nat) (t : Thread) : (s.setThread h t).jobs = s.jobs := rfl
@[simp] theorem setThread_sch (s : State) (h : Nat) (t : Thread) : (s.setThread h t).sch = s.sch := rfl
@[simp] theorem setThread_mat (s : State) (h : Nat) (t : Thread) : (s.setThread h t).mat = s.mat := rfl
@[simp] theorem setThread_ctlb (s : State) (h : Nat) (t : Thread) : (s.setThread h t).ctlb = s.ctlb := rfl
@[simp] theorem setThread_handles (s : State) (h : Nat) (t : Thread) : (s.setThread h t).handles = s.handles := rfl
@[simp] theorem setThread_pages (s : State) (h : Nat) (t : Thread) : (s.setThread h t).pages = s.pages := rfl
@[simp] theorem setThread_migs (s : State) (h : Nat) (t : Thread) : (s.setThread h t).migs = s.migs := rfl
@[simp] theorem setThread_moved (s : State) (h : Nat) (t : Thread) : (s.setThread h t).moved = s.moved := rfl
@[simp] theorem setThread_hbm (s : State) (h : Nat) (t : Thread) : (s.setThread h t).hbm = s.hbm := rfl
@[simp] theorem setThread_inq (s : State) (h : Nat) (t : Thread) : (s.setThread h t).inq = s.inq := rfl
@[simp] theorem setThread_tlbWant (s : State) (h : Nat) (t : Thread) : (s.setThread h t).tlbWant = s.tlbWant := rfl
@[simp] theorem setThread_tlbOwed (s : State) (h : Nat) (t : Thread) : (s.setThread h t).tlbOwed = s.tlbOwed := rfl
@[simp] theorem setThread_fab (s : State) (h : Nat) (t : Thread) : (s.setThread h t).fab = s.fab := rfl
@[simp] theorem setThread_mgmt (s : State) (h : Nat) (t : Thread) : (s.setThread h t).mgmt = s.mgmt := rfl
@[simp] theorem setThread_frame (s : State) (h : Nat) (t : Thread) : (s.setThread h t).frame = s.frame := rfl
@[simp] theorem setThread_spares (s : State) (h : Nat) (t : Thread) : (s.setThread h t).spares = s.spares := rfl

/-! ### A job's record is replaced -/

@[simp] theorem setJob_now (s : State) (j : Nat) (r : Job) : (s.setJob j r).now = s.now := rfl
@[simp] theorem setJob_slew (s : State) (j : Nat) (r : Job) : (s.setJob j r).slew = s.slew := rfl
@[simp] theorem setJob_slewTodo (s : State) (j : Nat) (r : Job) : (s.setJob j r).slewTodo = s.slewTodo := rfl
@[simp] theorem setJob_slewAt (s : State) (j : Nat) (r : Job) : (s.setJob j r).slewAt = s.slewAt := rfl
@[simp] theorem setJob_pkgid (s : State) (j : Nat) (r : Job) : (s.setJob j r).pkgid = s.pkgid := rfl
@[simp] theorem setJob_podid (s : State) (j : Nat) (r : Job) : (s.setJob j r).podid = s.podid := rfl
@[simp] theorem setJob_cur (s : State) (j : Nat) (r : Job) : (s.setJob j r).cur = s.cur := rfl
@[simp] theorem setJob_lockstep (s : State) (j : Nat) (r : Job) : (s.setJob j r).lockstep = s.lockstep := rfl
@[simp] theorem setJob_free (s : State) (j : Nat) (r : Job) : (s.setJob j r).free = s.free := rfl
@[simp] theorem setJob_seen (s : State) (j : Nat) (r : Job) : (s.setJob j r).seen = s.seen := rfl
@[simp] theorem setJob_sched (s : State) (j : Nat) (r : Job) : (s.setJob j r).sched = s.sched := rfl
@[simp] theorem setJob_cores (s : State) (j : Nat) (r : Job) : (s.setJob j r).cores = s.cores := rfl
@[simp] theorem setJob_mem (s : State) (j : Nat) (r : Job) : (s.setJob j r).mem = s.mem := rfl
@[simp] theorem setJob_poison (s : State) (j : Nat) (r : Job) : (s.setJob j r).poison = s.poison := rfl
@[simp] theorem setJob_hamper (s : State) (j : Nat) (r : Job) : (s.setJob j r).hamper = s.hamper := rfl
@[simp] theorem setJob_sch (s : State) (j : Nat) (r : Job) : (s.setJob j r).sch = s.sch := rfl
@[simp] theorem setJob_mat (s : State) (j : Nat) (r : Job) : (s.setJob j r).mat = s.mat := rfl
@[simp] theorem setJob_ctlb (s : State) (j : Nat) (r : Job) : (s.setJob j r).ctlb = s.ctlb := rfl
@[simp] theorem setJob_handles (s : State) (j : Nat) (r : Job) : (s.setJob j r).handles = s.handles := rfl
@[simp] theorem setJob_pages (s : State) (j : Nat) (r : Job) : (s.setJob j r).pages = s.pages := rfl
@[simp] theorem setJob_migs (s : State) (j : Nat) (r : Job) : (s.setJob j r).migs = s.migs := rfl
@[simp] theorem setJob_moved (s : State) (j : Nat) (r : Job) : (s.setJob j r).moved = s.moved := rfl
@[simp] theorem setJob_hbm (s : State) (j : Nat) (r : Job) : (s.setJob j r).hbm = s.hbm := rfl
@[simp] theorem setJob_inq (s : State) (j : Nat) (r : Job) : (s.setJob j r).inq = s.inq := rfl
@[simp] theorem setJob_tlbWant (s : State) (j : Nat) (r : Job) : (s.setJob j r).tlbWant = s.tlbWant := rfl
@[simp] theorem setJob_tlbOwed (s : State) (j : Nat) (r : Job) : (s.setJob j r).tlbOwed = s.tlbOwed := rfl
@[simp] theorem setJob_fab (s : State) (j : Nat) (r : Job) : (s.setJob j r).fab = s.fab := rfl
@[simp] theorem setJob_mgmt (s : State) (j : Nat) (r : Job) : (s.setJob j r).mgmt = s.mgmt := rfl
@[simp] theorem setJob_frame (s : State) (j : Nat) (r : Job) : (s.setJob j r).frame = s.frame := rfl
@[simp] theorem setJob_spares (s : State) (j : Nat) (r : Job) : (s.setJob j r).spares = s.spares := rfl

/-! ### A port's messages are replaced -/

@[simp] theorem setPort_now (s : State) (p : Nat) (q : List Msg) : (s.setPort p q).now = s.now := rfl
@[simp] theorem setPort_slew (s : State) (p : Nat) (q : List Msg) : (s.setPort p q).slew = s.slew := rfl
@[simp] theorem setPort_slewTodo (s : State) (p : Nat) (q : List Msg) : (s.setPort p q).slewTodo = s.slewTodo := rfl
@[simp] theorem setPort_slewAt (s : State) (p : Nat) (q : List Msg) : (s.setPort p q).slewAt = s.slewAt := rfl
@[simp] theorem setPort_pkgid (s : State) (p : Nat) (q : List Msg) : (s.setPort p q).pkgid = s.pkgid := rfl
@[simp] theorem setPort_podid (s : State) (p : Nat) (q : List Msg) : (s.setPort p q).podid = s.podid := rfl
@[simp] theorem setPort_cur (s : State) (p : Nat) (q : List Msg) : (s.setPort p q).cur = s.cur := rfl
@[simp] theorem setPort_lockstep (s : State) (p : Nat) (q : List Msg) : (s.setPort p q).lockstep = s.lockstep := rfl
@[simp] theorem setPort_free (s : State) (p : Nat) (q : List Msg) : (s.setPort p q).free = s.free := rfl
@[simp] theorem setPort_seen (s : State) (p : Nat) (q : List Msg) : (s.setPort p q).seen = s.seen := rfl
@[simp] theorem setPort_sched (s : State) (p : Nat) (q : List Msg) : (s.setPort p q).sched = s.sched := rfl
@[simp] theorem setPort_cores (s : State) (p : Nat) (q : List Msg) : (s.setPort p q).cores = s.cores := rfl
@[simp] theorem setPort_mem (s : State) (p : Nat) (q : List Msg) : (s.setPort p q).mem = s.mem := rfl
@[simp] theorem setPort_poison (s : State) (p : Nat) (q : List Msg) : (s.setPort p q).poison = s.poison := rfl
@[simp] theorem setPort_jobs (s : State) (p : Nat) (q : List Msg) : (s.setPort p q).jobs = s.jobs := rfl
@[simp] theorem setPort_sch (s : State) (p : Nat) (q : List Msg) : (s.setPort p q).sch = s.sch := rfl
@[simp] theorem setPort_mat (s : State) (p : Nat) (q : List Msg) : (s.setPort p q).mat = s.mat := rfl
@[simp] theorem setPort_ctlb (s : State) (p : Nat) (q : List Msg) : (s.setPort p q).ctlb = s.ctlb := rfl
@[simp] theorem setPort_handles (s : State) (p : Nat) (q : List Msg) : (s.setPort p q).handles = s.handles := rfl
@[simp] theorem setPort_pages (s : State) (p : Nat) (q : List Msg) : (s.setPort p q).pages = s.pages := rfl
@[simp] theorem setPort_migs (s : State) (p : Nat) (q : List Msg) : (s.setPort p q).migs = s.migs := rfl
@[simp] theorem setPort_moved (s : State) (p : Nat) (q : List Msg) : (s.setPort p q).moved = s.moved := rfl
@[simp] theorem setPort_hbm (s : State) (p : Nat) (q : List Msg) : (s.setPort p q).hbm = s.hbm := rfl
@[simp] theorem setPort_inq (s : State) (p : Nat) (q : List Msg) : (s.setPort p q).inq = s.inq := rfl
@[simp] theorem setPort_tlbWant (s : State) (p : Nat) (q : List Msg) : (s.setPort p q).tlbWant = s.tlbWant := rfl
@[simp] theorem setPort_tlbOwed (s : State) (p : Nat) (q : List Msg) : (s.setPort p q).tlbOwed = s.tlbOwed := rfl
@[simp] theorem setPort_fab (s : State) (p : Nat) (q : List Msg) : (s.setPort p q).fab = s.fab := rfl
@[simp] theorem setPort_mgmt (s : State) (p : Nat) (q : List Msg) : (s.setPort p q).mgmt = s.mgmt := rfl
@[simp] theorem setPort_frame (s : State) (p : Nat) (q : List Msg) : (s.setPort p q).frame = s.frame := rfl
@[simp] theorem setPort_spares (s : State) (p : Nat) (q : List Msg) : (s.setPort p q).spares = s.spares := rfl

/-! ### Time passes -/

@[simp] theorem tick_slew (s : State) (k : Nat) : (s.tick k).slew = s.slew := rfl
@[simp] theorem tick_slewTodo (s : State) (k : Nat) : (s.tick k).slewTodo = s.slewTodo := rfl
@[simp] theorem tick_slewAt (s : State) (k : Nat) : (s.tick k).slewAt = s.slewAt := rfl
@[simp] theorem tick_pkgid (s : State) (k : Nat) : (s.tick k).pkgid = s.pkgid := rfl
@[simp] theorem tick_podid (s : State) (k : Nat) : (s.tick k).podid = s.podid := rfl
@[simp] theorem tick_cur (s : State) (k : Nat) : (s.tick k).cur = s.cur := rfl
@[simp] theorem tick_lockstep (s : State) (k : Nat) : (s.tick k).lockstep = s.lockstep := rfl
@[simp] theorem tick_free (s : State) (k : Nat) : (s.tick k).free = s.free := rfl
@[simp] theorem tick_seen (s : State) (k : Nat) : (s.tick k).seen = s.seen := rfl
@[simp] theorem tick_sched (s : State) (k : Nat) : (s.tick k).sched = s.sched := rfl
@[simp] theorem tick_cores (s : State) (k : Nat) : (s.tick k).cores = s.cores := rfl
@[simp] theorem tick_mem (s : State) (k : Nat) : (s.tick k).mem = s.mem := rfl
@[simp] theorem tick_poison (s : State) (k : Nat) : (s.tick k).poison = s.poison := rfl
@[simp] theorem tick_jobs (s : State) (k : Nat) : (s.tick k).jobs = s.jobs := rfl
@[simp] theorem tick_hamper (s : State) (k : Nat) : (s.tick k).hamper = s.hamper := rfl
@[simp] theorem tick_sch (s : State) (k : Nat) : (s.tick k).sch = s.sch := rfl
@[simp] theorem tick_mat (s : State) (k : Nat) : (s.tick k).mat = s.mat := rfl
@[simp] theorem tick_ctlb (s : State) (k : Nat) : (s.tick k).ctlb = s.ctlb := rfl
@[simp] theorem tick_handles (s : State) (k : Nat) : (s.tick k).handles = s.handles := rfl
@[simp] theorem tick_pages (s : State) (k : Nat) : (s.tick k).pages = s.pages := rfl
@[simp] theorem tick_migs (s : State) (k : Nat) : (s.tick k).migs = s.migs := rfl
@[simp] theorem tick_moved (s : State) (k : Nat) : (s.tick k).moved = s.moved := rfl
@[simp] theorem tick_hbm (s : State) (k : Nat) : (s.tick k).hbm = s.hbm := rfl
@[simp] theorem tick_inq (s : State) (k : Nat) : (s.tick k).inq = s.inq := rfl
@[simp] theorem tick_tlbWant (s : State) (k : Nat) : (s.tick k).tlbWant = s.tlbWant := rfl
@[simp] theorem tick_tlbOwed (s : State) (k : Nat) : (s.tick k).tlbOwed = s.tlbOwed := rfl
@[simp] theorem tick_fab (s : State) (k : Nat) : (s.tick k).fab = s.fab := rfl
@[simp] theorem tick_mgmt (s : State) (k : Nat) : (s.tick k).mgmt = s.mgmt := rfl
@[simp] theorem tick_frame (s : State) (k : Nat) : (s.tick k).frame = s.frame := rfl
@[simp] theorem tick_spares (s : State) (k : Nat) : (s.tick k).spares = s.spares := rfl

/-! ### Bytes are written -/

@[simp] theorem putBytes_now (s : State) (a : Nat) (bs : List Byte) : (s.putBytes a bs).now = s.now := rfl
@[simp] theorem putBytes_slew (s : State) (a : Nat) (bs : List Byte) : (s.putBytes a bs).slew = s.slew := rfl
@[simp] theorem putBytes_slewTodo (s : State) (a : Nat) (bs : List Byte) : (s.putBytes a bs).slewTodo = s.slewTodo := rfl
@[simp] theorem putBytes_slewAt (s : State) (a : Nat) (bs : List Byte) : (s.putBytes a bs).slewAt = s.slewAt := rfl
@[simp] theorem putBytes_pkgid (s : State) (a : Nat) (bs : List Byte) : (s.putBytes a bs).pkgid = s.pkgid := rfl
@[simp] theorem putBytes_podid (s : State) (a : Nat) (bs : List Byte) : (s.putBytes a bs).podid = s.podid := rfl
@[simp] theorem putBytes_cur (s : State) (a : Nat) (bs : List Byte) : (s.putBytes a bs).cur = s.cur := rfl
@[simp] theorem putBytes_lockstep (s : State) (a : Nat) (bs : List Byte) : (s.putBytes a bs).lockstep = s.lockstep := rfl
@[simp] theorem putBytes_free (s : State) (a : Nat) (bs : List Byte) : (s.putBytes a bs).free = s.free := rfl
@[simp] theorem putBytes_seen (s : State) (a : Nat) (bs : List Byte) : (s.putBytes a bs).seen = s.seen := rfl
@[simp] theorem putBytes_sched (s : State) (a : Nat) (bs : List Byte) : (s.putBytes a bs).sched = s.sched := rfl
@[simp] theorem putBytes_cores (s : State) (a : Nat) (bs : List Byte) : (s.putBytes a bs).cores = s.cores := rfl
@[simp] theorem putBytes_jobs (s : State) (a : Nat) (bs : List Byte) : (s.putBytes a bs).jobs = s.jobs := rfl
@[simp] theorem putBytes_hamper (s : State) (a : Nat) (bs : List Byte) : (s.putBytes a bs).hamper = s.hamper := rfl
@[simp] theorem putBytes_sch (s : State) (a : Nat) (bs : List Byte) : (s.putBytes a bs).sch = s.sch := rfl
@[simp] theorem putBytes_mat (s : State) (a : Nat) (bs : List Byte) : (s.putBytes a bs).mat = s.mat := rfl
@[simp] theorem putBytes_ctlb (s : State) (a : Nat) (bs : List Byte) : (s.putBytes a bs).ctlb = s.ctlb := rfl
@[simp] theorem putBytes_handles (s : State) (a : Nat) (bs : List Byte) : (s.putBytes a bs).handles = s.handles := rfl
@[simp] theorem putBytes_pages (s : State) (a : Nat) (bs : List Byte) : (s.putBytes a bs).pages = s.pages := rfl
@[simp] theorem putBytes_migs (s : State) (a : Nat) (bs : List Byte) : (s.putBytes a bs).migs = s.migs := rfl
@[simp] theorem putBytes_moved (s : State) (a : Nat) (bs : List Byte) : (s.putBytes a bs).moved = s.moved := rfl
@[simp] theorem putBytes_hbm (s : State) (a : Nat) (bs : List Byte) : (s.putBytes a bs).hbm = s.hbm := rfl
@[simp] theorem putBytes_inq (s : State) (a : Nat) (bs : List Byte) : (s.putBytes a bs).inq = s.inq := rfl
@[simp] theorem putBytes_tlbWant (s : State) (a : Nat) (bs : List Byte) : (s.putBytes a bs).tlbWant = s.tlbWant := rfl
@[simp] theorem putBytes_tlbOwed (s : State) (a : Nat) (bs : List Byte) : (s.putBytes a bs).tlbOwed = s.tlbOwed := rfl
@[simp] theorem putBytes_fab (s : State) (a : Nat) (bs : List Byte) : (s.putBytes a bs).fab = s.fab := rfl
@[simp] theorem putBytes_mgmt (s : State) (a : Nat) (bs : List Byte) : (s.putBytes a bs).mgmt = s.mgmt := rfl
@[simp] theorem putBytes_frame (s : State) (a : Nat) (bs : List Byte) : (s.putBytes a bs).frame = s.frame := rfl
@[simp] theorem putBytes_spares (s : State) (a : Nat) (bs : List Byte) : (s.putBytes a bs).spares = s.spares := rfl

/-! ### Granules become dirty -/

@[simp] theorem markDirty_now (s : State) (n off k : Nat) : (s.markDirty n off k).now = s.now := rfl
@[simp] theorem markDirty_slew (s : State) (n off k : Nat) : (s.markDirty n off k).slew = s.slew := rfl
@[simp] theorem markDirty_slewTodo (s : State) (n off k : Nat) : (s.markDirty n off k).slewTodo = s.slewTodo := rfl
@[simp] theorem markDirty_slewAt (s : State) (n off k : Nat) : (s.markDirty n off k).slewAt = s.slewAt := rfl
@[simp] theorem markDirty_pkgid (s : State) (n off k : Nat) : (s.markDirty n off k).pkgid = s.pkgid := rfl
@[simp] theorem markDirty_podid (s : State) (n off k : Nat) : (s.markDirty n off k).podid = s.podid := rfl
@[simp] theorem markDirty_cur (s : State) (n off k : Nat) : (s.markDirty n off k).cur = s.cur := rfl
@[simp] theorem markDirty_lockstep (s : State) (n off k : Nat) : (s.markDirty n off k).lockstep = s.lockstep := rfl
@[simp] theorem markDirty_free (s : State) (n off k : Nat) : (s.markDirty n off k).free = s.free := rfl
@[simp] theorem markDirty_seen (s : State) (n off k : Nat) : (s.markDirty n off k).seen = s.seen := rfl
@[simp] theorem markDirty_sched (s : State) (n off k : Nat) : (s.markDirty n off k).sched = s.sched := rfl
@[simp] theorem markDirty_mem (s : State) (n off k : Nat) : (s.markDirty n off k).mem = s.mem := rfl
@[simp] theorem markDirty_poison (s : State) (n off k : Nat) : (s.markDirty n off k).poison = s.poison := rfl
@[simp] theorem markDirty_jobs (s : State) (n off k : Nat) : (s.markDirty n off k).jobs = s.jobs := rfl
@[simp] theorem markDirty_hamper (s : State) (n off k : Nat) : (s.markDirty n off k).hamper = s.hamper := rfl
@[simp] theorem markDirty_sch (s : State) (n off k : Nat) : (s.markDirty n off k).sch = s.sch := rfl
@[simp] theorem markDirty_mat (s : State) (n off k : Nat) : (s.markDirty n off k).mat = s.mat := rfl
@[simp] theorem markDirty_ctlb (s : State) (n off k : Nat) : (s.markDirty n off k).ctlb = s.ctlb := rfl
@[simp] theorem markDirty_handles (s : State) (n off k : Nat) : (s.markDirty n off k).handles = s.handles := rfl
@[simp] theorem markDirty_pages (s : State) (n off k : Nat) : (s.markDirty n off k).pages = s.pages := rfl
@[simp] theorem markDirty_migs (s : State) (n off k : Nat) : (s.markDirty n off k).migs = s.migs := rfl
@[simp] theorem markDirty_moved (s : State) (n off k : Nat) : (s.markDirty n off k).moved = s.moved := rfl
@[simp] theorem markDirty_hbm (s : State) (n off k : Nat) : (s.markDirty n off k).hbm = s.hbm := rfl
@[simp] theorem markDirty_inq (s : State) (n off k : Nat) : (s.markDirty n off k).inq = s.inq := rfl
@[simp] theorem markDirty_tlbWant (s : State) (n off k : Nat) : (s.markDirty n off k).tlbWant = s.tlbWant := rfl
@[simp] theorem markDirty_tlbOwed (s : State) (n off k : Nat) : (s.markDirty n off k).tlbOwed = s.tlbOwed := rfl
@[simp] theorem markDirty_fab (s : State) (n off k : Nat) : (s.markDirty n off k).fab = s.fab := rfl
@[simp] theorem markDirty_mgmt (s : State) (n off k : Nat) : (s.markDirty n off k).mgmt = s.mgmt := rfl
@[simp] theorem markDirty_frame (s : State) (n off k : Nat) : (s.markDirty n off k).frame = s.frame := rfl
@[simp] theorem markDirty_spares (s : State) (n off k : Nat) : (s.markDirty n off k).spares = s.spares := rfl

/-! ### Bytes of a scratchpad are written -/

@[simp] theorem spadWrite_now (s : State) (n off : Nat) (bs : List Byte) : (s.spadWrite n off bs).now = s.now := rfl
@[simp] theorem spadWrite_slew (s : State) (n off : Nat) (bs : List Byte) : (s.spadWrite n off bs).slew = s.slew := rfl
@[simp] theorem spadWrite_slewTodo (s : State) (n off : Nat) (bs : List Byte) : (s.spadWrite n off bs).slewTodo = s.slewTodo := rfl
@[simp] theorem spadWrite_slewAt (s : State) (n off : Nat) (bs : List Byte) : (s.spadWrite n off bs).slewAt = s.slewAt := rfl
@[simp] theorem spadWrite_pkgid (s : State) (n off : Nat) (bs : List Byte) : (s.spadWrite n off bs).pkgid = s.pkgid := rfl
@[simp] theorem spadWrite_podid (s : State) (n off : Nat) (bs : List Byte) : (s.spadWrite n off bs).podid = s.podid := rfl
@[simp] theorem spadWrite_cur (s : State) (n off : Nat) (bs : List Byte) : (s.spadWrite n off bs).cur = s.cur := rfl
@[simp] theorem spadWrite_lockstep (s : State) (n off : Nat) (bs : List Byte) : (s.spadWrite n off bs).lockstep = s.lockstep := rfl
@[simp] theorem spadWrite_free (s : State) (n off : Nat) (bs : List Byte) : (s.spadWrite n off bs).free = s.free := rfl
@[simp] theorem spadWrite_seen (s : State) (n off : Nat) (bs : List Byte) : (s.spadWrite n off bs).seen = s.seen := rfl
@[simp] theorem spadWrite_sched (s : State) (n off : Nat) (bs : List Byte) : (s.spadWrite n off bs).sched = s.sched := rfl
@[simp] theorem spadWrite_jobs (s : State) (n off : Nat) (bs : List Byte) : (s.spadWrite n off bs).jobs = s.jobs := rfl
@[simp] theorem spadWrite_hamper (s : State) (n off : Nat) (bs : List Byte) : (s.spadWrite n off bs).hamper = s.hamper := rfl
@[simp] theorem spadWrite_sch (s : State) (n off : Nat) (bs : List Byte) : (s.spadWrite n off bs).sch = s.sch := rfl
@[simp] theorem spadWrite_mat (s : State) (n off : Nat) (bs : List Byte) : (s.spadWrite n off bs).mat = s.mat := rfl
@[simp] theorem spadWrite_ctlb (s : State) (n off : Nat) (bs : List Byte) : (s.spadWrite n off bs).ctlb = s.ctlb := rfl
@[simp] theorem spadWrite_handles (s : State) (n off : Nat) (bs : List Byte) : (s.spadWrite n off bs).handles = s.handles := rfl
@[simp] theorem spadWrite_pages (s : State) (n off : Nat) (bs : List Byte) : (s.spadWrite n off bs).pages = s.pages := rfl
@[simp] theorem spadWrite_migs (s : State) (n off : Nat) (bs : List Byte) : (s.spadWrite n off bs).migs = s.migs := rfl
@[simp] theorem spadWrite_moved (s : State) (n off : Nat) (bs : List Byte) : (s.spadWrite n off bs).moved = s.moved := rfl
@[simp] theorem spadWrite_hbm (s : State) (n off : Nat) (bs : List Byte) : (s.spadWrite n off bs).hbm = s.hbm := rfl
@[simp] theorem spadWrite_inq (s : State) (n off : Nat) (bs : List Byte) : (s.spadWrite n off bs).inq = s.inq := rfl
@[simp] theorem spadWrite_tlbWant (s : State) (n off : Nat) (bs : List Byte) : (s.spadWrite n off bs).tlbWant = s.tlbWant := rfl
@[simp] theorem spadWrite_tlbOwed (s : State) (n off : Nat) (bs : List Byte) : (s.spadWrite n off bs).tlbOwed = s.tlbOwed := rfl
@[simp] theorem spadWrite_fab (s : State) (n off : Nat) (bs : List Byte) : (s.spadWrite n off bs).fab = s.fab := rfl
@[simp] theorem spadWrite_mgmt (s : State) (n off : Nat) (bs : List Byte) : (s.spadWrite n off bs).mgmt = s.mgmt := rfl
@[simp] theorem spadWrite_frame (s : State) (n off : Nat) (bs : List Byte) : (s.spadWrite n off bs).frame = s.frame := rfl
@[simp] theorem spadWrite_spares (s : State) (n off : Nat) (bs : List Byte) : (s.spadWrite n off bs).spares = s.spares := rfl

/-! ### Reading back -/

theorem core_setCore (s : State) (n m : Nat) (k : Core) : (s.setCore n k).core m = if n = m then k else s.core m :=
  tget_tset _ _ _ _ _
@[simp] theorem core_setCore_self (s : State) (n : Nat) (k : Core) : (s.setCore n k).core n = k := tget_tset_self _ _ _ _
theorem core_setCore_ne (s : State) (n m : Nat) (k : Core) (h : n ≠ m) : (s.setCore n k).core m = s.core m :=
  tget_tset_ne _ _ _ _ _ h
@[simp] theorem fg_setCore_self (s : State) (n : Nat) (k : Core) : (s.setCore n k).fg n = k.fg := by simp [State.fg]
@[simp] theorem fg_setFg_self (s : State) (n : Nat) (c : Ctx) : (s.setFg n c).fg n = c := by simp [State.setFg]
@[simp] theorem fg_modFg_self (s : State) (n : Nat) (g : Ctx → Ctx) : (s.modFg n g).fg n = g (s.fg n) := by
  simp [State.modFg]
theorem core_setFg (s : State) (n m : Nat) (c : Ctx) :
    (s.setFg n c).core m = if n = m then { s.core n with fg := c } else s.core m := by
  simp only [State.setFg, core_setCore]
theorem core_setFg_ne (s : State) (n m : Nat) (c : Ctx) (h : n ≠ m) : (s.setFg n c).core m = s.core m := by
  simp [core_setFg, h]
theorem core_modFg_ne (s : State) (n m : Nat) (g : Ctx → Ctx) (h : n ≠ m) : (s.modFg n g).core m = s.core m :=
  core_setFg_ne s n m _ h
@[simp] theorem core_setFg_self (s : State) (n : Nat) (c : Ctx) : (s.setFg n c).core n = { s.core n with fg := c } := by
  simp [core_setFg]
@[simp] theorem core_tick (s : State) (k n : Nat) : (s.tick k).core n = s.core n := rfl
@[simp] theorem fg_tick (s : State) (k n : Nat) : (s.tick k).fg n = s.fg n := rfl
@[simp] theorem thread_tick (s : State) (k h : Nat) : (s.tick k).thread h = s.thread h := rfl
@[simp] theorem job_tick (s : State) (k j : Nat) : (s.tick k).job j = s.job j := rfl
@[simp] theorem xr_tick (s : State) (k : Nat) (r : BitVec 5) : (s.tick k).xr r = s.xr r := rfl
@[simp] theorem pc_tick (s : State) (k : Nat) : (s.tick k).pc = s.pc := rfl
@[simp] theorem core_putBytes (s : State) (a n : Nat) (bs : List Byte) : (s.putBytes a bs).core n = s.core n := rfl
@[simp] theorem fg_putBytes (s : State) (a n : Nat) (bs : List Byte) : (s.putBytes a bs).fg n = s.fg n := rfl
@[simp] theorem core_setThread (s : State) (h n : Nat) (t : Thread) : (s.setThread h t).core n = s.core n := rfl
@[simp] theorem fg_setThread (s : State) (h n : Nat) (t : Thread) : (s.setThread h t).fg n = s.fg n := rfl
@[simp] theorem core_setJob (s : State) (j n : Nat) (r : Job) : (s.setJob j r).core n = s.core n := rfl
@[simp] theorem fg_setJob (s : State) (j n : Nat) (r : Job) : (s.setJob j r).fg n = s.fg n := rfl
theorem thread_setThread (s : State) (h m : Nat) (t : Thread) :
    (s.setThread h t).thread m = if h = m then t else s.thread m := tget_tset _ _ _ _ _
@[simp] theorem thread_setThread_self (s : State) (h : Nat) (t : Thread) : (s.setThread h t).thread h = t :=
  tget_tset_self _ _ _ _
theorem job_setJob (s : State) (j m : Nat) (r : Job) : (s.setJob j r).job m = if j = m then r else s.job m :=
  tget_tset _ _ _ _ _
@[simp] theorem job_setJob_self (s : State) (j : Nat) (r : Job) : (s.setJob j r).job j = r := tget_tset_self _ _ _ _
@[simp] theorem port_setPort_self (s : State) (p : Nat) (q : List Msg) : (s.setPort p q).port p = q :=
  tget_tset_self _ _ _ _
@[simp] theorem mem_putBytes (s : State) (a : Nat) (bs : List Byte) : (s.putBytes a bs).mem = memWrite s.mem a bs := rfl
@[simp] theorem now_tick (s : State) (k : Nat) : (s.tick k).now = s.now + s.span k := rfl

/-! ### Scalar registers -/

@[simp] theorem xget_zero (t : Tbl Word) : xget t 0 = 0 := rfl
theorem xget_xset (t : Tbl Word) (r q : BitVec 5) (v : Word) :
    xget (xset t r v) q = if q = 0 then 0 else if r = q then v else xget t q := by
  unfold xget xset
  by_cases hq : q = 0
  · rw [if_pos hq, if_pos hq]
  · rw [if_neg hq, if_neg hq, if_neg hq]
    by_cases hr : r = 0
    · rw [if_pos hr, if_neg (fun e : r = q => hq (e.symm.trans hr))]
    · rw [if_neg hr, tget_tset]
      by_cases h : r = q
      · rw [if_pos h, if_pos (congrArg _ h)]
      · rw [if_neg h, if_neg (fun e => h (BitVec.eq_of_toNat_eq e))]

/-- A scalar register after a write: x0 reads 0 and discards the write (R14). -/
theorem x_setX (c : Ctx) (r q : BitVec 5) (v : Word) :
    (c.setX r v).x q = if q = 0 then 0 else if r = q then v else c.x q := xget_xset _ _ _ _

@[simp] theorem setX_pc (c : Ctx) (r : BitVec 5) (v : Word) : (c.setX r v).pc = c.pc := rfl
@[simp] theorem setX_csr (c : Ctx) (r : BitVec 5) (v : Word) : (c.setX r v).csr = c.csr := rfl
@[simp] theorem setX_v (c : Ctx) (r : BitVec 5) (v : Word) : (c.setX r v).regs.v = c.regs.v := rfl
@[simp] theorem setX_p (c : Ctx) (r : BitVec 5) (v : Word) : (c.setX r v).regs.p = c.regs.p := rfl
@[simp] theorem setX_tile (c : Ctx) (r : BitVec 5) (v : Word) : (c.setX r v).regs.tile = c.regs.tile := rfl
@[simp] theorem setX_sem (c : Ctx) (r : BitVec 5) (v : Word) : (c.setX r v).sem = c.sem := rfl
@[simp] theorem setX_sl (c : Ctx) (r : BitVec 5) (v : Word) : (c.setX r v).sl = c.sl := rfl
@[simp] theorem setX_tag (c : Ctx) (r : BitVec 5) (v : Word) : (c.setX r v).tag = c.tag := rfl
@[simp] theorem setX_rcd (c : Ctx) (r : BitVec 5) (v : Word) : (c.setX r v).rcd = c.rcd := rfl
@[simp] theorem setX_eng (c : Ctx) (r : BitVec 5) (v : Word) (e : Eng) : (c.setX r v).eng e = c.eng e := by
  cases e <;> rfl

/-! ### The moving agent -/

theorem xr_core {s : State} {n : Nat} (h : s.cur = .core n) (r : BitVec 5) : s.xr r = (s.fg n).x r := by
  simp [State.xr, h]
theorem xr_thread {s : State} {h : Nat} (e : s.cur = .thread h) (r : BitVec 5) : s.xr r = xget (s.thread h).x r := by
  simp [State.xr, e]
theorem pc_core {s : State} {n : Nat} (h : s.cur = .core n) : s.pc = (s.fg n).pc := by simp [State.pc, h]
theorem pc_thread {s : State} {h : Nat} (e : s.cur = .thread h) : s.pc = (s.thread h).pc := by simp [State.pc, e]
theorem setXr_core {s : State} {n : Nat} (h : s.cur = .core n) (r : BitVec 5) (v : Word) :
    s.setXr r v = s.modFg n (fun c => c.setX r v) := by simp [State.setXr, h]
theorem setXr_thread {s : State} {h : Nat} (e : s.cur = .thread h) (r : BitVec 5) (v : Word) :
    s.setXr r v = s.setThread h { s.thread h with x := xset (s.thread h).x r v } := by simp [State.setXr, e]
theorem setPc_core {s : State} {n : Nat} (h : s.cur = .core n) (p : Word) :
    s.setPc p = s.modFg n (fun c => { c with pc := p }) := by simp [State.setPc, h]
theorem setPc_thread {s : State} {h : Nat} (e : s.cur = .thread h) (p : Word) :
    s.setPc p = s.setThread h { s.thread h with pc := p } := by simp [State.setPc, e]
theorem onCore_core {s : State} {n : Nat} (h : s.cur = .core n) (w : Word) (f : Nat → State) : s.onCore w f = f n := by
  simp [State.onCore, h]
theorem onCore_thread {s : State} {h : Nat} (e : s.cur = .thread h) (w : Word) (f : Nat → State) :
    s.onCore w f = s.trapHere 0x01 w := by simp [State.onCore, e]
theorem onThread_thread {s : State} {h : Nat} (e : s.cur = .thread h) (w : Word) (f : Nat → State) :
    s.onThread w f = f h := by simp [State.onThread, e]
theorem onThread_core {s : State} {n : Nat} (h : s.cur = .core n) (w : Word) (f : Nat → State) :
    s.onThread w f = s.trapHere 0x01 w := by simp [State.onThread, h]

@[simp] theorem setXr_cur (s : State) (r : BitVec 5) (v : Word) : (s.setXr r v).cur = s.cur := by
  unfold State.setXr; split <;> rfl
@[simp] theorem setPc_cur (s : State) (p : Word) : (s.setPc p).cur = s.cur := by
  unfold State.setPc; split <;> rfl
@[simp] theorem setXr_mem (s : State) (r : BitVec 5) (v : Word) : (s.setXr r v).mem = s.mem := by
  unfold State.setXr; split <;> rfl
@[simp] theorem setPc_mem (s : State) (p : Word) : (s.setPc p).mem = s.mem := by
  unfold State.setPc; split <;> rfl
@[simp] theorem setXr_poison (s : State) (r : BitVec 5) (v : Word) : (s.setXr r v).poison = s.poison := by
  unfold State.setXr; split <;> rfl
@[simp] theorem setPc_poison (s : State) (p : Word) : (s.setPc p).poison = s.poison := by
  unfold State.setPc; split <;> rfl
@[simp] theorem setXr_jobs (s : State) (r : BitVec 5) (v : Word) : (s.setXr r v).jobs = s.jobs := by
  unfold State.setXr; split <;> rfl
@[simp] theorem setPc_jobs (s : State) (p : Word) : (s.setPc p).jobs = s.jobs := by
  unfold State.setPc; split <;> rfl
@[simp] theorem setXr_sch (s : State) (r : BitVec 5) (v : Word) : (s.setXr r v).sch = s.sch := by
  unfold State.setXr; split <;> rfl
@[simp] theorem setPc_sch (s : State) (p : Word) : (s.setPc p).sch = s.sch := by
  unfold State.setPc; split <;> rfl
@[simp] theorem setXr_mat (s : State) (r : BitVec 5) (v : Word) : (s.setXr r v).mat = s.mat := by
  unfold State.setXr; split <;> rfl
@[simp] theorem setPc_mat (s : State) (p : Word) : (s.setPc p).mat = s.mat := by
  unfold State.setPc; split <;> rfl
@[simp] theorem setXr_fab (s : State) (r : BitVec 5) (v : Word) : (s.setXr r v).fab = s.fab := by
  unfold State.setXr; split <;> rfl
@[simp] theorem setPc_fab (s : State) (p : Word) : (s.setPc p).fab = s.fab := by
  unfold State.setPc; split <;> rfl
@[simp] theorem setXr_mgmt (s : State) (r : BitVec 5) (v : Word) : (s.setXr r v).mgmt = s.mgmt := by
  unfold State.setXr; split <;> rfl
@[simp] theorem setPc_mgmt (s : State) (p : Word) : (s.setPc p).mgmt = s.mgmt := by
  unfold State.setPc; split <;> rfl
@[simp] theorem setXr_pkgid (s : State) (r : BitVec 5) (v : Word) : (s.setXr r v).pkgid = s.pkgid := by
  unfold State.setXr; split <;> rfl
@[simp] theorem setPc_pkgid (s : State) (p : Word) : (s.setPc p).pkgid = s.pkgid := by
  unfold State.setPc; split <;> rfl
@[simp] theorem setXr_podid (s : State) (r : BitVec 5) (v : Word) : (s.setXr r v).podid = s.podid := by
  unfold State.setXr; split <;> rfl
@[simp] theorem setPc_podid (s : State) (p : Word) : (s.setPc p).podid = s.podid := by
  unfold State.setPc; split <;> rfl
@[simp] theorem setXr_now (s : State) (r : BitVec 5) (v : Word) : (s.setXr r v).now = s.now := by
  unfold State.setXr; split <;> rfl
@[simp] theorem setPc_now (s : State) (p : Word) : (s.setPc p).now = s.now := by
  unfold State.setPc; split <;> rfl
@[simp] theorem setXr_lockstep (s : State) (r : BitVec 5) (v : Word) : (s.setXr r v).lockstep = s.lockstep := by
  unfold State.setXr; split <;> rfl
@[simp] theorem setPc_lockstep (s : State) (p : Word) : (s.setPc p).lockstep = s.lockstep := by
  unfold State.setPc; split <;> rfl
@[simp] theorem retire_cur (s : State) (len k : Nat) : (s.retire len k).cur = s.cur := by simp [State.retire]
@[simp] theorem retire_mem (s : State) (len k : Nat) : (s.retire len k).mem = s.mem := by simp [State.retire]
@[simp] theorem retire_poison (s : State) (len k : Nat) : (s.retire len k).poison = s.poison := by simp [State.retire]
@[simp] theorem retire_jobs (s : State) (len k : Nat) : (s.retire len k).jobs = s.jobs := by simp [State.retire]
@[simp] theorem retire_sch (s : State) (len k : Nat) : (s.retire len k).sch = s.sch := by simp [State.retire]
@[simp] theorem retire_mat (s : State) (len k : Nat) : (s.retire len k).mat = s.mat := by simp [State.retire]
@[simp] theorem retire_fab (s : State) (len k : Nat) : (s.retire len k).fab = s.fab := by simp [State.retire]
@[simp] theorem retire_mgmt (s : State) (len k : Nat) : (s.retire len k).mgmt = s.mgmt := by simp [State.retire]
@[simp] theorem retire_pkgid (s : State) (len k : Nat) : (s.retire len k).pkgid = s.pkgid := by simp [State.retire]
@[simp] theorem retire_podid (s : State) (len k : Nat) : (s.retire len k).podid = s.podid := by simp [State.retire]
@[simp] theorem retire_lockstep (s : State) (len k : Nat) : (s.retire len k).lockstep = s.lockstep := by simp [State.retire]

/-- An instruction of a core that only retires: the PC moves on, and cycles pass. -/
theorem retire_core {s : State} {n : Nat} (h : s.cur = .core n) (len k : Nat) :
    s.retire len k = (s.modFg n (fun c => { c with pc := c.pc + wOf len })).tick k := by
  simp [State.retire, setPc_core h, pc_core h, State.modFg]

/-- The foreground of the core that has written a register and retired. -/
theorem fg_setXr_retire {s : State} {n : Nat} (h : s.cur = .core n) (r : BitVec 5) (v : Word) (len k : Nat) :
    ((s.setXr r v).retire len k).fg n = { (s.fg n).setX r v with pc := (s.fg n).pc + wOf len } := by
  have h' : (s.setXr r v).cur = .core n := by simp [h]
  rw [retire_core h', setXr_core h]
  simp

/-- No other core sees it. -/
theorem core_setXr_retire_ne {s : State} {n m : Nat} (h : s.cur = .core n) (e : n ≠ m) (r : BitVec 5) (v : Word)
    (len k : Nat) : ((s.setXr r v).retire len k).core m = s.core m := by
  have h' : (s.setXr r v).cur = .core n := by simp [h]
  rw [retire_core h', setXr_core h]
  simp [core_modFg_ne _ _ _ _ e]

end Sys2Proof.Machine
end

