-- ==== Sys2Proof/Laws/Ops.lean ====
section
/-! SUPPORT. What each shared operation can do, said once: taking a trap, the service of a wait, memory by bytes. -/

namespace Sys2Proof.Machine

/-- What a trap clears in the context it is taken in. -/
def Ctx.trapped (c : Ctx) (unit : Nat) : Ctx :=
  { c with wait := if unit = 0 then none else c.wait, hold := none, bfmtPend := none, exiting := false }

/-- A trap that the task handler takes. -/
theorem takeTrap_handler (s : State) (n cause unit : Nat) (cut val : Word) (h1 : (s.core n).stepping = none)
    (h2 : (s.fg n).takesHandler cause = true) :
    s.takeTrap n cause unit cut val = s.setFg n
      { s.writeRec ((s.fg n).trapped unit) cause unit 7 true false cut val with
        csr := { (s.fg n).csr with tcause := wOf (cause + unit * 256), tepc := cut, tval := val }
        hact := true
        pc := handlerAddr (s.fg n).csr.tvec } := by
  unfold State.takeTrap
  simp only [h1]
  rw [if_neg (by simp), if_pos (by exact h2)]
  rfl

/-- A trap that goes to containment. -/
theorem takeTrap_containment (s : State) (n cause unit : Nat) (cut val : Word) (h1 : (s.core n).stepping = none)
    (h2 : (s.fg n).takesHandler cause = false) (h3 : cause ≠ 0x0C) :
    s.takeTrap n cause unit cut val = s.setFg n
      { s.freezeCtx (s.writeRec ((s.fg n).trapped unit) cause unit 7 false false cut val) .containment with pc := cut } := by
  unfold State.takeTrap
  simp only [h1]
  rw [if_neg (by simp), if_neg (by simp only [show (s.core n).fg = s.fg n from rfl]; exact ne_true_of_eq_false h2),
    if_neg h3]
  rfl

/-- A breakpoint. -/
theorem takeTrap_breakpoint (s : State) (n unit : Nat) (cut val : Word) (h1 : (s.core n).stepping = none) :
    s.takeTrap n 0x0C unit cut val = (s.setFg n
      { s.freezeCtx (s.writeRec ((s.fg n).trapped unit) 0x0C unit 7 false true cut val) .haltWave with
        pc := cut }).originateCore n (s.fg n).ident.job 0x0C (s.jtime (s.fg n).ident.job) := by
  unfold State.takeTrap
  simp only [h1]
  rw [if_neg (by simp), if_neg (by simp [Ctx.takesHandler]), if_pos trivial]
  rfl

/-- A trap of the moving core's own instruction, or of the moving thread's. -/
theorem trapHere_core {s : State} {n : Nat} (h : s.cur = .core n) (cause : Nat) (val : Word) :
    s.trapHere cause val = (s.takeTrap n cause 0 (s.fg n).pc val).tick 1 := by simp [State.trapHere, h]
theorem trapHere_thread {s : State} {h : Nat} (e : s.cur = .thread h) (cause : Nat) (val : Word) :
    s.trapHere cause val = (s.threadTrap h cause val).tick 1 := by simp [State.trapHere, e]

/-- An event keeps everything but the ports of the Hamper. -/
@[simp] theorem event_mem (s : State) (tag imm : Word) (j : Nat) (p : List Byte) : (s.event tag imm j p).mem = s.mem := by
  unfold State.event State.pushPort; split <;> rfl
@[simp] theorem event_cores (s : State) (tag imm : Word) (j : Nat) (p : List Byte) :
    (s.event tag imm j p).cores = s.cores := by unfold State.event State.pushPort; split <;> rfl
@[simp] theorem event_jobs (s : State) (tag imm : Word) (j : Nat) (p : List Byte) :
    (s.event tag imm j p).jobs = s.jobs := by unfold State.event State.pushPort; split <;> rfl
@[simp] theorem event_cur (s : State) (tag imm : Word) (j : Nat) (p : List Byte) :
    (s.event tag imm j p).cur = s.cur := by unfold State.event State.pushPort; split <;> rfl
@[simp] theorem event_thread (s : State) (tag imm : Word) (j h : Nat) (p : List Byte) :
    (s.event tag imm j p).thread h = s.thread h := by unfold State.event State.pushPort; split <;> rfl

/-! ## Waits -/

/-- A deadline-bearing instruction whose test succeeds at its issue completes there (R37). -/
theorem beginWait_now {s t : State} {n : Nat} {w : Wait} {test : Test} (late : Expiry) (h : test s n w = some t) :
    s.beginWait n w test late = t := by simp [State.beginWait, h]

/-- One whose test fails, of a core that is not stepped, before its deadline: it waits (R37). -/
theorem beginWait_waits {s : State} {n : Nat} {w : Wait} {test : Test} (late : Expiry) (h : test s n w = none)
    (hc : s.cur = .core n) (hs : (s.core n).stepping = none) (hd : s.agentTime.toNat ≤ w.d.toNat) :
    s.beginWait n w test late = (s.modFg n (fun c => { c with wait := some w })).tick 1 := by
  simp [State.beginWait, h, hc, hs, State.setWait, Nat.not_lt.2 hd]

/-- One whose test fails after its deadline: it takes its TIMEOUT at once (R37, R40). -/
theorem beginWait_late {s : State} {n : Nat} {w : Wait} {test : Test} (late : Expiry) (h : test s n w = none)
    (hc : s.cur = .core n) (hs : (s.core n).stepping = none) (hd : w.d.toNat < s.agentTime.toNat) :
    s.beginWait n w test late = late s n w := by
  simp [State.beginWait, h, hc, hs, hd]

/-! ## The canonical form of memory -/

theorem putBytes_canonical {s : State} (a : Nat) (bs : List Byte) (h : s.canonical) : (s.putBytes a bs).canonical :=
  memWrite_wf bs s.mem a h

theorem spadWrite_canonical {s : State} (n off : Nat) (bs : List Byte) (h : s.canonical) :
    (s.spadWrite n off bs).canonical := putBytes_canonical (spadKey n off) bs h

end Sys2Proof.Machine
end

