-- ==== Sys2Proof/Laws/PerInstr.lean ====
section
/-! SUPPORT. What each instruction's word is read as, one lemma per constructor of `Instr`. -/

namespace Sys2Proof

set_option Elab.async false

/-- The instruction that a word is read as: the three kinds of `JCFG` share one word, which the kind in `xb` tells
apart when it runs (R358). -/
def Instr.sameWord : Instr → Instr
  | .jcfgWindowTemplate f => .jcfgHandle f
  | .jcfgWindowContext f => .jcfgHandle f
  | i => i

namespace Laws

/-- The word of a well-formed instruction names the instruction's class, major op, form and fields (R78 to R94); a
step without an encoding has no word. -/
def Coded.Statement (i : Instr) : Prop :=
  i.wf = true → ∀ w, encode64 i = some w → decodeForm w (encodeRest i) = some i.sameWord

theorem Coded.scalarLoad (f : LoadF) : Coded.Statement (.scalarLoad f) := fun _ _ h => nomatch h

theorem Coded.scalarStore (f : StoreF) : Coded.Statement (.scalarStore f) := fun _ _ h => nomatch h

theorem Coded.rv64IntegerOp (o : RvOp) (enc : RvEnc) : Coded.Statement (.rv64IntegerOp o enc) := fun _ _ h => nomatch h

theorem Coded.instructionFetch : Coded.Statement .instructionFetch := fun _ _ h => nomatch h

theorem Coded.fence (f : FenceF) : Coded.Statement (.fence f) := fun _ _ h => nomatch h

theorem Coded.fenceI (f : FenceF) : Coded.Statement (.fenceI f) := fun _ _ h => nomatch h

theorem Coded.ecall : Coded.Statement .ecall := fun _ _ h => nomatch h

theorem Coded.ebreak : Coded.Statement .ebreak := fun _ _ h => nomatch h

theorem Coded.cEbreak : Coded.Statement .cEbreak := fun _ _ h => nomatch h

theorem Coded.csrAccess (f : CsrF) : Coded.Statement (.csrAccess f) := fun _ _ h => nomatch h

theorem Coded.bfmtWrite (f : CsrF) : Coded.Statement (.bfmtWrite f) := fun _ _ h => nomatch h

theorem Coded.bfmtTakesEffect (n : Nat) : Coded.Statement (.bfmtTakesEffect n) := fun _ _ h => nomatch h

theorem Coded.sleepu (f : FmtD) : Coded.Statement (.sleepu f) := by
  intro _ w e
  cases e
  simp only [form_putD, Instr.sameWord, majorSQ, major_putD f 1 0 (by decide), getD_putD]

theorem Coded.engdl (f : FmtQ) : Coded.Statement (.engdl f) := by
  intro _ w e
  cases e
  simp only [form_putQ, Instr.sameWord, majorSQ, major_putQ f 6 0 (by decide), getQ_putQ]

theorem Coded.engst (f : FmtQ) : Coded.Statement (.engst f) := by
  intro _ w e
  cases e
  simp only [form_putQ, Instr.sameWord, majorSQ, major_putQ f 7 0 (by decide), getQ_putQ]

theorem Coded.engsync (f : FmtD) : Coded.Statement (.engsync f) := by
  intro _ w e
  cases e
  simp only [form_putD, Instr.sameWord, majorSQ, major_putD f 9 0 (by decide), getD_putD]

theorem Coded.semwait (f : FmtD) : Coded.Statement (.semwait f) := by
  intro _ w e
  cases e
  simp only [form_putD, Instr.sameWord, majorSQ, major_putD f 2 0 (by decide), getD_putD]

theorem Coded.semsig (f : FmtQ) : Coded.Statement (.semsig f) := by
  intro _ w e
  cases e
  simp only [form_putQ, Instr.sameWord, majorSQ, major_putQ f 3 0 (by decide), getQ_putQ]

theorem Coded.semadd (f : FmtQ) : Coded.Statement (.semadd f) := by
  intro _ w e
  cases e
  simp only [form_putQ, Instr.sameWord, majorSQ, major_putQ f 4 0 (by decide), getQ_putQ]

theorem Coded.semrd (f : FmtQ) : Coded.Statement (.semrd f) := by
  intro _ w e
  cases e
  simp only [form_putQ, Instr.sameWord, majorSQ, major_putQ f 5 0 (by decide), getQ_putQ]

theorem Coded.engringOff (f : FmtQ) : Coded.Statement (.engringOff f) := by
  intro h w e
  cases e
  have g : (qRing f 0 true) = true := h
  simp only [qRing, Bool.and_eq_true, decide_eq_true_eq] at g
  simp only [form_putQ, Instr.sameWord, majorSQ, major_putQ f 8 0 (by decide), getQ_putQ, g]
  rfl

theorem Coded.engringOn (f : FmtQ) : Coded.Statement (.engringOn f) := by
  intro h w e
  cases e
  have g : (qRing f 1 false) = true := h
  simp only [qRing, Bool.and_eq_true, decide_eq_true_eq] at g
  simp only [form_putQ, Instr.sameWord, majorSQ, major_putQ f 8 0 (by decide), getQ_putQ, g]
  rfl

theorem Coded.engringGo (f : FmtQ) : Coded.Statement (.engringGo f) := by
  intro h w e
  cases e
  have g : (qRing f 2 true) = true := h
  simp only [qRing, Bool.and_eq_true, decide_eq_true_eq] at g
  simp only [form_putQ, Instr.sameWord, majorSQ, major_putQ f 8 0 (by decide), getQ_putQ, g]
  rfl

theorem Coded.engringSkip (f : FmtQ) : Coded.Statement (.engringSkip f) := by
  intro h w e
  cases e
  have g : (qRing f 3 true) = true := h
  simp only [qRing, Bool.and_eq_true, decide_eq_true_eq] at g
  simp only [form_putQ, Instr.sameWord, majorSQ, major_putQ f 8 0 (by decide), getQ_putQ, g]
  rfl

theorem Coded.engringDrop (f : FmtQ) : Coded.Statement (.engringDrop f) := by
  intro h w e
  cases e
  have g : (qRing f 4 true) = true := h
  simp only [qRing, Bool.and_eq_true, decide_eq_true_eq] at g
  simp only [form_putQ, Instr.sameWord, majorSQ, major_putQ f 8 0 (by decide), getQ_putQ, g]
  rfl

theorem Coded.slcfg (f : FmtQ) : Coded.Statement (.slcfg f) := by
  intro _ w e
  cases e
  simp only [form_putQ, Instr.sameWord, majorSQ, major_putQ f 10 0 (by decide), getQ_putQ]

theorem Coded.sladvCons (f : FmtQ) : Coded.Statement (.sladvCons f) := by
  intro h w e
  cases e
  have g : (qSpool f false 0) = true := h
  simp only [qSpool, Bool.and_eq_true, decide_eq_true_eq] at g
  simp only [form_putQ, Instr.sameWord, majorSQ, major_putQ f 11 0 (by decide), getQ_putQ, g]
  rfl

theorem Coded.sladvProd (f : FmtQ) : Coded.Statement (.sladvProd f) := by
  intro h w e
  cases e
  have g : (qSpool f false 1) = true := h
  simp only [qSpool, Bool.and_eq_true, decide_eq_true_eq] at g
  simp only [form_putQ, Instr.sameWord, majorSQ, major_putQ f 11 0 (by decide), getQ_putQ, g]
  rfl

theorem Coded.sltokRd (f : FmtQ) : Coded.Statement (.sltokRd f) := by
  intro h w e
  cases e
  have g : (qSpool f true 0) = true := h
  simp only [qSpool, Bool.and_eq_true, decide_eq_true_eq] at g
  simp only [form_putQ, Instr.sameWord, majorSQ, major_putQ f 12 0 (by decide), getQ_putQ, g]
  rfl

theorem Coded.sltokPut (f : FmtQ) : Coded.Statement (.sltokPut f) := by
  intro h w e
  cases e
  have g : (qSpool f true 1) = true := h
  simp only [qSpool, Bool.and_eq_true, decide_eq_true_eq] at g
  simp only [form_putQ, Instr.sameWord, majorSQ, major_putQ f 12 0 (by decide), getQ_putQ, g]
  rfl

theorem Coded.sltokTake (f : FmtQ) : Coded.Statement (.sltokTake f) := by
  intro h w e
  cases e
  have g : (qSpool f true 2) = true := h
  simp only [qSpool, Bool.and_eq_true, decide_eq_true_eq] at g
  simp only [form_putQ, Instr.sameWord, majorSQ, major_putQ f 12 0 (by decide), getQ_putQ, g]
  rfl

theorem Coded.bar (f : FmtD) : Coded.Statement (.bar f) := by
  intro _ w e
  cases e
  simp only [form_putD, Instr.sameWord, majorSQ, major_putD f 16 0 (by decide), getD_putD]

theorem Coded.bara (f : FmtQ) : Coded.Statement (.bara f) := by
  intro _ w e
  cases e
  simp only [form_putQ, Instr.sameWord, majorSQ, major_putQ f 17 0 (by decide), getQ_putQ]

theorem Coded.barw (f : FmtD) : Coded.Statement (.barw f) := by
  intro _ w e
  cases e
  simp only [form_putD, Instr.sameWord, majorSQ, major_putD f 18 0 (by decide), getD_putD]

theorem Coded.barx (f : FmtQ) : Coded.Statement (.barx f) := by
  intro _ w e
  cases e
  simp only [form_putQ, Instr.sameWord, majorSQ, major_putQ f 19 0 (by decide), getQ_putQ]

theorem Coded.barrierArrivalAtHome (a : BarArr) : Coded.Statement (.barrierArrivalAtHome a) := fun _ _ h => nomatch h

theorem Coded.barrierWithdrawalAtHome (w : BarWdr) : Coded.Statement (.barrierWithdrawalAtHome w) := fun _ _ h => nomatch h

theorem Coded.barrierReply (r : BarReply) : Coded.Statement (.barrierReply r) := fun _ _ h => nomatch h

theorem Coded.tlaunch (f : FmtD) : Coded.Statement (.tlaunch f) := by
  intro _ w e
  cases e
  simp only [form_putD, Instr.sameWord, majorSQ, major_putD f 20 0 (by decide), getD_putD]

theorem Coded.texit (f : FmtQ) : Coded.Statement (.texit f) := by
  intro _ w e
  cases e
  simp only [form_putQ, Instr.sameWord, majorSQ, major_putQ f 21 0 (by decide), getQ_putQ]

theorem Coded.taskEnd (n : Nat) : Coded.Statement (.taskEnd n) := fun _ _ h => nomatch h

theorem Coded.tyield (f : FmtQ) : Coded.Statement (.tyield f) := by
  intro _ w e
  cases e
  simp only [form_putQ, Instr.sameWord, majorSQ, major_putQ f 22 0 (by decide), getQ_putQ]

theorem Coded.tarm (f : FmtQ) : Coded.Statement (.tarm f) := by
  intro _ w e
  cases e
  simp only [form_putQ, Instr.sameWord, majorSQ, major_putQ f 23 0 (by decide), getQ_putQ]

theorem Coded.depCounterDecrement (cl slot amt : Nat) : Coded.Statement (.depCounterDecrement cl slot amt) := fun _ _ h => nomatch h

theorem Coded.mark (f : FmtQ) : Coded.Statement (.mark f) := by
  intro _ w e
  cases e
  simp only [form_putQ, Instr.sameWord, majorSQ, major_putQ f 24 0 (by decide), getQ_putQ]

theorem Coded.pfence (f : FmtD) : Coded.Statement (.pfence f) := by
  intro _ w e
  cases e
  simp only [form_putD, Instr.sameWord, majorSQ, major_putD f 25 0 (by decide), getD_putD]

theorem Coded.xfence (f : FmtD) : Coded.Statement (.xfence f) := by
  intro _ w e
  cases e
  simp only [form_putD, Instr.sameWord, majorSQ, major_putD f 26 0 (by decide), getD_putD]

theorem Coded.dld (f : FmtD) : Coded.Statement (.dld f) := by
  intro _ w e
  cases e
  simp only [form_putD, Instr.sameWord, majorSQ, major_putD f 27 0 (by decide), getD_putD]

theorem Coded.taglk (f : FmtQ) : Coded.Statement (.taglk f) := by
  intro _ w e
  cases e
  simp only [form_putQ, Instr.sameWord, majorSQ, major_putQ f 32 0 (by decide), getQ_putQ]

theorem Coded.tagset (f : FmtQ) : Coded.Statement (.tagset f) := by
  intro _ w e
  cases e
  simp only [form_putQ, Instr.sameWord, majorSQ, major_putQ f 33 0 (by decide), getQ_putQ]

theorem Coded.tagclr (f : FmtQ) : Coded.Statement (.tagclr f) := by
  intro h w e
  cases e
  have g : (qZero f true true false false && decide (f.imm = 0)) = true := h
  simp only [Bool.and_eq_true, decide_eq_true_eq] at g
  simp only [form_putQ, Instr.sameWord, majorSQ, major_putQ f 34 0 (by decide), getQ_putQ, g]
  rfl

theorem Coded.tagclrAll (f : FmtQ) : Coded.Statement (.tagclrAll f) := by
  intro h w e
  cases e
  have g : (qZero f true true false false && decide (f.imm = 1)) = true := h
  simp only [Bool.and_eq_true, decide_eq_true_eq] at g
  simp only [form_putQ, Instr.sameWord, majorSQ, major_putQ f 34 0 (by decide), getQ_putQ, g]
  rfl

theorem Coded.tagvic (f : FmtQ) : Coded.Statement (.tagvic f) := by
  intro _ w e
  cases e
  simp only [form_putQ, Instr.sameWord, majorSQ, major_putQ f 35 0 (by decide), getQ_putQ]

theorem Coded.cpput (f : FmtD) : Coded.Statement (.cpput f) := by
  intro h w e
  cases e
  have g : (dZero f true false false && decide (f.aux = 0)) = true := h
  simp only [Bool.and_eq_true, decide_eq_true_eq] at g
  simp only [form_putD, Instr.sameWord, majorSQ, major_putD f 36 0 (by decide), getD_putD, g]
  rfl

theorem Coded.cpputP (f : FmtD) : Coded.Statement (.cpputP f) := by
  intro h w e
  cases e
  have g : (dZero f true false false && decide (f.aux = 1)) = true := h
  simp only [Bool.and_eq_true, decide_eq_true_eq] at g
  simp only [form_putD, Instr.sameWord, majorSQ, major_putD f 36 0 (by decide), getD_putD, g]
  rfl

theorem Coded.tret (f : FmtQ) : Coded.Statement (.tret f) := by
  intro h w e
  cases e
  have g : (qZero f true true true true && decide (f.imm = 0)) = true := h
  simp only [Bool.and_eq_true, decide_eq_true_eq] at g
  simp only [form_putQ, Instr.sameWord, majorSQ, major_putQ f 40 0 (by decide), getQ_putQ, g]
  rfl

theorem Coded.tretSkip (f : FmtQ) : Coded.Statement (.tretSkip f) := by
  intro h w e
  cases e
  have g : (qZero f true true true true && decide (f.imm = 1)) = true := h
  simp only [Bool.and_eq_true, decide_eq_true_eq] at g
  simp only [form_putQ, Instr.sameWord, majorSQ, major_putQ f 40 0 (by decide), getQ_putQ, g]
  rfl

theorem Coded.cutrd (f : FmtQ) : Coded.Statement (.cutrd f) := by
  intro _ w e
  cases e
  simp only [form_putQ, Instr.sameWord, majorSQ, major_putQ f 41 0 (by decide), getQ_putQ]

theorem Coded.ctxswap (f : FmtQ) : Coded.Statement (.ctxswap f) := by
  intro _ w e
  cases e
  simp only [form_putQS, Instr.sameWord, majorSY, major_putQ f 1 5 (by decide), getQ_putQ]

theorem Coded.contextExchangeComplete (n : Nat) : Coded.Statement (.contextExchangeComplete n) := fun _ _ h => nomatch h

theorem Coded.ctxsave (f : FmtD) : Coded.Statement (.ctxsave f) := by
  intro h w e
  cases e
  have g : (dZero f true false true && decide (f.aux = 0)) = true := h
  simp only [Bool.and_eq_true, decide_eq_true_eq] at g
  simp only [form_putDS, Instr.sameWord, majorSY, major_putD f 2 5 (by decide), getD_putD, g]
  rfl

theorem Coded.ctxsaveKeep (f : FmtD) : Coded.Statement (.ctxsaveKeep f) := by
  intro h w e
  cases e
  have g : (dZero f true false true && decide (f.aux = 1)) = true := h
  simp only [Bool.and_eq_true, decide_eq_true_eq] at g
  simp only [form_putDS, Instr.sameWord, majorSY, major_putD f 2 5 (by decide), getD_putD, g]
  rfl

theorem Coded.contextSaveComplete (n : Nat) : Coded.Statement (.contextSaveComplete n) := fun _ _ h => nomatch h

theorem Coded.ctxload (f : FmtD) : Coded.Statement (.ctxload f) := by
  intro _ w e
  cases e
  simp only [form_putDS, Instr.sameWord, majorSY, major_putD f 3 5 (by decide), getD_putD]

theorem Coded.contextFillComplete (n : Nat) : Coded.Statement (.contextFillComplete n) := fun _ _ h => nomatch h

theorem Coded.sbset (f : FmtQ) : Coded.Statement (.sbset f) := by
  intro _ w e
  cases e
  simp only [form_putQS, Instr.sameWord, majorSY, major_putQ f 4 5 (by decide), getQ_putQ]

theorem Coded.tkill (f : FmtQ) : Coded.Statement (.tkill f) := by
  intro _ w e
  cases e
  simp only [form_putQS, Instr.sameWord, majorSY, major_putQ f 5 5 (by decide), getQ_putQ]

theorem Coded.matset (f : FmtQ) : Coded.Statement (.matset f) := by
  intro _ w e
  cases e
  simp only [form_putQS, Instr.sameWord, majorSY, major_putQ f 7 5 (by decide), getQ_putQ]

theorem Coded.tlbinvPg (f : FmtD) : Coded.Statement (.tlbinvPg f) := by
  intro h w e
  cases e
  have g : (dTlb f 0) = true := h
  simp only [dTlb, Bool.and_eq_true, decide_eq_true_eq] at g
  simp only [form_putDS, Instr.sameWord, majorSY, major_putD f 8 5 (by decide), getD_putD, g]
  rfl

theorem Coded.tlbinvAs (f : FmtD) : Coded.Statement (.tlbinvAs f) := by
  intro h w e
  cases e
  have g : (dTlb f 1) = true := h
  simp only [dTlb, Bool.and_eq_true, decide_eq_true_eq] at g
  simp only [form_putDS, Instr.sameWord, majorSY, major_putD f 8 5 (by decide), getD_putD, g]
  rfl

theorem Coded.tlbinvAll (f : FmtD) : Coded.Statement (.tlbinvAll f) := by
  intro h w e
  cases e
  have g : (dTlb f 2) = true := h
  simp only [dTlb, Bool.and_eq_true, decide_eq_true_eq] at g
  simp only [form_putDS, Instr.sameWord, majorSY, major_putD f 8 5 (by decide), getD_putD, g]
  rfl

theorem Coded.hreq (f : FmtQ) : Coded.Statement (.hreq f) := by
  intro _ w e
  cases e
  simp only [form_putQS, Instr.sameWord, majorSY, major_putQ f 6 5 (by decide), getQ_putQ]

theorem Coded.vadd (f : FmtV) : Coded.Statement (.vadd f) := by
  intro _ w e
  cases e
  simp only [form_putV, Instr.sameWord, majorVX, major_putV f 1 (by decide), getV_putV]

theorem Coded.vsub (f : FmtV) : Coded.Statement (.vsub f) := by
  intro _ w e
  cases e
  simp only [form_putV, Instr.sameWord, majorVX, major_putV f 2 (by decide), getV_putV]

theorem Coded.vmul (f : FmtV) : Coded.Statement (.vmul f) := by
  intro _ w e
  cases e
  simp only [form_putV, Instr.sameWord, majorVX, major_putV f 3 (by decide), getV_putV]

theorem Coded.vmulh (f : FmtV) : Coded.Statement (.vmulh f) := by
  intro _ w e
  cases e
  simp only [form_putV, Instr.sameWord, majorVX, major_putV f 4 (by decide), getV_putV]

theorem Coded.vfma (f : FmtV) : Coded.Statement (.vfma f) := by
  intro _ w e
  cases e
  simp only [form_putV, Instr.sameWord, majorVX, major_putV f 5 (by decide), getV_putV]

theorem Coded.vfms (f : FmtV) : Coded.Statement (.vfms f) := by
  intro _ w e
  cases e
  simp only [form_putV, Instr.sameWord, majorVX, major_putV f 6 (by decide), getV_putV]

theorem Coded.vfnma (f : FmtV) : Coded.Statement (.vfnma f) := by
  intro _ w e
  cases e
  simp only [form_putV, Instr.sameWord, majorVX, major_putV f 7 (by decide), getV_putV]

theorem Coded.vdiv (f : FmtV) : Coded.Statement (.vdiv f) := by
  intro _ w e
  cases e
  simp only [form_putV, Instr.sameWord, majorVX, major_putV f 8 (by decide), getV_putV]

theorem Coded.vsqrt (f : FmtV) : Coded.Statement (.vsqrt f) := by
  intro _ w e
  cases e
  simp only [form_putV, Instr.sameWord, majorVX, major_putV f 9 (by decide), getV_putV]

theorem Coded.vmin (f : FmtV) : Coded.Statement (.vmin f) := by
  intro _ w e
  cases e
  simp only [form_putV, Instr.sameWord, majorVX, major_putV f 10 (by decide), getV_putV]

theorem Coded.vmax (f : FmtV) : Coded.Statement (.vmax f) := by
  intro _ w e
  cases e
  simp only [form_putV, Instr.sameWord, majorVX, major_putV f 11 (by decide), getV_putV]

theorem Coded.vabs (f : FmtV) : Coded.Statement (.vabs f) := by
  intro _ w e
  cases e
  simp only [form_putV, Instr.sameWord, majorVX, major_putV f 12 (by decide), getV_putV]

theorem Coded.vneg (f : FmtV) : Coded.Statement (.vneg f) := by
  intro _ w e
  cases e
  simp only [form_putV, Instr.sameWord, majorVX, major_putV f 13 (by decide), getV_putV]

theorem Coded.vadds (f : FmtV) : Coded.Statement (.vadds f) := by
  intro _ w e
  cases e
  simp only [form_putV, Instr.sameWord, majorVX, major_putV f 14 (by decide), getV_putV]

theorem Coded.vsubs (f : FmtV) : Coded.Statement (.vsubs f) := by
  intro _ w e
  cases e
  simp only [form_putV, Instr.sameWord, majorVX, major_putV f 15 (by decide), getV_putV]

theorem Coded.vshl (f : FmtV) : Coded.Statement (.vshl f) := by
  intro _ w e
  cases e
  simp only [form_putV, Instr.sameWord, majorVX, major_putV f 16 (by decide), getV_putV]

theorem Coded.vshr (f : FmtV) : Coded.Statement (.vshr f) := by
  intro _ w e
  cases e
  simp only [form_putV, Instr.sameWord, majorVX, major_putV f 17 (by decide), getV_putV]

theorem Coded.vsra (f : FmtV) : Coded.Statement (.vsra f) := by
  intro _ w e
  cases e
  simp only [form_putV, Instr.sameWord, majorVX, major_putV f 18 (by decide), getV_putV]

theorem Coded.vaddi (f : FmtVI) : Coded.Statement (.vaddi f) := by
  intro _ w e
  cases e
  simp only [form_putVI, Instr.sameWord, majorVX, major_putVI f 19 (by decide), getVI_putVI]

theorem Coded.vcmp (f : FmtV) : Coded.Statement (.vcmp f) := by
  intro _ w e
  cases e
  simp only [form_putV, Instr.sameWord, majorVX, major_putV f 20 (by decide), getV_putV]

theorem Coded.vredsum (f : FmtV) : Coded.Statement (.vredsum f) := by
  intro _ w e
  cases e
  simp only [form_putV, Instr.sameWord, majorVX, major_putV f 21 (by decide), getV_putV]

theorem Coded.vredmin (f : FmtV) : Coded.Statement (.vredmin f) := by
  intro _ w e
  cases e
  simp only [form_putV, Instr.sameWord, majorVX, major_putV f 22 (by decide), getV_putV]

theorem Coded.vredmax (f : FmtV) : Coded.Statement (.vredmax f) := by
  intro _ w e
  cases e
  simp only [form_putV, Instr.sameWord, majorVX, major_putV f 23 (by decide), getV_putV]

theorem Coded.vand (f : FmtV) : Coded.Statement (.vand f) := by
  intro h w e
  cases e
  have g : (vABfx f (tyB f.ty) false) = true := h
  simp only [vABfx, Bool.and_eq_true, decide_eq_true_eq] at g
  simp only [form_putV, Instr.sameWord, majorVX, major_putV f 24 (by decide), getV_putV, g]
  rfl

theorem Coded.vandNb (f : FmtV) : Coded.Statement (.vandNb f) := by
  intro h w e
  cases e
  have g : (vABfx f (tyB f.ty) true) = true := h
  simp only [vABfx, Bool.and_eq_true, decide_eq_true_eq] at g
  simp only [form_putV, Instr.sameWord, majorVX, major_putV f 24 (by decide), getV_putV, g]
  rfl

theorem Coded.vor (f : FmtV) : Coded.Statement (.vor f) := by
  intro h w e
  cases e
  have g : (vABfx f (tyB f.ty) false) = true := h
  simp only [vABfx, Bool.and_eq_true, decide_eq_true_eq] at g
  simp only [form_putV, Instr.sameWord, majorVX, major_putV f 25 (by decide), getV_putV, g]
  rfl

theorem Coded.vorNb (f : FmtV) : Coded.Statement (.vorNb f) := by
  intro h w e
  cases e
  have g : (vABfx f (tyB f.ty) true) = true := h
  simp only [vABfx, Bool.and_eq_true, decide_eq_true_eq] at g
  simp only [form_putV, Instr.sameWord, majorVX, major_putV f 25 (by decide), getV_putV, g]
  rfl

theorem Coded.vxor (f : FmtV) : Coded.Statement (.vxor f) := by
  intro h w e
  cases e
  have g : (vABfx f (tyB f.ty) false) = true := h
  simp only [vABfx, Bool.and_eq_true, decide_eq_true_eq] at g
  simp only [form_putV, Instr.sameWord, majorVX, major_putV f 26 (by decide), getV_putV, g]
  rfl

theorem Coded.vxorNb (f : FmtV) : Coded.Statement (.vxorNb f) := by
  intro h w e
  cases e
  have g : (vABfx f (tyB f.ty) true) = true := h
  simp only [vABfx, Bool.and_eq_true, decide_eq_true_eq] at g
  simp only [form_putV, Instr.sameWord, majorVX, major_putV f 26 (by decide), getV_putV, g]
  rfl

theorem Coded.vlut3 (f : FmtVL) : Coded.Statement (.vlut3 f) := by
  intro _ w e
  cases e
  simp only [form_putVL, Instr.sameWord, majorVX, major_putVL f 27 (by decide), getVL_putVL, res_putVL, if_true]

theorem Coded.vfsh (f : FmtV) : Coded.Statement (.vfsh f) := by
  intro _ w e
  cases e
  simp only [form_putV, Instr.sameWord, majorVX, major_putV f 28 (by decide), getV_putV]

theorem Coded.vfshw (f : FmtV) : Coded.Statement (.vfshw f) := by
  intro _ w e
  cases e
  simp only [form_putV, Instr.sameWord, majorVX, major_putV f 29 (by decide), getV_putV]

theorem Coded.vrot (f : FmtV) : Coded.Statement (.vrot f) := by
  intro _ w e
  cases e
  simp only [form_putV, Instr.sameWord, majorVX, major_putV f 30 (by decide), getV_putV]

theorem Coded.vpopc (f : FmtV) : Coded.Statement (.vpopc f) := by
  intro _ w e
  cases e
  simp only [form_putV, Instr.sameWord, majorVX, major_putV f 31 (by decide), getV_putV]

theorem Coded.vclz (f : FmtV) : Coded.Statement (.vclz f) := by
  intro _ w e
  cases e
  simp only [form_putV, Instr.sameWord, majorVX, major_putV f 32 (by decide), getV_putV]

theorem Coded.vlrot (f : FmtVI) : Coded.Statement (.vlrot f) := by
  intro _ w e
  cases e
  simp only [form_putVI, Instr.sameWord, majorVX, major_putVI f 33 (by decide), getVI_putVI]

theorem Coded.vshuf (f : FmtV) : Coded.Statement (.vshuf f) := by
  intro _ w e
  cases e
  simp only [form_putV, Instr.sameWord, majorVX, major_putV f 34 (by decide), getV_putV]

theorem Coded.vslide (f : FmtVI) : Coded.Statement (.vslide f) := by
  intro _ w e
  cases e
  simp only [form_putVI, Instr.sameWord, majorVX, major_putVI f 35 (by decide), getVI_putVI]

theorem Coded.vbcast (f : FmtV) : Coded.Statement (.vbcast f) := by
  intro h w e
  cases e
  have g : (vBase f (tyW f.ty) false true true && decide (f.c = 0) && !f.fx) = true := h
  simp only [Bool.and_eq_true, decide_eq_true_eq] at g
  simp only [form_putV, Instr.sameWord, majorVX, major_putV f 36 (by decide), getV_putV, g]
  rfl

theorem Coded.vbcastEl (f : FmtV) : Coded.Statement (.vbcastEl f) := by
  intro h w e
  cases e
  have g : (vBase f (tyW f.ty) false true true && decide (f.c = 0) && f.fx) = true := h
  simp only [Bool.and_eq_true, decide_eq_true_eq] at g
  simp only [form_putV, Instr.sameWord, majorVX, major_putV f 36 (by decide), getV_putV, g]
  rfl

theorem Coded.vzip (f : FmtV) : Coded.Statement (.vzip f) := by
  intro h w e
  cases e
  have g : (vABfx f (tyW f.ty) false) = true := h
  simp only [vABfx, Bool.and_eq_true, decide_eq_true_eq] at g
  simp only [form_putV, Instr.sameWord, majorVX, major_putV f 37 (by decide), getV_putV, g]
  rfl

theorem Coded.vzipHi (f : FmtV) : Coded.Statement (.vzipHi f) := by
  intro h w e
  cases e
  have g : (vABfx f (tyW f.ty) true) = true := h
  simp only [vABfx, Bool.and_eq_true, decide_eq_true_eq] at g
  simp only [form_putV, Instr.sameWord, majorVX, major_putV f 37 (by decide), getV_putV, g]
  rfl

theorem Coded.vunzip (f : FmtV) : Coded.Statement (.vunzip f) := by
  intro h w e
  cases e
  have g : (vABfx f (tyW f.ty) false) = true := h
  simp only [vABfx, Bool.and_eq_true, decide_eq_true_eq] at g
  simp only [form_putV, Instr.sameWord, majorVX, major_putV f 38 (by decide), getV_putV, g]
  rfl

theorem Coded.vunzipOdd (f : FmtV) : Coded.Statement (.vunzipOdd f) := by
  intro h w e
  cases e
  have g : (vABfx f (tyW f.ty) true) = true := h
  simp only [vABfx, Bool.and_eq_true, decide_eq_true_eq] at g
  simp only [form_putV, Instr.sameWord, majorVX, major_putV f 38 (by decide), getV_putV, g]
  rfl

theorem Coded.vsel (f : FmtV) : Coded.Statement (.vsel f) := by
  intro _ w e
  cases e
  simp only [form_putV, Instr.sameWord, majorVX, major_putV f 39 (by decide), getV_putV]

theorem Coded.vmvx (f : FmtV) : Coded.Statement (.vmvx f) := by
  intro _ w e
  cases e
  simp only [form_putV, Instr.sameWord, majorVX, major_putV f 40 (by decide), getV_putV]

theorem Coded.vmxv (f : FmtV) : Coded.Statement (.vmxv f) := by
  intro _ w e
  cases e
  simp only [form_putV, Instr.sameWord, majorVX, major_putV f 41 (by decide), getV_putV]

theorem Coded.pand (f : FmtV) : Coded.Statement (.pand f) := by
  intro _ w e
  cases e
  simp only [form_putV, Instr.sameWord, majorVX, major_putV f 42 (by decide), getV_putV]

theorem Coded.por (f : FmtV) : Coded.Statement (.por f) := by
  intro _ w e
  cases e
  simp only [form_putV, Instr.sameWord, majorVX, major_putV f 43 (by decide), getV_putV]

theorem Coded.pxor (f : FmtV) : Coded.Statement (.pxor f) := by
  intro _ w e
  cases e
  simp only [form_putV, Instr.sameWord, majorVX, major_putV f 44 (by decide), getV_putV]

theorem Coded.pandn (f : FmtV) : Coded.Statement (.pandn f) := by
  intro _ w e
  cases e
  simp only [form_putV, Instr.sameWord, majorVX, major_putV f 45 (by decide), getV_putV]

theorem Coded.pset (f : FmtVI) : Coded.Statement (.pset f) := by
  intro _ w e
  cases e
  simp only [form_putVI, Instr.sameWord, majorVX, major_putVI f 46 (by decide), getVI_putVI]

theorem Coded.pcnt (f : FmtV) : Coded.Statement (.pcnt f) := by
  intro _ w e
  cases e
  simp only [form_putV, Instr.sameWord, majorVX, major_putV f 47 (by decide), getV_putV]

theorem Coded.vcvt (f : FmtV) : Coded.Statement (.vcvt f) := by
  intro h w e
  cases e
  have g : (vBase f (tyCvt f.ty) true true true && tyCvt f.c && !f.fx && decide (f.b.toNat < cvtParts f.ty f.c)) = true := h
  simp only [Bool.and_eq_true, decide_eq_true_eq] at g
  simp only [form_putV, Instr.sameWord, majorVX, major_putV f 48 (by decide), getV_putV, g]
  rfl

theorem Coded.vcvtSat (f : FmtV) : Coded.Statement (.vcvtSat f) := by
  intro h w e
  cases e
  have g : (vBase f (tyB f.ty) true true true && tyB f.c && f.fx && decide (f.b.toNat < cvtParts f.ty f.c)) = true := h
  simp only [Bool.and_eq_true, decide_eq_true_eq] at g
  simp only [form_putV, Instr.sameWord, majorVX, major_putV f 48 (by decide), getV_putV, g]
  rfl

theorem Coded.vpack (f : FmtV) : Coded.Statement (.vpack f) := by
  intro _ w e
  cases e
  simp only [form_putV, Instr.sameWord, majorVX, major_putV f 49 (by decide), getV_putV]

theorem Coded.vunpk (f : FmtV) : Coded.Statement (.vunpk f) := by
  intro _ w e
  cases e
  simp only [form_putV, Instr.sameWord, majorVX, major_putV f 50 (by decide), getV_putV]

theorem Coded.vqmx (f : FmtV) : Coded.Statement (.vqmx f) := by
  intro _ w e
  cases e
  simp only [form_putV, Instr.sameWord, majorVX, major_putV f 51 (by decide), getV_putV]

theorem Coded.vdqmx (f : FmtV) : Coded.Statement (.vdqmx f) := by
  intro _ w e
  cases e
  simp only [form_putV, Instr.sameWord, majorVX, major_putV f 52 (by decide), getV_putV]

theorem Coded.vcbl (f : FmtV) : Coded.Statement (.vcbl f) := by
  intro h w e
  cases e
  have g : (vBase f (decide (f.ty.toNat < 2)) true true true && !f.fx && decide (f.c.toNat < 16) &&
      decide (f.b.toNat < tyWidth f.ty / 4)) = true := h
  simp only [Bool.and_eq_true, decide_eq_true_eq] at g
  simp only [form_putV, Instr.sameWord, majorVX, major_putV f 53 (by decide), getV_putV, g]
  rfl

theorem Coded.vcblEnc (f : FmtV) : Coded.Statement (.vcblEnc f) := by
  intro h w e
  cases e
  have g : (vBase f (decide (f.ty.toNat < 2)) true true true && f.fx && decide (f.c.toNat < 16) &&
      decide (f.b.toNat < tyWidth f.ty / 4)) = true := h
  simp only [Bool.and_eq_true, decide_eq_true_eq] at g
  simp only [form_putV, Instr.sameWord, majorVX, major_putV f 53 (by decide), getV_putV, g]
  rfl

theorem Coded.vld (f : FmtVM) : Coded.Statement (.vld f) := by
  intro _ w e
  cases e
  simp only [form_putVM, Instr.sameWord, majorVX, major_putVM f 54 (by decide), getVM_putVM]

theorem Coded.vlds (f : FmtVM) : Coded.Statement (.vlds f) := by
  intro _ w e
  cases e
  simp only [form_putVM, Instr.sameWord, majorVX, major_putVM f 55 (by decide), getVM_putVM]

theorem Coded.vldx (f : FmtVM) : Coded.Statement (.vldx f) := by
  intro _ w e
  cases e
  simp only [form_putVM, Instr.sameWord, majorVX, major_putVM f 56 (by decide), getVM_putVM]

theorem Coded.vst (f : FmtVM) : Coded.Statement (.vst f) := by
  intro _ w e
  cases e
  simp only [form_putVM, Instr.sameWord, majorVX, major_putVM f 57 (by decide), getVM_putVM]

theorem Coded.vsts (f : FmtVM) : Coded.Statement (.vsts f) := by
  intro _ w e
  cases e
  simp only [form_putVM, Instr.sameWord, majorVX, major_putVM f 58 (by decide), getVM_putVM]

theorem Coded.vstx (f : FmtVM) : Coded.Statement (.vstx f) := by
  intro _ w e
  cases e
  simp only [form_putVM, Instr.sameWord, majorVX, major_putVM f 59 (by decide), getVM_putVM]

theorem Coded.vldw (f : FmtD) : Coded.Statement (.vldw f) := by
  intro _ w e
  cases e
  simp only [form_putDX, Instr.sameWord, majorVX, major_putD f 60 1 (by decide), getD_putD]

theorem Coded.vtrd (f : FmtD) : Coded.Statement (.vtrd f) := by
  intro _ w e
  cases e
  simp only [form_putDX, Instr.sameWord, majorVX, major_putD f 61 1 (by decide), getD_putD]

theorem Coded.readReplyArrival (n k : Nat) (r : Option ReadAns) : Coded.Statement (.readReplyArrival n k r) := fun _ _ h => nomatch h

theorem Coded.postedWritePerformed (n : Nat) : Coded.Statement (.postedWritePerformed n) := fun _ _ h => nomatch h

theorem Coded.postedWriteAck (n w : Nat) : Coded.Statement (.postedWriteAck n w) := fun _ _ h => nomatch h

theorem Coded.mmaAcc (f : FmtM) : Coded.Statement (.mmaAcc f) := by
  intro h w e
  cases e
  have g : (mMma f 0) = true := h
  simp only [mMma, Bool.and_eq_true, decide_eq_true_eq] at g
  have k : f.fm = 0 := BitVec.eq_of_toNat_eq g.1.1.1.1
  simp only [form_putM, Instr.sameWord, majorMT, major_putM f 1 (by decide), getM_putM, k]
  rfl

theorem Coded.mmaOvw (f : FmtM) : Coded.Statement (.mmaOvw f) := by
  intro h w e
  cases e
  have g : (mMma f 1) = true := h
  simp only [mMma, Bool.and_eq_true, decide_eq_true_eq] at g
  have k : f.fm = 1 := BitVec.eq_of_toNat_eq g.1.1.1.1
  simp only [form_putM, Instr.sameWord, majorMT, major_putM f 1 (by decide), getM_putM, k]
  rfl

theorem Coded.mmaSacc (f : FmtM) : Coded.Statement (.mmaSacc f) := by
  intro h w e
  cases e
  have g : (mMma f 2) = true := h
  simp only [mMma, Bool.and_eq_true, decide_eq_true_eq] at g
  have k : f.fm = 2 := BitVec.eq_of_toNat_eq g.1.1.1.1
  simp only [form_putM, Instr.sameWord, majorMT, major_putM f 1 (by decide), getM_putM, k]
  rfl

theorem Coded.mmaSovw (f : FmtM) : Coded.Statement (.mmaSovw f) := by
  intro h w e
  cases e
  have g : (mMma f 3) = true := h
  simp only [mMma, Bool.and_eq_true, decide_eq_true_eq] at g
  have k : f.fm = 3 := BitVec.eq_of_toNat_eq g.1.1.1.1
  simp only [form_putM, Instr.sameWord, majorMT, major_putM f 1 (by decide), getM_putM, k]
  rfl

theorem Coded.mzero (f : FmtM) : Coded.Statement (.mzero f) := by
  intro _ w e
  cases e
  simp only [form_putM, Instr.sameWord, majorMT, major_putM f 2 (by decide), getM_putM]

theorem Coded.mcfg (f : FmtM) : Coded.Statement (.mcfg f) := by
  intro _ w e
  cases e
  simp only [form_putM, Instr.sameWord, majorMT, major_putM f 3 (by decide), getM_putM]

theorem Coded.mgetr (f : FmtM) : Coded.Statement (.mgetr f) := by
  intro _ w e
  cases e
  simp only [form_putM, Instr.sameWord, majorMT, major_putM f 4 (by decide), getM_putM]

theorem Coded.msetr (f : FmtM) : Coded.Statement (.msetr f) := by
  intro _ w e
  cases e
  simp only [form_putM, Instr.sameWord, majorMT, major_putM f 5 (by decide), getM_putM]

theorem Coded.mgetc (f : FmtM) : Coded.Statement (.mgetc f) := by
  intro _ w e
  cases e
  simp only [form_putM, Instr.sameWord, majorMT, major_putM f 6 (by decide), getM_putM]

theorem Coded.msetc (f : FmtM) : Coded.Statement (.msetc f) := by
  intro _ w e
  cases e
  simp only [form_putM, Instr.sameWord, majorMT, major_putM f 7 (by decide), getM_putM]

theorem Coded.mload (f : FmtM) : Coded.Statement (.mload f) := by
  intro _ w e
  cases e
  simp only [form_putM, Instr.sameWord, majorMT, major_putM f 8 (by decide), getM_putM]

theorem Coded.mhadRow (f : FmtM) : Coded.Statement (.mhadRow f) := by
  intro h w e
  cases e
  have g : (mHad f 0) = true := h
  simp only [mHad, Bool.and_eq_true, decide_eq_true_eq] at g
  have k : f.fm = 0 := BitVec.eq_of_toNat_eq g.1.2
  simp only [form_putM, Instr.sameWord, majorMT, major_putM f 9 (by decide), getM_putM, k]
  rfl

theorem Coded.mhadCol (f : FmtM) : Coded.Statement (.mhadCol f) := by
  intro h w e
  cases e
  have g : (mHad f 1) = true := h
  simp only [mHad, Bool.and_eq_true, decide_eq_true_eq] at g
  have k : f.fm = 1 := BitVec.eq_of_toNat_eq g.1.2
  simp only [form_putM, Instr.sameWord, majorMT, major_putM f 9 (by decide), getM_putM, k]
  rfl

theorem Coded.mdrain (f : FmtM) : Coded.Statement (.mdrain f) := by
  intro _ w e
  cases e
  simp only [form_putM, Instr.sameWord, majorMT, major_putM f 10 (by decide), getM_putM]

theorem Coded.mcbld (f : FmtM) : Coded.Statement (.mcbld f) := by
  intro _ w e
  cases e
  simp only [form_putM, Instr.sameWord, majorMT, major_putM f 11 (by decide), getM_putM]

theorem Coded.mbind (f : FmtM) : Coded.Statement (.mbind f) := by
  intro _ w e
  cases e
  simp only [form_putM, Instr.sameWord, majorMT, major_putM f 12 (by decide), getM_putM]

theorem Coded.mcopy (f : FmtM) : Coded.Statement (.mcopy f) := by
  intro h w e
  cases e
  have g : (mCopy f 0) = true := h
  simp only [mCopy, Bool.and_eq_true, decide_eq_true_eq] at g
  have k : f.fm = 0 := BitVec.eq_of_toNat_eq g.1.2
  simp only [form_putM, Instr.sameWord, majorMT, major_putM f 13 (by decide), getM_putM, k]
  rfl

theorem Coded.mcopyAdd (f : FmtM) : Coded.Statement (.mcopyAdd f) := by
  intro h w e
  cases e
  have g : (mCopy f 1) = true := h
  simp only [mCopy, Bool.and_eq_true, decide_eq_true_eq] at g
  have k : f.fm = 1 := BitVec.eq_of_toNat_eq g.1.2
  simp only [form_putM, Instr.sameWord, majorMT, major_putM f 13 (by decide), getM_putM, k]
  rfl

theorem Coded.copy (p : Packet) : Coded.Statement (.copy p) := by
  intro _ w e
  cases e
  simp only [form_putC, Instr.sameWord, encodeRest, packetOf, Option.map_some, Option.getD_some, majorCP, major_putC p.cmd 1 (by decide), getPacket_put]

theorem Coded.tcopyRd (p : Packet) : Coded.Statement (.tcopyRd p) := by
  intro h w e
  cases e
  have g : (cpOk p 2 && !p.cmd.fl.getLsbD 0) = true := h
  simp only [Bool.and_eq_true, Bool.not_eq_true'] at g
  simp only [form_putC, encodeRest, packetOf, Option.map_some, Option.getD_some, Instr.sameWord, majorCP, major_putC p.cmd 2 (by decide), getPacket_put, g]
  rfl

theorem Coded.tcopyWr (p : Packet) : Coded.Statement (.tcopyWr p) := by
  intro h w e
  cases e
  have g : (cpOk p 2 && p.cmd.fl.getLsbD 0) = true := h
  simp only [Bool.and_eq_true] at g
  simp only [form_putC, encodeRest, packetOf, Option.map_some, Option.getD_some, Instr.sameWord, majorCP, major_putC p.cmd 2 (by decide), getPacket_put, g]
  rfl

theorem Coded.im2colw (p : Packet) : Coded.Statement (.im2colw p) := by
  intro _ w e
  cases e
  simp only [form_putC, Instr.sameWord, encodeRest, packetOf, Option.map_some, Option.getD_some, majorCP, major_putC p.cmd 3 (by decide), getPacket_put]

theorem Coded.fill (p : Packet) : Coded.Statement (.fill p) := by
  intro _ w e
  cases e
  simp only [form_putC, Instr.sameWord, encodeRest, packetOf, Option.map_some, Option.getD_some, majorCP, major_putC p.cmd 4 (by decide), getPacket_put]

theorem Coded.accw (p : Packet) : Coded.Statement (.accw p) := by
  intro _ w e
  cases e
  simp only [form_putC, Instr.sameWord, encodeRest, packetOf, Option.map_some, Option.getD_some, majorCP, major_putC p.cmd 5 (by decide), getPacket_put]

theorem Coded.fop (p : Packet) : Coded.Statement (.fop p) := by
  intro _ w e
  cases e
  simp only [form_putC, Instr.sameWord, encodeRest, packetOf, Option.map_some, Option.getD_some, majorCP, major_putC p.cmd 6 (by decide), getPacket_put]

theorem Coded.cas (p : Packet) : Coded.Statement (.cas p) := by
  intro _ w e
  cases e
  simp only [form_putC, Instr.sameWord, encodeRest, packetOf, Option.map_some, Option.getD_some, majorCP, major_putC p.cmd 7 (by decide), getPacket_put]

theorem Coded.redcopy (p : Packet) : Coded.Statement (.redcopy p) := by
  intro _ w e
  cases e
  simp only [form_putC, Instr.sameWord, encodeRest, packetOf, Option.map_some, Option.getD_some, majorCP, major_putC p.cmd 8 (by decide), getPacket_put]

theorem Coded.mcast (p : Packet) : Coded.Statement (.mcast p) := by
  intro _ w e
  cases e
  simp only [form_putC, Instr.sameWord, encodeRest, packetOf, Option.map_some, Option.getD_some, majorCP, major_putC p.cmd 9 (by decide), getPacket_put]

theorem Coded.amcast (p : Packet) : Coded.Statement (.amcast p) := by
  intro _ w e
  cases e
  simp only [form_putC, Instr.sameWord, encodeRest, packetOf, Option.map_some, Option.getD_some, majorCP, major_putC p.cmd 10 (by decide), getPacket_put]

theorem Coded.multicastTileArrival (n : Nat) : Coded.Statement (.multicastTileArrival n) := fun _ _ h => nomatch h

theorem Coded.amcastRetry (e : Nat) : Coded.Statement (.amcastRetry e) := fun _ _ h => nomatch h

theorem Coded.spfill (p : Packet) : Coded.Statement (.spfill p) := by
  intro _ w e
  cases e
  simp only [form_putC, Instr.sameWord, encodeRest, packetOf, Option.map_some, Option.getD_some, majorCP, major_putC p.cmd 11 (by decide), getPacket_put]

theorem Coded.spdrain (p : Packet) : Coded.Statement (.spdrain p) := by
  intro _ w e
  cases e
  simp only [form_putC, Instr.sameWord, encodeRest, packetOf, Option.map_some, Option.getD_some, majorCP, major_putC p.cmd 12 (by decide), getPacket_put]

theorem Coded.qappend (p : Packet) : Coded.Statement (.qappend p) := by
  intro _ w e
  cases e
  simp only [form_putC, Instr.sameWord, encodeRest, packetOf, Option.map_some, Option.getD_some, majorCP, major_putC p.cmd 13 (by decide), getPacket_put]

theorem Coded.qappendAtTarget (c : CopyAgent) : Coded.Statement (.qappendAtTarget c) := fun _ _ h => nomatch h

theorem Coded.sigrem (p : Packet) : Coded.Statement (.sigrem p) := by
  intro _ w e
  cases e
  simp only [form_putC, Instr.sameWord, encodeRest, packetOf, Option.map_some, Option.getD_some, majorCP, major_putC p.cmd 14 (by decide), getPacket_put]

theorem Coded.remoteSignalArrival (n sem amt : Nat) : Coded.Statement (.remoteSignalArrival n sem amt) := fun _ _ h => nomatch h

theorem Coded.copyPacketCompletion (c : CopyAgent) : Coded.Statement (.copyPacketCompletion c) := fun _ _ h => nomatch h

theorem Coded.missedPromise (n : Nat) (ce1 : Bool) : Coded.Statement (.missedPromise n ce1) := fun _ _ h => nomatch h

theorem Coded.wordForward (w : Word) (rest : BitVec 448) : Coded.Statement (.wordForward w rest) := fun _ _ h => nomatch h

theorem Coded.forwardHoldRelease (n : Nat) : Coded.Statement (.forwardHoldRelease n) := fun _ _ h => nomatch h

theorem Coded.forwardHoldTimeout (n : Nat) : Coded.Statement (.forwardHoldTimeout n) := fun _ _ h => nomatch h

theorem Coded.engineEntryStart (n : Nat) (e : Eng) : Coded.Statement (.engineEntryStart n e) := fun _ _ h => nomatch h

theorem Coded.engineWaitTimeout (n : Nat) (e : Eng) : Coded.Statement (.engineWaitTimeout n e) := fun _ _ h => nomatch h

theorem Coded.engineCommandComplete (n : Nat) (e : Eng) : Coded.Statement (.engineCommandComplete n e) := fun _ _ h => nomatch h

theorem Coded.waitConditionMet (a : Agent) : Coded.Statement (.waitConditionMet a) := fun _ _ h => nomatch h

theorem Coded.deadlineExpiry (a : Agent) : Coded.Statement (.deadlineExpiry a) := fun _ _ h => nomatch h

theorem Coded.trapTake (n : Nat) : Coded.Statement (.trapTake n) := fun _ _ h => nomatch h

theorem Coded.containmentDecision (n : Nat) : Coded.Statement (.containmentDecision n) := fun _ _ h => nomatch h

theorem Coded.inFlightReinject (n : Nat) : Coded.Statement (.inFlightReinject n) := fun _ _ h => nomatch h

theorem Coded.launchDivide : Coded.Statement .launchDivide := fun _ _ h => nomatch h

theorem Coded.leafLaunchTake (cl : Nat) : Coded.Statement (.leafLaunchTake cl) := fun _ _ h => nomatch h

theorem Coded.steal (die job num : Nat) : Coded.Statement (.steal die job num) := fun _ _ h => nomatch h

theorem Coded.taskDispatch (cl : Nat) : Coded.Statement (.taskDispatch cl) := fun _ _ h => nomatch h

theorem Coded.completionReport (cl job num : Nat) : Coded.Statement (.completionReport cl job num) := fun _ _ h => nomatch h

theorem Coded.hbmFrameBoundary : Coded.Statement .hbmFrameBoundary := fun _ _ h => nomatch h

theorem Coded.storePerformedInSlot (stack n : Nat) (bad : BitVec 4) : Coded.Statement (.storePerformedInSlot stack n bad) := fun _ _ h => nomatch h

theorem Coded.storeBackpressure (n : Nat) (ce1 : Bool) : Coded.Statement (.storeBackpressure n ce1) := fun _ _ h => nomatch h

theorem Coded.migrationCheck (page : Nat) : Coded.Statement (.migrationCheck page) := fun _ _ h => nomatch h

theorem Coded.migrationSwitch (page : Nat) : Coded.Statement (.migrationSwitch page) := fun _ _ h => nomatch h

theorem Coded.hamperScalarAccess (store : Bool) (f3 : BitVec 3) (r rs1 : BitVec 5) (off : BitVec 12) (enc : RvEnc) : Coded.Statement (.hamperScalarAccess store f3 r rs1 off enc) := fun _ _ h => nomatch h

theorem Coded.hamperThreadTrap (h : Nat) (cause : Byte) (val : Word) : Coded.Statement (.hamperThreadTrap h cause val) := fun _ _ h => nomatch h

theorem Coded.messageArrivalData (m : Msg) : Coded.Statement (.messageArrivalData m) := fun _ _ h => nomatch h

theorem Coded.messageArrivalCtrl (m : Msg) : Coded.Statement (.messageArrivalCtrl m) := fun _ _ h => nomatch h

theorem Coded.messageArrivalCount (m : Msg) : Coded.Statement (.messageArrivalCount m) := fun _ _ h => nomatch h

theorem Coded.nrecv (f : FmtD) : Coded.Statement (.nrecv f) := by
  intro _ w e
  cases e
  simp only [form_putDN, Instr.sameWord, majorNT, major_putD f 1 4 (by decide), getD_putD]

theorem Coded.nsend (f : FmtD) : Coded.Statement (.nsend f) := by
  intro _ w e
  cases e
  simp only [form_putDN, Instr.sameWord, majorNT, major_putD f 2 4 (by decide), getD_putD]

theorem Coded.nprobe (f : FmtD) : Coded.Statement (.nprobe f) := by
  intro _ w e
  cases e
  simp only [form_putDN, Instr.sameWord, majorNT, major_putD f 3 4 (by decide), getD_putD]

theorem Coded.npost (f : FmtQ) : Coded.Statement (.npost f) := by
  intro h w e
  cases e
  have g : (qZero f true true false false && decide (f.imm = 0)) = true := h
  simp only [Bool.and_eq_true, decide_eq_true_eq] at g
  simp only [form_putQN, Instr.sameWord, majorNT, major_putQ f 4 4 (by decide), getQ_putQ, g]
  rfl

theorem Coded.npostCancel (f : FmtQ) : Coded.Statement (.npostCancel f) := by
  intro h w e
  cases e
  have g : (qZero f true true false false && decide (f.imm = 1)) = true := h
  simp only [Bool.and_eq_true, decide_eq_true_eq] at g
  simp only [form_putQN, Instr.sameWord, majorNT, major_putQ f 4 4 (by decide), getQ_putQ, g]
  rfl

theorem Coded.trgarm (f : FmtQ) : Coded.Statement (.trgarm f) := by
  intro _ w e
  cases e
  simp only [form_putQN, Instr.sameWord, majorNT, major_putQ f 5 4 (by decide), getQ_putQ]

theorem Coded.trgdis (f : FmtQ) : Coded.Statement (.trgdis f) := by
  intro _ w e
  cases e
  simp only [form_putQN, Instr.sameWord, majorNT, major_putQ f 6 4 (by decide), getQ_putQ]

theorem Coded.trgrd (f : FmtQ) : Coded.Statement (.trgrd f) := by
  intro h w e
  cases e
  have g : (qZero f true true false false && decide (f.imm = 0)) = true := h
  simp only [Bool.and_eq_true, decide_eq_true_eq] at g
  simp only [form_putQN, Instr.sameWord, majorNT, major_putQ f 7 4 (by decide), getQ_putQ, g]
  rfl

theorem Coded.trgrdBlk (f : FmtQ) : Coded.Statement (.trgrdBlk f) := by
  intro h w e
  cases e
  have g : (qZero f true true false false && decide (f.imm = 1)) = true := h
  simp only [Bool.and_eq_true, decide_eq_true_eq] at g
  simp only [form_putQN, Instr.sameWord, majorNT, major_putQ f 7 4 (by decide), getQ_putQ, g]
  rfl

theorem Coded.ctradd (f : FmtQ) : Coded.Statement (.ctradd f) := by
  intro _ w e
  cases e
  simp only [form_putQN, Instr.sameWord, majorNT, major_putQ f 8 4 (by decide), getQ_putQ]

theorem Coded.ctrrd (f : FmtQ) : Coded.Statement (.ctrrd f) := by
  intro _ w e
  cases e
  simp only [form_putQN, Instr.sameWord, majorNT, major_putQ f 9 4 (by decide), getQ_putQ]

theorem Coded.ctrwait (f : FmtD) : Coded.Statement (.ctrwait f) := by
  intro _ w e
  cases e
  simp only [form_putDN, Instr.sameWord, majorNT, major_putD f 10 4 (by decide), getD_putD]

theorem Coded.ctrset (f : FmtQ) : Coded.Statement (.ctrset f) := by
  intro _ w e
  cases e
  simp only [form_putQN, Instr.sameWord, majorNT, major_putQ f 11 4 (by decide), getQ_putQ]

theorem Coded.nlaunch (f : FmtQ) : Coded.Statement (.nlaunch f) := by
  intro _ w e
  cases e
  simp only [form_putQN, Instr.sameWord, majorNT, major_putQ f 12 4 (by decide), getQ_putQ]

theorem Coded.ncopy (f : FmtD) : Coded.Statement (.ncopy f) := by
  intro _ w e
  cases e
  simp only [form_putDN, Instr.sameWord, majorNT, major_putD f 13 4 (by decide), getD_putD]

theorem Coded.collst (f : FmtQ) : Coded.Statement (.collst f) := by
  intro _ w e
  cases e
  simp only [form_putQN, Instr.sameWord, majorNT, major_putQ f 14 4 (by decide), getQ_putQ]

theorem Coded.jcfgHandle (f : FmtQ) : Coded.Statement (.jcfgHandle f) := by
  intro _ w e
  cases e
  simp only [form_putQN, Instr.sameWord, majorNT, major_putQ f 19 4 (by decide), getQ_putQ]

theorem Coded.jcfgWindowTemplate (f : FmtQ) : Coded.Statement (.jcfgWindowTemplate f) := by
  intro _ w e
  cases e
  simp only [form_putQN, Instr.sameWord, majorNT, major_putQ f 19 4 (by decide), getQ_putQ]

theorem Coded.jcfgWindowContext (f : FmtQ) : Coded.Statement (.jcfgWindowContext f) := by
  intro _ w e
  cases e
  simp only [form_putQN, Instr.sameWord, majorNT, major_putQ f 19 4 (by decide), getQ_putQ]

theorem Coded.haltgo (f : FmtQ) : Coded.Statement (.haltgo f) := by
  intro _ w e
  cases e
  simp only [form_putQN, Instr.sameWord, majorNT, major_putQ f 15 4 (by decide), getQ_putQ]

theorem Coded.hstep (f : FmtQ) : Coded.Statement (.hstep f) := by
  intro _ w e
  cases e
  simp only [form_putQN, Instr.sameWord, majorNT, major_putQ f 16 4 (by decide), getQ_putQ]

theorem Coded.stepEnd (n : Nat) : Coded.Statement (.stepEnd n) := fun _ _ h => nomatch h

theorem Coded.hresume (f : FmtQ) : Coded.Statement (.hresume f) := by
  intro _ w e
  cases e
  simp only [form_putQN, Instr.sameWord, majorNT, major_putQ f 17 4 (by decide), getQ_putQ]

theorem Coded.hcause (f : FmtQ) : Coded.Statement (.hcause f) := by
  intro h w e
  cases e
  have g : (qZero f true true false false && decide (f.imm.toNat < 12)) = true := h
  simp only [Bool.and_eq_true, decide_eq_true_eq] at g
  have k : decide (f.imm.toNat < 16) = true := decide_eq_true (by omega)
  simp only [form_putQN, Instr.sameWord, majorNT, major_putQ f 18 4 (by decide), getQ_putQ, k]
  rfl

theorem Coded.hcauseCore (f : FmtQ) : Coded.Statement (.hcauseCore f) := by
  intro h w e
  cases e
  have g : (qZero f true true false false && decide (16 ≤ f.imm.toNat ∧ f.imm.toNat < 27)) = true := h
  simp only [Bool.and_eq_true, decide_eq_true_eq] at g
  have k : decide (f.imm.toNat < 16) = false := decide_eq_false (by omega)
  simp only [form_putQN, Instr.sameWord, majorNT, major_putQ f 18 4 (by decide), getQ_putQ, k]
  rfl

theorem Coded.tailWrite (page : Nat) (t : BitVec 32) : Coded.Statement (.tailWrite page t) := fun _ _ h => nomatch h

theorem Coded.ecallReply (n : Nat) (reply : List Byte) : Coded.Statement (.ecallReply n reply) := fun _ _ h => nomatch h

theorem Coded.retentionEnter (u : Nat) : Coded.Statement (.retentionEnter u) := fun _ _ h => nomatch h

theorem Coded.retentionWake (u : Nat) : Coded.Statement (.retentionWake u) := fun _ _ h => nomatch h

theorem Coded.domainDeclare (rcd : List Byte) : Coded.Statement (.domainDeclare rcd) := fun _ _ h => nomatch h

theorem Coded.swallowRateUpdate (dom s : Nat) : Coded.Statement (.swallowRateUpdate dom s) := fun _ _ h => nomatch h

theorem Coded.rampWindowBoundary (n : Nat) : Coded.Statement (.rampWindowBoundary n) := fun _ _ h => nomatch h

theorem Coded.jobStopInstant (job : Nat) : Coded.Statement (.jobStopInstant job) := fun _ _ h => nomatch h

theorem Coded.gangResumeInstant (job : Nat) : Coded.Statement (.gangResumeInstant job) := fun _ _ h => nomatch h

theorem Coded.gangGraceExpiry (job : Nat) : Coded.Statement (.gangGraceExpiry job) := fun _ _ h => nomatch h

theorem Coded.haltWaveArrival (job : Nat) (origin jt : Word) : Coded.Statement (.haltWaveArrival job origin jt) := fun _ _ h => nomatch h

theorem Coded.haltReport (job : Nat) : Coded.Statement (.haltReport job) := fun _ _ h => nomatch h

theorem Coded.causeRecordSettle (job : Nat) : Coded.Statement (.causeRecordSettle job) := fun _ _ h => nomatch h

theorem Coded.resumeWaveArrival (job : Nat) (tr jz : Word) : Coded.Statement (.resumeWaveArrival job tr jz) := fun _ _ h => nomatch h

theorem Coded.resumeInstant (job : Nat) : Coded.Statement (.resumeInstant job) := fun _ _ h => nomatch h

theorem Coded.seamLinkFail (link : Nat) : Coded.Statement (.seamLinkFail link) := fun _ _ h => nomatch h

theorem Coded.fabricPacketReceive (p : FabPkt) : Coded.Statement (.fabricPacketReceive p) := fun _ _ h => nomatch h

theorem Coded.fabricAckTimer (src : Nat) : Coded.Statement (.fabricAckTimer src) := fun _ _ h => nomatch h

theorem Coded.packetResendTimeout (dst : Nat) : Coded.Statement (.packetResendTimeout dst) := fun _ _ h => nomatch h

theorem Coded.flitReceive (port : Nat) (f : Flit) : Coded.Statement (.flitReceive port f) := fun _ _ h => nomatch h

theorem Coded.laneDown (port lane : Nat) : Coded.Statement (.laneDown port lane) := fun _ _ h => nomatch h

theorem Coded.retrainComplete (port : Nat) : Coded.Statement (.retrainComplete port) := fun _ _ h => nomatch h

theorem Coded.retrainTimeout (port : Nat) : Coded.Statement (.retrainTimeout port) := fun _ _ h => nomatch h

theorem Coded.timeSyncMeasure (t0 t1 t2 t3 : Word) : Coded.Statement (.timeSyncMeasure t0 t1 t2 t3) := fun _ _ h => nomatch h

theorem Coded.collectiveHandshake (h : Handshake) : Coded.Statement (.collectiveHandshake h) := fun _ _ h => nomatch h

theorem Coded.collectiveGo (job num : Nat) (ok : Bool) : Coded.Statement (.collectiveGo job num ok) := fun _ _ h => nomatch h

theorem Coded.collectiveCompletion (job num : Nat) : Coded.Statement (.collectiveCompletion job num) := fun _ _ h => nomatch h

theorem Coded.hostWindowAccess (func off : Nat) (write : Bool) (data : List Byte) : Coded.Statement (.hostWindowAccess func off write data) := fun _ _ h => nomatch h

theorem Coded.queuePageWrite (func page off : Nat) (data : List Byte) : Coded.Statement (.queuePageWrite func page off data) := fun _ _ h => nomatch h

theorem Coded.vecStoreMsix (page : Nat) : Coded.Statement (.vecStoreMsix page) := fun _ _ h => nomatch h

theorem Coded.ident : Coded.Statement .ident := fun _ _ h => nomatch h

theorem Coded.read : Coded.Statement .read := fun _ _ h => nomatch h

theorem Coded.attest : Coded.Statement .attest := fun _ _ h => nomatch h

theorem Coded.hbmerr : Coded.Statement .hbmerr := fun _ _ h => nomatch h

theorem Coded.window : Coded.Statement .window := fun _ _ h => nomatch h

theorem Coded.link : Coded.Statement .link := fun _ _ h => nomatch h

theorem Coded.commit : Coded.Statement .commit := fun _ _ h => nomatch h

theorem Coded.bootld : Coded.Statement .bootld := fun _ _ h => nomatch h

theorem Coded.power : Coded.Statement .power := fun _ _ h => nomatch h

theorem Coded.therm : Coded.Statement .therm := fun _ _ h => nomatch h

theorem Coded.powerStateChange : Coded.Statement .powerStateChange := fun _ _ h => nomatch h

theorem Coded.powerMeasure (share watts : Nat) : Coded.Statement (.powerMeasure share watts) := fun _ _ h => nomatch h

theorem Coded.thermalThreshold (temp : Nat) : Coded.Statement (.thermalThreshold temp) := fun _ _ h => nomatch h

theorem Coded.deviceReset : Coded.Statement .deviceReset := fun _ _ h => nomatch h

theorem Coded.cxlLinkDownAccess (port : Nat) : Coded.Statement (.cxlLinkDownAccess port) := fun _ _ h => nomatch h

theorem Coded.spoolOrAmcastWaitPassesD (c : CopyAgent) : Coded.Statement (.spoolOrAmcastWaitPassesD c) := fun _ _ h => nomatch h

theorem Coded.uetWriteOrRead (job region off : Nat) (write : Bool) (data : List Byte) : Coded.Statement (.uetWriteOrRead job region off write data) := fun _ _ h => nomatch h

theorem Coded.receivedFrameDropped (port : Nat) : Coded.Statement (.receivedFrameDropped port) := fun _ _ h => nomatch h

theorem Coded.doorbellWrite (v : BitVec 32) : Coded.Statement (.doorbellWrite v) := fun _ _ h => nomatch h

theorem Coded.spareCoreRemap (n : Nat) : Coded.Statement (.spareCoreRemap n) := fun _ _ h => nomatch h

theorem Coded.scrubbing (granule : Nat) (ok : Bool) : Coded.Statement (.scrubbing granule ok) := fun _ _ h => nomatch h

end Laws

end Sys2Proof
end

