-- ==== Sys2Proof/Laws/Units.lean ====
section
/-! SUPPORT. What forwarding a word to a unit at rest comes to: its start, its completion, and the state after. -/

namespace Sys2Proof.Machine

/-! ## The fields of an encoded word -/

/-- The `wait` byte of a word that the encoder builds (R79). -/
theorem putWord_wait (w sg : BitVec 8) (ops : BitVec 32) (major cls : Nat) :
    wfld (putWord w sg ops major cls) 63 56 = w.toNat := by
  have h : ((putWord w sg ops major cls) >>> 56).setWidth 8 = w := by
    apply BitVec.eq_of_getLsbD_eq
    intro i hi
    simp only [putWord, BitVec.getLsbD_setWidth, BitVec.getLsbD_ushiftRight, BitVec.getLsbD_append]
    simp [hi]
    rw [if_neg (by omega), if_neg (by omega), if_neg (by omega), if_neg (by omega), if_neg (by omega),
      show 56 + i - 7 - 3 - 6 - 32 - 8 = i by omega, BitVec.getLsbD_eq_getElem]
  have := congrArg BitVec.toNat h
  rw [BitVec.toNat_setWidth, BitVec.toNat_ushiftRight, Nat.shiftRight_eq_div_pow] at this
  exact this

/-- The `sig` byte of a word that the encoder builds (R79). -/
theorem putWord_sig (w sg : BitVec 8) (ops : BitVec 32) (major cls : Nat) :
    wfld (putWord w sg ops major cls) 55 48 = sg.toNat := by
  have h : ((putWord w sg ops major cls) >>> 48).setWidth 8 = sg := by
    apply BitVec.eq_of_getLsbD_eq
    intro i hi
    simp only [putWord, BitVec.getLsbD_setWidth, BitVec.getLsbD_ushiftRight, BitVec.getLsbD_append]
    simp [hi]
    rw [if_neg (by omega), if_neg (by omega), if_neg (by omega), if_neg (by omega), if_pos (by omega),
      show 48 + i - 7 - 3 - 6 - 32 = i by omega, BitVec.getLsbD_eq_getElem]
  have := congrArg BitVec.toNat h
  rw [BitVec.toNat_setWidth, BitVec.toNat_ushiftRight, Nat.shiftRight_eq_div_pow] at this
  exact this

/-! ## Starting at a unit at rest -/

theorem noPoison (r : Regs) (h : r.pois = []) (ks : List Nat) : r.poisonAmong ks = none := by
  unfold Regs.poisonAmong
  rw [h]
  induction ks with
  | nil => rfl
  | cons k l ih => simp

theorem noCtlPoison (r : Regs) (h : r.pois = []) (i : Instr) : r.ctlPoisoned i = false := by
  unfold Regs.ctlPoisoned
  rw [h]
  rfl

theorem noEntryPoison (r : Regs) (h : r.pois = []) (ord : Nat) (i : Instr) : r.entryPoison ord i = none := by
  unfold Regs.entryPoison
  rw [noCtlPoison r h i, h]
  rfl

theorem clear_rest {s : State} {n : Nat} (h : s.unitsAtRest n) (i : Instr) (vfm : Word) (ord : Nat) :
    (s.fg n).clear i vfm ord = true := by
  obtain ⟨_, _, _, ⟨_, a1, a2, a3⟩, ⟨_, b1, b2, b3⟩, c1, c2, _⟩ := h
  unfold Ctx.clear Ctx.inRun meets
  simp only [a1, a2, a3, b1, b2, b3, c1, c2]
  simp

/-- An entry at a unit at rest whose effect runs and whose `wait` count is there starts (R287). -/
theorem tryEntry_rest {s s' : State} {n : Nat} {q : QEntry} {i : Instr} {eff : Eff} {p : Pending} (h : s.unitsAtRest n)
    (hs : (s.fg n).semReady (wfld q.word 63 56) = true) (he : eff s n q = .run s' p) :
    s.tryEntry n q i eff = .run (s'.modFg n (fun c => c.semTake (wfld q.word 63 56)))
      { p with sig := BitVec.ofNat 8 (wfld q.word 55 48), ord := q.ord, keys := heldKeys i, ring := q.ring } := by
  have hp : (s.fg n).regs.pois = [] := h.2.2.2.2.2.2.2.1
  simp [State.tryEntry, noPoison _ hp, noEntryPoison _ hp, he, clear_rest h, hs]

/-- A word whose entry starts at a unit at rest is started, and the PC moves past it (R282). -/
theorem issueEng_rest {s s' : State} {n : Nat} {e : Eng} {i : Instr} {xa xb xc : Word} {lat gap : Nat} {eff : Eff}
    {p : Pending} (h : s.unitsAtRest n) (he : e = .vx ∨ e = .mt)
    (ht : s.tryEntry n (s.entry n e (encodeWord i) 0 xa xb xc) i eff = .run s' p) :
    s.issueEng e i xa xb xc lat gap eff =
      ((s'.modFg n (fun c => { c with ord := c.ord + 1 })).started n e i p lat gap).retire 8 1 := by
  obtain ⟨h1, h2, h3, ⟨a0, a1, a2, a3⟩, ⟨b0, b1, b2, b3⟩, _⟩ := h
  unfold State.issueEng
  rw [onCore_core h1]
  rcases he with rfl | rfl
  · have g1 : ((s.fg n).hact = false ∧ ((s.fg n).eng .vx).inRing = true) = False := by
      simp [Ctx.eng, Engine.inRing, a0]
    have g2 : (s.fg n).jammed .vx = false := by simp [Ctx.jammed, Ctx.eng, a0]
    have g3 : (s.fg n).hasRoom .vx = true := by simp [Ctx.hasRoom, h3, Ctx.eng, a1]
    have g4 : (s.fg n).freeNow .vx = true := by simp [Ctx.freeNow, h3, Ctx.eng, a0, a1]
    simp only [g1, g2, g3, g4, h2, ht]
    rfl
  · have g1 : ((s.fg n).hact = false ∧ ((s.fg n).eng .mt).inRing = true) = False := by
      simp [Ctx.eng, Engine.inRing, b0]
    have g2 : (s.fg n).jammed .mt = false := by simp [Ctx.jammed, Ctx.eng, b0]
    have g3 : (s.fg n).hasRoom .mt = true := by simp [Ctx.hasRoom, h3, Ctx.eng, b1]
    have g4 : (s.fg n).freeNow .mt = true := by simp [Ctx.freeNow, h3, Ctx.eng, b0, b1]
    simp only [g1, g2, g3, g4, h2, ht]
    rfl

/-- In the view in which commands complete at once, a started command has completed (R81). -/
theorem started_now {s : State} {n : Nat} {e : Eng} {i : Instr} {p : Pending} {lat gap : Nat} (h : s.lockstep = true)
    (hk : p.kind ≠ 7) : s.started n e i p lat gap =
      (((s.modFg n (fun c => (c.dropWrites (engWrites i) p.ord).setEng e { c.eng e with seq := (c.eng e).seq + 1 })).complete
        n e { p with lease := 0 }).settle n e) := by
  unfold State.started
  rw [if_neg hk]
  have : (s.modFg n (fun c => (c.dropWrites (engWrites i) p.ord).setEng e { c.eng e with seq := (c.eng e).seq + 1 })).lockstep
      = true := h
  rw [this]
  rfl

/-! ## What the parts of a completion keep -/

/-- The registers that no part of a completion but the landing of the result changes. -/
def Ctx.sameRegs (c d : Ctx) : Prop :=
  d.regs.v = c.regs.v ∧ d.regs.p = c.regs.p ∧ d.regs.x = c.regs.x ∧ d.regs.tile = c.regs.tile ∧ d.regs.tcfg = c.regs.tcfg ∧
    d.regs.cb = c.regs.cb ∧ d.tag = c.tag ∧ d.rcd = c.rcd ∧ d.csr = c.csr ∧ d.pc = c.pc ∧ d.xord = c.xord

theorem sameRegs_trans {c d e : Ctx} (h : c.sameRegs d) (g : d.sameRegs e) : c.sameRegs e := by
  obtain ⟨a1, a2, a3, a4, a5, a6, a7, a8, a9, a10, a11⟩ := h
  obtain ⟨b1, b2, b3, b4, b5, b6, b7, b8, b9, b10, b11⟩ := g
  exact ⟨b1.trans a1, b2.trans a2, b3.trans a3, b4.trans a4, b5.trans a5, b6.trans a6, b7.trans a7, b8.trans a8,
    b9.trans a9, b10.trans a10, b11.trans a11⟩

theorem sameRegs_setSem (c : Ctx) (k : Nat) (v : BitVec 16) : c.sameRegs (c.setSem k v) :=
  ⟨rfl, rfl, rfl, rfl, rfl, rfl, rfl, rfl, rfl, rfl, rfl⟩
theorem sameRegs_setSpool (c : Ctx) (k : Nat) (v : Spool) : c.sameRegs (c.setSpool k v) :=
  ⟨rfl, rfl, rfl, rfl, rfl, rfl, rfl, rfl, rfl, rfl, rfl⟩
theorem sameRegs_semTake (c : Ctx) (k : Nat) : c.sameRegs (c.semTake k) := by
  unfold Ctx.semTake
  split
  · exact ⟨rfl, rfl, rfl, rfl, rfl, rfl, rfl, rfl, rfl, rfl, rfl⟩
  · exact sameRegs_setSem _ _ _
theorem sameRegs_dropWrites (c : Ctx) (ks : List Nat) (o : Nat) : c.sameRegs (c.dropWrites ks o) :=
  ⟨rfl, rfl, rfl, rfl, rfl, rfl, rfl, rfl, rfl, rfl, rfl⟩
theorem sameRegs_setEng (c : Ctx) (e : Eng) (g : Engine) : c.sameRegs (c.setEng e g) := by
  cases e <;> exact ⟨rfl, rfl, rfl, rfl, rfl, rfl, rfl, rfl, rfl, rfl, rfl⟩

end Sys2Proof.Machine
end

