-- ==== Sys2Proof/Tests/Slice0.lean ====
section
/-! SUPPORT. Tests: ill-formed terms that each check of well-formedness refuses, words written out from the spec's
encodings, the spec's worked examples, and a witness for the hypotheses of every statement. -/

set_option Elab.async false
set_option maxRecDepth 8000
set_option exponentiation.threshold 500

namespace Sys2Proof.Tests

open Sys2Proof Sys2Proof.Machine

/-! ## Operands to build on -/

def fv : FmtV :=
  { wait := 0, sig := 0, ty := 22, pe := false, pg := 0, sm := 0, fx := false, c := 0, b := 2, a := 1, d := 3 }
def fvi : FmtVI := { wait := 0, sig := 0, ty := 22, pe := false, pg := 0, sm := 0, imm := 1, a := 1, d := 3 }
def fvm : FmtVM :=
  { wait := 0, sig := 0, ty := 22, pe := false, pg := 0, sm := 0, off := 1, b := 0, a := 10, d := 3 }
def fd : FmtD := { wait := 0, sig := 0, x := false, aux := 0, st := 9, dl := 13, b := 0, a := 0, d := 0 }
def fq : FmtQ := { wait := 0, sig := 0, imm := 0, c := 0, b := 0, a := 0, d := 0 }
def fm : FmtM := { wait := 0, sig := 0, fa := 0, fb := 0, fm := 0, aux := 0, b := 0, a := 0, t := 1 }
def fc : FmtC := { wait := 0, sig := 0, cr := false, dc := false, eng := 0, fl := 0, aux := 0 }
def pk (f : FmtC) : Packet := ⟨f, 0x1000, 0x2000, 64, 0, 0⟩

/-! ## Well-formedness refuses (R82 to R86) -/

/-- Class SQ: `wait` and `sig` are 0, unnamed fields are 0, and each entry's own bounds. -/
theorem wf_refuses_sq :
    (Instr.sleepu { fd with wait := 1 }).wf = false ∧ (Instr.sleepu { fd with aux := 1 }).wf = false ∧
    (Instr.engdl { fq with sig := 1 }).wf = false ∧ (Instr.engdl { fq with imm := 5 }).wf = false ∧
    (Instr.engst { fq with imm := 4 }).wf = false ∧ (Instr.engsync fd).wf = false ∧
    (Instr.engsync { fd with aux := 16 }).wf = false ∧ (Instr.semwait { fd with b := 4 }).wf = false ∧
    (Instr.semsig { fq with imm := 256 }).wf = false ∧ (Instr.semrd { fq with a := 1 }).wf = false ∧
    (Instr.engringOn { fq with imm := 0x14 }).wf = false ∧ (Instr.engringGo { fq with imm := 0x20, a := 1 }).wf = false ∧
    (Instr.slcfg { fq with imm := 0x10 }).wf = false ∧ (Instr.sltokTake { fq with imm := 0x2F, b := 1 }).wf = false ∧
    (Instr.dld { fd with aux := 7 }).wf = false ∧ (Instr.taglk { fq with c := 1 }).wf = false ∧
    (Instr.tagclrAll { fq with imm := 2 }).wf = false ∧ (Instr.cpput { fd with aux := 1 }).wf = false ∧
    (Instr.tret { fq with d := 1 }).wf = false ∧ (Instr.cutrd { fq with imm := 11 }).wf = false := by decide

/-- The scope codes of barriers, fences and `TLBINV`, and the remaining entries of classes SQ and SY. -/
theorem wf_refuses_scopes :
    (Instr.bar { fd with aux := 1 }).wf = false ∧ (Instr.barw { fd with aux := 8 }).wf = false ∧
    (Instr.bara { fq with imm := 0 }).wf = false ∧ (Instr.pfence fd).wf = false ∧
    (Instr.xfence { fd with aux := 9 }).wf = false ∧ (Instr.pfence { fd with aux := 1, b := 1 }).wf = false ∧
    (Instr.tlbinvPg { fd with aux := 2 }).wf = false ∧ (Instr.tlbinvAs { fd with aux := 0x17 }).wf = false ∧
    (Instr.ctxsaveKeep fd).wf = false ∧ (Instr.tkill { fq with imm := 1 }).wf = false ∧
    (Instr.tlaunch { fd with b := 1 }).wf = false ∧ (Instr.tarm { fq with c := 1 }).wf = false := by decide

/-- Class VX: type groups, predicate fields, spool fields, `fx`, and fields that must be 0. -/
theorem wf_refuses_vx :
    (Instr.vadd { fv with ty := 7 }).wf = false ∧ (Instr.vadd { fv with c := 1 }).wf = false ∧
    (Instr.vadd { fv with pg := 1 }).wf = false ∧ (Instr.vadd { fv with fx := true }).wf = false ∧
    (Instr.vadd { fv with sm := 1, a := 16 }).wf = false ∧ (Instr.vadd { fv with sm := 2, pe := true }).wf = false ∧
    (Instr.vsra fv).wf = false ∧ (Instr.vabs fv).wf = false ∧ (Instr.vaddi { fvi with ty := 0 }).wf = false ∧
    (Instr.vcmp { fv with c := 6 }).wf = false ∧ (Instr.vcmp { fv with d := 8 }).wf = false ∧
    (Instr.vandNb fv).wf = false ∧ (Instr.vbcast { fv with sm := 1 }).wf = false ∧ (Instr.vsel fv).wf = false ∧
    (Instr.pand fv).wf = false ∧ (Instr.pset { fvi with d := 8 }).wf = false ∧
    (Instr.vcvt { fv with ty := 0, c := 0, b := 1 }).wf = false ∧ (Instr.vcvtSat { fv with c := 22, b := 0 }).wf = false ∧
    (Instr.vpack { fv with ty := 5, a := 29 }).wf = false ∧ (Instr.vunpk { fv with ty := 5, b := 4 }).wf = false ∧
    (Instr.vqmx fv).wf = false ∧ (Instr.vcbl { fv with ty := 0, c := 16 }).wf = false ∧
    (Instr.vld { fvm with ty := 5 }).wf = false ∧ (Instr.vld { fvm with b := 1 }).wf = false ∧
    (Instr.vlds { fvm with ty := 7 }).wf = false ∧ (Instr.vst { fvm with sm := 1 }).wf = false := by decide

/-- Class MT, the `aux` and `b` of words in Format D of class VX, copy packets, class NT, and the RISC-V forms. -/
theorem wf_refuses_rest :
    (Instr.mmaAcc { fm with fa := 1, fb := 3 }).wf = false ∧ (Instr.mmaAcc { fm with fa := 16, fb := 16 }).wf = false ∧
    (Instr.mzero { fm with a := 1 }).wf = false ∧ (Instr.mgetc { fm with aux := 2 }).wf = false ∧
    (Instr.mload { fm with fa := 3 }).wf = false ∧ (Instr.mhadRow { fm with aux := 2 }).wf = false ∧
    (Instr.mdrain { fm with aux := 5 }).wf = false ∧ (Instr.mbind { fm with t := 0, fa := 7, fb := 1 }).wf = false ∧
    (Instr.mcopy { fm with aux := 8 }).wf = false ∧ (Instr.vldw { fd with aux := 1 }).wf = false ∧
    (Instr.copy (pk { fc with eng := 3 })).wf = false ∧ (Instr.copy (pk { fc with fl := 2 })).wf = false ∧
    (Instr.tcopyRd (pk { fc with fl := 1 })).wf = false ∧ (Instr.cas (pk fc)).wf = false ∧
    (Instr.accw (pk { fc with aux := 3 })).wf = false ∧ (Instr.nsend { fd with d := 1 }).wf = false ∧
    (Instr.trgrdBlk fq).wf = false ∧ (Instr.hcause { fq with imm := 12 }).wf = false ∧
    (Instr.hstep { fq with imm := 5 }).wf = false ∧
    (Instr.scalarLoad ⟨7, 1, 2, 0, .w32⟩).wf = false ∧ (Instr.scalarStore ⟨4, 1, 2, 0, .w32⟩).wf = false ∧
    (Instr.rv64IntegerOp (.jal 1 3) .w32).wf = false ∧ (Instr.rv64IntegerOp (.shift .slliw 1 2 32) .w32).wf = false ∧
    (Instr.rv64IntegerOp (.imm .addi 1 2 3) (.c16 0x9002)).wf = false ∧ (Instr.csrAccess ⟨0x800, 4, 1, 1⟩).wf = false ∧
    (Instr.csrAccess ⟨0x820, 1, 1, 1⟩).wf = false ∧ (Instr.bfmtWrite ⟨0x800, 1, 1, 1⟩).wf = false ∧
    (Instr.hamperScalarAccess true 4 1 2 0 .w32).wf = false := by decide

/-- One well-formed word of each format. -/
theorem wf_accepts :
    (Instr.vadd fv).wf = true ∧ (Instr.vaddi fvi).wf = true ∧ (Instr.vlut3 ⟨0, 0, 0x96, 3, 2, 1, 7⟩).wf = true ∧
    (Instr.vld fvm).wf = true ∧ (Instr.semwait fd).wf = true ∧ (Instr.semrd fq).wf = true ∧
    (Instr.mcfg fm).wf = true ∧ (Instr.copy (pk fc)).wf = true := by decide

/-! ## Words written out from the encoding tables -/

/-- Class SQ (R87, R110, R199, R246, R292, R296, R305, R396): words built from their bits [15:0] and the fields of R83. -/
theorem words_sq_1 :
    decode64 0x000080A58000043F 0 = some (.sleepu ⟨0, 0, true, 0, 10, 11, 0, 0, 0⟩) ∧
    decode64 0x0000004000E0183F 0 = some (.engdl ⟨0, 0, 4, 0, 0, 7, 0⟩) ∧
    decode64 0x000000B000081C3F 0 = some (.engst ⟨0, 0, 11, 0, 0, 0, 8⟩) ∧
    decode64 0x00001E530000243F 0 = some (.engsync ⟨0, 0, false, 15, 5, 6, 0, 0, 0⟩) ∧
    decode64 0x000010968C04083F 0 = some (.semwait ⟨0, 0, false, 8, 9, 13, 3, 0, 4⟩) ∧
    decode64 0x00000C8000000C3F 0 = some (.semsig ⟨0, 0, 200, 0, 0, 0, 0⟩) ∧
    decode64 0x000000900180103F 0 = some (.semadd ⟨0, 0, 9, 0, 0, 12, 0⟩) ∧
    decode64 0x00000FF0001F143F 0 = some (.semrd ⟨0, 0, 255, 0, 0, 0, 31⟩) ∧
    decode64 0x000000300009203F 0 = some (.engringOff ⟨0, 0, 3, 0, 0, 0, 9⟩) ∧
    decode64 0x000001201CC8203F 0 = some (.engringOn ⟨0, 0, 18, 0, 7, 6, 8⟩) ∧
    decode64 0x000002100001203F 0 = some (.engringGo ⟨0, 0, 33, 0, 0, 0, 1⟩) ∧
    decode64 0x000003000002203F 0 = some (.engringSkip ⟨0, 0, 48, 0, 0, 0, 2⟩) ∧
    decode64 0x000004200003203F 0 = some (.engringDrop ⟨0, 0, 66, 0, 0, 0, 3⟩) ∧
    decode64 0x0000005000C7283F 0 = some (.slcfg ⟨0, 0, 5, 0, 0, 6, 7⟩) := by decide

/-- Class SQ (R87, R110, R199, R246, R292, R296, R305, R396): words built from their bits [15:0] and the fields of R83. -/
theorem words_sq_2 :
    decode64 0x000000F000222C3F 0 = some (.sladvCons ⟨0, 0, 15, 0, 0, 1, 2⟩) ∧
    decode64 0x0000013000642C3F 0 = some (.sladvProd ⟨0, 0, 19, 0, 0, 3, 4⟩) ∧
    decode64 0x000000100005303F 0 = some (.sltokRd ⟨0, 0, 1, 0, 0, 0, 5⟩) ∧
    decode64 0x000001200006303F 0 = some (.sltokPut ⟨0, 0, 18, 0, 0, 0, 6⟩) ∧
    decode64 0x000002A00007303F 0 = some (.sltokTake ⟨0, 0, 42, 0, 0, 0, 7⟩) ∧
    decode64 0x0000069400E6403F 0 = some (.bar ⟨0, 0, false, 3, 9, 8, 0, 7, 6⟩) ∧
    decode64 0x0000007000A4443F 0 = some (.bara ⟨0, 0, 7, 0, 0, 5, 4⟩) ∧
    decode64 0x000084110064483F 0 = some (.barw ⟨0, 0, true, 2, 1, 2, 0, 3, 4⟩) ∧
    decode64 0x0000006000414C3F 0 = some (.barx ⟨0, 0, 6, 0, 0, 2, 1⟩) ∧
    decode64 0x0000005300E8503F 0 = some (.tlaunch ⟨0, 0, false, 0, 5, 6, 0, 7, 8⟩) ∧
    decode64 0x000000000000543F 0 = some (.texit ⟨0, 0, 0, 0, 0, 0, 0⟩) ∧
    decode64 0x000000000011583F 0 = some (.tyield ⟨0, 0, 0, 0, 0, 0, 17⟩) ∧
    decode64 0x0000000008235C3F 0 = some (.tarm ⟨0, 0, 0, 0, 2, 1, 3⟩) ∧
    decode64 0x000000000000603F 0 = some (.mark ⟨0, 0, 0, 0, 0, 0, 0⟩) := by decide

/-- Class SQ (R87, R110, R199, R246, R292, R296, R305, R396): words built from their bits [15:0] and the fields of R83. -/
theorem words_sq_3 :
    decode64 0x000010310020643F 0 = some (.pfence ⟨0, 0, false, 8, 3, 2, 0, 1, 0⟩) ∧
    decode64 0x00008CC6A960683F 0 = some (.xfence ⟨0, 0, true, 6, 12, 13, 10, 11, 0⟩) ∧
    decode64 0x00000C4180416C3F 0 = some (.dld ⟨0, 0, false, 6, 4, 3, 0, 2, 1⟩) ∧
    decode64 0x00000000016A803F 0 = some (.taglk ⟨0, 0, 0, 0, 0, 11, 10⟩) ∧
    decode64 0x00000000316A843F 0 = some (.tagset ⟨0, 0, 0, 0, 12, 11, 10⟩) ∧
    decode64 0x000000000085883F 0 = some (.tagclr ⟨0, 0, 0, 0, 0, 4, 5⟩) ∧
    decode64 0x000000100085883F 0 = some (.tagclrAll ⟨0, 0, 1, 0, 0, 4, 5⟩) ∧
    decode64 0x0000000000068C3F 0 = some (.tagvic ⟨0, 0, 0, 0, 0, 0, 6⟩) ∧
    decode64 0x000000110064903F 0 = some (.cpput ⟨0, 0, false, 0, 1, 2, 0, 3, 4⟩) ∧
    decode64 0x000002110064903F 0 = some (.cpputP ⟨0, 0, false, 1, 1, 2, 0, 3, 4⟩) ∧
    decode64 0x000000000000A03F 0 = some (.tret ⟨0, 0, 0, 0, 0, 0, 0⟩) ∧
    decode64 0x000000100000A03F 0 = some (.tretSkip ⟨0, 0, 1, 0, 0, 0, 0⟩) ∧
    decode64 0x000000A00005A43F 0 = some (.cutrd ⟨0, 0, 10, 0, 0, 0, 5⟩) := by decide

/-- Class SY (R92): words built from their bits [15:0] and the fields of R83. -/
theorem words_sy_1 :
    decode64 0x000000002D4C06BF 0 = some (.ctxswap ⟨0, 0, 0, 0, 11, 10, 12⟩) ∧
    decode64 0x0000001100600ABF 0 = some (.ctxsave ⟨0, 0, false, 0, 1, 2, 0, 3, 0⟩) ∧
    decode64 0x0000821100600ABF 0 = some (.ctxsaveKeep ⟨0, 0, true, 1, 1, 2, 0, 3, 0⟩) ∧
    decode64 0x0000001110600EBF 0 = some (.ctxload ⟨0, 0, false, 0, 1, 2, 4, 3, 0⟩) ∧
    decode64 0x00000000082312BF 0 = some (.sbset ⟨0, 0, 0, 0, 2, 1, 3⟩) ∧
    decode64 0x00000000148616BF 0 = some (.tkill ⟨0, 0, 0, 0, 5, 4, 6⟩) ∧
    decode64 0x0000000000E81ABF 0 = some (.hreq ⟨0, 0, 0, 0, 0, 7, 8⟩) ∧
    decode64 0x00000000292B1EBF 0 = some (.matset ⟨0, 0, 0, 0, 10, 9, 11⟩) ∧
    decode64 0x00000611106022BF 0 = some (.tlbinvPg ⟨0, 0, false, 3, 1, 2, 4, 3, 0⟩) ∧
    decode64 0x00002C11106022BF 0 = some (.tlbinvAs ⟨0, 0, false, 22, 1, 2, 4, 3, 0⟩) ∧
    decode64 0x00004811106022BF 0 = some (.tlbinvAll ⟨0, 0, false, 36, 1, 2, 4, 3, 0⟩) := by decide

/-- Class VX (R88, R117, R132): words built from their bits [15:0] and the fields of R83. -/
theorem words_vx_1 :
    decode64 0x05069580082404BF 0 = some (.vadd ⟨5, 6, 18, true, 3, 0, false, 0, 2, 1, 4⟩) ∧
    decode64 0x05060580082408BF 0 = some (.vsub ⟨5, 6, 0, true, 3, 0, false, 0, 2, 1, 4⟩) ∧
    decode64 0x0506BD8008240CBF 0 = some (.vmul ⟨5, 6, 23, true, 3, 0, false, 0, 2, 1, 4⟩) ∧
    decode64 0x05068580082410BF 0 = some (.vmulh ⟨5, 6, 16, true, 3, 0, false, 0, 2, 1, 4⟩) ∧
    decode64 0x05060D80082420BF 0 = some (.vdiv ⟨5, 6, 1, true, 3, 0, false, 0, 2, 1, 4⟩) ∧
    decode64 0x05061580082428BF 0 = some (.vmin ⟨5, 6, 2, true, 3, 0, false, 0, 2, 1, 4⟩) ∧
    decode64 0x0506A58008242CBF 0 = some (.vmax ⟨5, 6, 20, true, 3, 0, false, 0, 2, 1, 4⟩) ∧
    decode64 0x05068D80082438BF 0 = some (.vadds ⟨5, 6, 17, true, 3, 0, false, 0, 2, 1, 4⟩) ∧
    decode64 0x0506AD8008243CBF 0 = some (.vsubs ⟨5, 6, 21, true, 3, 0, false, 0, 2, 1, 4⟩) ∧
    decode64 0x0506B580082488BF 0 = some (.vshuf ⟨5, 6, 22, true, 3, 0, false, 0, 2, 1, 4⟩) ∧
    decode64 0x0506058F882414BF 0 = some (.vfma ⟨5, 6, 0, true, 3, 0, false, 31, 2, 1, 4⟩) ∧
    decode64 0x05060D8F882418BF 0 = some (.vfms ⟨5, 6, 1, true, 3, 0, false, 31, 2, 1, 4⟩) ∧
    decode64 0x0506158F88241CBF 0 = some (.vfnma ⟨5, 6, 2, true, 3, 0, false, 31, 2, 1, 4⟩) ∧
    decode64 0x05060580002424BF 0 = some (.vsqrt ⟨5, 6, 0, true, 3, 0, false, 0, 0, 1, 4⟩) := by decide

/-- Class VX (R88, R117, R132): words built from their bits [15:0] and the fields of R83. -/
theorem words_vx_2 :
    decode64 0x05069D80002430BF 0 = some (.vabs ⟨5, 6, 19, true, 3, 0, false, 0, 0, 1, 4⟩) ∧
    decode64 0x05060D80002434BF 0 = some (.vneg ⟨5, 6, 1, true, 3, 0, false, 0, 0, 1, 4⟩) ∧
    decode64 0x05069580002454BF 0 = some (.vredsum ⟨5, 6, 18, true, 3, 0, false, 0, 0, 1, 4⟩) ∧
    decode64 0x05061580002458BF 0 = some (.vredmin ⟨5, 6, 2, true, 3, 0, false, 0, 0, 1, 4⟩) ∧
    decode64 0x0506B58000245CBF 0 = some (.vredmax ⟨5, 6, 22, true, 3, 0, false, 0, 0, 1, 4⟩) ∧
    decode64 0x0506A58000247CBF 0 = some (.vpopc ⟨5, 6, 20, true, 3, 0, false, 0, 0, 1, 4⟩) ∧
    decode64 0x0506BD80002480BF 0 = some (.vclz ⟨5, 6, 23, true, 3, 0, false, 0, 0, 1, 4⟩) ∧
    decode64 0x0506B590082440BF 0 = some (.vshl ⟨5, 6, 22, true, 3, 0, true, 0, 2, 1, 4⟩) ∧
    decode64 0x05068D90082444BF 0 = some (.vshr ⟨5, 6, 17, true, 3, 0, true, 0, 2, 1, 4⟩) ∧
    decode64 0x05069D90082448BF 0 = some (.vsra ⟨5, 6, 19, true, 3, 0, true, 0, 2, 1, 4⟩) ∧
    decode64 0x0506A590082478BF 0 = some (.vrot ⟨5, 6, 20, true, 3, 0, true, 0, 2, 1, 4⟩) ∧
    decode64 0x05060583882550BF 0 = some (.vcmp ⟨5, 6, 0, true, 3, 0, false, 7, 2, 1, 5⟩) ∧
    decode64 0x0506B580082460BF 0 = some (.vand ⟨5, 6, 22, true, 3, 0, false, 0, 2, 1, 4⟩) ∧
    decode64 0x0506B590082460BF 0 = some (.vandNb ⟨5, 6, 22, true, 3, 0, true, 0, 2, 1, 4⟩) := by decide

/-- Class VX (R88, R117, R132): words built from their bits [15:0] and the fields of R83. -/
theorem words_vx_3 :
    decode64 0x0506B580082464BF 0 = some (.vor ⟨5, 6, 22, true, 3, 0, false, 0, 2, 1, 4⟩) ∧
    decode64 0x0506B590082464BF 0 = some (.vorNb ⟨5, 6, 22, true, 3, 0, true, 0, 2, 1, 4⟩) ∧
    decode64 0x0506B580082468BF 0 = some (.vxor ⟨5, 6, 22, true, 3, 0, false, 0, 2, 1, 4⟩) ∧
    decode64 0x0506B590082468BF 0 = some (.vxorNb ⟨5, 6, 22, true, 3, 0, true, 0, 2, 1, 4⟩) ∧
    decode64 0x0506AD94882470BF 0 = some (.vfsh ⟨5, 6, 21, true, 3, 0, true, 9, 2, 1, 4⟩) ∧
    decode64 0x05060004882474BF 0 = some (.vfshw ⟨5, 6, 0, false, 0, 0, false, 9, 2, 1, 4⟩) ∧
    decode64 0x05064580082490BF 0 = some (.vbcast ⟨5, 6, 8, true, 3, 0, false, 0, 2, 1, 4⟩) ∧
    decode64 0x05060590082490BF 0 = some (.vbcastEl ⟨5, 6, 0, true, 3, 0, true, 0, 2, 1, 4⟩) ∧
    decode64 0x05063D80082494BF 0 = some (.vzip ⟨5, 6, 7, true, 3, 0, false, 0, 2, 1, 4⟩) ∧
    decode64 0x05063D90082494BF 0 = some (.vzipHi ⟨5, 6, 7, true, 3, 0, true, 0, 2, 1, 4⟩) ∧
    decode64 0x05062D80082498BF 0 = some (.vunzip ⟨5, 6, 5, true, 3, 0, false, 0, 2, 1, 4⟩) ∧
    decode64 0x05062D90082498BF 0 = some (.vunzipOdd ⟨5, 6, 5, true, 3, 0, true, 0, 2, 1, 4⟩) ∧
    decode64 0x05061D8008249CBF 0 = some (.vsel ⟨5, 6, 3, true, 3, 0, false, 0, 2, 1, 4⟩) ∧
    decode64 0x0506A0000824A0BF 0 = some (.vmvx ⟨5, 6, 20, false, 0, 0, false, 0, 2, 1, 4⟩) := by decide

/-- Class VX (R88, R117, R132): words built from their bits [15:0] and the fields of R83. -/
theorem words_vx_4 :
    decode64 0x0506B0000824A4BF 0 = some (.vmxv ⟨5, 6, 22, false, 0, 0, false, 0, 2, 1, 4⟩) ∧
    decode64 0x0506000014C7A8BF 0 = some (.pand ⟨5, 6, 0, false, 0, 0, false, 0, 5, 6, 7⟩) ∧
    decode64 0x0506000014C7ACBF 0 = some (.por ⟨5, 6, 0, false, 0, 0, false, 0, 5, 6, 7⟩) ∧
    decode64 0x0506000014C7B0BF 0 = some (.pxor ⟨5, 6, 0, false, 0, 0, false, 0, 5, 6, 7⟩) ∧
    decode64 0x0506000014C7B4BF 0 = some (.pandn ⟨5, 6, 0, false, 0, 0, false, 0, 5, 6, 7⟩) ∧
    decode64 0x0506B80000C9BCBF 0 = some (.pcnt ⟨5, 6, 23, false, 0, 0, false, 0, 0, 6, 9⟩) ∧
    decode64 0x05060D800424C0BF 0 = some (.vcvt ⟨5, 6, 1, true, 3, 0, false, 0, 1, 1, 4⟩) ∧
    decode64 0x050685999C24C0BF 0 = some (.vcvtSat ⟨5, 6, 16, true, 3, 0, true, 19, 7, 1, 4⟩) ∧
    decode64 0x050628000B84C4BF 0 = some (.vpack ⟨5, 6, 5, false, 0, 0, false, 0, 2, 28, 4⟩) ∧
    decode64 0x050630000FA4C8BF 0 = some (.vunpk ⟨5, 6, 6, false, 0, 0, false, 0, 3, 29, 4⟩) ∧
    decode64 0x050638018824CCBF 0 = some (.vqmx ⟨5, 6, 7, false, 0, 0, false, 3, 2, 1, 4⟩) ∧
    decode64 0x050685818824D0BF 0 = some (.vdqmx ⟨5, 6, 16, true, 3, 0, false, 3, 2, 1, 4⟩) ∧
    decode64 0x050605879C24D4BF 0 = some (.vcbl ⟨5, 6, 0, true, 3, 0, false, 15, 7, 1, 4⟩) ∧
    decode64 0x05060D978C24D4BF 0 = some (.vcblEnc ⟨5, 6, 1, true, 3, 0, true, 15, 3, 1, 4⟩) := by decide

/-- Class VX (R88, R117, R132): words built from their bits [15:0] and the fields of R83. -/
theorem words_vx_5 :
    decode64 0x0000960188276CBF 0 = some (.vlut3 ⟨0, 0, 150, 3, 2, 1, 7⟩) ∧
    decode64 0x0506A59FFC244CBF 0 = some (.vaddi ⟨5, 6, 20, true, 3, 0, 2047, 1, 4⟩) ∧
    decode64 0x0506B59FFC2484BF 0 = some (.vlrot ⟨5, 6, 22, true, 3, 0, 2047, 1, 4⟩) ∧
    decode64 0x0506259FFC248CBF 0 = some (.vslide ⟨5, 6, 4, true, 3, 0, 2047, 1, 4⟩) ∧
    decode64 0x0506B0100141B8BF 0 = some (.pset ⟨5, 6, 22, false, 0, 0, 1024, 10, 1⟩) := by decide

/-- The memory words of class VX (R246): words built from their bits [15:0] and the fields of R83. -/
theorem words_vm_1 :
    decode64 0x0506B59F8143D8BF 0 = some (.vld ⟨5, 6, 22, true, 3, 0, 63, 0, 10, 3⟩) ∧
    decode64 0x0506B59FA543DCBF 0 = some (.vlds ⟨5, 6, 22, true, 3, 0, 63, 9, 10, 3⟩) ∧
    decode64 0x0506B59FA543E0BF 0 = some (.vldx ⟨5, 6, 22, true, 3, 0, 63, 9, 10, 3⟩) ∧
    decode64 0x0506B59F8143E4BF 0 = some (.vst ⟨5, 6, 22, true, 3, 0, 63, 0, 10, 3⟩) ∧
    decode64 0x0506B59FA543E8BF 0 = some (.vsts ⟨5, 6, 22, true, 3, 0, 63, 9, 10, 3⟩) ∧
    decode64 0x0506B59FA543ECBF 0 = some (.vstx ⟨5, 6, 22, true, 3, 0, 63, 9, 10, 3⟩) ∧
    decode64 0x0506804280C7F0BF 0 = some (.vldw ⟨5, 6, true, 0, 4, 5, 0, 6, 7⟩) ∧
    decode64 0x0506804280C7F4BF 0 = some (.vtrd ⟨5, 6, true, 0, 4, 5, 0, 6, 7⟩) := by decide

/-- Class MT (R89, R163): words built from their bits [15:0] and the fields of R83. -/
theorem words_mt_1 :
    decode64 0x050608801062053F 0 = some (.mmaAcc ⟨5, 6, 1, 2, 0, 0, 4, 3, 2⟩) ∧
    decode64 0x050608881062053F 0 = some (.mmaOvw ⟨5, 6, 1, 2, 1, 0, 4, 3, 2⟩) ∧
    decode64 0x050684101062053F 0 = some (.mmaSacc ⟨5, 6, 16, 16, 2, 0, 4, 3, 2⟩) ∧
    decode64 0x050684181062053F 0 = some (.mmaSovw ⟨5, 6, 16, 16, 3, 0, 4, 3, 2⟩) ∧
    decode64 0x050600000007093F 0 = some (.mzero ⟨5, 6, 0, 0, 0, 0, 0, 0, 7⟩) ∧
    decode64 0x0506000000A10D3F 0 = some (.mcfg ⟨5, 6, 0, 0, 0, 0, 0, 5, 1⟩) ∧
    decode64 0x050600001BE2113F 0 = some (.mgetr ⟨5, 6, 0, 0, 0, 0, 6, 31, 2⟩) ∧
    decode64 0x050600001BC3153F 0 = some (.msetr ⟨5, 6, 0, 0, 0, 0, 6, 30, 3⟩) ∧
    decode64 0x050600009BE2193F 0 = some (.mgetc ⟨5, 6, 0, 0, 0, 1, 6, 31, 2⟩) ∧
    decode64 0x050600009BC31D3F 0 = some (.msetc ⟨5, 6, 0, 0, 0, 1, 6, 30, 3⟩) ∧
    decode64 0x050610001065213F 0 = some (.mload ⟨5, 6, 2, 0, 0, 0, 4, 3, 5⟩) ∧
    decode64 0x050680061066293F 0 = some (.mdrain ⟨5, 6, 16, 0, 0, 12, 4, 3, 6⟩) ∧
    decode64 0x0506000780602D3F 0 = some (.mcbld ⟨5, 6, 0, 0, 0, 15, 0, 3, 0⟩) ∧
    decode64 0x05063A000120313F 0 = some (.mbind ⟨5, 6, 7, 8, 0, 0, 0, 9, 0⟩) := by decide

/-- Class MT (R89, R163): words built from their bits [15:0] and the fields of R83. -/
theorem words_mt_2 :
    decode64 0x050600008004253F 0 = some (.mhadRow ⟨5, 6, 0, 0, 0, 1, 0, 0, 4⟩) ∧
    decode64 0x050600090004253F 0 = some (.mhadCol ⟨5, 6, 0, 0, 1, 2, 0, 0, 4⟩) ∧
    decode64 0x050600038000353F 0 = some (.mcopy ⟨5, 6, 0, 0, 0, 7, 0, 0, 0⟩) ∧
    decode64 0x0506000B0000353F 0 = some (.mcopyAdd ⟨5, 6, 0, 0, 1, 6, 0, 0, 0⟩) := by decide

/-- Class CP (R90, R314): words built from their bits [15:0] and the fields of R83. -/
theorem words_cp_1 :
    decode64 0x05060E01000005BF 0 = some (.copy ⟨⟨5, 6, true, true, 2, 1, 0⟩, 0, 0, 0, 0, 0⟩) ∧
    decode64 0x05060E00000309BF 0 = some (.tcopyRd ⟨⟨5, 6, true, true, 2, 0, 3⟩, 0, 0, 0, 0, 0⟩) ∧
    decode64 0x05060E01000009BF 0 = some (.tcopyWr ⟨⟨5, 6, true, true, 2, 1, 0⟩, 0, 0, 0, 0, 0⟩) ∧
    decode64 0x05060E0000000DBF 0 = some (.im2colw ⟨⟨5, 6, true, true, 2, 0, 0⟩, 0, 0, 0, 0, 0⟩) ∧
    decode64 0x05060E03000011BF 0 = some (.fill ⟨⟨5, 6, true, true, 2, 3, 0⟩, 0, 0, 0, 0, 0⟩) ∧
    decode64 0x05060E00016315BF 0 = some (.accw ⟨⟨5, 6, true, true, 2, 0, 355⟩, 0, 0, 0, 0, 0⟩) ∧
    decode64 0x05060E00013019BF 0 = some (.fop ⟨⟨5, 6, true, true, 2, 0, 304⟩, 0, 0, 0, 0, 0⟩) ∧
    decode64 0x05060E0001701DBF 0 = some (.cas ⟨⟨5, 6, true, true, 2, 0, 368⟩, 0, 0, 0, 0, 0⟩) ∧
    decode64 0x05060E00001221BF 0 = some (.redcopy ⟨⟨5, 6, true, true, 2, 0, 18⟩, 0, 0, 0, 0, 0⟩) ∧
    decode64 0x05060E00000025BF 0 = some (.mcast ⟨⟨5, 6, true, true, 2, 0, 0⟩, 0, 0, 0, 0, 0⟩) ∧
    decode64 0x05060E00000029BF 0 = some (.amcast ⟨⟨5, 6, true, true, 2, 0, 0⟩, 0, 0, 0, 0, 0⟩) ∧
    decode64 0x05060E0100002DBF 0 = some (.spfill ⟨⟨5, 6, true, true, 2, 1, 0⟩, 0, 0, 0, 0, 0⟩) ∧
    decode64 0x05060E01000031BF 0 = some (.spdrain ⟨⟨5, 6, true, true, 2, 1, 0⟩, 0, 0, 0, 0, 0⟩) ∧
    decode64 0x05060E01000035BF 0 = some (.qappend ⟨⟨5, 6, true, true, 2, 1, 0⟩, 0, 0, 0, 0, 0⟩) := by decide

/-- Class CP (R90, R314): words built from their bits [15:0] and the fields of R83. -/
theorem words_cp_2 :
    decode64 0x05060E00000039BF 0 = some (.sigrem ⟨⟨5, 6, true, true, 2, 0, 0⟩, 0, 0, 0, 0, 0⟩) := by decide

/-- Class NT (R91, R348, R449): words built from their bits [15:0] and the fields of R83. -/
theorem words_nt_1 :
    decode64 0x00007EC6AD4E063F 0 = some (.nrecv ⟨0, 0, false, 63, 12, 13, 11, 10, 14⟩) ∧
    decode64 0x000000110C800A3F 0 = some (.nsend ⟨0, 0, false, 0, 1, 2, 3, 4, 0⟩) ∧
    decode64 0x00000A1100640E3F 0 = some (.nprobe ⟨0, 0, false, 5, 1, 2, 0, 3, 4⟩) ∧
    decode64 0x000000000022123F 0 = some (.npost ⟨0, 0, 0, 0, 0, 1, 2⟩) ∧
    decode64 0x000000100022123F 0 = some (.npostCancel ⟨0, 0, 1, 0, 0, 1, 2⟩) ∧
    decode64 0x000000020C41163F 0 = some (.trgarm ⟨0, 0, 0, 4, 3, 2, 1⟩) ∧
    decode64 0x0000000000411A3F 0 = some (.trgdis ⟨0, 0, 0, 0, 0, 2, 1⟩) ∧
    decode64 0x0000000000411E3F 0 = some (.trgrd ⟨0, 0, 0, 0, 0, 2, 1⟩) ∧
    decode64 0x0000001000411E3F 0 = some (.trgrdBlk ⟨0, 0, 1, 0, 0, 2, 1⟩) ∧
    decode64 0x000000000C41223F 0 = some (.ctradd ⟨0, 0, 0, 0, 3, 2, 1⟩) ∧
    decode64 0x000000000041263F 0 = some (.ctrrd ⟨0, 0, 0, 0, 0, 2, 1⟩) ∧
    decode64 0x000080520C412A3F 0 = some (.ctrwait ⟨0, 0, true, 0, 5, 4, 3, 2, 1⟩) ∧
    decode64 0x000000000C412E3F 0 = some (.ctrset ⟨0, 0, 0, 0, 3, 2, 1⟩) ∧
    decode64 0x000000000C41323F 0 = some (.nlaunch ⟨0, 0, 0, 0, 3, 2, 1⟩) := by decide

/-- Class NT (R91, R348, R449): words built from their bits [15:0] and the fields of R83. -/
theorem words_nt_2 :
    decode64 0x000000520041363F 0 = some (.ncopy ⟨0, 0, false, 0, 5, 4, 0, 2, 1⟩) ∧
    decode64 0x0000000000413A3F 0 = some (.collst ⟨0, 0, 0, 0, 0, 2, 1⟩) ∧
    decode64 0x000000000C414E3F 0 = some (.jcfgHandle ⟨0, 0, 0, 0, 3, 2, 1⟩) ∧
    decode64 0x0000000000013E3F 0 = some (.haltgo ⟨0, 0, 0, 0, 0, 0, 1⟩) ∧
    decode64 0x000000400041423F 0 = some (.hstep ⟨0, 0, 4, 0, 0, 2, 1⟩) ∧
    decode64 0x000000000041463F 0 = some (.hresume ⟨0, 0, 0, 0, 0, 2, 1⟩) ∧
    decode64 0x000000B000414A3F 0 = some (.hcause ⟨0, 0, 11, 0, 0, 2, 1⟩) ∧
    decode64 0x000001A000414A3F 0 = some (.hcauseCore ⟨0, 0, 26, 0, 0, 2, 1⟩) := by decide


/-- The words that the rules write out beside their assembly: chapters 3 to 10. -/
theorem words_of_the_rules_1 :
    decode64 0x00070001882414BF 0 = some (.vfma ⟨0, 7, 0, false, 0, 0, false, 3, 2, 1, 4⟩) ∧
    decode64 0x0000949FFC424CBF 0 = some (.vaddi ⟨0, 0, 18, true, 1, 0, -1, 2, 2⟩) ∧
    decodeBytes [0xBF, 0x4C, 0x42, 0xFC, 0x9F, 0x94, 0x00, 0x00] = some (.vaddi ⟨0, 0, 18, true, 1, 0, -1, 2, 2⟩, 8) ∧
    decode64 0x00000001082250BF 0 = some (.vcmp ⟨0, 0, 0, false, 0, 0, false, 2, 2, 1, 2⟩) ∧
    decode64 0x0000960188276CBF 0 = some (.vlut3 ⟨0, 0, 0x96, 3, 2, 1, 7⟩) ∧
    decode64 0x000000088001253F 0 = some (.mhadCol ⟨0, 0, 0, 0, 1, 1, 0, 0, 1⟩) ∧
    decode64 0x000008402D42053F 0 = some (.mmaAcc ⟨0, 0, 1, 1, 0, 0, 11, 10, 2⟩) ∧
    decode64 0x000006A6818B403F 0 = some (.bar ⟨0, 0, false, 3, 10, 13, 0, 12, 11⟩) ∧
    decode64 0x00000000316A12BF 0 = some (.sbset ⟨0, 0, 0, 0, 12, 11, 10⟩) ∧
    decode64 0x000006A6B16022BF 0 = some (.tlbinvPg ⟨0, 0, false, 3, 10, 13, 12, 11, 0⟩) ∧
    decode64 0x0000B0010143D8BF 0 = some (.vld ⟨0, 0, 22, false, 0, 0, 2, 0, 10, 3⟩) ∧
    decode64 0x00000CA6B160683F 0 = some (.xfence ⟨0, 0, false, 6, 10, 13, 12, 11, 0⟩) ∧
    decode64 0x010000000000003F 0 = none := by decide

/-- The same, chapters 12 to 21. -/
theorem words_of_the_rules_2 :
    decode64 0x000012968000083F 0 = some (.semwait ⟨0, 0, false, 9, 9, 13, 0, 0, 0⟩) ∧
    decode64 0x00000100316A203F 0 = some (.engringOn ⟨0, 0, 0x10, 0, 12, 11, 10⟩) ∧
    decode64 0x00000296016A903F 0 = some (.cpputP ⟨0, 0, false, 1, 9, 12, 0, 11, 10⟩) ∧
    decode64 0x000000A7358B2A3F 0 = some (.ctrwait ⟨0, 0, false, 0, 10, 14, 13, 12, 11⟩) ∧
    decode64 0x00000006B16A163F 0 = some (.trgarm ⟨0, 0, 0, 13, 12, 11, 10⟩) ∧
    decode64 0x00000000316A4E3F 0 = some (.jcfgHandle ⟨0, 0, 0, 0, 12, 11, 10⟩) ∧
    decode64 0x000000100000A03F 0 = some (.tretSkip ⟨0, 0, 1, 0, 0, 0, 0⟩) ∧
    decode64 0x00000030000AA43F 0 = some (.cutrd ⟨0, 0, 3, 0, 0, 0, 10⟩) ∧
    decode64 0x00000000316A16BF 0 = some (.tkill ⟨0, 0, 0, 0, 12, 11, 10⟩) ∧
    decode64 0x00000096B1600EBF 0 = some (.ctxload ⟨0, 0, false, 0, 9, 13, 12, 11, 0⟩) ∧
    decode64 0x0000029681600ABF 0 = some (.ctxsaveKeep ⟨0, 0, false, 1, 9, 13, 0, 11, 0⟩) ∧
    decode64 0x00000020016A423F 0 = some (.hstep ⟨0, 0, 2, 0, 0, 11, 10⟩) ∧
    decode64 0x00000010000A4A3F 0 = some (.hcause ⟨0, 0, 1, 0, 0, 0, 10⟩) := by decide

/-- RISC-V words by the formats of RV64I: `ld`, `sb`, `mulhu`, `sraiw`, `lui`, `jal`, `bne`, `csrrw` of `vflags`
and of `bfmt0`, `fence`, `fence.i`, `ecall`, `ebreak`, `c.ebreak`, `c.li`. -/
theorem words_riscv :
    decodeBytes [0x83, 0x30, 0x81, 0xFF] = some (.scalarLoad ⟨3, 1, 2, -8, .w32⟩, 4) ∧
    decodeBytes [0xA3, 0x0F, 0x31, 0xFE] = some (.scalarStore ⟨0, 2, 3, -1, .w32⟩, 4) ∧
    decodeBytes [0xB3, 0x30, 0x31, 0x02] = some (.rv64IntegerOp (.alu .mulhu 1 2 3) .w32, 4) ∧
    decodeBytes [0x9B, 0x50, 0xF1, 0x41] = some (.rv64IntegerOp (.shift .sraiw 1 2 31) .w32, 4) ∧
    decodeBytes [0xB7, 0xF0, 0xFF, 0xFF] = some (.rv64IntegerOp (.lui 1 0xFFFFF) .w32, 4) ∧
    decodeBytes [0xEF, 0xF0, 0xDF, 0xFF] = some (.rv64IntegerOp (.jal 1 (-4)) .w32, 4) ∧
    decodeBytes [0xE3, 0x9C, 0x20, 0xFE] = some (.rv64IntegerOp (.branch .bne 1 2 (-8)) .w32, 4) ∧
    decodeBytes [0xF3, 0x10, 0x11, 0x80] = some (.csrAccess ⟨0x801, 1, 2, 1⟩, 4) ∧
    decodeBytes [0xF3, 0x10, 0x01, 0x82] = some (.bfmtWrite ⟨0x820, 1, 2, 1⟩, 4) ∧
    decodeBytes [0x0F, 0x00, 0xF0, 0x0F] = some (.fence ⟨0x1FE0, 0⟩, 4) ∧
    decodeBytes [0x0F, 0x10, 0x00, 0x00] = some (.fenceI ⟨0, 0⟩, 4) ∧
    decodeBytes [0x73, 0x00, 0x00, 0x00] = some (.ecall, 4) ∧ decodeBytes [0x73, 0x00, 0x10, 0x00] = some (.ebreak, 4) ∧
    decodeBytes [0x02, 0x90] = some (.cEbreak, 2) ∧
    decodeBytes [0xFD, 0x50] = some (.rv64IntegerOp (.imm .addi 1 0 (-1)) (.c16 0x50FD), 2) ∧
    decodeBytes [0x00, 0x00] = none ∧
    decodeThread [0x83, 0x30, 0x81, 0xFF] = some (.hamperScalarAccess false 3 1 2 (-8) .w32, 4) ∧
    decodeThread [0xBF, 0x04, 0x24, 0x08, 0x00, 0x00, 0x00, 0x00] = none := by decide

/-! ## Witnesses: the step and the scalar instructions -/

/-- Core 0 of the reset state with another context. -/
def atCore (c : Ctx) : State := State.reset.setFg 0 c

/-- A context whose scalar registers x11 and x12 hold two values. -/
def with2 (a b : Word) : Ctx := { regs := { x := [(11, a), (12, b)] } }

/-- Thread 3 of the Hamper, moving, with two scalar registers. -/
def atThread (a b : Word) : State :=
  ({ cur := .thread 3 } : State).setThread 3 { x := [(11, a), (12, b)], hvec := 0x100 }

/-- StepRunsTheDecodedInstruction, first part: `addi x1, x0, 1` stands at core 0's PC, whose engines come first. -/
theorem wit_step_core :
    let s := State.reset.withFetchWord 32 0x00100093
    s.moves 0 ∧ (s.turnFirst 0).seqFirst 0 = false ∧
      ((s.turnFirst 0).turnRest 0 s.now).issues 0 (.rv64IntegerOp (.imm .addi 1 0 1) .w32) := by
  refine ⟨?_, by decide +kernel, ?_⟩
  · unfold State.moves; decide +kernel
  · unfold State.issues
    refine ⟨by decide +kernel, by decide +kernel, by decide +kernel, by decide +kernel, by decide +kernel, by decide +kernel,
      by decide +kernel, by decide +kernel, by decide +kernel, ⟨[0x93, 0x00, 0x10, 0x00], 4, by decide +kernel, by decide +kernel⟩,
      by decide +kernel, by decide +kernel, by decide +kernel⟩

/-- The same: a `SEMADD` of 1 to sem9 stands there, and comes before them; a launch that is not persistent. -/
theorem wit_step_first :
    let s := State.reset.withFetchWord 64 (encodeWord (.semadd { fq with imm := 9 })).toNat
    s.moves 0 ∧ (s.turnFirst 0).seqFirst 0 = true ∧ (s.turnFirst 0).issues 0 (.semadd { fq with imm := 9 }) ∧
      (s.fg 0).ident.desc.pers = false := by
  refine ⟨?_, by decide +kernel, ?_, by decide +kernel⟩
  · unfold State.moves; decide +kernel
  · unfold State.issues
    refine ⟨by decide +kernel, by decide +kernel, by decide +kernel, by decide +kernel, by decide +kernel, by decide +kernel,
      by decide +kernel, by decide +kernel, by decide +kernel,
      ⟨leBytes 8 (encodeWord (.semadd { fq with imm := 9 })).toNat, 8, by decide +kernel, by decide +kernel⟩,
      by decide +kernel, by decide +kernel, by decide +kernel⟩

/-- Its second part. -/
theorem wit_step_quiet : State.reset.lockstep = true ∧ State.reset.enginesEmpty 0 := by
  refine ⟨rfl, fun e => ?_, rfl, rfl, rfl, rfl⟩
  cases e <;> rfl

/-- Its third part: `CTRRD x1, x2` stands at thread 0's PC. -/
theorem wit_step_thread :
    let s := State.reset.withFetchWord 64 0x000000000041263F
    s.mgmt.off = false ∧ s.mgmt.up = true ∧ s.sched = [] ∧ s.cur = .thread 0 ∧ (s.thread 0).wait = none ∧
      (s.thread 0).pc.toNat + 8 ≤ 2 ^ 26 ∧ firstPoison s.poison (hamperBase + (s.thread 0).pc.toNat) 8 = none ∧
      decodeThread (s.codeBytes (s.thread 0).pc.toNat 8) = some (.ctrrd ⟨0, 0, 0, 0, 0, 2, 1⟩, 8) := by decide +kernel

/-- Its fourth part. -/
theorem wit_step_event :
    let s : State := { sched := [.event .deviceReset] }
    s.mgmt.off = false ∧ isEvent .deviceReset = true := by decide

/-- IllegalWordTraps: a reserved major op of class SQ. -/
theorem wit_illegal : decodeBytes [0x3F, 0, 0, 0, 0, 0, 0, 0] = none := by decide

/-- OnlyLossOfPowerStops and EveryStepKeepsMemoryCanonical: power on and off, and a canonical memory whose step has a
next state. -/
theorem wit_power :
    State.reset.mgmt.off = false ∧ ({ mgmt := { off := true } } : State).mgmt.off = true ∧ State.reset.canonical ∧
      ∃ t, step State.reset = .next t := by
  refine ⟨rfl, rfl, rfl, _, rfl⟩

/-- IntegerResultsAreExact: divisors that are zero and not, and the overflow of division. -/
theorem wit_division :
    ((5 : Word) ≠ 0 ∧ ¬((7 : Word).toInt = -(2 ^ 63) ∧ (5 : Word).toInt = -1)) ∧
    ((0x8000000000000000 : Word).toInt = -(2 ^ 63) ∧ (0xFFFFFFFFFFFFFFFF : Word).toInt = -1) ∧
    ((0x80000000 : BitVec 32).toInt = -(2 ^ 31)) := by decide

/-- JumpsAndBranchesGoToTheirTargets: even and odd targets, branches taken and not taken. -/
theorem wit_jumps :
    let s := atCore (with2 5 7)
    ((s.pc + (4 : BitVec 21).signExtend 64).getLsbD 0 = false) ∧ ((s.pc + (3 : BitVec 21).signExtend 64).getLsbD 0 = true) ∧
      s.xr 11 ≠ s.xr 12 ∧ (s.xr 11).toInt < (s.xr 12).toInt ∧ (s.xr 11).toNat < (s.xr 12).toNat ∧
      ¬(s.xr 11 = s.xr 12) ∧ s.xr 11 = s.xr 11 ∧ (s.pc + (6 : BitVec 13).signExtend 64).getLsbD 0 = false ∧
      (s.pc + (5 : BitVec 13).signExtend 64).getLsbD 0 = true := by decide

/-- ScalarLoadsReadTheirBytes and ScalarStoreWritesItsBytes: the last doubleword of the scratchpad, and the first and last
entries of the two views. -/
theorem wit_loads :
    (let s := atCore (with2 0x7FFF8 0)
     s.cur = .core 0 ∧ (s.xr 11).toNat = 0x7FFF8 ∧ 0x7FFF8 % 8 = 0 ∧ s.leasedAt 0 0x7FFF8 8 = none ∧
      s.spadPoison 0 0x7FFF8 8 = false ∧ (s.fg 0).regs.pois = []) ∧
    ((atCore (with2 0x1001FE 0)).xr 11).toNat = 0x100000 + 2 * 255 ∧
    ((atCore (with2 0x1017F8 0)).xr 11).toNat = 0x101000 + 8 * 255 := by decide +kernel

/-- ScalarAccessTraps: a misaligned address, a leased bank, a poisoned granule, an address past the scratchpad, and a
register view. -/
theorem wit_access_traps :
    ((atCore (with2 0x1001 0)).xr 11).toNat % 8 ≠ 0 ∧
    (let s := atCore { with2 0x8000 0 with mt := { run := [{ eng := .mt, kind := 4, lease := 2, ready := 9, banks := [1] }] } }
     (s.xr 11).toNat % 8 = 0 ∧ (s.xr 11).toNat < 0x80000 ∧ (s.leasedAt 0 0x8000 8).isSome = true) ∧
    (let s : State := { atCore (with2 0x40 0) with poison := [((2 ^ 60 + 0x40) / 32, true)] }
     s.leasedAt 0 0x40 8 = none ∧ s.spadPoison 0 0x40 8 = true) ∧
    (let a := ((atCore (with2 0x80000 0)).xr 11).toNat
     a % 8 = 0 ∧ 0x80000 ≤ a ∧ ¬(0x100000 ≤ a ∧ a < 0x100200 ∨ 0x101000 ≤ a ∧ a < 0x101800 ∨ 0x102000 ≤ a ∧ a < 0x102200)) ∧
    (let a := ((atCore (with2 0x1021F8 0)).xr 11).toNat
     a % 8 = 0 ∧ 0x102000 ≤ a ∧ a < 0x102200) := by decide +kernel

/-- FencesAndServiceCalls: a misaligned offset, one past the scratchpad, an accepted call at the last offset, and one
with a request outstanding. -/
theorem wit_ecall :
    ((atCore (with2 4 0)).xr 11).toNat % 64 ≠ 0 ∧
    (((atCore (with2 0x80000 0)).xr 11).toNat % 64 = 0 ∧ 2 ^ 19 ≤ ((atCore (with2 0x80000 0)).xr 11).toNat) ∧
    (let s := atCore (with2 0x7FFC0 0)
     s.cur = .core 0 ∧ (s.xr 11).toNat % 64 = 0 ∧ (s.xr 11).toNat < 2 ^ 19 ∧ s.leasedAt 0 0x7FFC0 64 = none ∧
      s.spadPoison 0 0x7FFC0 64 = false ∧ (s.core 0).ecall = none ∧
      portUsed (s.port 1) + msgSpace (ctrlMsg (s.xr 10) 0 0 1 (memRead s.mem (spadKey 0 0x7FFC0) 64)) ≤ 131072) ∧
    (({ ecall := some (0, 0) } : Core).ecall.isSome = true) := by decide +kernel

/-- CsrAccessReadsAndWrites: a number outside the table, a read, a write of each register that may be written, a write of
one that may not; a bank format whose bank is free, whose bank is busy, and one that waits. -/
theorem wit_csr :
    let s := State.reset
    s.cur = .core 0 ∧ (s.fg 0).regs.pois = [] ∧ csrF3 1 = true ∧ s.csrRead 0 0x7FF = none ∧
      (∀ k, k < 9 → (s.csrRead 0 (0x800 + k)).isSome = true) ∧ s.csrRead 0 0xCC0 ≠ none ∧
      s.bankBusy 0 15 = false ∧ (atCore { mt := { q := [{ word := 0x293F }] } }).bankBusy 0 0 = true ∧
      (let c : Ctx := { bfmtPend := some ⟨0, 1, 0, 0⟩ }
       c.bfmtPend = some ⟨0, 1, 0, 0⟩ ∧ (atCore c).bankBusy 0 0 = false ∧ c.stop = none) := by decide +kernel

/-- HandlerTrapEntersTheHandler: a missed promise, a timeout, and an arithmetic trap where `tvec` asks for it. -/
theorem wit_handler :
    let s := atCore { csr := { tvec := 0x1003 } }
    (s.core 0).stepping = none ∧ (s.fg 0).hact = false ∧ (s.fg 0).csr.tvec.getLsbD 0 = true ∧
      (s.fg 0).csr.tvec.getLsbD 1 = true ∧ (s.fg 0).takesHandler 4 = true ∧ (s.fg 0).takesHandler 5 = true ∧
      (s.fg 0).takesHandler 3 = true := by decide

/-- OtherTrapsFreezeForContainment, and BreakpointStartsHaltWave on a busy core whose job runs. -/
theorem wit_containment :
    (let s := atCore {}
     (s.core 0).stepping = none ∧ (s.fg 0).takesHandler 1 = false ∧ (s.fg 0).takesHandler 5 = false) ∧
    (let s := State.reset.setCore 0 { busy := true }
     (s.core 0).stepping = none ∧ (s.core 0).busy = true ∧ (s.fg 0).stop = none ∧
      (s.job (s.fg 0).ident.job).ph = .run) := by decide

/-- TrapReturnLeavesTheHandler: outside a handler; and inside one, for each engine that may have stopped. -/
theorem wit_tret :
    (State.reset.fg 0).hact = false ∧
    ∀ k, k < 4 →
      let g : Engine := { st := .stopped, q := [{ word := 0x4BF }], ev := true }
      let c : Ctx := { vx := g, mt := g, ce0 := g, ce1 := g, hact := true, csr := { tcause := 0x0100 * wOf (k + 1) } }
      let u := wfld c.csr.tcause 15 8
      c.hact = true ∧ u = k + 1 ∧ (c.eng (engOf (u - 1))).st = .stopped ∧ (c.eng (engOf (u - 1))).r = false ∧
        (c.vx.lane = [] ∧ c.mt.lane = [] ∧ c.ce0.lane = [] ∧ c.ce1.lane = []) := by decide

/-- ThreadTrapRestartsTheThread, and the threads' halves of the scalar statements. -/
theorem wit_thread : (atThread 1 2).cur = .thread 3 ∧ (atThread 1 2).xr 11 = 1 := by decide

/-! ## Witnesses: the sequencer's own instructions -/

theorem allEng {P : Eng → Prop} (h : P .vx ∧ P .mt ∧ P .ce0 ∧ P .ce1) : ∀ e, P e := by
  intro e; cases e
  · exact h.1
  · exact h.2.1
  · exact h.2.2.1
  · exact h.2.2.2

/-- An engine that has stopped with an event pending. -/
def stoppedEng : Engine := { st := .stopped, ev := true, cause := 3, q := [{ word := 0x4BF }] }

/-- DeadlineStatusIsWrittenAndCounted: a count that stays below the threshold, one that reaches it, no threshold. -/
theorem wit_status :
    State.reset.cur = .core 0 ∧
    (let c : Ctx := { csr := { dlesc := 0x0103 }, dlPrev := some 0x40 }
     c.csr.dlesc.toNat % 256 = 3 ∧ c.csr.dlesc.toNat / 256 % 256 + 1 = 2 ∧ 2 < 3) ∧
    (let c : Ctx := { csr := { dlesc := 0x0203 }, dlPrev := some 0x40 }
     c.csr.dlesc.toNat % 256 ≠ 0 ∧ 3 ≤ c.csr.dlesc.toNat / 256 % 256 + 1) ∧
    (State.reset.fg 0).csr.dlesc.toNat % 256 = 0 := by decide

/-- EngineControlInstructions: an event; none, with a deadline that has passed and one that has not; engines at rest,
stopped, and at work. -/
theorem wit_engine_control :
    (∃ e, (({ mt := stoppedEng } : Ctx).eng e).ev = true) ∧
    (∀ e, ((State.reset.fg 0).eng e).ev = false) ∧ (State.reset.core 0).stepping = none ∧
    (let s := atCore (with2 9 0)
     (deadlineAt s.agentTime (s.xr 0)).toNat ≤ s.agentTime.toNat ∧ s.agentTime.toNat < (deadlineAt s.agentTime (s.xr 11)).toNat) ∧
    (∀ e, (State.reset.fg 0).quiet e = true) ∧
    (let c : Ctx := { mt := stoppedEng }
     (c.eng .mt).st = .stopped ∧ (c.eng .vx).st ≠ .stopped ∧ (15 : BitVec 6).getLsbD (engNum .mt) = true) ∧
    (({ ce0 := { st := .running, q := [{ word := 0x5BF }] } } : Ctx).quiet .ce0 = false) :=
  ⟨⟨.mt, rfl⟩, allEng (by decide), by decide, by decide, allEng (by decide), by decide, by decide⟩

/-- SemaphoreInstructions: semaphore 0, a count of 1, a full count, an empty one with an event and without. -/
theorem wit_semaphores :
    (fd.aux.toNat + fd.b.toNat % 4 * 64 = 0) ∧
    (let c : Ctx := { sem := [(9, 1), (255, 65535)] }
     1 ≤ (c.semOf 9).toNat ∧ (c.semOf 9).toNat + 1 ≤ 65535 ∧ 65535 < (c.semOf 255).toNat + 1 ∧ c.semOf 8 = 0) ∧
    (let c : Ctx := { mt := stoppedEng }
     c.semOf 9 = 0 ∧ (c.eng .mt).ev = true ∧ (c.eng .vx).ev = false) ∧
    (∀ e, ((atCore (with2 9 0)).fg 0 |>.eng e).ev = false) ∧
    (atCore (with2 9 0)).agentTime.toNat ≤ (deadlineAt (atCore (with2 9 0)).agentTime 9).toNat :=
  ⟨by decide, by decide, by decide, allEng (by decide), by decide⟩

/-- RingInstructions: a range that ends with the scratchpad, ranges that do not fit, and an engine in each state. -/
theorem wit_rings :
    (0x7FFC0 % 64 = 0 ∧ 0x7FFC0 + 1 * 64 ≤ 0x80000) ∧ (0x7F000 % 8 = 0 ∧ 0x78000 + 4096 * 8 ≤ 0x80000) ∧
    ¬(0x7FFC0 + 2 * 64 ≤ 0x80000) ∧ ({} : Engine).st = .idle ∧ stoppedEng.st = .stopped ∧ stoppedEng.r = false ∧
    ({ stoppedEng with r := true } : Engine).r = true ∧
    (({ st := .ring, r := true } : Engine).q = [] ∧ ({ st := .ring, r := true } : Engine).run = []) ∧
    ({ st := .ring, r := true, q := [{ word := 0x4BF }] } : Engine).q ≠ [] ∧
    (engOf 3 = .ce1 ∧ (({ ce1 := stoppedEng } : Ctx).eng (engOf 3)).st ≠ .idle) := by decide

/-- SpoolInstructions: a spool no entry names, its configuration words at their bounds and beyond, and its states. -/
theorem wit_spools :
    (State.reset.fg 0).spoolBusy 15 true = none ∧ (State.reset.fg 0).spoolBusy 15 false = none ∧
    (State.reset.core 0).stepping = none ∧
    (let v := 0x0040020000000000
     v / 2 ^ 56 % 2 ^ 7 = 0 ∧ v / 2 ^ 19 % 2 ^ 21 = 0 ∧ v / 2 ^ 48 % 2 ^ 8 = 64 ∧ v / 2 ^ 40 % 2 ^ 8 = 2 ∧ v % 2 ^ 19 % 64 = 0 ∧
      v % 2 ^ 19 + 64 * 64 * 2 ≤ 0x80000) ∧
    ¬(1 ≤ 0x0000020000000000 / 2 ^ 48 % 2 ^ 8) ∧
    (let p : Spool := { cfg := true, ssz := 1, nsl := 2, base := 0x7FF80, hd := 1, tl := 0, cnt := 1, tok := 2 }
     p.cfg = true ∧ p.cnt < 2 ∧ 1 ≤ p.cnt ∧ p.hd < p.nsl ∧ p.nsl - p.cnt - p.prs < 2 ∧ 1 ≤ p.nsl - p.cnt - p.prs ∧ p.nsl ≤ 64 ∧
      p.tl < p.nsl ∧ p.prs = 0 ∧ p.early = [] ∧ p.cnt < p.nsl ∧ p.tok.getLsbD p.hd = true) ∧
    (let p : Spool := { cfg := true, ssz := 1, nsl := 2, cnt := 2 }
     p.nsl - p.cnt - p.prs = 0 ∧ p.tok.getLsbD p.hd = false) ∧ (State.reset.fg 0 |>.spool 15).cfg = false ∧
    State.reset.lockstep = true ∧
    (let p : Spool := { cfg := true, ssz := 1, nsl := 4, cnt := 1, at_ := 10, cnt0 := 2, free0 := 2, cons := 1, prod := 1, prs := 1 }
     let s : State := { now := 9, lockstep := false }
     let z := p.seen s.spoolCycle
     let y := p.atStart s.spoolCycle
     z.cnt < 2 ∧ 2 ≤ y.cnt ∧ y.cnt < 3 ∧ z.free < 2 ∧ 2 ≤ y.free ∧ y.free < 3 ∧
      ({ p with prod := 2 } : Spool).at_ = s.spoolCycle ∧ (({ p with prod := 2 } : Spool).seen s.spoolCycle).free = 0 ∧
      (({ p with prod := 2 } : Spool).atStart s.spoolCycle).free ≠ 0) := by decide

/-- A Tag Table whose entries j to j + m − 1 are valid, with the lock bit as given. -/
def fullTags (l : Nat) (j : Nat) : Nat → Tbl Word
  | 0 => []
  | m + 1 => (j, wOf (2 ^ 63 + l * 2 ^ 62 + j)) :: fullTags l (j + 1) m

theorem tget_fullTags (l k m : Nat) : ∀ j, j ≤ k → k < j + m → tget 0 (fullTags l j m) k = wOf (2 ^ 63 + l * 2 ^ 62 + k) := by
  induction m with
  | zero => intro j h1 h2; omega
  | succ m ih =>
    intro j h1 h2
    by_cases h : j = k
    · subst h; simp [fullTags, tget]
    · simp [fullTags, tget, h]
      exact ih (j + 1) (by omega) (by omega)

/-- TagTableInstructions: a hit at the last entry, a miss, a table with a free entry, a full one, and one that is locked. -/
theorem wit_tags :
    (let t : Tbl Word := [(255, 0x8000FFFFFFFFFFFF)]
     (tget 0 t 255).getLsbD 63 = true ∧ (tget 0 t 255).toNat % 2 ^ 48 = 0xFFFFFFFFFFFF ∧ tableOk 0 t = true ∧
      (tget 0 t 0).getLsbD 63 = false ∧ (∀ j, j < 255 → (tget 0 t j).getLsbD 63 = false)) ∧
    (∀ l, l < 2 → ∀ k, k < 256 → (tget 0 (fullTags l 0 256) k).getLsbD 63 = true ∧
      (tget 0 (fullTags l 0 256) k).getLsbD 62 = decide (l = 1)) ∧
    (({ pois := [poisCsr 0x1000] } : Regs).pois.contains (poisCsr 0x1000) = true) := by
  refine ⟨by decide +kernel, fun l hl k hk => ?_, by decide⟩
  rw [tget_fullTags l k 256 0 (by omega) (by omega)]
  revert l hl k hk
  decide +kernel

/-! ## Witnesses: reads, fences, promises, barriers and tasks -/

/-- Core 0 with bytes at offset 0 of its scratchpad. -/
def atCoreMem (c : Ctx) (bs : List Byte) : State := { atCore c with mem := memWrite [] (spadKey 0 0) bs }

/-- DeadlineLoadCompletes: a misaligned address, the last aligned one, a poisoned one; and a load that left the core,
whose reply comes at D and after it. -/
theorem wit_dld :
    (0x7FFF9 % 8 ≠ 0) ∧
    (let s := atCore (with2 0x7FFF8 0)
     (s.xr 11).toNat % 8 = 0 ∧ (s.xr 11).toNat < 0x80000 ∧ s.leasedAt 0 0x7FFF8 8 = none ∧ s.spadPoison 0 0x7FFF8 8 = false) ∧
    (let s : State := { atCore (with2 0x40 0) with poison := [((2 ^ 60 + 0x40) / 32, true)] }
     s.spadPoison 0 0x40 8 = true) ∧
    (let w : Wait := { instr := .dld fd, pc := 0x40, d := 5, b := 0x8000000000000000 }
     let s : State := { atCore { wait := some w } with now := 5 }
     let t : State := { atCore { wait := some w } with now := 100 }
     (s.fg 0).wait = some w ∧ w.ans = none ∧ 2 ^ 63 ≤ w.b.toNat ∧ w.since < s.now ∧ (s.fg 0).stop = none ∧ ¬(w.d.toNat < (s.jtime 0).toNat) ∧
      w.d.toNat < (t.jtime 0).toNat) := by decide +kernel

/-- FencesAndMarkers: nothing under way, with and without a store failure and path 3; and earlier work of the Mangle. -/
theorem wit_fences :
    (∀ e, ((State.reset.fg 0).eng e).q = [] ∧ ((State.reset.fg 0).eng e).lane = [] ∧ ((State.reset.fg 0).eng e).run = []) ∧
    ((State.reset.fg 0).inflight = [] ∧ (State.reset.fg 0).vreads = [] ∧ (State.reset.fg 0).winCnt = [] ∧
      (State.reset.core 0).sq = [] ∧ (State.reset.core 0).farw = [] ∧ (State.reset.fg 0).winFail = [] ∧ (State.reset.fg 0).storeErr = none) ∧
    (let s := atCore { with2 8 0 with storeErr := some 0x40 }
     (s.fg 0).storeErr = some 0x40 ∧ (s.xr 11).getLsbD 3 = true) ∧
    (let s := atCore { with2 4 0 with mt := { q := [{ word := 0x4BF, ord := 0 }] }, ord := 1 }
     (s.xr 11).getLsbD 2 = true ∧ ((s.fg 0).mt.q.any (fun q => decide (q.ord < (s.fg 0).ord))) = true ∧
      s.agentTime.toNat ≤ (deadlineAt s.agentTime (s.xr 11)).toNat) :=
  ⟨allEng (by decide), by decide, by decide, by decide⟩

/-- PromisedCopyIsQueued: offsets beyond the scratchpad and misaligned, a poisoned line, and a packet for CE1 at the
last offset. -/
theorem wit_cpput :
    ((atCore (with2 0x80000 0)).xr 11).toNat = 0x80000 ∧ 0x7FFC1 % 64 ≠ 0 ∧
    (let s : State := { atCore (with2 0x40 0) with poison := [((2 ^ 60 + 0x40) / 32, true)] }
     s.leasedAt 0 0x40 64 = none ∧ s.spadPoison 0 0x40 64 = true) ∧
    (let s : State := { atCoreMem (with2 0 0) [0xBF, 5, 0, 0, 0, 8] with lockstep := false }
     s.leasedAt 0 0 64 = none ∧ s.spadPoison 0 0 64 = false ∧
      (s.fg 0).putEngine (memNat s.mem (spadKey 0 0) 64 / 2 ^ 42 % 4) = some .ce1 ∧ (s.fg 0).ce1.q.length < 16 ∧
      s.lockstep = false) := by decide +kernel

/-- BarrierInstructions: no record, one, four; a record answered, broken and not answered; a home in this package. -/
theorem wit_barriers :
    let k : BarKey := ⟨0, 3, 0, 5⟩
    let r (a : Option BarAns) : BarRec := { key := k, ans := a }
    (State.reset.barKey 0 3 5 = k) ∧ State.reset.homeHere k = true ∧ ((State.reset.fg 0).barRec k = none) ∧
      (({ bars := [r none] } : Ctx).barRec k = some (r none)) ∧ ({ bars := [r none] } : Ctx).bars.length < 4 ∧
      (({ bars := [r (some (.completed 7))] } : Ctx).barRec k = some (r (some (.completed 7)))) ∧
      (({ bars := [r (some (.broken 7))] } : Ctx).barRec k = some (r (some (.broken 7)))) ∧
      (let l : BarRec := { key := ⟨0, 2, 0, 1⟩ }
       let c : Ctx := { bars := [l, l, l, l] }
       c.barRec k = none ∧ 4 ≤ c.bars.length) ∧
      State.reset.agentTime.toNat ≤ (deadlineAt State.reset.agentTime 9).toNat := by decide

/-- BarrierHomesDecide: an arrival that clashes, one without a free record, one that joins, the last one; a withdrawal
of a waiting arrival and of none; the answers to a waiting `BAR`. -/
theorem wit_homes :
    let k : BarKey := ⟨0, 3, 0, 5⟩
    let a (n : BitVec 32) : BarArr := ⟨k, 7, n, true, 0⟩
    let b (n : Option Nat) (who : List Nat) : Bar := { key := k, n := n, who := who }
    let s (bs : List Bar) : State := { sch := { bars := bs, barArr := [a 2], barWdr := [⟨k, 7, 0, true, 0⟩] } }
    (a 2 ∈ (s []).sch.barArr ∧ (s []).rs k.job = 0 ∧ (s []).barNext k 0 false = true) ∧
      (((s [b (some 3) [1]]).bar k).n ≠ none ∧ ((s [b (some 3) [1]]).bar k).n ≠ some 2) ∧
      (((s []).bar k).n = none ∧ ¬(poolSize 3 ≤ (s []).poolUsed k) ∧ ((s []).bar k).who.length + 1 ≠ 2) ∧
      (((s [b (some 2) [1]]).bar k).who.length + 1 = 2 ∧ ((s [b (some 2) [1]]).bar k).n = some 2) ∧
      (let bs := (List.range 16).map (fun j => ({ key := ⟨j / 16 + 0, 2, 0, j⟩, n := some 2, who := [1] } : Bar))
       let t : State := { sch := { bars := bs } }
       poolSize 2 ≤ t.poolUsed ⟨1, 2, 0, 0⟩ ∧ (t.bar ⟨1, 2, 0, 0⟩).n = none) ∧
      (⟨k, 7, 0, true, 0⟩ ∈ (s []).sch.barWdr ∧ ({ sch := { barWdr := [⟨k, 7, 0, true, 0⟩] } } : State).barNext k 0 true = true ∧
        ((s [{ b (some 3) [7] with phase := 1 }]).bar k).phase ≠ 0 ∧ 7 ∉ ((s []).bar k).who ∧ 7 ∈ ((s [b (some 3) [7]]).bar k).who) ∧
      (∀ x ∈ [BarAns.completed 1, .broken 1, .withdrawn, .mismatch],
        let w : Wait := { instr := .bar { fd with aux := 3 }, pc := 0, d := 9, a := 5 }
        let t : State := { State.reset.setCore 0 { busy := true, fg := { wait := some w } } with
          now := 99, sch := { barAns := [⟨k, 0, x, 0⟩] } }
        t.sch.barAns.find? (fun y => decide (y.key = k ∧ y.core = 0)) = some ⟨k, 0, x, 0⟩ ∧ 0 + (t.fg 0).barLag k x ≤ t.now ∧ t.coreOf k.job 0 = some 0 ∧
          (t.fg 0).stop = none ∧ (t.fg 0).wait = some w ∧ t.barKey 0 3 w.a = k) := by decide +kernel

/-- TaskControl: a good descriptor for a cluster and for a die, a bad one, queues with room; a task that ends; one with
another ready and without; a slot that is FREE, that is not, and that is elsewhere. -/
theorem wit_tasks :
    let g (span n : Nat) := leBytes 64 (n * 2 ^ 128 + span * 2 ^ 172)
    let s (bs : List Byte) := atCoreMem (with2 0 0) bs
    ((s (g 3 1)).descCheck (memNat (s (g 3 1)).mem (spadKey 0 0) 64) ((s (g 3 1)).issuer 0 3) = none ∧
      (descOf (memNat (s (g 3 1)).mem (spadKey 0 0) 64)).span = 3 ∧ ((s (g 3 1)).leafQ 0).length < 64 ∧
      (s (g 3 1)).leasedAt 0 0 64 = none ∧ (s (g 3 1)).spadPoison 0 0 64 = false) ∧
    ((s (g 4 1)).descCheck (memNat (s (g 4 1)).mem (spadKey 0 0) 64) ((s (g 4 1)).issuer 0 4) = none ∧
      (s (g 4 1)).sch.globQ.length < 256) ∧
    ((s (g 3 0)).descCheck (memNat (s (g 3 0)).mem (spadKey 0 0) 64) ((s (g 3 0)).issuer 0 3) = some 2) ∧
    (let c : Ctx := { exiting := true }
     c.exiting = true ∧ c.stop = none ∧ (atCore c).drained 0 = true ∧ c.vx.st ≠ .stopped) ∧
    (State.reset.readyTasks 0 = [] ∧ ({ vx := { st := .running, q := [{ word := 0x4BF }] } } : Ctx).atRest = false) ∧
    (let t : State := { sch := { launches := [{ job := 0, num := 1, desc := { span := 3 }, grp := 0, rdy := 0
                                                ranges := [⟨0, 0, 1, 0⟩] }] } }
     (t.fg 0).atRest = true ∧ (t.readyTasks 0).any (fun r => decide (r.job = 0 ∧ 0 ≤ r.prio)) = true) ∧
    ((s (g 3 1)).slot 0 4095).st = .free ∧
    (({ sch := { slots := [(5, { st := .armed })] } } : State).slot 0 5).st ≠ .free ∧
    (s (g 3 1)).descCheck (memNat (s (g 3 1)).mem (spadKey 0 0) 64) { (s (g 3 1)).issuer 0 3 with one := true } = none := by
  decide +kernel

/-! ## Witnesses: the vector unit and the Mangle -/

/-- Every hypothesis about a unit at rest: the reset state meets it. -/
theorem wit_rest : State.reset.unitsAtRest 0 :=
  ⟨rfl, rfl, rfl, by decide, by decide, rfl, rfl, rfl, fun _ => Nat.le_refl 0, by decide⟩

/-- The same of any context that differs from the reset one in its scalars, vectors, tiles, semaphores and spools. -/
theorem wit_rest_with (x : Tbl Word) (v : Tbl VReg) (p : Tbl PReg) (sem : Tbl (BitVec 16)) (sl : Tbl Spool) (m : List Host.Cell) :
    ({ cores := [(0, { fg := { regs := { x := x, v := v, p := p }, sem := sem, sl := sl } })], mem := m } : State).unitsAtRest 0 :=
  ⟨rfl, rfl, rfl, ⟨rfl, rfl, rfl, rfl⟩, ⟨rfl, rfl, rfl, rfl⟩, rfl, rfl, rfl, fun _ => Nat.le_refl 0, by show (0#64).toNat < 64; decide⟩

/-- A core whose sl2 holds one filled vector slot at its last slot, whose sl3 is empty, and whose sem5 counts 1. -/
def spoolCore : State :=
  { cores := [(0, { fg := {
      regs := { x := [(11, 0x7FF80)] }, sem := [(5, 1), (6, 65534)]
      sl := [(2, { cfg := true, ssz := 2, nsl := 2, base := 0x1000, hd := 1, cnt := 1 }),
             (3, { cfg := true, ssz := 2, nsl := 64, base := 0x2000 })] } })] }

/-- VectorWordsComplete: semaphores that allow a word, with and without spools as source and destination. -/
theorem wit_vector_words :
    spoolCore.unitsAtRest 0 ∧ (spoolCore.fg 0).semsAllow 5 6 ∧ (spoolCore.fg 0).semsAllow 0 0 ∧
      spoolCore.spoolsAllow 0 3 2 3 ∧ State.reset.spoolsAllow 0 0 1 3 := by
  refine ⟨wit_rest_with _ _ _ _ _ _, ?_, ?_, ⟨fun _ => ⟨⟨rfl, rfl⟩, ?_⟩, fun _ => ⟨⟨rfl, rfl⟩, ?_⟩⟩, ⟨fun h => absurd h ?_, fun h => absurd h ?_⟩⟩
  · unfold Ctx.semsAllow; decide
  · unfold Ctx.semsAllow; decide
  · decide +kernel
  · decide
  · decide
  · decide

/-- ElementwiseWritesActiveElements, IntegerAndPermutationElements and PredicatesAndComparisons: the last element of each
width, active and not; signed and unsigned types; shifts below the width and beyond. -/
theorem wit_elements :
    (∀ w, w ∈ [4, 8, 16, 32, 64] → 1024 / w - 1 < 1024 / w ∧ activeEl (BitVec.allOnes 128) w (1024 / w - 1) = true ∧
      activeEl 0 w (1024 / w - 1) = false) ∧
    (tyB 16 = true ∧ tyB 23 = true ∧ 8 ≤ tyWidth 16 ∧ tyI 19 = true ∧ tyI 20 = false ∧ tyWidth 7 = 4 ∧
      fvi.ty = fv.ty ∧ tyWidth fv.ty ∈ [8, 16, 32, 64]) ∧ fv.c.toNat ≤ 5 := by decide

/-- VectorLoadsReadTheScratchpad and VectorStoresWriteTheirElements: the last 128 bytes of the scratchpad, in banks of
every width, for a line, strides and indices. -/
theorem wit_vector_memory :
    spoolCore.unitsAtRest 0 ∧ spoolCore.spoolsAllow 0 0 0 3 ∧ (spoolCore.xr 11).toNat = 0x7FF80 ∧ 0x7FF80 % 128 = 0 ∧
      spoolCore.leasedAt 0 0x7FF80 128 = none ∧ spoolCore.spadPoison 0 0x7FF80 128 = false ∧
      (spoolCore.fg 0).bankFits 15 32 = true ∧
      (∀ x, x ∈ [(4, 7), (8, 20), (16, 21), (64, 23)] → ({ csr := { bfmt := [(15, x.2)] } } : Ctx).bankFits 15 x.1 = true) ∧
      byteActive (BitVec.allOnes 128) 4 127 = true ∧
      (∀ j : Nat, j < 32 → ((0x7FF80 : Int) + j * 4) % 4 = 0 ∧ 0x7FF80 + j * 4 + 4 ≤ 0x80000) := by
  refine ⟨wit_rest_with _ _ _ _ _ _, ⟨fun h => absurd h ?_, fun h => absurd h ?_⟩, ?_, ?_, ?_, ?_, ?_, ?_, ?_, ?_⟩
  · decide
  · decide
  · decide
  · decide
  · decide
  · decide +kernel
  · decide +kernel
  · decide
  · decide
  · intro j h; omega

/-- TileInstructions: tiles of the largest and of another shape, unconfigured ones, row and column indices at their
bounds and beyond, and orders that divide. -/
theorem wit_tiles :
    let c : Ctx := { regs := { tcfg := [(1, 64 * 64 + 32), (2, 64 * 64 + 32), (3, 64 + 16)] } }
    State.reset.unitsAtRest 0 ∧ (State.reset.fg 0).semsAllow 0 0 ∧ (∀ k, tget false (State.reset.fg 0).regs.tilePois k = false) ∧
      c.shape 1 = some (64, 32) ∧ c.shape 2 = some (64, 32) ∧ c.shape 3 = some (1, 16) ∧ c.shape 0 = none ∧
      (63 < 64 ∧ 31 < 32 ∧ 64 ≤ 64 ∧ 32 % 32 = 0 ∧ 64 % 64 = 0) ∧
      (∀ k, k < 16 → (c.bfmt k).toNat % 32 = (0 : BitVec 5).toNat) ∧
      (0x7E000 + 63 * 128 + 32 * 4 ≤ 0x80000) := by
  refine ⟨wit_rest, ?_, fun _ => rfl, ?_⟩
  · unfold Ctx.semsAllow; decide
  · decide

/-- MatrixInstructions: operands that pass the checks, ones that do not, a codebook line at the end of the scratchpad, and
rows that a drain may write. -/
theorem wit_matrix :
    let c : Ctx := { regs := { tcfg := [(1, 64 * 64 + 32)] }, csr := { bfmt := [(0, 1), (1, 1), (4, 1)] } }
    let f : FmtM := { fm with fa := 1, fb := 1 }
    let good := mmaOp f 0x0002000000000000 512
    let bad := mmaOp f 1 0
    State.reset.unitsAtRest 0 ∧ (c.mmaBad bad = true ∨ c.unbound bad = true) ∧
      ¬(c.mmaBad good = true ∨ c.unbound good = true) ∧ c.shape 1 = some (64, 32) ∧ (mmaOp f 0x0002000000000000 32).nb = 1 ∧
      (0x7FFE0 % 32 = 0 ∧ State.reset.spadPoison 0 0x7FFE0 32 = false) ∧ (∀ k, k < 16 → (State.reset.fg 0).bfmt k = 0) ∧
      (0x7E000 + 63 * 128 + 4 * 32 ≤ 0x80000) := by
  refine ⟨wit_rest, ?_⟩
  decide +kernel

/-! ## Witnesses: copy packets -/

/-- A raw `COPY` for CE1 as it stands in a queue: 64 bytes from 0x2000 to 0x1000. -/
def copyP : Packet := ⟨{ fc with eng := 2, fl := 1, sig := 9, cr := true }, 0x1000, 0x2000, 64, 0x3000, 0⟩
def fillP : Packet := ⟨{ fc with eng := 2, fl := 1 }, 0x7FFC0, 0, 64, 0, 0⟩
def entryOf (i : Instr) : QEntry := { word := encodeWord i, rest := encodeRest i }

/-- Core 0 at work, with CE1 running the entry given. -/
def atCe1 (h : QEntry) : State :=
  { State.reset.setCore 0 { busy := true, fg := { ce1 := { st := .running, q := [h] } } } with lockstep := false }

/-- CopyPacketsAreForwarded: each way to pick an engine, engines with room, in ring mode and full, and a word of each
class. -/
theorem wit_forward :
    State.reset.cur = .core 0 ∧ (State.reset.fg 0).hact = false ∧
    (let c := State.reset.fg 0
     c.ce0.inRing = false ∧ c.ce1.inRing = false ∧ c.ce1.q.length < 16 ∧ c.ce0.q.length ≤ c.ce1.q.length) ∧
    ((State.reset.fg 0).freeNow .ce0 = true ∧ (atCe1 (entryOf (.copy copyP))).lockstep = false) ∧
    (({ ce1 := { r := true, st := .ring } } : Ctx).eng .ce1).inRing = true ∧
    (let g : Engine := { r := true, st := .ring }
     ({ ce0 := g, ce1 := g } : Ctx).ce0.inRing = true ∧ ({ ce0 := g, ce1 := g } : Ctx).ce1.inRing = true) ∧
    (let g : Engine := { st := .running, q := List.replicate 16 { word := 0x5BF } }
     g.st = .running ∧ 16 ≤ g.q.length) ∧
    (decode64 0x00000000082304BF 0 = some (.vadd ⟨0, 0, 0, false, 0, 0, false, 0, 2, 1, 3⟩) ∧ getClass 0x00000000082304BF = 1) ∧
    ((decode64 0x0000000000050D3F 0).isSome = true ∧ getClass 0x0000000000050D3F = 2) ∧
    ((decode64 0x00000100000005BF 0).isSome = true ∧ getClass 0x00000100000005BF = 3 ∧ (getC 0x00000100000005BF).eng = 1) := by
  decide +kernel

/-- CopyPiecesMoveTheirBytes: an entry that starts, pieces of a `COPY` and of a `FILL` at the end of the scratchpad, and
entries whose pieces are all issued. -/
theorem wit_pieces :
    (let h := entryOf (.copy copyP)
     let s := atCe1 h
     (s.core 0).busy = true ∧ (s.fg 0).stop = none ∧ (s.core 0).stepping = none ∧ (s.fg 0).hact = false ∧
      ((s.fg 0).eng .ce1).st = .running ∧ ((s.fg 0).eng .ce1).q = [h] ∧ s.lockstep = false ∧
      h.instr = some (.copy copyP) ∧ h.started = false ∧ (s.fg 0).regs.pois = [] ∧ h.fullAt = none ∧
      h.expired (s.jtime 0) = false ∧ s.startBad (s.cxOf 0 .ce1 h.ord) (.copy copyP) h.word = none ∧ (s.fg 0).semReady (wfld h.word 63 56) = true) ∧
    (copyP.cmd.fl.getLsbD 0 = true ∧ Packet.par' copyP 24 4 = 64 ∧ unitOf 0x1000 64 0 = (0, 64) ∧ unitCount 0x1000 64 = 1 ∧
      (atCe1 {word := 0}).leasedAt 0 0x2000 64 = none ∧ (atCe1 {word := 0}).spadPoison 0 0x2000 64 = false) ∧
    ((entryOf (.fill fillP)).instr = some (.fill fillP) ∧ 0x7FFC0 + Packet.par' fillP 24 4 ≤ 0x80000 ∧
      0 < unitCount 0x7FFC0 64 ∧ unitCount 0x7FFC0 64 ≤ 1) := by decide +kernel

/-- PacketEventsComplete: the completion of a packet, with a record and a signal; a remote signal that fits and one that
overflows; a tile that is taken and one that is refused; an append to a queue with a free slot and to none; an `AMCAST`
with a receiver left, before and after D; an `SPDRAIN` past D; a promise that has passed; a store that waits too long. -/
theorem wit_packet_events :
    (let h := { entryOf (.copy copyP) with started := true, fin := true }
     let s := atCe1 h
     (s.fg 0).ce1.q = [h] ∧ (s.fg 0).ce1.r = false ∧ h.outst = 0 ∧ h.mask = 0 ∧ h.code ≠ 7 ∧ copyP.cmd.dc = false ∧
      ((s.fg 0).semOf copyP.cmd.sig.toNat).toNat < 65535 ∧ copyP.rcd.toNat + 32 ≤ 0x80000) ∧
    (let s : State := { sch := { sigIn := [⟨0, 255, 65535, 0, 0⟩] } }
     takeSig 0 255 65535 s.sch.sigIn [] = some (⟨0, 255, 65535, 0, 0⟩, []) ∧ ((s.fg 0).semOf 255).toNat + 65535 ≤ 65535 ∧
      65535 < (({ sem := [(255, 1)] } : Ctx).semOf 255).toNat + 65535) ∧
    (let t : Tile := { src := .hamper 0, bit := 0, off := 0x7FFFF, data := [1], rsem := 5, asem := 6 }
     let s := State.reset.setCore 0 { tiles := [t], fg := { sem := [(5, 1)] } }
     (s.core 0).tiles = [t] ∧ t.pois = [] ∧ t.off + t.data.length ≤ 0x80000 ∧ t.rsem ≠ 0 ∧ t.asem ≠ 0 ∧ t.rsem ≠ t.asem ∧
      1 ≤ ((s.fg 0).semOf 5).toNat ∧ ((s.fg 0).semOf 6).toNat < 65535 ∧ (State.reset.fg 0).semOf 5 = 0) ∧
    (let p : Packet := ⟨{ fc with eng := 2 }, 0x40, 0x80, 0, 0, 0⟩
     let h := { entryOf (.qappend p) with started := true }
     let s := atCe1 h
     let bs := leBytes 8 0 ++ leBytes 8 0 ++ leBytes 8 0 ++ leBytes 8 0
     h.instr = some (.qappend p) ∧ h.fin = false ∧ h.piece = 0 ∧ h.code = 0 ∧ h.fullAt = none ∧ p.src.toNat + 64 ≤ 0x80000 ∧
      p.dst.toNat % 64 = 0 ∧ s.leasedAt 0 0x80 64 = none ∧ s.spadPoison 0 0x80 64 = false ∧ bs.length = 32 ∧
      s.leasedAt 0 0x40 64 = none ∧ s.spadPoison 0 0x40 64 = false ∧
      (s.qhdr 0 0x40).ok = false) := by decide +kernel

/-- PacketEventsComplete, the rest: an append to a queue with two free slots, an `AMCAST` with a receiver left, an
`SPDRAIN` of an empty spool past D, a promise that has passed, and a store that finds the queue full past `sdl`. -/
theorem wit_packet_events_2 :
    (let hd := leBytes 8 (2 ^ 63 + 2 ^ 48 + 7 * 2 ^ 40 + 0x100)
     let s : State := { mem := memWrite [] (spadKey 0 0x40) hd }
     let q := s.qhdr 0 0x40
     q.ok = true ∧ (q.wix + 2 ^ 64 - q.rix) % 2 ^ 64 < 2 ^ q.lgn ∧ q.wb = 0 ∧ q.cmt = q.wix ∧ q.sem = 7 ∧
      ((s.fg 0).semOf q.sem).toNat < 65535 ∧
      2 ^ ({ q with wix := 256 } : QHdr).lgn ≤ (({ q with wix := 256 } : QHdr).wix + 2 ^ 64 - q.rix) % 2 ^ 64) ∧
    (let p : Packet := pk fc
     let x : HCopy := { eng := 3, job := 0, thread := none, d := 5
                        entry := { entryOf (.amcast p) with started := true, fin := true, mask := 1, sub := 4 } }
     let s : State := { now := 68, hamper := { copies := [x] } }
     s.hcopy 3 = some x ∧ x.entry.instr = some (.amcast p) ∧ x.entry.mask ≠ 0 ∧ x.entry.outst = 0 ∧
      x.entry.sub + 64 ≤ s.now ∧ x.d.toNat < s.ccyc.toNat) ∧
    (let p : Packet := ⟨{ fc with eng := 2, fl := 1 }, 0, 4, 1, 0, 0⟩
     let h := { entryOf (.spdrain p) with started := true, wt0 := some 0, dl := 1 }
     let s : State := { State.reset.setFg 0 { ce1 := { st := .running, q := [h] }
                                              sl := [(4, { cfg := true, ssz := 2, nsl := 2 })] } with now := 10 }
     h.instr = some (.spdrain p) ∧ h.piece < Packet.par' p 24 4 ∧ ((s.fg 0).spool (p.src.toNat % 16)).cfg = true ∧
      h.claim = none ∧ (((s.fg 0).spool 4).seen s.spoolCycle).cnt = 0 ∧ (deadlineAt 0 h.dl).toNat < (s.jtime 0).toNat) ∧
    (let h := { entryOf (.copy copyP) with promise := 5 }
     let s : State := { atCe1 h with now := 10 }
     (s.fg 0).ce1.missed = none ∧ h.missed = false ∧ h.promise ≠ 0 ∧ h.promise.toNat < (s.jtime 0).toNat) ∧
    (let h := { entryOf (.fill fillP) with started := true, fullAt := some (0, 9) }
     let s (t : Nat) : State := { atCe1 h with now := t }
     h.fin = false ∧ (0 : Word).toNat + wfld ((s 5000).fg 0).csr.sdl 39 0 ≤ ((s 5000).jtime 0).toNat ∧
      ((s 9).jtime 0).toNat < (0 : Word).toNat + wfld ((s 9).fg 0).csr.sdl 39 0) := by decide +kernel

/-! ## Witnesses: events of engines, of a core's paths, of the schedulers and of memory -/

/-- A `SEMWAIT` of sem9 that waits at core 0, with D = 5. -/
def semWait : Wait := { instr := .semwait { fd with aux := 9, d := 4 }, pc := 0x40, d := 5 }

/-- EngineEventsComplete: a held word with room and without, before and after D; a head whose `wait` is past D; a command
that is ready, running and in flight; an engine's trap at a boundary; a wait that ends and one that times out. -/
theorem wit_engine_events :
    (let h : Hold := ⟨.vx, false, { word := 0x4BF }, 0x40, 8, 5⟩
     let g : Engine := { st := .running, q := List.replicate 16 { word := 0x4BF } }
     let s : State := { atCore { hold := some h, vx := g } with now := 6 }
     (s.fg 0).hold = some h ∧ h.any = false ∧ h.len = 8 ∧ (s.fg 0).stop = none ∧ (s.fg 0).hact = false ∧ 16 ≤ ((s.fg 0).eng h.eng).q.length ∧
      h.d.toNat < (s.jtime (s.fg 0).ident.job).toNat ∧ ((State.reset.fg 0).eng h.eng).q.length < 16) ∧
    (let q : QEntry := { word := 0x4BF, wt0 := some 1, dl := 2 }
     let s (t : Nat) : State := { atCore { vx := { st := .running, q := [q] } } with now := t }
     ((s 4).fg 0).vx.q = [q] ∧ q.started = false ∧ (deadlineAt 1 q.dl).toNat < ((s 4).jtime 0).toNat ∧
      ((s 3).jtime 0).toNat ≤ (deadlineAt 1 q.dl).toNat) ∧
    (let p : Pending := { eng := .vx, kind := 1, dst := 31, sig := 9 }
     p.ready ≤ State.reset.dcyc (State.reset.fg 0) ∧ p.spool = none ∧ p.dst < 32 ∧
      ((State.reset.fg 0).semOf p.sig.toNat).toNat < 65535 ∧ ({ vx := { st := .running, run := [p] } } : Ctx).vx.run = [p] ∧
      ({ inflight := [p] } : Ctx).inflight = [p] ∧ (State.reset.fg 0).regs.pois.contains (5, p.ord) = false ∧
      (State.reset.fg 0).awaits .vx = false) ∧
    (let g : Engine := { stoppedEng with trap := some (3, 0x4BF) }
     let s := State.reset.setCore 0 { busy := true, fg := { mt := g } }
     (s.core 0).busy = true ∧ (s.core 0).stepping = none ∧ (s.fg 0).atBoundary = true ∧ (s.fg 0).late = [] ∧
      (s.fg 0).mt.trap = some (3, 0x4BF) ∧ (s.fg 0).vx.pending = none) ∧
    (let s (t : Nat) (sem : Tbl (BitVec 16)) : State :=
       { State.reset.setCore 0 { busy := true, fg := { wait := some semWait, sem := sem } } with now := t }
     ((s 5 [(9, 1)]).fg 0).wait = some semWait ∧ semWait.fresh = false ∧ ((s 5 [(9, 1)]).fg 0).vreads = [] ∧
      ((s 5 [(9, 1)]).jtime 0).toNat ≤ semWait.d.toNat ∧ 1 ≤ (((s 5 [(9, 1)]).fg 0).semOf 9).toNat ∧
      semWait.d.toNat < ((s 6 []).jtime 0).toNat ∧ (State.reset.fg 0).csr.dlesc = 0 ∧
      ((s 5 []).fg 0).bearsBefore ((s 5 []).fg 0).ord = false ∧ ((s 5 []).fg 0).dlWait = []) := by decide +kernel

/-- A master access table entry of every stack and cluster that permits everything, of kind and unit 0. -/
def openMat : Tbl Word := [(matKey 0 0 0, 0xFFFF000000000000), (matKey 1 0 0, 0xFFFF000000000000)]

/-- CorePathsComplete: a fetch outside the paged region, and one through a translation; a posted write that is allowed
and one that is not; its acknowledgement; a `VTRD` block misaligned, stale, bad and good, and its reply. -/
theorem wit_core_paths :
    (let s := State.reset.withFetchWord 32 0x13
     s.fetched 0 = some [0x13, 0, 0, 0]) ∧
    ((State.reset.core 0).icache = [] ∧ (State.reset.fg 0).pc.toNat < 0x40000000 ∧
      2 ^ 48 ≤ ({ pc := 0x1000000000000 } : Ctx).pc.toNat) ∧
    (let t : Tlb := ⟨0, 0x40000000, 0x4000, 0x1F⟩
     let s : State := { State.reset.setCore 0 { fg := { pc := 0x40000000 }, utlb := [t] } with mat := openMat }
     (s.core 0).icache = [] ∧ (s.core 0).utlb = [t] ∧ t.asid = s.asidOf (s.fg 0).ident.job ∧ t.pte.getLsbD 4 = true ∧
      (s.fg 0).pc.toNat + 64 ≤ t.va + t.size ∧ ptePa t.pte + ((s.fg 0).pc.toNat - t.va) = s.pkgid * 2 ^ 45 + 0 ∧
      s.allows 0 0 (midCore 0) .r = true ∧ (∀ j, j < 64 → (0 + j) / 2 ^ 36 = 0)) ∧
    (let p : Posted := { win := 3, pkg := 0, tgt := 5, data := cellsAt 0x7FFFF [7] }
     let s : State := { State.reset.setCore 0 { posted := [p] } with mat := openMat }
     (s.core 0).posted = [p] ∧ p.pkg = s.pkgid ∧ p.own = (s.fg 0).key ∧ p.win ≠ 255 ∧ 0x7FFFF + [(7 : Byte)].length ≤ 2 ^ 19 ∧
      s.allows 1 (p.tgt / 256) (midCore 0) .w = true ∧ State.reset.allows 1 (p.tgt / 256) (midCore 0) .w = false) ∧
    (let k : Core := { acks := [⟨3, 0, 0⟩] }
     (k.acks.find? (fun a => decide (a.win = 3))).map (fun a => decide (a.own = k.fg.key)) = some true) ∧
    (let blk := leBytes 32 (2 ^ 192 + 2 ^ 208)
     let s (v : Nat) : State := { atCoreMem {} blk with handles := [(0, some (BitVec.ofNat 512 v))] }
     (s 0).spadRead 0 0 32 = blk ∧ u16 blk 24 = 1 ∧ u16 blk 26 = 1 ∧ leNat (blk.drop 29) = 0 ∧ u16 blk 28 % 256 = 0 ∧
      hFresh ((s 0).hEntry 0 (u32 blk 0)).1 (u32 blk 0) = false ∧ hFresh ((s (2 ^ 79)).hEntry 0 0).1 0 = true ∧
      (((s (2 ^ 79)).hEntry 0 0).2.boxRead { core := some 0, slot := 0, mid := midFolder 0 } (2 ^ 79) (origins blk 4)
        (vtrdBox blk) 0).1.fault = none ∧
      2 ≤ u16 (leBytes 32 (2 * 2 ^ 224)) 28 % 256) ∧
    (let v : VRead := { id := 1, instr := .vtrd fd, entry := { word := 0 }, d := 5, pc := 0, blk := leBytes 32 (2 ^ 192 + 2 ^ 208)
                        hent := 2 ^ 79 }
     let s := atCore { vreads := [v] }
     s.lockstep = true ∧ ({ s with lockstep := false } : State).fg 0 = s.fg 0 ∧ (s.fg 0).vreads = [v] ∧ v.id ≠ 0 ∧ v.ans = none ∧ v.entry.flg = 0 ∧ v.entry.piece = s.pkgid ∧
      (s.core 0).vBefore v = false ∧ (s.jtime 0).toNat ≤ v.d.toNat ∧
      (match (s.vreadAnswer 0 v).1 with | .data _ => true | _ => false) = true) := by decide +kernel

/-- The job-table entry of slot 1: jobid 7, valid, a page table at 0x100000, a migration threshold of 10. -/
def jobTable : List Host.Cell :=
  memWrite [] (hamperBase + 64) (leBytes 64 (7 + 2 ^ 112 + 0x100000 * 2 ^ 192 + 10 * 2 ^ 320))

/-- SchedulingEventsComplete: launches that wait to be divided, taken, stolen from, dispatched and reported; dependence
counters of a slot that is armed and that is not; domains that are declared and withdrawn; a rate and a window due. -/
theorem wit_scheduling :
    let d : Desc := { entry := 0x40000000, count := 5, span := 5 }
    let l : Launch := { job := 1, num := 4, desc := d, grp := 0, rdy := 0 }
    let s (l : Launch) : State := { mem := jobTable, sch := { launches := [l], globQ := [(1, 4)], leafQ := [(3, [(1, 4)])] } }
    ((s l).launch 1 4 = some l ∧ (s l).sch.globQ = [(1, 4)] ∧ (s l).leafQ 3 = [(1, 4)] ∧ l.ranges = [] ∧ l.assigned = []) ∧
    (let m : Launch := { l with ranges := [⟨6, 10, 2, 0⟩, ⟨7, 20, 5, 0⟩] }
     m.unplaced 0 = 0 ∧ m.largest m.busiest = some ⟨7, 20, 5, 0⟩ ∧ (s m).rs 1 = 0) ∧
    (let m : Launch := { l with ended := [(2, 3)], assigned := [(2, 3)], reported := [(2, 1)] }
     tget 0 m.ended 2 = tget 0 m.assigned 2 ∧ tget 0 m.reported 2 < tget 0 m.ended 2 ∧ (s m).isFirst 1 = true ∧ m.sum + 2 ≠ 5) ∧
    (let m : Launch := { l with ranges := [⟨0, 1, 2, 0⟩] }
     ((s m).choose 0).any (fun x => decide (x.2 < 256) && (match x.1.what with | .launch 1 4 1 => true | _ => false)) = true) ∧
    (let t (st : SlotSt) : State := { sch := { slots := [(5, { st := st, cnt := 2 })], depOut := [⟨0, 5, 1, 0, 0⟩, ⟨0, 5, 2, 0, 1⟩, ⟨0, 5, 65535, 0, 2⟩] } }
     (takeSig 0 5 2 (t .armed).sch.depOut []).isSome = true ∧ (takeSig 0 5 65535 (t .free).sch.depOut []).isSome = true ∧ ((t .armed).slot 0 5).st = .armed ∧ 1 < ((t .armed).slot 0 5).cnt ∧
      ((t .armed).slot 0 5).cnt ≤ 2 ∧ ((t .free).slot 0 5).st ≠ .armed ∧ ((t .free).slot 0 5).pend + 65535 ≤ 65535 ∧
      65535 < ({ st := .free, pend := 1 } : NSlot).pend + 65535) ∧
    (let r (clm : Nat) := 3 + clm * 2 ^ 16 + 96 * 2 ^ 96 + 32 * 2 ^ 104 + 8 * 2 ^ 112 + 8 * 2 ^ 120 + 7 * 2 ^ 128
     leNat ((leBytes 64 (r 1)).take 64) = r 1 ∧ (s l).slotOf (fld (r 1) 159 128) = some 1 ∧ fld (r 1) 511 160 = 0 ∧
      fld (r 1) 15 8 = 0 ∧ fld (r 1) 95 32 = 0 ∧ (domOf (r 1) 1).clm ≠ 0 ∧ (domOf (r 1) 1).rds ≤ 96 ∧
      (domOf (r 1) 1).wrs ≤ 32 ∧ (domOf (r 1) 1).nts ≤ 8 ∧ (domOf (r 1) 1).sms ≤ 8 ∧ (domOf (r 0) 1).clm = 0) ∧
    State.reset.ccyc.toNat % 1050 = 0 ∧ (0 + 1) * 1050 ≤ ({ now := 1050 } : State).ccyc.toNat := by decide +kernel

/-- MemoryEventsComplete: a supervisor and a user; entries that `MATSET` and `SBSET` take and refuse; a frame that has
begun and one that has not; a store with credit and without; a page that has nothing due, that moves, and that is moving. -/
theorem wit_memory_events :
    (({ ident := { desc := { sup := true } } } : Ctx).ident.desc.sup = true ∧ (State.reset.fg 0).ident.desc.sup = false ∧
      (∀ x ∈ State.reset.cores, x.2.sq = [] ∧ x.2.farw = [] ∧ x.2.fg.vreads = [] ∧ x.2.fg.wait = none) ∧
      (State.reset.podPkgs = [] ∧ State.reset.tlbWant = []) ∧ (3 : BitVec 6).toNat % 16 ∈ [3, 4, 5, 6]) ∧
    (let a := 0x3F0F00
     wfld (0xFFFF000000000000 : Word) 31 16 = 0 ∧ fld a 7 4 = 0 ∧ fld a 15 12 = 0 ∧ a < 2 ^ 22 ∧ a % 16 < 5 ∧ fld a 11 8 < 16) ∧
    (wfld (0x0008000000000000 : Word) 62 51 ≠ 0 ∧ 8192 % 128 = 0 ∧ 8193 > 8192 ∧ (255 : Word).toNat < 256) ∧
    (State.reset.now < frameStart (State.reset.frame + 1) ∧ frameStart (State.reset.frame + 1) ≤ ({ now := 15 } : State).now) ∧
    (let e : SqEntry := { addr := 2 ^ 36, data := cellsAt 0 [1, 2] }
     let s := State.reset.setCore 0 { sq := [e], credit := 128 }
     (s.core 0).sq = [e] ∧ e.marker = false ∧ e.atom = none ∧ e.addr = s.pkgid * 2 ^ 45 + 2 ^ 36 ∧ 2 ^ 36 + 2 ≤ 2 ^ 40 ∧ e.pm = [] ∧ e.part = [] ∧
      (s.core 0).farw = [] ∧ s.slotTurn 1 = some 0 ∧ State.reset.slotTurn 1 ≠ some 0) ∧
    (let s : State := { hbm := [(3, { wr := 64 })] }
     64 ≤ (s.stackAt 3).wr) ∧
    (let p : PgCnt := { job := 1, va := 0x40000000, size := 2 ^ 30, cnt := [(3, 100)] }
     let m := memWrite (memWrite jobTable 0x100000 (leBytes 8 0x200001)) 0x200008 (leBytes 8 0x40000003)
     let s : State := { now := 2 ^ 20, mem := m, pages := [(2 ^ 16, p)] }
     tget {} s.pages (2 ^ 16) = p ∧ p.per < s.ccyc.toNat / 2 ^ 20 ∧ State.reset.ccyc.toNat / 2 ^ 20 ≤ p.per ∧
      leadingGo p.cnt 9 = some 3 ∧ leafAtGo s p.va levels (s.ptroot p.job) = some 0x200008 ∧
      (wOf (s.num 0x200008 8)).getLsbD 6 = false ∧ 3 ≠ 2 ^ 30 / 2 ^ 37 ∧ s.mthr p.job = 10 ∧ 10 ≤ tget 0 p.cnt 3 ∧
      2 * tget 0 p.cnt 0 ≤ tget 0 p.cnt 3 ∧ ptePa (wOf (s.num 0x200008 8)) = s.pkgid * 2 ^ 45 + 2 ^ 30 ∧ s.migs = []) ∧
    (let m : Mig := { va := 0x40000000, asid := 0, pteAt := 0x200008, old := 2 ^ 30, new := 2 ^ 37, size := 0x4000 }
     let s : State := { migs := [m] }
     s.migs.find? (fun x => decide (x.old = 2 ^ 16 * 2 ^ 14)) = some m ∧ Memory.wf s.mem = true ∧ s.inq = [] ∧ m.pteAt + 8 ≤ m.new) := by
  refine ⟨⟨rfl, rfl, fun x h => by simp [State.reset] at h, by decide⟩, ?_⟩
  decide +kernel

/-! ## Witnesses: the Hamper -/

/-- Job slot 1: jobid 7, counters 0x10 to 0x1F, triggers 0x20 to 0x2F, a handle table at 0x300000; and bytes at a place
of Hamper memory. -/
def hamperMem (off : Nat) (bs : List Byte) : List Host.Cell :=
  memWrite (memWrite [] (hamperBase + 64)
    (leBytes 64 (7 + 0x10 * 2 ^ 32 + 0x1F * 2 ^ 48 + 0x20 * 2 ^ 64 + 0x2F * 2 ^ 80 + 2 ^ 112 + 0x300000 * 2 ^ 256))) (hamperBase + off) bs

/-- Thread 3 of job slot 1, with two scalar registers, some of the Hamper's state, and bytes at 0x1800000. -/
def atJobThread (a b : Word) (hm : Hamper) (bs : List Byte) : State :=
  ({ cur := .thread 3, mem := hamperMem 0x1800000 bs, hamper := hm, mat := openMat } : State).setThread 3
    { x := [(11, a), (12, b)], hjob := 1 }

/-- ThreadInstructionsComplete: accesses that are misaligned, beyond Hamper memory, in the hardware's regions and at the
last plain address; counters at their bounds; triggers in each state; posts that are good, bad, live and not. -/
theorem wit_thread_instructions :
    (let s := atJobThread 0x27FFFF8 0 {} []
     s.cur = .thread 3 ∧ s.hjob 3 = 1 ∧ s.jobValid 1 = true ∧ (s.xr 11).toNat % 8 = 0 ∧ (s.xr 11).toNat < 0x2800000 ∧
      0x1400000 ≤ (s.xr 11).toNat ∧ firstPoison s.poison (hamperBase + 0x27FFFF8) 8 = none ∧
      0x27FFFF9 % 8 ≠ 0 ∧ 2 ^ 26 % 8 = 0 ∧ 0x13FF040 % 4096 = 0x040 ∧ s.jobValid 4095 = false ∧ 64 * 4095 + 14 < 0x40000 ∧ 0x2800000 % 8 = 0 ∧ 0x2800000 < 2 ^ 26 ∧ 3 < 512) ∧
    (let s := atJobThread 0x1F 1 { ctr := [(0x1F, { val := 2 ^ 32 - 2 })] } []
     s.ctrBase 1 ≤ 0x1F ∧ 0x1F ≤ s.ctrLast 1 ∧ (s.ctr 0x1F).val + wfld (s.xr 12) 31 0 < 2 ^ 32 ∧
      2 ^ 32 ≤ (s.ctr 0x1F).val + wfld (2 : Word) 31 0 ∧ wfld (s.xr 12) 31 0 ≤ (s.ctr 0x1F).val ∧
      (s.ctr 0x10).val < wfld (s.xr 12) 31 0 ∧ s.agentTime.toNat ≤ (deadlineAt s.agentTime 9).toNat ∧ s.ctrLast 1 < 0x20) ∧
    (let s := atJobThread 0x2F 0 { trg := [(0x2F, { st := .fired }), (0x20, { st := .armed, thr := 1, ctr := 0x10, job := 1 })] } []
     s.jt 1 8 2 % 32768 ≤ 0x2F ∧ 0x2F ≤ s.jt 1 10 2 % 32768 ∧ (s.trg 0x2F).st = .fired ∧ (s.trg 0x20).st = .armed ∧
      (s.trg 0x21).st = .free ∧ (({ trg := [(0x20, { st := .held })] } : Hamper).trg = [(0x20, { st := .held })])) ∧
    (let b : Word := 1 * 2 ^ 48 + 5 * 2 ^ 16 + 0xF
     let s := atJobThread 0 0 {} []
     wfld b 63 54 = 0 ∧ wfld b 49 48 = 1 ∧ s.ctrBase 1 + wfld b 15 0 ≤ s.ctrLast 1 ∧ (s.ctr 0x1F).val < wfld b 47 16 ∧
      wfld (0 : Word) 47 16 ≤ (s.ctr 0x1F).val ∧ 0x3FFFFC0 % 64 = 0 ∧ 0x3FFFFC0 < 2 ^ 26) ∧
    (let s := atJobThread 0x1800000 0 { posts := [⟨5, 1, 0, 0, 0, 0, 1, 1, 0, 0x10⟩] } (leBytes 64 (0x40000000 * 2 ^ 128 + 64 * 2 ^ 224 + 2 * 2 ^ 256))
     let b := postBlkOf (s.hnum 0x1800000 64)
     b.bad = false ∧ b.cnt = 2 ∧ b.max = 64 ∧ s.ctrBase 1 + b.pc ≤ s.ctrLast 1 ∧ s.hamper.posts.length < 65536 ∧ s.hamper.unexp = [] ∧
      s.hamper.trg = [] ∧ (s.ctr 0x10).exp + b.cnt < 2 ^ 32 ∧ firstPoison s.poison (hamperBase + 0x1800000) 64 = none ∧
      (s.hamper.posts.find? (fun p => decide (p.num = 5 ∧ p.job = 1))).isSome = true ∧
      (s.hamper.posts.find? (fun p => decide (p.num = 6 ∧ p.job = 1))) = none ∧
      (postBlkOf (leNat (leBytes 64 (2 ^ 256)))).bad = true ∧ (postBlkOf (leNat (leBytes 64 (2 ^ 256)))).cnt = 1) := by
  decide +kernel

/-- ThreadMessagesComplete: a port with a message and an empty one; a header that is good and a bad one; a launch that is
accepted and one that is refused; each kind of `JCFG`; a packet that can start and one that cannot. -/
theorem wit_thread_messages :
    let m : Msg := { ctrlMsg 0 0 7 5 [1, 2, 3] with jobid := 7 }
    (let s := atJobThread 0x1800000 16 { ports := [(5, [m])] } []
     s.port 5 = [m] ∧ m.payload.length = m.len.toNat ∧ (s.xr 11).toNat % 32 = 0 ∧ 0x1800000 + (32 + m.len.toNat) ≤ 0x2800000 ∧
      (∀ x ∈ s.hamper.threads, x.2.wait = none) ∧ s.port 6 = [] ∧
      s.agentTime.toNat ≤ (deadlineAt s.agentTime 9).toNat) ∧
    (let s (b : Word) (bs : List Byte) := atJobThread 0x1800000 b {} bs
     (hdrOk (msgOf ((s (2 ^ 62) (hdrBytes m)).hnum 0x1800000 32) []) = true ∧ (s (2 ^ 62) []).destOk 1 (2 ^ 62) 3 = true ∧
       (s 0 []).held 1 = false ∧ hdrOk (msgOf ((s 0 (leBytes 32 (2 ^ 112 * 3))).hnum 0x1800000 32) []) = false) ∧
     ((match (s 0 (leBytes 64 (2 ^ 128 + 3 * 2 ^ 172))).hlaunch 1 0 (2 ^ 128 + 3 * 2 ^ 172) with | .inr _ => true | .inl _ => false) = true ∧
       (match (s 0 []).hlaunch 1 0 0 with | .inl 2 => true | _ => false) = true)) ∧
    (let hent := 0x40000000 + 2 ^ 76 + 2 ^ 79 + 2 ^ 128 + 2 ^ 160 + 2 ^ 192 + 2 ^ 224 + 2 ^ 256
     let s := atJobThread 0x1800000 0 {} (leBytes 64 hent)
     hentOk hent = true ∧ s.htab 1 = 0x300000 ∧ s.refuses (midThread 0) (s.htab 1 % 2 ^ 45) 64 .w = none ∧
      winOk (2 ^ 63 + 0x02000000) = true ∧ wfld (2 ^ 62 + 0x3F : Word) 63 62 = 1 ∧ wfld (2 ^ 62 + 0x3F : Word) 7 6 = 0 ∧
      wfld (2 ^ 63 + 0x3F : Word) 63 62 = 2 ∧ wfld (2 ^ 63 + 0x3F : Word) 61 20 = 0 ∧ wfld (2 ^ 63 + 2 ^ 62 : Word) 63 62 = 3) ∧
    (let s : State := { mem := memWrite [] (hamperBase + 64) (leBytes 64 (7 + 2 ^ 112 + 2 ^ 113)), cores := [(0, { busy := true, fg := { ident := { job := 1 } } })] }
     s.held 1 = true ∧ s.jobValid 1 = true ∧ (s.core 0).busy = true ∧ (s.fg 0).ident.job = 1) ∧
    (let p : Packet := ⟨{ fc with fl := 1 }, 0x8000000000000000 + 0x1900000, 0x8000000000000000 + 0x1A00000, 64, 0, 0⟩
     let s : State := { atJobThread 0x1800000 0 {} (encode (.copy p)) with lockstep := false }
     s.hpacketBad 1 (s.hpacket 0x1800000) = none ∧ s.hpacketBad 1 (s.hpacket 0x1900000) = some 0x0E ∧ s.held 1 = false ∧
      s.hamper.copies = []) := by decide +kernel

/-- HamperEventsComplete: messages of each kind, with room and without, at a counter's bound, with a post and without;
tails that go forward and back; a reply to a request; units that may stop and wake; regions in and out of bounds. -/
theorem wit_hamper_events :
    let m (k : Byte) : Msg := { tag := 9, jobid := 7, src := 0, kind := k, fl := 0, ctr := 3, port := 0, len := 4, imm := 0
                                payload := [1, 2, 3, 4] }
    let s (hm : Hamper) : State := { mem := hamperMem 0x40000 (leBytes 8 (2 ^ 63 + 0x13 * 2 ^ 32 + 5)), hamper := hm, mat := openMat }
    ((s {}).slotOf 7 = some 1 ∧ hdrOk (m 0) = true ∧ hdrOk (m 1) = true ∧ hdrOk (m 2) = true ∧
      (s {}).ctrBase 1 + 3 ≤ (s {}).ctrLast 1 ∧ ((s {}).ctr 0x13).val < 2 ^ 32 - 1 ∧ (s {}).hamper.sent = [] ∧
      portUsed ((s {}).port 0) + msgSpace (m 1) ≤ 131072 ∧
      131072 < portUsed ((s { ports := [(0, List.replicate 10 { m 1 with len := 16384 })] }).port 0) + msgSpace (m 1) ∧
      ((s { ctr := [(0x13, { val := 2 ^ 32 - 1 })] }).ctr 0x13).val = 2 ^ 32 - 1) ∧
    (let p : Post := ⟨5, 1, 9, 0, 0x4000000000000100, 0, 4, 1, 0, 0x10⟩
     p.takes 1 (m 0) = true ∧ ({ p with max := 3 } : Post).takes 1 (m 0) = false ∧
      (match (s {}).putTw 1 p.dst (m 0).payload with | .inr t => decide ((t.ctr 0x13).val < 2 ^ 32 - 1 ∧ t.ctrBase 1 = 0x10) | .inl _ => false) = true ∧
      (match ({ s {} with mat := [] } : State).putTw 1 p.dst (m 0).payload with | .inl _ => true | .inr _ => false) = true ∧
      (s {}).unexpUsed + 256 ≤ 2 ^ 24) ∧
    (let x : Sent := { dest := 0, msg := m 2, thr := some 4 }
     let w : Wait := { instr := .nsend fd, pc := 0, d := 9, sent := true }
     let t := s { sent := [x], threads := [(4, { wait := some w })] }
     t.hamper.sent = [x] ∧ (t.thread 4).wait = some w ∧ w.ord = x.num ∧ t.hamper.trg = [] ∧ t.pkgid < 2 ^ 11) ∧
    ((s {}).hnum 0x40000 8 = 2 ^ 63 + 0x13 * 2 ^ 32 + 5 ∧ ((6 : BitVec 32) - 5).toNat < 2 ^ 31 ∧ 2 ^ 31 ≤ ((4 : BitVec 32) - 5).toNat ∧
      (s {}).hnum 0x40008 8 = 0 ∧ portUsed ((s {}).port 2) + 64 ≤ 131072) ∧
    (let x : Sent := { dest := 0, thr := some 4
                       msg := { m 1 with tag := 1, payload := leBytes 32 0 ++ leBytes 64 5 } }
     let t : State := { (State.reset.setCore 0 { ecall := some (9, 0x7FFC0) }) with hamper := { links := [(0, x)] } }
     t.hamper.links.find? (fun y => decide (y.1 = 0)) = some (0, x) ∧ x.msg.payload.length = 96 ∧
      (x.msg.payload.headD 0).toNat = 0 ∧ x.msg.payload.drop 32 = leBytes 64 5 ∧ (t.core 0).ecall = some (9, 0x7FFC0) ∧
      ((t.fg 0).semOf 9).toNat < 65535) ∧
    (let w : Wait := { instr := .nrecv fd, pc := 0, d := 9 }
     let t : State := { now := 1024, hamper := { threads := (List.range 8).map (fun k => (504 + k, { wait := some w })) } }
     (∀ k, k < 8 → (t.thread (8 * 63 + k)).wait = some w ∧ w.since + 1024 ≤ t.now) ∧ t.hamper.retained.contains 63 = false ∧
      ({ retained := [63] } : Hamper).retained.contains 63 = true) ∧
    (let g : Region := { tw := 0x4000000000000100, len := 64, ctr := 3 }
     let t := s { regions := [(65536 + 65535, g)] }
     tget {} t.hamper.regions (65536 + 65535) = g ∧ t.jobValid 1 = true ∧ t.ctrBase 1 + g.ctr ≤ t.ctrLast 1 ∧ 60 + 4 ≤ g.len ∧ g.len < 61 + 4 ∧
      (match t.putTw 1 (g.tw + wOf 60) [1, 2, 3, 4] with | .inr u => decide ((u.ctr 0x13).val < 2 ^ 32 - 1) | .inl _ => false) = true ∧
      ((t.readVa (matchWho 1) ((g.tw + wOf 60).toNat : Int) 4).1.fault = none)) := by decide +kernel

/-! ## Witnesses: the fabric and collectives -/

def pkt0 : FabPkt :=
  { kind := 0, src := 9, dst := 0, via := 0, path := 0, hop := 0, seq := 0, mid := 0, len := 64, addr := 0x1000
    aux := 0xFFFFFFFFFFFFFFFF, payload := leBytes 64 0x55 }

/-- FabricEventsComplete: packets bad at each bound, next, old, early and not; an acknowledgement; one for another
package; a timer owed and not; packets sent long ago, with tries left and without; flits good, out of turn and bad; lanes
in use and idle; retrains that widen and that end too late; a master and another. -/
theorem wit_fabric_events :
    (let s : State := { fab := { seam := [(19, 7)], rxNext := [(9, 0xFFFF)], rxOwed := [(9, 62)] }, mat := openMat }
     tget 0 s.fab.seam 19 ≠ 0 ∧ tget 0 s.fab.seam 0 = 0 ∧ 8 < ({ pkt0 with kind := 9 } : FabPkt).kind.toNat ∧
      ({ pkt0 with len := 63 } : FabPkt).len.toNat ≠ pkt0.payload.length ∧ pktBad pkt0 = false ∧ pkt0.dst.toNat = s.pkgid ∧
      tget 0 s.fab.rxNext 9 < 2 ^ 16 ∧ (0xFFFF + 2 ^ 16 - tget 0 s.fab.rxNext 9) % 2 ^ 16 = 0 ∧ s.fab.rxBuf = [] ∧
      2 ^ 15 ≤ (0x7FFF + 2 ^ 16 - tget 0 s.fab.rxNext 9) % 2 ^ 16 ∧ (510 + 2 ^ 16 - tget 0 s.fab.rxNext 9) % 2 ^ 16 = 511 ∧
      tget 0 s.fab.rxOwed 9 < 63 ∧ padOf pkt0.addr.toNat = none ∧ memKind (s.homeOf pkt0.addr.toNat) = .hbm ∧ pkt0.part = [] ∧
      pkt0.payload.length = 64 ∧ s.refuses (midPkg 9) (s.homeOf pkt0.addr.toNat) 64 .w = none ∧
      padOf 0x18000007FFC0 = some (0, 0x7FFC0) ∧ (s.core 0).retired = false ∧ s.allows 1 0 (midPkg 9) .w = true ∧
      (0x2000 : BitVec 32).toNat / 2 ^ 13 ≠ 0) ∧
    (let a : FabPkt := { pkt0 with kind := 8, len := 3, payload := [0, 1, 0] }
     pktBad a = false ∧ a.kind = 8 ∧ a.payload.length = 3 ∧ a.payload.headD 0 = 0 ∧ State.reset.fab.out = []) ∧
    (let a : FabPkt := { pkt0 with dst := 5, hop := 4 }
     let s : State := { fab := { route := [(5, 2 ^ 63 + 3)] } }
     pktBad a = false ∧ a.dst.toNat ≠ s.pkgid ∧ a.hop = 4 ∧ s.routed 5 = true ∧ State.reset.routed 5 = false) ∧
    (tget 0 State.reset.fab.rxOwed 9 = 0 ∧ tget 0 [(9, 1)] 9 ≠ 0) ∧
    (let x (k : Nat) : TxPkt := ⟨{ pkt0 with dst := 5, kind := 2 }, 10, k⟩
     let s (k t : Nat) : State := { now := t, fab := { tx := [x k] } }
     (∀ t ∈ (s 0 50009).fab.tx, t.pkt.dst.toNat = 5 → (s 0 50009).now < t.sent + 50000) ∧
      (s 2 50010).fab.tx.find? (fun t => decide (t.pkt.dst.toNat = 5 ∧ t.sent + 50000 ≤ (s 2 50010).now)) = some (x 2) ∧
      (s 3 50010).fab.tx.find? (fun t => decide (t.pkt.dst.toNat = 5 ∧ t.sent + 50000 ≤ (s 3 50010).now)) = some (x 3)) ∧
    (let d := List.replicate 56 7
     let f (k : BitVec 16) : Flit := { data := d, fsq := k, ack := 4095, crc := crc32 (d ++ leBytes 2 k.toNat ++ leBytes 2 4095) }
     let o := State.reset.fport 32
     o.st ≠ .retrain ∧ o.st ≠ .lost ∧ o.wait = [] ∧ o.owed < 31 ∧ ({ o with owed := 31 } : Port).replay.length < 1024 ∧
      ({ o with wait := [pkt0] } : Port).wait ≠ [] ∧ (f 4096).fsq.toNat % 4096 = o.rxNext ∧ (f 1).fsq.toNat % 4096 ≠ o.rxNext ∧
      (f 0).crc = crc32 ((f 0).data ++ leBytes 2 (f 0).fsq.toNat ++ leBytes 2 (f 0).ack.toNat) ∧ (f 0).data.length = 56 ∧
      (f 0).ack.toNat < 4096 ∧ ¬({ f 0 with ack := 4096 } : Flit).ack.toNat < 4096) := by decide +kernel

theorem wit_fabric_lanes :
    (let o := State.reset.fport 32
     o.st = .x16 ∧ o.lanes.getLsbD 15 = true ∧ (15 / 8 = ({ o with st := .x8, grp := 1 } : Port).grp) ∧
      (15 / 4 = ({ o with st := .x4, grp := 3 } : Port).grp) ∧ 7 / 8 ≠ ({ o with st := .x8, grp := 1 } : Port).grp) ∧
    (let o : Port := { st := .retrain, full := true, lanes := 0xFFFF, since := 0 }
     let s (t : Nat) (o : Port) : State := { now := t, fab := { ports := [(3, o)] } }
     (s 2100 o).fport 3 = o ∧ o.wait = [] ∧ (s 2100 o).now ≤ o.since + 2100 ∧ (∀ k, k < 8 → o.lanes.getLsbD k = true) ∧
      (∃ k, k < 8 ∧ ({ o with lanes := 0xFF7F } : Port).lanes.getLsbD k = false) ∧
      (∀ k, k < 8 → ({ o with lanes := 0xFF7F } : Port).lanes.getLsbD (8 + k) = true) ∧
      (∀ k, k < 8 → ({ o with full := false, grp := 0, lanes := 0xFF00 } : Port).lanes.getLsbD (8 + k) = true) ∧
      4 ≤ ({ o with full := false, grp := 4 } : Port).grp ∧ (∀ k, k < 4 → o.lanes.getLsbD k = true) ∧
      o.since + 2100 < (s 2101 o).now ∧ (s 2101 o).fab.tx = []) ∧
    (State.reset.timeMaster = State.reset.pkgid) ∧
    (let s : State := { pkgid := 1, fab := { route := [(0, 2 ^ 63)] }, jobs := [(1, { pkgs := [(0, 0)] })], mem := hamperMem 0 [] }
     (∃ j ∈ s.jobs, s.jobValid j.1 = true) ∧ s.timeMaster ≠ s.pkgid) ∧
    (let s : State := { pkgid := 1, fab := { route := [(0, 2 ^ 63)] }, jobs := [(1, { pkgs := [(0, 0)] })] }
     s.slewAt = 0 ∧ (∀ j ∈ s.jobs, s.jobValid j.1 = false)) := by decide +kernel

/-- A parameter block at Hamper offset 0x1800000 for a SUM all-reduce of four .i32 elements by packages 0 and 1, this
package's rank being 1; behind it the member list and the local-part table. -/
def collMem : List Byte :=
  leBytes 64 (18 * 2 ^ 8 + 4 * 2 ^ 32 + 0x1800100 * 2 ^ 128 + 2 * 2 ^ 160 + 1 * 2 ^ 176 + 0x1800200 * 2 ^ 192 + 1 * 2 ^ 224 +
    9 * 2 ^ 256 + 0x1800300 * 2 ^ 320) ++ List.replicate 192 0 ++
  leBytes 8 0 ++ leBytes 8 1 ++ List.replicate 240 0 ++ leBytes 8 0x40000000 ++ leBytes 8 0x40000100

def coll0 : Coll :=
  { num := 3, thread := 3, crc := 7, ordinal := 0, op := 0, rop := 0, ty := 18, root := 0, count := 1, utag := 0, gsz := 1, rank := 0
    nloc := 1, ltab := [(0, 0x4000000000000100)], mlist := [0], stg := 0, dep := 0, cfl := 7, ctr := 0, crec := 0, d := 9 }

/-- CollectivesComplete: a block that is good, malformed, refused for its number and for a held job; a handshake that is
new, known, and the last that its coordinator waits for; a member at its last step; each way to complete. -/
theorem wit_collectives :
    (let s (hm : Hamper) : State := { atJobThread 0x1800000 0 hm collMem with pkgid := 1 }
     let c := (s {}).collOf 3 1 0x1800000
     (s {}).cur = .thread 3 ∧ (s {}).jobValid ((s {}).hjob 3) = true ∧ ((s {}).xr 11).toNat = 0x1800000 ∧
      0x1800000 % 128 = 0 ∧ firstPoison (s {}).poison (hamperBase + 0x1800000) 128 = none ∧
      (c.map (fun x => (x.rank, x.gsz, x.count, x.mlist))) = some (1, 2, 4, [0, 1]) ∧ ((s {}).job 1).colls.length < 16 ∧
      (s {}).held 1 = false ∧ ((s {}).job 1).shakes = [] ∧ (atJobThread 0x1800000 0 {} []).collOf 3 1 0x1800000 = none ∧
      (atJobThread 0x1800000 0 {} []).hnum (0x1800000 + 4) 4 = 0) ∧
    (let h : Handshake := { job := 1, crc := 7, ordinal := 0, rank := 0, fp := coll0.finger, utag := 0, root := 0 }
     let s (l : List Coll) (r : List Handshake) : State := { mem := hamperMem 0x40000 [], jobs := [(1, { colls := l, shakes := r })] }
     (s [] []).jobValid 1 = true ∧ (s [] []).held 1 = false ∧ (s [coll0] []).held 1 = false ∧ (s [] []).collAt 1 7 0 = none ∧ (∀ x ∈ ((s [] []).job 1).shakes, x.rank ≠ h.rank) ∧
      (∃ x ∈ ((s [] [h]).job 1).shakes, x = h) ∧ (s [coll0] []).collAt 1 7 0 = some coll0 ∧ (s [coll0] []).coll 1 3 = some coll0 ∧
      coll0.rank = 0 ∧ coll0.go = none ∧ coll0.gsz = ([h].filter (fun x => decide (x.crc = h.crc ∧ x.ordinal = h.ordinal))).length) ∧
    (let c : Coll := { coll0 with go := some true, ph := 5, acc := [some 5] }
     let s : State := { mem := hamperMem 0x40000 [], mat := openMat, jobs := [(1, { colls := [c] })] }
     s.coll 1 3 = some c ∧ s.rs 1 = 0 ∧ (s.jtime 1).toNat ≤ c.d.toNat ∧ (∀ x ∈ c.acc, x ≠ none) ∧
      (match s.collWrite 1 c 0x4000000000000100 c.acc with | .inr v => decide (v.jobs = s.jobs) | .inl _ => false) = true) ∧
    (let s (c : Coll) : State := { now := 40, mem := hamperMem 0x40000 [], jobs := [(1, { colls := [c] })] }
     (s coll0).held 1 = false ∧ (s { coll0 with go := some false }).coll 1 3 = some { coll0 with go := some false } ∧
      ({ coll0 with code := 7, det := 9 } : Coll).code = 7 ∧ ({ coll0 with code := 6, ph := 9 } : Coll).ph = 9 ∧
      (s coll0).jobValid 1 = true ∧ coll0.d.toNat < ((s coll0).jtime 1).toNat ∧
      (({ jobs := [(1, { colls := [coll0] })] } : State).coll 1 3).isSome = true ∧
      ({ jobs := [(1, { colls := [coll0] })] } : State).jobValid 1 = false) := by decide +kernel
/-! ## Witnesses: the host, management and boot -/

/-- A state whose mailbox runs a command with some argument words. -/
def mailed (cmd : Nat) (args : List Nat) : State :=
  { mgmt := { busy := true, req := leBytes 2 cmd ++ leBytes 6 0 ++ (args.map (leBytes 8)).flatten } }

/-- MailboxCommandsComplete: the doorbell idle and busy; each command with arguments at their bounds. -/
theorem wit_mailbox :
    (let m (b : Bool) : Mgmt := { req := leBytes 2 10, busy := b }
     (m false).busy = false ∧ (m true).busy = true ∧ leNat ((m false).req.take 2) = 10 ∧ (1 : BitVec 32) ≠ 2) ∧
    (let arg (s : State) (i : Nat) : Nat := leNat ((s.mgmt.req.drop (8 + 8 * i)).take 8)
     let cmd (s : State) : Nat := leNat (s.mgmt.req.take 2)
     let rd := mailed 2 [2, 56]
     let er := mailed 4 [15, 31, 1, 1]
     let wn := mailed 5 [63, 0x040000000000]
     let lk (k i : Nat) := mailed 6 [k, i, 0]
     let bl := mailed 8 [2 ^ 25]
     let pw := mailed 9 [2]
     cmd rd = 2 ∧ arg rd 0 = 2 ∧ arg rd 1 = 56 ∧ 2 < arg (mailed 2 [3]) 0 ∧
      cmd er = 4 ∧ arg er 0 < 16 ∧ arg er 1 < 32 ∧ arg er 2 < 2 ∧ arg er 3 < 2 ∧
      cmd wn = 5 ∧ arg wn 0 < 64 ∧ arg wn 1 % 2 ^ 34 = 0 ∧ 0x040000000000 ≤ arg wn 1 ∧ arg wn 1 < 0x080000000000 ∧
      arg (mailed 5 [0, 0xFC00000000]) 1 < 2 ^ 40 ∧
      (∀ x ∈ [(0, 32), (1, 19), (2, 7), (3, 7)], arg (lk x.1 x.2) 0 = x.1 ∧ arg (lk x.1 x.2) 1 = x.2 ∧ arg (lk x.1 x.2) 2 = 0) ∧
      cmd bl = 8 ∧ 64 ≤ arg bl 0 ∧ arg bl 0 ≤ 2 ^ 25 ∧ cmd pw = 9 ∧ arg pw 0 = 2 ∧ pw.anyTask = false ∧
      ({ pw with cores := [(0, { busy := true })] } : State).anyTask = true ∧
      cmd (mailed 1 []) = 1 ∧ cmd (mailed 3 []) = 3 ∧ cmd (mailed 7 []) = 7 ∧ cmd (mailed 10 []) = 10) := by decide +kernel

/-- An access table entry of the host port, of stack 0 and of the Hamper that permits everything. -/
def hostMat : Tbl Word := (matKey 4 0 0, 0xFFFF000000000000) :: openMat

/-- HostAndModuleEventsComplete: functions that may and may not; a page owned and not; a power state that is due, early
and refused; a draw at the limit; temperatures at each threshold; an image that boot turns down at each step. -/
theorem wit_host_events :
    (let s : State := { mat := hostMat }
     s.hostDenied 63 .r = false ∧ s.hostDenied 63 .w = false ∧ s.refuses (midHost 63) 0x1000 64 .r = none ∧
      s.refuses (midHost 63) 0x1000 64 .w = none ∧ State.reset.hostDenied 63 .r = true ∧
      (∀ x ∈ s.poison, x.2 = false) ∧ 0x800 + (leBytes 2048 7).length = 0x1000) ∧
    (let s : State := { mgmt := { due := [(1023, 5)], owner := [(1023, 3)] } }
     s.mgmt.due.find? (fun x => decide (x.1 = 1023)) = some (1023, 5) ∧ tget 0 s.mgmt.owner 1023 ≠ 0) ∧
    (let s (t : Nat) (c : Tbl Core) : State := { now := t, cores := c, mgmt := { pnext := some (4 * 1050 + 2) } }
     (s 1049 []).ccyc.toNat < (4 * 1050 + 2) / 4 ∧ (4 * 1050 + 2) / 4 ≤ (s 1050 []).ccyc.toNat ∧ (s 1050 []).anyTask = false ∧
      (s 1050 [(0, { busy := true })]).anyTask = true ∧ (4 * 1050 + 1) % 4 ≠ 2) ∧
    (let s (t : Nat) : State := { mgmt := { temp := t } }
     (104 < 105 ∨ 105 ≤ (s 0).mgmt.temp) ∧ 105 ≤ (s 105).mgmt.temp) ∧
    (32 * 0x7FFFFFFFF < 2 ^ 40) ∧
    (bootImage [] 0 = .inl 1 ∧ bootImage (leBytes 64 0) 0 = .inl 2) := by decide +kernel

/-- An image of one word of code, with a key of 1,793 bytes and a signature of one. -/
def goodImage : List Byte :=
  leBytes 4 0x57465057 ++ leBytes 4 7 ++ leBytes 8 5 ++ leBytes 8 4 ++ leBytes 8 1 ++ leBytes 8 1793 ++ leBytes 24 0 ++
    leBytes 4 0x13 ++ List.replicate 1793 0xA5 ++ [0x3C]

/-- The same: where its signature verifies and its key has the fused digest, boot loads that image, and where the fused
security version is higher boot turns it down at step 3. -/
theorem wit_boot
    (sig : Config.falconVerify (Config.shake256 (leBytes 4 0x57465057 ++ leBytes 4 7 ++ leBytes 8 5 ++ leBytes 8 4 ++ leBytes 8 1 ++
      leBytes 8 1793 ++ leBytes 24 0 ++ leBytes 4 0x13) 64) (List.replicate 1793 0xA5) [0x3C] = true)
    (key : Config.shake256 (List.replicate 1793 0xA5) 32 = Config.rootDigest) :
    bootImage goodImage 5 = .inr (leBytes 4 0x13, Config.shake256 (leBytes 4 0x57465057 ++ leBytes 4 7 ++ leBytes 8 5 ++ leBytes 8 4 ++
      leBytes 8 1 ++ leBytes 8 1793 ++ leBytes 24 0 ++ leBytes 4 0x13) 64, 7, 5) ∧ bootImage goodImage 6 = .inl 3 := by
  have len : goodImage.length = 64 + 4 + 1793 + 1 := by decide +kernel
  have t64 : goodImage.take 64 ++ (goodImage.drop 64).take 4 = leBytes 4 0x57465057 ++ leBytes 4 7 ++ leBytes 8 5 ++
      leBytes 8 4 ++ leBytes 8 1 ++ leBytes 8 1793 ++ leBytes 24 0 ++ leBytes 4 0x13 := by decide +kernel
  have code : (goodImage.drop 64).take 4 = leBytes 4 0x13 := by decide +kernel
  have k : (goodImage.drop (64 + 4)).take 1793 = List.replicate 1793 0xA5 := by decide +kernel
  have g : (goodImage.drop (64 + 4 + 1793)).take 1 = [0x3C] := by decide +kernel
  have n (lo k v : Nat) (h : leNat ((goodImage.drop lo).take k) = v) : leNat ((goodImage.drop lo).take k) = v := h
  have n0 := n 0 4 0x57465057 (by decide +kernel)
  have n4 := n 4 4 7 (by decide +kernel)
  have n8 := n 8 8 5 (by decide +kernel)
  have n16 := n 16 8 4 (by decide +kernel)
  have n24 := n 24 8 1 (by decide +kernel)
  have n32 := n 32 8 1793 (by decide +kernel)
  have n40 := n 40 24 0 (by decide +kernel)
  constructor <;> (unfold bootImage; simp only [n0, n4, n8, n16, n24, n32, n40]; rw [t64, k, g, sig, key, code, len]; simp)
/-! ## Witnesses: contexts, containment and halts -/

/-- Core 0 under a supervisor task of job slot 1 (jobid 7, running), which names core 1 of its cluster and the image
place 0x100000; core 1 as given. -/
def supCore (k : Core) (rs : Nat) : State :=
  ({ mat := openMat, mem := memWrite [] (hamperBase + 64) (leBytes 64 (7 + (1 + 2 * rs) * 2 ^ 112)) } : State)
    |>.setCore 0 { busy := true, fg := { with2 1 0x100000 with ident := { job := 1, desc := { sup := true } } } }
    |>.setCore 1 k

/-- A saved context of job slot 1. -/
def held1 : Ctx := { ident := { job := 1, taskid := 1 }, ihome := 0x100000, pc := 0x40000000 }

/-- A state whose place 0x100000 holds an image of a task of job slot 1 whose every register is 0, and core 1 loading
it. -/
def imaged : State :=
  (supCore { shSt := .loading, shImg := 0x100000 } 0).putBytes 0x100000 (held1.header 7 1 (granOff + 128))

/-- ContextsComplete, the supervisor's instructions: banks busy, idle, of a running and of a stopped job, with traffic and
without; a target that is itself, withdrawn, and held; an image that is there and one that is not. -/
theorem wit_ctx_instructions :
    (let busy : Core := { busy := true, fg := { ident := { job := 1, taskid := 0x100000 } } }
     let s := supCore busy 2
     s.cur = .core 0 ∧ (s.fg 0).ident.desc.sup = true ∧ (s.core 0).stepping = none ∧ coreNum 0 ((s.xr 11).toNat % 256) = 1 ∧
      (s.core 1).shSt = .empty ∧ (s.core 1).retired = false ∧ (s.core 1).busy = true ∧ s.rs 1 = 2 ∧ s.trafficAt 1 = false ∧
      (s.xr 12).toNat % 64 = 0 ∧ (s.xr 12).toNat / 2 ^ 45 = s.pkgid ∧ memKind ((s.xr 12).toNat % 2 ^ 45) = .hbm ∧
      (s.core 1).exch = none ∧ s.imgPlace (s.xr 12) = true ∧ s.imgPlace 0x100001 = false ∧ (supCore busy 0).rs 1 = 0 ∧
      (supCore { busy with sq := [{ addr := 0, data := [] }] } 2).trafficAt 1 = true ∧ ((supCore {} 0).core 1).busy = false ∧
      (s.core 1).fg.ident.taskid.toNat = (s.xr 12).toNat % 2 ^ 32 ∧ (s.core 1).fg.ident.job = (s.fg 0).ident.job ∧
      ((supCore { retired := true } 0).core 1).retired = true) ∧
    (match (supCore {} 0).readImage 1 0x100000 with | .invalid => true | _ => false) = true ∧
    (let s := supCore { shSt := .held, sh := some held1 } 0
     (s.core 1).shSt = .held ∧ (s.core 1).exch = none ∧ (s.core 1).sh = some held1 ∧ held1.imgBad = false ∧
      ({ held1 with imgBad := true } : Ctx).imgBad = true ∧
      s.agentTime.toNat ≤ (deadlineAt s.agentTime (s.xr 0)).toNat ∧
      s.refuses (midDarner 1) (imgAt held1.ihome 0) 64 .w = none) := by decide +kernel

theorem numAt_zeros (n off k : Nat) : numAt (List.replicate n 0#8) off k = 0 := by
  have h (m : Nat) : leNat (List.replicate m 0#8) = 0 := by
    induction m with
    | zero => rfl
    | succ m ih => simp [List.replicate_succ, leNat, ih]
  simp [numAt, h]

/-- ContextsComplete, loading: the image reads as good. -/
theorem wit_ctx_image : ∃ c, imaged.readImage 1 0x100000 = .ok c := by
  have h0 : imaged.answer (midDarner 1) (imgAt 0x100000 0) 64 = .data (held1.header 7 1 (granOff + 128)) := by decide +kernel
  have h1 : imaged.answer (midDarner 1) (imgAt 0x100000 granOff) 128 = .data (List.replicate 128 0#8) := by decide +kernel
  have h2 : readSection 388 (List.replicate 128 0#8) = some (List.replicate 388 zeroLine, 128) := by decide +kernel
  have h3 : (List.replicate 388 zeroLine).flatten = List.replicate 24832 0#8 := by
    rw [zeroLine, List.flatten_replicate_replicate]; rfl
  have r : regRsvOk (List.replicate 24832 0#8) = true := by
    simp only [regRsvOk, numAt_zeros]; decide
  have g (o : Ctx) : (ctxOf o (List.replicate 24832 0#8)).gsz = 0 := by
    show wOf (numAt _ _ 8) = 0
    rw [numAt_zeros]; rfl
  have n (off k v : Nat) (h : numAt (held1.header 7 1 (granOff + 128)) off k = v) :
      numAt (held1.header 7 1 (granOff + 128)) off k = v := h
  unfold State.readImage
  simp only [h0, n 12 4 (granOff + 128) (by decide +kernel), n 32 1 0 (by decide +kernel), n 44 4 granOff (by decide +kernel),
    n 0 4 1 (by decide +kernel), n 33 3 0 (by decide +kernel), n 48 16 0 (by decide +kernel), n 36 4 0x40 (by decide +kernel),
    n 40 4 granOff (by decide +kernel), Nat.add_sub_cancel_left, h1, h2, h3, r, g]
  have z : (List.range 8).filter (fun i => Nat.testBit 0 i) = [] := by decide
  simp only [z, List.find?_nil, List.findSome?_nil]
  rw [if_neg (by decide), if_neg (by decide)]
  exact ⟨_, rfl⟩

/-- ContextsComplete, loading: an image whose bytes are poisoned, and an instruction that waits. -/
theorem wit_ctx_load :
    (let s := imaged
     (s.core 1).shSt = .loading ∧ (s.core 1).shImg = 0x100000 ∧ s.imgPlace (s.xr 12) = true) ∧
    (let s : State := { imaged with poison := poisonGranule [] 0x100000 }
     (match s.readImage 1 0x100000 with | .poison _ => true | _ => false) = true) ∧
    (let w : Wait := { instr := .ctxload fd, pc := 4, d := 9, a := 1 }
     (match ({ w with ans := some (.data [1]) } : Wait).ans with | some (.data _) => true | _ => false) = true ∧ w.ans = none ∧
      ((imaged.modFg 0 (fun c => { c with wait := some w })).ctxWaiter 1) = some 0) := by decide +kernel

/-- ContextsComplete, the events: an exchange early and due, with and without a context; a save refused and allowed; a
stop instant early, due, and of a stopped job; a gang slice armed, running, and late. -/
theorem wit_ctx_events :
    (let s (t : Nat) (k : Core) : State := { supCore { k with exch := some 100 } 0 with now := t }
     ((s 147 {}).core 1).exch = some 100 ∧ (s 147 {}).now < 100 + 48 ∧ 100 + 48 ≤ (s 148 {}).now ∧ ((s 148 {}).core 1).sh = none ∧
      ((s 148 {}).core 1).busy = false ∧
      (let k := (s 148 { busy := true, fg := { held1 with stop := some .preempt } }).core 1
       k.busy = true ∧ k.fg.dirty = 0 ∧ k.fg.jmask = 0 ∧ some k.fg.ident.job ≠ k.sjob ∧ (State.reset.job 1).gang = none)) ∧
    (let s := supCore { shSt := .saving, sh := some held1 } 0
     (s.core 1).shSt = .saving ∧ (s.core 1).sh = some held1 ∧ s.refuses (midDarner 1) (imgAt held1.ihome 0) 64 .w = none ∧
      ({ s with mat := [] } : State).refuses (midDarner 1) (imgAt held1.ihome 0) 64 .w = some 0x09) ∧
    (let s (t rs : Nat) (j : Job) : State := { supCore {} rs with now := t, jobs := [(1, j)] }
     (s 9 0 { ts := some 10 }).ccyc.toNat < (10 : Word).toNat ∧ (10 : Word).toNat ≤ (s 10 0 { ts := some 10 }).ccyc.toNat ∧
      (s 10 2 { ts := some 10 }).rs 1 = 2 ∧ (s 10 0 { ts := some 10 }).rs 1 = 0 ∧ ((s 10 0 { ts := some 10 }).job 1).ts = some 10 ∧
      ((s 10 0 {}).job 1).ts = none ∧
      (∀ x ∈ (s 10 2 { gang := some (10, 5) }).hamper.trg, x.2.st ≠ .held) ∧
      (s 15 0 { gang := some (10, 5), late := [2] }).isFirst 1 = true ∧
      (s 15 0 { gang := some (10, 5), late := [2], pkgs := [(0, 0)] }).ccyc.toNat ≥ (10 : Word).toNat + (5 : Word).toNat) := by
  decide +kernel

/-- ContainmentCompletes: a core frozen by a fault, with a policy that retries, kills, and absorbs nothing; an idle core
that a spare replaces, and one for which no spare is left. -/
theorem wit_containment_decision :
    (let s (p : BitVec 14) (j : Job) : State :=
       { supCore {} 0 with jobs := [(1, j)] } |>.setCore 0 { busy := true, fg := { stop := some .containment, ident := { job := 1, desc := { policy := p } } } }
     ((s 1 {}).core 0).busy = true ∧ ((s 1 {}).fg 0).stop = some .containment ∧ ((s 1 {}).core 0).asked = false ∧
      ((s 1 {}).core 0).exch = none ∧ ((s 1 {}).fg 0).ident.desc.policy.toNat / 4 ^ 0 % 4 = 1 ∧ (s 1 {}).rs 1 = 0 ∧
      tget 0 (s 1 {}).sch.retries (retryKey ((s 1 {}).fg 0).ident 0 0 0) < 2 ∧
      ((s 2 {}).fg 0).ident.desc.policy.toNat / 4 ^ 0 % 4 = 2 ∧
      (∀ lv, lv < 7 → ((s 0 {}).fg 0).ident.desc.policy.toNat / 4 ^ lv % 4 = 0) ∧ (s 0 {}).isFirst 1 = true ∧
      ((s 0 {}).job 1).ph = .run ∧ ({ s 0 { pkgs := [(0, 0)] } with pkgid := 1 } : State).isFirst 1 = false) ∧
    (let s (k : Nat) : State := { spares := [(0, k)] }
     ((s 3).core 255).busy = false ∧ ((s 3).core 255).shSt = .empty ∧ ((s 3).core 255).exch = none ∧ ((s 3).core 255).retired = false ∧
      tget 0 (s 3).spares (255 / 256) < 4 ∧ 4 ≤ tget 0 (s 4).spares (255 / 256)) := by decide +kernel

/-- HaltsComplete: a job that runs, freezes, is frozen, settled and armed; a supervisor that asks for a job that has a
core and one that has none; a frozen core that can be stepped, is stepped, and has stepped; instants too early and not. -/
theorem wit_halts :
    let s (h : Nat) (j : Job) (k : Core) : State :=
      ({ mat := openMat, jobs := [(1, j)], cur := if h < 512 then .thread h else .core 0
         mem := memWrite [] (hamperBase + 64) (leBytes 64 (7 + 2 ^ 112)) } : State)
      |>.setThread 3 { x := [(11, 1), (12, 0)], hjob := 1 }
      |>.setCore 0 { busy := true, fg := { with2 7 0 with ident := { desc := { sup := true } } } }
      |>.setCore 1 k
    let fz : Core := { busy := true, fg := { ident := { job := 1 }, stop := some .haltWave } }
    let done : Job := { ph := .frozen, settled := true, origins := [(1, 2), (3, 4)], jz := 5 }
    ((s 512 {} {}).jobValid 1 = true ∧ ((s 512 {} {}).job 1).ph = .run ∧ ((s 512 done {}).job 1).ph ≠ .run ∧
      ((s 512 done {}).job 1).origins.contains (3, 4) = true ∧ ((s 512 done {}).job 1).origins.contains (0, 4) = false ∧
      (s 512 {} {}).jobValid 2 = false ∧ (s 512 {} {}).cur = .core 0 ∧ ((s 512 {} {}).fg 0).ident.desc.sup = true ∧
      ((s 512 {} {}).xr 11).toNat % 2 ^ 32 = 7 ∧ (s 512 {} {}).slotOf 7 = some 1 ∧
      (∃ c ∈ (s 512 {} fz).cores, c.2.busy = true ∧ c.2.fg.ident.job = 1) ∧
      ¬(∃ c ∈ (s 512 {} {}).cores, c.2.busy = true ∧ c.2.fg.ident.job = 1)) ∧
    ((s 3 {} {}).cur = .thread 3 ∧ (s 3 {} {}).jobValid ((s 3 {} {}).hjob 3) = true ∧
      coreNum (wfld ((s 3 {} {}).xr 11) 11 8) (wfld ((s 3 {} {}).xr 11) 7 0) = 1 ∧ fz.fg.ident.job = (s 3 {} {}).hjob 3 ∧
      fz.fg.regs.pois = [] ∧ fz.stepping = none ∧ ({ fz with stepping := some (0, .haltWave) } : Core).stepping.isSome = true ∧
      ((s 3 done fz).job 1).origins = (1, 2) :: [(3, 4)] ∧ ((s 3 { done with ph := .armed } fz).job 1).ph = .armed ∧
      ((s 3 done fz).xr 11).toNat < (s 3 done fz).ccyc.toNat + 4096 ∧ (s 3 done fz).jobFar 1 = [] ∧
      ¬((0x10000 : Word).toNat < (s 3 done fz).ccyc.toNat + 4096) ∧ (s 3 done fz).isFirst 1 = true ∧
      ((s 3 { done with pkgs := [(0, 0)] } fz).isFirst 1 = true) ∧
      ({ s 3 { done with pkgs := [(0, 0)] } fz with pkgid := 1 } : State).isFirst 1 = false ∧
      (∀ c ∈ (s 3 done fz).cores, c.2.stepping.isSome = false) ∧
      (∃ c ∈ (s 3 done { fz with stepping := some (0, .haltWave) }).cores, c.2.stepping.isSome = true ∧ c.2.fg.ident.job = 1)) ∧
    (({ fz with stepping := some (0, .haltWave), stepRes := some (255, BitVec.ofNat 8 255) } : Core).stepRes = some (255, BitVec.ofNat 8 255)) ∧
    (let t := s 512 { ph := .freezing, stopped := 5 } fz
     (∀ c ∈ t.cores, c.2.busy = true → c.2.fg.ident.job = 1 → c.2.fg.stop ≠ none) ∧ t.fab.tx = [] ∧ t.fab.out = [] ∧
      (∀ x ∈ (t.job 1).reports, x.1 ≠ 0) ∧ t.isFirst 1 = true) ∧
    (let t := s 512 { ph := .frozen, reports := [(0, 5)] } fz
     (∀ p ∈ ((t.job 1).pkgs ++ [(t.podid.toNat, t.pkgid)]).map pkgKey, ∃ x ∈ (t.job 1).reports, x.1 = p) ∧ (t.job 1).settled = false) ∧
    (let t : State := { s 512 { ph := .armed, tr := 10, jz := 5 } fz with now := 10 }
     (t.job 1).ph = .armed ∧ (t.job 1).tr.toNat ≤ t.ccyc.toNat ∧ (∀ x ∈ t.hamper.trg, x.2.st ≠ .held)) := by decide +kernel

/-- DecodingInvertsEncoding: a well-formed instruction of each length and kind that its clauses name. -/
theorem wit_coding :
    (Instr.ctxswap fq).wf = true ∧ encode (.ctxswap fq) ≠ [] ∧ (Instr.cEbreak).wf = true ∧ encode .cEbreak ≠ [] ∧
      (Instr.copy (pk fc)).wf = true ∧ encode (.copy (pk fc)) ≠ [] ∧
      (Instr.jcfgWindowTemplate fq).wf = true ∧ encode (.jcfgWindowTemplate fq) ≠ [] ∧
      (Instr.jcfgWindowContext fq).wf = true ∧ encode (.jcfgWindowContext fq) ≠ [] ∧
      (Instr.hamperScalarAccess true 3 1 2 0x7FF .w32).wf = true ∧ encode (.hamperScalarAccess true 3 1 2 0x7FF .w32) ≠ [] := by
  decide +kernel
/-! ## The spec's worked examples

Each expected value stands in the rule that the test's comment names. -/

/-- R57: the first step of the generator from reset, and the sum 1 + 0.75 × 2⁻²³ rounded with its draw. -/
theorem test_srand :
    srand {} = (0, { seed := 0x40822041 }) ∧
      (enc (fmtOf 0) (.fin false (4 * 2 ^ 23 + 3) (-25) false) 4 false {}).1 = 0x3F800001 ∧
      (enc (fmtOf 0) (.fin false (4 * 2 ^ 23 + 3) (-25) false) 4 false {}).2.fl = flNx := by decide +kernel

/-- R55: 127.5 to `.i8` under mode 4, −0.75 and −0.25 to `.n8`. -/
theorem test_int_limits :
    ((encInt 8 true (.fin false 255 (-1) false) 4 {}).1 = 127 ∧ (encInt 8 true (.fin false 255 (-1) false) 4 {}).2.fl = flNv) ∧
    ((encInt 8 false (.fin true 3 (-2) false) 0 {}).1 = 0 ∧ (encInt 8 false (.fin true 3 (-2) false) 0 {}).2.fl = flNv) ∧
    ((encInt 8 false (.fin true 1 (-2) false) 0 {}).1 = 0 ∧ (encInt 8 false (.fin true 1 (-2) false) 0 {}).2.fl = flNx) := by
  decide +kernel

/-- R60: −3.25 to E2M1 under modes 0 and 3; a quiet NaN to E2M1, with `nanz` and without, and to E4M3. -/
theorem test_conversions :
    let x := dec (fmtOf 0) 0xC0500000
    let n := dec (fmtOf 0) 0xFFC00000
    enc (fmtOf 7) x 0 false {} = (0xD, { fl := flNx }) ∧ enc (fmtOf 7) x 3 false {} = (0xE, { fl := flNx }) ∧
      enc (fmtOf 7) n 0 false {} = (0xF, { fl := flNv }) ∧ enc (fmtOf 7) n 0 true {} = (0x0, { fl := flNv }) ∧
      enc (fmtOf 3) n 0 false {} = (0xFF, {}) := by decide +kernel

/-- R68: the scale of E4M3 for 100, and its element. -/
theorem test_mxscale :
    let sc := mxscale 3 [] (.fin false 100 0 false)
    sc = 0x3E6493 ∧ mxCode 3 [] (fdiv (.fin false 100 0 false) (s24dec sc) {}).1 0 false {} = (0x7E, { fl := flNx }) := by
  decide +kernel

/-- One block's products and scale added to an accumulator, by the operations that an `MMA` applies to a block. -/
def oneBlock (ps : List Val) (sc acc : Val) : Nat := rneBits (rneVal (add' acc (rneVal (mul' (bsum ps) sc))))

/-- R72, the first example: one block of E5M2 products under two pairs of scales. -/
theorem test_block_sum :
    let a := [0x6C, 0x3C, 0xEC, 0x0C, 0x02] ++ List.replicate 27 0
    let b := [0x6C, 0x3C, 0x6C, 0x0C, 0x02] ++ List.replicate 27 0
    let ps := (a.zip b).map (fun x => mul' (dec (fmtOf 4) x.1) (dec (fmtOf 4) x.2))
    let acc (sa sb : Nat) : Nat :=
      oneBlock ps (mul' (s24dec sa) (s24dec sb)) (.fin false 0 0 false)
    acc 0x3F8000 0x3F8000 = 0x3F800000 ∧ acc 0x3E0000 0x3FC000 = 0x3E400001 := by decide +kernel

/-- R72, the second example: zeros under the largest scales, and a single product of 1. -/
theorem test_large_scales :
    let acc (p : Val) (old : Nat) : Nat :=
      oneBlock (p :: List.replicate 31 (.fin false 0 0 false)) (mul' (s24dec 0x7F7FFF) (s24dec 0x7F7FFF)) (dec f32 old)
    acc (.fin false 0 0 false) 0x3F800000 = 0x3F800000 ∧ acc (.fin false 0 0 false) 0x80000000 = 0 ∧
      acc (.fin false 1 0 false) 0x3F800000 = 0x7F800000 ∧ acc (.fin false 1 0 false) 0xFF800000 = 0x7FC00000 := by decide +kernel

/-- R73: entry 0x7A holds −30.0. -/
theorem test_product_table : rneBits (mul' (dec (fmtOf 7) 7) (cbVal 0xC0A0)) = 0xC1F00000 := by decide +kernel

/-- R123: the fused example, and the product rounded first. -/
theorem test_vfma :
    let o : VIn := { a := 0x3F81, b := 0x3F81, c := 0xBF82, act := 3 }
    effVfma { fv with ty := 1 } o = { dst := .vec 0x3880, fp := {} } ∧
      effVmul { fv with ty := 1 } o = { dst := .vec 0x3F82, fp := { fl := flNx } } := by decide +kernel

/-- R127: element 3 compares 1.0 with a NaN. -/
theorem test_vcmp :
    let o : VIn := { a := 0x3F800000 <<< 96, b := 0x7FC00000 <<< 96, pd := BitVec.allOnes 128, act := 0xF000 }
    effVcmp { fv with ty := 0, c := 2, d := 2 } o =
      { dst := .pred (BitVec.allOnes 128 &&& ~~~0xF000#128), fp := { fl := flNv } } := by decide +kernel

/-- R128: 2²⁴ + 1 + 1 − 2²⁴ summed once. -/
theorem test_vredsum :
    let o : VIn := { a := BitVec.ofNat 1024 (0x4B800000 + 0x3F800000 * 2 ^ 32 + 0x3F800000 * 2 ^ 64 + 0xCB800000 * 2 ^ 96) }
    effVredsum { fv with ty := 0 } o = { dst := .vec 0x40000000, fp := {} } := by decide +kernel

/-- R140: `VLROT.n32` by −1 and by 1 over elements 0 to 31. -/
theorem test_vlrot :
    let a : VReg := BitVec.ofNat 1024 (leNat ((List.range 32).map (fun i => leBytes 4 (i + 100))).flatten)
    let at' (o : VOut) (i : Nat) : Nat := match o.dst with | .vec v => el v 32 i | _ => 0
    let up := effVlrot { fvi with imm := 0x7FF } { a := a }
    let dn := effVlrot { fvi with imm := 1 } { a := a }
    at' up 0 = 131 ∧ at' up 1 = 100 ∧ at' dn 0 = 101 ∧ at' dn 31 = 100 := by decide +kernel

/-- R152: part 3 of `VCVT.e2m1.f32` writes codes 96 to 127 and leaves the rest. -/
theorem test_vcvt :
    let o : VIn := { a := 0xC0500000, d := BitVec.allOnes 1024 }
    let at' (o : VOut) (i : Nat) : Nat := match o.dst with | .vec v => el v 4 i | _ => 99
    let r := effVcvt { fv with ty := 7, b := 3, c := 0 } o
    at' r 96 = 0xD ∧ at' r 97 = 0 ∧ at' r 95 = 0xF := by decide +kernel

/-- R157: the block of R68's example. -/
theorem test_vqmx :
    let o : VIn := { a := BitVec.ofNat 1024 (0x42C80000 + 0xBF333333 * 2 ^ 32), d := BitVec.allOnes 1024, xc := 0 }
    (match (effVqmx { fv with ty := 3 } o).dst with
      | .vecScal v x => decide (x = 0x3E6493 ∧ el v 8 0 = 0x7E ∧ el v 8 1 = 0xC5 ∧ el v 8 2 = 0 ∧ el v 8 31 = 0 ∧ el v 8 32 = 0xFF)
      | _ => false) = true := by decide +kernel

/-- R230: a box at (96, 64) of a tensor of 100 × 70, whose row pitch is 256 bytes. -/
theorem test_box :
    let e := 1 * 2 ^ 80 + 100 * 2 ^ 128 + 70 * 2 ^ 160 + 2 ^ 192 + 2 ^ 224 + 2 ^ 256 + 256 * 2 ^ 288 + 2 * 2 ^ 76 + 2 ^ 79
    coords e [96, 64, 0, 0, 0] [0, 0, 0, 0, 0] = some [96, 64, 0, 0, 0] ∧ hBit e [96, 64, 0, 0, 0] = 8 * 0x40C0 ∧
      coords e [96, 64, 0, 0, 0] [4, 0, 0, 0, 0] = none ∧ coords e [96, 64, 0, 0, 0] [3, 5, 0, 0, 0] = some [99, 69, 0, 0, 0] ∧
      coords e [96, 64, 0, 0, 0] [0, 6, 0, 0, 0] = none := by decide +kernel

/-- R368: 1,000 tasks over eight dies, and die 3's and die 6's share over their clusters. -/
theorem test_shares :
    (shares 1000 8)[3]? = some (375, 125) ∧ (shares 1000 8)[6]? = some (750, 125) ∧ shares 125 2 = [(0, 63), (63, 62)] := by
  decide

/-- R427: the points of packages 100, 168 and 200, which are joined as the example says. -/
theorem test_pod :
    pointOf 100 = (1, 2, 3) ∧ pointOf 200 = (1, 5, 7) ∧ pointOf 168 = (1, 4, 7) ∧ joined 100 200 = false ∧
      joined 100 168 = true ∧ joined 168 200 = true := by decide +kernel
/-! ## One step from reset

Each word is the RISC-V base encoding of the instruction named, and its result is the base's. -/

def after (w : Nat) (s : State) : Option State :=
  match step (s.withFetchWord 32 w) with
  | .next t => some t
  | _ => none

/-- `addi x1, x0, -1`: the immediate is sign-extended, and the PC moves past the word. -/
theorem test_step_addi :
    (after 0xFFF00093 State.reset).map (fun t => (t.xr 1, t.pc - (State.reset.withFetchWord 32 0xFFF00093).pc)) =
      some (0xFFFFFFFFFFFFFFFF, 4) := by decide +kernel

/-- `lui x1, 0x80000`: the 32-bit result is sign-extended. -/
theorem test_step_lui :
    (after 0x800000B7 State.reset).map (fun t => t.xr 1) = some 0xFFFFFFFF80000000 := by decide +kernel

/-- `addi x0, x0, 5`: x0 stays 0. -/
theorem test_step_x0 : (after 0x00500013 State.reset).map (fun t => t.xr 0) = some 0 := by decide +kernel

/-- `sb x0, 1(x0)` over a byte 7 beside a 9: one byte changes. -/
theorem test_step_sb :
    (after 0x000000A3 { State.reset with mem := memWrite [] (spadKey 0 1) [7, 9] }).map
      (fun t => memRead t.mem (spadKey 0 0) 3) = some [0, 0, 9] := by decide +kernel

/-- `ebreak` without a handler freezes the core with cause 0x0C (R380, R383). -/
theorem test_step_ebreak :
    (after 0x00100073 State.reset).map (fun t => (wfld (t.fg 0).rcd.cw 7 0, (t.fg 0).stop.isSome)) = some (0x0C, true) := by
  decide +kernel

end Sys2Proof.Tests
end

section
/-! SUPPORT. A step and what it runs: every turn has a next state, and a turn runs the decoded instruction. -/

namespace Sys2Proof.Machine

/-! ## Every turn has a next state -/

/-- Every instruction and every event has a next state. -/
theorem exec_next (i : Instr) (s : State) : ∃ t, exec i s = .next t := by
  cases i <;> exact ⟨_, rfl⟩

theorem issue_next (s : State) (n : Nat) (bs : List Byte) : ∃ t, s.issue n bs = .next t := by
  unfold State.issue
  split
  · exact ⟨_, rfl⟩
  split
  · exact exec_next _ _
  split
  · exact ⟨_, rfl⟩
  split
  · exact ⟨_, rfl⟩
  · exact exec_next _ _

theorem seqTurn_next (s : State) (n : Nat) : ∃ t, s.seqTurn n = .next t := by
  unfold State.seqTurn
  simp only
  split
  · exact ⟨_, rfl⟩
  split
  · exact exec_next _ _
  split
  · exact ⟨_, rfl⟩
  split
  · split <;> exact ⟨_, rfl⟩
  split
  · exact exec_next _ _
  split
  · exact ⟨_, rfl⟩
  split
  · exact ⟨_, rfl⟩
  split
  · exact exec_next _ _
  · exact issue_next _ _ _

theorem threadTurn_next (s : State) (h : Nat) : ∃ t, s.threadTurn h = .next t := by
  unfold State.threadTurn
  simp only
  split
  · exact ⟨_, rfl⟩
  split
  · exact ⟨_, rfl⟩
  split
  · exact ⟨_, rfl⟩
  split
  · exact ⟨_, rfl⟩
  · exact exec_next _ _

theorem agentTurn_next (s : State) : ∃ t, s.agentTurn = .next t := by
  unfold State.agentTurn
  split
  · simp only
    split
    · exact ⟨_, rfl⟩
    split
    · exact ⟨_, rfl⟩
    split
    · next n _ _ _ _ _ =>
      obtain ⟨u, hu⟩ := seqTurn_next (s.turnFirst n) n
      rw [hu]
      exact ⟨_, rfl⟩
    · exact seqTurn_next _ _
  · split
    · exact ⟨_, rfl⟩
    · exact threadTurn_next _ _

theorem turn_next (s : State) : ∃ t, s.turn = .next t := by
  unfold State.turn
  split
  · exact agentTurn_next _
  · exact agentTurn_next _
  · split
    · exact exec_next _ _
    · exact ⟨_, rfl⟩
  · exact ⟨_, rfl⟩

/-- Settles O4: every turn has a next state, so a step stops only where the power is removed. -/
theorem onlyLossOfPowerStops : Obligations.OnlyLossOfPowerStops := by
  unfold Obligations.OnlyLossOfPowerStops
  constructor
  · intro s hs
    obtain ⟨t, ht⟩ := turn_next s
    exact ⟨t.settleTurn, by simp [step, hs, ht, afterTurn]⟩
  · intro s hs
    simp [step, hs]

/-! ## A step of a core that moves -/

/-- The bytes of an instruction that the sequencer issues: its turn executes it. -/
theorem seqTurn_of_issues {s : State} {n : Nat} {i : Instr} (h : s.issues n i) : s.seqTurn n = exec i (s.begins n) := by
  obtain ⟨hstop, hpulse, htrap, hdrain, hbf, hhold, hread, hwait, hexit, ⟨bs, len, hf, hd⟩, hbar, hst, hpo⟩ := h
  simp [State.seqTurn, hstop, hpulse, htrap, hdrain, hbf, hhold, hread, hwait, hexit, hf, State.issue, hd, hbar, hst,
      hpo]

/-- The step of a core that moves is its turn's, in one of the two orders of R289. -/
theorem step_moves {s : State} {n : Nat} (h : s.moves n) : step s = afterTurn s.agentTurn := by
  obtain ⟨hoff, -, -, hs, -⟩ := h
  simp [step, hoff, State.turn, hs]

/-- The sequencer comes first: the rest of its engines' cycle follows. -/
theorem step_seqFirst {s u : State} {n : Nat} (h : s.moves n) (hf : (s.turnFirst n).seqFirst n = true)
    (hu : (s.turnFirst n).seqTurn n = .next u) : step s = .next (u.turnRest n s.now).settleTurn := by
  rw [step_moves h]
  obtain ⟨-, hup, hp, -, hc, hb, hstop, hst⟩ := h
  have hstop' : (s.core n).fg.stop = none := hstop
  simp [State.agentTurn, hc, hup, hp, hb, hstop', hst, hf, hu, afterTurn]

/-- The engines' cycle comes first. -/
theorem step_seqLast {s : State} {n : Nat} (h : s.moves n) (hf : (s.turnFirst n).seqFirst n = false) :
    step s = afterTurn (((s.turnFirst n).turnRest n s.now).seqTurn n) := by
  rw [step_moves h]
  obtain ⟨-, hup, hp, -, hc, hb, hstop, hst⟩ := h
  have hstop' : (s.core n).fg.stop = none := hstop
  simp [State.agentTurn, hc, hup, hp, hb, hstop', hst, hf]

/-! ## Engines that hold nothing -/

theorem landAll_empty {s : State} {n : Nat} (h : s.enginesEmpty n) : s.landAll n = s := by
  obtain ⟨-, hin, hvr, hvx, hmt⟩ := h
  simp [State.landAll, hin, hvr, hvx, hmt]

theorem landCopies_empty {s : State} {n : Nat} (h : s.enginesEmpty n) : s.landCopies n = s := by
  obtain ⟨ha, -⟩ := h
  have h0 := ha .ce0
  have h1 := ha .ce1
  simp only [Engine.alive, Ctx.eng, Bool.or_eq_false_iff, Bool.not_eq_false'] at h0 h1
  simp [State.landCopies, h0, h1]

theorem signalsOf_empty {s : State} {n : Nat} (h : s.enginesEmpty n) : s.signalsOf n = s := by
  obtain ⟨-, -, -, -, hmt⟩ := id h
  simp [State.signalsOf, landAll_empty h, landCopies_empty h, hmt]

theorem headOf_empty {s : State} {n : Nat} (h : s.enginesEmpty n) (e : Eng) : s.headOf n e = s := by
  simp [State.headOf, h.1 e]

theorem headsOf_empty {s : State} {n : Nat} (h : s.enginesEmpty n) : s.headsOf n = s := by
  simp [State.headsOf, State.unitHeads, headOf_empty h]

theorem turnRest_empty {s : State} {n : Nat} (hl : s.lockstep = true) (h : s.enginesEmpty n) (t : Nat) :
    s.turnRest n t = s := by
  have ht : State.enginesEmpty { s with now := t } n := h
  rw [State.turnRest, if_pos hl, State.inCycle, headsOf_empty ht]

/-! ## A step of a Hamper thread -/

/-- The turn of a thread that waits for nothing and whose instruction lies in Hamper memory, without poison. -/
theorem threadTurn_decoded {s : State} {h : Nat} {i : Instr} {k : Nat} (hw : (s.thread h).wait = none)
    (hr : (s.thread h).pc.toNat + min 8 (lenOf (leTake (s.codeBytes (s.thread h).pc.toNat 8) 2)) ≤ 2 ^ 26)
    (hp : firstPoison s.poison (hamperBase + (s.thread h).pc.toNat)
      (min 8 (lenOf (leTake (s.codeBytes (s.thread h).pc.toNat 8) 2))) = none)
    (hd : decodeThread ((s.codeBytes (s.thread h).pc.toNat 8).take
      (min 8 (lenOf (leTake (s.codeBytes (s.thread h).pc.toNat 8) 2)))) = some (i, k)) :
    s.threadTurn h = exec i s := by
  simp only [State.threadTurn, hw, hp, hd, Option.isSome_none]
  rw [if_neg (by simp), if_neg (by omega), if_neg (by simp)]

/-- Settles O2: a core's turn by whether its sequencer comes first, engines that hold nothing, a thread's turn, an
event's. -/
theorem stepRunsTheDecodedInstruction : Obligations.StepRunsTheDecodedInstruction := by
  unfold Obligations.StepRunsTheDecodedInstruction
  refine ⟨?_, ?_, ?_, ?_, ?_⟩
  · intro s u n i hm
    constructor
    · intro hf hi he
      exact step_seqFirst hm hf ((seqTurn_of_issues hi).trans he)
    · intro hf hi he
      rw [step_seqLast hm hf, seqTurn_of_issues hi, he, afterTurn]
  · intro s n t hl h
    exact ⟨by rw [State.turnFirst, if_pos hl, signalsOf_empty h], turnRest_empty hl h t⟩
  · intro s n hp
    simp [State.begins, hp]
  · intro s h i k hoff hup hs hc hh hw bs len hr hpo hd
    simp [step, hoff, State.turn, hs, State.agentTurn, hc, hup, Nat.not_le.2 hh, threadTurn_decoded hw hr hpo hd]
  · intro s i r hoff hs hi ho
    simp [step, hoff, State.turn, hs, hi, ho]

/-! ## Single words -/

/-- Settles O6: the meaning of each operation is its own equation. -/
theorem integerInstructionsComplete : Obligations.IntegerInstructionsComplete := by
  unfold Obligations.IntegerInstructionsComplete
  intros
  exact ⟨fun _ => rfl, fun _ => rfl, fun _ _ => rfl, fun _ _ => rfl, fun _ => rfl, fun _ => rfl, fun _ => rfl⟩

/-- Settles O3: an issue of such bytes is the trap. -/
theorem illegalWordTraps : Obligations.IllegalWordTraps := by
  unfold Obligations.IllegalWordTraps
  intro s n bs h
  simp [State.issue, h]

/-- Settles O58: the decoder evaluated at each word. -/
theorem wordsDecodeAsTheMapsSay : Obligations.WordsDecodeAsTheMapsSay := by
  unfold Obligations.WordsDecodeAsTheMapsSay
  decide +kernel

end Sys2Proof.Machine
end

section
/-! SUPPORT. The scalar instructions: jumps, frames, loads and stores of the space of a core itself. -/

namespace Sys2Proof.Machine

/-! ## Jumps -/

theorem jump_even {s : State} {rd : BitVec 5} {len : Nat} {t : Word} (h : t.getLsbD 0 = false) :
    s.jump rd len t = ((s.setXr rd (s.pc + wOf len)).setPc t).tick 1 := by
  rw [State.jump, if_neg (ne_true_of_eq_false h)]

theorem jump_odd {s : State} {rd : BitVec 5} {len : Nat} {t : Word} (h : t.getLsbD 0 = true) :
    s.jump rd len t = s.trapHere 0x0F t := by
  rw [State.jump, if_pos h]

/-- The target of `JALR` is even: its lowest bit is cleared (R14). -/
theorem jalr_target_even (x : Word) : (x &&& 0xFFFFFFFFFFFFFFFE).getLsbD 0 = false := by
  simp only [BitVec.getLsbD_and]
  exact Bool.and_false _

theorem exec_branch (k : RvBranch) (a b : BitVec 5) (off : BitVec 13) (e : RvEnc) (s : State) :
    exec (.rv64IntegerOp (.branch k a b off) e) s = .next (if rvTaken k (s.xr a) (s.xr b)
      then s.jump 0 (RvLen e) (s.pc + off.signExtend 64) else s.retire (RvLen e) 1) := rfl

/-- Settles O8: a jump by the parity of its target, and a branch that is taken jumps. -/
theorem jumpsAndBranchesGoToTheirTargets : Obligations.JumpsAndBranchesGoToTheirTargets := by
  unfold Obligations.JumpsAndBranchesGoToTheirTargets
  intro s rd a b e
  refine ⟨fun off => ⟨fun h => ?_, fun h => ?_⟩, fun off => ?_, fun k off => ?_⟩
  · exact congrArg Host.Outcome.next (jump_even h)
  · exact congrArg Host.Outcome.next (jump_odd h)
  · exact congrArg Host.Outcome.next (jump_even (jalr_target_even _))
  · have ht : (match k with
        | .beq => s.xr a = s.xr b
        | .bne => s.xr a ≠ s.xr b
        | .blt => (s.xr a).toInt < (s.xr b).toInt
        | .bge => (s.xr b).toInt ≤ (s.xr a).toInt
        | .bltu => (s.xr a).toNat < (s.xr b).toNat
        | .bgeu => (s.xr b).toNat ≤ (s.xr a).toNat) ↔ rvTaken k (s.xr a) (s.xr b) = true := by
      cases k <;> simp [rvTaken]
    intro t taken
    refine ⟨fun h => ?_, fun h hp => ?_, fun h hp => ?_⟩
    · rw [exec_branch, if_neg (fun e => h (ht.2 e))]
    · rw [exec_branch, if_pos (ht.1 h), jump_even hp]
    · rw [exec_branch, if_pos (ht.1 h), jump_odd hp]

/-! ## What stays when only one core's context, memory and time change -/

/-- Nothing but memory, its poison, time and the foreground context of core n differs. -/
structure State.onlyCtx (s t : State) (n : Nat) : Prop where
  rest : { t with cores := s.cores, now := s.now, mem := s.mem, poison := s.poison } = s
  core : t.core n = { s.core n with fg := t.fg n }
  others : ∀ m, m ≠ n → t.core m = s.core m

namespace State.onlyCtx

variable {s t u : State} {n : Nat}

theorem setFg (s : State) (n : Nat) (c : Ctx) : s.onlyCtx (s.setFg n c) n :=
  ⟨rfl, by simp, fun m h => core_setFg_ne s n m c (Ne.symm h)⟩

theorem modFg (s : State) (n : Nat) (g : Ctx → Ctx) : s.onlyCtx (s.modFg n g) n := setFg s n _

theorem tick (s : State) (n k : Nat) : s.onlyCtx (s.tick k) n := ⟨rfl, rfl, fun _ _ => rfl⟩

theorem putBytes (s : State) (n a : Nat) (bs : List Byte) : s.onlyCtx (s.putBytes a bs) n := ⟨rfl, rfl, fun _ _ => rfl⟩

theorem trans (h : s.onlyCtx t n) (g : t.onlyCtx u n) : s.onlyCtx u n where
  rest := by
    obtain ⟨hr, -, -⟩ := h
    obtain ⟨gr, -, -⟩ := g
    rw [← hr, ← gr]
  core := by rw [g.core, h.core]
  others m hm := (g.others m hm).trans (h.others m hm)

theorem setXr (h : s.cur = .core n) (r : BitVec 5) (v : Word) : s.onlyCtx (s.setXr r v) n :=
  setXr_core h r v ▸ modFg s n _

theorem setPc (h : s.cur = .core n) (p : Word) : s.onlyCtx (s.setPc p) n := setPc_core h p ▸ modFg s n _

theorem cur (h : s.onlyCtx t n) : t.cur = s.cur := (congrArg State.cur h.rest :)
theorem lockstep (h : s.onlyCtx t n) : t.lockstep = s.lockstep := (congrArg State.lockstep h.rest :)

theorem retire (h : s.cur = .core n) (len k : Nat) : s.onlyCtx (s.retire len k) n :=
  (setPc h _).trans (tick _ n k)

theorem markDirty (s : State) (n off k : Nat) : s.onlyCtx (s.markDirty n off k) n := modFg s n _

theorem spadWrite (s : State) (n off : Nat) (bs : List Byte) : s.onlyCtx (s.spadWrite n off bs) n :=
  (putBytes s n (spadKey n off) bs).trans (markDirty _ n off bs.length)

/-- Everything outside the core is as before. -/
theorem sameElsewhere (h : s.onlyCtx t n) : s.sameElsewhere t n :=
  ⟨h.others, (congrArg State.jobs h.rest :), (congrArg State.hamper h.rest :), (congrArg State.sch h.rest :),
    (congrArg State.mat h.rest :), (congrArg State.fab h.rest :), (congrArg State.mgmt h.rest :), h.cur⟩

end State.onlyCtx

theorem sameMemory_of_eq {s t : State} (hm : t.mem = s.mem) (hp : t.poison = s.poison) : s.sameMemory t :=
  fun _ => by rw [hm, hp]; exact ⟨rfl, rfl⟩

/-! ## What a write of a scalar register and a move of the PC keep -/

theorem sameScalarsBut_setX (c : Ctx) (rd : BitVec 5) (v p : Word) :
    c.sameScalarsBut { c.setX rd v with pc := p } rd := by
  intro r hr
  refine (x_setX c rd r v).trans ?_
  by_cases h0 : r = 0
  · subst h0; rfl
  · rw [if_neg h0, if_neg (Ne.symm hr)]

theorem sameButScalars_setX (c : Ctx) (rd : BitVec 5) (v p : Word) : c.sameButScalars { c.setX rd v with pc := p } :=
  ⟨fun _ => rfl, fun _ => rfl, rfl, rfl, rfl, rfl, rfl, fun _ => rfl, fun _ => rfl, rfl, rfl, rfl, rfl, rfl,
    fun e => by cases e <;> rfl, rfl⟩

theorem sameButScalars_pc (c : Ctx) (p : Word) : c.sameButScalars { c with pc := p } :=
  ⟨fun _ => rfl, fun _ => rfl, rfl, rfl, rfl, rfl, rfl, fun _ => rfl, fun _ => rfl, rfl, rfl, rfl, rfl, rfl,
    fun e => by cases e <;> rfl, rfl⟩

/-- The foreground of the core that has written a register and jumped. -/
theorem fg_setXr_setPc {s : State} {n : Nat} (h : s.cur = .core n) (rd : BitVec 5) (v p : Word) (k : Nat) :
    (((s.setXr rd v).setPc p).tick k).fg n = { (s.fg n).setX rd v with pc := p } := by
  have h' : (s.setXr rd v).cur = .core n := by simp [h]
  rw [setPc_core h', setXr_core h]
  simp

/-- What an instruction that only writes `rd` and moves the PC keeps. -/
def State.onlyRd (s t : State) (n : Nat) (rd : BitVec 5) : Prop :=
  (s.fg n).sameScalarsBut (t.fg n) rd ∧ (s.fg n).sameButScalars (t.fg n) ∧ s.sameMemory t ∧ s.sameElsewhere t n

theorem onlyRd_jump {s : State} {n : Nat} (h : s.cur = .core n) (rd : BitVec 5) (v p : Word) (k : Nat) :
    s.onlyRd (((s.setXr rd v).setPc p).tick k) n rd := by
  have h' : (s.setXr rd v).cur = .core n := by simp [h]
  refine ⟨?_, ?_, sameMemory_of_eq (by simp) (by simp),
    ((State.onlyCtx.setXr h rd v).trans ((State.onlyCtx.setPc h' p).trans (.tick _ n k))).sameElsewhere⟩
  · rw [fg_setXr_setPc h]
    exact sameScalarsBut_setX _ _ _ _
  · rw [fg_setXr_setPc h]
    exact sameButScalars_setX _ _ _ _

theorem onlyRd_setXr_retire {s : State} {n : Nat} (h : s.cur = .core n) (rd : BitVec 5) (v : Word) (len k : Nat) :
    s.onlyRd ((s.setXr rd v).retire len k) n rd := onlyRd_jump h rd v _ k

theorem onlyRd_retire {s : State} {n : Nat} (h : s.cur = .core n) (len k : Nat) : s.onlyRd (s.retire len k) n 0 := by
  refine ⟨?_, ?_, sameMemory_of_eq (by simp) (by simp), (State.onlyCtx.retire h len k).sameElsewhere⟩
  · rw [retire_core h]
    simp [Ctx.sameScalarsBut, Ctx.x]
  · rw [retire_core h]
    simpa using sameButScalars_pc (s.fg n) _

theorem pc_retire {s : State} {n : Nat} (h : s.cur = .core n) (len k : Nat) : (s.retire len k).pc = s.pc + wOf len := by
  have h' : (s.retire len k).cur = .core n := by simp [h]
  rw [pc_core h', pc_core h, retire_core h]
  simp

/-- Settles O9: each operation writes its destination and its PC, by a retire or by a jump to an even target. -/
theorem registerInstructionsKeepTheRest : Obligations.RegisterInstructionsKeepTheRest := by
  unfold Obligations.RegisterInstructionsKeepTheRest
  intro s n hc
  constructor
  · intro o e rd ho
    cases o with
    | alu k d a b => subst ho; exact ⟨_, rfl, onlyRd_setXr_retire hc d _ _ _⟩
    | aluw k d a b => subst ho; exact ⟨_, rfl, onlyRd_setXr_retire hc d _ _ _⟩
    | imm k d a i => subst ho; exact ⟨_, rfl, onlyRd_setXr_retire hc d _ _ _⟩
    | shift k d a sh => subst ho; exact ⟨_, rfl, onlyRd_setXr_retire hc d _ _ _⟩
    | unary k d a => subst ho; exact ⟨_, rfl, onlyRd_setXr_retire hc d _ _ _⟩
    | lui d i => subst ho; exact ⟨_, rfl, onlyRd_setXr_retire hc d _ _ _⟩
    | auipc d i => subst ho; exact ⟨_, rfl, onlyRd_setXr_retire hc d _ _ _⟩
    | jal d off =>
      obtain ⟨rfl, hp⟩ := ho
      exact ⟨_, congrArg Host.Outcome.next (jump_even hp), onlyRd_jump hc d _ _ _⟩
    | jalr d a off =>
      subst ho
      exact ⟨_, congrArg Host.Outcome.next (jump_even (jalr_target_even _)), onlyRd_jump hc d _ _ _⟩
    | branch k a b off =>
      obtain ⟨rfl, hp⟩ := ho
      rw [exec_branch]
      split
      · rw [jump_even hp]
        exact ⟨_, rfl, onlyRd_jump hc 0 _ _ _⟩
      · exact ⟨_, rfl, onlyRd_retire hc _ _⟩
  · intro f
    obtain ⟨hx, hb, hm, he⟩ := onlyRd_retire hc 4 1
    exact ⟨_, rfl, hx, hb, hm, he, pc_retire hc 4 1⟩

end Sys2Proof.Machine
end

section
/-! SUPPORT. Loads and stores of the space of a core itself: the effective address, the register views, and the
scratchpad. -/

namespace Sys2Proof.Machine

/-! ## The effective address (R215) -/

/-- The integer that `scalarEa` stands for. -/
def eaInt (x : Word) (off : BitVec 12) : Int := (x.toNat : Int) + off.toInt

theorem eaInt_range (x : Word) (off : BitVec 12) : -2048 ≤ eaInt x off ∧ eaInt x off < 2 ^ 64 + 2048 := by
  have hx := x.isLt
  have h1 := BitVec.le_toInt off
  have h2 := BitVec.toInt_lt (x := off)
  simp only [eaInt]
  omega

theorem scalarEa_of_nonneg {x : Word} {off : BitVec 12} (h : 0 ≤ eaInt x off) :
    (scalarEa x off : Int) = eaInt x off := by
  simp only [eaInt] at h
  simp only [scalarEa, eaInt]
  rw [if_neg (by omega)]
  omega

theorem scalarEa_of_neg {x : Word} {off : BitVec 12} (h : eaInt x off < 0) :
    (scalarEa x off : Int) = eaInt x off + 2 ^ 65 := by
  have := eaInt_range x off
  simp only [eaInt] at h this
  simp only [scalarEa, eaInt]
  rw [if_pos h]
  omega

theorem scalarEa_nat {x : Word} {off : BitVec 12} {a : Nat} (h : eaInt x off = a) : scalarEa x off = a := by
  have := scalarEa_of_nonneg (x := x) (off := off) (by omega)
  omega

/-- The low 64 bits of an effective address are those of the integer. -/
theorem wOf_scalarEa (x : Word) (off : BitVec 12) : wOf (scalarEa x off) = wOfInt (eaInt x off) := by
  apply BitVec.eq_of_toNat_eq
  simp only [wOf, wOfInt, BitVec.toNat_ofNat, BitVec.toNat_ofInt]
  rcases lt_or_ge (eaInt x off) 0 with h | h
  · have := scalarEa_of_neg h
    omega
  · have := scalarEa_of_nonneg h
    omega

theorem accSize_cases (f3 : BitVec 3) : accSize f3 = 1 ∨ accSize f3 = 2 ∨ accSize f3 = 4 ∨ accSize f3 = 8 := by
  have h : f3.toNat % 4 < 4 := Nat.mod_lt _ (by decide)
  unfold accSize
  generalize f3.toNat % 4 = j at h
  interval_cases j <;> simp

/-- Its alignment is the integer's. -/
theorem scalarEa_aligned (x : Word) (off : BitVec 12) (f3 : BitVec 3) :
    scalarEa x off % accSize f3 = 0 ↔ eaInt x off % (accSize f3 : Int) = 0 := by
  rcases lt_or_ge (eaInt x off) 0 with h | h
  · have := scalarEa_of_neg h
    rcases accSize_cases f3 with e | e | e | e <;> rw [e] <;> omega
  · have := scalarEa_of_nonneg h
    rcases accSize_cases f3 with e | e | e | e <;> rw [e] <;> omega

/-- It lies in the scratchpad only where the integer does. -/
theorem scalarEa_outside {x : Word} {off : BitVec 12} (h : eaInt x off < 0 ∨ 0x80000 ≤ eaInt x off) :
    ¬ scalarEa x off < 0x80000 := by
  have := eaInt_range x off
  rcases lt_or_ge (eaInt x off) 0 with g | g
  · have := scalarEa_of_neg g
    omega
  · have := scalarEa_of_nonneg g
    omega

/-! ## The register views (R18) -/

/-- The addresses of the three register views. -/
def inView (e : Int) : Prop :=
  0x100000 ≤ e ∧ e < 0x100200 ∨ 0x101000 ≤ e ∧ e < 0x101800 ∨ 0x102000 ≤ e ∧ e < 0x102200

theorem viewByte_isSome (c : Ctx) (a : Nat) : (c.viewByte a).isSome = true ↔ inView a := by
  unfold Ctx.viewByte inView
  split
  · simp; omega
  split
  · simp; omega
  split
  · simp; omega
  · simp; omega

theorem viewByte_scalarEa (c : Ctx) (x : Word) (off : BitVec 12) :
    (c.viewByte (scalarEa x off)).isSome = true ↔ inView (eaInt x off) := by
  rw [viewByte_isSome]
  have := eaInt_range x off
  unfold inView
  rcases lt_or_ge (eaInt x off) 0 with h | h
  · have := scalarEa_of_neg h
    omega
  · rw [scalarEa_of_nonneg h]

/-- A number below 2 ^ 16 from its two bytes. -/
theorem two_bytes (x : BitVec 16) : x.toNat / 2 ^ (8 * 0) % 256 + 256 * (x.toNat / 2 ^ (8 * 1) % 256 + 256 * 0) =
    x.toNat := by
  have := x.isLt
  omega

/-- The semaphore view shows the counts, and 0 for sem0 (R29). -/
theorem viewNum_sem (c : Ctx) {i : Nat} (h : i < 256) :
    c.viewNum (0x100000 + 2 * i) 2 = if i = 0 then 0 else (c.semOf i).toNat := by
  have h0 : c.viewByte (0x100000 + 2 * i) = some (if i = 0 then 0 else (c.semOf i).toNat / 2 ^ (8 * 0) % 256) := by
    rw [Ctx.viewByte, if_pos (by omega), show (0x100000 + 2 * i - 0x100000) / 2 = i by omega,
      show (0x100000 + 2 * i) % 2 = 0 by omega]
  have h1 : c.viewByte (0x100000 + 2 * i + 1) = some (if i = 0 then 0 else (c.semOf i).toNat / 2 ^ (8 * 1) % 256) := by
    rw [Ctx.viewByte, if_pos (by omega), show (0x100000 + 2 * i + 1 - 0x100000) / 2 = i by omega,
      show (0x100000 + 2 * i + 1) % 2 = 1 by omega]
  simp only [Ctx.viewNum, h0, h1, Option.getD_some]
  split
  · rfl
  · exact two_bytes _

/-- One byte of the Tag Table's view. -/
theorem viewByte_tag (c : Ctx) {i j : Nat} (h : i < 256) (hj : j < 8) :
    c.viewByte (0x101000 + 8 * i + j) = some ((tget 0 c.tag i).toNat / 2 ^ (8 * j) % 256) := by
  rw [Ctx.viewByte, if_neg (by omega), if_pos (by omega), show (0x101000 + 8 * i + j - 0x101000) / 8 = i by omega,
    show (0x101000 + 8 * i + j) % 8 = j by omega]

/-- The Tag Table's view shows its entries (R28). -/
theorem viewNum_tag (c : Ctx) {i : Nat} (h : i < 256) : c.viewNum (0x101000 + 8 * i) 8 = (tget 0 c.tag i).toNat := by
  have hb (j : Nat) (hj : j < 8) := viewByte_tag c h hj
  have h0 := hb 0 (by decide)
  rw [Nat.add_zero] at h0
  simp only [Ctx.viewNum, Nat.add_assoc, Nat.reduceAdd] at *
  simp only [h0, hb 1, hb 2, hb 3, hb 4, hb 5, hb 6, hb 7, Nat.lt_add_one, Nat.reduceLT, Option.getD_some]
  have := (tget 0 c.tag i).isLt
  omega

/-! ## The read of a core's own space -/

theorem localLoad_misaligned {s : State} {n a k : Nat} (h : a % k ≠ 0) : s.localLoad n a k = .inl (0x0F, wOf a) := by
  rw [State.localLoad, if_pos h]

theorem localLoad_leased {s : State} {n a k b : Nat} (h : a % k = 0) (ha : a < 0x80000)
    (hl : s.leasedAt n a k = some b) :
    s.localLoad n a k = .inl (0x02, wOf b) := by
  simp [State.localLoad, h, ha, hl]

theorem localLoad_poisoned {s : State} {n a k : Nat} (h : a % k = 0) (ha : a < 0x80000) (hl : s.leasedAt n a k = none)
    (hp : s.spadPoison n a k = true) : s.localLoad n a k = .inl (0x0A, wOf a) := by
  simp [State.localLoad, h, ha, hl, hp]

theorem localLoad_spad {s : State} {n a k : Nat} (h : a % k = 0) (ha : a < 0x80000) (hl : s.leasedAt n a k = none)
    (hp : s.spadPoison n a k = false) : s.localLoad n a k = .inr (memNat s.mem (spadKey n a) k) := by
  simp [State.localLoad, h, ha, hl, hp, State.spadNum, State.spadRead, State.bytes, memNat]

theorem localLoad_view {s : State} {n a k : Nat} (h : a % k = 0) (ha : ¬ a < 0x80000) (hv : inView a)
    (hp : (s.fg n).regs.pois = []) : s.localLoad n a k = .inr ((s.fg n).viewNum a k) := by
  simp [State.localLoad, h, ha, (viewByte_isSome _ _).2 hv, hp]

theorem localLoad_absent {s : State} {n a k : Nat} (h : a % k = 0) (ha : ¬ a < 0x80000)
    (hv : ((s.fg n).viewByte a).isSome ≠ true) : s.localLoad n a k = .inl (0x10, wOf a) := by
  simp only [State.localLoad, h, ha, hv]
  simp

/-- `SCALAR_LOAD` of a core, by what the read of its own space answers. -/
theorem scalarLoad_value {s : State} {n v : Nat} {f : LoadF} (hc : s.cur = .core n)
    (h : s.localLoad n (scalarEa (s.xr f.rs1) f.off) (accSize f.f3) = .inr v) :
    exec (.scalarLoad f) s = .next ((s.setXr f.rd (extend f.f3 v)).retire (RvLen f.enc) 3) := by
  simp only [exec, execScalarLoad, onCore_core hc, h]

theorem scalarLoad_trap {s : State} {n cause : Nat} {v : Word} {f : LoadF} (hc : s.cur = .core n)
    (h : s.localLoad n (scalarEa (s.xr f.rs1) f.off) (accSize f.f3) = .inl (cause, v)) :
    exec (.scalarLoad f) s = .next (s.trapHere cause v) := by
  simp only [exec, execScalarLoad, onCore_core hc, h]

/-- `SCALAR_STORE` of a core, by where its address lies. -/
theorem scalarStore_misaligned {s : State} {n : Nat} {f : StoreF} (hc : s.cur = .core n)
    (h : scalarEa (s.xr f.rs1) f.off % accSize f.f3 ≠ 0) :
    exec (.scalarStore f) s = .next (s.trapHere 0x0F (wOf (scalarEa (s.xr f.rs1) f.off))) := by
  simp only [exec, execScalarStore, onCore_core hc, if_pos h]

theorem scalarStore_spad {s : State} {n : Nat} {f : StoreF} (hc : s.cur = .core n)
    (h : scalarEa (s.xr f.rs1) f.off % accSize f.f3 = 0) (ha : scalarEa (s.xr f.rs1) f.off < 0x80000) :
    exec (.scalarStore f) s = .next ((s.spadWrite n (scalarEa (s.xr f.rs1) f.off)
      (leBytes (accSize f.f3) (s.xr f.rs2).toNat)).retire (RvLen f.enc) 1) := by
  simp only [exec, execScalarStore, onCore_core hc, if_neg (not_not.2 h), if_pos ha]

theorem scalarStore_view {s : State} {n : Nat} {f : StoreF} (hc : s.cur = .core n)
    (h : scalarEa (s.xr f.rs1) f.off % accSize f.f3 = 0) (ha : ¬ scalarEa (s.xr f.rs1) f.off < 0x80000)
    (hv : ((s.fg n).viewByte (scalarEa (s.xr f.rs1) f.off)).isSome = true) :
    exec (.scalarStore f) s = .next (s.trapHere 0x09 (wOf (scalarEa (s.xr f.rs1) f.off))) := by
  simp only [exec, execScalarStore, onCore_core hc, if_neg (not_not.2 h), if_neg ha, if_pos hv]

theorem scalarStore_absent {s : State} {n : Nat} {f : StoreF} (hc : s.cur = .core n)
    (h : scalarEa (s.xr f.rs1) f.off % accSize f.f3 = 0) (ha : ¬ scalarEa (s.xr f.rs1) f.off < 0x80000)
    (hv : ((s.fg n).viewByte (scalarEa (s.xr f.rs1) f.off)).isSome ≠ true) :
    exec (.scalarStore f) s = .next (s.trapHere 0x10 (wOf (scalarEa (s.xr f.rs1) f.off))) := by
  simp only [exec, execScalarStore, onCore_core hc, if_neg (not_not.2 h), if_neg ha, if_neg hv]

/-- `LHU` extends with zeros. -/
theorem extend_lhu (v : Nat) : extend 5 v = wOf v := rfl

/-- `LD` gives the 64 bits back. -/
theorem extend_ld (x : Word) : extend 3 x.toNat = x := by
  have h : extend 3 x.toNat = wOfInt (sextN x.toNat 64) := rfl
  have hx := x.isLt
  rw [h]
  apply BitVec.eq_of_toNat_eq
  simp only [wOfInt, sextN, BitVec.toNat_ofInt]
  split <;> omega

/-- Settles O10: a load of the scratchpad, of a semaphore's count, and of a Tag Table entry. -/
theorem scalarLoadsReadTheirBytes : Obligations.ScalarLoadsReadTheirBytes := by
  unfold Obligations.ScalarLoadsReadTheirBytes
  constructor
  · intro s n a f hc he k hk ha hl hp
    have hea := scalarEa_nat (x := s.xr f.rs1) (off := f.off) he
    exact scalarLoad_value hc (hea.symm ▸ localLoad_spad hk ha hl hp)
  · intro s n i f hc hp e
    constructor
    · intro hf hi he
      have hea : scalarEa (s.xr f.rs1) f.off = 0x100000 + 2 * i := scalarEa_nat (by exact he)
      have hk : accSize f.f3 = 2 := by rw [hf]; rfl
      have hv : s.localLoad n (scalarEa (s.xr f.rs1) f.off) (accSize f.f3) = .inr
          (if i = 0 then 0 else ((s.fg n).semOf i).toNat) := by
        rw [hea, hk, localLoad_view (by omega) (by omega) (by unfold inView; omega) hp, viewNum_sem _ hi]
      rw [scalarLoad_value hc hv]
      rw [hf, extend_lhu, apply_ite wOf]
      rfl
    · intro hf hi he
      have hea : scalarEa (s.xr f.rs1) f.off = 0x101000 + 8 * i := scalarEa_nat (by exact he)
      have hk : accSize f.f3 = 8 := by rw [hf]; rfl
      have hv : s.localLoad n (scalarEa (s.xr f.rs1) f.off) (accSize f.f3) = .inr (tget 0 (s.fg n).tag i).toNat := by
        rw [hea, hk, localLoad_view (by omega) (by omega) (by unfold inView; omega) hp, viewNum_tag _ hi]
      rw [scalarLoad_value hc hv]
      rw [hf, extend_ld]

/-- Settles O11: the answers of the read of the own space that are traps, and the branches of a store. -/
theorem scalarAccessTraps : Obligations.ScalarAccessTraps := by
  unfold Obligations.ScalarAccessTraps
  constructor
  · intro s n f hc e k view
    have hal := scalarEa_aligned (s.xr f.rs1) f.off f.f3
    have hw : wOf (scalarEa (s.xr f.rs1) f.off) = wOfInt e := wOf_scalarEa (s.xr f.rs1) f.off
    refine ⟨fun h => ?_, fun a he ha hs => ?_, fun h ho hv => ?_⟩
    · rw [← hw]
      exact scalarLoad_trap hc (localLoad_misaligned (fun g => h (hal.1 g)))
    · have hea := scalarEa_nat (x := s.xr f.rs1) (off := f.off) he
      exact ⟨fun b hl => scalarLoad_trap hc (hea.symm ▸ localLoad_leased ha hs hl),
        fun hl hp => scalarLoad_trap hc (hea.symm ▸ localLoad_poisoned ha hs hl hp)⟩
    · rw [← hw]
      exact scalarLoad_trap hc (localLoad_absent (hal.2 h) (scalarEa_outside ho)
        (fun g => hv ((viewByte_scalarEa _ _ _).1 g)))
  · intro s n f hc e k view
    have hal := scalarEa_aligned (s.xr f.rs1) f.off f.f3
    have hw : wOf (scalarEa (s.xr f.rs1) f.off) = wOfInt e := wOf_scalarEa (s.xr f.rs1) f.off
    have hview := viewByte_scalarEa (s.fg n) (s.xr f.rs1) f.off
    refine ⟨fun h => ?_, fun h hv => ?_, fun h ho hv => ?_⟩
    · rw [← hw]
      exact scalarStore_misaligned hc (fun g => h (hal.1 g))
    · rw [← hw]
      have ho : e < 0 ∨ 0x80000 ≤ e := by
        have : inView e := hv
        unfold inView at this
        omega
      exact scalarStore_view hc (hal.2 h) (scalarEa_outside ho) (hview.2 hv)
    · rw [← hw]
      exact scalarStore_absent hc (hal.2 h) (scalarEa_outside ho) (fun g => hv (hview.1 g))

/-! ## A store of the scratchpad -/

theorem memByte_spadWrite_out (s : State) (n off b : Nat) (bs : List Byte)
    (h : b < spadKey n off ∨ spadKey n off + bs.length ≤ b) :
    memByte (s.spadWrite n off bs).mem b = memByte s.mem b :=
  memByte_memWrite_out bs s.mem (spadKey n off) b h

/-- A number that was written little-endian reads back as far as its bytes reach. -/
theorem memNat_memWrite_leBytes (m : List Host.Cell) (a k x : Nat) :
    memNat (memWrite m a (leBytes k x)) a k = x % 2 ^ (8 * k) := by
  have h := memRead_memWrite_same (leBytes k x) m a
  rw [leBytes_length] at h
  rw [memNat, h, leNat_leBytes, show 256 = 2 ^ 8 from rfl, ← pow_mul]

theorem sameButScalars_store (c : Ctx) (p : Word) (m : BitVec 128) : c.sameButScalars { c with dirty := m, pc := p } :=
  ⟨fun _ => rfl, fun _ => rfl, rfl, rfl, rfl, rfl, rfl, fun _ => rfl, fun _ => rfl, rfl, rfl, rfl, rfl, rfl,
    fun e => by cases e <;> rfl, rfl⟩

/-- Settles O12: the store is a write of the scratchpad and a retire. -/
theorem scalarStoreWritesItsBytes : Obligations.ScalarStoreWritesItsBytes := by
  unfold Obligations.ScalarStoreWritesItsBytes
  intro s n a f hc he k hk ha
  have hea := scalarEa_nat (x := s.xr f.rs1) (off := f.off) he
  have hx := scalarStore_spad hc (f := f) (hea.symm ▸ hk) (hea.symm ▸ ha)
  rw [hea] at hx
  have hc' : (s.spadWrite n a (leBytes (accSize f.f3) (s.xr f.rs2).toNat)).cur = .core n := by simp [hc]
  refine ⟨_, hx, ?_, ?_, ?_, ?_, ?_, ?_⟩
  · rw [retire_mem]
    exact memNat_memWrite_leBytes s.mem (spadKey n a) k _
  · intro b hb
    rw [retire_mem]
    exact memByte_spadWrite_out s n a b _ (by rwa [leBytes_length])
  · rw [retire_core hc']
    simp [State.spadWrite, State.markDirty, Ctx.sameScalarsBut, Ctx.x]
  · rw [retire_core hc']
    simpa [State.spadWrite, State.markDirty] using sameButScalars_store (s.fg n) _ _
  · exact ((State.onlyCtx.spadWrite s n a _).trans (State.onlyCtx.retire hc' _ _)).sameElsewhere
  · rw [pc_retire hc', pc_core hc', pc_core hc]
    simp [State.spadWrite, State.markDirty]

end Sys2Proof.Machine
end

section
/-! SUPPORT. A trap that the task handler takes, and the completion of a deadline-bearing instruction. -/

namespace Sys2Proof.Machine

/-! ## The handler's trap (R377, R378, R383) -/

theorem takesHandler_of {c : Ctx} {cause : Nat} (hact : c.hact = false) (ht : c.csr.tvec.getLsbD 0 = true)
    (h : cause = 4 ∨ cause = 5 ∨ cause = 3 ∧ c.csr.tvec.getLsbD 1 = true) : c.takesHandler cause = true := by
  rcases h with rfl | rfl | ⟨rfl, h1⟩
  · simp [Ctx.takesHandler, hact, ht]
  · simp [Ctx.takesHandler, hact, ht]
  · simp [Ctx.takesHandler, hact, ht, h1]

/-- The handler's address is `tvec.base` << 2 (R43). -/
theorem handlerAddr_eq (tvec : Word) : handlerAddr tvec = wOf (tvec.toNat / 4 * 4) := by
  have hmask : ∀ i : Nat, i < 64 → (0xFFFFFFFFFFFFFFFC : Word).getLsbD i = decide (2 ≤ i) := by decide
  apply BitVec.eq_of_getLsbD_eq
  intro i hi
  rw [handlerAddr, BitVec.getLsbD_and, hmask i hi, wOf, BitVec.getLsbD_ofNat, show 4 = 2 ^ 2 from rfl,
    Nat.testBit_mul_two_pow, Nat.testBit_div_two_pow]
  by_cases h2 : 2 ≤ i
  · simp [hi, h2, Nat.sub_add_cancel h2, BitVec.getLsbD]
  · simp [h2]

theorem cwWord_handler {cause unit : Nat} (hc : cause < 256) (hu : unit < 256) :
    cwWord cause unit 7 true false = wOf (cause + unit * 2 ^ 8 + 7 * 2 ^ 16 + 2 ^ 19) := by
  rw [cwWord, Nat.mod_eq_of_lt hc, Nat.mod_eq_of_lt hu]
  simp [boolNat]

/-- The foreground context in its handler. -/
def State.inHandler (s : State) (c : Ctx) (cause unit : Nat) (cut val : Word) : Ctx :=
  { s.writeRec (c.trapped unit) cause unit 7 true false cut val with
    csr := { c.csr with tcause := wOf (cause + unit * 256), tepc := cut, tval := val }
    hact := true
    pc := handlerAddr c.csr.tvec }

theorem inHandler_eng (s : State) (c : Ctx) (cause unit : Nat) (cut val : Word) (e : Eng) :
    (s.inHandler c cause unit cut val).eng e = c.eng e := by cases e <;> rfl

/-- Settles O16: the handler's trap as the state it makes, and the trap of the core's own instruction. -/
theorem handlerTrapEntersTheHandler : Obligations.HandlerTrapEntersTheHandler := by
  unfold Obligations.HandlerTrapEntersTheHandler
  constructor
  · intro s n cause unit cut val c hst hact htv hcause hu t d
    have hc : cause < 256 := by omega
    have ht : t = s.setFg n (s.inHandler c cause unit cut val) :=
      takeTrap_handler s n cause unit cut val hst (takesHandler_of hact htv hcause)
    have hd : d = s.inHandler c cause unit cut val := by
      show t.fg n = _
      rw [ht, fg_setFg_self]
    rw [hd]
    refine ⟨rfl, handlerAddr_eq _, rfl, rfl, rfl, rfl, rfl, rfl, cwWord_handler hc (by omega), rfl, rfl, rfl, rfl,
        rfl, rfl,
      rfl, rfl, rfl, rfl, inHandler_eng s c cause unit cut val, rfl, ?_, ?_⟩
    · rw [ht]
      exact sameMemory_of_eq rfl rfl
    · rw [ht]
      exact (State.onlyCtx.setFg s n _).sameElsewhere
  · intro s n cause val hc
    exact trapHere_core hc cause val

/-! ## Deadline status (R39, R40) -/

/-- A completion with a read before it unfinished is kept for later. -/
theorem countD_behind {c : Ctx} {ord : Nat} (x : Bool) (pc : Word) (code : Nat) (h : c.bearsBefore ord = true) :
    c.countD x ord pc code = ({ c with dlWait := insertLate (ord, pc, code) c.dlWait }, decide (code = 1) && x) := by
  rw [Ctx.countD, if_pos h]

/-- A completion with nothing before it and nothing kept is counted at once. -/
theorem countD_first {c : Ctx} {ord : Nat} (x : Bool) (pc : Word) (code : Nat) (h : c.bearsBefore ord = false)
    (hw : c.dlWait = []) :
    c.countD x ord pc code = ((c.countOne pc code).1, (decide (code = 1) && x) || (c.countOne pc code).2) := by
  rw [Ctx.countD, if_neg (ne_true_of_eq_false h), hw]
  rfl

/-- The count of consecutive timeouts at an address, with one more. -/
def Ctx.timeouts (c : Ctx) (pc : Word) : Nat := if c.dlPrev = some pc then c.csr.dlesc.toNat / 256 % 256 + 1 else 1

/-- The context whose count stands at k. -/
def Ctx.counted (c : Ctx) (k : Nat) (prev : Option Word) : Ctx :=
  { c with csr := { c.csr with dlesc := wOf (c.csr.dlesc.toNat % 256 + k * 256) }, dlPrev := prev }

theorem wfld_low (x : Word) : wfld x 7 0 = x.toNat % 256 := by simp [wfld, fld]
theorem wfld_second (x : Word) : wfld x 15 8 = x.toNat / 256 % 256 := by simp [wfld, fld]

theorem countOne_other {c : Ctx} {code : Nat} (pc : Word) (h : code ≠ 1) :
    c.countOne pc code = (c.counted 0 none, false) := by
  simp [Ctx.countOne, Ctx.counted, h, wfld_low]

theorem countOne_below {c : Ctx} {pc : Word}
    (h : c.csr.dlesc.toNat % 256 = 0 ∨ c.timeouts pc < c.csr.dlesc.toNat % 256) :
    c.countOne pc 1 = (c.counted (c.timeouts pc % 256) (some pc), false) := by
  have hf : ¬(c.csr.dlesc.toNat % 256 ≠ 0 ∧ c.csr.dlesc.toNat % 256 ≤ c.timeouts pc) := by omega
  simp only [Ctx.countOne, Ctx.counted, wfld_low, wfld_second, if_true, decide_true, Bool.true_and, ← Bool.decide_and]
  rw [← Ctx.timeouts]
  simp [hf]

theorem countOne_full {c : Ctx} {pc : Word} (h0 : c.csr.dlesc.toNat % 256 ≠ 0)
    (h : c.csr.dlesc.toNat % 256 ≤ c.timeouts pc) : c.countOne pc 1 = (c.counted 0 (some pc), true) := by
  simp only [Ctx.countOne, Ctx.counted, wfld_low, wfld_second, if_true, decide_true, Bool.true_and, ← Bool.decide_and]
  rw [← Ctx.timeouts]
  simp [h0, h]

/-- The state in which a status has been written and counted, before any escalation. -/
def State.statusDone (s : State) (n : Nat) (pc : Word) (c : Ctx) : State :=
  (s.setFg n { c with wait := none, pc := pc + 8 }).tick 2

theorem finishD_eq {s : State} {n : Nat} {st : BitVec 5} {x b : Bool} {pc : Word} {code detail : Nat} {c : Ctx}
    (h : ((s.fg n).setX st (statusWord code detail)).countD x (s.fg n).ord pc code = (c, b)) :
    s.finishD n st x pc code detail =
      if b then (s.statusDone n pc c).takeTrap n 0x06 0 (pc + 8) pc else s.statusDone n pc c := by
  simp only [State.finishD, State.finishDk, h, State.statusDone]

theorem fg_statusDone (s : State) (n : Nat) (pc : Word) (c : Ctx) :
    (s.statusDone n pc c).fg n = { c with wait := none, pc := pc + 8 } := by simp [State.statusDone]

/-- The status stands in its register, the PC has moved on, and memory is as before. -/
theorem statusDone_moved {s : State} {n : Nat} (hc : s.cur = .core n) (st : BitVec 5) (pc : Word) {code detail : Nat}
    (hcode : code < 16) {c : Ctx} (hx : c.regs.x = ((s.fg n).setX st (statusWord code detail)).regs.x) :
    (s.statusDone n pc c).pc = pc + 8 ∧ ((s.statusDone n pc c).fg n).wait = none ∧ (s.statusDone n pc c).mem = s.mem ∧
      ∀ r, (s.statusDone n pc c).xr r =
        if r = 0 then 0 else if r = st then wOf (code + detail % 2 ^ 48 * 2 ^ 16) else s.xr r := by
  have hc' : (s.statusDone n pc c).cur = .core n := hc
  refine ⟨?_, ?_, rfl, fun r => ?_⟩
  · rw [pc_core hc', fg_statusDone]
  · rw [fg_statusDone]
  · have hr : ((s.statusDone n pc c).fg n).x r = ((s.fg n).setX st (statusWord code detail)).x r := by
      rw [fg_statusDone]
      exact congrArg (fun t => xget t r) hx
    rw [xr_core hc', hr, x_setX, xr_core hc, statusWord, Nat.mod_eq_of_lt hcode]
    simp only [eq_comm (a := st)]

/-- Settles O21: the completion is counted at once or kept, and escalates where its count is full or `.x` asks. -/
theorem deadlineStatusIsWrittenAndCounted : Obligations.DeadlineStatusIsWrittenAndCounted := by
  unfold Obligations.DeadlineStatusIsWrittenAndCounted
  intro s n st x pc code detail hc hcode c thr cnt t moved went
  have hmv (d : Ctx) (hd : d.regs.x = (c.setX st (statusWord code detail)).regs.x) : moved (s.statusDone n pc d) :=
    statusDone_moved hc st pc hcode hd
  have hwent (k : Nat) (p : Option Word) : went (s.statusDone n pc ((c.setX st (statusWord code detail)).counted k p))
      k :=
    ⟨hmv _ rfl, by rw [fg_statusDone]; rfl⟩
  constructor
  · intro hb hw
    have hf := countD_first (c := c.setX st (statusWord code detail)) x pc code hb hw
    refine ⟨fun h1 => ?_, fun h1 hx ht => ?_, fun h1 ht0 ht => ?_, fun h1 hx ht => ?_⟩
    · rw [countOne_other pc h1] at hf
      have ht : t = s.statusDone n pc ((c.setX st (statusWord code detail)).counted 0 none) :=
        (finishD_eq hf).trans (if_neg (by simp [h1]))
      rw [ht]
      exact ⟨hwent 0 none, by rw [fg_statusDone]; rfl⟩
    · subst h1 hx
      rw [countOne_below (c := c.setX st (statusWord 1 detail)) ht] at hf
      have ht : t = s.statusDone n pc ((c.setX st (statusWord 1 detail)).counted (cnt % 256) (some pc)) :=
        (finishD_eq hf).trans (if_neg (by simp))
      rw [ht]
      exact ⟨hwent _ _, by rw [fg_statusDone]; rfl⟩
    · subst h1
      rw [countOne_full (c := c.setX st (statusWord 1 detail)) ht0 ht] at hf
      exact ⟨_, hwent 0 (some pc), (finishD_eq hf).trans (if_pos (by simp))⟩
    · subst h1 hx
      rw [countOne_below (c := c.setX st (statusWord 1 detail)) ht] at hf
      exact ⟨_, hwent (cnt % 256) (some pc), (finishD_eq hf).trans (if_pos (by simp))⟩
  · intro hb kept
    have hf := countD_behind (c := c.setX st (statusWord code detail)) x pc code hb
    have hk : kept (s.statusDone n pc { c.setX st (statusWord code detail) with
        dlWait := insertLate (c.ord, pc, code) c.dlWait }) :=
      ⟨hmv _ rfl, by rw [fg_statusDone]; rfl, by rw [fg_statusDone]; rfl, by rw [fg_statusDone]⟩
    refine ⟨fun h => ?_, fun h1 hx => ⟨_, hk, ?_⟩⟩
    · have hn : (decide (code = 1) && x) = false := by
        rcases h with h | h <;> simp [h]
      rw [hn] at hf
      have ht : t = s.statusDone n pc { c.setX st (statusWord code detail) with
          dlWait := insertLate (c.ord, pc, code) c.dlWait } :=
        (finishD_eq hf).trans (if_neg (by simp))
      rw [ht]
      exact hk
    · subst h1 hx
      exact (finishD_eq hf).trans (if_pos (by simp))

end Sys2Proof.Machine
end

section
/-! SUPPORT. Predicate operations: where `PSET`'s 64-bit sum wraps. -/

namespace Sys2Proof.Machine

/-- A scalar count of 2 ^ 63 - 1. -/
def maxCount : VIn := { xa := 0x7FFFFFFFFFFFFFFF }

/-- A Format V word of type I8 (R84), all of whose other fields are 0. -/
def i8Word : FmtV := 
  { wait := 0, sig := 0, ty := 16, pe := false, pg := 0, sm := 0, fx := false, c := 0, b := 0, a := 0, d := 0 }

/-- The Format VI word of that type whose immediate is 1. -/
def i8Plus1 : FmtVI := 
  { wait := 0, sig := 0, ty := 16, pe := false, pg := 0, sm := 0, imm := 1, a := 0, d := 0 }

/-- `PSET` of 2 ^ 63 - 1 and 1: the sum of R149 is one of 64 bits, and reads as -2 ^ 63, so no element is active. -/
theorem effPset_wraps : (effPset i8Plus1 maxCount).dst = .pred 0 := by decide +kernel

/-- Refutes O36: the statement's sum is one of unbounded integers, in which 2 ^ 63 - 1 + 1 makes element 0 active, but
`PSET` adds in 64 bits, where the sum is negative. -/
theorem not_predicatesAndComparisons : ¬ Obligations.PredicatesAndComparisons := by
  unfold Obligations.PredicatesAndComparisons
  intro h
  obtain ⟨-, -, -, -, ⟨p, hp, hact⟩, -⟩ := h i8Word i8Plus1 maxCount 0 (by decide) rfl (by decide)
  obtain rfl : 0 = p := VDst.pred.inj (effPset_wraps.symm.trans hp)
  exact absurd (hact.2 (by decide)) (by decide)

end Sys2Proof.Machine
end

section
/-! SUPPORT. How the vector operations treat the flags: they are raised on top of those that stand, and nothing depends
on them (R62); and which operations raise none. -/

namespace Sys2Proof.Machine

/-! ## Operations on the flags and the generator -/

/-- What f does does not depend on the flags, and flags that stood before it stand after it. -/
def Threads {α : Type} (f : FpSt → α × FpSt) : Prop := ∀ st F, f (st.raise F) = ((f st).1, (f st).2.raise F)

theorem raise_comm (st : FpSt) (F G : BitVec 6) : (st.raise F).raise G = (st.raise G).raise F := by
  simp only [FpSt.raise, BitVec.or_assoc, BitVec.or_comm F G]

namespace Threads

variable {α β : Type}

theorem pure (a : α) : Threads (fun st => (a, st)) := fun _ _ => rfl

theorem raised (a : α) (G : BitVec 6) : Threads (fun st => (a, st.raise G)) :=
  fun st F => congrArg (Prod.mk a) (raise_comm st F G)

theorem bind {f : FpSt → α × FpSt} {g : α → FpSt → β × FpSt} (hf : Threads f) (hg : ∀ a, Threads (g a)) :
    Threads (fun st => g (f st).1 (f st).2) := fun st F => by
  have h := hg (f st).1 (f st).2 F
  simpa only [hf st F] using h

/-- Flags raised on a condition before the rest. -/
theorem after_raise {f : FpSt → α × FpSt} (hf : Threads f) (p : Prop) [Decidable p] (G : BitVec 6) :
    Threads (fun st => f (if p then st.raise G else st)) := fun st F => by
  by_cases h : p
  · simp only [if_pos h]
    rw [raise_comm, hf]
  · simp only [if_neg h]
    exact hf st F

/-- Flags raised on a condition. -/
theorem raisedIf (a : α) (p : Prop) [Decidable p] (G : BitVec 6) :
    Threads (fun st => (a, if p then st.raise G else st)) := after_raise (pure a) p G

theorem ite {f g : FpSt → α × FpSt} (p : Prop) [Decidable p] (hf : p → Threads f) (hg : ¬ p → Threads g) :
    Threads (fun st => if p then f st else g st) := fun st F => by
  by_cases h : p
  · simp only [if_pos h]; exact hf h st F
  · simp only [if_neg h]; exact hg h st F

end Threads

theorem threads_srand : Threads srand := fun _ _ => rfl

theorem threads_draw (rm : Nat) : Threads (fun st => if rm = 4 then srand st else (0, st)) :=
  .ite _ (fun _ => threads_srand) (fun _ => .pure 0)

theorem threads_specialPat (f : Fmt) (x : Val) (nanz : Bool) : Threads (specialPat f x nanz) := by
  cases x with
  | nan s sig => exact .ite _ (fun _ => .raised _ _) (fun _ => .raisedIf _ _ _)
  | inf s => exact .ite _ (fun _ => .pure _) (fun _ => .raised _ _)
  | fin s m e st => exact .pure _

theorem threads_enc (f : Fmt) (x : Val) (rm : Nat) (nanz : Bool) : Threads (enc f x rm nanz) := by
  cases x with
  | nan s sig => exact .bind (threads_draw rm) (fun _ => threads_specialPat f (.nan s sig) nanz)
  | inf s => exact .bind (threads_draw rm) (fun _ => threads_specialPat f (.inf s) nanz)
  | fin s m e st =>
    intro st₀ F
    simp only [enc, threads_draw rm st₀ F]
    generalize (if rm = 4 then srand st₀ else (0, st₀)) = d
    obtain ⟨r, st₁⟩ := d
    exact Threads.ite _ (fun _ => .pure _) (fun _ => .ite _ (fun _ => .raised _ _)
      (fun _ => .after_raise (.raisedIf _ _ flUf) _ flNx)) st₁ F

theorem threads_encInt (w : Nat) (signed : Bool) (x : Val) (rm : Nat) : Threads (encInt w signed x rm) := by
  intro st₀ F
  cases x <;> simp only [encInt, threads_draw rm st₀ F] <;> generalize (if rm = 4 then srand st₀ else (0, st₀)) = d <;>
    obtain ⟨r, st₁⟩ := d
  case nan s sig => exact Threads.raised _ _ st₁ F
  case inf s => exact Threads.raised _ _ st₁ F
  case fin s m e st => exact Threads.ite _ (fun _ => .raised _ _) (fun _ => .raisedIf _ _ flNx) st₁ F

theorem threads_fadd (x y : Val) (rm : Nat) : Threads (fadd x y rm) := by
  cases x with
  | nan _ _ => exact .after_raise (.pure quietNan) _ flNv
  | inf a =>
    cases y with
    | nan _ _ => exact .after_raise (.pure quietNan) _ flNv
    | inf b => exact .after_raise (.ite (a = b) (fun _ => .pure _) (fun _ => .raised _ _)) _ flNv
    | fin _ _ _ _ => exact .after_raise (.pure (Val.inf a)) _ flNv
  | fin a m e _ =>
    cases y with
    | nan _ _ => exact .after_raise (.pure quietNan) _ flNv
    | inf b => exact .after_raise (.pure (Val.inf b)) _ flNv
    | fin b n g _ => exact .after_raise (.ite _ (fun _ => .pure _) (fun _ => .pure _)) _ flNv

theorem threads_fmul (x y : Val) : Threads (fmul x y) := by
  cases x with
  | nan _ _ => exact .after_raise (.pure quietNan) _ flNv
  | inf a =>
    cases y with
    | nan _ _ => exact .after_raise (.pure quietNan) _ flNv
    | inf b => exact .after_raise (.pure (Val.inf (a ^^ b))) _ flNv
    | fin b n g st => exact .after_raise (.ite _ (fun _ => .raised _ _) (fun _ => .pure _)) _ flNv
  | fin a m e st =>
    cases y with
    | nan _ _ => exact .after_raise (.pure quietNan) _ flNv
    | inf b =>
      exact .after_raise (.ite ((Val.fin a m e st).isZero = true) (fun _ => .raised _ _) (fun _ => .pure _)) _ flNv
    | fin b n g st => exact .after_raise (.pure _) _ flNv

theorem threads_ffma (x y z : Val) (rm : Nat) : Threads (ffma x y z rm) :=
  .after_raise (.ite _ (fun _ => .raised _ _) (fun _ => .ite _ (fun _ => .pure _)
    (fun _ => .bind (threads_fmul x y) (fun p => threads_fadd p z rm)))) _ flNv

theorem threads_fdiv (x y : Val) : Threads (fdiv x y) := by
  cases x with
  | nan _ _ => exact .after_raise (.pure quietNan) _ flNv
  | inf a =>
    cases y with
    | nan _ _ => exact .after_raise (.pure quietNan) _ flNv
    | inf b => exact .after_raise (.raised _ _) _ flNv
    | fin b n g st => exact .after_raise (.pure _) _ flNv
  | fin a m e st =>
    cases y with
    | nan _ _ => exact .after_raise (.pure quietNan) _ flNv
    | inf b => exact .after_raise (.pure _) _ flNv
    | fin b n g st =>
      exact .after_raise (.ite _ (fun _ => .ite _ (fun _ => .raised _ _) (fun _ => .raised _ _))
        (fun _ => .ite _ (fun _ => .pure _) (fun _ => .pure _))) _ flNv

theorem threads_fsqrt (x : Val) : Threads (fsqrt x) := by
  cases x with
  | nan s sig => exact .raisedIf _ _ _
  | inf s => exact .ite _ (fun _ => .raised _ _) (fun _ => .pure _)
  | fin s m e st => exact .ite _ (fun _ => .pure _) (fun _ => .ite _ (fun _ => .raised _ _) (fun _ => .pure _))

theorem threads_satTo (t : BitVec 5) (x : Int) : Threads (satTo t x) :=
  .ite _ (fun _ => .raised _ _) (fun _ => .ite _ (fun _ => .raised _ _) (fun _ => .pure _))

theorem threads_intDiv (t : BitVec 5) (x y : Int) : Threads (intDiv t x y) :=
  .ite _ (fun _ => .raised _ _) (fun _ => .ite _ (fun _ => .raised _ _) (fun _ => .pure _))

theorem threads_minmaxF (t : BitVec 5) (mx : Bool) (x y : Nat) : Threads (minmaxF t mx x y) := by
  intro st F
  have hs := Threads.raisedIf () (((dec (fmtOf t.toNat) x).isSig || (dec (fmtOf t.toNat) y).isSig) = true) flNv st F
  have hr := congrArg Prod.snd hs
  dsimp only at hr
  simp only [minmaxF, hr]
  split_ifs <;> rfl

theorem threads_cmpF (cc : Nat) (x y : Val) : Threads (cmpF cc x y) := .raisedIf _ _ flNv

theorem threads_encCb4 (cb : List Nat) (x : Val) : Threads (encCb4 cb x) := by
  refine .ite (x.isNan = true) (fun _ => ?_) (fun _ => ?_)
  · cases cbNanGo cb 0 with
    | none => exact .raised _ _
    | some k => exact .pure _
  · cases cb4Go x cb 0 none with
    | none => exact .raised _ _
    | some b =>
      intro st F
      by_cases h : sameVal x b.2 = true
      · simp only [h, if_true]
      · simp only [h]
        exact Threads.raised _ flNx st F

theorem threads_mxCode (ty : Nat) (cb : List Nat) (q : Val) (rm : Nat) (nanz : Bool) :
    Threads (mxCode ty cb q rm nanz) :=
  .ite _ (fun _ => threads_encInt _ _ _ _) (fun _ => .ite _ (fun _ => threads_encCb4 _ _)
    (fun _ => threads_enc _ _ _ _))

theorem threads_cvtEl (o : VIn) (td ts : BitVec 5) (sat : Bool) (e : Nat) : Threads (cvtEl o td ts sat e) :=
  .ite _ (fun _ => .ite _ (fun _ => threads_satTo _ _) (fun _ => .pure _))
    (fun _ => .ite _ (fun _ => threads_encInt _ _ _ _) (fun _ => threads_enc _ _ _ _))

theorem threads_sumF (l : List Val) (rm : Nat) : Threads (sumF l rm) :=
  .after_raise (.after_raise (.ite _ (fun _ => .pure _) (fun _ => .ite _ (fun _ => .pure _)
    (fun _ => .ite _ (fun _ => .pure _) (fun _ => .ite _ (fun _ => .pure _) (fun _ => .pure _))))) _ flNv) _ flNv

/-! ## Elements in ascending order -/

theorem threads_elemGo {w : Nat} {act : Nat → Bool} {f : Nat → FpSt → Nat × FpSt} (hf : ∀ i, Threads (f i)) (k : Nat)
    (v : VReg) : Threads (fun st => elemGo w act f k (v, st)) := by
  induction k with
  | zero => exact .pure v
  | succ k ih =>
    refine .bind (g := fun r st => if act k then (setEl r w k (f k st).1, (f k st).2) else (r, st)) ih (fun r => ?_)
    exact .ite _ (fun _ => .bind (hf k) (fun x => .pure _)) (fun _ => .pure r)

theorem threads_cmpGo (f : FmtV) (o : VIn) (k : Nat) (p : PReg) : Threads (fun st => cmpGo f o k (p, st)) := by
  induction k with
  | zero => exact .pure p
  | succ k ih =>
    refine .bind (g := fun r st => if activeEl o.act (tyWidth f.ty) k then
      (let c := if tyF f.ty then cmpF f.c.toNat (elVal f.ty o.a k) (elVal f.ty o.b k) st
        else (cmpI f.c.toNat (elInt f.ty o.a k) (elInt f.ty o.b k), st)
      (setPBits r (k * tyWidth f.ty / 8) (tyWidth f.ty / 8) c.1, c.2)) else (r, st)) ih (fun r => ?_)
    exact .ite _ (fun _ => .bind (.ite _ (fun _ => threads_cmpF _ _ _) (fun _ => .pure _)) (fun x => .pure _))
      (fun _ => .pure r)

/-- Elements that raise no flag and draw nothing leave the flags and the generator. -/
theorem elemGo_quiet {w : Nat} {act : Nat → Bool} {f : Nat → FpSt → Nat × FpSt} (hf : ∀ i st, (f i st).2 = st) (k : Nat)
    (r : VReg × FpSt) : (elemGo w act f k r).2 = r.2 := by
  induction k with
  | zero => rfl
  | succ k ih =>
    simp only [elemGo]
    split
    · exact (hf k _).trans ih
    · exact ih

/-! ## What a vector operation does with the flags -/

/-- An operation of a vector word raises its flags on top of those that stand. -/
def Raises (g : VIn → VOut) : Prop := ∀ o F, g { o with fp := o.fp.raise F } = { g o with fp := (g o).fp.raise F }

/-- An operation that leaves the flags and the generator. -/
def Quiet (g : VIn → VOut) : Prop := ∀ o, (g o).fp = o.fp

/-- A vector word's operation raises its flags on top of those that stand, and none where the word does not name
`vflags` among what it writes. -/
structure FlagLaw (i : Instr) (g : VIn → VOut) : Prop where
  raises : Raises g
  quiet : (engWrites i).contains kflags = false → Quiet g

/-- A word that writes `vflags` whatever its type. -/
theorem FlagLaw.loud {i : Instr} {g : VIn → VOut} (hr : Raises g) (h : (engWrites i).contains kflags = true) :
    FlagLaw i g := ⟨hr, fun e => absurd (h.symm.trans e) (by decide)⟩

/-- A word whose operation raises no flag. -/
theorem FlagLaw.silent {i : Instr} {g : VIn → VOut} (hr : Raises g) (hq : Quiet g) : FlagLaw i g := ⟨hr, fun _ => hq⟩

theorem vfWrites_flags (f : FmtV) : (vfWrites f).contains kflags = true := by
  simp [vfWrites]

theorem vFlagF_int {f : FmtV} (h : (vFlagF f).contains kflags = false) : tyF f.ty = false := by
  by_contra ht
  simp [vFlagF, Bool.eq_true_of_not_eq_false ht, vfWrites] at h

theorem vFlagI_float {f : FmtV} (h : (vFlagI f).contains kflags = false) : tyF f.ty = true := by
  by_contra ht
  simp [vFlagI, Bool.eq_false_of_not_eq_true ht, vfWrites] at h

theorem elementwise_raise (o : VIn) (w : Nat) {f : Nat → FpSt → Nat × FpSt} (hf : ∀ i, Threads (f i)) (F : BitVec 6) :
    elementwise { o with fp := o.fp.raise F } w f =
      { elementwise o w f with fp := (elementwise o w f).fp.raise F } := by
  have h := threads_elemGo (w := w) (act := activeEl o.act w) hf (elCount w) o.d o.fp F
  simp only at h
  simp only [elementwise, h]

theorem elementwise_quiet (o : VIn) (w : Nat) {f : Nat → FpSt → Nat × FpSt} (hf : ∀ i st, (f i st).2 = st) :
    (elementwise o w f).fp = o.fp := elemGo_quiet hf _ _

theorem elementwise'_raise (o : VIn) (w : Nat) (f : Nat → Nat) (F : BitVec 6) :
    elementwise' { o with fp := o.fp.raise F } w f =
      { elementwise' o w f with fp := (elementwise' o w f).fp.raise F } :=
  elementwise_raise o w (fun i => .pure (f i)) F

theorem elementwise'_quiet (o : VIn) (w : Nat) (f : Nat → Nat) : (elementwise' o w f).fp = o.fp :=
  elementwise_quiet o w (fun _ _ => rfl)

/-- A word whose operation computes each element without flags. -/
theorem FlagLaw.elements {i : Instr} {g : VIn → VOut} {w : Nat} {e : VIn → Nat → Nat}
    (hg : ∀ o, g o = elementwise' o w (e o)) (he : ∀ o p, e { o with fp := p } = e o) : FlagLaw i g :=
  .silent (fun o F => by simp only [hg, he]; exact elementwise'_raise o w (e o) F)
    (fun o => by rw [hg]; exact elementwise'_quiet o w (e o))

/-! ### Arithmetic -/

theorem arith2_raise (t : BitVec 5) (o : VIn) {ff : Val → Val → FpSt → Val × FpSt} (hf : ∀ x y, Threads (ff x y))
    (fi : Int → Int → Int) (F : BitVec 6) :
    arith2 t { o with fp := o.fp.raise F } ff fi = { arith2 t o ff fi with fp := (arith2 t o ff fi).fp.raise F } := by
  refine elementwise_raise o (tyWidth t) (fun i => ?_) F
  exact .ite _ (fun _ => .bind (hf _ _) (fun _ => threads_enc _ _ _ _)) (fun _ => .pure _)

theorem arith2_quiet {t : BitVec 5} (ht : tyF t = false) (o : VIn) (ff : Val → Val → FpSt → Val × FpSt)
    (fi : Int → Int → Int) : (arith2 t o ff fi).fp = o.fp :=
  elementwise_quiet o _ (fun _ _ => by simp [ht])

theorem fused_raises (t : BitVec 5) (na nc : Bool) : Raises (fun o => fused t o na nc) := by
  intro o F
  refine elementwise_raise o (tyWidth t) (fun i => ?_) F
  exact .bind (threads_ffma _ _ _ _) (fun _ => threads_enc _ _ _ _)

theorem minmax_raises (t : BitVec 5) (mx : Bool) : Raises (fun o => minmax t o mx) := by
  intro o F
  refine elementwise_raise o (tyWidth t) (fun i => ?_) F
  exact .ite _ (fun _ => threads_minmaxF _ _ _ _) (fun _ => .pure _)

theorem minmax_quiet {t : BitVec 5} (ht : tyF t = false) (mx : Bool) : Quiet (fun o => minmax t o mx) := fun o =>
  elementwise_quiet o _ (fun _ _ => by simp [ht])

/-- A fold whose steps raise flags on top of those that stand. -/
theorem threads_foldl {α β : Type} {f : α × FpSt → β → α × FpSt} (hf : ∀ b a, Threads (fun st => f (a, st) b))
    (l : List β)
    (a : α) : Threads (fun st => l.foldl f (a, st)) := by
  induction l generalizing a with
  | nil => exact .pure a
  | cons b l ih => exact .bind (g := fun a st => l.foldl f (a, st)) (hf b a) ih

theorem redminmax_raises (f : FmtV) (mx : Bool) : Raises (fun o => redminmax f o mx) := by
  intro o F
  have hl : activeList { o with fp := o.fp.raise F } (tyWidth f.ty) = activeList o (tyWidth f.ty) := rfl
  simp only [redminmax, hl]
  cases activeList o (tyWidth f.ty) with
  | nil => rfl
  | cons i r =>
    by_cases ht : tyF f.ty = true
    · have h := Threads.after_raise (threads_foldl
        (f := fun a j => minmaxF f.ty mx a.1 (el o.a (tyWidth f.ty) j) a.2) (fun _ _ => threads_minmaxF _ _ _ _) r
        (el o.a (tyWidth f.ty) i)) ((dec (fmtOf f.ty.toNat) (el o.a (tyWidth f.ty) i)).isSig = true) flNv o.fp F
      simp only [ht, if_true]
      simp only at h
      simp only [h]
    · simp only [ht, Bool.false_eq_true, if_false]

theorem redminmax_quiet {f : FmtV} (ht : tyF f.ty = false) (mx : Bool) : Quiet (fun o => redminmax f o mx) := by
  intro o
  simp only [redminmax]
  split
  · rfl
  · simp [ht]

theorem flags_vadd (f : FmtV) : FlagLaw (.vadd f) (effVadd f) :=
  ⟨fun o F => arith2_raise f.ty o (fun x y => threads_fadd x y o.rm) _ F, fun h o => arith2_quiet (vFlagF_int h) o _ _⟩

theorem flags_vsub (f : FmtV) : FlagLaw (.vsub f) (effVsub f) :=
  ⟨fun o F => arith2_raise f.ty o (fun x y => threads_fadd x y.negate o.rm) _ F,
    fun h o => arith2_quiet (vFlagF_int h) o _ _⟩

theorem flags_vmul (f : FmtV) : FlagLaw (.vmul f) (effVmul f) :=
  ⟨fun o F => arith2_raise f.ty o threads_fmul _ F, fun h o => arith2_quiet (vFlagF_int h) o _ _⟩

theorem flags_vmulh (f : FmtV) : FlagLaw (.vmulh f) (effVmulh f) := .elements (fun _ => rfl) (fun _ _ => rfl)

theorem flags_vfma (f : FmtV) : FlagLaw (.vfma f) (effVfma f) :=
  .loud (fused_raises f.ty false false) (vfWrites_flags f)

theorem flags_vfms (f : FmtV) : FlagLaw (.vfms f) (effVfms f) :=
  .loud (fused_raises f.ty false true) (vfWrites_flags f)

theorem flags_vfnma (f : FmtV) : FlagLaw (.vfnma f) (effVfnma f) :=
  .loud (fused_raises f.ty true false) (vfWrites_flags f)

theorem flags_vdiv (f : FmtV) : FlagLaw (.vdiv f) (effVdiv f) := by
  refine .loud (fun o F => ?_) (vfWrites_flags f)
  refine elementwise_raise o (tyWidth f.ty) (fun i => ?_) F
  exact .ite _ (fun _ => .bind (threads_fdiv _ _) (fun _ => threads_enc _ _ _ _)) (fun _ => threads_intDiv _ _ _)

theorem flags_vsqrt (f : FmtV) : FlagLaw (.vsqrt f) (effVsqrt f) := by
  refine .loud (fun o F => ?_) (vfWrites_flags f)
  refine elementwise_raise o (tyWidth f.ty) (fun i => ?_) F
  exact .bind (threads_fsqrt _) (fun _ => threads_enc _ _ _ _)

theorem flags_vmin (f : FmtV) : FlagLaw (.vmin f) (effVmin f) :=
  ⟨minmax_raises f.ty false, fun h => minmax_quiet (vFlagF_int h) false⟩

theorem flags_vmax (f : FmtV) : FlagLaw (.vmax f) (effVmax f) :=
  ⟨minmax_raises f.ty true, fun h => minmax_quiet (vFlagF_int h) true⟩

theorem flags_vabs (f : FmtV) : FlagLaw (.vabs f) (effVabs f) := by
  refine ⟨fun o F => ?_, fun h o => elementwise_quiet o _ (fun _ _ => by simp [vFlagI_float h])⟩
  refine elementwise_raise o (tyWidth f.ty) (fun i => ?_) F
  exact .ite _ (fun _ => .pure _) (fun _ => threads_satTo _ _)

theorem flags_vneg (f : FmtV) : FlagLaw (.vneg f) (effVneg f) := by
  refine ⟨fun o F => ?_, fun h o => elementwise_quiet o _ (fun _ _ => by simp [vFlagI_float h])⟩
  refine elementwise_raise o (tyWidth f.ty) (fun i => ?_) F
  exact .ite _ (fun _ => .pure _) (fun _ => threads_satTo _ _)

theorem flags_vadds (f : FmtV) : FlagLaw (.vadds f) (effVadds f) := by
  refine .loud (fun o F => ?_) (vfWrites_flags f)
  exact elementwise_raise o (tyWidth f.ty) (fun i => threads_satTo _ _) F

theorem flags_vsubs (f : FmtV) : FlagLaw (.vsubs f) (effVsubs f) := by
  refine .loud (fun o F => ?_) (vfWrites_flags f)
  exact elementwise_raise o (tyWidth f.ty) (fun i => threads_satTo _ _) F

theorem flags_vshl (f : FmtV) : FlagLaw (.vshl f) (effVshl f) := .elements (fun _ => rfl) (fun _ _ => rfl)
theorem flags_vshr (f : FmtV) : FlagLaw (.vshr f) (effVshr f) := .elements (fun _ => rfl) (fun _ _ => rfl)
theorem flags_vsra (f : FmtV) : FlagLaw (.vsra f) (effVsra f) := .elements (fun _ => rfl) (fun _ _ => rfl)
theorem flags_vaddi (f : FmtVI) : FlagLaw (.vaddi f) (effVaddi f) := .elements (fun _ => rfl) (fun _ _ => rfl)

theorem cmpGo_quiet {f : FmtV} (ht : tyF f.ty = false) (o : VIn) (k : Nat) (r : PReg × FpSt) :
    (cmpGo f o k r).2 = r.2 := by
  induction k with
  | zero => rfl
  | succ k ih =>
    simp only [cmpGo, ht]
    split <;> exact ih

/-- The comparison reads nothing of the flags but through the state that it threads. -/
theorem cmpGo_fp (f : FmtV) (o : VIn) (p : FpSt) (k : Nat) (r : PReg × FpSt) :
    cmpGo f { o with fp := p } k r = cmpGo f o k r := by
  induction k with
  | zero => rfl
  | succ k ih => simp only [cmpGo, ih]

theorem flags_vcmp (f : FmtV) : FlagLaw (.vcmp f) (effVcmp f) := by
  refine ⟨fun o F => ?_, fun h o => cmpGo_quiet ?_ o _ _⟩
  · have h := threads_cmpGo f o (elCount (tyWidth f.ty)) o.pd o.fp F
    simp only at h
    simp only [effVcmp, cmpGo_fp, h]
  · by_contra ht
    simp [engWrites, Bool.eq_true_of_not_eq_false ht] at h

theorem flags_vredsum (f : FmtV) : FlagLaw (.vredsum f) (effVredsum f) := by
  constructor
  · intro o F
    by_cases ht : tyF f.ty = true
    · have h := Threads.bind (threads_sumF ((activeList o (tyWidth f.ty)).map (elVal f.ty o.a)) o.rm)
        (fun r => threads_enc (fmtOf f.ty.toNat) r o.rm o.nanz) o.fp F
      have hl : activeList { o with fp := o.fp.raise F } (tyWidth f.ty) = activeList o (tyWidth f.ty) := rfl
      simp only at h
      simp only [effVredsum, ht, hl, if_true, encEl, h]
    · simp only [effVredsum, ht]
      rfl
  · intro h o
    have ht : tyF f.ty = false := vFlagF_int h
    simp [effVredsum, ht]

theorem flags_vredmin (f : FmtV) : FlagLaw (.vredmin f) (effVredmin f) :=
  ⟨redminmax_raises f false, fun h => redminmax_quiet (vFlagF_int h) false⟩

theorem flags_vredmax (f : FmtV) : FlagLaw (.vredmax f) (effVredmax f) :=
  ⟨redminmax_raises f true, fun h => redminmax_quiet (vFlagF_int h) true⟩

/-! ### Logic, permutation and moves -/

theorem flags_vand (f : FmtV) : FlagLaw (.vand f) (effVand f) := .elements (fun _ => rfl) (fun _ _ => rfl)
theorem flags_vandNb (f : FmtV) : FlagLaw (.vandNb f) (effVandNb f) := .elements (fun _ => rfl) (fun _ _ => rfl)
theorem flags_vor (f : FmtV) : FlagLaw (.vor f) (effVor f) := .elements (fun _ => rfl) (fun _ _ => rfl)
theorem flags_vorNb (f : FmtV) : FlagLaw (.vorNb f) (effVorNb f) := .elements (fun _ => rfl) (fun _ _ => rfl)
theorem flags_vxor (f : FmtV) : FlagLaw (.vxor f) (effVxor f) := .elements (fun _ => rfl) (fun _ _ => rfl)
theorem flags_vxorNb (f : FmtV) : FlagLaw (.vxorNb f) (effVxorNb f) := .elements (fun _ => rfl) (fun _ _ => rfl)
theorem flags_vfsh (f : FmtV) : FlagLaw (.vfsh f) (effVfsh f) := .elements (fun _ => rfl) (fun _ _ => rfl)
theorem flags_vrot (f : FmtV) : FlagLaw (.vrot f) (effVrot f) := .elements (fun _ => rfl) (fun _ _ => rfl)
theorem flags_vpopc (f : FmtV) : FlagLaw (.vpopc f) (effVpopc f) := .elements (fun _ => rfl) (fun _ _ => rfl)
theorem flags_vclz (f : FmtV) : FlagLaw (.vclz f) (effVclz f) := .elements (fun _ => rfl) (fun _ _ => rfl)
theorem flags_vshuf (f : FmtV) : FlagLaw (.vshuf f) (effVshuf f) := .elements (fun _ => rfl) (fun _ _ => rfl)
theorem flags_vbcast (f : FmtV) : FlagLaw (.vbcast f) (effVbcast f) := .elements (fun _ => rfl) (fun _ _ => rfl)
theorem flags_vbcastEl (f : FmtV) : FlagLaw (.vbcastEl f) (effVbcastEl f) := .elements (fun _ => rfl) (fun _ _ => rfl)
theorem flags_vzip (f : FmtV) : FlagLaw (.vzip f) (effVzip f) := .elements (fun _ => rfl) (fun _ _ => rfl)
theorem flags_vzipHi (f : FmtV) : FlagLaw (.vzipHi f) (effVzipHi f) := .elements (fun _ => rfl) (fun _ _ => rfl)
theorem flags_vunzip (f : FmtV) : FlagLaw (.vunzip f) (effVunzip f) := .elements (fun _ => rfl) (fun _ _ => rfl)
theorem flags_vunzipOdd (f : FmtV) : FlagLaw (.vunzipOdd f) (effVunzipOdd f) :=
    .elements (fun _ => rfl) (fun _ _ => rfl)
theorem flags_vlrot (f : FmtVI) : FlagLaw (.vlrot f) (effVlrot f) := .elements (fun _ => rfl) (fun _ _ => rfl)
theorem flags_vslide (f : FmtVI) : FlagLaw (.vslide f) (effVslide f) := .elements (fun _ => rfl) (fun _ _ => rfl)

theorem flags_vsel (f : FmtV) : FlagLaw (.vsel f) (effVsel f) :=
  .silent (fun o F => elementwise'_raise { o with d := o.b } _ _ F)
    (fun o => elementwise'_quiet { o with d := o.b } _ _)

theorem flags_vfshw (f : FmtV) : FlagLaw (.vfshw f) (effVfshw f) := .silent (fun _ _ => rfl) (fun _ => rfl)
theorem flags_vmvx (f : FmtV) : FlagLaw (.vmvx f) (effVmvx f) := .silent (fun _ _ => rfl) (fun _ => rfl)
theorem flags_vmxv (f : FmtV) : FlagLaw (.vmxv f) (effVmxv f) := .silent (fun _ _ => rfl) (fun _ => rfl)
theorem flags_pand (f : FmtV) : FlagLaw (.pand f) (effPand f) := .silent (fun _ _ => rfl) (fun _ => rfl)
theorem flags_por (f : FmtV) : FlagLaw (.por f) (effPor f) := .silent (fun _ _ => rfl) (fun _ => rfl)
theorem flags_pxor (f : FmtV) : FlagLaw (.pxor f) (effPxor f) := .silent (fun _ _ => rfl) (fun _ => rfl)
theorem flags_pandn (f : FmtV) : FlagLaw (.pandn f) (effPandn f) := .silent (fun _ _ => rfl) (fun _ => rfl)
theorem flags_pcnt (f : FmtV) : FlagLaw (.pcnt f) (effPcnt f) := .silent (fun _ _ => rfl) (fun _ => rfl)
theorem flags_pset (f : FmtVI) : FlagLaw (.pset f) (effPset f) := .silent (fun _ _ => rfl) (fun _ => rfl)

/-! ### Conversion -/

theorem convert_raises (f : FmtV) (sat : Bool) : Raises (fun o => convert f o sat) := fun o F =>
  congrArg (fun r : VReg × FpSt => (⟨.vec r.1, r.2⟩ : VOut))
    (threads_elemGo (f := fun i => cvtEl o f.ty f.c sat (el o.a (tyWidth f.c) ((if tyWidth f.c < tyWidth f.ty
      then f.b.toNat * (1024 / max (tyWidth f.c) (tyWidth f.ty)) else 0) + (i - if tyWidth f.ty < tyWidth f.c
        then f.b.toNat * (1024 / max (tyWidth f.c) (tyWidth f.ty)) else 0))))
          (fun _ => threads_cvtEl _ _ _ _ _) _ _ o.fp F)

theorem flags_vcvt (f : FmtV) : FlagLaw (.vcvt f) (effVcvt f) := .loud (convert_raises f false) (vfWrites_flags f)
theorem flags_vcvtSat (f : FmtV) : FlagLaw (.vcvtSat f) (effVcvtSat f) :=
  .loud (convert_raises f true) (vfWrites_flags f)

theorem flags_vpack (f : FmtV) : FlagLaw (.vpack f) (effVpack f) := .silent (fun _ _ => rfl) (fun _ => rfl)
theorem flags_vunpk (f : FmtV) : FlagLaw (.vunpk f) (effVunpk f) := .silent (fun _ _ => rfl) (fun _ => rfl)
theorem flags_vcbl (f : FmtV) : FlagLaw (.vcbl f) (effVcbl f) := .elements (fun _ => rfl) (fun _ _ => rfl)

theorem flags_vcblEnc (f : FmtV) : FlagLaw (.vcblEnc f) (effVcblEnc f) := by
  refine .loud (fun o F => ?_) (vfWrites_flags f)
  exact congrArg (fun r : VReg × FpSt => (⟨.vec r.1, r.2⟩ : VOut)) (threads_elemGo
    (f := fun i => encCb4 (o.cb f.c.toNat) (elVal f.ty o.a (i - f.b.toNat * elCount (tyWidth f.ty))))
    (fun _ => threads_encCb4 _ _) _ _ o.fp F)

theorem flags_vqmx (f : FmtV) : FlagLaw (.vqmx f) (effVqmx f) := by
  refine .loud (fun o F => ?_) (by simp [engWrites, vfWrites])
  have hf (i : Nat) : Threads (fun st =>
      let q := fdiv (elVal 0 o.a (i - 32 * (wfld o.xc 10 8 % (elCount (tyWidth f.ty) / 32))))
        (s24dec (mxscale f.ty.toNat (o.cb (wfld o.xc 3 0)) (blockAmax o.a))) st
      mxCode f.ty.toNat (o.cb (wfld o.xc 3 0)) q.1 o.rm o.nanz q.2) :=
    .bind (g := fun q => mxCode f.ty.toNat (o.cb (wfld o.xc 3 0)) q o.rm o.nanz) (threads_fdiv _ _)
      (fun _ => threads_mxCode _ _ _ _ _)
  exact congrArg (fun r : VReg × FpSt => (⟨.vecScal r.1
      (wOf (mxscale f.ty.toNat (o.cb (wfld o.xc 3 0)) (blockAmax o.a))),
    r.2⟩ : VOut)) (threads_elemGo hf _ _ o.fp F)

theorem flags_vdqmx (f : FmtV) : FlagLaw (.vdqmx f) (effVdqmx f) := by
  refine .loud (fun o F => ?_) (vfWrites_flags f)
  refine elementwise_raise o 32 (fun i => ?_) F
  exact .bind (g := fun p => enc (fmtOf 0) p o.rm o.nanz) (threads_fmul _ _) (fun _ => threads_enc _ _ _ _)

end Sys2Proof.Machine
end

section
/-! SUPPORT. A vector word at a unit at rest: its claims, its start, what its completion lands, and what stays. -/

namespace Sys2Proof.Machine

/-! ## Spools -/

theorem spool_setSpool (c : Ctx) (k j : Nat) (p : Spool) : (c.setSpool k p).spool j = if k = j then p else c.spool j :=
  tget_tset _ _ _ _ _

/-- What a claim, a fill or a freeing of slots leaves of a descriptor: where its slots lie. -/
def Spool.samePlace (p r : Spool) : Prop := r.base = p.base ∧ r.ssz = p.ssz

theorem slotAt_samePlace {p r : Spool} (h : p.samePlace r) (i : Nat) : r.slotAt i = p.slotAt i := by
  simp only [Spool.slotAt, h.1, h.2]

theorem samePlace_trans {p q r : Spool} (h : p.samePlace q) (g : q.samePlace r) : p.samePlace r :=
  ⟨g.1.trans h.1, g.2.trans h.2⟩

/-- A changed descriptor in place of another leaves where every spool's slots lie. -/
theorem samePlace_setSpool {c : Ctx} {k : Nat} {p : Spool} (h : (c.spool k).samePlace p) (j : Nat) :
    (c.spool j).samePlace ((c.setSpool k p).spool j) := by
  rw [spool_setSpool]
  split
  · next e => exact e ▸ h
  · exact ⟨rfl, rfl⟩

/-- The claims where every change is seen at once: the slot that a destination gets, and the context after. -/
theorem spoolClaim_now (c : Ctx) (u : SpoolUse) :
    (c.spoolClaim 0 u).2 = u.dst.map (fun k => (k, (c.spool k).tl)) ∧ c.sameRegs (c.spoolClaim 0 u).1 ∧
      (c.spoolClaim 0 u).1.sem = c.sem ∧ ∀ j, (c.spool j).samePlace ((c.spoolClaim 0 u).1.spool j) := by
  have hcons (k : Nat) : (c.spool k).samePlace (Spool.stamp 0 (c.spool k) (c.spool k).claimCons.2) := ⟨rfl, rfl⟩
  have hprod (x : Ctx) (k : Nat) : (x.spool k).samePlace (Spool.stamp 0 (x.spool k) (x.spool k).claimProd.2) :=
      ⟨rfl, rfl⟩
  have htl (k j : Nat) : ((c.setSpool k (Spool.stamp 0 (c.spool k) (c.spool k).claimCons.2)).spool j).tl =
      (c.spool j).tl := by
    rw [spool_setSpool]
    split
    · next e => subst e; rfl
    · rfl
  obtain ⟨_ | k, _ | j⟩ := u
  · exact ⟨rfl, ⟨rfl, rfl, rfl, rfl, rfl, rfl, rfl, rfl, rfl, rfl, rfl⟩, rfl, fun _ => ⟨rfl, rfl⟩⟩
  · exact ⟨rfl, sameRegs_setSpool c _ _, rfl, samePlace_setSpool (hprod c j)⟩
  · exact ⟨rfl, sameRegs_setSpool c _ _, rfl, samePlace_setSpool (hcons k)⟩
  · exact ⟨congrArg (fun x => some (j, x)) (htl k j),
      sameRegs_trans (sameRegs_setSpool c _ _) (sameRegs_setSpool _ _ _), rfl,
      fun i => samePlace_trans (samePlace_setSpool (hcons k) i) (samePlace_setSpool (hprod _ j) i)⟩

/-! ## Semaphores -/

theorem semOf_setSem (c : Ctx) (k j : Nat) (v : BitVec 16) : (c.setSem k v).semOf j = if k = j then v else c.semOf j :=
  tget_tset _ _ _ _ _

theorem semOf_semTake (c : Ctx) (w k : Nat) :
    (c.semTake w).semOf k = if w = k ∧ k ≠ 0 then c.semOf k - 1 else c.semOf k := by
  unfold Ctx.semTake
  split
  · next h => rw [if_neg (by omega)]
  · next h =>
    rw [semOf_setSem]
    by_cases e : w = k
    · subst e; rw [if_pos rfl, if_pos ⟨rfl, h⟩]
    · rw [if_neg e, if_neg (fun x => e x.1)]

theorem semReady_of {c : Ctx} {w sg : BitVec 8} (h : c.semsAllow w sg) : c.semReady w.toNat = true := by
  obtain ⟨h | h, -⟩ := h
  · subst h; rfl
  · simp [Ctx.semReady, h]

/-- The signal after the take is in range, and together they move the counts. -/
theorem semAdd_after_take {c d : Ctx} {w sg : BitVec 8} (h : c.semsAllow w sg) (hd : d.sem = (c.semTake w.toNat).sem) :
    ∃ e, d.semAdd sg.toNat 1 = some e ∧ d.sameRegs e ∧ c.semsMoved e w sg := by
  have hk (k : Nat) : d.semOf k = if w.toNat = k ∧ k ≠ 0 then c.semOf k - 1 else c.semOf k := by
    rw [← semOf_semTake]
    simp only [Ctx.semOf, hd]
  obtain ⟨hw, hs⟩ := h
  have hw' : w.toNat ≠ 0 → 1 ≤ (c.semOf w.toNat).toNat := fun e => hw.resolve_left (fun z => e (by rw [z]; rfl))
  have hpred {k : Nat} (e : 1 ≤ (c.semOf k).toNat) : (c.semOf k - 1).toNat = (c.semOf k).toNat - 1 := by
    have := (c.semOf k).isLt
    rw [BitVec.toNat_sub, show (1 : BitVec 16).toNat = 1 from rfl]
    omega
  have htake (k : Nat) : (d.semOf k).toNat + (if k = w.toNat ∧ k ≠ 0 then 1 else 0) = (c.semOf k).toNat := by
    rw [hk]
    by_cases e : w.toNat = k ∧ k ≠ 0
    · obtain ⟨e1, e2⟩ := e
      subst e1
      have := hw' e2
      rw [if_pos ⟨rfl, e2⟩, if_pos ⟨rfl, e2⟩, hpred this]
      omega
    · rw [if_neg e, if_neg (fun z => e ⟨z.1.symm, z.2⟩)]
      rfl
  by_cases h0 : sg.toNat = 0
  · refine ⟨d, by simp [Ctx.semAdd, h0], ⟨rfl, rfl, rfl, rfl, rfl, rfl, rfl, rfl, rfl, rfl, rfl⟩, fun k => ?_⟩
    rw [htake, if_neg (by omega)]
    rfl
  · have hroom : (d.semOf sg.toNat).toNat + 1 ≤ 65535 := by
      have ht := htake sg.toNat
      have := (c.semOf sg.toNat).isLt
      rcases hs with hs | hs | hs
      · exact absurd (by rw [hs]; rfl) h0
      · subst hs; rw [if_pos ⟨rfl, h0⟩] at ht; omega
      · omega
    refine ⟨d.setSem sg.toNat (BitVec.ofNat 16 ((d.semOf sg.toNat).toNat + 1)), ?_, sameRegs_setSem _ _ _, fun k => ?_⟩
    · simp only [Ctx.semAdd]
      rw [if_neg (by omega), if_neg (by omega)]
    · rw [semOf_setSem, ← htake k]
      by_cases e : sg.toNat = k
      · subst e
        rw [if_pos rfl, BitVec.toNat_ofNat, Nat.mod_eq_of_lt (by omega)]
        simp only [h0, ne_eq, not_false_eq_true, and_self, if_true]
        omega
      · have e' : ¬(k = sg.toNat ∧ k ≠ 0) := fun z => e z.1.symm
        rw [if_neg e]
        simp only [e', if_false, Nat.add_zero]

/-! ## The effect of a vector word whose spools are there -/

/-- The operands as the effect sees them: the flags that it raises are collected from none. -/
def VIn.fresh (o : VIn) : VIn := { o with fp := { o.fp with fl := 0 } }

theorem spoolFault_none {s : State} {n : Nat} {sm : BitVec 2} {a d : BitVec 5} (hp : s.spoolsAllow n sm a d) :
    (s.fg n).spoolFault 0 (spoolUse sm a d) = none := by
  obtain ⟨hsrc, hdst⟩ := hp
  cases h0 : sm.getLsbD 0 <;> cases h1 : sm.getLsbD 1 <;> simp only [h0, h1, forall_const] at hsrc hdst <;>
    simp only [spoolUse, h0, h1, if_true, Bool.false_eq_true, if_false, Ctx.spoolFault]
  case false.true =>
    obtain ⟨⟨hc, hz⟩, -⟩ := hdst
    simp [hc, hz]
  case true.false =>
    obtain ⟨⟨hc, hz⟩, -, ht, -⟩ := hsrc
    simp [hc, hz, ht]
  case true.true =>
    obtain ⟨⟨hc, hz⟩, -, ht, -⟩ := hsrc
    obtain ⟨⟨hc', hz'⟩, -⟩ := hdst
    simp [hc, hz, ht, hc', hz']

theorem seen_now (p : Spool) : p.seen 0 = p := by simp [Spool.seen]

theorem spoolReady_true {s : State} {n : Nat} {sm : BitVec 2} {a d : BitVec 5} (hp : s.spoolsAllow n sm a d) :
    (s.fg n).spoolReady 0 (spoolUse sm a d) = true := by
  obtain ⟨hsrc, hdst⟩ := hp
  have hfree (hd : sm.getLsbD 1 = true) : 1 ≤ ((s.fg n).spool d.toNat).free := by
    have := (hdst hd).2
    unfold Spool.free
    omega
  cases h0 : sm.getLsbD 0 <;> cases h1 : sm.getLsbD 1 <;>
    simp only [spoolUse, h0, h1, if_true, Bool.false_eq_true, if_false, Ctx.spoolReady, seen_now]
  case false.false => rfl
  case false.true => simp [hfree h1]
  case true.false => simp [(hsrc h0).2.1]
  case true.true => simp [(hsrc h0).2.1, hfree h1]

/-- A vector word whose spool slots are there runs (R119, R287, R303). -/
theorem vxEff_run {s : State} {n : Nat} {a b c d : BitVec 5} {pe : Bool} {pg : BitVec 3} {sm : BitVec 2}
    (hl : s.lockstep = true) (hp : s.spoolsAllow n sm a d) (g : VIn → VOut) (w xa xb xc : Word) :
    let r := g (s.vxOperands n a b c d pe pg sm xa xb xc).fresh
    let cl := ((s.fg n).setSeed r.fp).spoolClaim 0 (spoolUse sm a d)
    vxEff a b c d pe pg sm g s n (s.entry n .vx w 0 xa xb xc) =
      .run (s.setFg n cl.1) { pendOf r.dst d b cl.2 with fl := r.fp.fl } := by
  have hcyc : s.spoolCycle = 0 := by simp [State.spoolCycle, hl]
  simp only [vxEff, hcyc, spoolFault_none hp, spoolReady_true hp, Bool.true_eq_false, if_false]
  have hsrc := hp.1
  cases h0 : sm.getLsbD 0
  · have hs : (s.fg n).srcSlot (spoolUse sm a d) = none := by
      simp only [Ctx.srcSlot, spoolUse, h0]
      rfl
    simp only [hs]
    cases h1 : sm.getLsbD 1 <;> cases pe <;> simp only [VIn.fresh, State.vxOperands, h0, h1] <;> rfl
  · have hs : (s.fg n).srcSlot (spoolUse sm a d) = some ((s.fg n).spool a.toNat).headAt := by
      simp only [Ctx.srcSlot, spoolUse, h0]
      rfl
    obtain ⟨-, -, -, hlease, hpo⟩ := hsrc h0
    simp only [hs, Option.bind_some, Option.any_some, hlease, hpo]
    cases h1 : sm.getLsbD 1 <;> cases pe <;> simp only [VIn.fresh, State.vxOperands, h0, h1] <;> rfl

/-! ## What a completion lands -/

/-- The context that a completed vector command of a unit at rest lands in: the result register by the kind of the
result, and the flags by whether the word names them. -/
def Ctx.landed (c : Ctx) (o : VDst) (d b : BitVec 5) (spool fl : Bool) (F : BitVec 6) : Ctx :=
  let c := if fl then c.addFlags F else c
  match o with
  | .vec v => if spool then c else c.setV d.toNat v
  | .pred p => c.setP (d.toNat % 8) p
  | .scal x => { c with regs := { c.regs.clean (poisX d.toNat) with x := xset c.regs.x d x } }
  | .vecScal v x =>
    let c := if spool then c else c.setV d.toNat v
    { c with regs := { c.regs.clean (poisX b.toNat) with x := xset c.regs.x b x } }

theorem landX_now {c : Ctx} {ord : Nat} (h : ∀ k, tget 0 c.xord k ≤ ord) (r : BitVec 5) (v : Word) :
    c.landX r v ord = { c with regs := { c.regs.clean (poisX r.toNat) with x := xset c.regs.x r v } } := by
  rw [Ctx.landX, if_neg (Nat.not_lt.2 (h _))]

/-- What `landReg` makes of the command that a result becomes. -/
theorem landReg_pendOf {c : Ctx} {ord : Nat} (h : ∀ k, tget 0 c.xord k ≤ ord) (o : VDst) (d b : BitVec 5)
    (sp : Option (Nat × Nat)) (fl : BitVec 6) (sg : BitVec 8) (ks : List Nat) (ring : Nat) :
    c.landReg { pendOf o d b sp with fl := fl, sig := sg, ord := ord, keys := ks, ring := ring, lease := 0 } =
      c.landed o d b sp.isSome (ks.contains kflags) fl := by
  have hf : ∀ k, tget 0 (if ks.contains kflags = true then c.addFlags fl else c).xord k ≤ ord := by
    split <;> exact h
  cases o with
  | vec v => rfl
  | pred p => simp only [Ctx.landReg, pendOf, Ctx.landed, BitVec.setWidth_setWidth_of_le _ (show 128 ≤ 1024 by decide),
      BitVec.setWidth_eq]
  | scal x =>
    simp only [Ctx.landReg, pendOf, Ctx.landed, BitVec.setWidth_setWidth_of_le _ (show 64 ≤ 1024 by decide),
      BitVec.setWidth_eq, BitVec.ofNat_toNat, landX_now hf]
  | vecScal v x =>
    have hv : ∀ k, tget 0 (if sp.isSome = true then (if ks.contains kflags = true then c.addFlags fl else c)
        else (if ks.contains kflags = true then c.addFlags fl else c).setV d.toNat v).xord k ≤ ord := by
      split <;> exact hf
    simp only [Ctx.landReg, pendOf, Ctx.landed, BitVec.ofNat_toNat, BitVec.setWidth_eq, landX_now hv]

theorem v_setV (c : Ctx) (r k : BitVec 5) (v : VReg) : (c.setV r.toNat v).v k = if k = r then v else c.v k := by
  refine (tget_tset _ _ _ _ _).trans ?_
  by_cases h : k = r
  · rw [if_pos h, if_pos (by rw [h])]
  · rw [if_neg h, if_neg (fun e => h (BitVec.eq_of_toNat_eq e.symm))]
    rfl

theorem p_setP (c : Ctx) (r k : Nat) (v : PReg) : (c.setP r v).p k = if k = r then v else c.p k := by
  refine (tget_tset _ _ _ _ _).trans ?_
  simp only [eq_comm (a := r), Ctx.p]

section
variable (c : Ctx) (o : VDst) (d b : BitVec 5) (spool fl : Bool) (F : BitVec 6)

theorem landed_v (k : BitVec 5) : (c.landed o d b spool fl F).v k = match o with
    | .vec v => if k = d ∧ spool = false then v else c.v k
    | .vecScal v _ => if k = d ∧ spool = false then v else c.v k
    | _ => c.v k := by
  have hf : (if fl = true then c.addFlags F else c).v k = c.v k := by split <;> rfl
  cases o with
  | vec v => cases spool <;> simp [Ctx.landed, v_setV, hf]
  | pred p => exact hf
  | scal x => exact hf
  | vecScal v x =>
    cases spool
    · simp only [and_true, ← hf]
      exact v_setV _ d k v
    · simp only [Bool.true_eq_false, and_false, if_false]
      exact hf

theorem landed_p (k : Nat) : (c.landed o d b spool fl F).p k = match o with
    | .pred v => if k = d.toNat % 8 then v else c.p k
    | _ => c.p k := by
  have hf : (if fl = true then c.addFlags F else c).p k = c.p k := by split <;> rfl
  cases o with
  | vec v => cases spool <;> exact hf
  | pred p => simp only [Ctx.landed, p_setP, hf]
  | scal x => exact hf
  | vecScal v x => cases spool <;> exact hf

theorem landed_x (k : BitVec 5) : (c.landed o d b spool fl F).x k = match o with
    | .scal v => if k = 0 then 0 else if k = d then v else c.x k
    | .vecScal _ v => if k = 0 then 0 else if k = b then v else c.x k
    | _ => c.x k := by
  have hf : (if fl = true then c.addFlags F else c).x k = c.x k := by split <;> rfl
  cases o with
  | vec v => cases spool <;> exact hf
  | pred p => exact hf
  | scal x =>
    refine (xget_xset _ d k x).trans ?_
    simp only [eq_comm (a := d), ← hf]
    rfl
  | vecScal v x =>
    refine (xget_xset _ b k x).trans ?_
    simp only [eq_comm (a := b), ← hf]
    cases spool <;> rfl

/-- What no result lands in. -/
theorem landed_rest : (c.landed o d b spool fl F).regs.tile = c.regs.tile ∧
    (c.landed o d b spool fl F).regs.tcfg = c.regs.tcfg ∧
    (c.landed o d b spool fl F).regs.cb = c.regs.cb ∧ (c.landed o d b spool fl F).tag = c.tag ∧
    (c.landed o d b spool fl F).rcd = c.rcd ∧ (c.landed o d b spool fl F).pc = c.pc ∧
    (c.landed o d b spool fl F).sem = c.sem ∧ (c.landed o d b spool fl F).csr =
      (if fl then c.addFlags F else c).csr := by
  cases o <;> cases fl <;> cases spool <;> exact ⟨rfl, rfl, rfl, rfl, rfl, rfl, rfl, rfl⟩

end

/-! ## The start of a vector word at rest -/

theorem sem_semTake {c d : Ctx} (h : d.sem = c.sem) (w : Nat) : (d.semTake w).sem = (c.semTake w).sem := by
  unfold Ctx.semTake
  split
  · exact h
  · simp only [Ctx.setSem, Ctx.semOf, h]

theorem sl_semTake (c : Ctx) (w : Nat) : (c.semTake w).sl = c.sl := by
  unfold Ctx.semTake
  split <;> rfl

theorem sem_setEng (c : Ctx) (e : Eng) (g : Engine) : (c.setEng e g).sem = c.sem := by cases e <;> rfl

/-- A context in which a word of the vector unit has taken its count and been numbered, and has started. -/
def Ctx.issued (c : Ctx) (w : Nat) (i : Instr) (ord : Nat) : Ctx :=
  let x : Ctx := { c.semTake w with ord := (c.semTake w).ord + 1 }
  (x.dropWrites (engWrites i) ord).setEng .vx { x.eng .vx with seq := (x.eng .vx).seq + 1 }

theorem issued_keeps (c : Ctx) (w : Nat) (i : Instr) (ord : Nat) :
    c.sameRegs (c.issued w i ord) ∧ (c.issued w i ord).sem = (c.semTake w).sem ∧ (c.issued w i ord).sl = c.sl :=
  ⟨sameRegs_semTake c w, rfl, sl_semTake c w⟩

theorem kind_pendOf (o : VDst) (d b : BitVec 5) (sp : Option (Nat × Nat)) : (pendOf o d b sp).kind ≠ 7 := by
  cases o <;> simp [pendOf]

end Sys2Proof.Machine
end

section
/-! SUPPORT. A vector word at a unit at rest, from its start to its result. -/

namespace Sys2Proof.Machine

/-! ## From the start to the completion -/

/-- The state in which a command of the vector unit has taken its count and its number and has started. -/
def State.begun (s : State) (n w : Nat) (i : Instr) (ord : Nat) : State :=
  ((s.modFg n (fun c => c.semTake w)).modFg n (fun c => { c with ord := c.ord + 1 })).modFg n
    (fun c => (c.dropWrites (engWrites i) ord).setEng .vx { c.eng .vx with seq := (c.eng .vx).seq + 1 })

theorem fg_begun (s : State) (n w : Nat) (i : Instr) (ord : Nat) :
    (s.begun n w i ord).fg n = (s.fg n).issued w i ord := by
  simp only [State.begun, fg_modFg_self]
  rfl

theorem onlyCtx_begun (s : State) (n w : Nat) (i : Instr) (ord : Nat) : s.onlyCtx (s.begun n w i ord) n :=
  (State.onlyCtx.modFg s n _).trans ((State.onlyCtx.modFg _ n _).trans (.modFg _ n _))

theorem mem_begun (s : State) (n w : Nat) (i : Instr) (ord : Nat) : (s.begun n w i ord).mem = s.mem := rfl
theorem poison_begun (s : State) (n w : Nat) (i : Instr) (ord : Nat) : (s.begun n w i ord).poison = s.poison := rfl

/-- A word whose effect runs at a vector unit at rest completes at once (R81, R282, R287). -/
theorem issueEng_vx {s s' : State} {n : Nat} {i : Instr} {w sg : BitVec 8} {ops : BitVec 32} {major cls lat gap : Nat}
    {xa xb xc : Word} {eff : Eff} {p : Pending} (h : s.unitsAtRest n) (hl' : s'.lockstep = true)
    (hw : encodeWord i = putWord w sg ops major cls) (hs : (s.fg n).semsAllow w sg)
    (he : eff s n (s.entry n .vx (encodeWord i) 0 xa xb xc) = .run s' p) (hk : p.kind ≠ 7) :
    s.issueEng .vx i xa xb xc lat gap eff =
      (((s'.begun n w.toNat i (s.fg n).ord).complete n .vx
        { p with sig := sg, ord := (s.fg n).ord, keys := heldKeys i, ring := 0, lease := 0 }).settle n
          .vx).retire 8 1 := by
  have hwt : wfld (s.entry n .vx (encodeWord i) 0 xa xb xc).word 63 56 = w.toNat := by
    simp only [State.entry, hw, putWord_wait]
  have hsg : BitVec.ofNat 8 (wfld (s.entry n .vx (encodeWord i) 0 xa xb xc).word 55 48) = sg := by
    simp only [State.entry, hw, putWord_sig, BitVec.ofNat_toNat, BitVec.setWidth_eq]
  have ht := tryEntry_rest (i := i) h (hwt ▸ semReady_of hs) he
  rw [hwt, hsg] at ht
  rw [issueEng_rest h (.inl rfl) ht, started_now (by exact hl') (by exact hk)]
  rfl

/-! ## The completion -/

theorem fg_spadWrite (s : State) (n off : Nat) (bs : List Byte) :
    (s.spadWrite n off bs).fg n = { s.fg n with dirty := (s.fg n).dirty ||| dirtyMask off bs.length } := by
  simp [State.spadWrite, State.markDirty]

/-- What the filling of a spool slot leaves of the registers and the counts. -/
theorem landSpool_keeps (s : State) (n : Nat) (p : Pending) :
    s.onlyCtx (s.landSpool n p) n ∧ (s.fg n).sameRegs ((s.landSpool n p).fg n) ∧
      ((s.landSpool n p).fg n).sem = (s.fg n).sem := by
  unfold State.landSpool
  split
  · exact ⟨⟨rfl, rfl, fun _ _ => rfl⟩, ⟨rfl, rfl, rfl, rfl, rfl, rfl, rfl, rfl, rfl, rfl, rfl⟩, rfl⟩
  · refine ⟨(State.onlyCtx.spadWrite s n _ _).trans (.modFg _ n _), ?_, ?_⟩ <;>
      simp only [State.putSpool, fg_modFg_self, fg_spadWrite]
    · exact sameRegs_setSpool _ _ _
    · rfl

/-- A completed command whose signal is in range, on the engine settled after it: what it landed stands, and the PC
moves past the word. -/
theorem retire_complete {s : State} {n : Nat} {e : Eng} {p : Pending} {c : Ctx} (hc : s.cur = .core n)
    (hs : (((s.landSpool n p).fg n).landReg p).semAdd p.sig.toNat 1 = some c) :
    let t := ((s.complete n e p).settle n e).retire 8 1
    s.onlyCtx t n ∧ t.mem = (s.landSpool n p).mem ∧ t.poison = (s.landSpool n p).poison ∧
      ∃ u, c.sameRegs u ∧ u.sem = c.sem ∧ t.fg n = { u with pc := c.pc + 8 } := by
  have hcomp : s.complete n e p = ((s.landSpool n p).modFg n (fun c => c.landReg p)).setFg n c := by
    simp only [State.complete, State.signal, fg_modFg_self, hs]
  have hk : s.onlyCtx ((s.complete n e p).settle n e) n := by
    rw [hcomp]
    exact (landSpool_keeps s n p).1.trans ((State.onlyCtx.modFg _ n _).trans
        ((State.onlyCtx.setFg _ n _).trans (.modFg _ n _)))
  have hcur : ((s.complete n e p).settle n e).cur = .core n := hk.cur.trans hc
  refine ⟨hk.trans (.retire hcur _ _), ?_, ?_, ?_⟩
  · rw [retire_mem, hcomp]
    rfl
  · rw [retire_poison, hcomp]
    rfl
  · rw [retire_core hcur, hcomp]
    refine ⟨c.setEng e ((c.eng e).settle (c.awaits e)), sameRegs_setEng _ _ _, sem_setEng _ _ _, ?_⟩
    simp only [State.settle, fg_tick, fg_modFg_self, fg_setFg_self]
    cases e <;> rfl

end Sys2Proof.Machine
end

section
/-! SUPPORT. What a vector word at a unit at rest comes to, and the statement about all of them. -/

namespace Sys2Proof.Machine

/-! ## From the claims to the result -/

/-- The state in which a vector word of core n whose effect left the generator and the flags as `fp` has made its
claims,
taken its count and started. -/
structure State.vxBegun (s y : State) (n : Nat) (w : BitVec 8) (fp : FpSt) : Prop where
  only : s.onlyCtx y n
  mem : y.mem = s.mem
  poison : y.poison = s.poison
  regs : ((s.fg n).setSeed fp).sameRegs (y.fg n)
  sem : (y.fg n).sem = ((s.fg n).semTake w.toNat).sem
  place : ∀ j, ((s.fg n).spool j).samePlace ((y.fg n).spool j)

theorem vxBegun_claim (s : State) (n : Nat) (w : BitVec 8) (i : Instr) (fp : FpSt) (u : SpoolUse) (ord : Nat) :
    s.vxBegun ((s.setFg n (((s.fg n).setSeed fp).spoolClaim 0 u).1).begun n w.toNat i ord) n w fp := by
  obtain ⟨-, hregs, hsem, hplace⟩ := spoolClaim_now ((s.fg n).setSeed fp) u
  generalize (((s.fg n).setSeed fp).spoolClaim 0 u).1 = x at hregs hsem hplace ⊢
  obtain ⟨iregs, isem, isl⟩ := issued_keeps x w.toNat i ord
  have hx : x.sem = (s.fg n).sem := hsem
  constructor
  case only => exact (State.onlyCtx.setFg s n x).trans (onlyCtx_begun _ n _ _ _)
  case mem => rw [mem_begun, setFg_mem]
  case poison => rw [poison_begun, setFg_poison]
  all_goals rw [fg_begun, fg_setFg_self]
  case regs => exact sameRegs_trans hregs iregs
  case sem => exact isem.trans (sem_semTake hx _)
  case place =>
    intro j
    have hj := hplace j
    simp only [Ctx.spool] at hj ⊢
    rw [isl]
    exact hj

/-- The spool slot that a vector word of core n fills. -/
def State.vxSlot (s : State) (n : Nat) (sm : BitVec 2) (d : BitVec 5) : Option (Nat × Nat) :=
  if sm.getLsbD 1 then some (d.toNat, ((s.fg n).spool d.toNat).tl) else none

theorem claim_vxSlot (s : State) (n : Nat) (fp : FpSt) (sm : BitVec 2) (a d : BitVec 5) :
    (((s.fg n).setSeed fp).spoolClaim 0 (spoolUse sm a d)).2 = s.vxSlot n sm d := by
  rw [(spoolClaim_now ((s.fg n).setSeed fp) (spoolUse sm a d)).1]
  simp only [spoolUse, State.vxSlot]
  cases sm.getLsbD 1 <;> rfl

/-- The command that a result becomes at the head of its unit. -/
def vxPending (i : Instr) (sg : BitVec 8) (ord : Nat) (d b : BitVec 5) (sp : Option (Nat × Nat)) (r : VOut) : Pending :=
  { pendOf r.dst d b sp with fl := r.fp.fl, sig := sg, ord := ord, keys := heldKeys i, ring := 0, lease := 0 }

/-- A vector word whose effect runs at a unit at rest completes from a state in which it has begun. -/
theorem issueEng_vxEff {s : State} {n : Nat} {i : Instr} {w sg : BitVec 8} {ops : BitVec 32} {major cls : Nat}
    {a b c d : BitVec 5} {pe : Bool} {pg : BitVec 3} {sm : BitVec 2} (h : s.unitsAtRest n)
    (hw : encodeWord i = putWord w sg ops major cls) (hs : (s.fg n).semsAllow w sg) (hp : s.spoolsAllow n sm a d)
    (g : VIn → VOut) (xa xb xc : Word) (lat gap : Nat) :
    let r := g (s.vxOperands n a b c d pe pg sm xa xb xc).fresh
    ∃ y, s.vxBegun y n w r.fp ∧ s.issueEng .vx i xa xb xc lat gap (vxEff a b c d pe pg sm g) =
      ((y.complete n .vx (vxPending i sg (s.fg n).ord d b (s.vxSlot n sm d) r)).settle n .vx).retire 8 1 := by
  intro r
  have hl : s.lockstep = true := h.2.1
  have he := vxEff_run (b := b) (c := c) (pe := pe) (pg := pg) hl hp g (encodeWord i) xa xb xc
  have hi := issueEng_vx (lat := lat) (gap := gap) h ((State.onlyCtx.setFg s n _).lockstep.trans hl) hw hs he
    (kind_pendOf r.dst d b _)
  rw [claim_vxSlot] at hi
  exact ⟨_, vxBegun_claim s n w i r.fp (spoolUse sm a d) (s.fg n).ord, hi⟩

theorem sem_landed (c : Ctx) (o : VDst) (d b : BitVec 5) (spool fl : Bool) (F : BitVec 6) :
    (c.landed o d b spool fl F).sem = c.sem := by
  obtain ⟨-, -, -, -, -, -, h, -⟩ := landed_rest c o d b spool fl F
  exact h

theorem pc_landed (c : Ctx) (o : VDst) (d b : BitVec 5) (spool fl : Bool) (F : BitVec 6) :
    (c.landed o d b spool fl F).pc = c.pc := by
  obtain ⟨-, -, -, -, -, h, -⟩ := landed_rest c o d b spool fl F
  exact h

/-- What the completion of a begun vector word makes of the state: its result lands on the context `z` that its start
left, and its signal leaves the context `x`. -/
theorem retire_vxPending {s y : State} {n : Nat} {i : Instr} {w sg : BitVec 8} {fp : FpSt} {sm : BitVec 2}
    {d b : BitVec 5} {r : VOut} (h : s.unitsAtRest n) (hy : s.vxBegun y n w fp) (hs : (s.fg n).semsAllow w sg) :
    let p := vxPending i sg (s.fg n).ord d b (s.vxSlot n sm d) r
    let t := ((y.complete n .vx p).settle n .vx).retire 8 1
    s.onlyCtx t n ∧ t.mem = (y.landSpool n p).mem ∧ t.poison = (y.landSpool n p).poison ∧ ∃ z x,
      ((s.fg n).setSeed fp).sameRegs z ∧
      (z.landed r.dst d b (s.vxSlot n sm d).isSome ((heldKeys i).contains kflags) r.fp.fl).sameRegs x ∧
      (s.fg n).semsMoved x w sg ∧ t.fg n = { x with pc := (s.fg n).pc + 8 } := by
  intro p t
  obtain ⟨lonly, lregs, lsem⟩ := landSpool_keeps y n p
  have hz : ((s.fg n).setSeed fp).sameRegs ((y.landSpool n p).fg n) := sameRegs_trans hy.regs lregs
  obtain ⟨hcur, -, -, -, -, -, -, -, hord, -⟩ := h
  obtain ⟨-, -, -, -, -, -, -, -, -, zpc, zord⟩ := id hz
  have hx : ∀ k, tget 0 ((y.landSpool n p).fg n).xord k ≤ (s.fg n).ord := by
    rw [zord]
    exact hord
  have hland := landReg_pendOf hx r.dst d b (s.vxSlot n sm d) r.fp.fl sg (heldKeys i) 0
  obtain ⟨e, he, eregs, emoved⟩ := semAdd_after_take hs ((sem_landed _ r.dst d b (s.vxSlot n sm d).isSome
    ((heldKeys i).contains kflags) r.fp.fl).trans (lsem.trans hy.sem))
  obtain ⟨tonly, tmem, tpoison, x, xregs, xsem, ht⟩ := retire_complete (e := .vx) (p := p) (hy.only.cur.trans hcur)
    ((congrArg (fun c => c.semAdd sg.toNat 1) hland).trans he)
  obtain ⟨-, -, -, -, -, -, -, -, -, epc, -⟩ := id eregs
  refine ⟨hy.only.trans tonly, tmem, tpoison, (y.landSpool n p).fg n, x, hz, sameRegs_trans eregs xregs, fun k => ?_,
      ?_⟩
  · rw [← emoved k]
    simp only [Ctx.semOf, xsem]
  · rw [ht, epc, pc_landed, zpc]
    rfl

end Sys2Proof.Machine
end

section
/-! SUPPORT. The registers, the flags and the memory after a vector word at a unit at rest. -/

namespace Sys2Proof.Machine

/-! ## The spool slot -/

theorem landSpool_none {s : State} {n : Nat} {p : Pending} (h : p.spool = none) : s.landSpool n p = s := by
  unfold State.landSpool
  rw [h]

theorem mem_landSpool_some {s : State} {n : Nat} {p : Pending} {k i : Nat} (h : p.spool = some (k, i)) :
    (s.landSpool n p).mem =
      memWrite s.mem (spadKey n (((s.fg n).spool k).slotAt i)) (leBytes 128 p.val.toNat) := by
  unfold State.landSpool
  rw [h]
  rfl

/-- The vector of a result, which is what goes to a spool slot. -/
def VDst.vector : VDst → Option VReg
  | .vec v => some v
  | .vecScal v _ => some v
  | _ => none

theorem vxPending_vector {i : Instr} {sg : BitVec 8} {ord : Nat} {d b : BitVec 5} {sp : Option (Nat × Nat)} {r : VOut}
    {v : VReg} (h : r.dst.vector = some v) :
    (vxPending i sg ord d b sp r).spool = sp ∧ (vxPending i sg ord d b sp r).val = v := by
  obtain ⟨dst, fp⟩ := r
  cases dst with
  | vec x => exact ⟨rfl, Option.some.inj h⟩
  | vecScal x y => exact ⟨rfl, Option.some.inj h⟩
  | pred x => cases h
  | scal x => cases h

theorem vxPending_noVector {i : Instr} {sg : BitVec 8} {ord : Nat} {d b : BitVec 5} {sp : Option (Nat × Nat)} {r : VOut}
    (h : r.dst.vector = none) : (vxPending i sg ord d b sp r).spool = none := by
  obtain ⟨dst, fp⟩ := r
  cases dst with
  | vec x => cases h
  | vecScal x y => cases h
  | pred x => rfl
  | scal x => rfl

/-- The memory after the landing: a vector in the destination's tail slot, and nothing where no slot was claimed. -/
theorem landSpool_memory {s y : State} {n : Nat} {w sg : BitVec 8} {fp : FpSt} (hy : s.vxBegun y n w fp) (i : Instr)
    (sm : BitVec 2) (d b : BitVec 5) (r : VOut) (ord : Nat) :
    let t := y.landSpool n (vxPending i sg ord d b (s.vxSlot n sm d) r)
    let slot := spadKey n ((s.fg n).spool d.toNat).tailAt
    (sm.getLsbD 1 = false → t.mem = s.mem ∧ t.poison = s.poison) ∧
      (sm.getLsbD 1 = true → s.sameMemoryOutside t slot 128 ∧
        ∀ v, r.dst.vector = some v → memNat t.mem slot 128 = v.toNat) := by
  intro t slot
  have hnone (h : (vxPending i sg ord d b (s.vxSlot n sm d) r).spool = none) : t.mem = s.mem ∧ t.poison = s.poison := by
    have : t = y := landSpool_none h
    rw [this]
    exact ⟨hy.mem, hy.poison⟩
  constructor
  · intro hsm
    have hs : s.vxSlot n sm d = none := by rw [State.vxSlot, hsm]; rfl
    apply hnone
    cases hv : r.dst.vector with
    | none => exact vxPending_noVector hv
    | some v => rw [(vxPending_vector hv).1, hs]
  · intro hsm
    have hs : s.vxSlot n sm d = some (d.toNat, ((s.fg n).spool d.toNat).tl) := by rw [State.vxSlot, hsm]; rfl
    cases hv : r.dst.vector with
    | none =>
      obtain ⟨hm, -⟩ := hnone (vxPending_noVector hv)
      exact ⟨fun b _ => by rw [hm], fun v e => by cases e⟩
    | some v =>
      obtain ⟨hsp, hval⟩ := vxPending_vector (i := i) (sg := sg) (ord := ord) (d := d) (b := b)
          (sp := s.vxSlot n sm d) hv
      have hmem : t.mem = memWrite s.mem slot (leBytes 128 v.toNat) := by
        have := mem_landSpool_some (s := y) (n := n) (hsp.trans hs)
        rw [hval, hy.mem, slotAt_samePlace (hy.place d.toNat)] at this
        exact this
      rw [State.sameMemoryOutside, hmem]
      refine ⟨fun a ha => memByte_memWrite_out _ _ _ _ (by rwa [leBytes_length]), fun x hx => ?_⟩
      rw [memNat_memWrite_leBytes, ← Option.some.inj hx, Nat.mod_eq_of_lt v.isLt]

/-! ## The flags and the generator -/

/-- The operands with the flags that stand are the fresh ones with those flags raised. -/
theorem raise_fresh (o : VIn) : o = { o.fresh with fp := o.fresh.fp.raise o.fp.fl } := by
  simp [VIn.fresh, FpSt.raise]

theorem heldKeys_flags (i : Instr) : (heldKeys i).contains kflags = (engWrites i).contains kflags := by
  rw [Bool.eq_iff_iff]
  simp [heldKeys, kflags]

/-- What an operation makes of its operands, from what it makes of them with no flags standing. -/
theorem flagLaw_result {i : Instr} {g : VIn → VOut} (hg : FlagLaw i g) (o : VIn) :
    (g o).dst = (g o.fresh).dst ∧ (g o).fp.seed = (g o.fresh).fp.seed ∧
      (g o).fp.fl = (g o.fresh).fp.fl ||| o.fp.fl ∧
      ((heldKeys i).contains kflags = false → (g o.fresh).fp.fl = 0) := by
  have h := hg.raises o.fresh o.fp.fl
  rw [← raise_fresh] at h
  rw [h, heldKeys_flags]
  exact ⟨rfl, rfl, rfl, fun e => by rw [hg.quiet e]; rfl⟩

theorem vflags_landed {c : Ctx} {o : VDst} {d b : BitVec 5} {spool fl : Bool} {F : BitVec 6}
    (hc : c.csr.vflags.toNat < 64) (hF : fl = false → F = 0) :
    (c.landed o d b spool fl F).csr.vflags = wOf (F ||| BitVec.ofNat 6 c.csr.vflags.toNat).toNat := by
  have hcsr : (c.landed o d b spool fl F).csr = (if fl then c.addFlags F else c).csr := by
    cases o <;> cases fl <;> cases spool <;> rfl
  rw [hcsr]
  cases fl with
  | true => simp only [if_true, Ctx.addFlags, BitVec.or_comm]
  | false =>
    rw [hF rfl]
    apply BitVec.eq_of_toNat_eq
    simp [wOf, Nat.mod_eq_of_lt hc]

/-! ## The whole word -/

theorem isSome_vxSlot (s : State) (n : Nat) (sm : BitVec 2) (d : BitVec 5) :
    (s.vxSlot n sm d).isSome = sm.getLsbD 1 := by
  unfold State.vxSlot
  cases sm.getLsbD 1 <;> rfl

/-- A state in which a result has landed on a context `z` that differs from the one before in its generator alone, and
which differs besides in the counts and the PC, is one in which the word is done. -/
theorem vxDone_of_landed {s t : State} {n : Nat} {w sg : BitVec 8} {sm : BitVec 2} {d b : BitVec 5} {o : VDst}
    {z x : Ctx}
    {fp : FpSt} {fl : Bool} (hz : ((s.fg n).setSeed fp).sameRegs z)
    (hx : (z.landed o d b (sm.getLsbD 1) fl fp.fl).sameRegs x) (hsems : (s.fg n).semsMoved x w sg)
    (ht : t.fg n = { x with pc := (s.fg n).pc + 8 }) (only : s.onlyCtx t n)
    (hkeep : sm.getLsbD 1 = false → t.mem = s.mem ∧ t.poison = s.poison)
    (hslot : sm.getLsbD 1 = true → s.sameMemoryOutside t (spadKey n ((s.fg n).spool d.toNat).tailAt) 128 ∧
      ∀ v, o.vector = some v → memNat t.mem (spadKey n ((s.fg n).spool d.toNat).tailAt) 128 = v.toNat) :
    s.vxDone t n w sg sm d b o := by
  obtain ⟨ltile, ltcfg, lcb, ltag, lrcd, -, -, lcsr⟩ := landed_rest z o d b (sm.getLsbD 1) fl fp.fl
  obtain ⟨zv, zp, zx, ztile, ztcfg, zcb, ztag, zrcd, zcsr, -, -⟩ := hz
  obtain ⟨xv, xp, xx, xtile, xtcfg, xcb, xtag, xrcd, xcsr, -, -⟩ := hx
  have hv (k : BitVec 5) : x.v k = (z.landed o d b (sm.getLsbD 1) fl fp.fl).v k := by simp only [Ctx.v, xv]
  have hp (k : Nat) : x.p k = (z.landed o d b (sm.getLsbD 1) fl fp.fl).p k := by simp only [Ctx.p, xp]
  have hx (k : BitVec 5) : x.x k = (z.landed o d b (sm.getLsbD 1) fl fp.fl).x k := by simp only [Ctx.x, xx]
  have vz (k : BitVec 5) : z.v k = (s.fg n).v k := congrArg (fun r => tget 0 r k.toNat) zv
  have pz (k : Nat) : z.p k = (s.fg n).p k := congrArg (fun r => tget 0 r k) zp
  have xz (k : BitVec 5) : z.x k = (s.fg n).x k := congrArg (fun r => xget r k) zx
  have mode : x.csr.vfmode = z.csr.vfmode ∧ x.csr.bfmt = z.csr.bfmt := by
    rw [xcsr, lcsr]
    cases fl <;> exact ⟨rfl, rfl⟩
  unfold State.vxDone
  rw [ht]
  refine ⟨rfl, hsems, only.sameElsewhere, xtag.trans (ltag.trans ztag), xtile.trans (ltile.trans ztile),
    xtcfg.trans (ltcfg.trans ztcfg), xcb.trans (lcb.trans zcb), xrcd.trans (lrcd.trans zrcd),
    mode.1.trans (congrArg Csrs.vfmode zcsr :), mode.2.trans (congrArg Csrs.bfmt zcsr :), fun k => ?_, fun k _ => ?_,
    fun k => ?_, fun e => sameMemory_of_eq (hkeep e).1 (hkeep e).2, fun e => ⟨(hslot e).1, ?_⟩⟩
  · rw [← vz]
    exact (hv k).trans (landed_v z o d b _ _ _ k)
  · rw [← pz]
    exact (hp k).trans (landed_p z o d b _ _ _ k)
  · rw [← xz]
    exact (hx k).trans (landed_x z o d b _ _ _ k)
  · cases o with
    | vec v => exact (hslot e).2 v rfl
    | vecScal v y => exact (hslot e).2 v rfl
    | pred v => trivial
    | scal v => trivial

/-- The flags and the generator in a context that differs from a landed one in neither. -/
theorem csr_of_landed {c z x : Ctx} {o : VDst} {d b : BitVec 5} {spool fl : Bool} {fp : FpSt}
    (hc : c.csr.vflags.toNat < 64) (hF : fl = false → fp.fl = 0) (hz : (c.setSeed fp).sameRegs z)
    (hx : (z.landed o d b spool fl fp.fl).sameRegs x) :
    x.csr.vflags = wOf (fp.fl ||| BitVec.ofNat 6 c.csr.vflags.toNat).toNat ∧ x.csr.srseed = fp.seed := by
  obtain ⟨-, -, -, -, -, -, -, -, zcsr, -, -⟩ := hz
  obtain ⟨-, -, -, -, -, -, -, -, xcsr, -, -⟩ := hx
  have hzf : z.csr.vflags = c.csr.vflags := (congrArg Csrs.vflags zcsr :)
  have hland := vflags_landed (c := z) (o := o) (d := d) (b := b) (spool := spool) (by rw [hzf]; exact hc) hF
  rw [hzf] at hland
  obtain ⟨-, -, -, -, -, -, -, lcsr⟩ := landed_rest z o d b spool fl fp.fl
  refine ⟨(congrArg Csrs.vflags xcsr).trans hland, ?_⟩
  rw [xcsr, lcsr]
  cases fl <;> exact congrArg Csrs.srseed zcsr

/-- A vector word at a unit at rest is done with what its operation makes of its operands. -/
theorem vxDone_issueEng {s : State} {n : Nat} {i : Instr} {w sg : BitVec 8} {ops : BitVec 32} {major cls : Nat}
    {a b c d : BitVec 5} {pe : Bool} {pg : BitVec 3} {sm : BitVec 2} {g : VIn → VOut} (h : s.unitsAtRest n)
    (hw : encodeWord i = putWord w sg ops major cls) (hg : FlagLaw i g) (hs : (s.fg n).semsAllow w sg)
    (hp : s.spoolsAllow n sm a d) (xa xb xc : Word) (lat gap : Nat) :
    let o := g (s.vxOperands n a b c d pe pg sm xa xb xc)
    let t := s.issueEng .vx i xa xb xc lat gap (vxEff a b c d pe pg sm g)
    s.vxDone t n w sg sm d b o.dst ∧ (t.fg n).csr.vflags = wOf o.fp.fl.toNat ∧ (t.fg n).csr.srseed = o.fp.seed := by
  intro o t
  obtain ⟨y, hy, ht⟩ := issueEng_vxEff (a := a) (b := b) (c := c) (d := d) (pe := pe) (pg := pg) (sm := sm) h hw hs hp g
    xa xb xc lat gap
  obtain ⟨odst, oseed, ofl, oquiet⟩ := flagLaw_result hg (s.vxOperands n a b c d pe pg sm xa xb xc)
  generalize g (s.vxOperands n a b c d pe pg sm xa xb xc).fresh = r at hy ht odst oseed ofl oquiet
  obtain ⟨only, tmem, tpoison, z, x, zregs, xregs, xsems, tfg⟩ := retire_vxPending (i := i) (d := d) (b := b) (sm := sm)
    (r := r) h hy hs
  obtain ⟨mnone, msome⟩ := landSpool_memory (sg := sg) hy i sm d b r (s.fg n).ord
  rw [← ht] at only tmem tpoison tfg
  rw [isSome_vxSlot] at xregs
  obtain ⟨-, -, -, -, -, -, -, -, -, hvf⟩ := h
  obtain ⟨xflags, xseed⟩ := csr_of_landed hvf oquiet zregs xregs
  have hkeep : sm.getLsbD 1 = false → t.mem = s.mem ∧ t.poison = s.poison := fun e =>
    ⟨tmem.trans (mnone e).1, tpoison.trans (mnone e).2⟩
  have hslot : sm.getLsbD 1 = true → s.sameMemoryOutside t (spadKey n ((s.fg n).spool d.toNat).tailAt) 128 ∧
      ∀ v, r.dst.vector = some v → memNat t.mem (spadKey n ((s.fg n).spool d.toNat).tailAt) 128 = v.toNat := by
    rw [State.sameMemoryOutside, tmem]
    exact msome
  refine ⟨odst ▸ vxDone_of_landed zregs xregs xsems tfg only hkeep hslot, ?_, ?_⟩
  · exact (congrArg (fun u => u.csr.vflags) tfg).trans (xflags.trans (congrArg (fun f => wOf f.toNat) ofl.symm))
  · exact (congrArg (fun u => u.csr.srseed) tfg).trans (xseed.trans oseed.symm)

end Sys2Proof.Machine
end

section
/-! SUPPORT. The statement about all vector words, from the one about each. -/

namespace Sys2Proof.Machine

/-- A Format V word runs where its meaning issues it and its operation keeps the rule for flags. -/
theorem runsV_of {s : State} {n : Nat} {i : Instr} {f : FmtV} {g : VIn → VOut} {lat gap k : Nat} (h : s.unitsAtRest n)
    (hx : exec i s = .next (s.issueV i f lat gap g)) (hw : encodeWord i = putV f k) (hg : FlagLaw i g) :
    s.runsV n i f g := fun hs hp =>
  ⟨_, hx, vxDone_issueEng h hw hg hs hp (s.xr f.a) (s.xr f.b) (s.xr f.c) (spLat f.sm lat) gap⟩

/-- The same in Format VI. -/
theorem runsVI_of {s : State} {n : Nat} {i : Instr} {f : FmtVI} {g : VIn → VOut} {lat gap k : Nat} (h : s.unitsAtRest n)
    (hx : exec i s = .next (s.issueVI i f lat gap g)) (hw : encodeWord i = putVI f k) (hg : FlagLaw i g) :
    s.runsVI n i f g := fun hs hp =>
  ⟨_, hx, vxDone_issueEng h hw hg hs hp (s.xr f.a) 0 0 (spLat f.sm lat) gap⟩

theorem flags_vlut3 (f : FmtVL) : FlagLaw (.vlut3 f) (effVlut3 f) := .silent (fun _ _ => rfl) (fun _ => rfl)

/-- `VLUT3`, which names no spool and no predicate. -/
theorem vlut3_done {s : State} {n : Nat} (h : s.unitsAtRest n) (f : FmtVL) (hs : (s.fg n).semsAllow f.wait f.sig) :
    s.vxDone (s.issueEng .vx (.vlut3 f) 0 0 0 2 1 (vlEff f (effVlut3 f))) n f.wait f.sig 0 f.d f.b
      (effVlut3 f (s.vxOperands n f.a f.b f.c f.d false 0 0 0 0 0)).dst :=
  have hp : s.spoolsAllow n 0 f.a f.d := ⟨fun e => absurd e (by decide), fun e => absurd e (by decide)⟩
  (vxDone_issueEng h (show encodeWord (.vlut3 f) = putVL f 27 from rfl) (flags_vlut3 f) hs hp 0 0 0 2 1).1

/-- Settles O33: every word's meaning issues its operation to the vector unit, and each operation keeps the rule for
flags. -/
theorem vectorWordsComplete : Obligations.VectorWordsComplete := by
  unfold Obligations.VectorWordsComplete
  refine ⟨?_, ?_, ?_⟩
  · intro s n h
    exact ⟨fun f => runsV_of h rfl rfl (flags_vadd f), fun f => runsV_of h rfl rfl (flags_vsub f),
      fun f => runsV_of h rfl rfl (flags_vmul f), fun f => runsV_of h rfl rfl (flags_vmulh f),
      fun f => runsV_of h rfl rfl (flags_vfma f), fun f => runsV_of h rfl rfl (flags_vfms f),
      fun f => runsV_of h rfl rfl (flags_vfnma f), fun f => runsV_of h rfl rfl (flags_vdiv f),
      fun f => runsV_of h rfl rfl (flags_vsqrt f), fun f => runsV_of h rfl rfl (flags_vmin f),
      fun f => runsV_of h rfl rfl (flags_vmax f), fun f => runsV_of h rfl rfl (flags_vabs f),
      fun f => runsV_of h rfl rfl (flags_vneg f), fun f => runsV_of h rfl rfl (flags_vadds f),
      fun f => runsV_of h rfl rfl (flags_vsubs f), fun f => runsV_of h rfl rfl (flags_vshl f),
      fun f => runsV_of h rfl rfl (flags_vshr f), fun f => runsV_of h rfl rfl (flags_vsra f),
      fun f => runsV_of h rfl rfl (flags_vcmp f), fun f => runsV_of h rfl rfl (flags_vredsum f),
      fun f => runsV_of h rfl rfl (flags_vredmin f), fun f => runsV_of h rfl rfl (flags_vredmax f),
      fun f => runsVI_of h rfl rfl (flags_vaddi f)⟩
  · intro s n h
    exact ⟨fun f => runsV_of h rfl rfl (flags_vand f), fun f => runsV_of h rfl rfl (flags_vandNb f),
      fun f => runsV_of h rfl rfl (flags_vor f), fun f => runsV_of h rfl rfl (flags_vorNb f),
      fun f => runsV_of h rfl rfl (flags_vxor f), fun f => runsV_of h rfl rfl (flags_vxorNb f),
      fun f => runsV_of h rfl rfl (flags_vfsh f), fun f => runsV_of h rfl rfl (flags_vfshw f),
      fun f => runsV_of h rfl rfl (flags_vrot f), fun f => runsV_of h rfl rfl (flags_vpopc f),
      fun f => runsV_of h rfl rfl (flags_vclz f), fun f => runsV_of h rfl rfl (flags_vshuf f),
      fun f => runsV_of h rfl rfl (flags_vbcast f), fun f => runsV_of h rfl rfl (flags_vbcastEl f),
      fun f => runsV_of h rfl rfl (flags_vzip f), fun f => runsV_of h rfl rfl (flags_vzipHi f),
      fun f => runsV_of h rfl rfl (flags_vunzip f), fun f => runsV_of h rfl rfl (flags_vunzipOdd f),
      fun f => runsV_of h rfl rfl (flags_vsel f), fun f => runsV_of h rfl rfl (flags_vmvx f),
      fun f => runsV_of h rfl rfl (flags_vmxv f), fun f => runsV_of h rfl rfl (flags_pand f),
      fun f => runsV_of h rfl rfl (flags_por f), fun f => runsV_of h rfl rfl (flags_pxor f),
      fun f => runsV_of h rfl rfl (flags_pandn f), fun f => runsV_of h rfl rfl (flags_pcnt f),
      fun f => runsVI_of h rfl rfl (flags_vlrot f), fun f => runsVI_of h rfl rfl (flags_vslide f),
      fun f => runsVI_of h rfl rfl (flags_pset f), fun f hs => ⟨_, rfl, vlut3_done h f hs⟩⟩
  · intro s n h
    exact ⟨fun f => runsV_of h rfl rfl (flags_vcvt f), fun f => runsV_of h rfl rfl (flags_vcvtSat f),
      fun f => runsV_of h rfl rfl (flags_vpack f), fun f => runsV_of h rfl rfl (flags_vunpk f),
      fun f => runsV_of h rfl rfl (flags_vqmx f), fun f => runsV_of h rfl rfl (flags_vdqmx f),
      fun f => runsV_of h rfl rfl (flags_vcbl f), fun f => runsV_of h rfl rfl (flags_vcblEnc f)⟩

end Sys2Proof.Machine
end

section
/-! SUPPORT. The events of the engines: held forwards, waits of heads, completions, traps, and the ends of a wait. -/

namespace Sys2Proof.Machine

/-! ## A held forward (R283) -/

theorem hasRoom_queue {c : Ctx} (h : c.hact = false) (e : Eng) : c.hasRoom e = decide ((c.eng e).q.length < 16) := by
  rw [Ctx.hasRoom, h]
  rfl

theorem holdEngine_one {c : Ctx} {h : Hold} (hany : h.any = false) (hact : c.hact = false) :
    c.holdEngine h = if (c.eng h.eng).q.length < 16 then some h.eng else none := by
  rw [Ctx.holdEngine, hany, hasRoom_queue hact]
  simp

theorem forwardHoldRelease_room {s : State} {n : Nat} {h : Hold} (hs : (s.fg n).stop = none)
    (hh : (s.fg n).hold = some h) (hlen : h.len = 8) (he : (s.fg n).holdEngine h = some h.eng) :
    exec (.forwardHoldRelease n) s = .next (((s.push n h.eng { h.entry with dl := (s.fg n).edl h.eng }).modFg n
      (fun c => { c with hold := none, pc := h.pc + 8 })).tick 1) := by
  show execForwardHoldRelease n s = _
  simp only [execForwardHoldRelease, hh, hs, he, hlen]
  rfl

theorem forwardHoldRelease_full {s : State} {n : Nat} {h : Hold} (hs : (s.fg n).stop = none)
    (hh : (s.fg n).hold = some h) (he : (s.fg n).holdEngine h = none) : exec (.forwardHoldRelease n) s = .next s := by
  show execForwardHoldRelease n s = _
  simp only [execForwardHoldRelease, hh, hs, he]
  rfl

theorem forwardHoldTimeout_full {s : State} {n : Nat} {h : Hold} (hs : (s.fg n).stop = none)
    (hh : (s.fg n).hold = some h) (hany : h.any = false) (he : (s.fg n).holdEngine h = none)
    (hd : h.d.toNat < (s.jtime (s.fg n).ident.job).toNat ∨ (s.fg n).jammed h.eng = true) :
    exec (.forwardHoldTimeout n) s = .next (s.takeTrap n 0x06 0 h.pc (s.fg n).holdReport) := by
  show execForwardHoldTimeout n s = _
  simp only [execForwardHoldTimeout, hh, hs, he, hany]
  simp [hd]

/-! ## The wait of a head (R288) -/

theorem engineWaitTimeout_head {s : State} {n : Nat} {e : Eng} {q : QEntry} {r : List QEntry} {t0 : Word}
    (hs : (s.fg n).stop = none) (hact : (s.fg n).hact = false) (hst : ((s.fg n).eng e).st ≠ .stopped)
    (hq : ((s.fg n).eng e).q = q :: r) (hw : q.wt0 = some t0) (hn : q.started = false) :
    exec (.engineWaitTimeout n e) s =
      .next (if (deadlineAt t0 q.dl).toNat < (s.jtime (s.fg n).ident.job).toNat then s.stopDeadline n e else s) := by
  have hhead : (s.fg n).copyHead e = some (false, q) := by
    simp only [Ctx.copyHead, hact, hq]
    rfl
  have hmoves : (s.fg n).copyMoves e false q = true := by simp [Ctx.copyMoves, hst, hact]
  have hexp : q.expired (s.jtime (s.fg n).ident.job) =
      decide ((deadlineAt t0 q.dl).toNat < (s.jtime (s.fg n).ident.job).toNat) := by
    simp [QEntry.expired, hw, hn]
  show execEngineWaitTimeout n e s = _
  simp only [execEngineWaitTimeout, hhead, hs, hmoves, hexp, State.expireHead]
  simp

/-! ## Engine traps (R377, R379) -/

/-- The first engine with a pending trap, where those before it in order have none. -/
theorem engines_first {α : Type} (f : Eng → Option α) {e : Eng} {x : α} (he : f e = some x)
    (hlow : ∀ e', engNum e' < engNum e → f e' = none) :
    engines.findSome? f = some x ∧ engines.find? (fun e => (f e).isSome) = some e := by
  have h0 : engNum e > 0 → f .vx = none := fun h => hlow .vx h
  have h1 : engNum e > 1 → f .mt = none := fun h => hlow .mt h
  have h2 : engNum e > 2 → f .ce0 = none := fun h => hlow .ce0 h
  cases e with
  | vx => simp [engines, he]
  | mt => simp [engines, he, h0 (by decide)]
  | ce0 => simp [engines, he, h0 (by decide), h1 (by decide)]
  | ce1 => simp [engines, he, h0 (by decide), h1 (by decide), h2 (by decide)]

theorem trapTake_engine {s : State} {n : Nat} {e : Eng} {cause : Byte} {v : Word} (hb : (s.core n).busy = true)
    (hst : (s.core n).stepping = none) (hat : (s.fg n).atBoundary = true) (hl : (s.fg n).late = [])
    (ht : ((s.fg n).eng e).trap = some (cause, v))
    (hlow : ∀ e', engNum e' < engNum e → ((s.fg n).eng e').pending = none) :
    exec (.trapTake n) s = .next ((s.modFg n (fun c => c.setEng e { c.eng e with trap := none })).takeTrap n cause.toNat
      (engUnit e) (s.fg n).pc v) := by
  have hp : ((s.fg n).eng e).pending = some (cause.toNat, v) := by simp only [Engine.pending, ht]
  have hpend : (s.fg n).pendingTrap = some (cause.toNat, engUnit e, v) := by
    rw [Ctx.pendingTrap, hl]
    exact (engines_first (fun e => ((s.fg n).eng e).pending.map (fun p => (p.1, engUnit e, p.2)))
      (congrArg (Option.map _) hp) (fun e' h => congrArg (Option.map _) (hlow e' h))).1
  have hdrop : (s.fg n).dropPending = (s.fg n).setEng e { (s.fg n).eng e with trap := none } := by
    rw [Ctx.dropPending, hl]
    simp only [(engines_first (fun e => ((s.fg n).eng e).pending) hp hlow).2, ht, Option.isSome_some, if_true]
  show execTrapTake n s = _
  have hfg : (s.core n).fg = s.fg n := rfl
  simp only [execTrapTake, hfg, hb, hst, hat, hpend, hdrop]
  rfl

/-! ## Completions (R81, R382) -/

/-- What a signal leaves of the engines. -/
theorem semAdd_engines {c d : Ctx} {k a : Nat} (h : c.semAdd k a = some d) :
    (∀ e, d.eng e = c.eng e) ∧ d.inflight = c.inflight ∧ d.vreads = c.vreads := by
  unfold Ctx.semAdd at h
  split at h
  · exact Option.some.inj h ▸ ⟨fun _ => rfl, rfl, rfl⟩
  · split at h
    · cases h
    · exact Option.some.inj h ▸ ⟨fun e => by cases e <;> rfl, rfl, rfl⟩

/-- What the landing of a vector result in a register leaves and writes. -/
theorem landReg_vec (c : Ctx) {p : Pending} (hk : p.kind = 1) (hs : p.spool = none) (hd : p.dst < 32) :
    (∀ r, (c.landReg p).v r = if r.toNat = p.dst then p.val else c.v r) ∧ (∀ r, (c.landReg p).x r = c.x r) ∧
      (c.landReg p).pc = c.pc ∧ (c.landReg p).sem = c.sem ∧ (c.landReg p).inflight = c.inflight ∧
      (c.landReg p).vreads = c.vreads ∧ ∀ e, (c.landReg p).eng e = c.eng e := by
  have hl : c.landReg p = (if p.keys.contains kflags then c.addFlags p.fl else c).setV p.dst p.val := by
    rw [Ctx.landReg, hk, hs]
    rfl
  rw [hl]
  have hdst : (BitVec.ofNat 5 p.dst).toNat = p.dst := by
    rw [BitVec.toNat_ofNat, Nat.mod_eq_of_lt hd]
  have hv (x : Ctx) (r : BitVec 5) : (x.setV p.dst p.val).v r = if r.toNat = p.dst then p.val else x.v r := by
    have := v_setV x (BitVec.ofNat 5 p.dst) r p.val
    rw [hdst] at this
    simp only [this, BitVec.toNat_eq, hdst]
  cases p.keys.contains kflags <;>
    exact ⟨hv _, fun _ => rfl, rfl, rfl, rfl, rfl, fun e => by cases e <;> rfl⟩

theorem eng_setEng_self (c : Ctx) (e : Eng) (g : Engine) : (c.setEng e g).eng e = g := by cases e <;> rfl

/-- A completed vector command whose result goes to a register, with its engine settled after it. -/
theorem settle_complete_vec {s : State} {n : Nat} (e : Eng) {p : Pending} (hk : p.kind = 1) (hsp : p.spool = none)
    (hd : p.dst < 32) (hsig : p.sig = 0 ∨ ((s.fg n).semOf p.sig.toNat).toNat < 65535) :
    let c := s.fg n
    let u := (s.complete n e p).settle n e
    (u.mem = s.mem ∧ (u.fg n).pc = c.pc ∧ (∀ r, (u.fg n).v r = if r.toNat = p.dst then p.val else c.v r) ∧
      (∀ r, (u.fg n).x r = c.x r) ∧
      ∀ k, ((u.fg n).semOf k).toNat = (c.semOf k).toNat + (if k = p.sig.toNat ∧ k ≠ 0 then 1 else 0)) ∧
      (u.fg n).inflight = c.inflight ∧ (u.fg n).eng e = (c.eng e).settle (c.awaits e) := by
  intro c u
  obtain ⟨lv, lx, lpc, lsem, linf, lrd, leng⟩ := landReg_vec c hk hsp hd
  have hallow : c.semsAllow 0 p.sig := ⟨.inl rfl, hsig.elim .inl (fun h => .inr (.inr h))⟩
  obtain ⟨d, hadd, dregs, dmoved⟩ := semAdd_after_take hallow lsem
  obtain ⟨deng, dinf, drd⟩ := semAdd_engines hadd
  obtain ⟨dv, -, dx, -, -, -, -, -, -, dpc, -⟩ := dregs
  have hcomp : s.complete n e p = (s.modFg n (fun c => c.landReg p)).setFg n d := by
    simp only [State.complete, State.signal, landSpool_none hsp, fg_modFg_self]
    rw [show (c.landReg p).semAdd p.sig.toNat 1 = some d from hadd]
  have hfg : u.fg n = d.setEng e ((d.eng e).settle (d.awaits e)) := by
    simp only [u, State.settle, hcomp, fg_modFg_self, fg_setFg_self]
  have haw : d.awaits e = c.awaits e := by simp only [Ctx.awaits, dinf, drd, linf, lrd]
  have hsame : d.sameRegs (u.fg n) := hfg ▸ sameRegs_setEng d e _
  obtain ⟨uv, -, ux, -, -, -, -, -, -, upc, -⟩ := hsame
  refine ⟨⟨?_, upc.trans (dpc.trans lpc), fun r => ?_, fun r => ?_, fun k => ?_⟩, ?_, ?_⟩
  · simp only [u, hcomp]
    rfl
  · rw [← lv r]
    simp only [Ctx.v, uv, dv]
  · rw [← lx r]
    simp only [Ctx.x, ux, dx]
  · have hk := dmoved k
    rw [if_neg (by rintro ⟨h0, h1⟩; exact h1 h0)] at hk
    rw [← hk, hfg]
    simp only [Ctx.semOf, sem_setEng, Nat.add_zero]
  · rw [hfg, ← linf, ← dinf]
    cases e <;> rfl
  · rw [hfg, eng_setEng_self, deng, leng, haw]

end Sys2Proof.Machine
end

section
/-! SUPPORT. The events that complete commands and waits, and the statement about the engines' events. -/

namespace Sys2Proof.Machine

/-! ## The completion events -/

theorem firstReady_one {p : Pending} {dc : Nat} (h : p.ready ≤ dc) : firstReady [p] dc = some p := by
  simp [firstReady, h]

theorem erase_one (p : Pending) : ([p].erase p) = [] := by simp

/-- What a completed vector command leaves and writes beside its own engine. -/
def State.landsVec (s u : State) (n : Nat) (p : Pending) : Prop :=
  let c := s.fg n
  u.mem = s.mem ∧ (u.fg n).pc = c.pc ∧ (∀ r, (u.fg n).v r = if r.toNat = p.dst then p.val else c.v r) ∧
    (∀ r, (u.fg n).x r = c.x r) ∧
    ∀ k, ((u.fg n).semOf k).toNat = (c.semOf k).toNat + (if k = p.sig.toNat ∧ k ≠ 0 then 1 else 0)

section
variable {s : State} {n : Nat} {p : Pending} (hs : (s.fg n).stop = none) (hr : p.ready ≤ s.dcyc (s.fg n))
  (hk : p.kind = 1) (hsp : p.spool = none) (hd : p.dst < 32)
  (hsig : p.sig = 0 ∨ ((s.fg n).semOf p.sig.toNat).toNat < 65535)
include hs hr hk hsp hd hsig

theorem engineCommandComplete_vec {e : Eng} (hrun : ((s.fg n).eng e).run = [p]) :
    ∃ u : State, exec (.engineCommandComplete n e) s = .next u ∧ s.landsVec u n p ∧ ((u.fg n).eng e).run = [] ∧
      (((s.fg n).eng e).st = .running → ((s.fg n).eng e).q = [] → (s.fg n).awaits e = false →
        ((u.fg n).eng e).st = .idle) := by
  have hx : exec (.engineCommandComplete n e) s =
      .next (((s.modFg n (fun c => c.setEng e { c.eng e with run := [] })).complete n e p).settle n e) := by
    show execEngineCommandComplete n e s = _
    simp only [execEngineCommandComplete, hs, hrun, firstReady_one hr, State.modFg, erase_one]
    rfl
  obtain ⟨hlands, -, heng⟩ := settle_complete_vec (s := s.modFg n (fun c => c.setEng e { c.eng e with run := [] })) e hk
    hsp hd (by rw [fg_modFg_self, Ctx.semOf, sem_setEng]; exact hsig)
  rw [fg_modFg_self] at hlands heng
  rw [eng_setEng_self, show ((s.fg n).setEng e { (s.fg n).eng e with run := [] }).awaits e = (s.fg n).awaits e by
    cases e <;> rfl] at heng
  refine ⟨_, hx, ?_, ?_, fun h1 h2 h3 => ?_⟩
  · cases e <;> exact hlands
  · rw [heng, Engine.settle]
    split <;> rfl
  · rw [heng, Engine.settle, if_pos ⟨h1, by rw [h2]; rfl, rfl, h3⟩]

theorem inFlightReinject_vec (hin : (s.fg n).inflight = [p]) (hp : (s.fg n).regs.pois.contains (5, p.ord) = false) :
    ∃ u : State, exec (.inFlightReinject n) s = .next u ∧ s.landsVec u n p ∧ (u.fg n).inflight = [] := by
  have hx : exec (.inFlightReinject n) s =
      .next (((s.setFg n { s.fg n with inflight := [] }).complete n p.eng p).settle n p.eng) := by
    show execInFlightReinject n s = _
    simp only [execInFlightReinject, hs, hin, firstReady_one hr, hp, erase_one]
    rfl
  obtain ⟨hlands, hinf, -⟩ := settle_complete_vec (s := s.setFg n { s.fg n with inflight := [] }) p.eng hk hsp hd
    (by rw [fg_setFg_self]; exact hsig)
  rw [fg_setFg_self] at hlands hinf
  exact ⟨_, hx, hlands, hinf⟩

end

/-! ## The two ends of a `SEMWAIT` (R37) -/

theorem heldRead_none {s : State} {n : Nat} (h : (s.fg n).vreads = []) : s.heldRead n = none := by
  simp [State.heldRead, h]

theorem waiting_core {s : State} {n : Nat} {w : Wait} {x : Test × Expiry} (hb : (s.core n).busy = true)
    (hs : (s.fg n).stop = none) (hw : (s.fg n).wait = some w) (hi : coreWait w.instr = some x) :
    s.waiting (.core n) = some (n, w, x.1, x.2) := by
  simp [State.waiting, hb, hs, hw, hi]

/-- Whether a wait that no resume has granted a test may still be tested goes by its D. -/
theorem mayTest_core {s : State} {n : Nat} {w : Wait} (h : s.cur = .core n) (hf : w.fresh = false) :
    s.mayTest w = decide ((s.jtime (s.fg n).ident.job).toNat ≤ w.d.toNat) := by
  simp [State.mayTest, hf, State.agentTime, h]

/-- The same state with the turn given to an agent. -/
def State.giveTo (s : State) (a : Agent) : State := { s with cur := a }

theorem asAgent_eq (s : State) (a : Agent) (f : State → State) : s.asAgent a f = (f (s.giveTo a)).giveTo s.cur := rfl

theorem waitConditionMet_core {s : State} {n : Nat} {w : Wait} {x : Test × Expiry} {t : State}
    (hr : (s.fg n).vreads = []) (hw : s.waiting (.core n) = some (n, w, x.1, x.2)) (hf : w.fresh = false)
    (hd : (s.jtime (s.fg n).ident.job).toNat ≤ w.d.toNat) (ht : x.1 (s.giveTo (.core n)) n w = some t) :
    exec (.waitConditionMet (.core n)) s = .next (t.giveTo s.cur) := by
  have hm : State.mayTest (s.giveTo (.core n)) w = true :=
      (mayTest_core (s := s.giveTo (.core n)) rfl hf).trans (decide_eq_true hd)
  show execWaitConditionMet (.core n) s = _
  simp only [execWaitConditionMet, heldRead_none hr, hw, asAgent_eq, hm, ht]
  rfl

theorem deadlineExpiry_core {s : State} {n : Nat} {w : Wait} {x : Test × Expiry}
    (hw : s.waiting (.core n) = some (n, w, x.1, x.2)) (hf : w.fresh = false)
    (hd : w.d.toNat < (s.jtime (s.fg n).ident.job).toNat) :
    exec (.deadlineExpiry (.core n)) s = .next ((x.2 (s.giveTo (.core n)) n w).giveTo s.cur) := by
  have hm : State.mayTest (s.giveTo (.core n)) w = false :=
    (mayTest_core (s := s.giveTo (.core n)) rfl hf).trans (decide_eq_false (Nat.not_le.2 hd))
  show execDeadlineExpiry (.core n) s = _
  simp only [execDeadlineExpiry, hw, asAgent_eq, hm]
  rfl

/-- With no limit for timeouts and nothing unfinished before it, a completion only counts. -/
theorem doneD_plain {s : State} {n : Nat} {f : FmtD} (w : Wait) {code detail : Nat} (hx : f.x = false)
    (he : (s.fg n).csr.dlesc = 0) (hb : (s.fg n).bearsBefore (s.fg n).ord = false) (hl : (s.fg n).dlWait = []) :
    ∃ k prev, s.doneD n f w code detail =
      s.statusDone n w.pc (((s.fg n).setX f.st (statusWord code detail)).counted k prev) := by
  have hf := countD_first (c := (s.fg n).setX f.st (statusWord code detail)) f.x w.pc code hb hl
  by_cases h1 : code = 1
  · subst h1
    rw [countOne_below (.inl (by rw [show ((s.fg n).setX f.st (statusWord 1 detail)).csr.dlesc = 0 from he]; rfl)),
      hx] at hf
    exact ⟨_, _, (finishD_eq (by rw [hx]; exact hf)).trans (if_neg (by simp))⟩
  · rw [countOne_other _ h1] at hf
    exact ⟨_, _, (finishD_eq hf).trans (if_neg (by simp [h1]))⟩

theorem semTake_pos (c : Ctx) {k : Nat} (h : k ≠ 0) : c.semTake k = c.setSem k (c.semOf k - 1) := if_neg h

theorem semwaitTest_there {s : State} {n : Nat} {f : FmtD} (w : Wait) (hk : semOfD f ≠ 0)
    (hc : 1 ≤ ((s.fg n).semOf (semOfD f)).toNat) :
    semwaitTest f s n w = some ((s.modFg n (fun c => (c.semTake (semOfD f)).setX f.d
      (wOf (((s.fg n).semOf (semOfD f)).toNat - 1)))).doneD n f w 0 0) := by
  unfold semwaitTest
  rw [if_neg hk, if_pos hc]
  rfl

/-- What a `SEMWAIT` that has ended leaves. -/
def State.semwaitEnds (s u : State) (n : Nat) (w : Wait) (f : FmtD) (code : Word) : Prop :=
  (u.fg n).wait = none ∧ (u.fg n).pc = w.pc + 8 ∧ u.mem = s.mem ∧ u.cur = s.cur ∧ (f.st ≠ 0 → (u.fg n).x f.st = code)

/-- A wait that ends with its status counted, from a state `y` of the same memory. -/
theorem semwaitEnds_statusDone {s y : State} {n : Nat} {w : Wait} {f : FmtD} {code k : Nat} {prev : Option Word}
    (hm : y.mem = s.mem) : s.semwaitEnds
      ((y.statusDone n w.pc (((y.fg n).setX f.st (statusWord code 0)).counted k prev)).giveTo s.cur) n w f
      (statusWord code 0) := by
  have hfg := fg_statusDone y n w.pc (((y.fg n).setX f.st (statusWord code 0)).counted k prev)
  refine ⟨congrArg Ctx.wait hfg, congrArg Ctx.pc hfg, hm, rfl, fun h => (congrArg (fun c => Ctx.x c f.st) hfg).trans ?_⟩
  exact (x_setX (y.fg n) f.st f.st _).trans ((if_neg h).trans (if_pos rfl))

/-- What such an end leaves of the counts and of the other registers. -/
theorem statusDone_keeps (y : State) (n : Nat) (pc v : Word) (st : BitVec 5) (k : Nat) (prev : Option Word)
    (a : Agent) :
    let u := (y.statusDone n pc (((y.fg n).setX st v).counted k prev)).giveTo a
    (u.fg n).sem = (y.fg n).sem ∧ ∀ r, r ≠ 0 → r ≠ st → (u.fg n).x r = (y.fg n).x r := by
  have hfg := fg_statusDone y n pc (((y.fg n).setX st v).counted k prev)
  refine ⟨(congrArg Ctx.sem hfg :), fun r h0 h1 => (congrArg (fun c => Ctx.x c r) hfg).trans ?_⟩
  exact (x_setX (y.fg n) st r v).trans ((if_neg h0).trans (if_neg (Ne.symm h1)))

section
variable {s : State} {n : Nat} {w : Wait} {f : FmtD} (hs : (s.fg n).stop = none) (hw : (s.fg n).wait = some w)
  (hi : w.instr = .semwait f) (hf : w.fresh = false) (hb : (s.core n).busy = true) (hx : f.x = false)
  (he : (s.fg n).csr.dlesc = 0) (ho : (s.fg n).bearsBefore (s.fg n).ord = false) (hl : (s.fg n).dlWait = [])
include hs hw hi hf hb hx he ho hl

theorem semwait_late (hd : w.d.toNat < (s.jtime (s.fg n).ident.job).toNat) :
    ∃ u : State, exec (.deadlineExpiry (.core n)) s = .next u ∧ s.semwaitEnds u n w f 1 ∧
      (u.fg n).sem = (s.fg n).sem := by
  have hwait := waiting_core (x := (semwaitTest f, lateD f)) hb hs hw (by rw [hi]; rfl)
  obtain ⟨k, prev, hdone⟩ := doneD_plain (s := s.giveTo (.core n)) (f := f) w (code := 1) (detail := 0) hx he ho hl
  exact ⟨_, (deadlineExpiry_core hwait hf hd).trans
      (congrArg (fun u => Host.Outcome.next (State.giveTo u s.cur)) hdone),
    semwaitEnds_statusDone rfl, (statusDone_keeps _ _ _ _ _ _ _ _).1⟩

theorem semwait_met (hr : (s.fg n).vreads = []) (hd : (s.jtime (s.fg n).ident.job).toNat ≤ w.d.toNat)
    (hk : semOfD f ≠ 0) (hc : 1 ≤ ((s.fg n).semOf (semOfD f)).toNat) :
    ∃ u : State, exec (.waitConditionMet (.core n)) s = .next u ∧ s.semwaitEnds u n w f 0 ∧
      (u.fg n).semOf (semOfD f) = (s.fg n).semOf (semOfD f) - 1 ∧
      (f.d ≠ 0 → f.d ≠ f.st → ((u.fg n).x f.d).toNat = ((s.fg n).semOf (semOfD f)).toNat - 1) := by
  have hwait := waiting_core (x := (semwaitTest f, lateD f)) hb hs hw (by rw [hi]; rfl)
  have htest := semwaitTest_there (s := s.giveTo (.core n)) w hk hc
  have hy : ((s.giveTo (.core n)).modFg n (fun c => (c.semTake (semOfD f)).setX f.d
      (wOf (((s.fg n).semOf (semOfD f)).toNat - 1)))).fg n =
      ((s.fg n).setSem (semOfD f) ((s.fg n).semOf (semOfD f) - 1)).setX f.d
        (wOf (((s.fg n).semOf (semOfD f)).toNat - 1)) := by
    rw [fg_modFg_self, semTake_pos _ hk]
    rfl
  obtain ⟨k, prev, hdone⟩ := doneD_plain (f := f) w (code := 0) (detail := 0) hx
    ((congrArg (fun c => c.csr.dlesc) hy).trans he) ((congrArg (fun c => c.bearsBefore c.ord) hy).trans ho)
    ((congrArg Ctx.dlWait hy).trans hl)
  obtain ⟨usem, ux⟩ := statusDone_keeps ((s.giveTo (.core n)).modFg n (fun c => (c.semTake (semOfD f)).setX f.d
    (wOf (((s.fg n).semOf (semOfD f)).toNat - 1)))) n w.pc (statusWord 0 0) f.st k prev s.cur
  refine ⟨_, waitConditionMet_core (x := (semwaitTest f, lateD f)) hr hwait hf hd (htest.trans (congrArg some hdone)),
    semwaitEnds_statusDone rfl, ?_, fun h0 h1 => ?_⟩
  · rw [Ctx.semOf, usem, hy]
    exact (semOf_setSem (s.fg n) _ _ _).trans (if_pos rfl)
  · rw [ux _ h0 h1, hy, x_setX, if_neg h0, if_pos rfl, wOf, BitVec.toNat_ofNat, Nat.mod_eq_of_lt]
    have := ((s.fg n).semOf (semOfD f)).isLt
    omega

end

/-- Settles O44: each event by the rule that its meaning comes to under the event's conditions. -/
theorem engineEventsComplete : Obligations.EngineEventsComplete := by
  unfold Obligations.EngineEventsComplete
  intro s n hs c
  refine ⟨fun h hh hany hlen hact => ?_, fun e q r t0 hact hst hq hw hn => ?_, fun e p hr hk hsp hd hsig => ?_,
    fun e cause v hb hst hat hl ht hlow => trapTake_engine hb hst hat hl ht hlow, ?_⟩
  · have he : c.holdEngine h = if (c.eng h.eng).q.length < 16 then some h.eng else none := holdEngine_one hany hact
    refine ⟨fun hroom => forwardHoldRelease_room hs hh hlen (he.trans (if_pos hroom)), fun hfull hor => ?_, fun hfull =>
      forwardHoldRelease_full hs hh (he.trans (if_neg (Nat.not_lt.2 hfull)))⟩
    refine forwardHoldTimeout_full hs hh hany (he.trans (if_neg (Nat.not_lt.2 hfull))) (hor.imp_right fun hst => ?_)
    simp [Ctx.jammed, hasRoom_queue hact, hact, hst, c, hfull]
  · have hx := engineWaitTimeout_head hs hact hst hq hw hn
    exact ⟨fun hlt => hx.trans (by rw [if_pos hlt]; rfl), fun hle => hx.trans (by rw [if_neg (Nat.not_lt.2 hle)])⟩
  · exact ⟨fun hrun => engineCommandComplete_vec hs hr hk hsp hd hsig hrun,
      fun hin hp => inFlightReinject_vec hs hr hk hsp hd hsig hin hp⟩
  · intro w f hw hi hf hvr hb hx he ho hl k ends hk
    exact ⟨fun hd hc => semwait_met hs hw hi hf hb hx he ho hl hvr hd hk hc,
      fun hd => semwait_late hs hw hi hf hb hx he ho hl hd⟩

end Sys2Proof.Machine
end

section
/-! SUPPORT. The fetch of an instruction through the page that the core's micro-TLB holds first. -/

namespace Sys2Proof.Machine

/-! ## The page of a range of addresses (R237, R238) -/

/-- The range of `len` addresses from x lies in the paged region and in the page that core n's micro-TLB holds first. -/
structure State.onPage (s : State) (n : Nat) (t : Tlb) (x len : Nat) : Prop where
  head : (s.core n).utlb.head? = some t
  asid : t.asid = s.asidOf (s.fg n).ident.job
  low : 0x40000000 ≤ x
  base : t.va ≤ x
  fits : x + len ≤ t.va + t.size
  high : x + len ≤ 2 ^ 48

/-- What a fetch keeps: everything but the cluster's TLB, and of core n everything but its instruction cache. -/
structure State.fetchKeeps (s u : State) (n : Nat) : Prop where
  rest : { u with cores := s.cores, ctlb := s.ctlb } = s
  core : ∃ ic, u.core n = { s.core n with icache := ic }

namespace State.fetchKeeps

variable {s t u : State} {n : Nat}

theorem refl (s : State) (n : Nat) : s.fetchKeeps s n := ⟨rfl, _, rfl⟩

theorem trans (h : s.fetchKeeps t n) (g : t.fetchKeeps u n) : s.fetchKeeps u n where
  rest := by
    obtain ⟨hr, -⟩ := h
    obtain ⟨gr, -⟩ := g
    rw [← hr, ← gr]
  core := by
    obtain ⟨-, i, hi⟩ := h
    obtain ⟨-, j, hj⟩ := g
    exact ⟨j, by rw [hj, hi]⟩

theorem fg (h : s.fetchKeeps u n) : u.fg n = s.fg n := by
  obtain ⟨-, ic, hc⟩ := h
  rw [State.fg, hc]
  rfl

theorem utlb (h : s.fetchKeeps u n) : (u.core n).utlb = (s.core n).utlb := by
  obtain ⟨-, ic, hc⟩ := h
  rw [hc]

theorem mem (h : s.fetchKeeps u n) : u.mem = s.mem := (congrArg State.mem h.rest :)
theorem poison (h : s.fetchKeeps u n) : u.poison = s.poison := (congrArg State.poison h.rest :)
theorem mat (h : s.fetchKeeps u n) : u.mat = s.mat := (congrArg State.mat h.rest :)
theorem pkgid (h : s.fetchKeeps u n) : u.pkgid = s.pkgid := (congrArg State.pkgid h.rest :)
theorem now (h : s.fetchKeeps u n) : u.now = s.now := (congrArg State.now h.rest :)

theorem onPage {t : Tlb} {x len : Nat} (h : s.fetchKeeps u n) (p : s.onPage n t x len) : u.onPage n t x len where
  head := by rw [h.utlb]; exact p.head
  asid := by
    rw [h.fg, State.asidOf, State.jt, State.num, h.mem]
    exact p.asid
  low := p.low
  base := p.base
  fits := p.fits
  high := p.high

/-- A byte that the instruction cache keeps. -/
theorem keepByte (s : State) (n pa : Nat) (b : Byte) : s.fetchKeeps (s.setCore n ((s.core n).keepByte pa b)) n :=
  ⟨rfl, _, core_setCore_self _ _ _⟩

end State.fetchKeeps

theorem utlb_contains {l : List Tlb} {t : Tlb} (h : l.head? = some t) : l.contains t = true := by
  cases l with
  | nil => cases h
  | cons a r => simp [Option.some.inj h]

section
variable {s : State} {n : Nat} {t : Tlb} {x len : Nat} (p : s.onPage n t x len)
include p

/-- A translation that the micro-TLB holds is kept where it is. -/
theorem core_keepTlb : (s.keepTlb n t).core n = s.core n := by
  have hk : s.keepTlb n t = { s.setCore n (s.core n) with ctlb := (s.keepTlb n t).ctlb } := by
    simp only [State.keepTlb, utlb_contains p.head, if_true]
  rw [hk]
  exact core_setCore_self _ _ _

theorem fetchKeeps_keepTlb : s.fetchKeeps (s.keepTlb n t) n := ⟨rfl, _, core_keepTlb p⟩

theorem zoneOf_onPage {y : Nat} (h0 : x ≤ y) (h1 : y < x + len) : zoneOf y = .paged := by
  obtain ⟨-, -, hl, -, -, hh⟩ := p
  unfold zoneOf
  rw [if_neg (by omega)]
  simp only [Int.toNat_natCast]
  rw [if_neg (by omega), if_neg (by omega), if_neg (by omega), if_neg (by omega), if_neg (by omega)]

/-- The page answers for each address of the range. -/
theorem translate_onPage {y : Nat} (h0 : x ≤ y) (h1 : y < x + len) (need : Nat) :
    s.translate n (s.fg n).ident.job y need = (useTlb t y need, s.keepTlb n t) := by
  obtain ⟨hd, ha, -, hb, hf, -⟩ := p
  have hh : t.hits (s.asidOf (s.fg n).ident.job) y = true := by
    simp only [Tlb.hits, decide_eq_true_eq]
    omega
  have hc : s.cached n (s.asidOf (s.fg n).ident.job) y = some t := by
    unfold State.cached
    cases hu : (s.core n).utlb with
    | nil => rw [hu] at hd; cases hd
    | cons a r =>
      rw [hu] at hd
      have : a = t := Option.some.inj hd
      simp only [this, List.find?_cons, hh]
  rw [State.translate, hc]

theorem onPage_sub {y k : Nat} (h0 : x ≤ y) (h1 : y + k ≤ x + len) : s.onPage n t y k := by
  obtain ⟨hd, ha, hl, hb, hf, hh⟩ := p
  exact ⟨hd, ha, by omega, by omega, by omega, by omega⟩

end

/-! ## Bytes that the instruction cache holds -/

/-- What the instruction cache holds of an address through a page. -/
def Core.icThrough (k : Core) (t : Tlb) (y : Nat) : Option Byte :=
  match useTlb t y needX with
  | .ok pa _ => k.icByte pa
  | _ => none

theorem icAt_onPage {s : State} {n : Nat} {t : Tlb} {x len : Nat} (p : s.onPage n t x len) {va : Word}
    (h0 : x ≤ va.toNat)
    (h1 : va.toNat < x + len) : s.icAt n va = (s.core n).icThrough t va.toNat := by
  rw [State.icAt, if_neg (not_not_intro (zoneOf_onPage p h0 h1)), translate_onPage p h0 h1]
  rfl

/-- A byte that the cache holds is fetched from it. -/
theorem fetchByte_held {s : State} {n : Nat} {t : Tlb} {x len : Nat} (p : s.onPage n t x len) {va : Word} {b : Byte}
    (h0 : x ≤ va.toNat) (h1 : va.toNat < x + len) (h : (s.core n).icThrough t va.toNat = some b) :
    s.fetchByte n va = .ok [b] (s.keepTlb n t) := by
  rw [State.fetchByte, if_neg (not_not_intro (zoneOf_onPage p h0 h1)), translate_onPage p h0 h1]
  unfold Core.icThrough at h
  cases hu : useTlb t va.toNat needX with
  | ok pa q =>
    rw [hu] at h
    have hb : ((s.keepTlb n t).core n).icByte pa = some b := by rw [core_keepTlb p]; exact h
    simp only [hb]
  | fault => rw [hu] at h; cases h
  | poisoned a => rw [hu] at h; cases h

theorem toNat_next {va : Word} (h : va.toNat < 2 ^ 48) : (va + 1).toNat = va.toNat + 1 := by
  rw [BitVec.toNat_add, show (1 : Word).toNat = 1 from rfl, Nat.mod_eq_of_lt (by omega)]

/-- The bytes that the cache holds are the same where only the cluster's TLB differs. -/
theorem icBytes_congr {s u : State} {n : Nat} {t : Tlb} (hu : s.fetchKeeps u n) (hk : u.core n = s.core n) (k : Nat) :
    ∀ va : Word, s.onPage n t va.toNat k → u.icBytes n va k = s.icBytes n va k := by
  induction k with
  | zero => exact fun _ _ => rfl
  | succ m ih =>
    intro va p
    have hn := toNat_next (va := va) (by have := p.high; omega)
    have hrec := ih (va + 1) (onPage_sub p (by omega) (by omega))
    rw [State.icBytes, State.icBytes, hrec, icAt_onPage p (by omega) (by omega),
      icAt_onPage (hu.onPage p) (by omega) (by omega), hk]

/-- Bytes that the cache holds are fetched from it, and it stays as it is. -/
theorem fetchN_held {n : Nat} {t : Tlb} (k : Nat) : ∀ (s : State) (va : Word) (bs : List Byte),
    s.onPage n t va.toNat k →
    s.icBytes n va k = some bs → ∃ u, s.fetchN n va k = .ok bs u ∧ s.fetchKeeps u n ∧ u.core n = s.core n := by
  induction k with
  | zero =>
    intro s va bs _ h
    exact ⟨s, by rw [State.fetchN, Option.some.inj h], .refl s n, rfl⟩
  | succ m ih =>
    intro s va bs p h
    have hn := toNat_next (va := va) (by have := p.high; omega)
    have p' : s.onPage n t (va + 1).toNat m := onPage_sub p (by omega) (by omega)
    rw [State.icBytes, icAt_onPage p (by omega) (by omega)] at h
    cases hb : (s.core n).icThrough t va.toNat with
    | none => rw [hb] at h; cases h
    | some b =>
      rw [hb] at h
      obtain ⟨r, hr, hbs⟩ := Option.map_eq_some_iff.1 h
      have hkeep := fetchKeeps_keepTlb p
      have hcore := core_keepTlb p
      obtain ⟨u, hf, hu, hc⟩ := ih (s.keepTlb n t) (va + 1) r (hkeep.onPage p')
        ((icBytes_congr hkeep hcore m _ p').trans hr)
      refine ⟨u, ?_, hkeep.trans hu, hc.trans hcore⟩
      simp only [State.fetchN, fetchByte_held p (by omega) (by omega) hb, hf, ← hbs]
      rfl

/-! ## The parts of an instruction -/

theorem fetchLen_bounds (bs : List Byte) :
    2 ≤ fetchLen bs ∧ (fetchLen bs ≤ 8 ∨ fetchLen bs = 64 ∧ bs.length = 8) := by
  have hl : lenOf (leTake bs 2) = 2 ∨ lenOf (leTake bs 2) = 4 ∨ lenOf (leTake bs 2) = 6 ∨ lenOf (leTake bs 2) = 8 ∨
      lenOf (leTake bs 2) = 10 := by
    unfold lenOf
    split_ifs <;> simp
  simp only [fetchLen]
  split_ifs with h1 h2
  · omega
  · omega
  · omega

theorem icBytes_length {s : State} {n k : Nat} : ∀ {va : Word} {bs : List Byte}, s.icBytes n va k = some bs →
    bs.length = k := by
  induction k with
  | zero => exact fun h => Option.some.inj h ▸ rfl
  | succ m ih =>
    intro va bs h
    rw [State.icBytes] at h
    split at h
    · cases h
    · obtain ⟨r, hr, hbs⟩ := Option.map_eq_some_iff.1 h
      rw [← hbs, List.length_cons, ih hr]

/-- An instruction that the cache holds, by its parts: halfword, word, packet. -/
theorem fetched_iff (s : State) (n : Nat) (bs : List Byte) : s.fetched n = some bs ↔ ∃ h r q,
    s.icBytes n (s.fg n).pc 2 = some h ∧ s.icBytes n ((s.fg n).pc + 2) (fetchLen h - 2) = some r ∧
    s.icBytes n ((s.fg n).pc + 8) (fetchLen (h ++ r) - (h ++ r).length) = some q ∧ h ++ r ++ q = bs := by
  simp only [State.fetched]
  constructor
  · intro e
    split at e
    · cases e
    next h hh =>
      split at e
      · cases e
      next r hr =>
        split at e
        · cases e
        next q hq => exact ⟨h, r, q, hh, hr, hq, Option.some.inj e⟩
  · rintro ⟨h, r, q, hh, hr, hq, rfl⟩
    simp only [hh, hr, hq]

/-- An instruction that is fetched, by its parts. -/
theorem fetchAt_parts {s s1 s2 s3 : State} {n : Nat} {va : Word} {h r q : List Byte} (hh : s.fetchN n va 2 = .ok h s1)
    (hr : s1.fetchN n (va + 2) (fetchLen h - 2) = .ok r s2)
    (hq : s2.fetchN n (va + 8) (fetchLen (h ++ r) - (h ++ r).length) = .ok q s3) :
    s.fetchAt n va = .ok (h ++ r ++ q) s3 := by
  simp only [State.fetchAt, hh, hr, hq]

theorem fetchLen_append {h r : List Byte} (hh : h.length = 2) (hl : (h ++ r).length ≠ 8) :
    fetchLen (h ++ r) = fetchLen h := by
  have ht : leTake (h ++ r) 2 = leTake h 2 := by
    obtain ⟨a, b, rfl⟩ := List.length_eq_two.1 hh
    simp [leTake]
  simp only [fetchLen, ht, hl, hh]
  simp

/-- Where the parts of an instruction lie, from its first address. -/
theorem parts_within {h r : List Byte} (hh : h.length = 2) (hr : r.length = fetchLen h - 2) :
    (h ++ r).length ≤ 8 ∧ 8 + (fetchLen (h ++ r) - (h ++ r).length) ≤ 64 ∧
      (fetchLen (h ++ r) - (h ++ r).length = 0 ∨ (h ++ r).length = 8) := by
  have h1 := fetchLen_bounds h
  have h2 := fetchLen_bounds (h ++ r)
  have hl : (h ++ r).length = fetchLen h := by
    rw [List.length_append]
    omega
  by_cases h8 : (h ++ r).length = 8
  · omega
  · have := fetchLen_append hh h8
    omega

theorem toNat_later {va : Word} {k : Nat} (h : va.toNat + 64 ≤ 2 ^ 48) (hk : k ≤ 64) :
    (va + BitVec.ofNat 64 k).toNat = va.toNat + k := by
  rw [BitVec.toNat_add, BitVec.toNat_ofNat, Nat.mod_eq_of_lt (b := 2 ^ 64) (by omega), Nat.mod_eq_of_lt (by omega)]

/-- An instruction that the cache holds is fetched from it, and it stays there. -/
theorem fetchAt_held {s : State} {n : Nat} {t : Tlb} {bs : List Byte} (p : s.onPage n t (s.fg n).pc.toNat 64)
    (h : s.fetched n = some bs) :
    ∃ u, s.fetchAt n (s.fg n).pc = .ok bs u ∧ u.fetched n = some bs ∧ s.fetchKeeps u n ∧ u.core n = s.core n := by
  obtain ⟨a, r, q, ha, hr, hq, hbs⟩ := (fetched_iff s n bs).1 h
  obtain ⟨h1, h2, -⟩ := parts_within (icBytes_length ha) (icBytes_length hr)
  have hlen := icBytes_length hr
  rw [List.length_append, icBytes_length ha] at h1
  have p1 : s.onPage n t (s.fg n).pc.toNat 2 := onPage_sub p (by omega) (by omega)
  have e2 : ((s.fg n).pc + 2).toNat = (s.fg n).pc.toNat + 2 := toNat_later (k := 2) p.high (by omega)
  have e8 : ((s.fg n).pc + 8).toNat = (s.fg n).pc.toNat + 8 := toNat_later (k := 8) p.high (by omega)
  have p2 : s.onPage n t ((s.fg n).pc + 2).toNat (fetchLen a - 2) := onPage_sub p (by omega) (by omega)
  have p3 : s.onPage n t ((s.fg n).pc + 8).toNat (fetchLen (a ++ r) - (a ++ r).length) :=
    onPage_sub p (by omega) (by omega)
  obtain ⟨s1, f1, k1, c1⟩ := fetchN_held 2 s _ a p1 ha
  obtain ⟨s2, f2, k2, c2⟩ := fetchN_held _ s1 _ r (k1.onPage p2) ((icBytes_congr k1 c1 _ _ p2).trans hr)
  have k12 := k1.trans k2
  have c12 : s2.core n = s.core n := c2.trans c1
  obtain ⟨s3, f3, k3, c3⟩ := fetchN_held _ s2 _ q (k12.onPage p3) ((icBytes_congr k12 c12 _ _ p3).trans hq)
  have k := k12.trans k3
  have c : s3.core n = s.core n := c3.trans c12
  refine ⟨s3, hbs ▸ fetchAt_parts f1 f2 f3, (fetched_iff s3 n bs).2 ⟨a, r, q, ?_, ?_, ?_, hbs⟩, k, c⟩ <;> rw [k.fg]
  · exact (icBytes_congr k c _ _ p1).trans ha
  · exact (icBytes_congr k c _ _ p2).trans hr
  · exact (icBytes_congr k c _ _ p3).trans hq

end Sys2Proof.Machine
end

section
/-! SUPPORT. The fetch of an instruction that the cache does not hold, from a clean page of this package's HBM. -/

namespace Sys2Proof.Machine

/-- The 64 bytes from x lie in an executable page over HBM from a on, which core n may read and which is clean. -/
structure State.codePage (s : State) (n : Nat) (t : Tlb) (x a : Nat) : Prop where
  page : s.onPage n t x 64
  exec : t.pte.getLsbD 4 = true
  pa : ptePa t.pte + (x - t.va) = s.pkgid * 2 ^ 45 + a
  inHbm : a + 64 ≤ 2 ^ 40
  allowed : ∀ j, j < 64 → s.allows 0 ((a + j) / 2 ^ 36) (midCore n) .r = true
  clean : ∀ b, poisonedByte s.poison b = false

/-- The instruction cache holds the m bytes of a memory from a on, under the addresses from q on, and nothing else. -/
def Core.fills (k : Core) (mem : List Host.Cell) (q a m : Nat) : Prop :=
  k.icache.length = m ∧ ∀ j, k.icByte (q + j) = if j < m then some (memByte mem (a + j)) else none

theorem and_bit_eq {x : Word} (h : x.getLsbD 4 = true) : x.toNat &&& needX = needX := by
  have := Nat.and_two_pow x.toNat 4
  rw [show x.toNat.testBit 4 = true from h] at this
  simpa [needX] using this

theorem memKind_hbm {a : Nat} (h : a < 2 ^ 40) : memKind a = .hbm := by
  unfold memKind
  rw [if_pos (by omega)]

theorem firstPoison_clean {p : Tbl Bool} (h : ∀ b, poisonedByte p b = false) (k : Nat) : ∀ a,
    firstPoison p a k = none := by
  induction k with
  | zero => exact fun _ => rfl
  | succ m ih =>
    intro a
    rw [firstPoison, h a]
    exact ih (a + 1)

/-- A read of clean HBM that its table permits. -/
theorem answer_hbm {s : State} {mid a k : Nat} (ha : a < 2 ^ 40) (hp : s.allows 0 (a / 2 ^ 36) mid .r = true)
    (hc : ∀ b, poisonedByte s.poison b = false) : s.answer mid a k = .data (s.bytes a k) := by
  have hk := memKind_hbm ha
  have ht : targetOf a = (0, a / 2 ^ 36) := by rw [targetOf, hk]
  have hr : s.refuses mid a k .r = none := by
    rw [State.refuses, ht, hp, State.cxlFault, hk, hwRegion, hk]
    rfl
  rw [State.answer, hr, firstPoison_clean hc]

theorem icache_keepByte {k : Core} {m : Nat} (hm : m < 64) (h : k.icache.length = m) (pa : Nat) (b : Byte) :
    (k.keepByte pa b).icache = (pa, b) :: k.icache := by
  simp only [Core.keepByte]
  rw [List.take_of_length_le]
  rw [List.length_cons]
  omega

theorem fills_keepByte {k : Core} {mem : List Host.Cell} {q a m : Nat} (hm : m < 64) (h : k.fills mem q a m) :
    (k.keepByte (q + m) (memByte mem (a + m))).fills mem q a (m + 1) := by
  obtain ⟨hl, hj⟩ := h
  have hkeep := icache_keepByte hm hl (q + m) (memByte mem (a + m))
  refine ⟨by rw [hkeep, List.length_cons, hl], fun j => ?_⟩
  rw [Core.icByte, hkeep, List.find?_cons]
  by_cases e : j = m
  · subst e
    simp
  · rw [show decide (q + m = q + j) = false from decide_eq_false (by omega)]
    refine (hj j).trans ?_
    by_cases hlt : j < m
    · rw [if_pos hlt, if_pos (by omega)]
    · rw [if_neg hlt, if_neg (by omega)]

section
variable {s : State} {n : Nat} {t : Tlb} {x a : Nat} (p : s.codePage n t x a)
include p

theorem useTlb_code {m : Nat} (hm : m < 64) : useTlb t (x + m) needX = .ok (s.pkgid * 2 ^ 45 + a + m) t := by
  obtain ⟨⟨-, -, -, hb, -, -⟩, hx, hpa, hl, -, -⟩ := p
  have he : ptePa t.pte + (x + m - t.va) = s.pkgid * 2 ^ 45 + a + m := by omega
  have hmod : (s.pkgid * 2 ^ 45 + a + m) % 2 ^ 45 = a + m := by omega
  rw [useTlb, he, hmod, memKind_hbm (by omega), if_pos ⟨and_bit_eq hx, by decide⟩]

/-- A byte that the cache does not hold is read at its memory and kept. -/
theorem fetchByte_code {u : State} {m : Nat} {va : Word} (hu : s.fetchKeeps u n) (hva : va.toNat = x + m) (hm : m < 64)
    (h : (u.core n).fills s.mem (s.pkgid * 2 ^ 45 + a) a m) :
    ∃ u', u.fetchByte n va = .ok [memByte s.mem (a + m)] u' ∧ s.fetchKeeps u' n ∧
      (u'.core n).fills s.mem (s.pkgid * 2 ^ 45 + a) a (m + 1) := by
  have pu := hu.onPage p.page
  have hk := hu.trans (fetchKeeps_keepTlb pu)
  have hcore := core_keepTlb pu
  have hnone : ((u.keepTlb n t).core n).icByte (s.pkgid * 2 ^ 45 + a + m) = none := by
    rw [hcore, h.2 m, if_neg (by omega)]
  have hdiv : (s.pkgid * 2 ^ 45 + a + m) / 2 ^ 45 = s.pkgid := by have := p.inHbm; omega
  have hmod : (s.pkgid * 2 ^ 45 + a + m) % 2 ^ 45 = a + m := by have := p.inHbm; omega
  have hroute : (u.keepTlb n t).routed s.pkgid = true := by
    rw [State.routed, hk.pkgid]
    simp
  have hans : (u.keepTlb n t).answer (midCore n) (a + m) 1 = .data [memByte s.mem (a + m)] := by
    rw [answer_hbm (by have := p.inHbm; omega) (by rw [State.allows, hk.mat]; exact p.allowed m hm)
      (by rw [hk.poison]; exact p.clean), State.bytes, hk.mem]
    rfl
  refine ⟨(u.keepTlb n t).setCore n (((u.keepTlb n t).core n).keepByte (s.pkgid * 2 ^ 45 + a + m)
    (memByte s.mem (a + m))), ?_, hk.trans (.keepByte _ n _ _), ?_⟩
  · have hz : zoneOf va.toNat = .paged := zoneOf_onPage pu (by omega) (by omega)
    rw [State.fetchByte, if_neg (not_not_intro hz), translate_onPage pu (by omega) (by omega), hva, useTlb_code p hm]
    simp only [hnone, hdiv, hmod, hroute, hk.pkgid, hans]
    rw [if_neg (by decide), if_neg (not_not_intro rfl)]
    rfl
  · rw [core_setCore_self, hcore]
    exact fills_keepByte hm h

/-- The bytes of a range are read and kept one after the other. -/
theorem fetchN_code (k : Nat) : ∀ (m : Nat) (u : State) (va : Word), s.fetchKeeps u n → va.toNat = x + m → m + k ≤ 64 →
    (u.core n).fills s.mem (s.pkgid * 2 ^ 45 + a) a m → ∃ u', u.fetchN n va k = .ok (memRead s.mem (a + m) k) u' ∧
      s.fetchKeeps u' n ∧ (u'.core n).fills s.mem (s.pkgid * 2 ^ 45 + a) a (m + k) := by
  induction k with
  | zero => exact fun m u va hu _ _ h => ⟨u, rfl, hu, h⟩
  | succ k ih =>
    intro m u va hu hva hm h
    have hn := toNat_next (va := va) (by have := p.page.high; omega)
    obtain ⟨u1, f1, k1, h1⟩ := fetchByte_code p hu hva (by omega) h
    obtain ⟨u2, f2, k2, h2⟩ := ih (m + 1) u1 (va + 1) k1 (by omega) (by omega) h1
    refine ⟨u2, ?_, k2, by rwa [show m + (k + 1) = m + 1 + k by omega]⟩
    simp only [State.fetchN, f1, f2, memRead]
    rfl

/-- What the cache holds after that. -/
theorem icBytes_code {u : State} {top : Nat} (hu : s.fetchKeeps u n) (ht : top ≤ 64)
    (h : (u.core n).fills s.mem (s.pkgid * 2 ^ 45 + a) a top) (k : Nat) : ∀ (m : Nat) (va : Word), va.toNat = x + m →
    m + k ≤ top → u.icBytes n va k = some (memRead s.mem (a + m) k) := by
  induction k with
  | zero => exact fun _ _ _ _ => rfl
  | succ k ih =>
    intro m va hva hm
    have hn := toNat_next (va := va) (by have := p.page.high; omega)
    have hrec := ih (m + 1) (va + 1) (by omega) (by omega)
    have hat : u.icAt n va = some (memByte s.mem (a + m)) := by
      rw [icAt_onPage (hu.onPage p.page) (by omega) (by omega), Core.icThrough, hva, useTlb_code p (by omega)]
      exact (h.2 m).trans (if_pos (by omega))
    simp only [State.icBytes, hat, hrec, memRead]
    rfl

end

theorem memRead_append (mem : List Host.Cell) (k : Nat) : ∀ a j,
    memRead mem a k ++ memRead mem (a + k) j = memRead mem a (k + j) := by
  induction k with
  | zero => intro a j; simp [memRead]
  | succ k ih =>
    intro a j
    rw [show k + 1 + j = k + j + 1 by omega, memRead, memRead, ← ih (a + 1) j, show a + 1 + k = a + (k + 1) by omega]
    rfl

/-- An instruction of a clean page is fetched from its memory into an empty cache. -/
theorem fetchAt_code {s : State} {n : Nat} {t : Tlb} {a : Nat} (p : s.codePage n t (s.fg n).pc.toNat a)
    (hic : (s.core n).icache = []) : ∃ u bs, s.fetchAt n (s.fg n).pc = .ok bs u ∧ u.fetched n = some bs ∧
      bs = s.bytes a bs.length ∧ 2 ≤ bs.length ∧ s.fetchKeeps u n := by
  have h0 : (s.core n).fills s.mem (s.pkgid * 2 ^ 45 + a) a 0 :=
    ⟨by rw [hic]; rfl, fun j => by rw [Core.icByte, hic]; rfl⟩
  have e2 : ((s.fg n).pc + 2).toNat = (s.fg n).pc.toNat + 2 := toNat_later (k := 2) p.page.high (by omega)
  have e8 : ((s.fg n).pc + 8).toNat = (s.fg n).pc.toNat + 8 := toNat_later (k := 8) p.page.high (by omega)
  obtain ⟨w1, w2, w3⟩ := parts_within (h := memRead s.mem a 2)
      (r := memRead s.mem (a + 2) (fetchLen (memRead s.mem a 2) - 2))
    (memRead_length _ _ _) (memRead_length _ _ _)
  obtain ⟨k, hk⟩ : ∃ k, k = fetchLen (memRead s.mem a 2) := ⟨_, rfl⟩
  have hk2 : 2 ≤ k := hk ▸ (fetchLen_bounds _).1
  have hhr : memRead s.mem a 2 ++ memRead s.mem (a + 2) (k - 2) = memRead s.mem a k := by
    rw [memRead_append, show 2 + (k - 2) = k by omega]
  rw [← hk, hhr, memRead_length] at w1 w2 w3
  obtain ⟨j, hj⟩ : ∃ j, j = fetchLen (memRead s.mem a k) - k := ⟨_, rfl⟩
  rw [← hj] at w2 w3
  obtain ⟨s1, f1, k1, i1⟩ := fetchN_code p 2 0 s _ (.refl s n) rfl (by omega) h0
  obtain ⟨s2, f2, k2, i2⟩ := fetchN_code p (k - 2) 2 s1 _ k1 e2 (by omega) i1
  rw [show 2 + (k - 2) = k by omega] at i2
  obtain ⟨s3, f3, k3, i3⟩ : ∃ s3, s2.fetchN n ((s.fg n).pc + 8) j = .ok (memRead s.mem (a + k) j) s3 ∧
      s.fetchKeeps s3 n ∧ (s3.core n).fills s.mem (s.pkgid * 2 ^ 45 + a) a (k + j) := by
    rcases w3 with hz | he
    · exact hz ▸ ⟨s2, rfl, k2, i2⟩
    · exact he ▸ fetchN_code p j 8 s2 _ k2 e8 (by omega) (he ▸ i2)
  have hrest : s3.icBytes n ((s.fg n).pc + 8) j = some (memRead s.mem (a + k) j) := by
    rcases w3 with hz | he
    · exact hz ▸ rfl
    · exact he ▸ icBytes_code p k3 (by omega) i3 j 8 _ e8 (by omega)
  have hbs : memRead s.mem a 2 ++ memRead s.mem (a + 2) (k - 2) ++ memRead s.mem (a + k) j =
      memRead s.mem a (k + j) := by
    rw [hhr, memRead_append]
  have hlen : fetchLen (memRead s.mem a 2 ++ memRead s.mem (a + 2) (k - 2)) -
      (memRead s.mem a 2 ++ memRead s.mem (a + 2) (k - 2)).length = j := by
    rw [hhr, memRead_length, hj]
  refine ⟨s3, memRead s.mem a (k + j), ?_, (fetched_iff _ _ _).2 ⟨memRead s.mem a 2, memRead s.mem (a + 2) (k - 2),
    memRead s.mem (a + k) j, ?_, ?_, ?_, hbs⟩, ?_, ?_, k3⟩
  · rw [← hbs]
    exact fetchAt_parts f1 (by rw [← hk]; exact f2) (by rw [hlen]; exact f3)
  · rw [k3.fg]
    exact icBytes_code p k3 (by omega) i3 2 0 _ rfl (by omega)
  · rw [k3.fg, ← hk]
    exact icBytes_code p k3 (by omega) i3 (k - 2) 2 _ e2 (by omega)
  · rw [k3.fg, hlen]
    exact hrest
  · rw [memRead_length]
    rfl
  · rw [memRead_length]
    omega

/-! ## The fetch step -/

theorem instructionFetch_ok {s u : State} {n : Nat} {bs : List Byte} (hc : s.cur = .core n)
    (h : s.fetchAt n (s.fg n).pc = .ok bs u) : exec .instructionFetch s = .next u := by
  show execInstructionFetch s = _
  simp only [execInstructionFetch, hc, h]

/-- A fetch whose first byte traps. -/
theorem instructionFetch_trap {s u : State} {n cause : Nat} {v : Word} (hc : s.cur = .core n)
    (h : s.fetchByte n (s.fg n).pc = .trap cause v u) :
    exec .instructionFetch s = .next ((u.takeTrap n cause 0 (u.fg n).pc v).tick 1) := by
  show execInstructionFetch s = _
  simp only [execInstructionFetch, hc, State.fetchAt, State.fetchN, h]

theorem zoneOf_notPaged {y : Nat} (h : y < 0x40000000 ∨ 2 ^ 48 ≤ y) : zoneOf y ≠ .paged := by
  unfold zoneOf
  split_ifs with h1
  · simp
  · simp only [Int.toNat_natCast]
    split_ifs <;> simp
    omega

theorem fetchByte_notPaged {s : State} {n : Nat} {va : Word} (h : va.toNat < 0x40000000 ∨ 2 ^ 48 ≤ va.toNat) :
    s.fetchByte n va = .trap 0x08 va s := by
  rw [State.fetchByte, if_pos (zoneOf_notPaged h)]

theorem useTlb_noExec {t : Tlb} (h : t.pte.getLsbD 4 = false) (y : Nat) : useTlb t y needX = .fault := by
  have hb := Nat.and_two_pow t.pte.toNat 4
  rw [show t.pte.toNat.testBit 4 = false from h] at hb
  have : t.pte.toNat &&& needX ≠ needX := by
    rw [show needX = 2 ^ 4 from rfl, hb]
    decide
  simp only [useTlb, this, false_and, if_false]

theorem fetchByte_noExec {s : State} {n : Nat} {t : Tlb} {va : Word} (p : s.onPage n t va.toNat 64)
    (h : t.pte.getLsbD 4 = false) : s.fetchByte n va = .trap 0x08 va (s.keepTlb n t) := by
  have hz : zoneOf va.toNat = .paged := zoneOf_onPage p (by omega) (by omega)
  rw [State.fetchByte, if_neg (not_not_intro hz), translate_onPage p (by omega) (by omega), useTlb_noExec h]

/-- What the keeping of a translation that the micro-TLB holds comes to. -/
theorem keepTlb_onPage {s : State} {n : Nat} {t : Tlb} {x len : Nat} (p : s.onPage n t x len) :
    s.keepTlb n t = { s with ctlb := (s.keepTlb n t).ctlb }.setCore n (s.core n) := by
  simp only [State.keepTlb, utlb_contains p.head, if_true]
  rfl

end Sys2Proof.Machine
end

section
/-! SUPPORT. Posted writes at their target, and their acknowledgements. -/

namespace Sys2Proof.Machine

/-! ## A write of cells of a scratchpad -/

theorem spadKey_cells (tgt : Nat) (bs : List Byte) : ∀ off, off + bs.length ≤ 2 ^ 19 →
    (cellsAt off bs).map (fun c => (spadKey tgt c.1, c.2)) = cellsAt (spadKey tgt off) bs := by
  induction bs with
  | nil => exact fun _ _ => rfl
  | cons b r ih =>
    intro off h
    rw [List.length_cons] at h
    simp only [cellsAt, List.map_cons]
    cases r with
    | nil => rfl
    | cons b' r' =>
      rw [List.length_cons] at h
      rw [ih (off + 1) (by rw [List.length_cons]; omega)]
      rw [show spadKey tgt (off + 1) = spadKey tgt off + 1 by simp only [spadKey]; omega]

theorem memWriteCells_cellsAt (bs : List Byte) : ∀ (m : List Host.Cell) (a : Nat),
    memWriteCells m (cellsAt a bs) = memWrite m a bs := by
  induction bs with
  | nil => exact fun _ _ => rfl
  | cons b r ih => exact fun m a => ih _ _

/-- What a write of scratchpad cells leaves of a core: all but its mask of written banks. -/
theorem core_padCells (s : State) (tgt n : Nat) (cells : List (Nat × Byte)) (ps : List Nat) :
    ∃ d, (s.padCells tgt cells ps).core n = { s.core n with fg := { s.fg n with dirty := d } } := by
  have hfold (l : List (Nat × Byte)) : ∀ y : State, ∃ d, (l.foldl (fun s c => s.markDirty tgt c.1 1) y).core n =
      { y.core n with fg := { y.fg n with dirty := d } } := by
    induction l with
    | nil => exact fun y => ⟨(y.fg n).dirty, rfl⟩
    | cons c r ih =>
      intro y
      obtain ⟨d, hd⟩ := ih (y.markDirty tgt c.1 1)
      rw [List.foldl_cons, hd]
      by_cases e : tgt = n
      · subst e
        have hc : (y.markDirty tgt c.1 1).core tgt = { y.core tgt with fg := (y.markDirty tgt c.1 1).fg tgt } :=
          (State.onlyCtx.markDirty y tgt c.1 1).core
        have hf : (y.markDirty tgt c.1 1).fg tgt = { y.fg tgt with dirty := (y.fg tgt).dirty ||| dirtyMask c.1 1 } :=
          fg_modFg_self _ _ _
        exact ⟨d, by rw [hc, hf]⟩
      · have hc : (y.markDirty tgt c.1 1).core n = y.core n := core_modFg_ne _ _ _ _ e
        exact ⟨d, by rw [State.fg, hc]; rfl⟩
  exact hfold cells _

theorem mem_padCells (s : State) (tgt : Nat) (cells : List (Nat × Byte)) (ps : List Nat) :
    (s.padCells tgt cells ps).mem = memWriteCells s.mem (cells.map (fun c => (spadKey tgt c.1, c.2))) := by
  have hfold (l : List (Nat × Byte)) : ∀ y : State, (l.foldl (fun s c => s.markDirty tgt c.1 1) y).mem = y.mem := by
    induction l with
    | nil => exact fun _ => rfl
    | cons c r ih => exact fun y => ih _
  exact hfold cells _

/-! ## The answer of a posted write (R227) -/

theorem suppressed_clean {s : State} (h : ∀ b, poisonedByte s.poison b = false) (cells : List (Nat × Byte)) (a : Nat) :
    s.suppressed cells (fun _ => false) a = false := by
  simp [State.suppressed, h]

theorem pickPosted_one {p : Posted} {pkg : Nat} (h : p.pkg = pkg) (k : Nat) : pickPosted [p] pkg k = some (0, p) := by
  simp [pickPosted, h, Nat.mod_one]

theorem readsPad_none {k : Core} (h : k.fg.vreads = []) (pkg tgt t0 : Nat) : k.readsPad pkg tgt t0 = false := by
  simp [Core.readsPad, h]

theorem modOwner_here {s : State} {n own : Nat} (h : (s.fg n).key = own) (f : Ctx → Ctx) :
    s.modOwner n own f = s.setFg n (f (s.fg n)) := if_pos h

/-- The only posted write of a core to this package is performed or refused. -/
theorem postedWritePerformed_one {s : State} {n : Nat} {p : Posted} (hp : (s.core n).posted = [p])
    (hk : p.pkg = s.pkgid)
    (hv : (s.fg n).vreads = []) : exec (.postedWritePerformed n) s =
      .next ((s.nextFree.2.performPost n p).1.postDone n 0 p (s.nextFree.2.performPost n p).2) := by
  show execPostedWritePerformed n s = _
  simp only [execPostedWritePerformed, hp, pickPosted_one hk]
  rw [readsPad_none hv]
  rfl

/-- What a posted write without a refusal leaves. -/
theorem postDone_ok {s : State} {n : Nat} {p : Posted} (hp : (s.core n).posted = [p]) :
    ((s.postDone n 0 p none).core n).posted = [] ∧
      ((s.postDone n 0 p none).core n).acks = (s.core n).acks ++ [⟨p.win, p.own, p.ring⟩] ∧
      (s.postDone n 0 p none).mem = s.mem ∧ (s.postDone n 0 p none).fg n = s.fg n := by
  have h : s.postDone n 0 p none = s.setCore n { s.core n with
      posted := dropAt (s.core n).posted 0, acks := (s.core n).acks ++ [⟨p.win, p.own, p.ring⟩] } := by
    simp only [State.postDone, ite_self]
  rw [h, core_setCore_self, hp, fg_setCore_self]
  exact ⟨rfl, rfl, rfl, rfl⟩

/-- What a refused one leaves: its window is marked. -/
theorem postDone_refused {s : State} {n c : Nat} {p : Posted} (hp : (s.core n).posted = [p]) (ho : p.own = (s.fg n).key)
    (hw : p.win ≠ 255) :
    ((s.postDone n 0 p (some c)).core n).posted = [] ∧
      ((s.postDone n 0 p (some c)).core n).acks = (s.core n).acks ++ [⟨p.win, p.own, p.ring⟩] ∧
      (s.postDone n 0 p (some c)).mem = s.mem ∧
      tget 0 ((s.postDone n 0 p (some c)).fg n).winFail p.win = BitVec.ofNat 8 c := by
  have h : s.postDone n 0 p (some c) = (s.setCore n { s.core n with
      posted := dropAt (s.core n).posted 0, acks := (s.core n).acks ++ [⟨p.win, p.own, p.ring⟩] }).setFg n
      { s.fg n with winFail := tset 0 (s.fg n).winFail p.win (BitVec.ofNat 8 c) } := by
    simp only [State.postDone, if_neg hw]
    rw [modOwner_here (by rw [fg_setCore_self]; exact ho.symm), fg_setCore_self]
    rfl
  rw [h, core_setFg_self, core_setCore_self, hp, fg_setFg_self]
  exact ⟨rfl, rfl, rfl, tget_tset_self _ _ _ _⟩

section
variable {s : State} {n off : Nat} {p : Posted} {bs : List Byte} (hp : (s.core n).posted = [p])
  (hk : p.pkg = s.pkgid) (hv : (s.fg n).vreads = [])
include hp hk hv

/-- A posted write that its target permits is performed. -/
theorem postedWrite_performed (hd : p.data = cellsAt off bs) (hoff : off + bs.length ≤ 2 ^ 19)
    (ha : s.allows 1 (p.tgt / 256) (midCore n) .w = true) (hc : ∀ b, poisonedByte s.poison b = false) :
    ∃ u : State, exec (.postedWritePerformed n) s = .next u ∧ (u.core n).posted = [] ∧
      (u.core n).acks = (s.core n).acks ++ [⟨p.win, p.own, p.ring⟩] ∧
      memRead u.mem (spadKey p.tgt off) bs.length = bs ∧ s.sameMemoryOutside u (spadKey p.tgt off) bs.length ∧
      (u.fg n).winFail = (s.fg n).winFail := by
  have hperf : s.nextFree.2.performPost n p = (s.nextFree.2.padCells p.tgt p.data [], none) := by
    have hsup : (p.data.map (fun c => (spadKey p.tgt c.1, c.2))).any (fun c => s.nextFree.2.suppressed
        (p.data.map (fun c => (spadKey p.tgt c.1, c.2))) (fun _ => false) c.1) = false :=
      List.any_eq_false.2 fun c _ => Bool.eq_false_iff.1 (suppressed_clean (s := s.nextFree.2) hc _ _)
    rw [State.performPost, if_neg (by rw [show s.nextFree.2.allows 1 (p.tgt / 256) (midCore n) .w = _ from ha]; decide)]
    simp only [hsup]
    rfl
  obtain ⟨d, hcore⟩ := core_padCells s.nextFree.2 p.tgt n p.data []
  have hmem : (s.nextFree.2.padCells p.tgt p.data []).mem = memWrite s.mem (spadKey p.tgt off) bs := by
    rw [mem_padCells, hd, spadKey_cells _ _ _ hoff, memWriteCells_cellsAt]
    rfl
  obtain ⟨h1, h2, h3, h4⟩ := postDone_ok (s := s.nextFree.2.padCells p.tgt p.data []) (n := n) (p := p)
    (by rw [hcore]; exact hp)
  refine ⟨_, postedWritePerformed_one hp hk hv, ?_⟩
  rw [hperf]
  refine ⟨h1, h2.trans (by rw [hcore]; rfl), ?_, fun b hb => ?_, ?_⟩
  · rw [h3, hmem, memRead_memWrite_same]
  · rw [h3, hmem, memByte_memWrite_out _ _ _ _ hb]
  · rw [h4, State.fg, hcore]
    rfl

/-- One that its target does not permit is refused. -/
theorem postedWrite_refused (ho : p.own = (s.fg n).key) (hw : p.win ≠ 255)
    (ha : s.allows 1 (p.tgt / 256) (midCore n) .w = false) :
    ∃ u : State, exec (.postedWritePerformed n) s = .next u ∧ (u.core n).posted = [] ∧
      (u.core n).acks = (s.core n).acks ++ [⟨p.win, p.own, p.ring⟩] ∧ u.mem = s.mem ∧
      tget 0 (u.fg n).winFail p.win = 0x09 := by
  have hperf : s.nextFree.2.performPost n p = (s.nextFree.2, some 0x09) := if_pos ha
  refine ⟨_, postedWritePerformed_one hp hk hv, ?_⟩
  rw [hperf]
  exact postDone_refused (s := s.nextFree.2) hp ho hw

end

/-- An acknowledgement counts its window down. -/
theorem postedWriteAck_counts {s : State} {n w : Nat} {a : PostAck}
    (ha : (s.core n).acks.find? (fun a => decide (a.win = w)) = some a) (ho : a.own = (s.fg n).key) (hw : w ≠ 255) :
    ∃ u : State, exec (.postedWriteAck n w) s = .next u ∧ (u.core n).acks = (s.core n).acks.erase a ∧
      tget 0 (u.fg n).winCnt w = tget 0 (s.fg n).winCnt w - 1 ∧ u.mem = s.mem := by
  have hx : exec (.postedWriteAck n w) s = .next ((s.setCore n
      { s.core n with acks := (s.core n).acks.erase a }).setFg n
      { s.fg n with winCnt := tset 0 (s.fg n).winCnt w (tget 0 (s.fg n).winCnt w - 1) }) := by
    show execPostedWriteAck n w s = _
    simp only [execPostedWriteAck, ha, if_neg hw]
    rw [modOwner_here (by rw [fg_setCore_self]; exact ho.symm), fg_setCore_self]
    rfl
  refine ⟨_, hx, ?_, ?_, rfl⟩
  · rw [core_setFg_self, core_setCore_self]
  · rw [fg_setFg_self, tget_tset_self]

end Sys2Proof.Machine
end

section
/-! SUPPORT. The end of a read of the vector unit: its result, its status, its count and its signal. -/

namespace Sys2Proof.Machine

/-! ## Counting keeps the rest (R40) -/

/-- What the counting of completions leaves: all but the counts, the completions kept for later and the late traps. -/
def Ctx.countKeeps (c d : Ctx) : Prop :=
  ∃ csr prev wait late, d = { c with csr := csr, dlPrev := prev, dlWait := wait, late := late }

theorem countKeeps_refl (c : Ctx) : c.countKeeps c := ⟨_, _, _, _, rfl⟩

theorem countKeeps_trans {c d e : Ctx} (h : c.countKeeps d) (g : d.countKeeps e) : c.countKeeps e := by
  obtain ⟨_, _, _, _, rfl⟩ := h
  obtain ⟨_, _, _, _, rfl⟩ := g
  exact ⟨_, _, _, _, rfl⟩

theorem countKeeps_countOne (c : Ctx) (pc : Word) (code : Nat) : c.countKeeps (c.countOne pc code).1 :=
    ⟨_, _, _, _, rfl⟩

theorem countKeeps_countRest (k : Nat) : ∀ c : Ctx, c.countKeeps (c.countRest k) := by
  induction k with
  | zero => exact countKeeps_refl
  | succ k ih =>
    intro c
    rw [Ctx.countRest]
    split
    · exact countKeeps_refl c
    · next ord pc code r _ =>
      split
      · exact countKeeps_refl c
      · refine countKeeps_trans ?_ (ih _)
        obtain ⟨csr, prev, wait, late, h⟩ := countKeeps_countOne { c with dlWait := r } pc code
        simp only [h]
        split <;> exact ⟨_, _, _, _, rfl⟩

theorem countKeeps_countD (c : Ctx) (x : Bool) (ord : Nat) (pc : Word) (code : Nat) :
    c.countKeeps (c.countD x ord pc code).1 := by
  rw [Ctx.countD]
  split
  · exact ⟨_, _, _, _, rfl⟩
  · exact countKeeps_trans (countKeeps_countRest _ c) (countKeeps_countOne _ _ _)

/-! ## The end of a read (R253, R256) -/

/-- The context in which a read has left the waiting ones and has written its vector. -/
def Ctx.readVec (c : Ctx) (f : FmtD) (id : Nat) (bs : Option (List Byte)) : Ctx :=
  let c := { c with vreads := c.vreads.filter (fun x => decide (x.id ≠ id)) }
  match bs with
  | some b => c.setV f.d.toNat (BitVec.ofNat 1024 (leNat b))
  | none => c

/-- The context once a completion of a read has been counted with those that waited for it. -/
def Ctx.readCounted (c : Ctx) (f : FmtD) (v : VRead) (code : Nat) : Ctx :=
  let r := c.countD f.x v.entry.ord v.pc code
  let c := if r.2 then { r.1 with late := r.1.late ++ [(0x06, 0, v.pc)] } else r.1
  c.countRest c.dlWait.length

theorem countKeeps_readCounted (c : Ctx) (f : FmtD) (v : VRead) (code : Nat) :
    c.countKeeps (c.readCounted f v code) := by
  refine countKeeps_trans (countKeeps_countD c f.x v.entry.ord v.pc code)
      (countKeeps_trans ?_ (countKeeps_countRest _ _))
  split <;> exact ⟨_, _, _, _, rfl⟩

/-- The context in which a read that no later instruction has overtaken has written its vector and its status. -/
def Ctx.readLanded (c : Ctx) (f : FmtD) (id code detail : Nat) (bs : Option (List Byte)) : Ctx :=
  let c := c.readVec f id bs
  { c with regs := { c.regs.clean (poisX f.st.toNat) with x := xset c.regs.x f.st (statusWord code detail) } }

theorem endRead_eq {s : State} {n : Nat} {v : VRead} {f : FmtD} (hf : readFmt v.instr = some f) (hg : v.entry.flg = 0)
    (ho : ∀ r, tget 0 (s.fg n).xord r ≤ v.entry.ord) (code detail : Nat) (bs : Option (List Byte)) :
    s.endRead n v code detail bs = ((s.setFg n (((s.fg n).readLanded f v.id code detail bs).readCounted f v code)).signal
      n
      .vx (wfld v.entry.word 55 48)).settle n .vx := by
  have hmod : s.endRead n v code detail bs = ((s.modFg n (fun c => ((c.readVec f v.id bs).landX f.st
      (statusWord code detail) v.entry.ord).readCounted f v code)).signal n .vx (wfld v.entry.word 55 48)).settle n
        .vx := by
    simp only [State.endRead, hf, hg]
    cases bs <;> rfl
  have hx : ((s.fg n).readVec f v.id bs).xord = (s.fg n).xord := by cases bs <;> rfl
  rw [hmod, State.modFg, landX_now (by rw [hx]; exact ho)]
  rfl

theorem readLanded_v (c : Ctx) (f : FmtD) (id code detail : Nat) (bs : Option (List Byte)) (r : BitVec 5) :
    (c.readLanded f id code detail bs).v r = match bs with
      | some b => if r = f.d then BitVec.ofNat 1024 (leNat b) else c.v r
      | none => c.v r := by
  cases bs with
  | none => rfl
  | some b => exact v_setV _ f.d r _

theorem readLanded_x (c : Ctx) (f : FmtD) (id code detail : Nat) (bs : Option (List Byte)) (r : BitVec 5) :
    (c.readLanded f id code detail bs).x r = if r = 0 then 0 else if f.st = r then statusWord code detail
      else c.x r := by
  refine (xget_xset _ f.st r _).trans ?_
  cases bs <;> rfl

theorem sameRegs_semAdd {c d : Ctx} {k a : Nat} (h : c.semAdd k a = some d) : c.sameRegs d := by
  unfold Ctx.semAdd at h
  split at h
  · exact Option.some.inj h ▸ sameRegs_setEng c .vx c.vx
  · split at h
    · cases h
    · exact Option.some.inj h ▸ sameRegs_setSem _ _ _

theorem vreads_setEng (c : Ctx) (e : Eng) (g : Engine) : (c.setEng e g).vreads = c.vreads := by cases e <;> rfl

theorem fg_settle (s : State) (n : Nat) (e : Eng) :
    ∃ g, (s.settle n e).fg n = (s.fg n).setEng e g := ⟨_, fg_modFg_self _ _ _⟩

/-- What the signal and the settling of a unit leave. -/
theorem settle_signal (s : State) (n : Nat) (e : Eng) (k : Nat) :
    let c := s.fg n
    let u := (s.signal n e k).settle n e
    s.onlyCtx u n ∧ u.mem = s.mem ∧ c.sameRegs (u.fg n) ∧ (u.fg n).vreads = c.vreads ∧
      ∀ d, c.semAdd k 1 = some d → (u.fg n).sem = d.sem := by
  intro c u
  obtain ⟨g, hg⟩ := fg_settle (s.signal n e k) n e
  cases hadd : c.semAdd k 1 with
  | some d =>
    have hs : s.signal n e k = s.setFg n d := by
      rw [State.signal, show (s.fg n).semAdd k 1 = some d from hadd]
    obtain ⟨-, -, hrd⟩ := semAdd_engines hadd
    rw [show u = (s.signal n e k).settle n e from rfl, hg, hs, fg_setFg_self]
    exact ⟨(State.onlyCtx.setFg s n d).trans (.modFg _ n _), rfl,
        sameRegs_trans (sameRegs_semAdd hadd) (sameRegs_setEng _ _ _),
      (vreads_setEng _ _ _).trans hrd, fun d' h => (sem_setEng _ _ _).trans (congrArg Ctx.sem (Option.some.inj h))⟩
  | none =>
    have hs : s.signal n e k = s.stopFault n e 0x07 (wOf k) := by
      rw [State.signal, show (s.fg n).semAdd k 1 = none from hadd]
    rw [show u = (s.signal n e k).settle n e from rfl, hg, hs, State.stopFault, fg_modFg_self]
    exact ⟨(State.onlyCtx.modFg s n _).trans (.modFg _ n _), rfl,
        sameRegs_trans (sameRegs_setEng _ _ _) (sameRegs_setEng _ _ _),
      (vreads_setEng _ _ _).trans (vreads_setEng _ _ _), fun d' h => by cases h⟩

/-- What the end of a read that is the only one, and that no later instruction has overtaken, leaves and writes. -/
theorem endRead_only {s : State} {n : Nat} {v : VRead} {f : FmtD} (hf : readFmt v.instr = some f) (hg : v.entry.flg = 0)
    (ho : ∀ r, tget 0 (s.fg n).xord r ≤ v.entry.ord) (hv : ∀ w ∈ (s.fg n).vreads, w.id = v.id) (code detail : Nat)
    (bs : Option (List Byte)) :
    let c := s.fg n
    let u := s.endRead n v code detail bs
    s.onlyCtx u n ∧ u.mem = s.mem ∧ (u.fg n).vreads = [] ∧ (u.fg n).pc = c.pc ∧
      (∀ r, (u.fg n).v r = match bs with
        | some b => if r = f.d then BitVec.ofNat 1024 (leNat b) else c.v r
        | none => c.v r) ∧
      (∀ r, (u.fg n).x r = if r = 0 then 0 else if f.st = r then statusWord code detail else c.x r) ∧
      ∀ c0 w sg, Ctx.semsAllow c0 w sg → c.sem = (c0.semTake w.toNat).sem → wfld v.entry.word 55 48 = sg.toNat →
        c0.semsMoved (u.fg n) w sg := by
  intro c u
  obtain ⟨_, _, _, _, hy⟩ := countKeeps_readCounted (c.readLanded f v.id code detail bs) f v code
  generalize hz : (c.readLanded f v.id code detail bs).readCounted f v code = y at hy
  obtain ⟨only, hm, hregs, hrd, hsem⟩ := settle_signal (s.setFg n y) n .vx (wfld v.entry.word 55 48)
  rw [fg_setFg_self] at hregs hrd hsem
  have hu : u = ((s.setFg n y).signal n .vx (wfld v.entry.word 55 48)).settle n .vx := by
    rw [← hz]
    exact endRead_eq hf hg ho code detail bs
  rw [hu]
  obtain ⟨rv, -, rx, -, -, -, -, -, -, rpc, -⟩ := hregs
  have hpc : (c.readLanded f v.id code detail bs).pc = c.pc := by cases bs <;> rfl
  have hrds : (c.readLanded f v.id code detail bs).vreads = c.vreads.filter (fun x => decide (x.id ≠ v.id)) := by
    cases bs <;> rfl
  have hsm : (c.readLanded f v.id code detail bs).sem = c.sem := by cases bs <;> rfl
  refine ⟨(State.onlyCtx.setFg s n y).trans only, hm, ?_, ?_, fun r => ?_, fun r => ?_,
      fun c0 w sg hallow htake hsg => ?_⟩
  · rw [hrd, hy]
    refine hrds.trans (List.filter_eq_nil_iff.2 fun w hw => ?_)
    simp [hv w hw]
  · rw [rpc, hy]
    exact hpc
  · rw [← readLanded_v c f v.id code detail bs r, Ctx.v, rv, hy]
    rfl
  · rw [← readLanded_x c f v.id code detail bs r, Ctx.x, rx, hy]
    rfl
  · have hys : y.sem = (c0.semTake w.toNat).sem := by
      rw [hy]
      exact hsm.trans htake
    obtain ⟨d, hd, -, hmoved⟩ := semAdd_after_take hallow hys
    intro k
    rw [← hmoved k, Ctx.semOf, hsem d (hsg ▸ hd), Ctx.semOf]

/-! ## The arrival of a reply (R253, R265) -/

theorem openRead_only {s : State} {n : Nat} {v : VRead} (hv : (s.fg n).vreads = [v]) {g : VRead → Bool}
    (hg : g v = true)
    (ha : v.ans = none) (hb : (s.core n).vBefore v = false) (hd : (s.jtime (s.fg n).ident.job).toNat ≤ v.d.toNat) :
    s.openRead n g = some v := by
  simp [State.openRead, hv, hg, ha, hb, hd]

theorem readReplyArrival_own {s : State} {n : Nat} {v : VRead} (hv : (s.fg n).vreads = [v]) (h0 : v.id ≠ 0)
    (hp : v.entry.piece = s.pkgid) (ha : v.ans = none) (hb : (s.core n).vBefore v = false)
    (hd : (s.jtime (s.fg n).ident.job).toNat ≤ v.d.toNat) :
    exec (.readReplyArrival n v.id none) s =
      .next ((s.vreadAnswer n v).2.2.replyRead n v (s.vreadAnswer n v).1 (s.vreadAnswer n v).2.1) := by
  have ho := openRead_only (g := fun w => decide (w.id = v.id ∧ w.entry.piece = s.pkgid)) hv (by simp [hp]) ha hb hd
  show execReadReplyArrival n v.id none s = _
  simp only [execReadReplyArrival, if_neg h0, ho]

end Sys2Proof.Machine
end

section
/-! SUPPORT. What a Folder's read of a box leaves of the state, and the reply to a `VTRD`. -/

namespace Sys2Proof.Machine

/-! ## Reads keep the contexts -/

/-- What a read of memory leaves: every core's context, and the view in which commands complete. -/
def State.readKeeps (s u : State) : Prop := (∀ n, u.fg n = s.fg n) ∧ u.lockstep = s.lockstep

theorem readKeeps_refl (s : State) : s.readKeeps s := ⟨fun _ => rfl, rfl⟩

theorem readKeeps_trans {s t u : State} (h : s.readKeeps t) (g : t.readKeeps u) : s.readKeeps u :=
  ⟨fun n => (g.1 n).trans (h.1 n), g.2.trans h.2⟩

theorem readKeeps_keepTlb (s : State) (n : Nat) (t : Tlb) : s.readKeeps (s.keepTlb n t) := by
  refine ⟨fun m => ?_, rfl⟩
  have h : (s.keepTlb n t).core m = (s.setCore n { s.core n with
      utlb := if (s.core n).utlb.contains t then (s.core n).utlb else (t :: (s.core n).utlb).take 64 }).core m := rfl
  rw [State.fg, h, core_setCore]
  split
  · next e => rw [← e]; rfl
  · rfl

theorem readKeeps_translate (s : State) (n slot va need : Nat) : s.readKeeps (s.translate n slot va need).2 := by
  unfold State.translate
  split
  · exact readKeeps_keepTlb _ _ _
  · split
    · exact readKeeps_keepTlb _ _ _
    · exact readKeeps_refl s
    · exact readKeeps_refl s

theorem readKeeps_cxlEvent (s : State) (a cause : Nat) : s.readKeeps (s.cxlEvent a cause) := by
  unfold State.cxlEvent
  split
  · unfold State.event State.pushPort
    split <;> exact ⟨fun _ => rfl, rfl⟩
  · exact readKeeps_refl s

theorem readKeeps_locate (s : State) (w : Who) (a : Int) (need : Nat) : s.readKeeps (s.locate w a need).2 := by
  unfold State.locate
  cases w.core with
  | some n =>
    simp only
    split
    · exact readKeeps_refl s
    · exact readKeeps_refl s
    · have h := readKeeps_translate s n w.slot a.toNat need
      split <;> next e => rw [e] at h; exact h
    · split <;> exact readKeeps_refl s
  | none =>
    simp only
    split
    · split
      · exact readKeeps_refl s
      · split <;> exact readKeeps_refl s
    · split <;> exact readKeeps_refl s
    · exact readKeeps_refl s
    · exact readKeeps_refl s

theorem readKeeps_readLoc (s : State) (w : Who) (a : Int) (l : Loc) : s.readKeeps (s.readLoc w a l).2 := by
  unfold State.readLoc
  cases l with
  | pad c off own =>
    simp only
    split_ifs <;> exact readKeeps_refl s
  | phys pa page =>
    simp only
    split
    · exact readKeeps_cxlEvent _ _ _
    · split_ifs <;> exact readKeeps_refl s
  | remote p b page => exact ⟨fun _ => rfl, rfl⟩
  | fault c => exact readKeeps_refl s
  | poisoned p => exact readKeeps_refl s

theorem readKeeps_readVa (w : Who) (k : Nat) : ∀ (s : State) (a : Int), s.readKeeps (s.readVa w a k).2 := by
  induction k with
  | zero => exact fun s _ => readKeeps_refl s
  | succ k ih =>
    intro s a
    have h := readKeeps_trans (readKeeps_locate s w a needR) (readKeeps_readLoc _ w a (s.locate w a needR).1)
    simp only [State.readVa]
    split
    · exact h
    · exact readKeeps_trans h (ih _ _)

theorem readKeeps_boxReadGo (w : Who) (e : Hent) (org : List Int) (b : List Nat) (conv m : Nat) :
    ∀ (k : Nat) (s : State), s.readKeeps (boxReadGo w e org b conv m k s).2 := by
  induction m with
  | zero => exact fun _ s => readKeeps_refl s
  | succ m ih =>
    intro k s
    simp only [boxReadGo]
    split
    · exact ih _ _
    · next c _ =>
      have h : s.readKeeps (s.readBits w (hBit e c) (packWidth (hFmt e))).2.2 := readKeeps_readVa w _ s _
      split
      · exact h
      · exact readKeeps_trans h (ih _ _)

theorem readKeeps_vreadAnswer (s : State) (n : Nat) (v : VRead) : s.readKeeps (s.vreadAnswer n v).2.2 := by
  have h := readKeeps_boxReadGo { core := some n, slot := (s.fg n).ident.job, mid := midFolder 0 } v.hent
      (origins v.blk 4)
    (vtrdBox v.blk) (u16 v.blk 28 % 256) (boxCount (vtrdBox v.blk)) 0 s
  unfold State.vreadAnswer
  split
  · exact readKeeps_refl s
  · simp only [State.boxRead]
    split
    · exact h
    · exact h
    · split <;> exact h

/-! ## The reply to a `VTRD` (R256, R265) -/

theorem landRead_data (s : State) (n : Nat) (v : VRead) (bs : List Byte) :
    s.landRead n v (.data bs) = s.endRead n v 0 0 (some bs) := rfl

/-- A reply that lands at once. -/
theorem replyRead_now {s : State} {n : Nat} (v : VRead) (a : ReadAns) (at_ : Word) (hs : (s.fg n).stop = none)
    (hl : s.lockstep = true) :
    s.replyRead n v a at_ = s.landRead n { v with entry := { v.entry with xc := at_ } } a := by
  simp [State.replyRead, hs, hl]

/-- A reply that is ready 2 cycles later. -/
theorem replyRead_later {s : State} {n : Nat} {v : VRead} (a : ReadAns) (at_ : Word) (hv : (s.fg n).vreads = [v])
    (hl : s.lockstep = false) : ((s.replyRead n v a at_).fg n).vreads =
      [{ v with entry := { v.entry with xc := at_ }, ans := some a, rdy := s.dcyc (s.fg n) + 2 }] := by
  simp [State.replyRead, hl, hv]

section
variable {s : State} {n : Nat} {v : VRead} {f : FmtD} {bs : List Byte} (hv : (s.fg n).vreads = [v])
  (h0 : v.id ≠ 0) (ha : v.ans = none) (hp : v.entry.piece = s.pkgid)
  (hb : (s.core n).vBefore v = false) (hd : (s.jtime (s.fg n).ident.job).toNat ≤ v.d.toNat)
  (hans : (s.vreadAnswer n v).1 = .data bs)
include hv h0 ha hp hb hd hans

theorem vtrdReply_now (hg : v.entry.flg = 0) (ho : ∀ r, tget 0 (s.fg n).xord r ≤ v.entry.ord) (hi : v.instr = .vtrd f)
    (hs : (s.fg n).stop = none) (hl : s.lockstep = true) :
    ∃ u : State, exec (.readReplyArrival n v.id none) s = .next u ∧ (u.fg n).vreads = [] ∧
      (u.fg n).v f.d = BitVec.ofNat 1024 (leNat bs) ∧ (f.st ≠ 0 → (u.fg n).x f.st = 0) := by
  obtain ⟨hfg, hlk⟩ := readKeeps_vreadAnswer s n v
  have hx := readReplyArrival_own hv h0 hp ha hb hd
  rw [hans, replyRead_now v _ _ (by rw [hfg]; exact hs) (hlk.trans hl), landRead_data] at hx
  obtain ⟨-, -, hvr, -, hvec, hsc, -⟩ := endRead_only (s := (s.vreadAnswer n v).2.2) (n := n)
    (v := { v with entry := { v.entry with xc := (s.vreadAnswer n v).2.1 } }) (f := f) (by rw [hi]; rfl) hg
    (by rw [hfg]; exact ho) (by rw [hfg, hv]; simp) 0 0 (some bs)
  refine ⟨_, hx, hvr, (hvec f.d).trans (if_pos rfl), fun h => ?_⟩
  rw [hsc, if_neg h, if_pos rfl]
  rfl

theorem vtrdReply_later (hl : s.lockstep = false) :
    ∃ (u : State) (v' : VRead), exec (.readReplyArrival n v.id none) s = .next u ∧ (u.fg n).vreads = [v'] ∧
      v'.id = v.id ∧
      v'.ans = some (.data bs) ∧ 2 ≤ v'.rdy := by
  obtain ⟨hfg, hlk⟩ := readKeeps_vreadAnswer s n v
  have hx := readReplyArrival_own hv h0 hp ha hb hd
  rw [hans] at hx
  exact ⟨_, _, hx, replyRead_later _ _ ((congrArg Ctx.vreads (hfg n)).trans hv) (hlk.trans hl), rfl, rfl,
    Nat.le_add_left _ _⟩

end

end Sys2Proof.Machine
end

section
/-! SUPPORT. A `VTRD` at a unit at rest: the checks of its block, its start, and the completions known at the start. -/

namespace Sys2Proof.Machine

/-! ## The start of a read -/

/-- An entry at a unit at rest whose effect fails a start check. -/
theorem tryEntry_fault {s : State} {n cause : Nat} {val : Word} {q : QEntry} {i : Instr} {eff : Eff}
    (h : s.unitsAtRest n)
    (he : eff s n q = .fault cause val) : s.tryEntry n q i eff = .fault cause val := by
  obtain ⟨-, -, -, -, -, -, -, hpois, -, -⟩ := id h
  simp [State.tryEntry, noPoison _ hpois, noEntryPoison _ hpois, he, clear_rest h]

theorem issueEng_fault {s : State} {n cause : Nat} {i : Instr} {xa xb xc val : Word} {lat gap : Nat} {eff : Eff}
    (h : s.unitsAtRest n) (he : eff s n (s.entry n .vx (encodeWord i) 0 xa xb xc) = .fault cause val) :
    s.issueEng .vx i xa xb xc lat gap eff =
      ((s.push n .vx (s.entry n .vx (encodeWord i) 0 xa xb xc)).stopFault n .vx cause val).retire 8 1 := by
  obtain ⟨hcur, hl, hact, ⟨hst, hq, -, -⟩, -⟩ := id h
  have ht := tryEntry_fault (i := i) h he
  have hring : ((s.fg n).hact = false ∧ ((s.fg n).eng .vx).inRing = true) = False := by
    simp [Ctx.eng, Engine.inRing, hst]
  have hjam : (s.fg n).jammed .vx = false := by simp [Ctx.jammed, Ctx.eng, hst]
  have hroom : (s.fg n).hasRoom .vx = true := by simp [Ctx.hasRoom, hact, Ctx.eng, hq]
  have hfree : (s.fg n).freeNow .vx = true := by simp [Ctx.freeNow, hact, Ctx.eng, hst, hq]
  unfold State.issueEng
  rw [onCore_core hcur]
  simp only [hring, hjam, hroom, hfree, hl, ht]
  rfl

/-- A read that starts leaves the completion to its reply. -/
theorem started_read {s : State} {n : Nat} {e : Eng} {i : Instr} {p : Pending} {lat gap : Nat} (hk : p.kind = 7) :
    ∃ g, s.started n e i p lat gap = (((s.modFg n (fun c => (c.dropWrites (engWrites i) p.ord).setEng e
      { c.eng e with seq := (c.eng e).seq + 1 })).modFg n (fun c => c.setEng e { c.eng e with gate := g })).settle n
        e) := by
  unfold State.started
  rw [if_pos hk]
  exact ⟨_, rfl⟩

/-- The record of a read that starts (R254). -/
def State.readRecord (s : State) (n : Nat) (i : Instr) (q : QEntry) (loc pkg : Nat) (ans : Option ReadAns) (hent : Nat)
    (blk : List Byte) : VRead :=
  { id := q.ord + 1, instr := i, entry := { q with piece := pkg, xc := q.xa }, pc := q.pc, since := s.now,
    key := s.now + 1, d := deadlineAt (s.jtime (s.fg n).ident.job) q.xb, loc := loc, ans := ans, hent := hent, blk :=
      blk }

theorem startRead_eq (s : State) (n : Nat) (i : Instr) (q : QEntry) (loc pkg : Nat) (ans : Option ReadAns) (hent : Nat)
    (blk : List Byte) : s.startRead n i q loc pkg ans hent blk =
      .run (s.setFg n { s.fg n with vreads := (s.fg n).vreads ++ [s.readRecord n i q loc pkg ans hent blk] })
        { eng := .vx, kind := 7, ord := q.ord } := rfl

theorem stop_semTake (c : Ctx) (w : Nat) : (c.semTake w).stop = c.stop := by
  unfold Ctx.semTake
  split <;> rfl

theorem vreads_semTake (c : Ctx) (w : Nat) : (c.semTake w).vreads = c.vreads := by
  unfold Ctx.semTake
  split <;> rfl

/-- The start of a word leaves the reads of its own place in the order. -/
theorem issued_reads {c : Ctx} {v : VRead} {ord : Nat} (hv : c.vreads = [v]) (ho : v.entry.ord = ord) (w : Nat)
    (i : Instr) :
    (c.issued w i ord).vreads = [v] ∧ (c.issued w i ord).stop = c.stop := by
  constructor
  · have h : (c.issued w i ord).vreads = (c.semTake w).vreads.map (fun v => if v.entry.ord = ord then v else
      { v with entry := { v.entry with flg := v.entry.flg |||
        ((if (engWrites i).any (fun k => decide (32 ≤ k) && (engWrites v.instr).contains k) then 1 else 0) |||
          (if (engWrites i).any (fun k => decide (k < 32) && (engWrites v.instr).contains k) then 2 else 0)) } }) := rfl
    rw [h, vreads_semTake, hv, List.map_cons, if_pos ho]
    rfl
  · exact stop_semTake c w

theorem fg_retire {s : State} {n : Nat} (h : s.cur = .core n) (len k : Nat) :
    (s.retire len k).fg n = { s.fg n with pc := (s.fg n).pc + wOf len } := by
  rw [retire_core h, fg_tick, fg_modFg_self]

/-- What a read that has started at a unit at rest leaves: its record waits, its count is taken, and the PC is past
it. -/
structure State.readBegun (s t : State) (n : Nat) (w : BitVec 8) (v : VRead) (z : Ctx) : Prop where
  cur : t.cur = .core n
  lockstep : t.lockstep = true
  mem : t.mem = s.mem
  fg : t.fg n = { z with pc := (s.fg n).pc + 8 }
  regs : (s.fg n).sameRegs z
  sem : z.sem = ((s.fg n).semTake w.toNat).sem
  reads : z.vreads = [v]
  stop : z.stop = (s.fg n).stop

theorem readBegun_issueEng {s s' : State} {n : Nat} {i : Instr} {w sg : BitVec 8} {ops : BitVec 32}
    {major cls lat gap : Nat}
    {xa xb xc : Word} {eff : Eff} {v : VRead} (h : s.unitsAtRest n) (hw : encodeWord i = putWord w sg ops major cls)
    (hs : (s.fg n).semsAllow w sg) (hl : s'.lockstep = s.lockstep) (hc : s'.cur = s.cur) (hm : s'.mem = s.mem)
    (ho : v.entry.ord = (s.fg n).ord)
    (he : eff s n (s.entry n .vx (encodeWord i) 0 xa xb xc) =
      .run (s'.setFg n { s.fg n with vreads := [v] }) { eng := .vx, kind := 7, ord := (s.fg n).ord }) :
    ∃ z, s.readBegun (s.issueEng .vx i xa xb xc lat gap eff) n w v z := by
  have hwt : wfld (s.entry n .vx (encodeWord i) 0 xa xb xc).word 63 56 = w.toNat := by
    simp only [State.entry, hw, putWord_wait]
  have ht := tryEntry_rest (i := i) h (hwt ▸ semReady_of hs) he
  have hi := issueEng_rest (lat := lat) (gap := gap) h (.inl rfl) ht
  rw [hwt] at hi
  obtain ⟨g, hg⟩ := started_read (s := ((s'.setFg n { s.fg n with vreads := [v] }).modFg n
      (fun c => c.semTake w.toNat)).modFg n
    (fun c => { c with ord := c.ord + 1 })) (n := n) (e := .vx) (i := i) (lat := lat) (gap := gap)
    (p := { eng := .vx, kind := 7, sig := BitVec.ofNat 8 (wfld (s.entry n .vx (encodeWord i) 0 xa xb xc).word 55 48),
            ord := (s.fg n).ord, keys := heldKeys i }) rfl
  have hT : s.issueEng .vx i xa xb xc lat gap eff =
      ((((s'.setFg n { s.fg n with vreads := [v] }).begun n w.toNat i (s.fg n).ord).modFg n
        (fun c => c.setEng .vx { c.eng .vx with gate := g })).settle n .vx).retire 8 1 :=
    hi.trans (congrArg (fun x => State.retire x 8 1) hg)
  have hfg := fg_begun (s'.setFg n { s.fg n with vreads := [v] }) n w.toNat i (s.fg n).ord
  rw [fg_setFg_self] at hfg
  obtain ⟨ireads, istop⟩ := issued_reads (c := { s.fg n with vreads := [v] }) rfl ho w.toNat i
  obtain ⟨iregs, isem, -⟩ := issued_keeps { s.fg n with vreads := [v] } w.toNat i (s.fg n).ord
  generalize Ctx.issued { s.fg n with vreads := [v] } w.toNat i (s.fg n).ord = x at hfg ireads istop iregs isem
  have only := onlyCtx_begun (s'.setFg n { s.fg n with vreads := [v] }) n w.toNat i (s.fg n).ord
  have hymem : ((s'.setFg n { s.fg n with vreads := [v] }).begun n w.toNat i (s.fg n).ord).mem = s.mem := by
    rw [mem_begun, setFg_mem, hm]
  generalize State.begun (s'.setFg n { s.fg n with vreads := [v] }) n w.toNat i (s.fg n).ord = y at hT hfg only hymem
  obtain ⟨hcur, hlk, -⟩ := id h
  have ycur : y.cur = .core n := only.cur.trans (hc.trans hcur)
  have ylk : y.lockstep = true := only.lockstep.trans (hl.trans hlk)
  obtain ⟨g', hg'⟩ := fg_settle (y.modFg n (fun c => c.setEng .vx { c.eng .vx with gate := g })) n .vx
  rw [fg_modFg_self, hfg] at hg'
  obtain ⟨-, -, -, -, -, -, -, -, -, xpc, -⟩ := id iregs
  rw [hT]
  refine ⟨(x.setEng .vx { x.eng .vx with gate := g }).setEng .vx g', ?_, ?_, ?_, ?_, ?_, ?_, ?_, ?_⟩
  · rw [retire_cur]; exact ycur
  · rw [retire_lockstep]; exact ylk
  · rw [retire_mem]; exact hymem
  · rw [fg_retire (by exact ycur), hg', ← xpc]
    rfl
  · exact sameRegs_trans (d := x) iregs (sameRegs_trans (sameRegs_setEng _ _ _) (sameRegs_setEng _ _ _))
  · exact isem.trans (sem_semTake (c := s.fg n) (d := { s.fg n with vreads := [v] }) rfl _)
  · exact ireads
  · exact istop

/-! ## The checks of a `VTRD` block (R256) -/

/-- A block whose fields no box of elements of that width has (R256). -/
abbrev vtrdMalformed (blk : List Byte) (wd : Nat) : Prop :=
  leNat (blk.drop 29) ≠ 0 ∨ 2 ≤ u16 blk 28 % 256 ∨ u16 blk 24 = 0 ∨ u16 blk 26 = 0 ∨
    1024 < u16 blk 24 * u16 blk 26 * wd ∨ (u16 blk 28 % 256 = 1 ∧ wd ≠ 8 ∧ wd ≠ 16 ∧ wd ≠ 32) ∨ wd = 6 ∨ wd = 0

section
variable {s : State} {n : Nat} {f : FmtD} {q : QEntry}

theorem vtrdEff_misaligned (h : q.xa.toNat % 32 ≠ 0) : vtrdEff f s n q = .fault 0x0F q.xa := by
  simp only [vtrdEff]
  rw [if_pos h]

variable (h0 : q.xa.toNat % 32 = 0) (h1 : q.xa.toNat < 2 ^ 19) (hv : (s.fg n).vreads = [])
  (hl : s.leasedAt n q.xa.toNat 32 = none) (hp : s.spadPoison n q.xa.toNat 32 = false)
include h0 h1 hv hl hp

/-- The outcome by the checks of the block, where the block can be read. -/
theorem vtrdEff_checks :
    let blk := s.spadRead n q.xa.toNat 32
    let cv := u16 blk 28 % 256
    let h := s.hEntry (s.fg n).ident.job (u32 blk 0)
    let early (r : ReadAns) : Try := h.2.startRead n (.vtrd f) q 0 s.pkgid (some r) h.1 blk
    vtrdEff f s n q = if vtrdMalformed blk (packWidth (hFmt h.1)) then
      (if leNat (blk.drop 29) = 0 ∧ cv < 2 ∧ hFresh h.1 (u32 blk 0) = false then early .stale else early
        (.refused 0xFF))
    else if hFresh h.1 (u32 blk 0) = false then early .stale
    else
      let b := h.2.boxRead { core := some n, slot := (s.fg n).ident.job, mid := midFolder 0 } h.1 (origins blk 4)
        (vtrdBox blk) cv
      match b.1.fault with
      | some (0x08, v) => .late 0x08 v
      | some (0x0A, v) => early (.poison (wOf (v.toNat / 32)))
      | _ => h.2.startRead n (.vtrd f) q 1 (if b.1.far then 2048 else s.pkgid) none h.1 blk := by
  intro blk cv h early
  have hhigh : q.xa.toNat / 2 ^ 19 = 0 := Nat.div_eq_of_lt h1
  have hcount : ¬ 4 ≤ (s.fg n).readCount false := by simp [Ctx.readCount, hv]
  simp only [vtrdEff]
  rw [if_neg (not_not_intro h0), if_neg (not_not_intro hhigh), if_neg hcount, hl, hp]
  rfl

/-- What the checks come to: stale, malformed, or asked for. -/
theorem vtrdEff_block :
    let blk := s.spadRead n q.xa.toNat 32
    let cv := u16 blk 28 % 256
    let h := s.hEntry (s.fg n).ident.job (u32 blk 0)
    let wd := packWidth (hFmt h.1)
    let early (r : ReadAns) : Try := h.2.startRead n (.vtrd f) q 0 s.pkgid (some r) h.1 blk
    (leNat (blk.drop 29) = 0 → cv < 2 → hFresh h.1 (u32 blk 0) = false → vtrdEff f s n q = early .stale) ∧
      (leNat (blk.drop 29) ≠ 0 ∨ 2 ≤ cv → vtrdEff f s n q = early (.refused 0xFF)) ∧
      (leNat (blk.drop 29) = 0 → cv = 0 → hFresh h.1 (u32 blk 0) = true → 1 ≤ u16 blk 24 * u16 blk 26 * wd →
        u16 blk 24 * u16 blk 26 * wd ≤ 1024 → wd ≠ 6 →
        (h.2.boxRead { core := some n, slot := (s.fg n).ident.job, mid := midFolder 0 } h.1 (origins blk 4)
          (vtrdBox blk)
          0).1.fault = none → ∃ far, vtrdEff f s n q = h.2.startRead n (.vtrd f) q 1 far none h.1 blk) := by
  intro blk cv h wd early
  have heq := vtrdEff_checks (f := f) h0 h1 hv hl hp
  refine ⟨fun h2 h3 h4 => ?_, fun h2 => ?_, fun h2 h3 h4 h5 h6 h7 h8 => ?_⟩
  · rw [heq, if_pos (show _ ∧ _ ∧ _ from ⟨h2, h3, h4⟩), if_pos h4]
    exact ite_self _
  · rw [heq, if_pos (h2.elim .inl (fun e => .inr (.inl e))),
      if_neg (fun e => h2.elim (fun h => h e.1) (fun h => Nat.not_le.2 e.2.1 h))]
  · have hn : 0 < u16 blk 24 * u16 blk 26 := Nat.pos_of_mul_pos_right h5
    have hgood : ¬ vtrdMalformed blk wd := by
      have hcv : u16 blk 28 % 256 = 0 := h3
      have hwd : 0 < wd := Nat.pos_of_mul_pos_left h5
      have hn0 : 0 < u16 blk 24 := Nat.pos_of_mul_pos_right hn
      have hn1 : 0 < u16 blk 26 := Nat.pos_of_mul_pos_left hn
      unfold vtrdMalformed
      omega
    rw [heq, if_neg hgood, if_neg (by rw [h4]; decide)]
    simp only [show u16 (s.spadRead n q.xa.toNat 32) 28 % 256 = 0 from h3]
    exact ⟨_, by rw [show _ = none from h8]⟩

end

end Sys2Proof.Machine
end

section
/-! SUPPORT. The outcomes of a `VTRD` at a unit at rest, and the statement about the paths between a core and memory. -/

namespace Sys2Proof.Machine

theorem exec_vtrd {s : State} {n : Nat} (h : s.cur = .core n) (f : FmtD) : exec (.vtrd f) s =
    .next ((s.issueEng .vx (.vtrd f) (s.xr f.a) (s.xr f.dl) 0 2 1 (vtrdEff f)).settleRead n ((s.fg n).ord + 1)) := by
  show execVtrd f s = _
  simp only [execVtrd, State.issueRead, h]

theorem encodeWord_vtrd (f : FmtD) : encodeWord (.vtrd f) =
    putWord f.wait f.sig (BitVec.ofBool f.x ++ f.aux ++ f.st ++ f.dl ++ f.b ++ f.a ++ f.d) 61 1 := rfl

/-- The entry that a `VTRD` makes. -/
def State.vtrdEntry (s : State) (n : Nat) (f : FmtD) : QEntry :=
  s.entry n .vx (encodeWord (.vtrd f)) 0 (s.xr f.a) (s.xr f.dl) 0

theorem settleRead_none {s : State} {n id : Nat} (h : (s.fg n).vreads = []) : s.settleRead n id = s := by
  simp [State.settleRead, h]

/-- A read without an answer keeps waiting. -/
theorem settleRead_waiting {s : State} {n id : Nat} {v : VRead} (hv : (s.fg n).vreads = [v]) (ha : v.ans = none) :
    s.settleRead n id = s := by
  simp only [State.settleRead, hv, List.find?_cons, List.find?_nil]
  cases decide (v.id = id) <;> simp only [ha]

/-- The foreground in which a word has failed a start check. -/
theorem fg_push_stopFault (s : State) (n : Nat) (q : QEntry) (cause : Nat) (val : Word) :
    ((s.push n .vx q).stopFault n .vx cause val).fg n =
      ((s.push n .vx q).fg n).setEng .vx ((((s.push n .vx q).fg n).eng .vx).halt 7 cause
        (some (BitVec.ofNat 8 cause, val))) ∧
      ((s.push n .vx q).fg n).vreads = (s.fg n).vreads ∧ ((s.push n .vx q).fg n).pc = (s.fg n).pc :=
  ⟨fg_modFg_self _ _ _, by rw [State.push, fg_modFg_self]; rfl, by rw [State.push, fg_modFg_self]; rfl⟩

/-- A misaligned block stops the unit with 0x0F. -/
theorem vtrd_misaligned {s : State} {n : Nat} {f : FmtD} (h : s.unitsAtRest n) (ha : (s.xr f.a).toNat % 32 ≠ 0) :
    ∃ u : State, exec (.vtrd f) s = .next u ∧ u.pc = s.pc + 8 ∧ u.mem = s.mem ∧ (u.fg n).vx.st = .stopped ∧
      (u.fg n).vx.trap = some (0x0F, s.xr f.a) := by
  obtain ⟨hcur, -, -, -, -, -, hv, -⟩ := id h
  have he : vtrdEff f s n (s.vtrdEntry n f) = .fault 0x0F (s.xr f.a) := vtrdEff_misaligned ha
  have hi := issueEng_fault (lat := 2) (gap := 1) h he
  obtain ⟨hfg, hrd, hpc⟩ := fg_push_stopFault s n (s.vtrdEntry n f) 0x0F
    (s.xr f.a)
  have hx := exec_vtrd hcur f
  rw [hi, ← State.vtrdEntry] at hx
  have hcur' : ((s.push n .vx (s.vtrdEntry n f)).stopFault n .vx 0x0F
      (s.xr f.a)).cur = .core n := hcur
  have hret := fg_retire hcur' 8 1
  rw [settleRead_none (by rw [hret, hfg]; exact (vreads_setEng _ _ _).trans (hrd.trans hv))] at hx
  refine ⟨_, hx, ?_, ?_, ?_, ?_⟩
  · rw [pc_retire hcur', pc_core hcur', pc_core hcur, hfg]
    exact congrArg (· + 8) hpc
  · rw [retire_mem]
    rfl
  · rw [hret, hfg]
    rfl
  · rw [hret, hfg]
    rfl

/-- Where a start is answered by what completes it, the completion writes the status, takes and gives the counts, and
leaves the vectors. -/
theorem settleRead_ends {s t : State} {n code detail : Nat} {w sg : BitVec 8} {v : VRead} {f : FmtD} {z : Ctx}
    {r : ReadAns}
    (h : s.unitsAtRest n) (ht : s.readBegun t n w v z) (hs : (s.fg n).semsAllow w sg) (hstop : (s.fg n).stop = none)
    (hi : v.instr = .vtrd f) (hg : v.entry.flg = 0) (ho : v.entry.ord = (s.fg n).ord)
    (hsig : wfld v.entry.word 55 48 = sg.toNat) (ha : v.ans = some r)
    (hland : ∀ x : VRead, t.landRead n x r = t.endRead n x code detail none) :
    let u := t.settleRead n v.id
    u.pc = s.pc + 8 ∧ u.mem = s.mem ∧ (u.fg n).vreads = [] ∧ (∀ k, (u.fg n).v k = (s.fg n).v k) ∧
      (s.fg n).semsMoved (u.fg n) w sg ∧ (f.st ≠ 0 → u.xr f.st = statusWord code detail) := by
  intro u
  obtain ⟨hcur, -, -, -, -, -, -, -, hord, -⟩ := id h
  obtain ⟨tcur, tl, tmem, tfg, tregs, tsem, treads, tstop⟩ := ht
  obtain ⟨zv, -, -, -, -, -, -, -, -, -, zord⟩ := id tregs
  have hu : u = t.endRead n { v with entry := { v.entry with xc := v.entry.xc } } code detail none := by
    have hfind : (t.fg n).vreads.find? (fun x => decide (x.id = v.id)) = some v := by
      rw [tfg]
      simp [treads]
    have : u = t.replyRead n v r v.entry.xc := by
      simp only [u, State.settleRead, hfind, ha]
    rw [this, replyRead_now v r _ (by rw [tfg]; exact tstop.trans hstop) tl, hland]
  have hx (r : Nat) : tget 0 (t.fg n).xord r ≤ v.entry.ord := by
    rw [tfg, show (({ z with pc := (s.fg n).pc + 8 } : Ctx).xord) = _ from zord, ho]
    exact hord r
  obtain ⟨only, umem, urd, upc, uv, ux, usem⟩ := endRead_only (s := t) (n := n)
    (v := { v with entry := { v.entry with xc := v.entry.xc } }) (f := f) (by rw [hi]; rfl) hg
    hx
    (by rw [tfg]; simp [treads]) code detail none
  rw [← hu] at only umem urd upc uv ux usem
  have ucur : u.cur = .core n := only.cur.trans tcur
  refine ⟨?_, umem.trans tmem, urd, fun k => ?_, usem _ w sg hs (by rw [tfg]; exact tsem) hsig, fun h0 => ?_⟩
  · rw [pc_core ucur, upc, tfg, pc_core hcur]
  · rw [uv k, tfg]
    exact congrArg (fun r => tget 0 r k.toNat) zv
  · rw [xr_core ucur, ux, if_neg h0, if_pos rfl]

theorem hEntry_handles (s : State) (slot k : Nat) : ∃ l, (s.hEntry slot k).2 = { s with handles := l } := by
  unfold State.hEntry
  split <;> exact ⟨_, rfl⟩

/-- A `VTRD` whose start makes a record begins at a unit at rest. -/
theorem vtrd_begins {s : State} {n loc pkg hent : Nat} {f : FmtD} {ans : Option ReadAns} {blk : List Byte} {x : State}
    (h : s.unitsAtRest n) (hs : (s.fg n).semsAllow f.wait f.sig) (hx : ∃ l, x = { s with handles := l })
    (he : vtrdEff f s n (s.vtrdEntry n f) = x.startRead n (.vtrd f)
      (s.vtrdEntry n f) loc pkg ans hent blk) :
    let v := s.readRecord n (.vtrd f) (s.vtrdEntry n f) loc pkg ans hent blk
    ∃ t z, s.readBegun t n f.wait v z ∧ exec (.vtrd f) s = .next (t.settleRead n v.id) := by
  intro v
  obtain ⟨hcur, -, -, -, -, -, hv, -⟩ := id h
  obtain ⟨l, rfl⟩ := hx
  rw [startRead_eq, show (State.fg { s with handles := l } n).vreads = [] from hv] at he
  obtain ⟨z, hz⟩ := readBegun_issueEng (s' := { s with handles := l }) (v := v) (lat := 2) (gap := 1) h
      (encodeWord_vtrd f) hs
    rfl rfl rfl rfl he
  exact ⟨_, z, hz, exec_vtrd hcur f⟩

/-- A `VTRD` whose completion is known at its start ends with its status. -/
theorem vtrd_ends {s : State} {n loc pkg hent code detail : Nat} {f : FmtD} {r : ReadAns} {blk : List Byte} {x : State}
    (h : s.unitsAtRest n) (hstop : (s.fg n).stop = none) (hs : (s.fg n).semsAllow f.wait f.sig)
    (hx : ∃ l, x = { s with handles := l })
    (he : vtrdEff f s n (s.vtrdEntry n f) = x.startRead n (.vtrd f)
      (s.vtrdEntry n f) loc pkg (some r) hent blk)
    (hland : ∀ (t : State) (v : VRead), t.landRead n v r = t.endRead n v code detail none) :
    ∃ u : State, exec (.vtrd f) s = .next u ∧ u.pc = s.pc + 8 ∧ u.mem = s.mem ∧ (u.fg n).vreads = [] ∧
      (∀ k, (u.fg n).v k = (s.fg n).v k) ∧ (s.fg n).semsMoved (u.fg n) f.wait f.sig ∧
      (f.st ≠ 0 → u.xr f.st = statusWord code detail) := by
  obtain ⟨t, z, ht, hexec⟩ := vtrd_begins h hs hx he
  exact ⟨_, hexec, settleRead_ends h ht hs hstop rfl rfl rfl (putWord_sig _ _ _ _ _) rfl (hland t)⟩

/-- A `VTRD` whose box is asked for waits for its reply. -/
theorem vtrd_waits {s : State} {n loc pkg hent : Nat} {f : FmtD} {blk : List Byte} {x : State}
    (h : s.unitsAtRest n) (hs : (s.fg n).semsAllow f.wait f.sig) (hx : ∃ l, x = { s with handles := l })
    (he : vtrdEff f s n (s.vtrdEntry n f) = x.startRead n (.vtrd f)
      (s.vtrdEntry n f) loc pkg none hent blk) :
    ∃ (u : State) (v : VRead), exec (.vtrd f) s = .next u ∧ u.pc = s.pc + 8 ∧ u.mem = s.mem ∧ (u.fg n).vreads = [v] ∧
      v.instr = .vtrd f ∧ v.blk = blk ∧ v.hent = hent ∧ v.ans = none ∧
      v.d = deadlineAt (s.jtime (s.fg n).ident.job) (s.xr f.dl) := by
  obtain ⟨t, z, ⟨tcur, -, tmem, tfg, -, -, treads, -⟩, hexec⟩ := vtrd_begins h hs hx he
  have hr := (congrArg Ctx.vreads tfg).trans treads
  rw [settleRead_waiting hr rfl] at hexec
  obtain ⟨hcur, -⟩ := h
  refine ⟨t, _, hexec, ?_, tmem, hr, rfl, rfl, rfl, rfl, rfl⟩
  rw [pc_core tcur, tfg, pc_core hcur]

/-- Settles O45: the fetch through the page that the micro-TLB holds, the two answers of a posted write, the count of an
acknowledgement, the checks of a `VTRD` block, and its reply. -/
theorem corePathsComplete : Obligations.CorePathsComplete := by
  unfold Obligations.CorePathsComplete
  intro s n c k
  refine ⟨fun hc hout => ?_, fun t r hc hu hasid hlow hbase hfits hhigh => ?_,
      fun p off bs hp hk hd hoff hv ho hw => ?_,
    fun w a ha ho hw => postedWriteAck_counts ha ho hw, fun f h hstop hs => ?_,
    fun v f bs hv hi h0 ha hg hp ho hstop hb hd hans => ?_⟩
  · exact instructionFetch_trap hc (fetchByte_notPaged hout)
  · have page : s.onPage n t c.pc.toNat 64 := ⟨congrArg List.head? hu, hasid, hlow, hbase, hfits, hhigh⟩
    refine ⟨fun bs hbs => ?_, fun a hic hx hpa hl hperm hclean => ?_, fun hx => ?_⟩
    · obtain ⟨u, hf, hu, hkeep, hcore⟩ := fetchAt_held page hbs
      exact ⟨u, instructionFetch_ok hc hf, hu, hkeep.fg, congrArg Core.icache hcore, hkeep.mem, hkeep.now⟩
    · obtain ⟨u, bs, hf, hu, hbs, hlen, hkeep⟩ := fetchAt_code ⟨page, hx, hpa, hl, hperm, hclean⟩ hic
      exact ⟨u, bs, instructionFetch_ok hc hf, hu, hbs, hlen, hkeep.fg, hkeep.mem, hkeep.now⟩
    · have htrap := instructionFetch_trap hc (fetchByte_noExec page hx)
      rw [(fetchKeeps_keepTlb page).fg, keepTlb_onPage page] at htrap
      exact htrap
  · exact ⟨fun ha hc => postedWrite_performed hp hk hv hd hoff ha hc, fun ha => postedWrite_refused hp hk hv ho hw ha⟩
  · intro a blk e wd size conv ends
    refine ⟨vtrd_misaligned h, fun hal hin hlease hclean => ?_⟩
    obtain ⟨-, -, -, -, -, -, hv, -⟩ := id h
    obtain ⟨hstale, hbad, hsent⟩ := vtrdEff_block (f := f) (q := s.vtrdEntry n f) hal hin hv hlease hclean
    have hx := hEntry_handles s c.ident.job (u32 blk 0)
    refine ⟨fun h1 h2 h3 => vtrd_ends h hstop hs hx (hstale h1 h2 h3) (fun _ _ => rfl),
      fun h1 => vtrd_ends h hstop hs hx (hbad h1) (fun _ _ => rfl), fun h1 h2 h3 h4 h5 h6 h7 => ?_⟩
    obtain ⟨far, hfar⟩ := hsent h1 h2 h3 h4 h5 h6 h7
    exact vtrd_waits h hs hx hfar
  · exact ⟨fun hl => vtrdReply_now hv h0 ha hp hb hd hans hg ho hi hstop hl,
      fun hl => vtrdReply_later hv h0 ha hp hb hd hans hl⟩

end Sys2Proof.Machine
end

section
/-! SUPPORT. A Mangle word at a unit at rest: what a failed start check leaves, and what a completion leaves. -/

namespace Sys2Proof.Machine

/-- The entry that a Mangle word makes. -/
def State.mtEntry (s : State) (n : Nat) (i : Instr) (f : FmtM) : QEntry :=
  s.entry n .mt (encodeWord i) 0 (s.xr f.a) (s.xr f.b) 0

/-! ## A failed start check (R166, R286) -/

theorem issueM_fault {s : State} {n cause : Nat} {i : Instr} {f : FmtM} {val : Word} {eff : Eff} (h : s.unitsAtRest n)
    (he : eff s n (s.mtEntry n i f) = .fault cause val) :
    s.issueM i f eff = ((s.push n .mt (s.mtEntry n i f)).stopFault n .mt cause val).retire 8 1 := by
  obtain ⟨hcur, hl, hact, -, ⟨hst, hq, -, -⟩, -⟩ := id h
  have ht := tryEntry_fault (i := i) h he
  rw [State.mtEntry] at ht
  have hring : ((s.fg n).hact = false ∧ ((s.fg n).eng .mt).inRing = true) = False := by
    simp [Ctx.eng, Engine.inRing, hst]
  have hjam : (s.fg n).jammed .mt = false := by simp [Ctx.jammed, Ctx.eng, hst]
  have hroom : (s.fg n).hasRoom .mt = true := by simp [Ctx.hasRoom, hact, Ctx.eng, hq]
  have hfree : (s.fg n).freeNow .mt = true := by simp [Ctx.freeNow, hact, Ctx.eng, hst, hq]
  unfold State.issueM State.issueEng
  rw [onCore_core hcur]
  simp only [hring, hjam, hroom, hfree, hl, ht]
  rfl

/-- A Mangle word that fails a start check stops the engine and moves the PC past it. -/
theorem issueM_stops {s : State} {n cause : Nat} {i : Instr} {f : FmtM} {val : Word} {eff : Eff} (h : s.unitsAtRest n)
    (he : eff s n (s.mtEntry n i f) = .fault cause val) :
    let u := s.issueM i f eff
    u.pc = s.pc + 8 ∧ u.mem = s.mem ∧ (u.fg n).mt.st = .stopped ∧
      (u.fg n).mt.trap = some (BitVec.ofNat 8 cause, val) ∧ (u.fg n).regs = (s.fg n).regs := by
  intro u
  have hu : u = ((s.push n .mt (s.mtEntry n i f)).stopFault n .mt cause val).retire 8 1 := issueM_fault h he
  obtain ⟨hcur, -, hact, -⟩ := h
  have hcur' : ((s.push n .mt (s.mtEntry n i f)).stopFault n .mt cause val).cur = .core n := hcur
  have hfg : u.fg n = { ((s.push n .mt (s.mtEntry n i f)).stopFault n .mt cause val).fg n with
      pc := (s.fg n).pc + 8 } := by
    rw [hu, fg_retire hcur', State.stopFault, State.push, fg_modFg_self, fg_modFg_self]
    rfl
  have hstop : ((s.push n .mt (s.mtEntry n i f)).stopFault n .mt cause val).fg n =
      (((s.push n .mt (s.mtEntry n i f)).fg n).setEng .mt
        ((((s.push n .mt (s.mtEntry n i f)).fg n).eng .mt).halt 7 cause (some (BitVec.ofNat 8 cause, val)))) :=
    fg_modFg_self _ _ _
  have hregs : ((s.push n .mt (s.mtEntry n i f)).fg n).regs = (s.fg n).regs := by
    rw [State.push, fg_modFg_self]
    rfl
  refine ⟨?_, ?_, ?_, ?_, ?_⟩
  · rw [pc_core (hu ▸ (retire_cur _ 8 1).trans hcur'), hfg, pc_core hcur]
  · rw [hu, retire_mem]
    rfl
  · rw [hfg, hstop]
    rfl
  · rw [hfg, hstop]
    rfl
  · rw [hfg, hstop]
    exact hregs

/-! ## The registers through a start and a completion -/

theorem clean_of_noPoison {r : Regs} (h : r.pois = []) (k : Nat × Nat) : r.clean k = r := by
  simp only [Regs.clean, h, List.filter_nil]
  rw [← h]

theorem regs_semTake {c : Ctx} (h : c.regs.pois = []) (w : Nat) : (c.semTake w).regs = c.regs := by
  unfold Ctx.semTake
  split
  · rfl
  · exact clean_of_noPoison h _

theorem regs_semAdd {c d : Ctx} {k a : Nat} (hc : c.regs.pois = []) (h : c.semAdd k a = some d) : d.regs = c.regs := by
  unfold Ctx.semAdd at h
  split at h
  · exact Option.some.inj h ▸ rfl
  · split at h
    · cases h
    · exact Option.some.inj h ▸ clean_of_noPoison hc _

theorem regs_setEng (c : Ctx) (e : Eng) (g : Engine) : (c.setEng e g).regs = c.regs := by cases e <;> rfl

/-- The kinds of a command that writes no register when it completes: what it writes, its effect has written. -/
def Pending.writesNothing (p : Pending) : Prop := (p.kind = 0 ∨ p.kind = 4 ∨ p.kind = 5) ∧ p.spool = none

theorem landReg_writesNothing {p : Pending} (h : p.writesNothing) (c : Ctx) :
    (c.landReg p).regs = c.regs ∧ (c.landReg p).sem = c.sem ∧ (c.landReg p).pc = c.pc := by
  obtain ⟨h | h | h, -⟩ := h <;> simp only [Ctx.landReg, h] <;> split <;> exact ⟨rfl, rfl, rfl⟩

/-! ## A completion (R81, R282, R287) -/

/-- What the effect of a command leaves of core n for its completion: all but the registers, memory and their marks. -/
structure State.mtWrote (s s' : State) (n : Nat) : Prop where
  only : s.onlyCtx s' n
  sem : (s'.fg n).sem = (s.fg n).sem
  pc : (s'.fg n).pc = (s.fg n).pc
  clean : (s'.fg n).regs.pois = []

/-- A change of the context that keeps its counts, its PC and its poison. -/
theorem mtWrote_modFg {s : State} {n : Nat} (g : Ctx → Ctx) (hsem : (g (s.fg n)).sem = (s.fg n).sem)
    (hpc : (g (s.fg n)).pc = (s.fg n).pc) (hp : (g (s.fg n)).regs.pois = []) : s.mtWrote (s.modFg n g) n := by
  refine ⟨.modFg s n g, ?_, ?_, ?_⟩ <;> rwa [fg_modFg_self]

/-- The state in which a Mangle word has taken its count and its number and has started. -/
def State.mtBegun (s : State) (n w : Nat) (i : Instr) (ord : Nat) : State :=
  ((s.modFg n (fun c => c.semTake w)).modFg n (fun c => { c with ord := c.ord + 1 })).modFg n
    (fun c => (c.dropWrites (engWrites i) ord).setEng .mt { c.eng .mt with seq := (c.eng .mt).seq + 1 })

theorem onlyCtx_mtBegun (s : State) (n w : Nat) (i : Instr) (ord : Nat) : s.onlyCtx (s.mtBegun n w i ord) n :=
  (State.onlyCtx.modFg s n _).trans ((State.onlyCtx.modFg _ n _).trans (.modFg _ n _))

theorem fg_mtBegun (s : State) (n w : Nat) (i : Instr) (ord : Nat) :
    ((s.mtBegun n w i ord).fg n).regs = ((s.fg n).semTake w).regs ∧
      ((s.mtBegun n w i ord).fg n).sem = ((s.fg n).semTake w).sem ∧
      ((s.mtBegun n w i ord).fg n).pc = (s.fg n).pc := by
  simp only [State.mtBegun, fg_modFg_self]
  obtain ⟨-, -, -, -, -, -, -, -, -, hpc, -⟩ := sameRegs_semTake (s.fg n) w
  exact ⟨rfl, rfl, hpc⟩

/-- A Mangle word whose effect runs at a unit at rest completes at once. -/
theorem issueM_complete {s s' : State} {n k : Nat} {i : Instr} {f : FmtM} {eff : Eff} {p : Pending}
    (h : s.unitsAtRest n) (hs : (s.fg n).semsAllow f.wait f.sig) (hw : encodeWord i = putM f k)
    (he : eff s n (s.mtEntry n i f) = .run s' p) (hl : s'.lockstep = true) (hk : p.kind ≠ 7) :
    s.issueM i f eff = (((s'.mtBegun n f.wait.toNat i (s.fg n).ord).complete n .mt
      { p with sig := f.sig, ord := (s.fg n).ord, keys := heldKeys i, ring := 0, lease := 0 }).settle n .mt).retire
        8 1 := by
  have hwt : wfld (s.mtEntry n i f).word 63 56 = f.wait.toNat := by
    simp only [State.mtEntry, State.entry, hw, putM, putWord_wait]
  have hsg : BitVec.ofNat 8 (wfld (s.mtEntry n i f).word 55 48) = f.sig := by
    simp only [State.mtEntry, State.entry, hw, putM, putWord_sig, BitVec.ofNat_toNat, BitVec.setWidth_eq]
  have ht := tryEntry_rest (i := i) h (hwt ▸ semReady_of hs) he
  rw [hwt, hsg] at ht
  rw [State.issueM, issueEng_rest h (.inr rfl) ht, started_now (by exact hl) (by exact hk)]
  rfl

/-- The completion of a command that writes nothing, with its engine settled after it, leaves the registers. -/
theorem regs_retire_complete {y : State} {n : Nat} {e : Eng} {q : Pending} {d : Ctx} (hc : y.cur = .core n)
    (hclean : (y.fg n).regs.pois = []) (hq : q.writesNothing)
    (hadd : (((y.landSpool n q).fg n).landReg q).semAdd q.sig.toNat 1 = some d) :
    ((((y.complete n e q).settle n e).retire 8 1).fg n).regs = (y.fg n).regs := by
  obtain ⟨tonly, -⟩ := retire_complete (e := e) hc hadd
  have hcur := tonly.cur
  rw [retire_cur] at hcur
  have hfg : (y.complete n e q).fg n = d := by
    simp only [State.complete, State.signal, fg_modFg_self, hadd, fg_setFg_self]
  rw [landSpool_none hq.2] at hadd
  obtain ⟨lregs, -, -⟩ := landReg_writesNothing hq (y.fg n)
  obtain ⟨g, hg⟩ := fg_settle (y.complete n e q) n e
  rw [fg_retire (hcur.trans hc), hg, hfg, ← lregs]
  exact (regs_setEng d e g).trans (regs_semAdd (by rwa [lregs]) hadd)

/-- A Mangle word has completed: what its effect wrote to registers and memory stands, its semaphores have moved and
the PC is past it. -/
structure State.mtDone (s s' t : State) (n : Nat) (f : FmtM) : Prop where
  only : s.onlyCtx t n
  pc : t.pc = s.pc + 8
  sems : (s.fg n).semsMoved (t.fg n) f.wait f.sig
  regs : (t.fg n).regs = (s'.fg n).regs
  mem : t.mem = s'.mem
  poison : t.poison = s'.poison

/-- A Mangle word whose effect runs at a unit at rest, and has written all that the word writes. -/
theorem issueM_done {s s' : State} {n k : Nat} {i : Instr} {f : FmtM} {eff : Eff} {p : Pending}
    (h : s.unitsAtRest n) (hs : (s.fg n).semsAllow f.wait f.sig) (hw : encodeWord i = putM f k)
    (he : eff s n (s.mtEntry n i f) = .run s' p) (hp : p.writesNothing) (wrote : s.mtWrote s' n) :
    s.mtDone s' (s.issueM i f eff) n f := by
  obtain ⟨hcur, hl, -⟩ := id h
  have hk : p.kind ≠ 7 := by obtain ⟨hk | hk | hk, -⟩ := hp <;> simp [hk]
  rw [issueM_complete h hs hw he (wrote.only.lockstep.trans hl) hk]
  obtain ⟨yregs, ysem, ypc⟩ := fg_mtBegun s' n f.wait.toNat i (s.fg n).ord
  have yonly := onlyCtx_mtBegun s' n f.wait.toNat i (s.fg n).ord
  have ymem : (s'.mtBegun n f.wait.toNat i (s.fg n).ord).mem = s'.mem := rfl
  have ypoison : (s'.mtBegun n f.wait.toNat i (s.fg n).ord).poison = s'.poison := rfl
  generalize s'.mtBegun n f.wait.toNat i (s.fg n).ord = y at yregs ysem ypc yonly ymem ypoison ⊢
  rw [regs_semTake wrote.clean] at yregs
  have ycur : y.cur = .core n := yonly.cur.trans (wrote.only.cur.trans hcur)
  obtain ⟨q, hq⟩ : ∃ q : Pending, q = { p with
    sig := f.sig, ord := (s.fg n).ord, keys := heldKeys i, ring := 0, lease := 0 } := ⟨_, rfl⟩
  rw [← hq]
  have hqn : q.writesNothing := hq ▸ hp
  have hland : y.landSpool n q = y := landSpool_none hqn.2
  obtain ⟨-, lsem, lpc⟩ := landReg_writesNothing hqn (y.fg n)
  obtain ⟨e, he, eregs, emoved⟩ := semAdd_after_take hs (lsem.trans (ysem.trans (sem_semTake wrote.sem _)))
  have hadd : (((y.landSpool n q).fg n).landReg q).semAdd q.sig.toNat 1 = some e := by
    rw [hland, show q.sig = f.sig by rw [hq]]
    exact he
  obtain ⟨tonly, tmem, tpoison, x, -, xsem, tfg⟩ := retire_complete (e := .mt) ycur hadd
  obtain ⟨-, -, -, -, -, -, -, -, -, epc, -⟩ := eregs
  refine ⟨wrote.only.trans (yonly.trans tonly), ?_, fun k => ?_, ?_, ?_, ?_⟩
  · rw [pc_core (tonly.cur.trans ycur), tfg, pc_core hcur, ← wrote.pc, ← ypc, ← lpc, ← epc]
  · rw [← emoved k, tfg]
    simp only [Ctx.semOf, xsem]
  · exact (regs_retire_complete ycur (by rw [yregs]; exact wrote.clean) hqn hadd).trans yregs
  · rw [tmem, hland, ymem]
  · rw [tpoison, hland, ypoison]

end Sys2Proof.Machine
end

section
/-! SUPPORT. The tables that a Mangle word writes at many keys: the elements of a tile, and a codebook. -/

namespace Sys2Proof.Machine

/-! ## A table written at many keys -/

/-- A key that is not among those written keeps its value. -/
theorem tget_foldl_tset_out {α β : Type} [DecidableEq α] (d : α) (key : β → Nat) (val : β → α) {k : Nat}
    (l : List β) : ∀ m : Tbl α, (∀ x ∈ l, key x ≠ k) →
      tget d (l.foldl (fun m x => tset d m (key x) (val x)) m) k = tget d m k := by
  induction l with
  | nil => exact fun _ _ => rfl
  | cons x r ih =>
    intro m h
    rw [List.foldl_cons, ih _ (fun y hy => h y (.tail _ hy)), tget_tset_ne _ _ _ _ _ (h x (.head _))]

/-- A key that is written reads as what all its writes agree on. -/
theorem tget_foldl_tset_in {α β : Type} [DecidableEq α] (d : α) (key : β → Nat) (val : β → α) {k : Nat} {v : α}
    (l : List β) : ∀ m : Tbl α, (∃ x ∈ l, key x = k) → (∀ x ∈ l, key x = k → val x = v) →
      tget d (l.foldl (fun m x => tset d m (key x) (val x)) m) k = v := by
  induction l with
  | nil => rintro _ ⟨x, hx, -⟩; cases hx
  | cons x r ih =>
    intro m hex hall
    rw [List.foldl_cons]
    by_cases hr : ∃ y ∈ r, key y = k
    · exact ih _ hr (fun y hy => hall y (.tail _ hy))
    · obtain ⟨y, hy, hk⟩ := hex
      obtain rfl : y = x := (List.mem_cons.1 hy).resolve_right (fun h => hr ⟨y, h, hk⟩)
      rw [tget_foldl_tset_out _ _ _ _ _ (fun z hz e => hr ⟨z, hz, e⟩), hk, tget_tset_self]
      exact hall y hy hk

/-! ## The elements of a tile (R26, R161) -/

theorem tileKey_inj {t t' i i' j j' : Nat} (hi : i < 64) (hi' : i' < 64) (hj : j < 32) (hj' : j' < 32) :
    tileKey t i j = tileKey t' i' j' ↔ t = t' ∧ i = i' ∧ j = j' := by
  unfold tileKey
  omega

theorem mem_region {rows cols i j : Nat} : (i, j) ∈ region rows cols ↔ i < rows ∧ j < cols := by
  simp [region, List.mem_flatten]

/-- What a write of elements of a tile makes of every element of every tile. -/
theorem tileAt_fillTile (c : Ctx) (t : Nat) {l : List (Nat × Nat)} (pz : Bool) (g : Nat → Nat → Nat)
    (hl : ∀ x ∈ l, x.1 < 64 ∧ x.2 < 32) (k : Nat) {i j : Nat} (hi : i < 64) (hj : j < 32) :
    (c.fillTile t l pz g).tileAt k i j = if k = t ∧ (i, j) ∈ l then g i j % 2 ^ 32 else c.tileAt k i j := by
  have hfold : (c.fillTile t l pz g).tileAt k i j = (tget 0 (l.foldl (fun m x =>
      tset 0 m (tileKey t x.1 x.2) (BitVec.ofNat 32 (g x.1 x.2))) c.regs.tile) (tileKey k i j)).toNat := by
    simp only [Ctx.tileAt, Ctx.fillTile, Ctx.putTile, List.foldl_map]
  have hkey (x : Nat × Nat) (hx : x ∈ l) : tileKey t x.1 x.2 = tileKey k i j ↔ t = k ∧ x.1 = i ∧ x.2 = j :=
    tileKey_inj (hl x hx).1 hi (hl x hx).2 hj
  rw [hfold]
  split
  · next h =>
    obtain ⟨rfl, hm⟩ := h
    rw [tget_foldl_tset_in (v := BitVec.ofNat 32 (g i j)) _ _ _ _ _ ⟨(i, j), hm, rfl⟩, BitVec.toNat_ofNat]
    intro x hx e
    obtain ⟨-, rfl, rfl⟩ := (hkey x hx).1 e
    rfl
  · next h =>
    rw [tget_foldl_tset_out, Ctx.tileAt]
    intro x hx e
    obtain ⟨rfl, rfl, rfl⟩ := (hkey x hx).1 e
    exact h ⟨rfl, hx⟩

theorem tileAt_fillTile_region (c : Ctx) (t : Nat) {rows cols : Nat} (pz : Bool) (g : Nat → Nat → Nat)
    (hr : rows ≤ 64) (hc : cols ≤ 32) (k : Nat) {i j : Nat} (hi : i < 64) (hj : j < 32) :
    (c.fillTile t (region rows cols) pz g).tileAt k i j =
      if k = t ∧ i < rows ∧ j < cols then g i j % 2 ^ 32 else c.tileAt k i j := by
  rw [tileAt_fillTile c t pz g _ k hi hj]
  · simp only [mem_region]
  · rintro ⟨a, b⟩ hx
    obtain ⟨ha, hb⟩ := mem_region.1 hx
    exact ⟨by omega, by omega⟩

theorem tileBad_clean {c : Ctx} (h : ∀ k, tget false c.regs.tilePois k = false) (t : Nat) (l : List (Nat × Nat)) :
    c.tileBad t l = false := by
  simp [Ctx.tileBad, h]

/-- A tile word whose tile has a shape has the effect that it gives for the shape. -/
theorem withTile_shape {s : State} {n t rows cols : Nat} (h : (s.fg n).shape t = some (rows, cols))
    (g : Nat → Nat → Eff) (q : QEntry) : withTile t g s n q = g rows cols s n q := by
  rw [withTile, h]

/-! ## Codebooks (R52) -/

theorem getD_codebook (c : Ctx) (k : Nat) {j : Nat} (hj : j < 16) :
    (c.codebook k).getD j 0 = (tget 0 c.regs.cb (16 * (k % 16) + j)).toNat := by
  simp [Ctx.codebook, hj]

/-- The context in which codebook k holds the 16 entries of `e`, with a binding. -/
def Ctx.putCodebook (c : Ctx) (k : Nat) (e : Nat → Nat) (b : Option (Nat × Nat × Nat × Nat)) : Ctx :=
  { c with regs := { c.regs with
    cb := (List.range 16).foldl (fun m j => tset 0 m (16 * k + j) (BitVec.ofNat 16 (e j))) c.regs.cb
    bind := b } }

theorem codebook_putCodebook (c : Ctx) {m : Nat} (e : Nat → Nat) (b : Option (Nat × Nat × Nat × Nat)) (hm : m < 16)
    {k j : Nat} (hk : k < 16) (hj : j < 16) :
    ((c.putCodebook m e b).codebook k).getD j 0 = if k = m then e j % 2 ^ 16 else (c.codebook k).getD j 0 := by
  rw [getD_codebook _ _ hj, getD_codebook _ _ hj, Nat.mod_eq_of_lt hk]
  simp only [Ctx.putCodebook]
  split
  · next h =>
    subst h
    rw [tget_foldl_tset_in (v := BitVec.ofNat 16 (e j)) _ _ _ _ _ ⟨j, List.mem_range.2 hj, rfl⟩, BitVec.toNat_ofNat]
    intro x _ hx
    rw [show x = j by omega]
  · next h =>
    rw [tget_foldl_tset_out]
    intro x hx
    have := List.mem_range.1 hx
    omega

end Sys2Proof.Machine
end

section
/-! SUPPORT. Matrix multiplies, codebook loads and bindings at a unit at rest. -/

namespace Sys2Proof.Machine

variable {s : State} {n : Nat} {f : FmtM}

/-- What every completed Mangle word keeps that writes no scalar, predicate or vector register (R81). -/
def State.mtMoved (s u : State) (n : Nat) (f : FmtM) : Prop :=
  u.pc = s.pc + 8 ∧ (s.fg n).semsMoved (u.fg n) f.wait f.sig ∧ s.sameElsewhere u n ∧
    (∀ r, (u.fg n).x r = (s.fg n).x r) ∧ (∀ r, (u.fg n).p r = (s.fg n).p r) ∧ (∀ r, (u.fg n).v r = (s.fg n).v r)

/-- The effect wrote none of these registers. -/
theorem mtMoved_of_mtDone {s' u : State} (h : s.mtDone s' u n f) (hx : (s'.fg n).regs.x = (s.fg n).regs.x)
    (hp : (s'.fg n).regs.p = (s.fg n).regs.p) (hv : (s'.fg n).regs.v = (s.fg n).regs.v) : s.mtMoved u n f := by
  refine ⟨h.pc, h.sems, h.only.sameElsewhere, fun r => ?_, fun r => ?_, fun r => ?_⟩
  · simp only [Ctx.x, h.regs, hx]
  · simp only [Ctx.p, h.regs, hp]
  · simp only [Ctx.v, h.regs, hv]

/-- A Mangle word whose effect is a change of the context alone, and of none of these registers. -/
theorem issueM_modFg {k : Nat} {i : Instr} {eff : Eff} {p : Pending} {g : Ctx → Ctx} (h : s.unitsAtRest n)
    (hs : (s.fg n).semsAllow f.wait f.sig) (hw : encodeWord i = putM f k)
    (he : eff s n (s.mtEntry n i f) = .run (s.modFg n g) p) (hp : p.writesNothing)
    (hsem : (g (s.fg n)).sem = (s.fg n).sem) (hpc : (g (s.fg n)).pc = (s.fg n).pc)
    (hpois : (g (s.fg n)).regs.pois = (s.fg n).regs.pois) (hx : (g (s.fg n)).regs.x = (s.fg n).regs.x)
    (hpr : (g (s.fg n)).regs.p = (s.fg n).regs.p) (hv : (g (s.fg n)).regs.v = (s.fg n).regs.v) :
    let u := s.issueM i f eff
    s.mtMoved u n f ∧ s.sameMemory u ∧ (u.fg n).regs = (g (s.fg n)).regs := by
  intro u
  obtain ⟨-, -, -, -, -, -, -, hclean, -⟩ := id h
  have done := issueM_done h hs hw he hp (mtWrote_modFg g hsem hpc (hpois.trans hclean))
  have hg : (s.modFg n g).fg n = g (s.fg n) := fg_modFg_self s n g
  exact ⟨mtMoved_of_mtDone done (by rwa [hg]) (by rwa [hg]) (by rwa [hg]), sameMemory_of_eq done.mem done.poison,
    done.regs.trans (congrArg Ctx.regs hg)⟩

/-! ## `MMA` (R166 to R171) -/

/-- What an element's sum starts from: +0 where `MMA` overwrites, its old value where it accumulates (R171). -/
def Ctx.mmaStart (c : Ctx) (t : Nat) (ovw : Bool) (i j : Nat) : Val :=
  if ovw then .fin false 0 0 false else dec f32 (c.tileAt t i j)

theorem mmaEff_bad {rows cols : Nat} {ovw : Bool} {q : QEntry} (hsh : (s.fg n).shape f.t.toNat = some (rows, cols))
    (h : (s.fg n).mmaBad (mmaOp f q.xa q.xb) = true ∨ (s.fg n).unbound (mmaOp f q.xa q.xb) = true) :
    mmaEff f ovw s n q = .fault 0x0E q.word := by
  rw [mmaEff, withTile_shape hsh]
  exact if_pos (Bool.or_eq_true _ _ ▸ h)

/-- The command that an `MMA` becomes. -/
def mmaPend (f : FmtM) (q : QEntry) : Pending :=
  let o := mmaOp f q.xa q.xb
  { eng := .mt, kind := 5, dst := f.t.toNat, lease := o.gap, banks := o.banks, val := workVal q }

theorem mmaEff_run {rows cols : Nat} {ovw : Bool} {q : QEntry} (hsh : (s.fg n).shape f.t.toNat = some (rows, cols))
    (h : ¬((s.fg n).mmaBad (mmaOp f q.xa q.xb) = true ∨ (s.fg n).unbound (mmaOp f q.xa q.xb) = true))
    (hclean : ∀ k, tget false (s.fg n).regs.tilePois k = false) (hl : s.lockstep = true) :
    mmaEff f ovw s n q = .run (s.modFg n (fun c => c.fillTile f.t.toNat (region rows cols)
      (s.mmaPois n (mmaOp f q.xa q.xb)) (fun i j =>
        s.mmaEl n (mmaOp f q.xa q.xb) ((s.fg n).mmaStart f.t.toNat ovw i j) i j))) (mmaPend f q) := by
  have hgood : ¬((s.fg n).mmaBad (mmaOp f q.xa q.xb) || (s.fg n).unbound (mmaOp f q.xa q.xb)) = true := by
    rwa [Bool.or_eq_true]
  rw [mmaEff, withTile_shape hsh]
  simp only [tileBad_clean hclean, Bool.and_false]
  rw [if_neg hgood, if_neg Bool.false_ne_true, if_pos hl]
  rfl

/-- An `MMA` at a unit at rest whose operands pass the checks gives each element of its tile's region its sum. -/
theorem mma_multiplies {i : Instr} {ovw : Bool} {rows cols : Nat} (h : s.unitsAtRest n)
    (hs : (s.fg n).semsAllow f.wait f.sig) (hclean : ∀ k, tget false (s.fg n).regs.tilePois k = false)
    (hw : encodeWord i = putM f 1) (hsh : (s.fg n).shape f.t.toNat = some (rows, cols)) (hr : rows ≤ 64)
    (hc : cols ≤ 32) (hgood : ¬((s.fg n).mmaBad (mmaOp f (s.xr f.a) (s.xr f.b)) = true ∨
      (s.fg n).unbound (mmaOp f (s.xr f.a) (s.xr f.b)) = true)) :
    let u := s.issueM i f (mmaEff f ovw)
    s.mtMoved u n f ∧ s.sameMemory u ∧ ∀ k i j, k < 8 → i < 64 → j < 32 → (u.fg n).tileAt k i j =
      if k = f.t.toNat ∧ i < rows ∧ j < cols then
        s.mmaEl n (mmaOp f (s.xr f.a) (s.xr f.b)) ((s.fg n).mmaStart f.t.toNat ovw i j) i j % 2 ^ 32
      else (s.fg n).tileAt k i j := by
  intro u
  obtain ⟨-, hl, -⟩ := id h
  have he := mmaEff_run (ovw := ovw) (q := s.mtEntry n i f) hsh hgood hclean hl
  obtain ⟨hmoved, hmem, hregs⟩ := issueM_modFg h hs hw he ⟨.inr (.inr rfl), rfl⟩ rfl rfl rfl rfl rfl rfl
  refine ⟨hmoved, hmem, fun k i j _ hi hj => ?_⟩
  rw [Ctx.tileAt, hregs]
  exact tileAt_fillTile_region (s.fg n) f.t.toNat _ _ hr hc k hi hj

/-- An `MMA` at a unit at rest with bad operands stops its engine. -/
theorem mma_stops {i : Instr} {ovw : Bool} {rows cols : Nat} (h : s.unitsAtRest n)
    (hsh : (s.fg n).shape f.t.toNat = some (rows, cols))
    (hbad : (s.fg n).mmaBad (mmaOp f (s.xr f.a) (s.xr f.b)) = true ∨
      (s.fg n).unbound (mmaOp f (s.xr f.a) (s.xr f.b)) = true) :
    let u := s.issueM i f (mmaEff f ovw)
    u.pc = s.pc + 8 ∧ (u.fg n).mt.st = .stopped ∧ (u.fg n).mt.trap = some (0x0E, encodeWord i) ∧
      (u.fg n).regs = (s.fg n).regs := by
  have he : mmaEff f ovw s n (s.mtEntry n i f) = .fault 0x0E (encodeWord i) := mmaEff_bad hsh hbad
  obtain ⟨hpc, -, hst, htrap, hregs⟩ := issueM_stops h he
  exact ⟨hpc, hst, htrap, hregs⟩

/-! ### The sum of a single block -/

theorem kstep_eq_four (ty : Nat) : kstep ty = 4 ↔ ty = 7 ∨ ty = 8 := by
  unfold kstep
  split_ifs <;> omega

/-- The products of the first block are those of all k where one block is all of them. -/
theorem blockProds_first (c : Ctx) (rd : Pad) (o : MmaOp) (i j : Nat) :
    c.blockProds rd o i j 0 = (List.range (min 32 o.k)).map (fun k =>
      prodOf (decide (o.fa = 7 ∨ o.fa = 8))
        (mxElem o.fa (c.codebook (c.regs.bind.getD (0, 0, 0, 0)).2.1) (aCode rd o i k))
        (mxElem o.fb (c.codebook (c.regs.bind.getD (0, 0, 0, 0)).2.2.2) (bCode rd o j k))) := by
  simp only [Ctx.blockProds, kstep_eq_four, Nat.mul_zero, Nat.sub_zero, Nat.zero_add]

theorem mmaEl_oneBlock (s : State) (n : Nat) {o : MmaOp} (h : o.nb = 1) (acc : Val) (i j : Nat) :
    s.mmaEl n o acc i j = rneBits ((s.fg n).blockAcc (s.spadNum n) o i j 0 acc) := by
  rw [State.mmaEl, h]
  rfl

/-! ## `MCBLD` and `MBIND` (R182 to R184) -/

theorem memNat_lt (m : List Host.Cell) (a k : Nat) : memNat m a k < 256 ^ k := by
  induction k generalizing a with
  | zero => exact Nat.one_pos
  | succ k ih =>
    have hrec := ih (a + 1)
    have hb := (memByte m a).isLt
    rw [memNat, memRead, leNat, Nat.pow_succ]
    rw [memNat] at hrec
    omega

/-- A codebook load writes the codebook, and may take the binding away. -/
theorem mcbldEff_run {q : QEntry} (ha : q.xa.toNat % 32 = 0) (hb : q.xa.toNat < 0x80000)
    (hp : s.spadPoison n q.xa.toNat 32 = false) : ∃ g : Ctx → Ctx, mcbldEff f s n q = .run (s.modFg n g) plainPend ∧
      ∀ c, ∃ b, g c = c.putCodebook f.aux.toNat (fun j => s.spadNum n (q.xa.toNat + 2 * j) 2) b :=
  ⟨_, (if_neg (by omega)).trans (if_neg (by rw [hp]; exact Bool.false_ne_true)), fun _ => ⟨_, rfl⟩⟩

theorem mcbld_loads (h : s.unitsAtRest n) (hs : (s.fg n).semsAllow f.wait f.sig) (ha : (s.xr f.a).toNat % 32 = 0)
    (hb : (s.xr f.a).toNat < 0x80000) (hp : s.spadPoison n (s.xr f.a).toNat 32 = false) :
    let u := s.issueM (.mcbld f) f (mcbldEff f)
    s.mtMoved u n f ∧ s.sameMemory u ∧ ∀ k j, k < 16 → j < 16 → ((u.fg n).codebook k).getD j 0 =
      if k = f.aux.toNat then memNat s.mem (spadKey n ((s.xr f.a).toNat + 2 * j)) 2
      else ((s.fg n).codebook k).getD j 0 := by
  intro u
  obtain ⟨g, he, hg⟩ := mcbldEff_run (f := f) (q := s.mtEntry n (.mcbld f) f) ha hb hp
  obtain ⟨b, hput⟩ := hg (s.fg n)
  obtain ⟨hmoved, hmem, hregs⟩ := issueM_modFg (k := 11) h hs rfl he ⟨.inl rfl, rfl⟩ (by rw [hput]; rfl)
    (by rw [hput]; rfl) (by rw [hput]; rfl) (by rw [hput]; rfl) (by rw [hput]; rfl) (by rw [hput]; rfl)
  refine ⟨hmoved, hmem, fun k j hk hj => ?_⟩
  have hcb := codebook_putCodebook (s.fg n) (fun j => s.spadNum n ((s.xr f.a).toNat + 2 * j) 2) b f.aux.isLt hk hj
  have hword : s.spadNum n ((s.xr f.a).toNat + 2 * j) 2 < 2 ^ 16 := memNat_lt _ _ 2
  rw [Nat.mod_eq_of_lt hword] at hcb
  rw [Ctx.codebook, hregs, hput]
  exact hcb

theorem mbind_binds (h : s.unitsAtRest n) (hs : (s.fg n).semsAllow f.wait f.sig) :
    let u := s.issueM (.mbind f) f (mbindEff f)
    let ia := (s.xr f.a).toNat
    s.mtMoved u n f ∧ s.sameMemory u ∧ (u.fg n).regs.bind =
      some (f.fa.toNat, if f.fa = 8 then ia % 16 else 0, f.fb.toNat, if f.fb = 8 then ia / 16 % 16 else 0) := by
  intro u ia
  obtain ⟨hmoved, hmem, hregs⟩ := issueM_modFg (k := 12) (i := .mbind f) (eff := mbindEff f) h hs rfl rfl
    ⟨.inl rfl, rfl⟩ rfl rfl rfl rfl rfl rfl
  refine ⟨hmoved, hmem, ?_⟩
  have hside (ty : BitVec 5) (v : Nat) : sideCb ty.toNat v = if ty = 8 then v else 0 := by
    simp only [sideCb, BitVec.toNat_eq]
    rfl
  rw [hregs]
  simp only [hside, State.mtEntry, State.entry, wfld, fld, Nat.pow_zero, Nat.div_one]
  rfl

end Sys2Proof.Machine
end

section
/-! SUPPORT. Rows of bytes in a scratchpad: what a drain's pieces make of memory, and a number read within a row. -/

namespace Sys2Proof.Machine

/-! ## Bytes in a row -/

theorem memWrite_append (xs ys : List Byte) : ∀ (m : List Host.Cell) (a : Nat),
    memWrite m a (xs ++ ys) = memWrite (memWrite m a xs) (a + xs.length) ys := by
  induction xs with
  | nil => exact fun _ _ => rfl
  | cons x r ih =>
    intro m a
    rw [List.cons_append, memWrite, ih, List.length_cons, show a + (r.length + 1) = a + 1 + r.length by omega]
    rfl

/-- The number in k + j bytes, from those in the first k and in the rest (R5). -/
theorem memNat_add (m : List Host.Cell) (k j : Nat) : ∀ a,
    memNat m a (k + j) = memNat m a k + 256 ^ k * memNat m (a + k) j := by
  induction k with
  | zero => intro a; simp [memNat, memRead, leNat]
  | succ k ih =>
    intro a
    have h := ih (a + 1)
    simp only [memNat] at h ⊢
    rw [show k + 1 + j = k + j + 1 by omega, memRead, leNat, h, memRead, leNat, show a + (k + 1) = a + 1 + k by omega]
    ring

/-- The number in k of K bytes. -/
theorem memNat_within (m : List Host.Cell) (a : Nat) {d k K : Nat} (h : d + k ≤ K) :
    memNat m (a + d) k = memNat m a K / 256 ^ d % 256 ^ k := by
  obtain ⟨r, rfl⟩ := Nat.exists_eq_add_of_le h
  rw [Nat.add_assoc, memNat_add, memNat_add, Nat.add_mul_div_left _ _ (by positivity),
    Nat.div_eq_of_lt (memNat_lt _ _ _), Nat.zero_add, Nat.add_mul_mod_self_left, Nat.mod_eq_of_lt (memNat_lt _ _ _)]

/-- The number that 32-bit elements make, packed from bit 0 (R50). -/
def wordsNat (l : List Nat) : Nat := l.foldr (fun x r => x % 2 ^ 32 + 2 ^ 32 * r) 0

theorem wordsNat_lt (l : List Nat) : wordsNat l < (2 ^ 32) ^ l.length := by
  induction l with
  | nil => exact Nat.one_pos
  | cons x r ih =>
    rw [List.length_cons, Nat.pow_succ, wordsNat, List.foldr_cons, ← wordsNat]
    omega

theorem wordsNat_element (l : List Nat) : ∀ j, wordsNat l / (2 ^ 32) ^ j % 2 ^ 32 = l.getD j 0 % 2 ^ 32 := by
  induction l with
  | nil => intro j; simp [wordsNat]
  | cons x r ih =>
    intro j
    rw [wordsNat, List.foldr_cons, ← wordsNat]
    cases j with
    | zero =>
      rw [Nat.pow_zero, Nat.div_one, List.getD_cons_zero]
      omega
    | succ j =>
      rw [List.getD_cons_succ, ← ih j, pow_succ' (2 ^ 32) j, ← Nat.div_div_eq_div_mul,
        Nat.add_mul_div_left _ _ (by decide), Nat.div_eq_of_lt (Nat.mod_lt _ (by decide)), Nat.zero_add]

/-- A row of L elements of 32 bits in memory, element by element. -/
theorem memNat_wordsRow {m : List Host.Cell} {a L : Nat} {l : List Nat} (hl : l.length = L)
    (h : memRead m a (4 * L) = leBytes (4 * L) (wordsNat l)) {j : Nat} (hj : j < L) :
    memNat m (a + 4 * j) 4 = l.getD j 0 % 2 ^ 32 := by
  have hrow : memNat m a (4 * L) = wordsNat l := by
    rw [memNat, h, leNat_leBytes, pow_mul, ← hl]
    exact Nat.mod_eq_of_lt (wordsNat_lt l)
  rw [memNat_within m a (show 4 * j + 4 ≤ 4 * L by omega), hrow, pow_mul]
  exact wordsNat_element l j

/-! ## Rows in memory -/

/-- The memory in which rows of bytes have been written one after the other. -/
def memRows (m : List Host.Cell) (key : Nat → Nat) (row : Nat → List Byte) (r : Nat) : List Host.Cell :=
  (List.range r).foldl (fun m i => memWrite m (key i) (row i)) m

theorem memRows_succ (m : List Host.Cell) (key : Nat → Nat) (row : Nat → List Byte) (r : Nat) :
    memRows m key row (r + 1) = memWrite (memRows m key row r) (key r) (row r) := by
  simp [memRows, List.range_succ]

section
variable (m : List Host.Cell) {key : Nat → Nat} {row : Nat → List Byte} {L : Nat} (hL : ∀ i, (row i).length = L)
include hL

theorem memByte_memRows_out (b : Nat) (r : Nat) : (∀ i, i < r → ¬(key i ≤ b ∧ b < key i + L)) →
    memByte (memRows m key row r) b = memByte m b := by
  induction r with
  | zero => exact fun _ => rfl
  | succ r ih =>
    intro h
    have hr := h r (Nat.lt_succ_self r)
    rw [memRows_succ, memByte_memWrite_out _ _ _ _ (by rw [hL]; omega), ih (fun i hi => h i (by omega))]

/-- Of rows that do not overlap, each reads back. -/
theorem memRead_memRows (r : Nat) : (∀ i j, i < j → j < r → key i + L ≤ key j) → ∀ i, i < r →
    memRead (memRows m key row r) (key i) L = row i := by
  induction r with
  | zero => exact fun _ i hi => absurd hi (Nat.not_lt_zero i)
  | succ r ih =>
    intro hsep i hi
    rw [memRows_succ]
    by_cases e : i = r
    · subst e
      rw [← hL i, memRead_memWrite_same]
    · have hir := hsep i r (by omega) (Nat.lt_succ_self r)
      rw [memRead_memWrite_out _ _ _ _ _ (.inl hir), ih (fun a b hab hb => hsep a b hab (by omega)) i (by omega)]

end

/-! ## The writes of a drain (R178) -/

/-- Writes of core n's scratchpad have changed nothing of its context but the mask of what is dirty. -/
structure State.padWrote (s t : State) (n : Nat) : Prop where
  only : s.onlyCtx t n
  ctx : ∃ m, t.fg n = { s.fg n with dirty := m }

namespace State.padWrote

theorem refl (s : State) (n : Nat) : s.padWrote s n := ⟨⟨rfl, rfl, fun _ _ => rfl⟩, _, rfl⟩

theorem trans {s t u : State} {n : Nat} (h : s.padWrote t n) (g : t.padWrote u n) : s.padWrote u n := by
  obtain ⟨honly, m, hm⟩ := h
  obtain ⟨gonly, k, hk⟩ := g
  exact ⟨honly.trans gonly, k, by rw [hk, hm]⟩

theorem spadWrite (s : State) (n off : Nat) (bs : List Byte) : s.padWrote (s.spadWrite n off bs) n :=
  ⟨.spadWrite s n off bs, _, fg_spadWrite s n off bs⟩

end State.padWrote

theorem spadKey_add {n off k : Nat} (h : off + k < 2 ^ 19) : spadKey n (off + k) = spadKey n off + k := by
  unfold spadKey
  omega

/-- Performs the pieces of a drain in order. -/
def State.drainPieces (s : State) (n : Nat) (l : List (List (Nat × List Byte))) : State :=
  l.foldl (fun s x => s.drainPiece n x) s

/-- The pieces of a row write its bytes. -/
theorem drainPieces_rowPieces (n k : Nat) : ∀ (s : State) (off : Nat) (bs : List Byte), bs.length ≤ 64 * k →
    off + bs.length ≤ 2 ^ 19 → s.padWrote (s.drainPieces n (rowPieces off k bs)) n ∧
      (s.drainPieces n (rowPieces off k bs)).mem = memWrite s.mem (spadKey n off) bs := by
  induction k with
  | zero =>
    intro s off bs hk _
    obtain rfl : bs = [] := List.eq_nil_of_length_eq_zero (by omega)
    exact ⟨.refl s n, rfl⟩
  | succ k ih =>
    intro s off bs hk hoff
    by_cases hnil : bs = []
    · subst hnil
      exact ⟨.refl s n, rfl⟩
    · have hcons : s.drainPieces n (rowPieces off (k + 1) bs) =
          (s.spadWrite n off (bs.take 64)).drainPieces n (rowPieces (off + 64) k (bs.drop 64)) := by
        rw [rowPieces, if_neg (by simpa using hnil)]
        rfl
      rw [hcons]
      by_cases hlong : bs.length ≤ 64
      · have hdrop : rowPieces (off + 64) k (bs.drop 64) = [] := by
          rw [List.drop_of_length_le hlong]
          cases k <;> rfl
        rw [hdrop, List.take_of_length_le hlong]
        exact ⟨.spadWrite s n off bs, rfl⟩
      · obtain ⟨hw, hm⟩ := ih (s.spadWrite n off (bs.take 64)) (off + 64) (bs.drop 64)
          (by rw [List.length_drop]; omega) (by rw [List.length_drop]; omega)
        refine ⟨(State.padWrote.spadWrite s n off _).trans hw, hm.trans ?_⟩
        have htake : (bs.take 64).length = 64 := by rw [List.length_take]; omega
        have happ := memWrite_append (bs.take 64) (bs.drop 64) s.mem (spadKey n off)
        rw [List.take_append_drop, htake, ← spadKey_add (by omega)] at happ
        exact happ.symm

/-- The pieces of rows, row by row. -/
theorem drainPieces_rows (s : State) (n k : Nat) (off : Nat → Nat) (row : Nat → List Byte) (r : Nat) :
    (∀ i, i < r → (row i).length ≤ 64 * k ∧ off i + (row i).length ≤ 2 ^ 19) →
    let t := s.drainPieces n ((List.range r).map (fun i => rowPieces (off i) k (row i))).flatten
    s.padWrote t n ∧ t.mem = memRows s.mem (fun i => spadKey n (off i)) row r := by
  induction r with
  | zero => exact fun _ => ⟨.refl s n, rfl⟩
  | succ r ih =>
    intro h t
    obtain ⟨hw, hm⟩ := ih (fun i hi => h i (by omega))
    obtain ⟨hlen, hoff⟩ := h r (Nat.lt_succ_self r)
    have ht : t = (s.drainPieces n ((List.range r).map (fun i => rowPieces (off i) k (row i))).flatten).drainPieces n
        (rowPieces (off r) k (row r)) := by
      simp [t, State.drainPieces, List.range_succ]
    obtain ⟨hw', hm'⟩ := drainPieces_rowPieces n k
      (s.drainPieces n ((List.range r).map (fun i => rowPieces (off i) k (row i))).flatten) (off r) (row r) hlen hoff
    rw [ht, memRows_succ, hm', hm]
    exact ⟨hw.trans hw', rfl⟩

end Sys2Proof.Machine
end

section
/-! SUPPORT. A plain drain of FP32 elements at a unit at rest. -/

namespace Sys2Proof.Machine

variable {s : State} {n : Nat} {f : FmtM}

/-- FP32 elements are drained as they are, without a flag (R178). -/
theorem convList_drainEl_f32 (rm : Nat) (nanz : Bool) (cb l : List Nat) (st : FpSt) :
    convList (drainEl 0 rm nanz cb) l st = (l, st) := by
  induction l with
  | nil => rfl
  | cons e r ih =>
    rw [convList, drainEl, if_pos rfl]
    simp only [ih]

theorem packRow_f32 (l : List Nat) : packRow 0 l = leBytes (4 * l.length) (wordsNat l) := by
  have : rowBytes 0 l.length = 4 * l.length := by
    show (l.length * 32 + 7) / 8 = _
    omega
  rw [packRow, this]
  rfl

/-- The writes of a drain whose rows leave the flags and the generator. -/
theorem drainRows_pure {row : Nat → FpSt → List (List (Nat × List Byte)) × FpSt}
    {ps : Nat → List (List (Nat × List Byte))}
    (h : ∀ i st, row i st = (ps i, st)) (r : Nat) : ∀ i st,
    drainRows row r i st = (((List.range' i r).map ps).flatten, st) := by
  induction r with
  | zero => exact fun _ _ => rfl
  | succ r ih =>
    intro i st
    simp [drainRows, h, ih, List.range'_succ]

theorem bfmt_zero {c : Ctx} (h : ∀ k, k < 16 → c.bfmt k = 0) (k : Nat) : c.bfmt k = 0 := by
  have := h (k % 16) (Nat.mod_lt _ (by decide))
  rwa [Ctx.bfmt, Nat.mod_mod] at this

/-- The elements of a row of a tile. -/
def Ctx.tileRow (c : Ctx) (t cols i : Nat) : List Nat := (List.range cols).map (fun j => c.tileAt t i j)

/-- The pieces of a plain drain of FP32 elements. -/
def Ctx.drainF32 (c : Ctx) (t rows cols a st : Nat) : List (List (Nat × List Byte)) :=
  ((List.range rows).map (fun i => rowPieces (a + i * st) (pieces (4 * cols)) (packRow 0 (c.tileRow t cols i)))).flatten

/-- A plain drain of FP32 elements that passes its checks (R178, R179). -/
theorem mdrainEff_run {rows cols : Nat} {q : QEntry} (hsh : (s.fg n).shape f.t.toNat = some (rows, cols))
    (hclean : ∀ k, tget false (s.fg n).regs.tilePois k = false) (hl : s.lockstep = true) (hfa : f.fa = 0)
    (hb : ∀ k, k < 16 → (s.fg n).bfmt k = 0) (ha : q.xa.toNat < 0x80000) (ha4 : q.xa.toNat % 4 = 0)
    (hst4 : q.xb.toNat % 4 = 0) (hin : q.xa.toNat + (rows - 1) * q.xb.toNat + 4 * cols ≤ 0x80000) :
    mdrainEff f s n q = .run ((s.modFg n (fun c => c.setSeed { fl := 0, seed := (s.fg n).csr.srseed })).drainPieces n
      ((s.fg n).drainF32 f.t.toNat rows cols q.xa.toNat q.xb.toNat)) { plainPend with fl := 0 } := by
  have hrow : rowBytes 0 cols = 4 * cols := by
    show (cols * 32 + 7) / 8 = _
    omega
  have hmx : fmtMx 0 = 0 := rfl
  have hty : fmtTy 0 = 0 := rfl
  have hzero : (0 : BitVec 5).toNat = 0 := rfl
  rw [mdrainEff, withTile_shape hsh]
  simp only [bfmt_zero hb, hfa, hmx, hty, hzero, hrow, tileBad_clean hclean, decide_true, if_true,
    convList_drainEl_f32]
  rw [if_neg (by simp; omega), if_neg (by simp), if_neg Bool.false_ne_true, drainRows_pure (fun _ _ => rfl),
    modFg_lockstep, if_pos hl, ← List.range_eq_range']
  rfl

theorem length_tileRow (c : Ctx) (t cols i : Nat) : (c.tileRow t cols i).length = cols := by simp [Ctx.tileRow]

theorem length_packRow_tileRow (c : Ctx) (t cols i : Nat) : (packRow 0 (c.tileRow t cols i)).length = 4 * cols := by
  rw [packRow_f32, leBytes_length, length_tileRow]

theorem getD_tileRow (c : Ctx) (t i : Nat) {cols j : Nat} (hj : j < cols) :
    (c.tileRow t cols i).getD j 0 % 2 ^ 32 = c.tileAt t i j := by
  have hlt : c.tileAt t i j < 2 ^ 32 := (tget 0 c.regs.tile (tileKey t i j)).isLt
  rw [← Nat.mod_eq_of_lt hlt]
  simp [Ctx.tileRow, hj]

/-- Every row of a drain lies in the scratchpad where the last one does. -/
theorem row_le {rows i st : Nat} (hi : i < rows) : i * st ≤ (rows - 1) * st := Nat.mul_le_mul_right st (by omega)

/-- What the pieces of a plain drain of FP32 elements write. -/
theorem drainF32_writes (s : State) (n : Nat) (c : Ctx) (t : Nat) {rows cols a st : Nat}
    (hin : a + (rows - 1) * st + 4 * cols ≤ 0x80000) :
    let u := s.drainPieces n (c.drainF32 t rows cols a st)
    s.padWrote u n ∧
      u.mem = memRows s.mem (fun i => spadKey n (a + i * st)) (fun i => packRow 0 (c.tileRow t cols i)) rows := by
  refine drainPieces_rows s n (pieces (4 * cols)) (fun i => a + i * st) (fun i => packRow 0 (c.tileRow t cols i)) rows
    (fun i hi => ?_)
  have := row_le (st := st) hi
  rw [length_packRow_tileRow, pieces]
  omega

/-- Rows of a tile that do not overlap in the scratchpad read back, element by element. -/
theorem memNat_tileRows (m : List Host.Cell) (n : Nat) (c : Ctx) (t : Nat) {rows cols a st i j : Nat}
    (hsep : 4 * cols ≤ st) (hin : a + (rows - 1) * st + 4 * cols ≤ 0x80000) (hi : i < rows) (hj : j < cols) :
    memNat (memRows m (fun i => spadKey n (a + i * st)) (fun i => packRow 0 (c.tileRow t cols i)) rows)
      (spadKey n (a + i * st + 4 * j)) 4 = c.tileAt t i j := by
  have hrow := memRead_memRows m (length_packRow_tileRow c t cols) (key := fun i => spadKey n (a + i * st)) rows
    (fun x y hxy hy => ?_) i hi
  · have hlast := row_le (st := st) hi
    rw [packRow_f32, length_tileRow] at hrow
    rw [spadKey_add (by omega), memNat_wordsRow (length_tileRow c t cols i) hrow hj, getD_tileRow _ _ _ hj]
  · have hlast := row_le (st := st) hy
    have hnext : (x + 1) * st ≤ y * st := Nat.mul_le_mul_right _ hxy
    rw [Nat.succ_mul] at hnext
    simp only [spadKey]
    omega

/-- A plain drain of FP32 elements at a unit at rest writes the rows of its tile. -/
theorem mdrain_done {rows cols : Nat} (h : s.unitsAtRest n) (hs : (s.fg n).semsAllow f.wait f.sig)
    (hclean : ∀ k, tget false (s.fg n).regs.tilePois k = false)
    (hsh : (s.fg n).shape f.t.toNat = some (rows, cols)) (hfa : f.fa = 0)
    (hb : ∀ k, k < 16 → (s.fg n).bfmt k = 0) (ha : (s.xr f.a).toNat < 0x80000) (ha4 : (s.xr f.a).toNat % 4 = 0)
    (hst4 : (s.xr f.b).toNat % 4 = 0)
    (hin : (s.xr f.a).toNat + (rows - 1) * (s.xr f.b).toNat + 4 * cols ≤ 0x80000) :
    let u := s.issueM (.mdrain f) f (mdrainEff f)
    s.mtMoved u n f ∧ u.mem = memRows s.mem (fun i => spadKey n ((s.xr f.a).toNat + i * (s.xr f.b).toNat))
      (fun i => packRow 0 ((s.fg n).tileRow f.t.toNat cols i)) rows := by
  intro u
  obtain ⟨-, hl, -, -, -, -, -, hpois, -⟩ := id h
  have he := mdrainEff_run (q := s.mtEntry n (.mdrain f) f) hsh hclean hl hfa hb ha ha4 hst4 hin
  obtain ⟨⟨wonly, m, wfg⟩, wmem⟩ := drainF32_writes
    (s.modFg n (fun c => c.setSeed { fl := 0, seed := (s.fg n).csr.srseed })) n (s.fg n) f.t.toNat hin
  have hregs := congrArg Ctx.regs wfg
  rw [fg_modFg_self] at wfg hregs
  have done := issueM_done (k := 10) h hs rfl he ⟨.inl rfl, rfl⟩ ⟨(State.onlyCtx.modFg s n _).trans wonly,
    (congrArg Ctx.sem wfg :), (congrArg Ctx.pc wfg :), (congrArg Regs.pois hregs).trans hpois⟩
  exact ⟨mtMoved_of_mtDone done (congrArg Regs.x hregs) (congrArg Regs.p hregs) (congrArg Regs.v hregs),
    done.mem.trans wmem⟩

end Sys2Proof.Machine
end

section
/-! SUPPORT. The statement about the multiplies, drains, codebooks and bindings of the Mangle. -/

namespace Sys2Proof.Machine

/-- Settles O40: each word by what its effect comes to at a unit at rest, and the sum of a single block from its
products. -/
theorem matrixInstructions : Obligations.MatrixInstructions := by
  unfold Obligations.MatrixInstructions
  intro s n f h hs hclean c t o ia moved bad stops
  refine ⟨fun rows cols hsh hr hc => ?_, fun hnb acc i j => ?_,
    fun ha hb hp => ⟨_, rfl, mcbld_loads h hs ha hb hp⟩, ⟨_, rfl, mbind_binds h hs⟩⟩
  · intro multiplies
    refine ⟨fun hbad => ?_, fun hgood => ?_, fun hfa hb ha ha4 hst4 hsep _ hin => ?_⟩
    · have stop {i : Instr} {ovw : Bool} (hx : exec i s = .next (s.issueM i f (mmaEff f ovw))) : stops i :=
        ⟨_, hx, mma_stops h hsh hbad⟩
      exact ⟨stop rfl, stop rfl, stop rfl, stop rfl⟩
    · have mult (i : Instr) (ovw : Bool) (hx : exec i s = .next (s.issueM i f (mmaEff f ovw)))
          (hw : encodeWord i = putM f 1) : multiplies i (c.mmaStart t ovw) :=
        ⟨_, hx, mma_multiplies h hs hclean hw hsh hr hc hgood⟩
      exact ⟨mult _ false rfl rfl, mult _ false rfl rfl, mult _ true rfl rfl, mult _ true rfl rfl⟩
    · obtain ⟨hmoved, hmem⟩ := mdrain_done h hs hclean hsh hfa hb ha ha4 hst4 hin
      refine ⟨_, rfl, hmoved, fun i j hi hj => ?_, fun b hout => ?_⟩
      · rw [hmem]
        exact memNat_tileRows s.mem n c t hsep hin hi hj
      · rw [hmem]
        exact memByte_memRows_out s.mem (length_packRow_tileRow c t cols) b rows hout
  · rw [mmaEl_oneBlock s n hnb, Ctx.blockAcc, blockProds_first]

end Sys2Proof.Machine
end

section
/-! SUPPORT. Copy packets and engine words forwarded into their queues (R93, R95, R282 to R284). -/

namespace Sys2Proof.Machine

variable {s : State} {n : Nat} {c : Ctx} {g : BitVec 2} {e : Eng}

/-! ## The engine of a packet (R95) -/

/-- The engine that the field `eng` of a packet picks while no handler runs: the one it names, or of the two the one not
in ring mode with more free entries. -/
def Ctx.picks (c : Ctx) (g : BitVec 2) (e : Eng) : Prop := (g = 1 ∧ e = .ce0) ∨ (g = 2 ∧ e = .ce1) ∨
  (g = 0 ∧ e = if c.ce1.inRing then .ce0 else if c.ce0.inRing then .ce1
    else if c.ce0.q.length ≤ c.ce1.q.length then .ce0 else .ce1)

/-- An engine that takes forwarded words into its queue and has room there. -/
def Ctx.hasPlace (c : Ctx) (e : Eng) : Prop := (c.eng e).inRing = false ∧ (c.eng e).q.length < 16

theorem open_queue (h : c.hact = false) (e : Eng) : c.open' e = !(c.eng e).inRing := by simp [Ctx.open', h]

theorem freeOf_queue (h : c.hact = false) (e : Eng) : c.freeOf e = 16 - (c.eng e).q.length := by simp [Ctx.freeOf, h]

/-- The engine that a packet for either of the two picks. -/
theorem picks_either (hp : c.picks 0 e) : e = if c.ce1.inRing then .ce0 else if c.ce0.inRing then .ce1
    else if c.ce0.q.length ≤ c.ce1.q.length then .ce0 else .ce1 := by
  rcases hp with ⟨hg, -⟩ | ⟨hg, -⟩ | ⟨-, he⟩
  · exact absurd hg (by decide)
  · exact absurd hg (by decide)
  · exact he

theorem picks_copyEngine (hp : c.picks g e) : e = .ce0 ∨ e = .ce1 := by
  rcases hp with ⟨-, rfl⟩ | ⟨-, rfl⟩ | ⟨-, rfl⟩
  · exact .inl rfl
  · exact .inr rfl
  · split
    · exact .inl rfl
    split
    · exact .inr rfl
    split
    · exact .inl rfl
    · exact .inr rfl

/-- A packet that names its engine goes there unless it is in ring mode. -/
theorem engineFor_named (h : c.hact = false) (hp : c.picks g e) (hg : g ≠ 0) :
    c.engineFor g = if (c.eng e).inRing then none else some e := by
  rcases hp with ⟨rfl, rfl⟩ | ⟨rfl, rfl⟩ | ⟨rfl, -⟩
  · cases hr : c.ce0.inRing <;> simp [Ctx.engineFor, open_queue h, Ctx.eng, hr]
  · cases hr : c.ce1.inRing <;> simp [Ctx.engineFor, open_queue h, Ctx.eng, hr]
  · exact absurd rfl hg

/-- A packet for either engine goes to the one that it picks, if that has a place. -/
theorem engineFor_either (h : c.hact = false) (hp : c.picks 0 e) (hr : c.hasPlace e) : c.engineFor 0 = some e := by
  obtain ⟨hopen, hroom⟩ := hr
  have he := picks_either hp
  have hcase : c.engineFor 0 = pickCe (!c.ce0.inRing) (!c.ce1.inRing) (16 - c.ce0.q.length) (16 - c.ce1.q.length) := by
    simp [Ctx.engineFor, open_queue h, freeOf_queue h, Ctx.eng]
  rw [hcase]
  split at he
  · next h1 =>
    subst he
    have h0 : c.ce0.inRing = false := hopen
    simp [pickCe, h0, h1]
  split at he
  · next h1 h0 =>
    simp [pickCe, h0, h1, he]
  split at he
  · next h1 h0 hle =>
    have hlt : ¬ 16 - c.ce0.q.length < 16 - c.ce1.q.length := by omega
    simp [pickCe, h0, h1, he, hlt]
  · next h1 h0 hle =>
    subst he
    have hroom : c.ce1.q.length < 16 := hroom
    have hlt : 16 - c.ce0.q.length < 16 - c.ce1.q.length := by omega
    simp [pickCe, h0, h1, hlt]

theorem engineFor_picked (h : c.hact = false) (hp : c.picks g e) (hr : c.hasPlace e) : c.engineFor g = some e := by
  by_cases hg : g = 0
  · subst hg
    exact engineFor_either h hp hr
  · rw [engineFor_named h hp hg, hr.1]
    rfl

/-- No engine takes a packet whose engine is in ring mode, nor one for either where both are. -/
theorem engineFor_ring (h : c.hact = false) (hp : c.picks g e) (h0 : g = 0 → c.ce0.inRing = true)
    (hr : (c.eng e).inRing = true) : c.engineFor g = none := by
  by_cases hg : g = 0
  · subst hg
    have h1 : c.ce1.inRing = true := by
      have he := picks_either hp
      by_contra hn
      rw [if_neg hn, if_pos (h0 rfl)] at he
      subst he
      exact hn hr
    simp [Ctx.engineFor, open_queue h, Ctx.eng, h0 rfl, h1, pickCe]
  · rw [engineFor_named h hp hg, if_pos hr]

theorem unit_picked (hp : c.picks g e) (h0 : g = 0 → e = .ce0) : (if g = 2 then 4 else 3) = engUnit e := by
  rcases hp with ⟨rfl, rfl⟩ | ⟨rfl, rfl⟩ | ⟨rfl, -⟩
  · rfl
  · rfl
  · rw [h0 rfl]
    rfl

/-- Where both engines are in ring mode, CE0 stands for them. -/
theorem picks_ring (hp : c.picks 0 e) (h0 : c.ce0.inRing = true) (hr : (c.eng e).inRing = true) : e = .ce0 := by
  have he := picks_either hp
  split at he
  · exact he
  · next hn =>
    subst he
    exact absurd hr hn

/-! ## Engines with a place are not jammed (R283) -/

theorem hasRoom_place (h : c.hact = false) (hr : c.hasPlace e) : c.hasRoom e = true := by
  rw [hasRoom_queue h]
  exact decide_eq_true hr.2

theorem jammed_place (h : c.hact = false) (hr : c.hasPlace e) : c.jammed e = false := by
  simp [Ctx.jammed, hasRoom_place h hr]

theorem shut_place (h : c.hact = false) (hr : c.hasPlace e) : (!c.open' e || c.jammed e) = false := by
  simp [open_queue h, jammed_place h hr, hr.1]

/-- Of the two copy engines not both are shut where the one picked has a place. -/
theorem bothShut_place (h : c.hact = false) (hp : c.picks g e) (hr : c.hasPlace e) :
    ((!c.open' .ce0 || c.jammed .ce0) && (!c.open' .ce1 || c.jammed .ce1)) = false := by
  have hs := shut_place h hr
  rcases picks_copyEngine hp with rfl | rfl
  · rw [hs, Bool.false_and]
  · rw [hs, Bool.and_false]

/-! ## Packets at the sequencer -/

/-- The entry that an inline packet makes for its engine (R282, R328). -/
def State.packetEntry (s : State) (n : Nat) (e : Eng) (i : Instr) : QEntry :=
  let q := s.entry n .ce0 (encodeWord i) (encodeRest i) 0 0 0
  { q with promise := s.promiseOf n e q, missed := true, dl := (s.fg n).edl e }

/-- A packet whose engine has a place is forwarded, and does not start at once beside its sequencer or behind others. -/
theorem issueCP_forwards (i : Instr) (p : Packet) (hc : s.cur = .core n) (h : (s.fg n).hact = false)
    (hp : (s.fg n).picks p.cmd.eng e) (hr : (s.fg n).hasPlace e)
    (hq : s.lockstep = false ∨ (s.fg n).freeNow e = false) :
    s.issueCP i p = (s.push n e (s.packetEntry n e i)).retire 64 4 := by
  have hstart : (s.lockstep && (s.fg n).freeNow e) = false := Bool.and_eq_false_iff.2 hq
  have hpush : ∀ q, (s.push n e q).lockstep = s.lockstep := fun _ => rfl
  rw [State.issueCP, onCore_core hc]
  simp only [engineFor_picked h hp hr, shut_place h hr, bothShut_place h hp hr, hasRoom_place h hr, State.forwardCopy,
    hpush, hstart]
  simp [State.packetEntry]

/-- A packet for an engine in ring mode traps with the engine's unit (R284). -/
theorem issueCP_ring (i : Instr) (p : Packet) (hc : s.cur = .core n) (h : (s.fg n).hact = false)
    (hp : (s.fg n).picks p.cmd.eng e) (h0 : p.cmd.eng = 0 → (s.fg n).ce0.inRing = true)
    (hr : ((s.fg n).eng e).inRing = true) :
    s.issueCP i p = (s.takeTrap n 0x0E (engUnit e) (s.fg n).pc (encodeWord i)).tick 1 := by
  have hu := unit_picked hp (fun hg => picks_ring (hg ▸ hp) (h0 hg) hr)
  rw [State.issueCP, onCore_core hc]
  simp only [engineFor_ring h hp h0 hr, hu]

/-- A packet that names an engine whose queue is full is held, unless that engine is stopped (R283). -/
theorem issueCP_held (i : Instr) (p : Packet) (hc : s.cur = .core n) (h : (s.fg n).hact = false)
    (hp : (s.fg n).picks p.cmd.eng e) (hg : p.cmd.eng ≠ 0) (hst : ((s.fg n).eng e).st = .running)
    (hfull : 16 ≤ ((s.fg n).eng e).q.length) :
    s.issueCP i p = s.holdAt n e false (s.entry n .ce0 (encodeWord i) (encodeRest i) 0 0 0) 64 := by
  have hring : ((s.fg n).eng e).inRing = false := by simp [Engine.inRing, hst]
  have heng : (s.fg n).engineFor p.cmd.eng = some e := by
    rw [engineFor_named h hp hg, hring]
    rfl
  have hroom : (s.fg n).hasRoom e = false := by
    rw [hasRoom_queue h]
    exact decide_eq_false (by omega)
  have hjam : (s.fg n).jammed e = false := by simp [Ctx.jammed, hst]
  have hone : ¬ p.cmd.eng = 0#2 := hg
  rw [State.issueCP, onCore_core hc]
  simp [heng, hone, open_queue h, hring, hjam, hroom]

/-- Every copy packet is issued in the same way. -/
theorem exec_packet {mk : Packet → Instr} (p : Packet) (s : State)
    (hm : mk ∈ [.copy, .tcopyRd, .tcopyWr, .im2colw, .fill, .accw, .fop, .cas, .redcopy, .mcast, .amcast, .spfill,
      .spdrain, .qappend, .sigrem]) : exec (mk p) s = .next (s.issueCP (mk p) p) := by
  simp only [List.mem_cons, List.not_mem_nil, or_false] at hm
  rcases hm with rfl | rfl | rfl | rfl | rfl | rfl | rfl | rfl | rfl | rfl | rfl | rfl | rfl | rfl | rfl <;> rfl

/-! ## Words of each class (R282) -/

/-- The class of a word and the engine that it goes to. -/
def Ctx.sendsTo (c : Ctx) (w : Word) (e : Eng) : Prop :=
  (getClass w = 1 ∧ e = .vx) ∨ (getClass w = 2 ∧ e = .mt) ∨ (getClass w = 3 ∧ c.picks (getC w).eng e)

theorem wordEngine_sendsTo {w : Word} (h : c.hact = false) (hw : c.sendsTo w e) (hr : c.hasPlace e) :
    c.wordEngine w = some e := by
  obtain ⟨hopen, -⟩ := id hr
  rcases hw with ⟨hcl, rfl⟩ | ⟨hcl, rfl⟩ | ⟨hcl, hp⟩
  · simp [Ctx.wordEngine, hcl, show c.vx.inRing = false from hopen]
  · simp [Ctx.wordEngine, hcl, show c.mt.inRing = false from hopen]
  · simp [Ctx.wordEngine, hcl, engineFor_picked h hp hr]

/-- `WORD_FORWARD` of a word whose engine has a place puts its entry there. -/
theorem wordForward_forwards {w : Word} {rest : BitVec 448} {i : Instr} (hc : s.cur = .core n)
    (h : (s.fg n).hact = false) (hd : decode64 w rest = some i) (hw : (s.fg n).sendsTo w e)
    (hr : (s.fg n).hasPlace e) :
    exec (.wordForward w rest) s =
      .next ((s.push n e (s.entryOf n e i w (if getClass w = 3 then rest else 0))).retire
        (if getClass w = 3 then 64 else 8) (if getClass w = 3 then 4 else 1)) := by
  have hcls : getClass w = 1 ∨ getClass w = 2 ∨ getClass w = 3 := hw.imp And.left (Or.imp And.left And.left)
  have hjam : (if (decide (getClass w = 3) && decide ((getC w).eng = 0)) = true then
      (!(s.fg n).open' .ce0 || (s.fg n).jammed .ce0) && (!(s.fg n).open' .ce1 || (s.fg n).jammed .ce1)
      else (s.fg n).jammed e) = false := by
    rw [jammed_place h hr]
    split
    · next hany =>
      rcases hw with ⟨hcl, -⟩ | ⟨hcl, -⟩ | ⟨-, hp⟩
      · simp [hcl] at hany
      · simp [hcl] at hany
      · exact bothShut_place h hp hr
    · rfl
  show execWordForward w rest s = _
  rw [execWordForward, onCore_core hc]
  simp only [hd, if_pos hcls, wordEngine_sendsTo h hw hr, hjam, hasRoom_place h hr]
  rfl

/-- The fields of the entry that a word makes. -/
theorem entryOf_fields (s : State) (n : Nat) (e : Eng) (i : Instr) (w : Word) (rest : BitVec 448) :
    let q := s.entryOf n e i w rest
    q.word = w ∧ q.rest = rest ∧ (q.xa, q.xb, q.xc) = (s.fg n).scalars i w ∧ q.vfm = (s.fg n).csr.vfmode ∧
      q.dl = (s.fg n).edl e ∧ q.ord = (s.fg n).ord ∧ q.started = false := by
  intro q
  simp only [q, State.entryOf]
  split
  · exact ⟨rfl, rfl, rfl, rfl, rfl, rfl, rfl⟩
  · exact ⟨rfl, rfl, rfl, rfl, rfl, rfl, rfl⟩

end Sys2Proof.Machine
end

section
/-! SUPPORT. The statement about the forwarding of copy packets and engine words. -/

namespace Sys2Proof.Machine

/-- Settles O41: a packet by whether its engine has a place, is in ring mode or is full, and a word whose engine has a
place. -/
theorem copyPacketsAreForwarded : Obligations.CopyPacketsAreForwarded := by
  unfold Obligations.CopyPacketsAreForwarded
  intro s n hc h c picked takes
  refine ⟨fun p mk hm => ⟨fun e hp hr hq => ?_, fun e _ hp h0 hr => ?_, fun e hp hg hst hfull => ?_⟩,
    fun w rest i e hd hw hr => ?_⟩
  · exact ⟨s.packetEntry n e (mk p), by rw [exec_packet p s hm, issueCP_forwards (mk p) p hc h hp hr hq],
      rfl, rfl, rfl, rfl, rfl, rfl, rfl⟩
  · rw [exec_packet p s hm, issueCP_ring (mk p) p hc h hp h0 hr]
  · exact ⟨_, by rw [exec_packet p s hm, issueCP_held (mk p) p hc h hp hg hst hfull], rfl⟩
  · obtain ⟨hword, hrest, hx, hvfm, hdl, hord, hstarted⟩ :=
      entryOf_fields s n e i w (if getClass w = 3 then rest else 0)
    exact ⟨_, wordForward_forwards hc h hd hw hr, hword, fun h3 => by rw [hrest, if_pos h3], hx, hvfm, hdl, hord,
      hstarted⟩

end Sys2Proof.Machine
end

section
/-! SUPPORT. An encoded instruction is read back (R78 to R94): its bytes give its length and its word, the word its
fields, and the maps of the opcodes have one entry for each operation. -/

namespace Sys2Proof

/-! ## Bytes -/

@[simp] theorem length_bytesOf (k n : Nat) : (bytesOf k n).length = k := by
  induction k generalizing n with
  | zero => rfl
  | succ k ih => simp [bytesOf, ih]

/-- The first j bytes of a longer list of bytes of n hold the low part of n (R5). -/
theorem leTake_bytesOf {j k : Nat} (h : j ≤ k) (n : Nat) (rest : List Byte) :
    leTake (bytesOf k n ++ rest) j = n % 256 ^ j := by
  induction j generalizing k n with
  | zero => simp [leTake, Nat.mod_one]
  | succ j ih =>
    obtain ⟨k, rfl⟩ : ∃ m, k = m + 1 := ⟨k - 1, by omega⟩
    rw [bytesOf, List.cons_append, leTake, ih (Nat.le_of_succ_le_succ h), BitVec.toNat_ofNat,
      Nat.pow_succ' (m := 256)]
    exact Nat.mod_mul.symm

/-- A word's bytes hold the word. -/
theorem ofNat_leTake (k : Nat) (x : BitVec (8 * k)) (rest : List Byte) :
    BitVec.ofNat (8 * k) (leTake (bytesOf k x.toNat ++ rest) k) = x := by
  have hpow : 256 ^ k = 2 ^ (8 * k) := (Nat.pow_mul 2 8 k).symm
  rw [leTake_bytesOf (Nat.le_refl k), hpow, Nat.mod_eq_of_lt x.isLt, BitVec.ofNat_toNat, BitVec.setWidth_eq]

/-! ## Lengths (R78) -/

/-- The first halfword of the bytes of a number. -/
theorem leTake_half {k : Nat} (h : 2 ≤ k) (n : Nat) (rest : List Byte) :
    leTake (bytesOf k n ++ rest) 2 = n % 65536 := leTake_bytesOf h n rest

/-- Only the opcodes of 32-bit forms decode to an instruction of 32 bits. -/
theorem lenOf_decRv {w : BitVec 32} {d : RvDec} (h : decRv w = some d) : lenOf (w.toNat % 65536) = 4 := by
  have hop : b32 w 6 0 = w.toNat % 128 := by simp [b32]
  have key : b32 w 6 0 % 4 = 3 ∧ b32 w 6 0 / 4 % 8 ≠ 7 := by
    unfold decRv at h
    split at h
    case h_14 => cases h
    all_goals
      next e => rw [e]; decide
  rw [hop] at key
  rw [lenOf, if_neg (by omega), if_pos (by omega)]

/-- Only the three quadrants of the 16-bit forms expand. -/
theorem lenOf_expand16 {h : BitVec 16} {d : RvDec} (e : expand16 h = some d) : lenOf (h.toNat % 65536) = 2 := by
  have hq : (h.extractLsb' 0 2).toNat = h.toNat % 4 := by simp
  have key : h.toNat % 4 ≠ 3 := by
    intro h3
    rw [expand16, hq, h3] at e
    cases e
  rw [lenOf, if_pos (by omega)]

theorem lenOf_word {w : Word} (h : getLen w = 0x3F) : lenOf (w.toNat % 65536) = 8 := by
  rw [getLen] at h
  rw [lenOf, if_neg (by omega), if_neg (by omega), if_neg (by omega), if_pos (by omega)]

/-! ## From bytes to the decoder of each length -/

theorem decodeBytes_w32 {w : BitVec 32} {d : RvDec} {i : Instr} (hd : decRv w = some d) (hi : ofRv d .w32 = some i)
    (rest : List Byte) : decodeBytes (bytesOf 4 w.toNat ++ rest) = some (i, 4) := by
  have hw : BitVec.ofNat 32 (leTake (bytesOf 4 w.toNat ++ rest) 4) = w := ofNat_leTake 4 w rest
  simp [decodeBytes, leTake_half, lenOf_decRv hd, hw, hd, hi]

theorem decodeBytes_c16 {h : BitVec 16} {d : RvDec} {i : Instr} (hd : expand16 h = some d)
    (hi : ofRv d (.c16 h) = some i) (rest : List Byte) : decodeBytes (bytesOf 2 h.toNat ++ rest) = some (i, 2) := by
  have hh : BitVec.ofNat 16 (leTake (bytesOf 2 h.toNat ++ rest) 2) = h := ofNat_leTake 2 h rest
  have hl : lenOf (leTake (bytesOf 2 h.toNat ++ rest) 2) = 2 := by rw [leTake_half (Nat.le_refl 2), lenOf_expand16 hd]
  simp [decodeBytes, hl, hh, hd, hi]

/-- A 64-bit word, and after a copy packet's head its parameters. -/
theorem decodeBytes_word {w : Word} (h : getLen w = 0x3F) (rest : List Byte) :
    decodeBytes (bytesOf 8 w.toNat ++ rest) =
      (decode64 w (BitVec.ofNat 448 (leTake rest 56))).map (fun i => (i, if getClass w = 3 then 64 else 8)) := by
  have hw : BitVec.ofNat 64 (leTake (bytesOf 8 w.toNat ++ rest) 8) = w := ofNat_leTake 8 w rest
  simp [decodeBytes, leTake_half, lenOf_word h, hw]

/-- An instruction of RV64 reads back from the form that it was read from. -/
theorem decodeBytes_encRvBytes {w : BitVec 32} {d : RvDec} {e : RvEnc} {i : Instr} (hd : decRv w = some d)
    (he : encOk e d = true) (hi : ofRv d e = some i) (rest : List Byte) :
    decodeBytes (encRvBytes w e ++ rest) = some (i, (encRvBytes w e).length) := by
  cases e with
  | w32 => simpa [encRvBytes] using decodeBytes_w32 hd hi rest
  | c16 h => simpa [encRvBytes] using decodeBytes_c16 (of_decide_eq_true he) hi rest

/-- The bytes of an instruction of RV64 are never those of a 64-bit word. -/
theorem lenOf_encRvBytes {w : BitVec 32} {d : RvDec} {e : RvEnc} (hd : decRv w = some d) (he : encOk e d = true)
    (rest : List Byte) : lenOf (leTake (encRvBytes w e ++ rest) 2) ≠ 8 := by
  cases e with
  | w32 => simp [encRvBytes, leTake_half, lenOf_decRv hd]
  | c16 h => simp [encRvBytes, leTake_half, lenOf_expand16 (of_decide_eq_true he)]

/-- A Hamper thread reads an instruction of RV64 by its own meaning (R330, R331). -/
theorem decodeThread_encRvBytes {w : BitVec 32} {d : RvDec} {e : RvEnc} {i j : Instr} (hd : decRv w = some d)
    (he : encOk e d = true) (hi : ofRv d e = some i) (hj : threadForm i = some j) (rest : List Byte) :
    decodeThread (encRvBytes w e ++ rest) = some (j, (encRvBytes w e).length) := by
  simp [decodeThread, decodeBytes_encRvBytes hd he hi, lenOf_encRvBytes hd he, hj]

/-! ## Fields of a 32-bit word -/

theorem b32_slice (w : BitVec 32) (hi lo : Nat) : b32 w hi lo = (w.extractLsb' lo (hi + 1 - lo)).toNat := by
  simp [b32, BitVec.extractLsb'_toNat, Nat.shiftRight_eq_div_pow]

/-! ## Each operation has its own code -/

theorem find_aluCode (k : RvAlu) : aluAll.find? (fun j => decide (aluCode j = aluCode k)) = some k := by
  cases k <;> rfl

theorem find_aluwCode (k : RvAluW) : aluwAll.find? (fun j => decide (aluwCode j = aluwCode k)) = some k := by
  cases k <;> rfl

theorem find_branchCode (k : RvBranch) : branchAll.find? (fun j => decide (branchCode j = branchCode k)) = some k := by
  cases k <;> rfl

theorem find_unaryCode (k : RvUnary) : unaryAll.find? (fun j => decide (unaryCode j = unaryCode k)) = some k := by
  cases k <;> rfl

theorem find_immCode (k : RvImm) : immAll.find? (fun j => decide (immCode j = immCode k)) = some k := by
  cases k <;> rfl

/-- A shift's code is its own, whatever an amount that it takes has in bit 5. -/
theorem find_shiftCode (k : RvShift) {b : Bool} (hb : shiftIsW k = true → b = true) :
    shiftAll.find? (fun j => decide (shiftCode j = shiftCode k) && (!shiftIsW j || b)) = some k := by
  cases k <;> cases b <;> simp [shiftIsW] at hb <;> rfl

theorem aluCode_lt (k : RvAlu) : (aluCode k).1 < 128 ∧ (aluCode k).2 < 8 := by cases k <;> decide

/-- Funct7 and funct3 of an operation on words are in range, and are never those of `ZEXT.H`. -/
theorem aluwCode_lt (k : RvAluW) : (aluwCode k).1 < 128 ∧ (aluwCode k).2 < 8 ∧
    ¬((aluwCode k).1 = 4 ∧ (aluwCode k).2 = 4) := by
  cases k <;> decide

theorem branchCode_lt (k : RvBranch) : branchCode k < 8 := by cases k <;> decide

/-- A one-source operation has the opcode of an immediate one, but for `ZEXT.H`. -/
theorem unaryCode_lt (k : RvUnary) : (unaryCode k).2.1 < 8 ∧ (unaryCode k).2.2 < 4096 ∧
    ((unaryCode k).1 = 0x13 ∨ (unaryCode k).1 = 0x1B ∨ k = .zexth) := by
  cases k <;> decide

theorem immCode_lt (k : RvImm) : (immCode k).2 < 8 ∧ ((immCode k).1 = 0x13 ∨ (immCode k).1 = 0x1B) := by
  cases k <;> decide

theorem shiftCode_lt (k : RvShift) : (shiftCode k).2.1 < 8 ∧ (shiftCode k).2.2 < 64 ∧
    ((shiftCode k).1 = 0x13 ∨ (shiftCode k).1 = 0x1B) := by
  cases k <;> decide

/-- No one-source operation has the opcode, funct3 and upper bits of a shift. -/
theorem unaryCode_ne_shiftCode : ∀ j ∈ unaryAll, ∀ k : RvShift,
    ((unaryCode j).1, (unaryCode j).2.1, (unaryCode j).2.2 / 64) ≠ shiftCode k := by
  intro j hj k
  cases k <;> revert j <;> decide

/-- No one-source operation and no shift has the opcode and funct3 of an operation with an immediate. -/
theorem unaryCode_ne_immCode : ∀ j ∈ unaryAll, ∀ k : RvImm, ((unaryCode j).1, (unaryCode j).2.1) ≠ immCode k := by
  intro j hj k
  cases k <;> revert j <;> decide

theorem shiftCode_ne_immCode : ∀ j ∈ shiftAll, ∀ k : RvImm, ((shiftCode j).1, (shiftCode j).2.1) ≠ immCode k := by
  intro j hj k
  cases k <;> revert j <;> decide

/-! ## The opcodes of RV64 (R14) -/

theorem decImm_unary {w : BitVec 32} (k : RvUnary) (h : (b32 w 6 0, b32 w 14 12, b32 w 31 20) = unaryCode k) :
    decImm w = some (.op (.unary k (r32 w 7) (r32 w 15))) := by
  simp only [decImm, h, find_unaryCode]

theorem decImm_shift {w : BitVec 32} (k : RvShift) (h : (b32 w 6 0, b32 w 14 12, b32 w 31 26) = shiftCode k)
    (hw : shiftIsW k = true → b32 w 25 25 = 0) :
    decImm w = some (.op (.shift k (r32 w 7) (r32 w 15) (w.extractLsb' 20 6))) := by
  have hup : b32 w 31 26 = b32 w 31 20 / 64 := by
    simp only [b32]
    omega
  have hun : unaryAll.find? (fun j => decide (unaryCode j = (b32 w 6 0, b32 w 14 12, b32 w 31 20))) = none := by
    refine List.find?_eq_none.2 fun j hj hc => unaryCode_ne_shiftCode j hj k ?_
    rw [of_decide_eq_true hc, ← h, hup]
  simp only [decImm, hun, h]
  rw [find_shiftCode k fun e => decide_eq_true (hw e)]

theorem decImm_imm {w : BitVec 32} (k : RvImm) (h : (b32 w 6 0, b32 w 14 12) = immCode k) :
    decImm w = some (.op (.imm k (r32 w 7) (r32 w 15) (w.extractLsb' 20 12))) := by
  have hun : unaryAll.find? (fun j => decide (unaryCode j = (b32 w 6 0, b32 w 14 12, b32 w 31 20))) = none := by
    refine List.find?_eq_none.2 fun j hj hc => unaryCode_ne_immCode j hj k ?_
    rw [of_decide_eq_true hc, ← h]
  have hsh : shiftAll.find? (fun j => decide (shiftCode j = (b32 w 6 0, b32 w 14 12, b32 w 31 26)) &&
      (!shiftIsW j || decide (b32 w 25 25 = 0))) = none := by
    refine List.find?_eq_none.2 fun j hj hc => shiftCode_ne_immCode j hj k ?_
    rw [of_decide_eq_true (Bool.and_eq_true_iff.1 hc).1, ← h]
  simp only [decImm, hun, hsh, h, find_immCode]

theorem decRv_opImm {w : BitVec 32} (h : b32 w 6 0 = 0x13 ∨ b32 w 6 0 = 0x1B) : decRv w = decImm w := by
  rcases h with h | h <;> simp only [decRv, h]

theorem decRv_opAlu {w : BitVec 32} (k : RvAlu) (hop : b32 w 6 0 = 0x33)
    (h : (b32 w 31 25, b32 w 14 12) = aluCode k) :
    decRv w = some (.op (.alu k (r32 w 7) (r32 w 15) (r32 w 20))) := by
  simp only [decRv, hop, h, find_aluCode, Option.map_some]

theorem decRv_opAluw {w : BitVec 32} (k : RvAluW) (hop : b32 w 6 0 = 0x3B)
    (h : (b32 w 31 25, b32 w 14 12) = aluwCode k) :
    decRv w = some (.op (.aluw k (r32 w 7) (r32 w 15) (r32 w 20))) := by
  have hz : ¬(b32 w 31 25 = 4 ∧ b32 w 14 12 = 4) := by
    have hk := (aluwCode_lt k).2.2
    rwa [← h] at hk
  simp only [decRv, hop, if_neg hz, h, find_aluwCode, Option.map_some]

theorem decRv_opZexth {w : BitVec 32} (hop : b32 w 6 0 = 0x3B) (h7 : b32 w 31 25 = 4) (h3 : b32 w 14 12 = 4)
    (h2 : r32 w 20 = 0) : decRv w = some (.op (.unary .zexth (r32 w 7) (r32 w 15))) := by
  simp only [decRv, hop, h7, h3, h2, and_self, if_true]

theorem decRv_opBranch {w : BitVec 32} (k : RvBranch) (hop : b32 w 6 0 = 0x63) (h : b32 w 14 12 = branchCode k) :
    decRv w = some (.op (.branch k (r32 w 15) (r32 w 20) (offB w))) := by
  simp only [decRv, hop, h, find_branchCode, Option.map_some]

theorem decRv_opLui {w : BitVec 32} (hop : b32 w 6 0 = 0x37) :
    decRv w = some (.op (.lui (r32 w 7) (w.extractLsb' 12 20))) := by
  simp only [decRv, hop]

theorem decRv_opAuipc {w : BitVec 32} (hop : b32 w 6 0 = 0x17) :
    decRv w = some (.op (.auipc (r32 w 7) (w.extractLsb' 12 20))) := by
  simp only [decRv, hop]

theorem decRv_opJal {w : BitVec 32} (hop : b32 w 6 0 = 0x6F) : decRv w = some (.op (.jal (r32 w 7) (offJ w))) := by
  simp only [decRv, hop]

theorem decRv_opJalr {w : BitVec 32} (hop : b32 w 6 0 = 0x67) (h3 : b32 w 14 12 = 0) :
    decRv w = some (.op (.jalr (r32 w 7) (r32 w 15) (w.extractLsb' 20 12))) := by
  simp only [decRv, hop, h3, if_true]

theorem decRv_opLoad {w : BitVec 32} (hop : b32 w 6 0 = 0x03) (h3 : b32 w 14 12 < 7) :
    decRv w = some (.load (w.extractLsb' 12 3) (r32 w 7) (r32 w 15) (w.extractLsb' 20 12)) := by
  simp only [decRv, hop, if_pos h3]

theorem decRv_opStore {w : BitVec 32} (hop : b32 w 6 0 = 0x23) (h3 : b32 w 14 12 < 4) :
    decRv w = some (.store (w.extractLsb' 12 3) (r32 w 15) (r32 w 20) (w.extractLsb' 25 7 ++ r32 w 7)) := by
  simp only [decRv, hop, if_pos h3]

theorem decRv_opFence {w : BitVec 32} (hop : b32 w 6 0 = 0x0F) (h3 : b32 w 14 12 = 0) :
    decRv w = some (.fence ⟨w.extractLsb' 15 17, r32 w 7⟩) := by
  simp only [decRv, hop, h3, if_true]

theorem decRv_opFenceI {w : BitVec 32} (hop : b32 w 6 0 = 0x0F) (h3 : b32 w 14 12 = 1) :
    decRv w = some (.fenceI ⟨w.extractLsb' 15 17, r32 w 7⟩) := by
  simp only [decRv, hop, h3, if_neg (show ¬ 1 = 0 by decide), if_true]

/-- `ECALL` and `EBREAK` have funct3 0, no instruction of Zicsr has. -/
theorem decRv_opCsr {w : BitVec 32} (hop : b32 w 6 0 = 0x73) (h0 : b32 w 14 12 ≠ 0) (h4 : b32 w 14 12 ≠ 4) :
    decRv w = some (.csr ⟨w.extractLsb' 20 12, w.extractLsb' 12 3, r32 w 15, r32 w 7⟩) := by
  have hcall : w ≠ 0x00000073 := by
    rintro rfl
    exact h0 (by decide)
  have hbreak : w ≠ 0x00100073 := by
    rintro rfl
    exact h0 (by decide)
  simp only [decRv, hop, if_neg hcall, if_neg hbreak, if_pos (And.intro h0 h4)]

/-! ## Words of RV64 -/

/-- The layout that most words of 32 bits share: twelve upper bits, a source, funct3, a destination and the opcode. -/
def rvWord (i : BitVec 12) (a : BitVec 5) (f3 : BitVec 3) (d : BitVec 5) (op : BitVec 7) : BitVec 32 :=
  i ++ a ++ f3 ++ d ++ op

section
variable (i : BitVec 12) (a : BitVec 5) (f3 : BitVec 3) (d : BitVec 5) (op : BitVec 7)

theorem rvWord_op : b32 (rvWord i a f3 d op) 6 0 = op.toNat := by
  rw [b32_slice]
  simp (disch := omega) only [rvWord, slice_lo, slice_all]

theorem rvWord_funct3 : (rvWord i a f3 d op).extractLsb' 12 3 = f3 := by
  simp (disch := omega) only [rvWord, slice_hi, slice_lo, Nat.reduceSub, slice_all]

theorem rvWord_f3 : b32 (rvWord i a f3 d op) 14 12 = f3.toNat := by
  rw [b32_slice, rvWord_funct3]

theorem rvWord_rd : r32 (rvWord i a f3 d op) 7 = d := by
  simp (disch := omega) only [r32, rvWord, slice_hi, slice_lo, Nat.reduceSub, slice_all]

theorem rvWord_rs1 : r32 (rvWord i a f3 d op) 15 = a := by
  simp (disch := omega) only [r32, rvWord, slice_hi, slice_lo, Nat.reduceSub, slice_all]

theorem rvWord_fence : (rvWord i a f3 d op).extractLsb' 15 17 = i ++ a := by
  simp (disch := omega) only [rvWord, slice_hi, Nat.reduceSub, slice_all]

/-- A field of the upper bits is one of the twelve. -/
theorem rvWord_upper (lo k : Nat) : (rvWord i a f3 d op).extractLsb' (lo + 20) k = i.extractLsb' lo k := by
  rw [rvWord, slice_hi _ _ _ _ (by omega), slice_hi _ _ _ _ (by omega), slice_hi _ _ _ _ (by omega),
    slice_hi _ _ _ _ (by omega)]
  rfl

theorem rvWord_imm : (rvWord i a f3 d op).extractLsb' 20 12 = i :=
  (rvWord_upper i a f3 d op 0 12).trans (slice_all i)

theorem rvWord_i12 : b32 (rvWord i a f3 d op) 31 20 = i.toNat := by
  rw [b32_slice, rvWord_imm]

variable (f7 : BitVec 7) (b : BitVec 5) (f6 sh : BitVec 6)

theorem rvWord_hi7 : (rvWord (f7 ++ b) a f3 d op).extractLsb' 25 7 = f7 := by
  rw [rvWord_upper (f7 ++ b) a f3 d op 5 7, slice_hi _ _ _ _ (by decide), slice_all]

theorem rvWord_f7 : b32 (rvWord (f7 ++ b) a f3 d op) 31 25 = f7.toNat := by
  rw [b32_slice, rvWord_hi7]

theorem rvWord_rs2 : r32 (rvWord (f7 ++ b) a f3 d op) 20 = b := by
  rw [r32, rvWord_upper (f7 ++ b) a f3 d op 0 5, slice_lo _ _ _ _ (by decide), slice_all]

theorem rvWord_f6 : b32 (rvWord (f6 ++ sh) a f3 d op) 31 26 = f6.toNat := by
  rw [b32_slice, rvWord_upper (f6 ++ sh) a f3 d op 6 6, slice_hi _ _ _ _ (by decide), slice_all]

theorem rvWord_sh : (rvWord (f6 ++ sh) a f3 d op).extractLsb' 20 6 = sh := by
  rw [rvWord_upper (f6 ++ sh) a f3 d op 0 6, slice_lo _ _ _ _ (by decide), slice_all]

/-- Bit 25 is the sixth of a shift amount. -/
theorem rvWord_b25 : b32 (rvWord (f6 ++ sh) a f3 d op) 25 25 = sh.toNat / 32 := by
  rw [b32_slice, rvWord_upper (f6 ++ sh) a f3 d op 5 1, slice_lo _ _ _ _ (by decide)]
  rw [BitVec.extractLsb'_toNat, Nat.shiftRight_eq_div_pow]
  omega

end

theorem ofNat_toNat {k n : Nat} (h : n < 2 ^ k) : (BitVec.ofNat k n).toNat = n := by
  rw [BitVec.toNat_ofNat, Nat.mod_eq_of_lt h]

theorem decRv_alu (k : RvAlu) (rd a b : BitVec 5) : decRv (encRv (.alu k rd a b)) = some (.op (.alu k rd a b)) := by
  obtain ⟨h7, h3⟩ := aluCode_lt k
  change decRv (rvWord (BitVec.ofNat 7 (aluCode k).1 ++ b) a (BitVec.ofNat 3 (aluCode k).2) rd 0x33) = _
  rw [decRv_opAlu k (rvWord_op ..) (by rw [rvWord_f7, rvWord_f3, ofNat_toNat h7, ofNat_toNat h3]), rvWord_rd,
    rvWord_rs1, rvWord_rs2]

theorem decRv_aluw (k : RvAluW) (rd a b : BitVec 5) : decRv (encRv (.aluw k rd a b)) = some (.op (.aluw k rd a b)) := by
  obtain ⟨h7, h3, -⟩ := aluwCode_lt k
  change decRv (rvWord (BitVec.ofNat 7 (aluwCode k).1 ++ b) a (BitVec.ofNat 3 (aluwCode k).2) rd 0x3B) = _
  rw [decRv_opAluw k (rvWord_op ..) (by rw [rvWord_f7, rvWord_f3, ofNat_toNat h7, ofNat_toNat h3]), rvWord_rd,
    rvWord_rs1, rvWord_rs2]

theorem ofNat_opImm {n : Nat} (h : n = 0x13 ∨ n = 0x1B) : (BitVec.ofNat 7 n).toNat = n := by
  rcases h with rfl | rfl <;> rfl

theorem decRv_encImm (k : RvImm) (rd a : BitVec 5) (i : BitVec 12) :
    decRv (encRv (.imm k rd a i)) = some (.op (.imm k rd a i)) := by
  obtain ⟨h3, hop⟩ := immCode_lt k
  change decRv (rvWord i a (BitVec.ofNat 3 (immCode k).2) rd (BitVec.ofNat 7 (immCode k).1)) = _
  rw [decRv_opImm (by rwa [rvWord_op, ofNat_opImm hop]),
    decImm_imm k (by rw [rvWord_op, rvWord_f3, ofNat_opImm hop, ofNat_toNat h3]), rvWord_rd, rvWord_rs1, rvWord_imm]

theorem decRv_shift (k : RvShift) (rd a : BitVec 5) (sh : BitVec 6) (h : shiftIsW k = true → sh.toNat < 32) :
    decRv (encRv (.shift k rd a sh)) = some (.op (.shift k rd a sh)) := by
  obtain ⟨h3, h6, hop⟩ := shiftCode_lt k
  change decRv (rvWord (BitVec.ofNat 6 (shiftCode k).2.2 ++ sh) a (BitVec.ofNat 3 (shiftCode k).2.1) rd
    (BitVec.ofNat 7 (shiftCode k).1)) = _
  rw [decRv_opImm (by rwa [rvWord_op, ofNat_opImm hop]),
    decImm_shift k (by rw [rvWord_op, rvWord_f3, rvWord_f6, ofNat_opImm hop, ofNat_toNat h3, ofNat_toNat h6])
      (fun hw => by rw [rvWord_b25, Nat.div_eq_of_lt (h hw)]), rvWord_rd, rvWord_rs1, rvWord_sh]

theorem decRv_unary (k : RvUnary) (rd a : BitVec 5) : decRv (encRv (.unary k rd a)) = some (.op (.unary k rd a)) := by
  obtain ⟨h3, hi, hk⟩ := unaryCode_lt k
  by_cases hz : k = .zexth
  · subst hz
    have hw := decRv_opZexth (w := rvWord (4#7 ++ 0#5) a 4 rd 0x3B) (rvWord_op ..) (rvWord_f7 ..) (rvWord_f3 ..)
      (rvWord_rs2 ..)
    rwa [rvWord_rd, rvWord_rs1] at hw
  · have hop : (unaryCode k).1 = 0x13 ∨ (unaryCode k).1 = 0x1B := hk.imp_right (Or.resolve_right · hz)
    change decRv (rvWord (BitVec.ofNat 12 (unaryCode k).2.2) a (BitVec.ofNat 3 (unaryCode k).2.1) rd
      (BitVec.ofNat 7 (unaryCode k).1)) = _
    rw [decRv_opImm (by rwa [rvWord_op, ofNat_opImm hop]),
      decImm_unary k (by rw [rvWord_op, rvWord_f3, rvWord_i12, ofNat_opImm hop, ofNat_toNat h3, ofNat_toNat hi]),
      rvWord_rd, rvWord_rs1]

theorem decRv_jalr (rd a : BitVec 5) (off : BitVec 12) :
    decRv (encRv (.jalr rd a off)) = some (.op (.jalr rd a off)) := by
  change decRv (rvWord off a 0 rd 0x67) = _
  rw [decRv_opJalr (rvWord_op ..) (rvWord_f3 ..), rvWord_rd, rvWord_rs1, rvWord_imm]

theorem decRv_load {f : LoadF} (h : f.f3 ≠ 7) : decRv (encLoad f) = some (.load f.f3 f.rd f.rs1 f.off) := by
  have h3 : f.f3.toNat < 7 := by
    have hlt := f.f3.isLt
    have hne : f.f3.toNat ≠ 7 := fun e => h (BitVec.eq_of_toNat_eq e)
    omega
  change decRv (rvWord f.off f.rs1 f.f3 f.rd 0x03) = _
  rw [decRv_opLoad (rvWord_op ..) (by rwa [rvWord_f3]), rvWord_funct3, rvWord_rd, rvWord_rs1, rvWord_imm]

theorem decRv_store {f : StoreF} (h : f.f3.toNat < 4) : decRv (encStore f) = some (.store f.f3 f.rs1 f.rs2 f.off) := by
  change decRv (rvWord (f.off.extractLsb' 5 7 ++ f.rs2) f.rs1 f.f3 (f.off.extractLsb' 0 5) 0x23) = _
  rw [decRv_opStore (rvWord_op ..) (by rwa [rvWord_f3]), rvWord_funct3, rvWord_rd, rvWord_rs1, rvWord_rs2, rvWord_hi7,
    BitVec.extractLsb'_append_extractLsb'_eq_extractLsb' (show 5 = 0 + 5 from rfl), slice_all]

/-- The 17 bits that a fence ignores fill the places of the upper bits and the source. -/
theorem encFence_eq (f : FenceF) (f3 : BitVec 3) :
    encFence f f3 = rvWord (f.hi.extractLsb' 5 12) (f.hi.extractLsb' 0 5) f3 f.rd 0x0F := by
  rw [rvWord, BitVec.extractLsb'_append_extractLsb'_eq_extractLsb' (show 5 = 0 + 5 from rfl), slice_all]
  rfl

theorem decRv_fence (f : FenceF) : decRv (encFence f 0) = some (.fence f) := by
  rw [encFence_eq, decRv_opFence (rvWord_op ..) (rvWord_f3 ..), rvWord_fence, rvWord_rd,
    BitVec.extractLsb'_append_extractLsb'_eq_extractLsb' (show 5 = 0 + 5 from rfl), slice_all]

theorem decRv_fenceI (f : FenceF) : decRv (encFence f 1) = some (.fenceI f) := by
  rw [encFence_eq, decRv_opFenceI (rvWord_op ..) (rvWord_f3 ..), rvWord_fence, rvWord_rd,
    BitVec.extractLsb'_append_extractLsb'_eq_extractLsb' (show 5 = 0 + 5 from rfl), slice_all]

/-- The opcode of a word is its last seven bits. -/
theorem opcode_append (x : BitVec 25) (c : BitVec 7) : b32 (x ++ c) 6 0 = c.toNat := by
  rw [b32_slice, slice_lo _ _ _ _ (by decide), slice_all]

theorem decRv_lui (rd : BitVec 5) (i : BitVec 20) : decRv (encRv (.lui rd i)) = some (.op (.lui rd i)) := by
  have hop : b32 (encRv (.lui rd i)) 6 0 = 0x37 := opcode_append _ _
  rw [decRv_opLui hop]
  simp (disch := omega) only [encRv, r32, slice_hi, slice_lo, Nat.reduceSub, slice_all]

theorem decRv_auipc (rd : BitVec 5) (i : BitVec 20) : decRv (encRv (.auipc rd i)) = some (.op (.auipc rd i)) := by
  have hop : b32 (encRv (.auipc rd i)) 6 0 = 0x17 := opcode_append _ _
  rw [decRv_opAuipc hop]
  simp (disch := omega) only [encRv, r32, slice_hi, slice_lo, Nat.reduceSub, slice_all]

/-- An even offset ends in a 0 bit. -/
theorem slice_even {w : Nat} (x : BitVec w) (h : x.toNat % 2 = 0) : 0#1 = x.extractLsb' 0 1 := by
  apply BitVec.eq_of_toNat_eq
  simp [BitVec.extractLsb'_toNat, h]

theorem decRv_jal (rd : BitVec 5) (off : BitVec 21) (h : off.toNat % 2 = 0) :
    decRv (encRv (.jal rd off)) = some (.op (.jal rd off)) := by
  have hop : b32 (encRv (.jal rd off)) 6 0 = 0x6F := opcode_append _ _
  have hrd : r32 (encRv (.jal rd off)) 7 = rd := by
    simp (disch := omega) only [encRv, r32, slice_hi, slice_lo, Nat.reduceSub, slice_all]
  have hoff : offJ (encRv (.jal rd off)) = off := by
    simp (disch := omega) only [encRv, offJ, slice_hi, slice_lo, Nat.reduceSub, slice_all]
    rw [slice_even off h, BitVec.extractLsb'_append_extractLsb'_eq_extractLsb' (show 20 = 12 + 8 from rfl),
      BitVec.extractLsb'_append_extractLsb'_eq_extractLsb' (show 12 = 11 + 1 from rfl),
      BitVec.extractLsb'_append_extractLsb'_eq_extractLsb' (show 11 = 1 + 10 from rfl),
      BitVec.extractLsb'_append_extractLsb'_eq_extractLsb' (show 1 = 0 + 1 from rfl), slice_all]
  rw [decRv_opJal hop, hrd, hoff]

theorem decRv_branch (k : RvBranch) (a b : BitVec 5) (off : BitVec 13) (h : off.toNat % 2 = 0) :
    decRv (encRv (.branch k a b off)) = some (.op (.branch k a b off)) := by
  have hop : b32 (encRv (.branch k a b off)) 6 0 = 0x63 := opcode_append _ _
  have h3 : b32 (encRv (.branch k a b off)) 14 12 = branchCode k := by
    have hf3 : (encRv (.branch k a b off)).extractLsb' 12 3 = BitVec.ofNat 3 (branchCode k) := by
      simp (disch := omega) only [encRv, slice_hi, slice_lo, Nat.reduceSub, slice_all]
    rw [b32_slice, hf3, ofNat_toNat (branchCode_lt k)]
  have ha : r32 (encRv (.branch k a b off)) 15 = a := by
    simp (disch := omega) only [encRv, r32, slice_hi, slice_lo, Nat.reduceSub, slice_all]
  have hb : r32 (encRv (.branch k a b off)) 20 = b := by
    simp (disch := omega) only [encRv, r32, slice_hi, slice_lo, Nat.reduceSub, slice_all]
  have hoff : offB (encRv (.branch k a b off)) = off := by
    simp (disch := omega) only [encRv, offB, slice_hi, slice_lo, Nat.reduceSub, slice_all]
    rw [slice_even off h, BitVec.extractLsb'_append_extractLsb'_eq_extractLsb' (show 12 = 11 + 1 from rfl),
      BitVec.extractLsb'_append_extractLsb'_eq_extractLsb' (show 11 = 5 + 6 from rfl),
      BitVec.extractLsb'_append_extractLsb'_eq_extractLsb' (show 5 = 1 + 4 from rfl),
      BitVec.extractLsb'_append_extractLsb'_eq_extractLsb' (show 1 = 0 + 1 from rfl), slice_all]
  rw [decRv_opBranch k hop h3, ha, hb, hoff]

/-- A shift of a word takes five bits of amount. -/
theorem shift_ok {k : RvShift} {rd a : BitVec 5} {sh : BitVec 6} (h : rvOk (.shift k rd a sh) = true) :
    shiftIsW k = true → sh.toNat < 32 := by
  intro hw
  simpa [rvOk, hw] using h

/-- The 32-bit form of an operation whose operands it can hold decodes to that operation. -/
theorem decRv_encRv (o : RvOp) (h : rvOk o = true) : decRv (encRv o) = some (.op o) := by
  cases o with
  | alu k rd a b => exact decRv_alu k rd a b
  | aluw k rd a b => exact decRv_aluw k rd a b
  | imm k rd a i => exact decRv_encImm k rd a i
  | shift k rd a sh => exact decRv_shift k rd a sh (shift_ok h)
  | unary k rd a => exact decRv_unary k rd a
  | lui rd i => exact decRv_lui rd i
  | auipc rd i => exact decRv_auipc rd i
  | jal rd off => exact decRv_jal rd off (of_decide_eq_true h)
  | jalr rd a off => exact decRv_jalr rd a off
  | branch k a b off => exact decRv_branch k a b off (of_decide_eq_true h)

theorem decRv_csr {f : CsrF} (h : csrF3 f.f3 = true) : decRv (encCsr f) = some (.csr f) := by
  simp only [csrF3, Bool.and_eq_true, decide_eq_true_eq] at h
  obtain ⟨h0, h4⟩ := h
  change decRv (rvWord f.csr f.rs1 f.f3 f.rd 0x73) = _
  rw [decRv_opCsr (rvWord_op ..) (by rw [rvWord_f3]; exact fun e => h0 (BitVec.eq_of_toNat_eq e))
    (by rw [rvWord_f3]; exact fun e => h4 (BitVec.eq_of_toNat_eq e)), rvWord_funct3, rvWord_rd, rvWord_rs1, rvWord_imm]

/-! ## Words of 64 bits (R79 to R94) -/

/-- The word of every well-formed instruction that has one names it: the laws of the instructions together. -/
theorem Laws.coded (i : Instr) : Coded.Statement i := by
  cases i with
  | sleepu f => exact Coded.sleepu f | semwait f => exact Coded.semwait f | semsig f => exact Coded.semsig f
  | semadd f => exact Coded.semadd f | semrd f => exact Coded.semrd f | engdl f => exact Coded.engdl f
  | engst f => exact Coded.engst f | engringOff f => exact Coded.engringOff f | engringOn f => exact Coded.engringOn f
  | engringGo f => exact Coded.engringGo f | engringSkip f => exact Coded.engringSkip f
  | engringDrop f => exact Coded.engringDrop f | engsync f => exact Coded.engsync f | slcfg f => exact Coded.slcfg f
  | sladvCons f => exact Coded.sladvCons f | sladvProd f => exact Coded.sladvProd f
  | sltokRd f => exact Coded.sltokRd f | sltokPut f => exact Coded.sltokPut f | sltokTake f => exact Coded.sltokTake f
  | bar f => exact Coded.bar f | bara f => exact Coded.bara f | barw f => exact Coded.barw f
  | barx f => exact Coded.barx f | tlaunch f => exact Coded.tlaunch f | texit f => exact Coded.texit f
  | tyield f => exact Coded.tyield f | tarm f => exact Coded.tarm f | mark f => exact Coded.mark f
  | pfence f => exact Coded.pfence f | xfence f => exact Coded.xfence f | dld f => exact Coded.dld f
  | taglk f => exact Coded.taglk f | tagset f => exact Coded.tagset f | tagclr f => exact Coded.tagclr f
  | tagclrAll f => exact Coded.tagclrAll f | tagvic f => exact Coded.tagvic f | cpput f => exact Coded.cpput f
  | cpputP f => exact Coded.cpputP f | tret f => exact Coded.tret f | tretSkip f => exact Coded.tretSkip f
  | cutrd f => exact Coded.cutrd f | vadd f => exact Coded.vadd f | vsub f => exact Coded.vsub f
  | vmul f => exact Coded.vmul f | vmulh f => exact Coded.vmulh f | vfma f => exact Coded.vfma f
  | vfms f => exact Coded.vfms f | vfnma f => exact Coded.vfnma f | vdiv f => exact Coded.vdiv f
  | vsqrt f => exact Coded.vsqrt f | vmin f => exact Coded.vmin f | vmax f => exact Coded.vmax f
  | vabs f => exact Coded.vabs f | vneg f => exact Coded.vneg f | vadds f => exact Coded.vadds f
  | vsubs f => exact Coded.vsubs f | vshl f => exact Coded.vshl f | vshr f => exact Coded.vshr f
  | vsra f => exact Coded.vsra f | vaddi f => exact Coded.vaddi f | vcmp f => exact Coded.vcmp f
  | vredsum f => exact Coded.vredsum f | vredmin f => exact Coded.vredmin f | vredmax f => exact Coded.vredmax f
  | vand f => exact Coded.vand f | vandNb f => exact Coded.vandNb f | vor f => exact Coded.vor f
  | vorNb f => exact Coded.vorNb f | vxor f => exact Coded.vxor f | vxorNb f => exact Coded.vxorNb f
  | vlut3 f => exact Coded.vlut3 f | vfsh f => exact Coded.vfsh f | vfshw f => exact Coded.vfshw f
  | vrot f => exact Coded.vrot f | vpopc f => exact Coded.vpopc f | vclz f => exact Coded.vclz f
  | vlrot f => exact Coded.vlrot f | vshuf f => exact Coded.vshuf f | vslide f => exact Coded.vslide f
  | vbcast f => exact Coded.vbcast f | vbcastEl f => exact Coded.vbcastEl f | vzip f => exact Coded.vzip f
  | vzipHi f => exact Coded.vzipHi f | vunzip f => exact Coded.vunzip f | vunzipOdd f => exact Coded.vunzipOdd f
  | vsel f => exact Coded.vsel f | vmvx f => exact Coded.vmvx f | vmxv f => exact Coded.vmxv f
  | pand f => exact Coded.pand f | por f => exact Coded.por f | pxor f => exact Coded.pxor f
  | pandn f => exact Coded.pandn f | pset f => exact Coded.pset f | pcnt f => exact Coded.pcnt f
  | vcvt f => exact Coded.vcvt f | vcvtSat f => exact Coded.vcvtSat f | vpack f => exact Coded.vpack f
  | vunpk f => exact Coded.vunpk f | vqmx f => exact Coded.vqmx f | vdqmx f => exact Coded.vdqmx f
  | vcbl f => exact Coded.vcbl f | vcblEnc f => exact Coded.vcblEnc f | vld f => exact Coded.vld f
  | vlds f => exact Coded.vlds f | vldx f => exact Coded.vldx f | vst f => exact Coded.vst f
  | vsts f => exact Coded.vsts f | vstx f => exact Coded.vstx f | vldw f => exact Coded.vldw f
  | vtrd f => exact Coded.vtrd f | mmaAcc f => exact Coded.mmaAcc f | mmaOvw f => exact Coded.mmaOvw f
  | mmaSacc f => exact Coded.mmaSacc f | mmaSovw f => exact Coded.mmaSovw f | mzero f => exact Coded.mzero f
  | mcfg f => exact Coded.mcfg f | mgetr f => exact Coded.mgetr f | msetr f => exact Coded.msetr f
  | mgetc f => exact Coded.mgetc f | msetc f => exact Coded.msetc f | mload f => exact Coded.mload f
  | mhadRow f => exact Coded.mhadRow f | mhadCol f => exact Coded.mhadCol f | mdrain f => exact Coded.mdrain f
  | mcbld f => exact Coded.mcbld f | mbind f => exact Coded.mbind f | mcopy f => exact Coded.mcopy f
  | mcopyAdd f => exact Coded.mcopyAdd f | nrecv f => exact Coded.nrecv f | nsend f => exact Coded.nsend f
  | nprobe f => exact Coded.nprobe f | npost f => exact Coded.npost f | npostCancel f => exact Coded.npostCancel f
  | trgarm f => exact Coded.trgarm f | trgdis f => exact Coded.trgdis f | trgrd f => exact Coded.trgrd f
  | trgrdBlk f => exact Coded.trgrdBlk f | ctradd f => exact Coded.ctradd f | ctrrd f => exact Coded.ctrrd f
  | ctrwait f => exact Coded.ctrwait f | ctrset f => exact Coded.ctrset f | nlaunch f => exact Coded.nlaunch f
  | ncopy f => exact Coded.ncopy f | collst f => exact Coded.collst f | haltgo f => exact Coded.haltgo f
  | hstep f => exact Coded.hstep f | hresume f => exact Coded.hresume f | hcause f => exact Coded.hcause f
  | hcauseCore f => exact Coded.hcauseCore f | jcfgHandle f => exact Coded.jcfgHandle f
  | jcfgWindowTemplate f => exact Coded.jcfgWindowTemplate f | jcfgWindowContext f => exact Coded.jcfgWindowContext f
  | ctxswap f => exact Coded.ctxswap f | ctxsave f => exact Coded.ctxsave f
  | ctxsaveKeep f => exact Coded.ctxsaveKeep f | ctxload f => exact Coded.ctxload f | sbset f => exact Coded.sbset f
  | tkill f => exact Coded.tkill f | hreq f => exact Coded.hreq f | matset f => exact Coded.matset f
  | tlbinvPg f => exact Coded.tlbinvPg f | tlbinvAs f => exact Coded.tlbinvAs f
  | tlbinvAll f => exact Coded.tlbinvAll f | copy p => exact Coded.copy p | tcopyRd p => exact Coded.tcopyRd p
  | tcopyWr p => exact Coded.tcopyWr p | im2colw p => exact Coded.im2colw p | fill p => exact Coded.fill p
  | accw p => exact Coded.accw p | fop p => exact Coded.fop p | cas p => exact Coded.cas p
  | redcopy p => exact Coded.redcopy p | mcast p => exact Coded.mcast p | amcast p => exact Coded.amcast p
  | spfill p => exact Coded.spfill p | spdrain p => exact Coded.spdrain p | qappend p => exact Coded.qappend p
  | sigrem p => exact Coded.sigrem p
  | _ => exact fun _ _ h => nomatch h

theorem wf_sameWord (i : Instr) : i.sameWord.wf = i.wf := by
  unfold Instr.sameWord
  split <;> rfl

theorem packetOf_sameWord (i : Instr) : packetOf i.sameWord = packetOf i := by
  unfold Instr.sameWord
  split <;> rfl

theorem getLen_decodeForm {w : Word} {r : BitVec 448} {i : Instr} (h : decodeForm w r = some i) : getLen w = 0x3F := by
  by_contra hn
  rw [decodeForm, if_pos hn] at h
  cases h

/-- A word of another class than CP is read without the bytes after it. -/
theorem decodeForm_rest {w : Word} (h : getClass w ≠ 3) (r r' : BitVec 448) : decodeForm w r = decodeForm w r' := by
  unfold decodeForm
  split
  · rfl
  split
  case h_4 e => exact absurd e h
  all_goals rfl

/-- Class CP names packets only. -/
theorem packetOf_majorCP {w : Word} {r : BitVec 448} {i : Instr} (h : majorCP w r = some i) :
    packetOf i = some (getPacket w r) := by
  simp only [majorCP] at h
  split at h
  case h_2 =>
    split at h <;> cases h <;> rfl
  case h_15 => cases h
  all_goals cases h; rfl

theorem getClass_of_noPacket {w : Word} {r : BitVec 448} {i : Instr} (h : decodeForm w r = some i)
    (hp : packetOf i = none) : getClass w ≠ 3 := by
  intro h3
  have hcp : majorCP w r = some i := by
    simp only [decodeForm, h3] at h
    split at h
    · cases h
    split at h
    · exact h
    · cases h
  rw [packetOf_majorCP hcp] at hp
  cases hp

/-- The head of a packet is a word of class CP. -/
theorem getClass_packet {i : Instr} {p : Packet} {w : Word} (hp : packetOf i = some p) (hw : encode64 i = some w) :
    getClass w = 3 := by
  have hc (m : Nat) : getClass (putC p.cmd m) = 3 := getClass_putWord _ _ _ _ _ (by decide)
  cases i with
  | copy q | tcopyRd q | tcopyWr q | im2colw q | fill q | accw q | fop q | cas q | redcopy q | mcast q | amcast q
  | spfill q | spdrain q | qappend q | sigrem q =>
    cases hp
    cases hw
    exact hc _
  | _ => cases hp

theorem encode_noPacket {i : Instr} {w : Word} (hw : encode64 i = some w) (hp : packetOf i = none) :
    encode i = bytesOf 8 w.toNat := by
  unfold encode
  split
  case h_12 => simp only [hw, hp]
  all_goals cases hw

theorem encode_packet {i : Instr} {w : Word} {p : Packet} (hw : encode64 i = some w) (hp : packetOf i = some p) :
    encode i = bytesOf 8 w.toNat ++ bytesOf 56 (putRest p).toNat := by
  unfold encode
  split
  case h_12 => simp only [hw, hp]
  all_goals cases hw

/-- An instruction with a 64-bit word reads back as what its word names, whatever follows it. -/
theorem decodeBytes_encode64 {i : Instr} {w : Word} (h : i.wf = true) (hw : encode64 i = some w) (rest : List Byte) :
    decodeBytes (encode i ++ rest) = some (i.sameWord, (encode i).length) := by
  have hform := Laws.coded i h w hw
  have hlen := getLen_decodeForm hform
  cases hp : packetOf i with
  | none =>
    have hcls := getClass_of_noPacket hform ((packetOf_sameWord i).trans hp)
    rw [encode_noPacket hw hp, decodeBytes_word hlen, decode64, decodeForm_rest hcls _ (encodeRest i), hform]
    simp [wf_sameWord, h, hcls]
  | some p =>
    have hcls := getClass_packet hp hw
    have hrest : BitVec.ofNat 448 (leTake (bytesOf 56 (putRest p).toNat ++ rest) 56) = encodeRest i := by
      rw [encodeRest, hp]
      exact ofNat_leTake 56 (putRest p) rest
    rw [encode_packet hw hp, List.append_assoc, decodeBytes_word hlen, decode64, hrest, hform]
    simp [wf_sameWord, h, hcls]

/-! ## Instructions of RV64 -/

theorem ofRv_op (o : RvOp) (e : RvEnc) : ofRv (.op o) e = some (.rv64IntegerOp o e) := by cases e <;> rfl

theorem ofRv_load (f3 : BitVec 3) (rd a : BitVec 5) (off : BitVec 12) (e : RvEnc) :
    ofRv (.load f3 rd a off) e = some (.scalarLoad ⟨f3, rd, a, off, e⟩) := by cases e <;> rfl

theorem ofRv_store (f3 : BitVec 3) (a b : BitVec 5) (off : BitVec 12) (e : RvEnc) :
    ofRv (.store f3 a b off) e = some (.scalarStore ⟨f3, a, b, off, e⟩) := by cases e <;> rfl

theorem decodeBytes_scalarLoad {f : LoadF} (h : (Instr.scalarLoad f).wf = true) (rest : List Byte) :
    decodeBytes (encode (.scalarLoad f) ++ rest) = some (.scalarLoad f, (encode (.scalarLoad f)).length) := by
  obtain ⟨h7, he⟩ := Bool.and_eq_true_iff.1 h
  exact decodeBytes_encRvBytes (decRv_load (of_decide_eq_true h7)) he (ofRv_load ..) rest

theorem decodeBytes_scalarStore {f : StoreF} (h : (Instr.scalarStore f).wf = true) (rest : List Byte) :
    decodeBytes (encode (.scalarStore f) ++ rest) = some (.scalarStore f, (encode (.scalarStore f)).length) := by
  obtain ⟨h4, he⟩ := Bool.and_eq_true_iff.1 h
  exact decodeBytes_encRvBytes (decRv_store (of_decide_eq_true h4)) he (ofRv_store ..) rest

theorem decodeBytes_rv64IntegerOp {o : RvOp} {e : RvEnc} (h : (Instr.rv64IntegerOp o e).wf = true) (rest : List Byte) :
    decodeBytes (encode (.rv64IntegerOp o e) ++ rest) =
      some (.rv64IntegerOp o e, (encode (.rv64IntegerOp o e)).length) := by
  obtain ⟨ho, he⟩ := Bool.and_eq_true_iff.1 h
  exact decodeBytes_encRvBytes (decRv_encRv o ho) he (ofRv_op ..) rest

/-- A Hamper thread's load or store is the word of the scalar one, which a thread reads as its own (R331). -/
theorem decodeThread_hamperScalarAccess {st : Bool} {f3 : BitVec 3} {r a : BitVec 5} {off : BitVec 12} {e : RvEnc}
    (h : (Instr.hamperScalarAccess st f3 r a off e).wf = true) (rest : List Byte) :
    decodeThread (encode (.hamperScalarAccess st f3 r a off e) ++ rest) =
      some (.hamperScalarAccess st f3 r a off e, (encode (.hamperScalarAccess st f3 r a off e)).length) := by
  cases st with
  | false =>
    have hf : (Instr.scalarLoad ⟨f3, r, a, off, e⟩).wf = true := h
    obtain ⟨h7, he⟩ := Bool.and_eq_true_iff.1 hf
    exact decodeThread_encRvBytes (decRv_load (of_decide_eq_true h7)) he (ofRv_load ..) rfl rest
  | true =>
    have hf : (Instr.scalarStore ⟨f3, a, r, off, e⟩).wf = true := h
    obtain ⟨h4, he⟩ := Bool.and_eq_true_iff.1 hf
    exact decodeThread_encRvBytes (decRv_store (of_decide_eq_true h4)) he (ofRv_store ..) rfl rest

/-- A write of a bank format has the same words as the other CSR instructions, and is told apart by its fields (R45). -/
theorem decodeBytes_csrAccess {f : CsrF} (h : (Instr.csrAccess f).wf = true) (rest : List Byte) :
    decodeBytes (encode (.csrAccess f) ++ rest) = some (.csrAccess f, 4) := by
  obtain ⟨hf3, hb⟩ := Bool.and_eq_true_iff.1 h
  exact decodeBytes_w32 (decRv_csr hf3) (if_neg (by simpa using hb)) rest

theorem decodeBytes_bfmtWrite {f : CsrF} (h : (Instr.bfmtWrite f).wf = true) (rest : List Byte) :
    decodeBytes (encode (.bfmtWrite f) ++ rest) = some (.bfmtWrite f, 4) := by
  obtain ⟨hf3, hb⟩ := Bool.and_eq_true_iff.1 h
  exact decodeBytes_w32 (decRv_csr hf3) (if_pos hb) rest

theorem sameWord_of_ne {i : Instr} (ht : ∀ f, i ≠ .jcfgWindowTemplate f) (hc : ∀ f, i ≠ .jcfgWindowContext f) :
    i.sameWord = i := by
  unfold Instr.sameWord
  split
  · exact absurd rfl (ht _)
  · exact absurd rfl (hc _)
  · rfl

end Sys2Proof
end

section
/-! SUPPORT. The statement about decoding and encoding. -/

namespace Sys2Proof

/-- Settles O59: a word of 64 bits by the law of its instruction, and an instruction of RV64 by its opcode. -/
theorem decodingInvertsEncoding : Obligations.DecodingInvertsEncoding := by
  unfold Obligations.DecodingInvertsEncoding
  intro i rest hwf hne bs
  cases hw : encode64 i with
  | some w =>
    have hback := decodeBytes_encode64 hwf hw rest
    split
    · exact hback
    · exact hback
    · cases hw
    · next ht hc _ => rwa [sameWord_of_ne ht hc] at hback
  | none =>
    unfold encode at hne
    split at hne
    · exact decodeBytes_scalarLoad hwf rest
    · exact decodeBytes_scalarStore hwf rest
    · exact decodeThread_hamperScalarAccess hwf rest
    · exact decodeBytes_rv64IntegerOp hwf rest
    · exact decodeBytes_csrAccess hwf rest
    · exact decodeBytes_bfmtWrite hwf rest
    · exact decodeBytes_w32 (decRv_fence _) rfl rest
    · exact decodeBytes_w32 (decRv_fenceI _) rfl rest
    · exact decodeBytes_w32 (w := 0x00000073) (d := .ecall) (by decide) rfl rest
    · exact decodeBytes_w32 (w := 0x00100073) (d := .ebreak) (by decide) rfl rest
    · exact decodeBytes_c16 (h := 0x9002) (d := .ebreak) (by decide) rfl rest
    · simp [hw] at hne

end Sys2Proof
end

section
/-! SUPPORT. A breakpoint and the halt wave it starts: what sending a package's packets leaves as it was, and what
this package's own part of a wave writes. -/

namespace Sys2Proof.Machine

/-! ## What a sent packet changes (R428, R431, R439) -/

/-- Nothing but the fabric, the Hamper, which holds the messages to other pods, and the supply of free values differs. -/
structure State.sends (s t : State) : Prop where
  rest : { t with fab := s.fab, hamper := s.hamper, free := s.free } = s

namespace State.sends

variable {s t u : State}

theorem refl (s : State) : s.sends s := ⟨rfl⟩

theorem trans (h : s.sends t) (g : t.sends u) : s.sends u where
  rest := by rw [← h.rest, ← g.rest]

theorem cores (h : s.sends t) : t.cores = s.cores := (congrArg State.cores h.rest :)
theorem jobs (h : s.sends t) : t.jobs = s.jobs := (congrArg State.jobs h.rest :)
theorem core (h : s.sends t) (n : Nat) : t.core n = s.core n := by rw [State.core, h.cores]; rfl
theorem fg (h : s.sends t) (n : Nat) : t.fg n = s.fg n := congrArg Core.fg (h.core n)
theorem job (h : s.sends t) (j : Nat) : t.job j = s.job j := by rw [State.job, h.jobs]; rfl

theorem foldl {α : Type} {f : State → α → State} (hf : ∀ (s : State) x, s.sends (f s x)) (l : List α)
    (s : State) : s.sends (l.foldl f s) := by
  induction l generalizing s with
  | nil => exact refl s
  | cons x r ih => exact (hf s x).trans (ih _)

end State.sends

theorem sends_viaOf (s : State) (dst : Nat) : s.sends (s.viaOf dst).2 := by
  unfold State.viaOf
  simp only
  split
  · exact .refl s
  split <;> exact ⟨rfl⟩

theorem sends_injectNow (s : State) (p : FabPkt) : s.sends (s.injectNow p) :=
  (sends_viaOf s p.dst.toNat).trans ⟨rfl⟩

theorem sends_injectWith (s : State) (kind dst mid path : Nat) (addr aux : Word) (payload : List Byte)
    (pois : List Nat) (part : List (Nat × Byte)) :
    s.sends (s.injectWith kind dst mid path addr aux payload pois part) := by
  unfold State.injectWith
  simp only
  split
  · exact .refl s
  split
  · exact ⟨rfl⟩
  · exact sends_injectNow s _

theorem sends_tellPkg (s : State) (slot : Nat) (p : Nat × Nat) (payload : List Byte) :
    s.sends (s.tellPkg slot p payload) := by
  unfold State.tellPkg
  split
  · exact sends_injectWith s _ _ _ _ _ _ _ _ _
  · exact ⟨rfl⟩

theorem sends_castJob (s : State) (slot : Nat) (payload : List Byte) : s.sends (s.castJob slot payload) :=
  (State.sends.foldl (fun s p => sends_tellPkg s slot (s.podid.toNat, p) payload) (s.jobPeers slot) s).trans
    (State.sends.foldl (fun s p => sends_tellPkg s slot p payload) (s.jobFar slot) _)

/-! ## Every core at once -/

theorem tget_map {α : Type} (d : α) (f : Nat → α → α) (t : Tbl α) {m : Nat} (h : f m d = d) :
    tget d (t.map (fun c => (c.1, f c.1 c.2))) m = f m (tget d t m) := by
  induction t with
  | nil => exact h.symm
  | cons c r ih =>
    obtain ⟨j, w⟩ := c
    by_cases e : j = m
    · simp [tget, e]
    · simpa [tget, e] using ih

theorem core_mapCores (s : State) (f : Nat → Core → Core) {m : Nat} (h : f m {} = {}) :
    (s.mapCores f).core m = f m (s.core m) := tget_map ({} : Core) f s.cores h

/-- A wave freezes the cores that run the job (R440), and leaves every other as it was. -/
theorem core_freezeJob (s : State) (j : Nat) (o : Word) (m : Nat) :
    (s.freezeJob j o).core m =
      if (s.core m).busy ∧ (s.core m).fg.ident.job = j ∧ (s.core m).fg.stop = none then
        { s.core m with fg := s.freezeCtx (s.writeRec (s.fg m) 0x0D 0 7 false false (s.fg m).pc o) .haltWave }
      else s.core m :=
  core_mapCores s _ (if_neg (fun h => Bool.false_ne_true h.1))

/-! ## This package's part of a wave (R440, R448) -/

/-- The package has taken the wave, and has not yet told the job's other packages. -/
def State.waveTaken (s : State) (j : Nat) (o jt : Word) : State :=
  ((s.freezeJob j o).setJob j { s.job j with
    ph := .freezing, stopped := s.jtime j, origins := [(o, jt)], first := some (o, jt),
    settled := false, more := 0, reports := [], gang := none, ts := none }).setRs j 1

theorem takeWave_run {s : State} {j : Nat} (o jt : Word) (own : Bool) (h : (s.job j).ph = .run) :
    (s.waveTaken j o jt).sends (s.takeWave j o jt own) := by
  unfold State.takeWave
  rw [if_pos h]
  cases own
  · exact .refl _
  · exact sends_castJob _ _ _

theorem job_takeWave_run {s : State} {j : Nat} (o jt : Word) (own : Bool) (h : (s.job j).ph = .run) :
    (s.takeWave j o jt own).job j = { s.job j with
      ph := .freezing, stopped := s.jtime j, origins := [(o, jt)], first := some (o, jt),
      settled := false, more := 0, reports := [], gang := none, ts := none } :=
  ((takeWave_run o jt own h).job j).trans (job_setJob_self _ j _)

theorem core_takeWave_run {s : State} {j : Nat} (o jt : Word) (own : Bool) (h : (s.job j).ph = .run) (m : Nat) :
    (s.takeWave j o jt own).core m = (s.freezeJob j o).core m := (takeWave_run o jt own h).core m

/-- A core that stands already is not frozen again. -/
theorem fg_takeWave_stopped {s : State} {j m : Nat} (o jt : Word) (own : Bool) (h : (s.job j).ph = .run)
    (hs : (s.fg m).stop ≠ none) : (s.takeWave j o jt own).fg m = s.fg m := by
  rw [State.fg, core_takeWave_run o jt own h, core_freezeJob, if_neg (fun ⟨_, _, hnone⟩ => hs hnone)]
  rfl

/-! ## The breakpoint (R109, R378, R437) -/

/-- `bpk` is bit 20 of the cause word (R378). -/
theorem cwWord_bpk (cause unit : Nat) : (cwWord cause unit 7 false true).getLsbD 20 = true := by
  have hlow : cause % 256 + unit % 256 * 2 ^ 8 + 7 * 2 ^ 16 < 2 ^ 20 := by omega
  have hsplit : cwWord cause unit 7 false true =
      wOf (2 ^ 20 + (cause % 256 + unit % 256 * 2 ^ 8 + 7 * 2 ^ 16)) := by
    simp [cwWord, boolNat, Nat.add_comm]
  rw [hsplit, wOf, BitVec.getLsbD_ofNat, Nat.testBit_two_pow_add_eq, Nat.testBit_lt_two_pow hlow]
  rfl

/-- The context of a core that stands at its breakpoint, with its record written. -/
def State.atBreakpoint (s : State) (c : Ctx) (unit : Nat) (cut val : Word) : Ctx :=
  { s.freezeCtx (s.writeRec (c.trapped unit) 0x0C unit 7 false true cut val) .haltWave with pc := cut }

/-- Settles O18: the core stands with its record written before the wave starts, and the wave leaves it so. -/
theorem breakpointStartsHaltWave : Obligations.BreakpointStartsHaltWave := by
  unfold Obligations.BreakpointStartsHaltWave
  intro s n unit cut val c hst _ _ hrun t d
  let u := s.setFg n (s.atBreakpoint c unit cut val)
  have ht : t = u.originateCore n c.ident.job 0x0C (s.jtime c.ident.job) := takeTrap_breakpoint s n unit cut val hst
  have hu : u.fg n = s.atBreakpoint c unit cut val := fg_setFg_self s n _
  have hrun' : (u.job c.ident.job).ph = .run := hrun
  have hstop : (u.fg n).stop ≠ none := by
    rw [hu]
    exact Option.some_ne_none _
  have hd : d = s.atBreakpoint c unit cut val := calc
    t.fg n = (u.originateCore n c.ident.job 0x0C (s.jtime c.ident.job)).fg n := by rw [ht]
    _ = u.fg n := fg_takeWave_stopped _ _ _ hrun' hstop
    _ = s.atBreakpoint c unit cut val := hu
  rw [hd, ht, State.originateCore, job_takeWave_run _ _ _ hrun']
  exact ⟨rfl, rfl, rfl, cwWord_bpk _ _, rfl, rfl⟩

end Sys2Proof.Machine
end

section
/-! SUPPORT. `SLEEPU` and the control of engines: a mask of engines bit by bit, and each test by its outcome. -/

namespace Sys2Proof.Machine

/-! ## Masks of engines -/

theorem engNum_lt (e : Eng) : engNum e < 4 := by cases e <;> decide

theorem boolNat_bits (a b c d : Bool) :
    let m := boolNat a * 2 ^ 0 + boolNat b * 2 ^ 1 + boolNat c * 2 ^ 2 + boolNat d * 2 ^ 3
    m < 16 ∧ m.testBit 0 = a ∧ m.testBit 1 = b ∧ m.testBit 2 = c ∧ m.testBit 3 = d := by
  revert a b c d; decide

theorem engMask_eq (f : Eng → Bool) : engMask f =
    boolNat (f .vx) * 2 ^ 0 + boolNat (f .mt) * 2 ^ 1 + boolNat (f .ce0) * 2 ^ 2 + boolNat (f .ce1) * 2 ^ 3 := by
  simp [engMask, engines, engNum]

theorem engMask_lt (f : Eng → Bool) : engMask f < 16 := by
  rw [engMask_eq]
  exact (boolNat_bits _ _ _ _).1

/-- Bit k of the mask is the condition of engine k. -/
theorem testBit_engMask (f : Eng → Bool) (e : Eng) : (engMask f).testBit (engNum e) = f e := by
  obtain ⟨-, h0, h1, h2, h3⟩ := boolNat_bits (f .vx) (f .mt) (f .ce0) (f .ce1)
  rw [engMask_eq]
  cases e with
  | vx => exact h0
  | mt => exact h1
  | ce0 => exact h2
  | ce1 => exact h3

theorem engMask_zero {f : Eng → Bool} (h : ∀ e, f e = false) : engMask f = 0 := by
  simp [engMask_eq, h, boolNat]

theorem engMask_ne_zero {f : Eng → Bool} {e : Eng} (h : f e = true) : engMask f ≠ 0 := by
  intro h0
  have hb := testBit_engMask f e
  rw [h0, Nat.zero_testBit, h] at hb
  exact Bool.false_ne_true hb

/-- The lowest engine of the mask is the one below which the condition fails. -/
theorem lowEng_engMask {f : Eng → Bool} {e : Eng} (h : f e = true)
    (hlow : ∀ e', engNum e' < engNum e → f e' = false) : lowEng (engMask f) = e := by
  have h0 : (engMask f).testBit 0 = f .vx := testBit_engMask f .vx
  have h1 : (engMask f).testBit 1 = f .mt := testBit_engMask f .mt
  have h2 : (engMask f).testBit 2 = f .ce0 := testBit_engMask f .ce0
  unfold lowEng
  rw [h0, h1, h2]
  cases e with
  | vx => simp [h]
  | mt => simp [h, hlow .vx (by decide)]
  | ce0 => simp [h, hlow .vx (by decide), hlow .mt (by decide)]
  | ce1 => simp [hlow .vx (by decide), hlow .mt (by decide), hlow .ce0 (by decide)]

/-! ## Waits -/

theorem setWait_core {s : State} {n : Nat} (h : s.cur = .core n) (w : Wait) :
    s.setWait w = (s.modFg n (fun c => { c with wait := some w })).tick 1 := by simp [State.setWait, h]

theorem waitOf_pc (s : State) (f : FmtD) (i : Instr) : (s.waitOf f i).pc = s.pc := rfl

/-- A test that fails before the deadline installs its wait (R37). -/
theorem beginWait_setWait {s : State} {n : Nat} {w : Wait} {test : Test} (late : Expiry) (h : test s n w = none)
    (hc : s.cur = .core n) (hs : (s.core n).stepping = none) (hd : s.agentTime.toNat ≤ w.d.toNat) :
    s.beginWait n w test late = s.setWait w :=
  (beginWait_waits late h hc hs hd).trans (setWait_core hc w).symm

/-! ## SLEEPU (R111) -/

theorem exec_sleepu {s : State} {n : Nat} (h : s.cur = .core n) (f : FmtD) :
    exec (.sleepu f) s = .next (s.beginWait n (s.waitOf f (.sleepu f)) (sleepuTest f) (sleepuLate f)) :=
  congrArg Host.Outcome.next (onCore_core h _ _)

theorem sleepuTest_event {s : State} {n : Nat} {e : Eng} (f : FmtD) (w : Wait) (h : ((s.fg n).eng e).ev = true) :
    sleepuTest f s n w = some (s.wake n f w (s.fg n).evMask) :=
  if_pos (engMask_ne_zero (f := fun e => ((s.fg n).eng e).ev) h)

theorem evMask_zero {c : Ctx} (h : ∀ e, (c.eng e).ev = false) : c.evMask = 0 := engMask_zero h

theorem statusWord_zero : statusWord 0 0 = 0 := by simp [statusWord, wOf]

theorem sleepuTest_due {s : State} {n : Nat} (f : FmtD) {w : Wait} (h : ∀ e, ((s.fg n).eng e).ev = false)
    (hd : w.d.toNat ≤ s.agentTime.toNat) : sleepuTest f s n w = some (s.wake n f w 0) := by
  simp [sleepuTest, evMask_zero h, hd]

theorem sleepuTest_waits {s : State} {n : Nat} (f : FmtD) {w : Wait} (h : ∀ e, ((s.fg n).eng e).ev = false)
    (hd : s.agentTime.toNat < w.d.toNat) : sleepuTest f s n w = none := by
  simp [sleepuTest, evMask_zero h, hd]

/-! ## ENGDL and ENGST (R112, R113) -/

theorem edl_setEdl (c : Ctx) (k : Nat) (v : Word) (e : Eng) :
    (c.setEdl k v).edl e = if k = engNum e then v else c.edl e := tget_tset _ _ _ _ _

/-- The deadline register k written with v; the number 4 stands for all four. -/
def Ctx.engdl (c : Ctx) (k : Nat) (v : Word) : Ctx :=
  if k = 4 then (((c.setEdl 0 v).setEdl 1 v).setEdl 2 v).setEdl 3 v else c.setEdl k v

theorem pc_engdl (c : Ctx) (k : Nat) (v : Word) : (c.engdl k v).pc = c.pc := by
  unfold Ctx.engdl; split <;> rfl

theorem edl_engdl (c : Ctx) (k : Nat) (v : Word) (e : Eng) :
    (c.engdl k v).edl e = if k = 4 ∨ k = engNum e then v else c.edl e := by
  unfold Ctx.engdl
  by_cases h : k = 4
  · rw [if_pos h, if_pos (.inl h)]
    cases e <;> simp [edl_setEdl, engNum]
  · rw [if_neg h, edl_setEdl]
    simp only [h, false_or]

theorem exec_engdl {s : State} {n : Nat} (h : s.cur = .core n) (f : FmtQ) :
    exec (.engdl f) s = .next ((s.modFg n (fun c => c.engdl f.imm.toNat (s.xr f.a))).retire 8 1) :=
  congrArg Host.Outcome.next (onCore_core h _ _)

/-- The foreground of the core that has changed it and retired. -/
theorem fg_modFg_retire {s : State} {n : Nat} (h : s.cur = .core n) (g : Ctx → Ctx) (len k : Nat) :
    ((s.modFg n g).retire len k).fg n = { g (s.fg n) with pc := (g (s.fg n)).pc + wOf len } := by
  have h' : (s.modFg n g).cur = .core n := h
  rw [retire_core h']
  simp

theorem exec_engst {s : State} {n : Nat} (h : s.cur = .core n) (f : FmtQ) :
    exec (.engst f) s = .next
      (((if f.imm.getLsbD 3 then
          s.modFg n (fun c => c.setEng (engOf (f.imm.toNat % 4)) { c.eng (engOf (f.imm.toNat % 4)) with ev := false })
        else s).setXr f.d ((s.fg n).eng (engOf (f.imm.toNat % 4))).statusOf).retire 8 1) :=
  congrArg Host.Outcome.next (onCore_core h _ _)

/-! ## ENGSYNC (R115) -/

theorem exec_engsync {s : State} {n : Nat} (h : s.cur = .core n) (f : FmtD) :
    exec (.engsync f) s = .next (s.beginWait n (s.waitOf f (.engsync f)) (engsyncTest f) (lateD f)) :=
  congrArg Host.Outcome.next (onCore_core h _ _)

/-- The engines that an `ENGSYNC` names are bits [3:0] of `aux`. -/
theorem testBit_named (f : FmtD) (e : Eng) : (f.aux.toNat % 16).testBit (engNum e) = f.aux.getLsbD (engNum e) := by
  rw [show 16 = 2 ^ 4 from rfl, Nat.testBit_mod_two_pow]
  simp [engNum_lt e, BitVec.getLsbD]

/-- The condition that an engine is named and stopped. -/
def Ctx.namedStopped (c : Ctx) (f : FmtD) (e : Eng) : Bool :=
  f.aux.getLsbD (engNum e) && decide ((c.eng e).st = .stopped)

theorem namedStopped_iff {c : Ctx} {f : FmtD} {e : Eng} :
    c.namedStopped f e = true ↔ f.aux.getLsbD (engNum e) = true ∧ (c.eng e).st = .stopped := by
  simp [Ctx.namedStopped]

theorem namedStopped_false {c : Ctx} {f : FmtD} {e : Eng}
    (h : f.aux.getLsbD (engNum e) = true → (c.eng e).st ≠ .stopped) : c.namedStopped f e = false := by
  rw [Bool.eq_false_iff, Ne, namedStopped_iff]
  exact fun hs => h hs.1 hs.2

theorem engsyncTest_eq (f : FmtD) (s : State) (n : Nat) (w : Wait) : engsyncTest f s n w =
    (if engMask ((s.fg n).namedStopped f) ≠ 0 then
      some (s.doneD n f w 7 (((s.fg n).eng (lowEng (engMask ((s.fg n).namedStopped f)))).cause.toNat +
        engMask ((s.fg n).namedStopped f) * 2 ^ 8))
    else if engines.all (fun e => !f.aux.getLsbD (engNum e) || (s.fg n).quiet e) then some (s.doneD n f w 0 0)
    else none) := by
  simp only [engsyncTest, testBit_named]
  rfl

theorem mem_engines (e : Eng) : e ∈ engines := by cases e <;> decide

theorem engsyncTest_stopped {s : State} {n : Nat} {f : FmtD} {e : Eng} (w : Wait) (h : (s.fg n).namedStopped f e = true)
    (hlow : ∀ e', engNum e' < engNum e → (s.fg n).namedStopped f e' = false) : engsyncTest f s n w =
      some (s.doneD n f w 7 (((s.fg n).eng e).cause.toNat + engMask ((s.fg n).namedStopped f) * 2 ^ 8)) := by
  rw [engsyncTest_eq, if_pos (engMask_ne_zero h), lowEng_engMask h hlow]

theorem engsyncTest_quiet {s : State} {n : Nat} {f : FmtD} (w : Wait) (hst : ∀ e, (s.fg n).namedStopped f e = false)
    (h : ∀ e, f.aux.getLsbD (engNum e) = true → (s.fg n).quiet e = true) :
    engsyncTest f s n w = some (s.doneD n f w 0 0) := by
  have hall : engines.all (fun e => !f.aux.getLsbD (engNum e) || (s.fg n).quiet e) = true := by
    simpa [List.all_eq_true, or_iff_not_imp_left] using fun e _ => h e
  rw [engsyncTest_eq, if_neg (not_not_intro (engMask_zero hst)), if_pos hall]

theorem engsyncTest_waits {s : State} {n : Nat} {f : FmtD} {e : Eng} (w : Wait)
    (hst : ∀ e, (s.fg n).namedStopped f e = false) (hn : f.aux.getLsbD (engNum e) = true)
    (hq : (s.fg n).quiet e = false) : engsyncTest f s n w = none := by
  have hall : ¬ engines.all (fun e => !f.aux.getLsbD (engNum e) || (s.fg n).quiet e) = true := by
    rw [List.all_eq_true]
    intro h
    simpa [hn, hq] using h e (mem_engines e)
  rw [engsyncTest_eq, if_neg (not_not_intro (engMask_zero hst)), if_neg hall]

/-- Settles O22: the two waits by the outcome of their first test, and the two that complete at once by their writes. -/
theorem engineControlInstructions : Obligations.EngineControlInstructions := by
  unfold Obligations.EngineControlInstructions
  intro s n hc hst c
  refine ⟨?_, ?_, ?_, ?_⟩
  · intro f d
    refine ⟨?_, fun hev hd => ?_, fun hev hd => ?_⟩
    · rintro ⟨e, he⟩
      rw [exec_sleepu hc, beginWait_now _ (sleepuTest_event f _ he), State.wake, Ctx.evMask, waitOf_pc]
      simp only [State.modFg]
    · rw [exec_sleepu hc, beginWait_now _ (sleepuTest_due f hev hd), State.wake, statusWord_zero, waitOf_pc]
    · rw [exec_sleepu hc, beginWait_setWait _ (sleepuTest_waits f hev hd) hc hst (Nat.le_of_lt hd)]
  · intro f _
    have hfg := fg_modFg_retire hc (fun c => c.engdl f.imm.toNat (s.xr f.a)) 8 1
    refine ⟨_, exec_engdl hc f, ?_, by simp, fun e => ?_⟩
    · rw [pc_core (n := n) (by simpa using hc), hfg, pc_engdl, pc_core hc]
      rfl
    · rw [hfg]
      exact edl_engdl c _ _ e
  · intro f e g v
    refine ⟨fun hb => ?_, fun hb => ?_⟩
    · rw [exec_engst hc, if_neg (ne_true_of_eq_false hb)]
      rfl
    · rw [exec_engst hc, if_pos hb]
      rfl
  · intro f named
    refine ⟨fun hs hq => ?_, fun e hn hs hlow => ?_, ?_⟩
    · rw [exec_engsync hc, beginWait_now _ (engsyncTest_quiet _ (fun e => namedStopped_false (hs e)) hq)]
      rfl
    · refine ⟨_, engMask_lt (c.namedStopped f),
        fun e' => (Bool.eq_iff_iff.1 (testBit_engMask _ e')).trans namedStopped_iff, ?_⟩
      rw [exec_engsync hc, beginWait_now _ (engsyncTest_stopped _ (namedStopped_iff.2 ⟨hn, hs⟩)
        (fun e' h => namedStopped_false (hlow e' h)))]
      rfl
    · rintro hs ⟨e, hn, hq⟩ hd
      rw [exec_engsync hc, beginWait_setWait _ (engsyncTest_waits _ (fun e => namedStopped_false (hs e)) hn hq)
        hc hst hd]

end Sys2Proof.Machine
end

section
/-! SUPPORT. The fences and the calls of path S: the checks of `ECALL` in their order, and the breakpoint
instructions. -/

namespace Sys2Proof.Machine

/-! ## ECALL (R108, R339) -/

theorem wOf_toNat (x : Word) : wOf x.toNat = x := by simp [wOf]

/-- The offset of the request block is misaligned. -/
theorem exec_ecall_misaligned {s : State} {n : Nat} (h : s.cur = .core n) (ha : (s.xr 11).toNat % 64 ≠ 0) :
    exec .ecall s = .next (s.trapHere 0x0F (s.xr 11)) := by
  show execEcall s = _
  rw [execEcall, onCore_core h, if_pos ha, wOf_toNat]

/-- It is aligned, and lies past the scratchpad. -/
theorem exec_ecall_outside {s : State} {n : Nat} (h : s.cur = .core n) (ha : (s.xr 11).toNat % 64 = 0)
    (hr : 2 ^ 19 ≤ (s.xr 11).toNat) : exec .ecall s = .next (s.trapHere 0x10 (s.xr 11)) := by
  have hdiv : (s.xr 11).toNat / 2 ^ 19 ≠ 0 := by omega
  show execEcall s = _
  rw [execEcall, onCore_core h, if_neg (not_not_intro ha), if_pos hdiv, wOf_toNat]

/-- The message of core n's request (R339). -/
def State.ecallMsg (s : State) (n : Nat) : Msg :=
  ctrlMsg (s.xr 10) (wOf ((s.fg n).ident.taskid.toNat * 2 ^ 32 + n / 256 * 2 ^ 8 + n % 256))
    (s.jobid (s.fg n).ident.job) 1 (memRead s.mem (spadKey n (s.xr 11).toNat) 64)

/-- A block that can be read: the call is accepted where no earlier one is outstanding and port 1 has room. -/
theorem exec_ecall_readable {s : State} {n : Nat} (h : s.cur = .core n) (ha : (s.xr 11).toNat % 64 = 0)
    (hr : (s.xr 11).toNat < 2 ^ 19) (hl : s.leasedAt n (s.xr 11).toNat 64 = none)
    (hp : s.spadPoison n (s.xr 11).toNat 64 = false) :
    exec .ecall s = .next (
      if (s.core n).ecall.isSome then (s.setXr 10 4).retire 4 2
      else if portUsed (s.port 1) + msgSpace (s.ecallMsg n) ≤ 131072 then
        (((s.setPort 1 (s.port 1 ++ [s.ecallMsg n])).setCore n
          { s.core n with ecall := some ((s.xr 12).setWidth 8, s.xr 11) }).setXr 10 0).retire 4 2
      else (s.setXr 10 4).retire 4 2) := by
  have hdiv : (s.xr 11).toNat / 2 ^ 19 = 0 := Nat.div_eq_of_lt hr
  show execEcall s = _
  rw [execEcall, onCore_core h, if_neg (not_not_intro ha), if_neg (not_not_intro hdiv), hl]
  simp only [hp, wOf_toNat]
  rfl

/-- Settles O13: `ECALL` by its checks in order, and the fences by their own meaning. -/
theorem fencesAndServiceCalls : Obligations.FencesAndServiceCalls := by
  unfold Obligations.FencesAndServiceCalls
  intro s n hc
  refine ⟨fun f => rfl, fun f => congrArg Host.Outcome.next (onCore_core hc _ _), exec_ecall_misaligned hc,
    exec_ecall_outside hc, fun ha hr hl hp => ?_⟩
  rw [exec_ecall_readable hc ha hr hl hp]
  refine ⟨fun hout => by rw [if_pos hout], fun hnone => ?_⟩
  rw [if_neg (by simp [hnone])]
  exact ⟨fun hroom => congrArg Host.Outcome.next (if_pos hroom),
    fun hfull => congrArg Host.Outcome.next (if_neg (Nat.not_le.2 hfull))⟩

/-! ## EBREAK (R109) -/

theorem breakAt_core {s : State} {n : Nat} (h : s.cur = .core n) (len : Nat) :
    s.breakAt len = (s.trapHere 0x0C s.pc).modFg n (fun c => { c with bpkLen := len }) := by
  simp only [State.breakAt, h]

/-- Settles O14: each is a breakpoint of its own length. -/
theorem breakpointsTrapAtThemselves : Obligations.BreakpointsTrapAtThemselves := by
  unfold Obligations.BreakpointsTrapAtThemselves
  intro s n hc
  exact ⟨congrArg Host.Outcome.next (breakAt_core hc 4), congrArg Host.Outcome.next (breakAt_core hc 2)⟩

end Sys2Proof.Machine
end

section
/-! SUPPORT. What a tile word at a unit at rest leaves: one that writes elements of its tile, and one that reads them
into a vector. -/

namespace Sys2Proof.Machine

/-! ## The elements of a vector made of elements (R24) -/

theorem toNat_mkEls_lt (n w : Nat) (g : Nat → Nat) : ∀ k, (mkEls n w g k).toNat < 2 ^ (w * k)
  | 0 => by simp [mkEls]
  | k + 1 => by
    have hel : g k % 2 ^ w * 2 ^ (w * k) < 2 ^ (w * (k + 1)) := by
      rw [Nat.mul_succ, Nat.add_comm, Nat.pow_add]
      exact Nat.mul_lt_mul_of_pos_right (Nat.mod_lt _ (Nat.two_pow_pos w)) (Nat.two_pow_pos _)
    have hlow := toNat_mkEls_lt n w g k
    rw [mkEls, BitVec.toNat_or, BitVec.toNat_shiftLeft, BitVec.toNat_ofNat, Nat.shiftLeft_eq]
    refine Nat.or_lt_two_pow (hlow.trans_le (Nat.pow_le_pow_right two_pos (Nat.mul_le_mul_left w k.le_succ))) ?_
    exact (Nat.mod_le _ _).trans_lt ((Nat.mul_le_mul_right _ (Nat.mod_le _ _)).trans_lt hel)

/-- One element more stands above those below it. -/
theorem toNat_mkEls_succ {n w k : Nat} (g : Nat → Nat) (h : w * (k + 1) ≤ n) :
    (mkEls n w g (k + 1)).toNat = 2 ^ (w * k) * (g k % 2 ^ w) + (mkEls n w g k).toNat := by
  have hpow : 2 ^ (w * k) * 2 ^ w ≤ 2 ^ n := by
    rw [← Nat.pow_add, ← Nat.mul_succ]
    exact Nat.pow_le_pow_right two_pos h
  have hel : 2 ^ (w * k) * (g k % 2 ^ w) < 2 ^ n :=
    (Nat.mul_lt_mul_of_pos_left (Nat.mod_lt _ (Nat.two_pow_pos w)) (Nat.two_pow_pos _)).trans_le hpow
  have hsmall : g k % 2 ^ w < 2 ^ n :=
    (Nat.le_mul_of_pos_left _ (Nat.two_pow_pos (w * k))).trans_lt hel
  rw [mkEls, BitVec.toNat_or, BitVec.toNat_shiftLeft, BitVec.toNat_ofNat, Nat.mod_eq_of_lt hsmall, Nat.shiftLeft_eq,
    Nat.mul_comm (g k % 2 ^ w), Nat.mod_eq_of_lt hel, Nat.or_comm, Nat.two_pow_add_eq_or_of_lt (toNat_mkEls_lt n w g k)]

theorem getEl_mkEls {n w j : Nat} (g : Nat → Nat) : ∀ {k : Nat}, j < k → w * k ≤ n →
    getEl (mkEls n w g k) w j = g j % 2 ^ w
  | k + 1, hj, hn => by
    rw [getEl, toNat_mkEls_succ g hn]
    obtain hlt | rfl := Nat.lt_succ_iff_lt_or_eq.1 hj
    · obtain ⟨r, rfl⟩ := Nat.exists_eq_add_of_lt hlt
      have hsplit : 2 ^ (w * (j + r + 1)) = 2 ^ (w * j) * (2 ^ w * 2 ^ (w * r)) := by
        rw [← Nat.pow_add, ← Nat.pow_add]
        ring_nf
      rw [hsplit, Nat.mul_assoc, Nat.mul_add_div (Nat.two_pow_pos _), Nat.mul_assoc, Nat.mul_add_mod]
      exact getEl_mkEls g hlt ((Nat.mul_le_mul_left w (Nat.le_succ _)).trans hn)
    · rw [Nat.mul_add_div (Nat.two_pow_pos _), Nat.div_eq_of_lt (toNat_mkEls_lt n w g j), Nat.add_zero, Nat.mod_mod]

theorem tileAt_lt (c : Ctx) (t i j : Nat) : c.tileAt t i j < 2 ^ 32 := (tget 0 c.regs.tile (tileKey t i j)).isLt

/-! ## A word that writes elements of its tile -/

variable {s : State} {n : Nat} {f : FmtM} {i : Instr} {eff : Eff} {m : Nat}

/-- What every completed tile word keeps beside tiles and vectors (R81). -/
def State.tileKept (s u : State) (n : Nat) (f : FmtM) : Prop :=
  u.pc = s.pc + 8 ∧ (s.fg n).semsMoved (u.fg n) f.wait f.sig ∧ s.sameMemory u ∧ s.sameElsewhere u n ∧
    (∀ r, (u.fg n).x r = (s.fg n).x r) ∧ (∀ r, (u.fg n).p r = (s.fg n).p r)

/-- A tile word has given the elements of its tile that lie inside a part of it their new values. -/
def State.tileFilled (s u : State) (n : Nat) (f : FmtM) (inside : Nat → Nat → Prop) (val : Nat → Nat → Nat) :
    Prop :=
  s.tileKept u n f ∧ (∀ r, (u.fg n).v r = (s.fg n).v r) ∧ ∀ k i j, k < 8 → i < 64 → j < 32 →
    (k = f.t.toNat ∧ inside i j → (u.fg n).tileAt k i j = val i j % 2 ^ 32) ∧
    (¬(k = f.t.toNat ∧ inside i j) → (u.fg n).tileAt k i j = (s.fg n).tileAt k i j)

/-- A word whose effect writes elements of its tile. -/
theorem issueM_fills {l : List (Nat × Nat)} {pz : Bool} {g : Nat → Nat → Nat} {inside : Nat → Nat → Prop}
    (h : s.unitsAtRest n) (hs : (s.fg n).semsAllow f.wait f.sig) (hw : encodeWord i = putM f m)
    (he : eff s n (s.mtEntry n i f) = runTile s n f.t.toNat l pz g) (hl : ∀ x ∈ l, x.1 < 64 ∧ x.2 < 32)
    (hin : ∀ i j, (i, j) ∈ l ↔ inside i j) : s.tileFilled (s.issueM i f eff) n f inside g := by
  obtain ⟨⟨hpc, hsems, helse, hx, hp, hv⟩, hmem, hregs⟩ :=
    issueM_modFg h hs hw he ⟨.inr (.inl rfl), rfl⟩ rfl rfl rfl rfl rfl rfl
  refine ⟨⟨hpc, hsems, hmem, helse, hx, hp⟩, hv, fun k i j _ hi hj => ?_⟩
  have htile := tileAt_fillTile (s.fg n) f.t.toNat pz g hl k hi hj
  have hpart : k = f.t.toNat ∧ (i, j) ∈ l ↔ k = f.t.toNat ∧ inside i j := and_congr_right fun _ => hin i j
  rw [Ctx.tileAt, hregs]
  exact ⟨fun hk => htile.trans (if_pos (hpart.2 hk)), fun hk => htile.trans (if_neg (hk ∘ hpart.1))⟩

/-- A word whose effect writes the region of its tile. -/
theorem issueM_fillsRegion {rows cols : Nat} {pz : Bool} {g : Nat → Nat → Nat} (h : s.unitsAtRest n)
    (hs : (s.fg n).semsAllow f.wait f.sig) (hw : encodeWord i = putM f m) (hr : rows ≤ 64) (hc : cols ≤ 32)
    (he : eff s n (s.mtEntry n i f) = runTile s n f.t.toNat (region rows cols) pz g) :
    s.tileFilled (s.issueM i f eff) n f (fun i j => i < rows ∧ j < cols) g := by
  refine issueM_fills h hs hw he (fun x hx => ?_) (fun _ _ => mem_region)
  obtain ⟨hi, hj⟩ := mem_region.1 hx
  exact ⟨hi.trans_le hr, hj.trans_le hc⟩

/-! ## A word that reads elements of its tile -/

theorem landReg_vec_p (c : Ctx) {p : Pending} (hk : p.kind = 1) (hs : p.spool = none) (r : Nat) :
    (c.landReg p).p r = c.p r := by
  rw [Ctx.landReg, hk, hs]
  cases p.keys.contains kflags <;> rfl

/-- A completed Mangle word has given the vector that it names its new value. -/
def State.vecLanded (s u : State) (n : Nat) (f : FmtM) (val : VReg) : Prop :=
  s.tileKept u n f ∧ u.mem = s.mem ∧ ∀ r, (u.fg n).v r = if r = f.a then val else (s.fg n).v r

/-- A Mangle word of core n that has changed nothing but its count has started from s. -/
structure State.mtStarted (s y : State) (n w : Nat) : Prop where
  only : s.onlyCtx y n
  regs : (y.fg n).regs = (s.fg n).regs
  sem : (y.fg n).sem = ((s.fg n).semTake w).sem
  pc : (y.fg n).pc = (s.fg n).pc
  mem : y.mem = s.mem
  poison : y.poison = s.poison

theorem mtStarted_mtBegun (h : (s.fg n).regs.pois = []) (w : Nat) (i : Instr) (ord : Nat) :
    s.mtStarted (s.mtBegun n w i ord) n w := by
  obtain ⟨hregs, hsem, hpc⟩ := fg_mtBegun s n w i ord
  exact ⟨onlyCtx_mtBegun s n w i ord, hregs.trans (regs_semTake h w), hsem, hpc, rfl, rfl⟩

/-- A started word that lands in a vector register completes. -/
theorem vecLanded_complete {y : State} {p : Pending} (hcur : s.cur = .core n)
    (hs : (s.fg n).semsAllow f.wait f.sig) (hy : s.mtStarted y n f.wait.toNat) (hk : p.kind = 1) (hsp : p.spool = none)
    (hd : p.dst = f.a.toNat) (hsig : p.sig = f.sig) :
    s.vecLanded (((y.complete n .mt p).settle n .mt).retire 8 1) n f p.val := by
  have ycur : y.cur = .core n := hy.only.cur.trans hcur
  obtain ⟨lv, lx, lpc, lsem, -⟩ := landReg_vec (y.fg n) hk hsp (hd ▸ f.a.isLt)
  obtain ⟨d, hadd, ⟨dv, dp, dx, -, -, -, -, -, -, dpc, -⟩, dmoved⟩ := semAdd_after_take hs (lsem.trans hy.sem)
  have hland : y.landSpool n p = y := landSpool_none hsp
  obtain ⟨tonly, tmem, tpoison, u, ⟨uv, up, ux, -⟩, usem, tfg⟩ := retire_complete (e := .mt) (p := p) ycur
    (by rw [hland, hsig]; exact hadd)
  rw [hland] at tmem tpoison
  have hmem := tmem.trans hy.mem
  refine ⟨⟨?_, fun k => ?_, sameMemory_of_eq hmem (tpoison.trans hy.poison), (hy.only.trans tonly).sameElsewhere,
    fun r => ?_, fun r => ?_⟩, hmem, fun r => ?_⟩
  · rw [pc_core (tonly.cur.trans ycur), tfg, pc_core hcur, ← hy.pc, ← lpc, ← dpc]
  · rw [← dmoved k, tfg]
    simp only [Ctx.semOf, usem]
  · rw [Ctx.x, Ctx.x, tfg, ← hy.regs, ux, dx]
    exact lx r
  · rw [Ctx.p, Ctx.p, tfg, ← hy.regs, up, dp]
    exact landReg_vec_p (y.fg n) hk hsp r
  · rw [Ctx.v, Ctx.v, tfg, ← hy.regs, uv, dv]
    have hr : r.toNat = p.dst ↔ r = f.a := by rw [hd, BitVec.toNat_eq]
    simp only [← hr]
    exact lv r

/-- A word whose effect changes nothing at its start and that lands in a vector register. -/
theorem issueM_landsVec {p : Pending} (h : s.unitsAtRest n) (hs : (s.fg n).semsAllow f.wait f.sig)
    (hw : encodeWord i = putM f m) (he : eff s n (s.mtEntry n i f) = .run s p) (hk : p.kind = 1) (hsp : p.spool = none)
    (hd : p.dst = f.a.toNat) : s.vecLanded (s.issueM i f eff) n f p.val := by
  obtain ⟨hcur, hlock, -, -, -, -, -, hclean, -⟩ := id h
  rw [issueM_complete h hs hw he hlock (by simp [hk])]
  exact vecLanded_complete hcur hs (mtStarted_mtBegun hclean _ i _) hk hsp hd rfl

/-- A tile word has read elements of its tile into the vector that it names. -/
def State.tileRead (s u : State) (n : Nat) (f : FmtM) (val : Nat → Nat) : Prop :=
  s.tileKept u n f ∧ u.mem = s.mem ∧ (∀ r, r ≠ f.a → (u.fg n).v r = (s.fg n).v r) ∧
    ∀ j, j < 32 → getEl ((u.fg n).v f.a) 32 j = val j

/-- The command that a read of 32 elements into a vector becomes. -/
def vecPend (f : FmtM) (val : Nat → Nat) : Pending :=
  { eng := .mt, kind := 1, dst := f.a.toNat, val := mkEls 1024 32 val 32 }

/-- A word that lands 32 elements in a vector register. -/
theorem issueM_reads {val : Nat → Nat} (h : s.unitsAtRest n) (hs : (s.fg n).semsAllow f.wait f.sig)
    (hw : encodeWord i = putM f m) (he : eff s n (s.mtEntry n i f) = .run s (vecPend f val))
    (hval : ∀ j, val j < 2 ^ 32) : s.tileRead (s.issueM i f eff) n f val := by
  obtain ⟨hkept, hmem, hv⟩ := issueM_landsVec h hs hw he rfl rfl rfl
  refine ⟨hkept, hmem, fun r hr => (hv r).trans (if_neg hr), fun j hj => ?_⟩
  rw [hv, if_pos rfl]
  exact (getEl_mkEls val hj (by decide)).trans (Nat.mod_eq_of_lt (hval j))

end Sys2Proof.Machine
end

section
/-! SUPPORT. The tile words one by one, at a unit at rest. -/

namespace Sys2Proof.Machine

variable {s : State} {n : Nat} {f : FmtM} {rows cols : Nat} {q : QEntry}

/-! ## Checks that stop the engine (R162, R166) -/

theorem withTile_unshaped {t : Nat} (h : (s.fg n).shape t = none) (g : Nat → Nat → Eff) (q : QEntry) :
    withTile t g s n q = .fault 0x03 q.word := by
  rw [withTile, h]

section
variable (hsh : (s.fg n).shape f.t.toNat = some (rows, cols))
include hsh

theorem msetrEff_bad (h : rows ≤ q.xb.toNat) : msetrEff f s n q = badStart q := by
  rw [msetrEff, withTile_shape hsh]
  exact if_pos h

theorem mgetrEff_bad (h : rows ≤ q.xb.toNat) : mgetrEff f s n q = badStart q := by
  rw [mgetrEff, withTile_shape hsh]
  exact if_pos h

theorem msetcEff_bad (h : cols ≤ q.xb.toNat) : msetcEff f s n q = badStart q := by
  rw [msetcEff, withTile_shape hsh]
  exact if_pos h

theorem mgetcEff_bad (h : cols ≤ q.xb.toNat) : mgetcEff f s n q = badStart q := by
  rw [mgetcEff, withTile_shape hsh]
  exact if_pos h

end

/-! ## `MCFG` (R175) -/

/-- The configuration word that an operand of `MCFG` gives: 0 for one that names no shape. -/
def cfgWord (x : Word) : Word :=
  let v := x.toNat % 2 ^ 13
  if 1 ≤ v / 64 ∧ v / 64 ≤ 64 ∧ 1 ≤ v % 64 ∧ v % 64 ≤ 32 then wOf v else 0

/-- The context in which a tile has a configuration word, written whole. -/
def Ctx.configured (c : Ctx) (t : Nat) (v : Word) : Ctx :=
  { c with regs := { c.regs.clean (poisCsr (0x810 + t)) with tcfg := tset 0 c.regs.tcfg t v } }

theorem mcfgEff_run : mcfgEff f s n q = .run (s.modFg n (fun c =>
    (c.configured f.t.toNat (cfgWord q.xa)).fillTile f.t.toNat (region 64 32) false (fun _ _ => 0)))
      (tilePend f.t.toNat) := by
  simp only [mcfgEff, decide_eq_true_eq]
  rfl

/-- What a write of elements of a tile leaves. -/
theorem fillTile_rest (c : Ctx) (t : Nat) (l : List (Nat × Nat)) (pz : Bool) (g : Nat → Nat → Nat) :
    let d := c.fillTile t l pz g
    d.sem = c.sem ∧ d.pc = c.pc ∧ d.regs.pois = c.regs.pois ∧ d.regs.x = c.regs.x ∧ d.regs.p = c.regs.p ∧
      d.regs.v = c.regs.v ∧ d.regs.tcfg = c.regs.tcfg := ⟨rfl, rfl, rfl, rfl, rfl, rfl, rfl⟩

/-- `MCFG` clears its whole tile and gives it its shape. -/
theorem mcfg_done (h : s.unitsAtRest n) (hs : (s.fg n).semsAllow f.wait f.sig) :
    let u := s.issueM (.mcfg f) f (mcfgEff f)
    s.tileFilled u n f (fun _ _ => True) (fun _ _ => 0) ∧ ∀ k, tget 0 (u.fg n).regs.tcfg k =
      if k = f.t.toNat then cfgWord (s.xr f.a) else tget 0 (s.fg n).regs.tcfg k := by
  intro u
  obtain ⟨-, -, -, -, -, -, -, hclean, -⟩ := id h
  obtain ⟨fsem, fpc, fpois, fx, fp, fv, ftcfg⟩ := fillTile_rest ((s.fg n).configured f.t.toNat (cfgWord (s.xr f.a)))
    f.t.toNat (region 64 32) false (fun _ _ => 0)
  obtain ⟨⟨hpc, hsems, helse, hx, hp, hv⟩, hmem, hregs⟩ := issueM_modFg (k := 3) (i := .mcfg f) h hs rfl mcfgEff_run
    ⟨.inr (.inl rfl), rfl⟩ fsem fpc (fpois.trans (congrArg Regs.pois (clean_of_noPoison hclean _) :)) fx fp fv
  refine ⟨⟨⟨hpc, hsems, hmem, helse, hx, hp⟩, hv, fun k i j _ hi hj => ?_⟩, fun k => ?_⟩
  · have htile := tileAt_fillTile_region ((s.fg n).configured f.t.toNat (cfgWord (s.xr f.a))) f.t.toNat false
      (fun _ _ => 0) (Nat.le_refl 64) (Nat.le_refl 32) k hi hj
    rw [Ctx.tileAt, hregs]
    exact ⟨fun hk => htile.trans (if_pos ⟨hk.1, hi, hj⟩),
      fun hk => htile.trans (if_neg fun hin => hk ⟨hin.1, trivial⟩)⟩
  · have hset := tget_tset 0 (s.fg n).regs.tcfg f.t.toNat k (cfgWord (s.xr f.a))
    rw [hregs]
    simp only [eq_comm (a := k)]
    exact (congrArg (fun t => tget 0 t k) ftcfg).trans hset

/-! ## Rows and columns (R176) -/

theorem msetr_fills (h : s.unitsAtRest n) (hs : (s.fg n).semsAllow f.wait f.sig)
    (hsh : (s.fg n).shape f.t.toNat = some (rows, cols)) (hr : rows ≤ 64) (hc : cols ≤ 32)
    (hb : (s.xr f.b).toNat < rows) : s.tileFilled (s.issueM (.msetr f) f (msetrEff f)) n f
      (fun i j => i = (s.xr f.b).toNat ∧ j < cols) (fun _ j => getEl ((s.fg n).v f.a) 32 j) := by
  have he : msetrEff f s n (s.mtEntry n (.msetr f) f) = runTile s n f.t.toNat
      ((List.range cols).map (fun j => ((s.xr f.b).toNat, j))) false (fun _ j => getEl ((s.fg n).v f.a) 32 j) := by
    rw [msetrEff, withTile_shape hsh]
    exact if_neg (Nat.not_le.2 hb)
  refine issueM_fills (m := 5) h hs rfl he (fun x hx => ?_) (fun i j => ?_)
  · obtain ⟨j, hj, rfl⟩ := List.mem_map.1 hx
    exact ⟨hb.trans_le hr, (List.mem_range.1 hj).trans_le hc⟩
  · simp only [List.mem_map, List.mem_range, Prod.mk.injEq]
    exact ⟨fun ⟨k, hk, hi, hj⟩ => ⟨hi.symm, hj ▸ hk⟩, fun ⟨hi, hj⟩ => ⟨j, hj, hi.symm, rfl⟩⟩

theorem mgetr_reads (h : s.unitsAtRest n) (hs : (s.fg n).semsAllow f.wait f.sig)
    (hclean : ∀ k, tget false (s.fg n).regs.tilePois k = false)
    (hsh : (s.fg n).shape f.t.toNat = some (rows, cols)) (hb : (s.xr f.b).toNat < rows) :
    s.tileRead (s.issueM (.mgetr f) f (mgetrEff f)) n f
      (fun j => if j < cols then (s.fg n).tileAt f.t.toNat (s.xr f.b).toNat j else 0) := by
  refine issueM_reads (m := 4) h hs rfl ?_ (fun j => ?_)
  · rw [mgetrEff, withTile_shape hsh]
    simp only [tileBad_clean hclean]
    exact if_neg (Nat.not_le.2 hb)
  · split
    · exact tileAt_lt _ _ _ _
    · decide

theorem mem_halfRows {k r a : Nat} : a ∈ halfRows k r ↔ a < 32 ∧ 32 * k + a < r := by simp [halfRows]

theorem msetc_fills (h : s.unitsAtRest n) (hs : (s.fg n).semsAllow f.wait f.sig)
    (hsh : (s.fg n).shape f.t.toNat = some (rows, cols)) (hr : rows ≤ 64) (hc : cols ≤ 32)
    (hb : (s.xr f.b).toNat < cols) :
    let half := 32 * (f.aux.toNat % 2)
    s.tileFilled (s.issueM (.msetc f) f (msetcEff f)) n f
      (fun i j => j = (s.xr f.b).toNat ∧ half ≤ i ∧ i < half + 32 ∧ i < rows)
      (fun i _ => getEl ((s.fg n).v f.a) 32 (i - half)) := by
  intro half
  have he : msetcEff f s n (s.mtEntry n (.msetc f) f) = runTile s n f.t.toNat
      ((halfRows (f.aux.toNat % 2) rows).map (fun r => (half + r, (s.xr f.b).toNat))) false
      (fun i _ => getEl ((s.fg n).v f.a) 32 (i - half)) := by
    rw [msetcEff, withTile_shape hsh]
    exact if_neg (Nat.not_le.2 hb)
  refine issueM_fills (m := 7) h hs rfl he (fun x hx => ?_) (fun i j => ?_)
  · obtain ⟨r, hmem, rfl⟩ := List.mem_map.1 hx
    obtain ⟨-, hrow⟩ := mem_halfRows.1 hmem
    exact ⟨hrow.trans_le hr, hb.trans_le hc⟩
  · simp only [List.mem_map, mem_halfRows, Prod.mk.injEq]
    constructor
    · rintro ⟨r, ⟨h32, hrow⟩, rfl, rfl⟩
      exact ⟨rfl, by omega, by omega, hrow⟩
    · rintro ⟨rfl, hlo, hhi, hrow⟩
      exact ⟨i - half, ⟨by omega, by omega⟩, by omega, rfl⟩

theorem mgetc_reads (h : s.unitsAtRest n) (hs : (s.fg n).semsAllow f.wait f.sig)
    (hclean : ∀ k, tget false (s.fg n).regs.tilePois k = false)
    (hsh : (s.fg n).shape f.t.toNat = some (rows, cols)) (hb : (s.xr f.b).toNat < cols) :
    let half := 32 * (f.aux.toNat % 2)
    s.tileRead (s.issueM (.mgetc f) f (mgetcEff f)) n f
      (fun r => if half + r < rows then (s.fg n).tileAt f.t.toNat (half + r) (s.xr f.b).toNat else 0) := by
  intro half
  refine issueM_reads (m := 6) h hs rfl ?_ (fun j => ?_)
  · rw [mgetcEff, withTile_shape hsh]
    simp only [tileBad_clean hclean]
    exact if_neg (Nat.not_le.2 hb)
  · split
    · exact tileAt_lt _ _ _ _
    · decide

/-! ## The whole region (R175, R177, R180, R181) -/

theorem mzeroEff_run (hsh : (s.fg n).shape f.t.toNat = some (rows, cols)) :
    mzeroEff f s n q = runTile s n f.t.toNat (region rows cols) false (fun _ _ => 0) :=
  withTile_shape hsh _ q

/-- An element of a copy: the other tile's, or its rounded sum with the old one (R181). -/
def Ctx.copyEl (c : Ctx) (t m : Nat) (plus : Bool) (i j : Nat) : Nat :=
  if plus then rneBits (add' (dec f32 (c.tileAt t i j)) (dec f32 (c.tileAt m i j))) else c.tileAt m i j

/-- A copy of a tile of equal shape. -/
theorem mcopyEff_run {plus : Bool} (hclean : ∀ k, tget false (s.fg n).regs.tilePois k = false)
    (hsh : (s.fg n).shape f.t.toNat = some (rows, cols)) (hm : (s.fg n).shape (f.aux.toNat % 8) = some (rows, cols)) :
    mcopyEff f plus s n q = runTile s n f.t.toNat (region rows cols) false
      ((s.fg n).copyEl f.t.toNat (f.aux.toNat % 8) plus) := by
  rw [mcopyEff, withTile_shape hsh]
  simp only [hm, tileBad_clean hclean, Bool.and_false]
  exact if_neg (not_not_intro rfl)

/-- The group of elements of a transform of order o that element (i, j) is in, along its row or its column (R180). -/
def Ctx.hadGroup (c : Ctx) (t o : Nat) (row : Bool) (i j : Nat) : List Val :=
  (List.range o).map (fun k => dec f32 (if row then c.tileAt t i (j / o * o + k) else c.tileAt t (i / o * o + k) j))

/-- A transform whose order divides the rows' or the columns' length. -/
theorem mhadEff_run {row : Bool} (hclean : ∀ k, tget false (s.fg n).regs.tilePois k = false)
    (hsh : (s.fg n).shape f.t.toNat = some (rows, cols))
    (ho : (if row then cols else rows) % (16 * 2 ^ (f.aux.toNat % 4)) = 0) :
    let o := 16 * 2 ^ (f.aux.toNat % 4)
    mhadEff f row s n q = runTile s n f.t.toNat (region rows cols) false
      (fun i j => hpassAt ((s.fg n).hadGroup f.t.toNat o row i j) o ((if row then j else i) % o)) := by
  intro o
  rw [mhadEff, withTile_shape hsh]
  simp only [tileBad_clean hclean]
  exact if_neg (not_not_intro ho)

theorem bfmt_eq_of_low {c : Ctx} {ty : Nat} (h : ∀ k, k < 16 → (c.bfmt k).toNat % 32 = ty) (k : Nat) :
    fmtTy (c.bfmt k) = ty := by
  have := h (k % 16) (Nat.mod_lt _ (by decide))
  rwa [Ctx.bfmt, Nat.mod_mod] at this

/-- A load whose rows lie in banks of its type, within the scratchpad (R177). -/
theorem mloadEff_run (hl : s.lockstep = true) (hsh : (s.fg n).shape f.t.toNat = some (rows, cols))
    (ha : q.xa.toNat % 4 = 0) (hst : q.xb.toNat % 4 = 0)
    (hin : q.xa.toNat + (rows - 1) * q.xb.toNat + cols * (tyWidth f.fa / 8) ≤ 0x80000)
    (hb : ∀ k, k < 16 → ((s.fg n).bfmt k).toNat % 32 = f.fa.toNat) :
    ∃ pz, mloadEff f s n q = runTile s n f.t.toNat (region rows cols) pz (fun i j => loadEl f.fa.toNat
      (s.spadNum n (q.xa.toNat + i * q.xb.toNat + j * (tyWidth f.fa / 8)) (tyWidth f.fa / 8))) := by
  refine ⟨(List.range rows).any (fun i =>
    s.spadPoison n (q.xa.toNat + i * q.xb.toNat) (cols * (tyWidth f.fa / 8))), ?_⟩
  rw [mloadEff, withTile_shape hsh]
  simp only [bfmt_eq_of_low hb]
  rw [if_neg (by omega), if_neg (by simp), if_pos hl]

theorem loadEl_eq (ty : BitVec 5) (e : Nat) :
    loadEl ty.toNat e = if ty = 0 then e else (enc f32 (dec (fmtOf ty.toNat) e) 0 false {}).1 := by
  simp only [loadEl, BitVec.toNat_eq]
  rfl

end Sys2Proof.Machine
end

section
/-! SUPPORT. The statement about the tile words. -/

namespace Sys2Proof.Machine

/-- Settles O39: each word by the part of its tile that its effect writes or reads at a unit at rest, or by the check
that stops it. -/
theorem tileInstructions : Obligations.TileInstructions := by
  unfold Obligations.TileInstructions
  intro s n f h hs hclean c t m ia ib moved writes reads stops
  have stopped {i : Instr} {eff : Eff} {cause : Nat} (hx : exec i s = .next (s.issueM i f eff))
      (he : eff s n (s.mtEntry n i f) = .fault cause (encodeWord i)) : stops i cause := ⟨_, hx, issueM_stops h he⟩
  obtain ⟨hcleared, hshaped⟩ := mcfg_done (f := f) h hs
  refine ⟨⟨_, rfl, hcleared⟩, ⟨_, rfl, hshaped⟩, fun hnone => ?_, fun rows cols hsh hr hc => ?_⟩
  · have unshaped {i : Instr} {g : Nat → Nat → Eff} (hx : exec i s = .next (s.issueM i f (withTile f.t.toNat g))) :
        stops i 0x03 := stopped hx (withTile_unshaped hnone g _)
    exact ⟨unshaped rfl, unshaped rfl, unshaped rfl, unshaped rfl, unshaped rfl, unshaped rfl, unshaped rfl,
      unshaped rfl, unshaped rfl, unshaped rfl, unshaped rfl, unshaped rfl, unshaped rfl, unshaped rfl, unshaped rfl⟩
  · intro here
    have fills {i : Instr} {eff : Eff} {k : Nat} {pz : Bool} {g : Nat → Nat → Nat}
        (hx : exec i s = .next (s.issueM i f eff)) (hw : encodeWord i = putM f k)
        (he : eff s n (s.mtEntry n i f) = runTile s n f.t.toNat (region rows cols) pz g) : writes i here g :=
      ⟨_, hx, issueM_fillsRegion h hs hw hr hc he⟩
    refine ⟨fills (k := 2) rfl rfl (mzeroEff_run hsh), fun hb => ?_, fun hb => ?_, fun hb => ?_, fun hb => ?_,
      fun hm => ?_, ?_, ?_⟩
    · exact ⟨⟨_, rfl, msetr_fills h hs hsh hr hc hb⟩, ⟨_, rfl, mgetr_reads h hs hclean hsh hb⟩⟩
    · exact ⟨stopped rfl (msetrEff_bad hsh hb), stopped rfl (mgetrEff_bad hsh hb)⟩
    · exact ⟨⟨_, rfl, msetc_fills h hs hsh hr hc hb⟩, ⟨_, rfl, mgetc_reads h hs hclean hsh hb⟩⟩
    · exact ⟨stopped rfl (msetcEff_bad hsh hb), stopped rfl (mgetcEff_bad hsh hb)⟩
    · exact ⟨fills (k := 13) rfl rfl (mcopyEff_run (plus := false) hclean hsh hm),
        fills (k := 13) rfl rfl (mcopyEff_run (plus := true) hclean hsh hm)⟩
    · intro o
      exact ⟨fun ho => fills (k := 9) rfl rfl (mhadEff_run (row := true) hclean hsh ho),
        fun ho => fills (k := 9) rfl rfl (mhadEff_run (row := false) hclean hsh ho)⟩
    · intro wb ha hst hin hb _
      obtain ⟨-, hl, -⟩ := id h
      obtain ⟨pz, he⟩ := mloadEff_run (q := s.mtEntry n (.mload f) f) hl hsh ha hst hin hb
      simp only [loadEl_eq] at he
      exact fills (k := 8) rfl rfl he

end Sys2Proof.Machine
end

section
/-! SUPPORT. Barriers: the messages between tasks and homes, a task's records, and the four instructions. -/

namespace Sys2Proof.Machine

/-! ## What a message to or from a home changes (R207 to R212) -/

/-- Nothing differs but messages: those of the fabric and the Hampers, with the supply of free values, and those on
their way between tasks and the homes of this package. -/
structure State.barSends (s t : State) : Prop where
  rest : { t with fab := s.fab, hamper := s.hamper, free := s.free, sch := { t.sch with
    barArr := s.sch.barArr, barWdr := s.sch.barWdr, barAns := s.sch.barAns } } = s

theorem State.sends.barSends {s t : State} (h : s.sends t) : s.barSends t := ⟨by rw [← h.rest]⟩

theorem State.sends.sch {s t : State} (h : s.sends t) : t.sch = s.sch := (congrArg State.sch h.rest :)
theorem State.sends.mem {s t : State} (h : s.sends t) : t.mem = s.mem := (congrArg State.mem h.rest :)
theorem State.sends.now {s t : State} (h : s.sends t) : t.now = s.now := (congrArg State.now h.rest :)

namespace State.barSends

variable {s t u : State}

theorem refl (s : State) : s.barSends s := ⟨rfl⟩

theorem trans (h : s.barSends t) (g : t.barSends u) : s.barSends u where
  rest := by rw [← h.rest, ← g.rest]

theorem foldl {α : Type} {f : State → α → State} (hf : ∀ (s : State) x, s.barSends (f s x)) (l : List α)
    (s : State) : s.barSends (l.foldl f s) := by
  induction l generalizing s with
  | nil => exact refl s
  | cons x r ih => exact (hf s x).trans (ih _)

theorem cur (h : s.barSends t) : t.cur = s.cur := (congrArg State.cur h.rest :)
theorem mem (h : s.barSends t) : t.mem = s.mem := (congrArg State.mem h.rest :)
theorem core (h : s.barSends t) (n : Nat) : t.core n = s.core n := (congrArg (fun s => State.core s n) h.rest :)
theorem fg (h : s.barSends t) (n : Nat) : t.fg n = s.fg n := congrArg Core.fg (h.core n)
theorem jtime (h : s.barSends t) (j : Nat) : t.jtime j = s.jtime j := (congrArg (fun s => State.jtime s j) h.rest :)
theorem bar (h : s.barSends t) (k : BarKey) : t.bar k = s.bar k := (congrArg (fun s => State.bar s k) h.rest :)

end State.barSends

section
variable (s : State) (k : BarKey) (g : Nat)

theorem barSends_sendArrival (n : BitVec 32) (wait : Bool) : s.barSends (s.sendArrival k g n wait) := by
  unfold State.sendArrival
  split
  · exact ⟨rfl⟩
  · exact (sends_tellPkg s _ _ _).barSends

theorem barSends_sendWithdrawal (r : BarRec) : s.barSends (s.sendWithdrawal g r) := by
  unfold State.sendWithdrawal
  split
  · exact ⟨rfl⟩
  · exact (sends_tellPkg s _ _ _).barSends

theorem barSends_barAnswer (a : BarAns) : s.barSends (s.barAnswer k g a) := by
  unfold State.barAnswer
  simp only
  split
  · exact ⟨rfl⟩
  · exact (sends_tellPkg s _ _ _).barSends

end

section
variable {s : State} {k : BarKey}

theorem barArr_sendArrival_here (g : Nat) (n : BitVec 32) (wait : Bool) (h : s.homeHere k = true) :
    (s.sendArrival k g n wait).sch.barArr = s.sch.barArr ++ [⟨k, g, n, wait, s.now + s.barWay k⟩] := by
  rw [State.sendArrival, if_pos h]

theorem barArr_sendArrival_far (g : Nat) (n : BitVec 32) (wait : Bool) (h : s.homeHere k = false) :
    (s.sendArrival k g n wait).sch.barArr = s.sch.barArr := by
  rw [State.sendArrival, if_neg (ne_true_of_eq_false h), (sends_tellPkg s _ _ _).sch]

theorem barWdr_sendWithdrawal_here {r : BarRec} (g : Nat) (h : s.homeHere r.key = true) :
    (s.sendWithdrawal g r).sch.barWdr = s.sch.barWdr ++ [⟨r.key, g, r.phase, r.known, s.now + s.barWay r.key⟩] := by
  rw [State.sendWithdrawal, if_pos h]

theorem barWdr_sendWithdrawal_far {r : BarRec} (g : Nat) (h : s.homeHere r.key = false) :
    (s.sendWithdrawal g r).sch.barWdr = s.sch.barWdr := by
  rw [State.sendWithdrawal, if_neg (ne_true_of_eq_false h), (sends_tellPkg s _ _ _).sch]

end

/-! ## A task's records (R205) -/

theorem barRec_dropRec (c : Ctx) (k : BarKey) : (c.dropRec k).barRec k = none := by
  simp [Ctx.barRec, Ctx.dropRec]

theorem key_of_barRec {c : Ctx} {k : BarKey} {r : BarRec} (h : c.barRec k = some r) : r.key = k := by
  simpa using List.find?_some h

theorem barRec_setRec (c : Ctx) (r : BarRec) : (c.setRec r).barRec r.key = some r := by
  have hnone := barRec_dropRec c r.key
  rw [Ctx.barRec] at hnone ⊢
  rw [Ctx.setRec, List.find?_append, hnone]
  simp

/-- The count is the upper half of the operand (R206). -/
theorem barN_eq (xa : Word) : barN xa = BitVec.ofNat 32 (xa.toNat / 2 ^ 32) := by
  apply BitVec.eq_of_toNat_eq
  simp [barN, wfld, fld]

/-! ## The instructions (R208 to R211) -/

theorem agentTime_core {s : State} {n : Nat} (h : s.cur = .core n) :
    s.agentTime = s.jtime (s.fg n).ident.job := by simp [State.agentTime, h]

section
variable {s : State} {n : Nat} (h : s.cur = .core n) (w : Wait)
include h

theorem fg_setWait : (s.setWait w).fg n = { s.fg n with wait := some w } := by
  rw [setWait_core h, fg_tick, fg_modFg_self]

theorem pc_setWait : (s.setWait w).pc = s.pc := by
  have hcur : (s.setWait w).cur = .core n := by rw [setWait_core h]; exact h
  rw [pc_core hcur, fg_setWait h, pc_core h]

theorem setWait_mem : (s.setWait w).mem = s.mem := by rw [setWait_core h]; rfl
theorem setWait_sch : (s.setWait w).sch = s.sch := by rw [setWait_core h]; rfl

end

theorem jtime_setFg (s : State) (n : Nat) (c : Ctx) (j : Nat) : (s.setFg n c).jtime j = s.jtime j := rfl

/-- A Format Q instruction that completes: its result, and the PC past it. -/
theorem doneQ_core {s : State} {n : Nat} (h : s.cur = .core n) (f : FmtQ) (v : Word) (k : Nat) :
    let t := s.doneQ f v k
    t.fg n = { (s.fg n).setX f.d v with pc := (s.fg n).pc + 8 } ∧ t.pc = s.pc + 8 ∧ t.mem = s.mem ∧ t.sch = s.sch ∧
      (f.d ≠ 0 → t.xr f.d = v) := by
  intro t
  have hfg : t.fg n = { (s.fg n).setX f.d v with pc := (s.fg n).pc + 8 } := fg_setXr_retire h f.d v 8 k
  have hcur : t.cur = .core n := by simpa [t, State.doneQ] using h
  refine ⟨hfg, ?_, by simp [t, State.doneQ], by simp [t, State.doneQ], fun hd => ?_⟩
  · rw [pc_core hcur, hfg, pc_core h]
  · rw [xr_core hcur, hfg]
    exact (x_setX _ _ _ _).trans (by rw [if_neg hd, if_pos rfl])

theorem refusal63_one : refusal63 1 = 0x8000000000000001 := rfl
theorem refusal63_two : refusal63 2 = 0x8000000000000002 := rfl

/-- A record is put into the context of core n, and its arrival sent. -/
def State.joinBar (s : State) (n : Nat) (c : Ctx) (k : BarKey) (cnt : BitVec 32) (wait : Bool) : State :=
  (s.setFg n c).sendArrival k (s.gid (s.fg n)) cnt wait

section
variable {s : State} {n : Nat} {k : BarKey} (c : Ctx) (cnt : BitVec 32) (wait : Bool)

theorem barSends_joinBar : (s.setFg n c).barSends (s.joinBar n c k cnt wait) := barSends_sendArrival _ k _ cnt wait

theorem fg_joinBar : (s.joinBar n c k cnt wait).fg n = c :=
  ((barSends_joinBar c cnt wait).fg n).trans (fg_setFg_self s n c)

theorem barArr_joinBar :
    (s.homeHere k = true → (s.joinBar n c k cnt wait).sch.barArr =
      s.sch.barArr ++ [⟨k, s.gid (s.fg n), cnt, wait, s.now + s.barWay k⟩]) ∧
    (s.homeHere k = false → (s.joinBar n c k cnt wait).sch.barArr = s.sch.barArr) :=
  ⟨barArr_sendArrival_here (s := s.setFg n c) _ _ _, barArr_sendArrival_far (s := s.setFg n c) _ _ _⟩

end

/-- The context with a new record. -/
def Ctx.addRec (c : Ctx) (k : BarKey) : Ctx := { c with bars := c.bars ++ [{ key := k }] }

/-- The context with a new record and a register for its home's reply, as `BARA` leaves it. -/
def Ctx.toldTo (c : Ctx) (k : BarKey) (rd : BitVec 5) : Ctx :=
  { c with bars := c.bars ++ [{ key := k }], baraTo := c.baraTo ++ [(k, false, rd)] }

/-- A record is forgotten, and its phase number written. -/
def State.takePhase (s : State) (n : Nat) (k : BarKey) (rd : BitVec 5) (ph : BitVec 16) : State :=
  (s.setFg n ((s.fg n).dropRec k)).modFg n (fun c => c.setX rd (wOf ph.toNat))

/-- The context whose record is withdrawn, with a register for the result, as `BARX` leaves it. -/
def Ctx.leaving (c : Ctx) (k : BarKey) (r : BarRec) (rd : BitVec 5) : Ctx :=
  { c.setRec { r with withdrawn := true } with baraTo := c.baraTo ++ [(k, true, rd)] }

theorem pc_leaving (c : Ctx) (k : BarKey) (r : BarRec) (rd : BitVec 5) : (c.leaving k r rd).pc = c.pc := by
  simp only [Ctx.leaving, Ctx.setRec, Ctx.dropRec]

/-- The record of core n is withdrawn, and its home told unless it has been. -/
def State.leaveBar (s : State) (n : Nat) (k : BarKey) (r : BarRec) (rd : BitVec 5) : State :=
  if r.withdrawn then s.setFg n ((s.fg n).leaving k r rd)
  else (s.setFg n ((s.fg n).leaving k r rd)).sendWithdrawal (s.gid (s.fg n)) r

section
variable {s : State} {n : Nat} {k : BarKey} {rd : BitVec 5}

theorem takePhase_done (ph : BitVec 16) : let t := s.takePhase n k rd ph
    (t.fg n).barRec k = none ∧ t.mem = s.mem ∧ (t.fg n).x rd = if rd = 0 then 0 else wOf ph.toNat := by
  intro t
  have hfg : t.fg n = ((s.fg n).dropRec k).setX rd (wOf ph.toNat) := by
    rw [show t = s.takePhase n k rd ph from rfl, State.takePhase, fg_modFg_self, fg_setFg_self]
  rw [hfg]
  exact ⟨barRec_dropRec (s.fg n) k, rfl, (x_setX _ _ _ _).trans (by rw [if_pos rfl])⟩

theorem barSends_leaveBar (r : BarRec) : (s.setFg n ((s.fg n).leaving k r rd)).barSends (s.leaveBar n k r rd) := by
  unfold State.leaveBar
  split
  · exact .refl _
  · exact barSends_sendWithdrawal _ _ r

theorem fg_leaveBar (r : BarRec) : (s.leaveBar n k r rd).fg n = (s.fg n).leaving k r rd :=
  ((barSends_leaveBar r).fg n).trans (fg_setFg_self s n _)

theorem barWdr_leaveBar_here {r : BarRec} (h : s.homeHere r.key = true) (hw : r.withdrawn = false) :
    (s.leaveBar n k r rd).sch.barWdr =
      s.sch.barWdr ++ [⟨r.key, s.gid (s.fg n), r.phase, r.known, s.now + s.barWay r.key⟩] := by
  rw [State.leaveBar, if_neg (ne_true_of_eq_false hw)]
  exact barWdr_sendWithdrawal_here (s := s.setFg n _) _ h

theorem barWdr_leaveBar_far {r : BarRec} (h : s.homeHere r.key = false ∨ r.withdrawn = true) :
    (s.leaveBar n k r rd).sch.barWdr = s.sch.barWdr := by
  unfold State.leaveBar
  split
  · rfl
  · next hw => exact barWdr_sendWithdrawal_far (s := s.setFg n _) _ (h.resolve_right hw)

end

section
variable {s : State} {n : Nat} {k : BarKey} (h : s.cur = .core n)
include h

theorem exec_bar {f : FmtD} (hk : s.barKey n (f.aux.toNat % 16) (s.xr f.a) = k) :
    exec (.bar f) s = .next (
      if ((s.fg n).barRec k).isSome then s.finishDk n 1 f.st f.x s.pc 5 1
      else if 4 ≤ (s.fg n).bars.length then s.finishDk n 1 f.st f.x s.pc 5 2
      else (s.joinBar n ((s.fg n).addRec k) k (barN (s.xr f.a)) true).beginWait n
        (s.waitOf f (.bar f)) barTest (barLate (f.aux.toNat % 16))) :=
  hk ▸ congrArg Host.Outcome.next (onCore_core h _ _)

/-- A `BAR` that has sent its arrival before its deadline waits (R208). -/
theorem exec_bar_joins {f : FmtD} (hk : s.barKey n (f.aux.toNat % 16) (s.xr f.a) = k)
    (hst : (s.core n).stepping = none) (hrec : (s.fg n).barRec k = none) (hroom : (s.fg n).bars.length < 4)
    (hd : s.agentTime.toNat ≤ (deadlineAt s.agentTime (s.xr f.dl)).toNat) :
    exec (.bar f) s = .next
      ((s.joinBar n ((s.fg n).addRec k) k (barN (s.xr f.a)) true).setWait (s.waitOf f (.bar f))) := by
  have hu := barSends_joinBar (s := s) (n := n) (k := k) ((s.fg n).addRec k) (barN (s.xr f.a)) true
  have hcur := hu.cur.trans h
  have hcore := (hu.core n).trans (core_setFg_self s n _)
  have htime : State.agentTime (s.joinBar n ((s.fg n).addRec k) k (barN (s.xr f.a)) true) = s.agentTime := by
    rw [agentTime_core hcur, hu.jtime, fg_joinBar, agentTime_core h, jtime_setFg, Ctx.addRec]
  rw [exec_bar h hk, if_neg (by simp [hrec]), if_neg (Nat.not_le.2 hroom),
    beginWait_setWait _ rfl hcur (by rw [hcore]; exact hst) (by rw [htime]; exact hd)]

theorem exec_bara {f : FmtQ} (hk : s.barKey n (f.imm.toNat % 16) (s.xr f.a) = k) :
    exec (.bara f) s = .next (
      if ((s.fg n).barRec k).isSome then s.doneQ f (refusal63 1) 4
      else if 4 ≤ (s.fg n).bars.length then s.doneQ f (refusal63 2) 4
      else (s.joinBar n ((s.fg n).toldTo k f.d) k (barN (s.xr f.a)) false).retire 8 1) :=
  hk ▸ congrArg Host.Outcome.next (onCore_core h _ _)

theorem exec_barw {f : FmtD} (hk : s.barKey n (f.aux.toNat % 16) (s.xr f.a) = k) :
    exec (.barw f) s = .next (
      match (s.fg n).barRec k with
      | none => s.finishDk n 1 f.st f.x s.pc 5 0
      | some r =>
        match r.ans with
        | some (.completed ph) => (s.takePhase n k f.d ph).finishDk n 1 f.st f.x s.pc 0 0
        | some (.broken ph) => (s.takePhase n k f.d ph).finishDk n 1 f.st f.x s.pc 3 0
        | _ => s.beginWait n (s.waitOf f (.barw f)) barTest (barLate (f.aux.toNat % 16))) :=
  hk ▸ congrArg Host.Outcome.next (onCore_core h _ _)

theorem exec_barx {f : FmtQ} (hk : s.barKey n (f.imm.toNat % 16) (s.xr f.a) = k) :
    exec (.barx f) s = .next (
      match (s.fg n).barRec k with
      | none => s.doneQ f 2 2
      | some r =>
        if r.ans.isSome then (s.setFg n ((s.fg n).dropRec k)).doneQ f 1 2
        else (s.leaveBar n k r f.d).retire 8 1) :=
  hk ▸ congrArg Host.Outcome.next (onCore_core h _ _)

end

/-- Settles O30: each instruction by what the task's records say of its barrier. -/
theorem barrierInstructions : Obligations.BarrierInstructions := by
  unfold Obligations.BarrierInstructions
  intro s n hc hst c
  constructor
  · intro f k cnt arr
    have hcnt : barN (s.xr f.a) = cnt := barN_eq _
    have hk : s.barKey n (f.aux.toNat % 16) (s.xr f.a) = k := rfl
    refine ⟨fun hrec => ?_, fun hrec hfull => ?_, fun hrec hroom hd => ?_, fun hrec => ?_, fun r ph hrec hans => ?_,
      fun r ph hrec hans => ?_, fun r hrec hans hd => ?_⟩
    · rw [exec_bar hc hk, if_pos hrec]
    · rw [exec_bar hc hk, if_neg (by simp [c, hrec]), if_pos hfull]
    · have hu := barSends_joinBar (s := s) (n := n) (k := k) (c.addRec k) cnt true
      have hcur := hu.cur.trans hc
      obtain ⟨hhere, hfar⟩ := barArr_joinBar (s := s) (n := n) (k := k) (c.addRec k) cnt true
      have hfg := fg_setWait hcur (s.waitOf f (.bar f))
      have hx := exec_bar_joins hc hk hst hrec hroom hd
      rw [hcnt] at hx
      rw [fg_joinBar] at hfg
      refine ⟨_, hx, ?_, (setWait_mem hcur _).trans hu.mem, ?_, ?_, congrArg Ctx.bars hfg, congrArg Ctx.wait hfg⟩
      · rw [pc_setWait hcur, pc_core hcur, fg_joinBar, pc_core hc]
        rfl
      · rwa [setWait_sch hcur]
      · rwa [setWait_sch hcur]
    · rw [exec_barw hc hk, show (s.fg n).barRec k = none from hrec]
    · refine ⟨s.takePhase n k f.d ph, ?_, takePhase_done ph⟩
      simp only [exec_barw hc hk, show (s.fg n).barRec k = some r from hrec, hans]
    · refine ⟨s.takePhase n k f.d ph, ?_, takePhase_done ph⟩
      simp only [exec_barw hc hk, show (s.fg n).barRec k = some r from hrec, hans]
    · simp only [exec_barw hc hk, show (s.fg n).barRec k = some r from hrec, hans]
      rw [beginWait_setWait _ rfl hc hst hd]
  · intro f k cnt
    have hcnt : barN (s.xr f.a) = cnt := barN_eq _
    have hk : s.barKey n (f.imm.toNat % 16) (s.xr f.a) = k := rfl
    refine ⟨fun hrec => ?_, fun hrec hfull => ?_, fun hrec hroom => ?_, fun hrec => ?_, fun r hrec hans => ?_,
      fun r hrec hans => ?_⟩
    · rw [exec_bara hc hk, if_pos hrec, State.doneQ, refusal63_one]
    · rw [exec_bara hc hk, if_neg (by simp [c, hrec]), if_pos hfull, State.doneQ, refusal63_two]
    · have hu := barSends_joinBar (s := s) (n := n) (k := k) (c.toldTo k f.d) cnt false
      have hcur := hu.cur.trans hc
      obtain ⟨hhere, hfar⟩ := barArr_joinBar (s := s) (n := n) (k := k) (c.toldTo k f.d) cnt false
      have hfg := fg_retire hcur 8 1
      have hx : exec (.bara f) s = .next ((s.joinBar n (c.toldTo k f.d) k cnt false).retire 8 1) := by
        rw [exec_bara hc hk, if_neg (by simp [c, hrec]), if_neg (Nat.not_le.2 hroom), hcnt]
      rw [fg_joinBar] at hfg
      refine ⟨_, hx, ?_, (retire_mem _ 8 1).trans hu.mem, ?_, ?_, congrArg Ctx.bars hfg, congrArg Ctx.baraTo hfg⟩
      · rw [pc_retire hcur, pc_core hcur, fg_joinBar, pc_core hc]
        rfl
      · rwa [retire_sch]
      · rwa [retire_sch]
    · rw [exec_barx hc hk, show (s.fg n).barRec k = none from hrec]
      simp only [State.doneQ]
    · have hcur : (s.setFg n (c.dropRec k)).cur = .core n := hc
      have hx : exec (.barx f) s = .next ((s.setFg n (c.dropRec k)).doneQ f 1 2) := by
        rw [exec_barx hc hk, show (s.fg n).barRec k = some r from hrec]
        exact congrArg _ (if_pos hans)
      obtain ⟨hfg, hpc, hmem, -, hval⟩ := doneQ_core hcur f 1 2
      rw [pc_core hcur, fg_setFg_self] at hpc
      rw [fg_setFg_self] at hfg
      refine ⟨_, hx, ?_, hmem, ?_, hval⟩
      · rw [hpc, pc_core hc]
        rfl
      · rw [hfg]
        exact barRec_dropRec c k
    · have hkey : r.key = k := key_of_barRec hrec
      have hu := barSends_leaveBar (s := s) (n := n) (k := k) (rd := f.d) r
      have hcur := hu.cur.trans hc
      have hfg := fg_retire hcur 8 1
      have hx : exec (.barx f) s = .next ((s.leaveBar n k r f.d).retire 8 1) := by
        simp only [exec_barx hc hk, show (s.fg n).barRec k = some r from hrec, hans, Option.isSome_none,
          Bool.false_eq_true, if_false]
      rw [fg_leaveBar] at hfg
      refine ⟨_, hx, ?_, (retire_mem _ 8 1).trans hu.mem, ?_, congrArg Ctx.baraTo hfg, ?_, ?_⟩
      · rw [pc_retire hcur, pc_core hcur, fg_leaveBar, pc_core hc, pc_leaving]
        rfl
      · rw [hfg, ← hkey]
        exact barRec_setRec c { r with withdrawn := true }
      · rw [retire_sch, ← hkey]
        exact barWdr_leaveBar_here
      · rw [retire_sch, ← hkey]
        exact barWdr_leaveBar_far

end Sys2Proof.Machine
end

section
/-! SUPPORT. A barrier's home: an arrival, a withdrawal, and a task's reply, each by its cases. -/

namespace Sys2Proof.Machine

/-! ## The records of a home (R205, R482) -/

theorem key_bar (s : State) (k : BarKey) : (s.bar k).key = k := by
  cases hf : s.sch.bars.find? (fun b => decide (b.key = k)) with
  | none => rw [State.bar, hf]; rfl
  | some b =>
    rw [State.bar, hf]
    simpa using List.find?_some hf

theorem bar_setBar_self (s : State) (b : Bar) : (s.setBar b).bar b.key = b := by
  simp [State.bar, State.setBar]

/-! ## An arrival (R207) -/

/-- An arrival has no count, or another than its open phase. -/
def State.barClash (s : State) (a : BarArr) : Prop :=
  a.n = 0 ∨ ((s.bar a.key).n ≠ none ∧ (s.bar a.key).n ≠ some a.n.toNat)

/-- An arrival would open a phase, and its home has no free record. -/
def State.barFull (s : State) (a : BarArr) : Prop :=
  (s.bar a.key).n = none ∧ poolSize a.key.scope ≤ s.poolUsed a.key

/-- The barrier that an arrival has joined. -/
def State.barJoined (s : State) (a : BarArr) : Bar :=
  { s.bar a.key with n := some a.n.toNat, who := (s.bar a.key).who ++ [a.core] }

section
variable {s : State} {a : BarArr}

theorem arrive_mismatch (h : s.barClash a) : s.arrive a = s.barAnswer a.key a.core .mismatch := by
  rw [State.barClash, ← Option.isSome_iff_ne_none] at h
  exact if_pos h

theorem arrive_known (h : ¬s.barClash a) : s.arrive a =
    if (s.bar a.key).n = none ∧ poolSize a.key.scope ≤ s.poolUsed a.key then
      if a.wait then { s with sch := { s.sch with barArr := s.sch.barArr ++ [{ a with due := s.now + 1 }] } }
      else s.barAnswer a.key a.core .noRecord
    else
      let b := s.barJoined a
      let t := (s.setBar b).barAnswer a.key a.core (.joined (s.bar a.key).phase)
      if b.who.length = a.n.toNat then t.closePhase b .completed (fun _ => false) else t := by
  rw [State.barClash, ← Option.isSome_iff_ne_none] at h
  exact if_neg h

theorem arrive_full (h : ¬s.barClash a) (hf : s.barFull a) : s.arrive a =
    if a.wait then { s with sch := { s.sch with barArr := s.sch.barArr ++ [{ a with due := s.now + 1 }] } }
    else s.barAnswer a.key a.core .noRecord := (arrive_known h).trans (if_pos hf)

theorem arrive_joins (h : ¬s.barClash a) (hf : ¬s.barFull a) (hn : (s.bar a.key).who.length + 1 ≠ a.n.toNat) :
    s.arrive a = (s.setBar (s.barJoined a)).barAnswer a.key a.core (.joined (s.bar a.key).phase) :=
  ((arrive_known h).trans (if_neg hf)).trans (if_neg (by simpa [State.barJoined] using hn))

theorem arrive_completes (h : ¬s.barClash a) (hf : ¬s.barFull a) (hn : (s.bar a.key).who.length + 1 = a.n.toNat) :
    s.arrive a = ((s.setBar (s.barJoined a)).barAnswer a.key a.core (.joined (s.bar a.key).phase)).closePhase
      (s.barJoined a) .completed (fun _ => false) :=
  ((arrive_known h).trans (if_neg hf)).trans (if_pos (by simpa [State.barJoined] using hn))

end

/-- A closed phase is followed by the next, with no count and no arrival (R205). -/
theorem bar_closePhase (s : State) (b : Bar) (a : BitVec 16 → BarAns) (except : Nat → Bool) :
    (s.closePhase b a except).bar b.key = { b with phase := b.phase + 1, n := none, who := [] } := by
  rw [State.closePhase, (State.barSends.foldl (fun s t => barSends_barAnswer s b.key t (a b.phase)) _ _).bar]
  exact bar_setBar_self s { b with phase := b.phase + 1, n := none, who := [] }

theorem exec_arrival {s : State} {a : BarArr} (ha : a ∈ s.sch.barArr) (hr : s.rs a.key.job = 0)
    (hn : s.barNext a.key a.due false = true) : exec (.barrierArrivalAtHome a) s =
      .next (({ s with sch := { s.sch with barArr := s.sch.barArr.erase a } } : State).arrive a) :=
  congrArg Host.Outcome.next (if_pos (by simp [State.homesRun, hr, ha, hn]))

/-! ## A withdrawal (R212) -/

theorem exec_withdrawal {s : State} {w : BarWdr} (hw : w ∈ s.sch.barWdr) (hr : s.rs w.key.job = 0)
    (hn : s.barNext w.key w.due true = true) : exec (.barrierWithdrawalAtHome w) s =
      .next (({ s with sch := { s.sch with barWdr := s.sch.barWdr.erase w } } : State).withdraw w) :=
  congrArg Host.Outcome.next (if_pos (by simp [State.homesRun, hr, hw, hn]))

/-- A withdrawal does not come before an arrival that has reached the home by its cycle. -/
theorem barNext_behind {s : State} {k : BarKey} {due : Nat} {a : BarArr} (ha : a ∈ s.sch.barArr) (hk : a.key = k)
    (hd : a.due ≤ due) : s.barNext k due true = false := by
  have hall : s.sch.barArr.all (fun a => decide (a.key ≠ k) || decide (due < a.due) ||
      (!true && decide (due = a.due))) = false :=
    List.all_eq_false.2 ⟨a, ha, by simp [hk, hd]⟩
  rw [State.barNext, hall, Bool.and_false, Bool.false_and, Bool.false_and]

section
variable {s : State} {w : BarWdr}

theorem withdraw_absent (h : w.core ∉ (s.bar w.key).who)
    (ha : ∀ a, a ∈ s.sch.barArr → ¬(a.key = w.key ∧ a.core = w.core)) : s.withdraw w = s := by
  have hfind : s.sch.barArr.find? (fun a => decide (a.key = w.key ∧ a.core = w.core)) = none :=
    List.find?_eq_none.2 (fun a m => by simpa using ha a m)
  unfold State.withdraw
  rw [if_neg (by simpa using h), hfind]

theorem withdraw_joined (h : w.core ∈ (s.bar w.key).who) : s.withdraw w =
    if w.known ∧ w.phase ≠ (s.bar w.key).phase then s
    else
      (s.setBar { s.bar w.key with
        who := (s.bar w.key).who.erase w.core
        n := if ((s.bar w.key).who.erase w.core).isEmpty then none else (s.bar w.key).n
        wdAt := s.now + 1 }).barAnswer w.key w.core .withdrawn :=
  if_pos (by simpa using h)

end

/-! ## A reply (R208, R210) -/

/-- What the end of a `BAR` or `BARW` makes of its task's record and of `xd`. -/
def Ctx.endBar (c : Ctx) (k : BarKey) (rd : BitVec 5) : Option (BitVec 16) → Ctx
  | some ph => (c.dropRec k).setX rd (wOf ph.toNat)
  | none => c.dropRec k

theorem barRec_endBar (c : Ctx) (k : BarKey) (rd : BitVec 5) (ph : Option (BitVec 16)) :
    (c.endBar k rd ph).barRec k = none := by cases ph <;> exact barRec_dropRec c k

theorem x_endBar (c : Ctx) (k : BarKey) (rd : BitVec 5) (ph : BitVec 16) :
    (c.endBar k rd (some ph)).x rd = if rd = 0 then 0 else wOf ph.toNat :=
  (x_setX _ _ _ _).trans (by rw [if_pos rfl])

/-- The state in which a reply has been noted and the record that was waited for has ended. -/
def State.barEnded (s : State) (n : Nat) (k : BarKey) (a : BarAns) (rd : BitVec 5) (ph : Option (BitVec 16)) : State :=
  (s.modFg n (fun c => c.barNote k a)).modFg n (fun c => c.endBar k rd ph)

section
variable {s : State} {n : Nat} {k : BarKey} {a : BarAns} {f : FmtD} {w : Wait}

theorem fg_barEnded {rd : BitVec 5} {ph : Option (BitVec 16)} :
    (s.barEnded n k a rd ph).fg n = ((s.fg n).barNote k a).endBar k rd ph := by
  rw [State.barEnded, fg_modFg_self, fg_modFg_self]

theorem barWaits_eq (hw : (s.fg n).wait = some w) (hi : w.instr = .bar f ∨ w.instr = .barw f)
    (hk : s.barKey n (f.aux.toNat % 16) w.a = k) : s.barWaits n k = some (f, w) := by
  rcases hi with hi | hi <;> simp [State.barWaits, hw, hi, hk]

/-- A reply that ends what waits for it, on a record that is not being withdrawn. -/
theorem barReplyCore_ends {code : Nat} {ph : Option (BitVec 16)} (hw : s.barWaits n k = some (f, w))
    (hr : ∀ x, (s.fg n).barRec k = some x → x.withdrawn = false) (he : barEnd false a = some (code, ph)) :
    s.barReplyCore n k a = (s.barEnded n k a f.d ph).finishDk n 0 f.st f.x w.pc code 0 := by
  have hwd : (((s.fg n).barRec k).map (fun r => r.withdrawn)).getD false = false := by
    cases hx : (s.fg n).barRec k with
    | none => rfl
    | some x => exact hr x hx
  unfold State.barReplyCore
  simp only [hwd, hw, he]
  cases ph <;> rfl

end

theorem exec_reply {s : State} {r : BarReply} {n : Nat}
    (hfirst : s.sch.barAns.find? (fun x => decide (x.key = r.key ∧ x.core = r.core)) = some r)
    (hcore : s.coreOf r.key.job r.core = some n) (hst : (s.fg n).stop = none)
    (hdue : r.due + (s.fg n).barLag r.key r.ans ≤ s.now) : exec (.barrierReply r) s =
      .next (({ s with sch := { s.sch with barAns := s.sch.barAns.erase r } } : State).barReplyCore n r.key r.ans) := by
  show execBarrierReply r s = _
  unfold execBarrierReply
  simp only [hfirst, hcore, hst]
  rw [if_neg (by simp), if_neg (by simpa using hdue)]

/-- Settles O31: an arrival by what its home's record says, a withdrawal by whether it has joined, and a reply by its
answer. -/
theorem barrierHomesDecide : Obligations.BarrierHomesDecide := by
  unfold Obligations.BarrierHomesDecide
  refine ⟨?_, ?_, ?_, ?_⟩
  · intro s a ha hr hn b u clash full joined
    have hx : exec (.barrierArrivalAtHome a) s = .next (u.arrive a) := exec_arrival ha hr hn
    rw [hx]
    refine ⟨fun hc => ?_, fun hc hf hw => ?_, fun hc hf hw => ?_, fun hc hf hl => ?_, fun hc hf hl => ?_⟩
    · exact congrArg _ (arrive_mismatch hc)
    · exact congrArg _ ((arrive_full (s := u) hc hf).trans (if_neg (ne_true_of_eq_false hw)))
    · exact congrArg _ ((arrive_full (s := u) hc hf).trans (if_pos hw))
    · exact congrArg _ (arrive_joins hc hf hl)
    · have hkey : (u.barJoined a).key = a.key := key_bar s a.key
      have hbar := hkey ▸ bar_closePhase
        ((u.setBar (u.barJoined a)).barAnswer a.key a.core (.joined (u.bar a.key).phase)) (u.barJoined a) .completed
        (fun _ => false)
      refine ⟨_, congrArg _ (arrive_completes hc hf hl), ?_⟩
      rw [hbar]
      exact ⟨rfl, rfl, rfl⟩
  · intro s w a _ ha hk hd
    exact congrArg Host.Outcome.next (if_neg (by simp [barNext_behind ha hk hd]))
  · intro s w hw hr hn u b left b' stale
    have hx : exec (.barrierWithdrawalAtHome w) s = .next (u.withdraw w) := exec_withdrawal hw hr hn
    rw [hx]
    exact ⟨fun hout hnone => congrArg _ (withdraw_absent hout hnone),
      fun hin hstale => congrArg _ ((withdraw_joined (s := u) hin).trans (if_pos hstale)),
      fun hin hfresh => congrArg _ ((withdraw_joined (s := u) hin).trans (if_neg hfresh))⟩
  · intro s r n f w ph hfirst hcore hst hwait hdue hkept hinstr hkey
    let u : State := { s with sch := { s.sch with barAns := s.sch.barAns.erase r } }
    have ends {code : Nat} {p : Option (BitVec 16)} (he : barEnd false r.ans = some (code, p)) :
        exec (.barrierReply r) s = .next ((u.barEnded n r.key r.ans f.d p).finishDk n 0 f.st f.x w.pc code 0) := by
      rw [exec_reply hfirst hcore hst hdue]
      exact congrArg _ (barReplyCore_ends (s := u) (barWaits_eq (s := u) hwait hinstr hkey) hkept he)
    have forgotten (p : Option (BitVec 16)) : ((u.barEnded n r.key r.ans f.d p).fg n).barRec r.key = none := by
      rw [fg_barEnded]
      exact barRec_endBar ..
    have written : ((u.barEnded n r.key r.ans f.d (some ph)).fg n).x f.d = if f.d = 0 then 0 else wOf ph.toNat := by
      rw [fg_barEnded]
      exact x_endBar ..
    exact ⟨fun ha => ⟨_, ends (by rw [ha]; rfl), written, forgotten _⟩,
      fun ha => ⟨_, ends (by rw [ha]; rfl), written, forgotten _⟩,
      fun ha => ⟨_, ends (by rw [ha]; rfl), forgotten _⟩, fun ha => ⟨_, ends (by rw [ha]; rfl), forgotten _⟩⟩

end Sys2Proof.Machine
end

section
/-! SUPPORT. Task control: where a descriptor is read, the queues of launches, the drain at a task's end, the tasks
that have yielded, and the slots of named tasks. -/

namespace Sys2Proof.Machine

/-! ## Where a descriptor is read (R200) -/

/-- The descriptor at an offset of core n's scratchpad can be read. -/
def State.descReadable (s : State) (n : Nat) (a : Word) : Prop :=
  a.toNat < 2 ^ 19 ∧ a.toNat % 64 = 0 ∧ s.leasedAt n a.toNat 64 = none ∧ s.spadPoison n a.toNat 64 = false

/-- The number that a descriptor's bytes make. -/
def State.descNum (s : State) (n : Nat) (a : Word) : Nat := memNat s.mem (spadKey n a.toNat) 64

section
variable {s : State} {n : Nat} {a : Word} {f : Nat → State}

theorem descAt_outside (h : 2 ^ 19 ≤ a.toNat) : s.descAt n a f = s.trapHere 0x10 a :=
  if_pos (by omega)

theorem descAt_misaligned (h : a.toNat < 2 ^ 19) (ha : a.toNat % 64 ≠ 0) : s.descAt n a f = s.trapHere 0x0F a :=
  (if_neg (by omega)).trans (if_pos ha)

theorem descAt_readable (h : s.descReadable n a) : s.descAt n a f = f (s.descNum n a) := by
  obtain ⟨hr, ha, hl, hp⟩ := h
  rw [State.descAt, if_neg (by omega), if_neg (not_not_intro ha), hl]
  exact if_neg (ne_true_of_eq_false hp)

end

/-! ## Launches (R200, R481) -/

/-- The state whose free value, where one was needed, has been taken for a launch number. -/
def State.numbered (s : State) (job : Nat) : State := if (s.spanPkgs job 7).length = 1 then s else s.nextFree.2

/-- The launch that a scheduler makes of a descriptor. -/
def State.newLaunch (s : State) (job grp : Nat) (d : Desc) : Launch :=
  { job := job, num := s.launchNum job, desc := d, grp := grp, rdy := (s.numbered job).now }

/-- The state in which a launch is live, and its job's count has risen. -/
def State.enlisted (s : State) (job grp : Nat) (d : Desc) : State :=
  let u := (s.numbered job).setJob job { (s.numbered job).job job with launches := (s.launchNum job + 1) % 2 ^ 32 }
  { u with sch := { u.sch with launches := u.sch.launches ++ [s.newLaunch job grp d] } }

/-- The launch stands in the queue of a leaf controller. -/
def State.leafQueued (s : State) (job grp : Nat) (d : Desc) : State :=
  let e := s.enlisted job grp d
  { e with sch := { e.sch with
    leafQ := tset [] e.sch.leafQ grp ((s.numbered job).leafQ grp ++ [(job, s.launchNum job)]) } }

/-- The launch stands in the queue of the global scheduler. -/
def State.globQueued (s : State) (job grp : Nat) (d : Desc) : State :=
  let e := s.enlisted job grp d
  { e with sch := { e.sch with globQ := e.sch.globQ ++ [(job, s.launchNum job)] } }

section
variable (s : State) (job grp : Nat) (d : Desc)

theorem sends_numbered : s.sends (s.numbered job) := by
  unfold State.numbered
  split
  · exact .refl s
  · exact ⟨rfl⟩

theorem leafQ_numbered : (s.numbered job).leafQ grp = s.leafQ grp := by
  rw [State.leafQ, (sends_numbered s job).sch]
  rfl

theorem accept_leaf (h : d.span = 3) : s.accept job grp d =
    if 64 ≤ (s.leafQ grp).length then none else some (s.launchNum job, s.leafQueued job grp d) := by
  rw [← leafQ_numbered s job grp]
  exact if_pos h

theorem accept_glob (h : d.span ≠ 3) : s.accept job grp d =
    if 256 ≤ s.sch.globQ.length then none else some (s.launchNum job, s.globQueued job grp d) := by
  rw [← (sends_numbered s job).sch]
  exact if_neg h

theorem mem_enlisted : (s.enlisted job grp d).mem = s.mem := by
  simp only [State.enlisted, setJob_mem, (sends_numbered s job).mem]

theorem launches_enlisted : (s.enlisted job grp d).sch.launches = s.sch.launches ++ [s.newLaunch job grp d] := by
  simp only [State.enlisted, setJob_sch, (sends_numbered s job).sch]

theorem mem_leafQueued : (s.leafQueued job grp d).mem = s.mem := by
  simp only [State.leafQueued, mem_enlisted]

theorem mem_globQueued : (s.globQueued job grp d).mem = s.mem := by
  simp only [State.globQueued, mem_enlisted]

theorem launches_leafQueued : (s.leafQueued job grp d).sch.launches = s.sch.launches ++ [s.newLaunch job grp d] := by
  simp only [State.leafQueued, launches_enlisted]

theorem launches_globQueued : (s.globQueued job grp d).sch.launches = s.sch.launches ++ [s.newLaunch job grp d] := by
  simp only [State.globQueued, launches_enlisted]

theorem leafQ_leafQueued : (s.leafQueued job grp d).leafQ grp = s.leafQ grp ++ [(job, s.launchNum job)] := by
  rw [← leafQ_numbered s job grp]
  exact tget_tset_self _ _ _ _

theorem globQ_globQueued : (s.globQueued job grp d).sch.globQ = s.sch.globQ ++ [(job, s.launchNum job)] :=
  (congrArg (fun c : Sched => c.globQ ++ [(job, s.launchNum job)]) (sends_numbered s job).sch :)

end

/-- The wait of a `TLAUNCH` holds the descriptor as it was read at issue. -/
def State.launchWait (s : State) (n : Nat) (f : FmtD) : Wait :=
  { s.waitOf f (.tlaunch f) with bytes := leBytes 64 (s.descNum n (s.xr f.a)) }

section
variable {s : State} {n : Nat} (h : s.cur = .core n)
include h

theorem exec_tlaunch (f : FmtD) : exec (.tlaunch f) s = .next (s.descAt n (s.xr f.a) (fun raw =>
    match s.descCheck raw (s.issuer n (descOf raw).span) with
    | some c => s.finishDk n 4 f.st f.x s.pc 4 c
    | none => s.beginWait n { s.waitOf f (.tlaunch f) with bytes := leBytes 64 raw } (tlaunchTest f) (lateD f))) :=
  congrArg Host.Outcome.next (onCore_core h _ _)

theorem exec_tlaunch_refused {f : FmtD} {k : Nat} (ha : s.descReadable n (s.xr f.a))
    (hc : s.descCheck (s.descNum n (s.xr f.a)) (s.issuer n (descOf (s.descNum n (s.xr f.a))).span) = some k) :
    exec (.tlaunch f) s = .next (s.finishDk n 4 f.st f.x s.pc 4 k) := by
  rw [exec_tlaunch h, descAt_readable ha, hc]

end

theorem issuer_grp_leaf (s : State) (n : Nat) {span : Nat} (h : span = 3) : (s.issuer n span).grp = n / 256 := if_pos h

/-- The bytes that a waiting launch holds are those of its descriptor. -/
theorem bytes_launchWait (s : State) (n : Nat) (f : FmtD) :
    leNat (s.launchWait n f).bytes = s.descNum n (s.xr f.a) :=
  (leNat_leBytes 64 _).trans (Nat.mod_eq_of_lt (memNat_lt _ _ 64))

/-- The state in which a launch has been accepted and its number written. -/
def State.numberTold (s : State) (n : Nat) (rd : BitVec 5) (num : Nat) : State :=
  s.modFg n (fun c => c.setX rd (wOf num))

theorem x_numberTold (s : State) (n : Nat) (rd : BitVec 5) (num : Nat) :
    ((s.numberTold n rd num).fg n).x rd = if rd = 0 then 0 else wOf num := by
  rw [State.numberTold, fg_modFg_self, x_setX, if_pos rfl]

theorem numberTold_mem (s : State) (n : Nat) (rd : BitVec 5) (num : Nat) : (s.numberTold n rd num).mem = s.mem :=
  modFg_mem s n _
theorem numberTold_sch (s : State) (n : Nat) (rd : BitVec 5) (num : Nat) : (s.numberTold n rd num).sch = s.sch :=
  modFg_sch s n _
theorem numberTold_leafQ (s : State) (n : Nat) (rd : BitVec 5) (num cl : Nat) :
    (s.numberTold n rd num).leafQ cl = s.leafQ cl := by
  rw [State.leafQ, numberTold_sch, ← State.leafQ]

section
variable {s : State} {n : Nat} {f : FmtD} {d : Desc} (hd : descOf (s.descNum n (s.xr f.a)) = d)
include hd

/-- A launch that the scheduler accepts at the first test completes there. -/
theorem tlaunchTest_accepted {num : Nat} {t : State}
    (h : s.accept (s.fg n).ident.job (s.issuer n d.span).grp d = some (num, t)) :
    tlaunchTest f s n (s.launchWait n f) = some ((t.numberTold n f.d num).finishDk n 4 f.st f.x s.pc 0 0) := by
  unfold tlaunchTest
  simp only [bytes_launchWait, hd, show (s.issuer n d.span).job = (s.fg n).ident.job from rfl, h]
  rfl

theorem tlaunchTest_waits (h : s.accept (s.fg n).ident.job (s.issuer n d.span).grp d = none) :
    tlaunchTest f s n (s.launchWait n f) = none := by
  unfold tlaunchTest
  simp only [bytes_launchWait, hd, show (s.issuer n d.span).job = (s.fg n).ident.job from rfl, h]

end

section
variable {s : State} {n : Nat} {f : FmtD} {d : Desc} (h : s.cur = .core n) (ha : s.descReadable n (s.xr f.a))
  (hd : descOf (s.descNum n (s.xr f.a)) = d) (hc : s.descCheck (s.descNum n (s.xr f.a)) (s.issuer n d.span) = none)
include h ha hd hc

theorem exec_tlaunch_valid : exec (.tlaunch f) s =
    .next (s.beginWait n (s.launchWait n f) (tlaunchTest f) (lateD f)) := by
  subst hd
  rw [exec_tlaunch h, descAt_readable ha, hc]
  rfl

/-- A launch that the scheduler accepts completes with its number (R200). -/
theorem exec_tlaunch_accepted {num : Nat} {t : State}
    (hacc : s.accept (s.fg n).ident.job (s.issuer n d.span).grp d = some (num, t)) :
    exec (.tlaunch f) s = .next ((t.numberTold n f.d num).finishDk n 4 f.st f.x s.pc 0 0) := by
  rw [exec_tlaunch_valid h ha hd hc, beginWait_now _ (tlaunchTest_accepted hd hacc)]

/-- A launch of a cluster goes to the cluster's leaf controller (R200). -/
theorem tlaunch_leaf (hspan : d.span = 3) (hroom : (s.leafQ (n / 256)).length < 64) :
    let t := (s.leafQueued (s.fg n).ident.job (n / 256) d).numberTold n f.d (s.launchNum (s.fg n).ident.job)
    exec (.tlaunch f) s = .next (t.finishDk n 4 f.st f.x s.pc 0 0) ∧
      (t.fg n).x f.d = (if f.d = 0 then 0 else wOf (s.launchNum (s.fg n).ident.job)) ∧
      t.leafQ (n / 256) = s.leafQ (n / 256) ++ [((s.fg n).ident.job, s.launchNum (s.fg n).ident.job)] ∧
      t.mem = s.mem ∧ t.sch.launches = s.sch.launches ++ [s.newLaunch (s.fg n).ident.job (n / 256) d] := by
  intro t
  refine ⟨exec_tlaunch_accepted h ha hd hc ?_, x_numberTold .., ?_, ?_, ?_⟩
  · rw [issuer_grp_leaf s n hspan, accept_leaf _ _ _ _ hspan, if_neg (Nat.not_le.2 hroom)]
  · rw [numberTold_leafQ, leafQ_leafQueued]
  · rw [numberTold_mem, mem_leafQueued]
  · rw [numberTold_sch, launches_leafQueued]

/-- A wider launch goes to the global scheduler (R200). -/
theorem tlaunch_glob (hspan : d.span ≠ 3) (hroom : s.sch.globQ.length < 256) :
    let t := (s.globQueued (s.fg n).ident.job (s.issuer n d.span).grp d).numberTold n f.d
      (s.launchNum (s.fg n).ident.job)
    exec (.tlaunch f) s = .next (t.finishDk n 4 f.st f.x s.pc 0 0) ∧
      (t.fg n).x f.d = (if f.d = 0 then 0 else wOf (s.launchNum (s.fg n).ident.job)) ∧
      t.sch.globQ = s.sch.globQ ++ [((s.fg n).ident.job, s.launchNum (s.fg n).ident.job)] ∧
      t.mem = s.mem ∧
      t.sch.launches = s.sch.launches ++ [s.newLaunch (s.fg n).ident.job (s.issuer n d.span).grp d] := by
  intro t
  refine ⟨exec_tlaunch_accepted h ha hd hc ?_, x_numberTold .., ?_, ?_, ?_⟩
  · rw [accept_glob _ _ _ _ hspan, if_neg (Nat.not_le.2 hroom)]
  · rw [numberTold_sch, globQ_globQueued]
  · rw [numberTold_mem, mem_globQueued]
  · rw [numberTold_sch, launches_globQueued]

/-- A launch that finds its queue full waits (R200). -/
theorem tlaunch_waits (hfull : d.span = 3 ∧ 64 ≤ (s.leafQ (n / 256)).length ∨ d.span ≠ 3 ∧ 256 ≤ s.sch.globQ.length)
    (hst : (s.core n).stepping = none) (hdl : s.agentTime.toNat ≤ (deadlineAt s.agentTime (s.xr f.dl)).toNat) :
    exec (.tlaunch f) s = .next (s.setWait (s.launchWait n f)) := by
  have hacc : s.accept (s.fg n).ident.job (s.issuer n d.span).grp d = none := by
    rcases hfull with ⟨hspan, hq⟩ | ⟨hspan, hq⟩
    · rw [issuer_grp_leaf s n hspan, accept_leaf _ _ _ _ hspan, if_pos hq]
    · rw [accept_glob _ _ _ _ hspan, if_pos hq]
  rw [exec_tlaunch_valid h ha hd hc, beginWait_setWait _ (tlaunchTest_waits hd hacc) h hst hdl]

end

/-! ## The end of a task (R201) -/

theorem leaveRing_noRing (g : Engine) : g.leaveRing.st ≠ .ring := by
  unfold Engine.leaveRing
  split
  · nofun
  · nofun

theorem settle_noRing {g : Engine} (aw : Bool) (h : g.st ≠ .ring) : (g.settle aw).st ≠ .ring := by
  unfold Engine.settle
  split
  · nofun
  · exact h

theorem eng_leaveRings (c : Ctx) (e : Eng) : c.leaveRings.eng e =
    if (c.eng e).st = .ring then (c.eng e).leaveRing.settle (c.awaits e) else c.eng e := by cases e <;> rfl

theorem leaveRings_noRing (c : Ctx) (e : Eng) : (c.leaveRings.eng e).st ≠ .ring := by
  rw [eng_leaveRings]
  split
  · exact settle_noRing _ (leaveRing_noRing _)
  · assumption

theorem exec_texit {s : State} {n : Nat} (h : s.cur = .core n) (f : FmtQ) :
    exec (.texit f) s = .next ((s.modFg n (fun c => { c.leaveRings with exiting := true })).tick 1) :=
  congrArg Host.Outcome.next (onCore_core h _ _)

/-- The records that a task's end still withdraws. -/
def Ctx.unanswered (c : Ctx) : List BarRec := c.bars.filter (fun r => r.ans.isNone)

section
variable {s : State} {n : Nat}

/-- The context of core n with its unanswered records withdrawn. -/
def Ctx.allLeaving (c : Ctx) : Ctx :=
  { c with bars := c.unanswered.map (fun (r : BarRec) => { r with withdrawn := true }) }

theorem barSends_withdrawAll : (s.setFg n (s.fg n).allLeaving).barSends (s.withdrawAll n) :=
  State.barSends.foldl (fun u r => barSends_sendWithdrawal u _ r) _ _

theorem core_withdrawAll : (s.withdrawAll n).core n = { s.core n with fg := (s.fg n).allLeaving } :=
  (barSends_withdrawAll.core n).trans (core_setFg_self s n _)

theorem endTask_core : (s.endTask n).core n = { (s.taskEnds n (s.fg n)).core n with busy := false, fg := {} } :=
  core_setCore_self _ n _

theorem exec_taskEnd (hx : (s.fg n).exiting = true) (hs : (s.fg n).stop = none) (hd : s.drained n = true)
    (he : ∀ e, ((s.fg n).eng e).st ≠ .stopped) : exec (.taskEnd n) s = .next (
      if ((s.withdrawAll n).fg n).bars.isEmpty then (s.withdrawAll n).endTask n else s.withdrawAll n) := by
  have hall : engines.all (fun e => decide (((s.fg n).eng e).st ≠ .stopped)) = true :=
    List.all_eq_true.2 (fun e _ => decide_eq_true (he e))
  exact congrArg Host.Outcome.next (if_pos (by rw [hx, hs, hd, hall]; rfl))

end

/-! ## TYIELD (R202) -/

/-- A ready task of core n's cluster, of its job, has at least its priority. -/
def State.yieldsTo (s : State) (n : Nat) : Bool :=
  (s.readyTasks (n / 256)).any (fun t => decide (t.job = (s.fg n).ident.job ∧ (s.fg n).ident.desc.prio ≤ t.prio))

/-- What is kept of a task that has yielded. -/
def State.yieldedOf (s : State) (n : Nat) (rd : BitVec 5) : Yielded :=
  { cl := n / 256, rdy := s.now, rd := rd, ctx := { s.markDc (s.fg n) with pc := (s.fg n).pc + 8 }
    pad := s.padKept n (s.fg n).dirty, pz := s.padPz n (s.fg n).dirty }

/-- Core n is free, and its task is kept among the yielded ones. -/
def State.yieldsCore (s : State) (n : Nat) (rd : BitVec 5) : State :=
  { s.setCore n { s.core n with busy := false, fg := {} } with
    sch := { s.sch with yielded := s.sch.yielded ++ [s.yieldedOf n rd] } }

theorem exec_tyield {s : State} {n : Nat} (h : s.cur = .core n) (f : FmtQ) : exec (.tyield f) s = .next (
    if (s.fg n).atRest && s.yieldsTo n then (s.yieldsCore n f.d).tick 2 else s.doneQ f 0 2) :=
  congrArg Host.Outcome.next (onCore_core h _ _)

/-! ## TARM (R203, R204) -/

theorem slot_setSlot_self (s : State) (cl k : Nat) (v : NSlot) : (s.setSlot cl k v).slot cl k = v :=
  tget_tset_self _ _ _ _

theorem arm_armed {v : NSlot} {cnt : Nat} (h : v.pend < cnt) (now job : Nat) (d : Desc) :
    v.arm cnt now job d = { v with desc := d, job := job, cnt := cnt - v.pend, pend := 0, st := .armed } := if_pos h

theorem arm_ready {v : NSlot} {cnt : Nat} (h : cnt ≤ v.pend) (now job : Nat) (d : Desc) :
    v.arm cnt now job d = { v with desc := d, job := job, cnt := 0, pend := v.pend - cnt, st := .ready, rdy := now } :=
  if_neg (Nat.not_lt.2 h)

theorem desc_arm (v : NSlot) (cnt now job : Nat) (d : Desc) : (v.arm cnt now job d).desc = d := by
  rcases Nat.lt_or_ge v.pend cnt with hlt | hge
  · rw [arm_armed hlt]
  · rw [arm_ready hge]

section
variable {s : State} {n : Nat} {f : FmtQ} (h : s.cur = .core n) (ha : s.descReadable n (s.xr f.a))
include h ha

theorem exec_tarm : exec (.tarm f) s = .next (
    if wfld (s.xr f.b) 26 16 ≠ s.pkgid ∨ wfld (s.xr f.b) 15 12 ≠ n / 256 then s.doneQ f 3 6
    else if (s.slot (n / 256) (wfld (s.xr f.b) 11 0)).st ≠ .free then s.doneQ f 2 6
    else
      match s.descCheck (s.descNum n (s.xr f.a))
        { s.issuer n (descOf (s.descNum n (s.xr f.a))).span with one := true } with
      | some c => s.doneQ f (wOf (4 + c)) 6
      | none =>
        let v := (s.slot (n / 256) (wfld (s.xr f.b) 11 0)).arm (wfld (s.xr f.b) 47 32) s.now (s.fg n).ident.job
          (descOf (s.descNum n (s.xr f.a)))
        (s.setSlot (n / 256) (wfld (s.xr f.b) 11 0) v).doneQ f (if v.st = .ready then 1 else 0) 6) :=
  congrArg Host.Outcome.next ((onCore_core h _ _).trans (descAt_readable ha))

theorem tarm_foreign (hh : ¬(wfld (s.xr f.b) 26 16 = s.pkgid ∧ wfld (s.xr f.b) 15 12 = n / 256)) :
    exec (.tarm f) s = .next (s.doneQ f 3 6) :=
  (exec_tarm h ha).trans (congrArg _ (if_pos (not_and_or.1 hh)))

variable (hh : wfld (s.xr f.b) 26 16 = s.pkgid ∧ wfld (s.xr f.b) 15 12 = n / 256)
include hh

theorem exec_tarm_own : exec (.tarm f) s = .next (
    if (s.slot (n / 256) (wfld (s.xr f.b) 11 0)).st ≠ .free then s.doneQ f 2 6
    else
      match s.descCheck (s.descNum n (s.xr f.a))
        { s.issuer n (descOf (s.descNum n (s.xr f.a))).span with one := true } with
      | some c => s.doneQ f (wOf (4 + c)) 6
      | none =>
        let v := (s.slot (n / 256) (wfld (s.xr f.b) 11 0)).arm (wfld (s.xr f.b) 47 32) s.now (s.fg n).ident.job
          (descOf (s.descNum n (s.xr f.a)))
        (s.setSlot (n / 256) (wfld (s.xr f.b) 11 0) v).doneQ f (if v.st = .ready then 1 else 0) 6) := by
  obtain ⟨hpkg, hcl⟩ := hh
  exact (exec_tarm h ha).trans (congrArg _ (if_neg (not_or.2 ⟨not_not_intro hpkg, not_not_intro hcl⟩)))

theorem tarm_taken (hst : (s.slot (n / 256) (wfld (s.xr f.b) 11 0)).st ≠ .free) :
    exec (.tarm f) s = .next (s.doneQ f 2 6) := by
  rw [exec_tarm_own h ha hh, if_pos hst]

variable (hst : (s.slot (n / 256) (wfld (s.xr f.b) 11 0)).st = .free)
include hst

theorem tarm_bad {k : Nat} (hk : s.descCheck (s.descNum n (s.xr f.a))
    { s.issuer n (descOf (s.descNum n (s.xr f.a))).span with one := true } = some k) :
    exec (.tarm f) s = .next (s.doneQ f (wOf (4 + k)) 6) := by
  rw [exec_tarm_own h ha hh, if_neg (not_not_intro hst), hk]

theorem tarm_arms {v : NSlot} (hv : v = (s.slot (n / 256) (wfld (s.xr f.b) 11 0)).arm (wfld (s.xr f.b) 47 32) s.now
      (s.fg n).ident.job (descOf (s.descNum n (s.xr f.a))))
    (hk : s.descCheck (s.descNum n (s.xr f.a))
      { s.issuer n (descOf (s.descNum n (s.xr f.a))).span with one := true } = none) :
    exec (.tarm f) s = .next
      ((s.setSlot (n / 256) (wfld (s.xr f.b) 11 0) v).doneQ f (if v.st = .ready then 1 else 0) 6) := by
  rw [exec_tarm_own h ha hh, if_neg (not_not_intro hst), hk, hv]

end

/-- Settles O32: each instruction by the checks that it passes, and a task's end by its records. -/
theorem taskControl : Obligations.TaskControl := by
  unfold Obligations.TaskControl
  intro s n hc hst c
  refine ⟨?_, ?_, ?_, ?_, ?_, ?_⟩
  · intro f a raw d num waits
    refine ⟨fun ha => ?_, fun ha hm => ?_, fun hone => if_pos hone, fun ha hm hl hp => ⟨fun k hk => ?_, fun hk => ?_⟩⟩
    · rw [exec_tlaunch hc, descAt_outside ha]
    · rw [exec_tlaunch hc, descAt_misaligned ha hm]
    · exact exec_tlaunch_refused hc ⟨ha, hm, hl, hp⟩ hk
    · have hread : s.descReadable n (s.xr f.a) := ⟨ha, hm, hl, hp⟩
      refine ⟨fun hd hroom => ?_, fun hd hroom => ?_, fun hdl => ⟨fun hd hfull => ?_, fun hd hfull => ?_⟩⟩
      · obtain ⟨hx, hnum, hq, hmem, hlive⟩ := tlaunch_leaf (d := d) hc hread rfl hk hd hroom
        exact ⟨_, hx, hnum, hq, hmem, _, hlive, rfl, rfl, rfl⟩
      · obtain ⟨hx, hnum, hq, hmem, hlive⟩ := tlaunch_glob (d := d) hc hread rfl hk hd hroom
        exact ⟨_, hx, hnum, hq, hmem, _, hlive, rfl, rfl, rfl⟩
      · exact tlaunch_waits (d := d) hc hread rfl hk (.inl ⟨hd, hfull⟩) hst hdl
      · exact tlaunch_waits (d := d) hc hread rfl hk (.inr ⟨hd, hfull⟩) hst hdl
  · intro f
    refine ⟨_, exec_texit hc f, ?_, rfl, fun e => ?_⟩
    · rw [fg_tick, fg_modFg_self]
    · rw [fg_tick, fg_modFg_self]
      have he : Ctx.eng { c.leaveRings with exiting := true } e = c.leaveRings.eng e := by cases e <;> rfl
      rw [he]
      exact leaveRings_noRing c e
  · intro hx hs hd he
    have hcore := core_withdrawAll (s := s) (n := n)
    have hbars : ((s.withdrawAll n).fg n).bars = c.allLeaving.bars := congrArg (fun k : Core => k.fg.bars) hcore
    have hend := exec_taskEnd hx hs hd he
    rw [hbars] at hend
    refine ⟨fun hall => ?_, fun r hr hnone => ?_⟩
    · have hempty : c.allLeaving.bars = [] := by
        simpa [Ctx.allLeaving, Ctx.unanswered, ← Option.isSome_iff_ne_none] using hall
      rw [hempty] at hend
      have hcore' := endTask_core (s := s.withdrawAll n) (n := n)
      exact ⟨(s.withdrawAll n).endTask n, hend, congrArg Core.busy hcore', congrArg Core.fg hcore'⟩
    · have hmem : r ∈ c.unanswered := List.mem_filter.2 ⟨hr, by simp [hnone]⟩
      have hne : c.allLeaving.bars.isEmpty = false := by
        simpa [Ctx.allLeaving] using List.ne_nil_of_mem hmem
      rw [hne] at hend
      exact ⟨s.withdrawAll n, hend, (congrArg Core.busy hcore :), hbars⟩
  · intro f hno
    have hstays : (c.atRest && s.yieldsTo n) = false := by
      rcases hno with hbusy | hnone
      · rw [hbusy, Bool.false_and]
      · rw [State.yieldsTo, List.any_eq_false.2 (fun r hr => by simpa using hnone r hr), Bool.and_false]
    rw [exec_tyield hc, if_neg (ne_true_of_eq_false hstays)]
    rfl
  · intro f r hrest hr hjob hprio
    have hleaves : (c.atRest && s.yieldsTo n) = true := by
      rw [hrest, Bool.true_and]
      exact List.any_eq_true.2 ⟨r, hr, decide_eq_true ⟨hjob, hprio⟩⟩
    have hcore : ((s.yieldsCore n f.d).tick 2).core n = { s.core n with busy := false, fg := {} } :=
      core_setCore_self s n _
    refine ⟨_, s.yieldedOf n f.d, (exec_tyield hc f).trans (congrArg _ (if_pos hleaves)), congrArg Core.busy hcore,
      rfl, rfl, rfl, rfl, rfl, rfl, rfl⟩
  · intro f a b raw cl v cnt u here ha hm hl hp
    have hread : s.descReadable n (s.xr f.a) := ⟨ha, hm, hl, hp⟩
    have hslot : wfld (s.xr f.b) 11 0 = b % 2 ^ 12 := by simp [wfld, fld, b]
    refine ⟨fun hh => tarm_foreign hc hread hh, fun hh hst => tarm_taken hc hread hh (hslot ▸ hst),
      fun hh hfree k hk => tarm_bad hc hread hh (hslot ▸ hfree) hk, fun hh hfree hk => ?_⟩
    let w : NSlot := v.arm cnt s.now c.ident.job (descOf raw)
    have hcnt : wfld (s.xr f.b) 47 32 = cnt := by simp [wfld, fld, cnt, b]
    have hcur : (s.setSlot cl (b % 2 ^ 12) w).cur = .core n := hc
    have hx := tarm_arms hc hread hh (hslot ▸ hfree) (v := w) (by rw [hslot, hcnt]; rfl) hk
    rw [hslot] at hx
    obtain ⟨-, hpc, hmem, hsch, hval⟩ := doneQ_core hcur f (if w.st = .ready then 1 else 0) 6
    have hw : ((s.setSlot cl (b % 2 ^ 12) w).doneQ f (if w.st = .ready then 1 else 0) 6).slot cl (b % 2 ^ 12) = w := by
      rw [State.slot, hsch]
      exact slot_setSlot_self s cl _ w
    refine ⟨_, hx, hpc, hmem, fun hd => ?_, ?_, fun hlt => ?_, fun hge => ?_⟩
    · rw [hval hd]
      by_cases hlt : v.pend < cnt
      · rw [if_pos hlt, if_neg (by simp [w, arm_armed hlt])]
      · rw [if_neg hlt, if_pos (by simp [w, arm_ready (Nat.not_lt.1 hlt)])]
    · rw [hw]
      exact desc_arm ..
    · rw [hw, show w = _ from arm_armed hlt ..]
      exact ⟨rfl, rfl⟩
    · rw [hw, show w = _ from arm_ready hge ..]
      exact ⟨rfl, rfl⟩

end Sys2Proof.Machine
end

section
/-! SUPPORT. Launches in the schedulers: their shares, the clusters that hold them, stealing and reports. -/

namespace Sys2Proof.Machine

/-! ## A live launch (R193) -/

section
variable {s : State} {job num : Nat} {l : Launch}

theorem launch_named (h : s.launch job num = some l) : l.job = job ∧ l.num = num := by
  simpa using List.find?_some h

/-- A launch that is replaced by one of the same number is found again. -/
theorem launch_setLaunch {m : Launch} (h : s.launch job num = some l) (hj : m.job = job) (hn : m.num = num) :
    (s.setLaunch m).launch job num = some m := by
  subst hj hn
  have hsame : (fun x : Launch => decide (x.job = m.job ∧ x.num = m.num)) ∘
      (fun x : Launch => if x.job = m.job ∧ x.num = m.num then m else x) =
      fun x : Launch => decide (x.job = m.job ∧ x.num = m.num) := by
    funext x
    by_cases hx : x.job = m.job ∧ x.num = m.num
    · simp only [Function.comp, hx, and_self, if_true]
    · simp only [Function.comp, if_neg hx]
  have hl : s.sch.launches.find? (fun x => decide (x.job = m.job ∧ x.num = m.num)) = some l := h
  show (s.sch.launches.map _).find? _ = _
  rw [List.find?_map, hsame, hl, Option.map_some, if_pos (launch_named h)]

end

/-! ## Shares (R363) -/

/-- Nothing but the ranges held unplaced and the assigned counts differs. -/
structure Launch.onlyShares (l m : Launch) : Prop where
  rest : { m with ranges := l.ranges, assigned := l.assigned } = l

namespace Launch.onlyShares

variable {l m k : Launch}

theorem refl (l : Launch) : l.onlyShares l := ⟨rfl⟩

theorem trans (h : l.onlyShares m) (g : m.onlyShares k) : l.onlyShares k where
  rest := by rw [← h.rest, ← g.rest]

theorem job (h : l.onlyShares m) : m.job = l.job := (congrArg Launch.job h.rest :)
theorem num (h : l.onlyShares m) : m.num = l.num := (congrArg Launch.num h.rest :)
theorem desc (h : l.onlyShares m) : m.desc = l.desc := (congrArg Launch.desc h.rest :)
theorem rdy (h : l.onlyShares m) : m.rdy = l.rdy := (congrArg Launch.rdy h.rest :)

theorem foldl {α : Type} {f : Launch → α → Launch} (hf : ∀ (l : Launch) x, l.onlyShares (f l x)) (xs : List α)
    (l : Launch) : l.onlyShares (xs.foldl f l) := by
  induction xs generalizing l with
  | nil => exact refl l
  | cons x r ih => exact (hf l x).trans (ih _)

end Launch.onlyShares

section
variable (l : Launch)

theorem onlyShares_give (cl lo n rdy : Nat) : l.onlyShares (l.give cl lo n rdy) := by
  unfold Launch.give
  split <;> exact ⟨rfl⟩

theorem onlyShares_spread (lo n : Nat) (cls : List Nat) : l.onlyShares (l.spread lo n cls) :=
  Launch.onlyShares.foldl (fun l _ => onlyShares_give l _ _ _ _) _ l

theorem ranges_give (cl lo n rdy : Nat) :
    (l.give cl lo n rdy).ranges = l.ranges ++ [(⟨cl, lo, n, rdy⟩ : Range)].filter (fun r => decide (r.n ≠ 0)) := by
  unfold Launch.give
  by_cases h : n = 0 <;> simp [h]

theorem assigned_give (cl lo n rdy c : Nat) :
    tget 0 (l.give cl lo n rdy).assigned c = tget 0 l.assigned c + if c = cl then n else 0 := by
  unfold Launch.give
  by_cases h : n = 0
  · simp [h]
  · rw [if_neg h, tget_tset]
    by_cases hc : c = cl
    · subst hc; simp
    · simp [hc, Ne.symm hc]

theorem shares_two (n : Nat) : shares n 2 = [(0, (n + 1) / 2), ((n + 1) / 2, n / 2)] := by
  simp only [shares, List.range_succ, List.range_zero, List.nil_append, List.map_cons, List.map_nil,
    List.singleton_append, boolNat]
  rcases Nat.mod_two_eq_zero_or_one n with h | h <;> simp [h] <;> omega

/-- The share of a die goes to its two clusters, the odd index to the lower. -/
theorem spread_two (lo n a b : Nat) :
    l.spread lo n [a, b] = (l.give a lo ((n + 1) / 2) l.rdy).give b (lo + (n + 1) / 2) (n / 2) l.rdy := by
  have hr : (l.give a lo ((n + 1) / 2) l.rdy).rdy = l.rdy := (onlyShares_give l _ _ _ _).rdy
  simp [Launch.spread, shares_two, hr]

theorem assigned_spread_two (lo n a b c : Nat) : tget 0 (l.spread lo n [a, b]).assigned c =
    tget 0 l.assigned c + (if c = a then (n + 1) / 2 else 0) + if c = b then n / 2 else 0 := by
  rw [spread_two, assigned_give, assigned_give]

end

/-- What dies with shares have assigned at a cluster: the sum over the dies of what each gives it. -/
theorem assigned_dies (xs : List ((Nat × Nat) × ((Nat × Nat) × Nat))) (l : Launch) (c : Nat) :
    tget 0 (xs.foldl (fun l x => l.spread x.1.1 x.1.2 [2 * x.2.2, 2 * x.2.2 + 1]) l).assigned c =
      tget 0 l.assigned c + (xs.map (fun x => (if c = 2 * x.2.2 then (x.1.2 + 1) / 2 else 0) +
        if c = 2 * x.2.2 + 1 then x.1.2 / 2 else 0)).sum := by
  induction xs generalizing l with
  | nil => rfl
  | cons x r ih => rw [List.foldl_cons, ih, assigned_spread_two, List.map_cons, List.sum_cons]; omega

theorem spanPkgs_own (s : State) (job : Nat) {span : Nat} (h : span ≤ 5) :
    s.spanPkgs job span = [(s.podid.toNat, s.pkgid)] := if_pos h

/-- The share of die d, of eight. -/
def dieShare (n d : Nat) : Nat := n / 8 + boolNat (decide (d < n % 8))

theorem dieShare_eq (n d : Nat) : dieShare n d = n / 8 + if d < n % 8 then 1 else 0 := by
  simp [dieShare, boolNat]

/-- The shares of the dies of this package, each with its die. -/
def State.dieShares (s : State) (n : Nat) : List ((Nat × Nat) × ((Nat × Nat) × Nat)) :=
  (List.range 8).map (fun d => ((d * (n / 8) + min d (n % 8), dieShare n d), ((s.podid.toNat, s.pkgid), d)))

/-- The launch with its indices spread over the dies of this package. -/
def State.overPackage (s : State) (l : Launch) : Launch :=
  (s.dieShares l.desc.count).foldl (fun l x => l.spread x.1.1 x.1.2 [2 * x.2.2, 2 * x.2.2 + 1]) l

theorem onlyShares_overPackage (s : State) (l : Launch) : l.onlyShares (s.overPackage l) :=
  Launch.onlyShares.foldl (fun l _ => onlyShares_spread l _ _ _) _ l

theorem sum_range_single {k : Nat} (f : Nat → Nat) (d : Nat) (h : d < k) :
    ((List.range k).map (fun i => if d = i then f i else 0)).sum = f d := by
  rw [← List.sum_toFinset _ List.nodup_range, Finset.sum_ite_eq, if_pos (by simpa using h)]

theorem assigned_overPackage (s : State) {l : Launch} (hl : l.assigned = []) {d : Nat} (hd : d < 8) :
    tget 0 (s.overPackage l).assigned (2 * d) = (dieShare l.desc.count d + 1) / 2 ∧
      tget 0 (s.overPackage l).assigned (2 * d + 1) = dieShare l.desc.count d / 2 := by
  have hlow (i : Nat) : (2 * d = 2 * i) = (d = i) := propext (by omega)
  have hhigh (i : Nat) : (2 * d + 1 = 2 * i + 1) = (d = i) := propext (by omega)
  have hne (i : Nat) : ¬2 * d = 2 * i + 1 := by omega
  have hne' (i : Nat) : ¬2 * d + 1 = 2 * i := by omega
  constructor
  · rw [State.overPackage, assigned_dies, hl, State.dieShares, List.map_map]
    simp only [Function.comp_def, hlow, hne, if_false, Nat.add_zero]
    exact (Nat.zero_add _).trans (sum_range_single (fun i => (dieShare l.desc.count i + 1) / 2) d hd)
  · rw [State.overPackage, assigned_dies, hl, State.dieShares, List.map_map]
    simp only [Function.comp_def, hhigh, hne', if_false, Nat.zero_add]
    exact (Nat.zero_add _).trans (sum_range_single (fun i => dieShare l.desc.count i / 2) d hd)

theorem divide_package (s : State) {l : Launch} (ht : l.desc.timed = false) (hs : l.desc.span = 5) :
    s.divide l = s.setLaunch (s.overPackage l) := by
  have hpkgs : s.spanPkgs l.job l.desc.span = [(s.podid.toNat, s.pkgid)] := spanPkgs_own s l.job (Nat.le_of_eq hs)
  rw [State.divide, ht, if_neg Bool.false_ne_true, if_neg (by omega), State.divideOver, hpkgs]
  simp only [List.map_cons, List.map_nil, List.flatten_cons, List.flatten_nil, List.append_nil, List.foldl_cons,
    List.foldl_nil, if_true, List.length_map, List.length_range, shares, List.zip_map']
  rw [List.filter_eq_self.2 (fun x hx => ?_)]
  · rfl
  · obtain ⟨d, -, rfl⟩ := List.mem_map.1 hx
    exact decide_eq_true rfl

theorem divide_pair (s : State) {l : Launch} (ht : l.desc.timed = false) (hs : l.desc.span = 4) :
    s.divide l = s.setLaunch (l.spread 0 l.desc.count [2 * l.grp, 2 * l.grp + 1]) := by
  rw [State.divide, ht, if_neg Bool.false_ne_true, if_pos hs]

/-! ## The events of launches (R363, R364, R368, R481) -/

section
variable {s : State} {job num : Nat} {l : Launch} (h : s.launch job num = some l)
include h

theorem exec_launchDivide {r : List (Nat × Nat)} (hq : s.sch.globQ = (job, num) :: r) :
    exec .launchDivide s = .next (({ s with sch := { s.sch with globQ := r } } : State).divide l) := by
  have h' : ({ s with sch := { s.sch with globQ := r } } : State).launch job num = some l := h
  show execLaunchDivide s = _
  unfold execLaunchDivide
  simp only [hq, h']

theorem exec_leafLaunchTake {cl : Nat} {r : List (Nat × Nat)} (hq : s.leafQ cl = (job, num) :: r)
    (ht : l.desc.timed = false) : exec (.leafLaunchTake cl) s =
      .next (({ s with sch := { s.sch with leafQ := tset [] s.sch.leafQ cl r } } : State).setLaunch
        (l.give cl 0 l.desc.count l.rdy)) := by
  have h' : ({ s with sch := { s.sch with leafQ := tset [] s.sch.leafQ cl r } } : State).launch job num = some l := h
  show execLeafLaunchTake cl s = _
  unfold execLeafLaunchTake
  simp only [hq, h', ht]

/-- A dry die of a launch of one package steals from the busiest die (R364). -/
theorem exec_steal {die : Nat} {v : Range} (hs : l.desc.span = 5) (ht : l.desc.timed = false) (hd : die < 8)
    (hu : l.unplaced die = 0) (hr : s.rs job = 0) (hv : l.largest l.busiest = some v) (hn : 2 ≤ v.n) :
    exec (.steal die job num) s = .next (s.setLaunch (l.steal v die)) := by
  have hno : (s.spanPkgs job l.desc.span).filter (fun p => decide (p ≠ (s.podid.toNat, s.pkgid))) = [] := by
    rw [spanPkgs_own s job (Nat.le_of_eq hs)]
    simp
  have hgo : ¬(l.desc.span < 5 ∨ l.desc.timed = true ∨ 8 ≤ die ∨ l.unplaced die ≠ 0 ∨ s.rs job ≠ 0) := by
    simp [hs, ht, hu, hr, hd]
  show execSteal die job num s = _
  unfold execSteal
  simp only [h, if_neg hgo, hno, List.getElem?_nil, ite_self, hv, if_neg (Nat.not_lt.2 hn)]

theorem exec_completionReport {cl : Nat} (he : tget 0 l.ended cl = tget 0 l.assigned cl)
    (hlt : tget 0 l.reported cl < tget 0 l.ended cl) (hall : ∀ r ∈ l.ranges, r.cl ≠ cl) (hf : s.isFirst job = true) :
    exec (.completionReport cl job num) s = .next
      ((s.setLaunch { l with reported := tset 0 l.reported cl (tget 0 l.ended cl) }).addReport job num
        (tget 0 l.ended cl - tget 0 l.reported cl)) := by
  have hgo : tget 0 l.ended cl = tget 0 l.assigned cl ∧ tget 0 l.reported cl < tget 0 l.ended cl ∧
      l.ranges.all (fun r => decide (r.cl ≠ cl)) = true :=
    ⟨he, hlt, List.all_eq_true.2 (fun r hr => decide_eq_true (hall r hr))⟩
  show execCompletionReport cl job num s = _
  unfold execCompletionReport
  simp only [h, if_pos hgo]
  rw [show State.isFirst (s.setLaunch _) job = true from hf]
  rfl

theorem addReport_open {extra : Nat} (hn : l.sum + extra ≠ l.desc.count) :
    s.addReport job num extra = s.setLaunch { l with sum := l.sum + extra } := by
  rw [State.addReport, h]
  exact if_neg hn

end

end Sys2Proof.Machine
end

section
/-! SUPPORT. The other events of the schedulers: a task's start, dependence counters, timed domains, and the statement
about all of them. -/

namespace Sys2Proof.Machine

/-! ## A task's start (R195, R196) -/

theorem sends_event (s : State) (tag imm : Word) (j : Nat) (p : List Byte) : s.sends (s.event tag imm j p) := by
  unfold State.event State.pushPort
  split
  · exact ⟨rfl⟩
  · exact .refl s

theorem now_fillImg (s : State) (n : Nat) (img : Word) (g : Nat) : (s.fillImg n img g).now = s.now := by
  unfold State.fillImg
  simp only
  split
  · exact (sends_event _ _ _ _ _).now
  · rfl

theorem now_fillImgs (s : State) (n : Nat) (img : Word) (mask : BitVec 128) : (s.fillImgs n img mask).now = s.now := by
  unfold State.fillImgs
  generalize (List.range 128).filter (fun g => mask.getLsbD g) = gs
  induction gs generalizing s with
  | nil => rfl
  | cons g r ih => exact (ih _).trans (now_fillImg s n img g)

theorem prepPad_keeps (s : State) (n job : Nat) (img : Word) (mask : BitVec 128) :
    (s.prepPad n job img mask).now = s.now ∧ ((s.prepPad n job img mask).core n).sjob = some job := by
  refine ⟨?_, congrArg Core.sjob (core_setCore_self _ n _)⟩
  refine (setCore_now _ n _).trans ((now_fillImgs _ n img mask).trans ?_)
  split <;> rfl

theorem now_takeIndex (s : State) (job num cl lo : Nat) : (s.takeIndex job num cl lo).now = s.now := by
  unfold State.takeIndex
  split <;> rfl

/-- The registers of a task's first state (R195). -/
theorem x_firstCtx (s : State) (n : Nat) (t : Cand) (num : Nat) (named : Option Nat) (r : BitVec 5) :
    (s.firstCtx n t num named).x r = if r = 10 then t.desc.args else if r = 11 then wOf (t.tid % 2 ^ 31) else
      if r = 12 then wOf t.desc.count else 0 := by
  have heq (k : BitVec 5) : (k.toNat = r.toNat) = (r = k) := propext (by rw [← BitVec.toNat_inj, eq_comm])
  have h10 := heq 10
  have h11 := heq 11
  have h12 := heq 12
  simp only [BitVec.reduceToNat] at h10 h11 h12
  show (if r = 0 then 0 else tget 0 (tset 0 (tset 0 (tset 0 [] 10 t.desc.args) 11 (wOf (t.tid % 2 ^ 31))) 12
    (wOf t.desc.count)) r.toNat) = _
  simp only [tget_tset, h10, h11, h12]
  by_cases e0 : r = 0
  · subst e0; rfl
  by_cases e10 : r = 10
  · subst e10; rfl
  by_cases e11 : r = 11
  · subst e11; rfl
  simp only [if_neg e0, if_neg e10, if_neg e11]
  rfl

/-- A task that starts has the core, with its own first context, and the scratchpad is its job's. -/
theorem startTask_core (s : State) (n : Nat) (t : Cand) (num : Nat) (named : Option Nat) :
    ∃ u : State, (s.startTask n t num named).fg n = u.firstCtx n t num named ∧
      ((s.startTask n t num named).core n).busy = true ∧
      ((s.startTask n t num named).core n).sjob = some t.job ∧ (s.startTask n t num named).now = s.now := by
  obtain ⟨hnow, hjob⟩ := prepPad_keeps s n t.job (if t.desc.img then (s.job t.job).img else 0)
    (if t.desc.img then (s.job t.job).imask else 0)
  have hcore := core_setCore_self (s.prepPad n t.job (if t.desc.img then (s.job t.job).img else 0)
    (if t.desc.img then (s.job t.job).imask else 0)) n
  exact ⟨_, congrArg Core.fg (hcore _), congrArg Core.busy (hcore _), (congrArg Core.sjob (hcore _)).trans hjob, hnow⟩

theorem exec_taskDispatch {s : State} {cl n job num lo : Nat} {t : Cand} (hp : s.mgmt.pstate ≠ 2)
    (hc : s.choose cl = some (t, n)) (ht : t.what = .launch job num lo) :
    exec (.taskDispatch cl) s = .next ((s.takeIndex job num cl lo).startTask n t num none) := by
  show execTaskDispatch cl s = _
  unfold execTaskDispatch
  rw [if_neg hp]
  simp only [hc, ht]

/-! ## Dependence counters (R203) -/

section
variable {v : NSlot} {a : Nat} (now : Nat)

theorem dec_above (h : v.st = .armed) (ha : a < v.cnt) : v.dec a now = ({ v with cnt := v.cnt - a }, false) := by
  simp only [NSlot.dec, h, if_pos ha]

theorem dec_reached (h : v.st = .armed) (ha : v.cnt ≤ a) :
    v.dec a now = ({ v with pend := a - v.cnt, cnt := 0, st := .ready, rdy := now }, false) := by
  simp only [NSlot.dec, h, if_neg (Nat.not_lt.2 ha)]

theorem dec_early (h : v.st ≠ .armed) : v.dec a now = v.addPend a := by
  cases hst : v.st with
  | armed => exact absurd hst h
  | free => simp only [NSlot.dec, hst]
  | ready => simp only [NSlot.dec, hst]
  | running => simp only [NSlot.dec, hst]

end

theorem addPend_within {v : NSlot} {a : Nat} (h : v.pend + a ≤ 65535) :
    v.addPend a = ({ v with pend := v.pend + a }, false) :=
  if_neg (Nat.not_lt.2 h)

theorem addPend_over {v : NSlot} {a : Nat} (h : 65535 < v.pend + a) : v.addPend a = ({ v with pend := 65535 }, true) :=
  if_pos h

theorem decDep_eq {s : State} {cl k a : Nat} {w : NSlot} {b : Bool}
    (h : (s.slot cl k).dec a s.now = (w, b)) : s.decDep cl k a = (s.setSlot cl k w, b) := by
  rw [State.decDep, h]

theorem sends_answerSig (s : State) (x : Sig) (code v : Nat) : s.sends (s.answerSig x code v) := by
  unfold State.answerSig
  split
  · exact sends_injectWith _ _ _ _ _ _ _ _ _ _
  · exact .refl _

section
variable {s : State} {cl k a : Nat} {x : Sig} {rest : List Sig} {w : NSlot}
  (h : takeSig cl k a s.sch.depOut [] = some (x, rest))
include h

theorem exec_decrement (hw : (s.slot cl k).dec a s.now = (w, false)) : exec (.depCounterDecrement cl k a) s =
    .next (({ s with sch := { s.sch with depOut := rest } } : State).setSlot cl k w) := by
  have hd := decDep_eq (s := { s with sch := { s.sch with depOut := rest } }) hw
  show execDepCounterDecrement cl k a s = _
  unfold execDepCounterDecrement
  simp only [h, hd, if_true]

/-- A decrement whose excess is discarded tells its issuer, or the Hamper where it has none. -/
theorem exec_decrement_over (hw : (s.slot cl k).dec a s.now = (w, true)) : ∃ u : State,
    exec (.depCounterDecrement cl k a) s = .next u ∧
      (({ s with sch := { s.sch with depOut := rest } } : State).setSlot cl k w).sends u := by
  have hd := decDep_eq (s := { s with sch := { s.sch with depOut := rest } }) hw
  refine ⟨_, rfl, ?_⟩
  simp only [h, hd, Bool.true_eq_false, if_false]
  split
  · exact sends_event _ _ _ _ _
  · exact sends_answerSig _ x _ _

end

/-! ## Timed domains (R369, R370, R372) -/

/-- The domains that a record leaves of those declared before. -/
def State.otherDoms (s : State) (num slot : Nat) : List Dom :=
  s.sch.doms.filter (fun x => decide (¬(x.num = num ∧ x.job = slot)))

section
variable {s : State} {bs : List Byte} {r slot : Nat} {d : Dom} (hr : leNat (bs.take 64) = r)
  (hslot : s.slotOf (fld r 159 128) = some slot) (hd : domOf r slot = d) (hrsv : fld r 511 160 = 0)
  (hkind : d.kind = 0) (hqm : d.qm = 0)
include hr hslot hd hrsv hkind hqm

theorem exec_withdrawDomain (hclm : d.clm = 0) : exec (.domainDeclare bs) s =
    .next { s with sch := { s.sch with doms := s.otherDoms d.num slot } } := by
  show execDomainDeclare bs s = _
  unfold execDomainDeclare
  simp only [hr, hslot, hd]
  rw [if_neg (by simp [hrsv, hkind]), if_pos ⟨hclm, hqm⟩]
  rfl

theorem exec_declareDomain (hclm : d.clm ≠ 0) (hdoms : s.sch.doms = []) (hrds : d.rds ≤ 96) (hwrs : d.wrs ≤ 32)
    (hnts : d.nts ≤ 8) (hsms : d.sms ≤ 8) :
    exec (.domainDeclare bs) s = .next { s with sch := { s.sch with doms := [d] } } := by
  show execDomainDeclare bs s = _
  unfold execDomainDeclare
  simp only [hr, hslot, hd, hdoms]
  rw [if_neg (by simp [hrsv, hkind]), if_neg (fun h => hclm h.1),
    if_neg (by simp [hkind, hqm, Dom.empty, hclm, hrds, hwrs, hnts, hsms])]
  rfl

end

/-- No pulse is swallowed in no time. -/
theorem swallowed_self (d : Dom) (a : Nat) : d.swallowed a a = 0 := by
  have hf : max a (min a d.fr) = a := by omega
  simp only [Dom.swallowed, hf, Nat.sub_self]


/-- A domain with a new rate, where it has the number that is named (R372). -/
def Dom.rerated (d : Dom) (dom sw t : Nat) : Dom :=
  if d.num = dom then { d with s0 := d.s, s := sw, fr := (t + 15) / 16 * 16 } else d

theorem rerated_ids (d : Dom) (dom sw t : Nat) :
    (d.rerated dom sw t).num = d.num ∧ (d.rerated dom sw t).job = d.job := by
  unfold Dom.rerated
  split <;> exact ⟨rfl, rfl⟩

/-- A core whose `dcyc` is fixed at its present value, where its running task is of the domain. -/
def State.dcFixed (s : State) (dom : Nat) (k : Core) : Core :=
  if k.fg.ident.desc.timed ∧ k.fg.ident.desc.tdom = dom ∧ k.fg.stop = none then { k with fg := s.markDc k.fg } else k

/-- The state in which a domain has its new rate. -/
def State.rerated (s : State) (dom sw : Nat) : State :=
  let u := s.mapCores (fun _ k => s.dcFixed dom k)
  { u with sch := { u.sch with doms := s.sch.doms.map (fun d => d.rerated dom sw (s.now + s.slew.toNat)) } }

section
variable (s : State) (dom sw : Nat)

theorem core_rerated (n : Nat) : (s.rerated dom sw).core n = s.dcFixed dom (s.core n) :=
  core_mapCores s (fun _ k => s.dcFixed dom k) (if_neg (fun h => Bool.false_ne_true h.1))

theorem domOf_rerated (c : Ctx) :
    (s.rerated dom sw).domOf c = (s.domOf c).map (fun d => d.rerated dom sw (s.now + s.slew.toNat)) := by
  have hsame : (fun d : Dom => decide (d.num = c.ident.desc.tdom ∧ d.job = c.ident.job)) ∘
      (fun d => d.rerated dom sw (s.now + s.slew.toNat)) =
      fun d : Dom => decide (d.num = c.ident.desc.tdom ∧ d.job = c.ident.job) := by
    funext d
    obtain ⟨hn, hj⟩ := rerated_ids d dom sw (s.now + s.slew.toNat)
    simp only [Function.comp, hn, hj]
  unfold State.domOf
  split
  · exact (List.find?_map ..).trans (by rw [hsame])
  · rfl

/-- A domain of another number keeps its rates. -/
theorem domOf_rerated_other {c : Ctx} (h : ¬(c.ident.desc.timed = true ∧ c.ident.desc.tdom = dom)) :
    (s.rerated dom sw).domOf c = s.domOf c := by
  rw [domOf_rerated]
  cases hd : s.domOf c with
  | none => rfl
  | some d =>
    unfold State.domOf at hd
    split at hd
    · next ht =>
      have hnum : d.num = c.ident.desc.tdom ∧ d.job = c.ident.job := by simpa using List.find?_some hd
      exact congrArg some (if_neg (fun e => h ⟨ht, hnum.1.symm.trans e⟩))
    · exact absurd hd (by simp)

end

/-- A context whose `dcyc` was fixed in this cycle has that value. -/
theorem dcyc_fixed {s : State} {c : Ctx} (hs : c.stop = none) (hm : c.dcMark = s.now) : s.dcyc c = c.dcSave := by
  unfold State.dcyc
  rw [hs, hm]
  cases s.domOf c <;> simp [swallowed_self]

/-- `dcyc` of a context goes by its stop, its domain and the clock. -/
theorem dcyc_congr {s t : State} {c : Ctx} (hn : t.now = s.now) (hs : t.slew = s.slew)
    (hd : c.stop = none → t.domOf c = s.domOf c) : t.dcyc c = s.dcyc c := by
  unfold State.dcyc
  cases hst : c.stop with
  | some w => rfl
  | none => rw [hn, hs, hd hst]

/-- A change of rate does not change the `dcyc` of any core (R372). -/
theorem dcyc_rerated (s : State) (dom sw n : Nat) :
    (s.rerated dom sw).dcyc ((s.rerated dom sw).fg n) = s.dcyc (s.fg n) := by
  have hfg : (s.rerated dom sw).fg n = (s.dcFixed dom (s.core n)).fg := congrArg Core.fg (core_rerated s dom sw n)
  rw [hfg, State.dcFixed]
  split
  · next h => exact dcyc_fixed (s := s.rerated dom sw) (c := s.markDc (s.fg n)) h.2.2 rfl
  · next h => exact dcyc_congr rfl rfl (fun hst => domOf_rerated_other s dom sw (fun ⟨ht, hd⟩ => h ⟨ht, hd, hst⟩))

theorem exec_swallow {s : State} {sw : Nat} (dom : Nat) (h : s.ccyc.toNat % 1050 = 0) (hs : sw ≤ 8) :
    exec (.swallowRateUpdate dom sw) s = .next (s.rerated dom sw) :=
  congrArg Host.Outcome.next (if_pos ⟨h, hs⟩)

/-- Settles O46: each event by what it makes of the launch, the slot, the domains or the core that it is about. -/
theorem schedulingEventsComplete : Obligations.SchedulingEventsComplete := by
  unfold Obligations.SchedulingEventsComplete
  intro s job num l hl count
  obtain ⟨hjob, hnum⟩ := launch_named hl
  refine ⟨?_, ?_, ?_, ?_, ?_, ?_, ?_, ?_, ?_⟩
  · intro r hq ht hspan hr has
    let u : State := { s with sch := { s.sch with globQ := r } }
    have hu : u.launch job num = some l := hl
    have hx := exec_launchDivide hl hq
    rcases hspan with hs | hs
    · have hkeep := onlyShares_spread l 0 count [2 * l.grp, 2 * l.grp + 1]
      rw [divide_pair u ht hs] at hx
      refine ⟨_, _, hx, rfl, launch_setLaunch hu (hkeep.job.trans hjob) (hkeep.num.trans hnum), hkeep.desc, rfl,
        fun _ => ⟨?_, ?_, ?_⟩, fun h5 => absurd (hs.symm.trans h5) (by decide)⟩
      · rw [spread_two, ranges_give, ranges_give, hr, Nat.zero_add, List.nil_append, ← List.filter_append]
        rfl
      · rw [assigned_spread_two, has, if_pos rfl, if_neg (by omega)]
        exact Nat.zero_add _
      · rw [assigned_spread_two, has, if_neg (by omega), if_pos rfl]
        exact Nat.zero_add _
    · have hkeep := onlyShares_overPackage u l
      rw [divide_package u ht hs] at hx
      refine ⟨_, _, hx, rfl, launch_setLaunch hu (hkeep.job.trans hjob) (hkeep.num.trans hnum), hkeep.desc, rfl,
        fun h4 => absurd (hs.symm.trans h4) (by decide), fun _ d hd => ?_⟩
      rw [← dieShare_eq]
      exact assigned_overPackage u has hd
  · intro cl r hq ht hcount
    let u : State := { s with sch := { s.sch with leafQ := tset [] s.sch.leafQ cl r } }
    have hu : u.launch job num = some l := hl
    have hkeep := onlyShares_give l cl 0 count l.rdy
    refine ⟨_, _, exec_leafLaunchTake hl hq ht, tget_tset_self _ _ _ _,
      launch_setLaunch hu (hkeep.job.trans hjob) (hkeep.num.trans hnum), ?_, ?_⟩
    · rw [ranges_give]
      simp [hcount, count]
    · rw [assigned_give, if_pos rfl]
  · intro die v hs ht hd hu hr hv hn
    exact ⟨_, l.steal v die, exec_steal hl hs ht hd hu hr hv hn, launch_setLaunch hl hjob hnum, rfl⟩
  · intro cl he hlt hall hf hn
    let m : Launch := { l with reported := tset 0 l.reported cl (tget 0 l.ended cl) }
    have hm : (s.setLaunch m).launch job num = some m := launch_setLaunch hl hjob hnum
    have hx := exec_completionReport hl he hlt hall hf
    rw [addReport_open hm hn] at hx
    exact ⟨_, _, hx, launch_setLaunch hm hjob hnum, rfl, tget_tset_self _ _ _ _⟩
  · intro cl t n lo hp hc ht
    obtain ⟨u, hfg, hbusy, hsj, hnow⟩ := startTask_core (s.takeIndex job num cl lo) n t num none
    refine ⟨_, exec_taskDispatch hp hc ht, hbusy, ?_⟩
    rw [hfg, hnow]
    exact ⟨rfl, x_firstCtx u n t num none, fun _ => rfl, fun _ => rfl, rfl, rfl, rfl, rfl, rfl, hsj,
      now_takeIndex s job num cl lo⟩
  · intro cl k a x rest h s1 v
    refine ⟨fun hst ha => exec_decrement h (dec_above _ hst ha), fun hst ha => exec_decrement h (dec_reached _ hst ha),
      fun hst ha => exec_decrement h ((dec_early _ hst).trans (addPend_within ha)), fun hst ha => ?_⟩
    obtain ⟨u, hx, hu⟩ := exec_decrement_over h ((dec_early _ hst).trans (addPend_over ha))
    refine ⟨u, hx, ?_, congrArg Sched.depOut hu.sch⟩
    rw [State.slot, hu.sch]
    exact slot_setSlot_self _ cl k _
  · intro bs slot r hslot hrsv hkind hqm d
    refine ⟨fun hclm hdoms hrds hwrs hnts hsms => ?_, fun hclm => ?_⟩
    · exact exec_declareDomain rfl hslot rfl hrsv hkind hqm hclm hdoms hrds hwrs hnts hsms
    · refine ⟨_, exec_withdrawDomain rfl hslot rfl hrsv hkind hqm hclm, fun x => ?_⟩
      exact List.mem_filter.trans (and_congr_right' (by rw [decide_eq_true_iff]))
  · intro dom sw hcc hsw
    exact ⟨_, exec_swallow dom hcc hsw, rfl, dcyc_rerated s dom sw, rfl⟩
  · intro n hn k
    exact congrArg Host.Outcome.next (if_pos hn)

end Sys2Proof.Machine
end

section
/-! SUPPORT. The canonical form of memory as every step keeps it: what stands for it in proofs, and the operations of
the state and of the engine queues. -/

namespace Sys2Proof.Machine

set_option Elab.async false

/-- Memory is in canonical form: `State.canonical`, reducible so that the automation below sees the list of bytes. -/
abbrev State.memOk (s : State) : Prop := Memory.wf s.mem = true

/-- The state that a piece of a copy packet leaves. -/
def PRes.state : PRes → State
  | .did s _ => s
  | .stop s _ _ _ => s
  | .hold s _ _ => s
  | .fin s _ => s

/-- The state that a descriptor's read leaves. -/
def Fetch.state : Fetch → State
  | .ok _ s => s
  | .trap _ _ s => s

/-- The state that a write leaves, whether it faults or not. -/
def Wrote.state : Wrote → State
  | .ok s => s
  | .fault _ s => s

/-- An engine command's effect keeps memory canonical. -/
def effKeeps (eff : Eff) : Prop := ∀ s n q t p, State.memOk s → eff s n q = .run t p → t.memOk

/-- A wait's test keeps memory canonical. -/
def testKeeps (test : Test) : Prop := ∀ s n w t, State.memOk s → test s n w = some t → t.memOk

/-- A wait's expiry keeps memory canonical. -/
def lateKeeps (late : Expiry) : Prop := ∀ s n w, State.memOk s → (late s n w).memOk

theorem memOk_of_mem {s t : State} (h : t.mem = s.mem) (hs : s.memOk) : t.memOk := by rwa [State.memOk, h]

theorem memOk_next {t u : State} (ht : t.memOk) (h : (.next t : Out) = .next u) : u.memOk := by
  cases h
  exact ht

@[simp] theorem lateKeeps_self : lateKeeps (fun s _ _ => s) := fun _ _ _ hs => hs

theorem mem_foldl {α : Type} (f : State → α → State) (hf : ∀ t x, (f t x).mem = t.mem) (l : List α) (s : State) :
    (l.foldl f s).mem = s.mem := by
  induction l generalizing s with
  | nil => rfl
  | cons x l ih => simp [ih, hf]

theorem memOk_foldl {α : Type} (f : State → α → State) (hf : ∀ t x, t.memOk → (f t x).memOk) (l : List α) (s : State)
    (hs : s.memOk) : (l.foldl f s).memOk := by
  induction l generalizing s with
  | nil => exact hs
  | cons x l ih => exact ih _ (hf _ _ hs)

theorem moveCells_wf (m : List Host.Cell) (a b k : Nat) (h : Memory.wf m = true) : Memory.wf (moveCells m a b k) = true :=
  memWriteCells_wf _ _ (tableOk_filter _ _ _ h)

theorem memOk_putBytes (s : State) (a : Nat) (bs : List Byte) (hs : s.memOk) : (s.putBytes a bs).memOk :=
  memWrite_wf bs s.mem a hs

theorem memOk_atomsGo (op ty cmp wb : Nat) (fresh : Nat → Bool) (k : Nat) (s : State) (a : Nat) (bs : List Byte)
    (hs : s.memOk) : (atomsGo op ty cmp wb fresh k s a bs).st.memOk := by
  induction k generalizing s a bs with
  | zero => exact hs
  | succ k ih => grind [atomsGo, memOk_putBytes]

theorem memOk_atomsAt (s : State) (op ty cmp a : Nat) (bs : List Byte) (fresh : Nat → Bool) (hs : s.memOk) :
    (s.atomsAt op ty cmp a bs fresh).st.memOk := by
  grind [State.atomsAt, memOk_atomsGo]

@[simp] theorem mem_mapCores (s : State) (f : Nat → Core → Core) : (s.mapCores f).mem = s.mem := by
  simp [State.mapCores]

@[simp] theorem mem_nextFree (s : State) : s.nextFree.2.mem = s.mem := by
  simp [State.nextFree]

theorem memOk_spadWrite (s : State) (n off : Nat) (bs : List Byte) (hs : s.memOk) : (s.spadWrite n off bs).memOk := by
  grind [State.spadWrite, markDirty_mem, memOk_putBytes]

theorem memOk_setRs (s : State) (slot v : Nat) (hs : s.memOk) : (s.setRs slot v).memOk := by
  grind [State.setRs, memOk_putBytes]

@[simp] theorem mem_pass (s : State) (k : Nat) : (s.pass k).mem = s.mem := by
  simp [State.pass]

@[simp] theorem mem_pushPort (s : State) (p : Nat) (m : Msg) : (s.pushPort p m).mem = s.mem := by
  unfold State.pushPort
  split <;> simp

@[simp] theorem mem_viaOf (s : State) (dst : Nat) : (s.viaOf dst).2.mem = s.mem := by
  grind [State.viaOf, mem_nextFree]

@[simp] theorem mem_setPort' (s : State) (k : Nat) (o : Port) : (s.setPort' k o).mem = s.mem := by
  simp [State.setPort']

@[simp] theorem mem_emitOn (s : State) (k : Nat) (p : FabPkt) : (s.emitOn k p).mem = s.mem := by
  simp [State.emitOn]

@[simp] theorem mem_emit (s : State) (p : FabPkt) : (s.emit p).mem = s.mem := by
  simp [State.emit]

@[simp] theorem mem_injectNow (s : State) (p : FabPkt) : (s.injectNow p).mem = s.mem := by
  simp [State.injectNow]

@[simp] theorem mem_injectWith (s : State) (kind dst mid path : Nat) (addr aux : Word) (payload : List Byte)
    (pois : List Nat) (part : List (Nat × Byte)) :
    (s.injectWith kind dst mid path addr aux payload pois part).mem = s.mem := by
  grind [State.injectWith, mem_injectNow]

@[simp] theorem mem_inject (s : State) (kind dst mid path : Nat) (addr aux : Word) (payload : List Byte) :
    (s.inject kind dst mid path addr aux payload).mem = s.mem := by
  simp [State.inject]

@[simp] theorem mem_injectWrite (s : State) (pkg mid path : Nat) (cells : List (Nat × Byte)) (pois : List Nat)
    (part : List (Nat × Byte)) : (s.injectWrite pkg mid path cells pois part).mem = s.mem := by
  unfold State.injectWrite
  split <;> simp

@[simp] theorem mem_tellPkg (s : State) (slot : Nat) (p : Nat × Nat) (payload : List Byte) :
    (s.tellPkg slot p payload).mem = s.mem := by
  unfold State.tellPkg
  split <;> simp

@[simp] theorem mem_castJob (s : State) (slot : Nat) (payload : List Byte) :
    (s.castJob slot payload).mem = s.mem := by
  simp [State.castJob, mem_foldl]

@[simp] theorem mem_freezeJob (s : State) (slot : Nat) (origin : Word) : (s.freezeJob slot origin).mem = s.mem := by
  simp [State.freezeJob]

theorem memOk_takeWave (s : State) (slot : Nat) (origin jt : Word) (own : Bool) (hs : s.memOk) :
    (s.takeWave slot origin jt own).memOk := by
  grind [State.takeWave, mem_freezeJob, memOk_setRs, setJob_mem, mem_castJob]

theorem memOk_originateCore (s : State) (n slot cause : Nat) (jt : Word) (hs : s.memOk) :
    (s.originateCore n slot cause jt).memOk := by
  grind [State.originateCore, memOk_takeWave]

theorem memOk_takeTrap (s : State) (n cause unit : Nat) (cut val : Word) (hs : s.memOk) :
    (s.takeTrap n cause unit cut val).memOk := by
  grind [State.takeTrap, setCore_mem, setJob_mem, setFg_mem, memOk_originateCore]

@[simp] theorem mem_threadTrap (s : State) (h cause : Nat) (val : Word) : (s.threadTrap h cause val).mem = s.mem := by
  simp [State.threadTrap]

theorem memOk_trapHere (s : State) (cause : Nat) (val : Word) (hs : s.memOk) : (s.trapHere cause val).memOk := by
  grind [State.trapHere, tick_mem, memOk_takeTrap, mem_threadTrap]

theorem memOk_onCore (s : State) (w : Word) (f : Nat → State) (hs : s.memOk) (hf : ∀ n, (f n).memOk) :
    (s.onCore w f).memOk := by
  grind [State.onCore, memOk_trapHere]

theorem memOk_onThread (s : State) (w : Word) (f : Nat → State) (hs : s.memOk) (hf : ∀ n, (f n).memOk) :
    (s.onThread w f).memOk := by
  grind [State.onThread, memOk_trapHere]

theorem memOk_onSup (s : State) (w : Word) (f : Nat → State) (hs : s.memOk) (hf : ∀ n, (f n).memOk) :
    (s.onSup w f).memOk := by
  grind [State.onSup, memOk_onCore, memOk_trapHere]

@[simp] theorem mem_stopFault (s : State) (n : Nat) (e : Eng) (cause : Nat) (val : Word) :
    (s.stopFault n e cause val).mem = s.mem := by
  simp [State.stopFault]

@[simp] theorem mem_stopDeadline (s : State) (n : Nat) (e : Eng) : (s.stopDeadline n e).mem = s.mem := by
  simp [State.stopDeadline]

@[simp] theorem mem_signal (s : State) (n : Nat) (e : Eng) (sem : Nat) : (s.signal n e sem).mem = s.mem := by
  unfold State.signal
  split <;> simp

@[simp] theorem mem_settle (s : State) (n : Nat) (e : Eng) : (s.settle n e).mem = s.mem := by
  simp [State.settle]

@[simp] theorem mem_putSpool (s : State) (n k : Nat) (r : Spool) : (s.putSpool n k r).mem = s.mem := by
  simp [State.putSpool]

@[simp] theorem mem_push (s : State) (n : Nat) (e : Eng) (q : QEntry) : (s.push n e q).mem = s.mem := by
  simp [State.push]

@[simp] theorem mem_holdAt (s : State) (n : Nat) (e : Eng) (any : Bool) (q : QEntry) (len : Nat) :
    (s.holdAt n e any q len).mem = s.mem := by
  simp [State.holdAt]

theorem memOk_landSpool (s : State) (n : Nat) (p : Pending) (hs : s.memOk) : (s.landSpool n p).memOk := by
  grind [State.landSpool, memOk_spadWrite, mem_putSpool]

theorem memOk_complete (s : State) (n : Nat) (e : Eng) (p : Pending) (hs : s.memOk) : (s.complete n e p).memOk := by
  grind [State.complete, mem_signal, modFg_mem, memOk_landSpool]

theorem memOk_tryEntry {s t : State} {n : Nat} {q : QEntry} {i : Instr} {eff : Eff} {p : Pending} (hs : s.memOk)
    (heff : effKeeps eff) (h : s.tryEntry n q i eff = .run t p) : t.memOk := by
  grind [State.tryEntry, effKeeps, modFg_mem]

theorem memOk_started (s : State) (n : Nat) (e : Eng) (i : Instr) (p : Pending) (lat gap : Nat) (hs : s.memOk) :
    (s.started n e i p lat gap).memOk := by
  grind [State.started, modFg_mem, mem_settle, memOk_complete]

theorem memOk_issueEng (s : State) (e : Eng) (i : Instr) (xa xb xc : Word) (lat gap : Nat) (eff : Eff) (hs : s.memOk)
    (heff : effKeeps eff) : (s.issueEng e i xa xb xc lat gap eff).memOk := by
  refine memOk_onCore _ _ _ hs fun n => ?_
  grind [memOk_takeTrap, tick_mem, mem_holdAt, memOk_tryEntry, modFg_mem, memOk_started, retire_mem, mem_push,
    mem_stopFault]

@[simp] theorem effKeeps_vxEff (a b c d : BitVec 5) (pe : Bool) (pg : BitVec 3) (sm : BitVec 2) (g : VIn → VOut) :
    effKeeps (vxEff a b c d pe pg sm g) := by
  intro s n q t p hs h
  grind [vxEff, setFg_mem]

@[simp] theorem effKeeps_vEff (f : FmtV) (g : VIn → VOut) : effKeeps (vEff f g) := effKeeps_vxEff _ _ _ _ _ _ _ _

@[simp] theorem effKeeps_viEff (f : FmtVI) (g : VIn → VOut) : effKeeps (viEff f g) := effKeeps_vxEff _ _ _ _ _ _ _ _

@[simp] theorem effKeeps_vlEff (f : FmtVL) (g : VIn → VOut) : effKeeps (vlEff f g) := effKeeps_vxEff _ _ _ _ _ _ _ _

theorem memOk_issueV (s : State) (i : Instr) (f : FmtV) (lat gap : Nat) (g : VIn → VOut) (hs : s.memOk) :
    (s.issueV i f lat gap g).memOk :=
  memOk_issueEng _ _ _ _ _ _ _ _ _ hs (effKeeps_vxEff _ _ _ _ _ _ _ _)

theorem memOk_issueVI (s : State) (i : Instr) (f : FmtVI) (lat gap : Nat) (g : VIn → VOut) (hs : s.memOk) :
    (s.issueVI i f lat gap g).memOk :=
  memOk_issueEng _ _ _ _ _ _ _ _ _ hs (effKeeps_vxEff _ _ _ _ _ _ _ _)

end Sys2Proof.Machine
end

section
/-! SUPPORT. What waits, the sequencer and the scalar instructions do with memory's canonical form. -/

namespace Sys2Proof.Machine

set_option Elab.async false

theorem effKeeps_vxPure {i : Instr} {x : Eff × Nat × Nat} (h : vxPure i = some x) : effKeeps x.1 := by
  unfold vxPure at h
  split at h <;> cases h <;> simp

theorem memOk_finishDk (s : State) (n k : Nat) (st : BitVec 5) (x : Bool) (at_ : Word) (code detail : Nat)
    (hs : s.memOk) : (s.finishDk n k st x at_ code detail).memOk := by
  grind [State.finishDk, tick_mem, setFg_mem, memOk_takeTrap]

theorem memOk_finishD (s : State) (n : Nat) (st : BitVec 5) (x : Bool) (at_ : Word) (code detail : Nat)
    (hs : s.memOk) : (s.finishD n st x at_ code detail).memOk := by
  grind [State.finishD, memOk_finishDk]

@[simp] theorem mem_finishDT (s : State) (h : Nat) (st : BitVec 5) (x : Bool) (at_ : Word) (code detail : Nat) :
    (s.finishDT h st x at_ code detail).mem = s.mem := by
  grind [State.finishDT, tick_mem, setThread_mem, mem_threadTrap]

@[simp] theorem mem_setWait (s : State) (w : Wait) : (s.setWait w).mem = s.mem := by
  unfold State.setWait
  split <;> simp

theorem memOk_beginWait (s : State) (n : Nat) (w : Wait) (test : Test) (late : Expiry) (hs : s.memOk)
    (ht : testKeeps test) (hl : lateKeeps late) : (s.beginWait n w test late).memOk := by
  grind [State.beginWait, testKeeps, lateKeeps, setCore_mem, mem_setWait]

theorem memOk_doneD (s : State) (n : Nat) (f : FmtD) (w : Wait) (code detail : Nat) (hs : s.memOk) :
    (s.doneD n f w code detail).memOk := by
  grind [State.doneD, memOk_finishD]

@[simp] theorem lateKeeps_lateD (f : FmtD) : lateKeeps (lateD f) := by
  intro s n w hs
  grind [lateD, memOk_doneD]

@[simp] theorem mem_doneQ (s : State) (f : FmtQ) (v : Word) (cyc : Nat) : (s.doneQ f v cyc).mem = s.mem := by
  simp [State.doneQ]

@[simp] theorem mem_doneQW (s : State) (n : Nat) (f : FmtQ) (w : Wait) (v : Word) :
    (s.doneQW n f w v).mem = s.mem := by
  simp [State.doneQW]

@[simp] theorem mem_wake (s : State) (n : Nat) (f : FmtD) (w : Wait) (ev : Nat) : (s.wake n f w ev).mem = s.mem := by
  simp [State.wake]

@[simp] theorem testKeeps_sleepuTest (f : FmtD) : testKeeps (sleepuTest f) := by
  intro s n w t hs h
  grind [sleepuTest, mem_wake]

@[simp] theorem lateKeeps_sleepuLate (f : FmtD) : lateKeeps (sleepuLate f) := by
  intro s n w hs
  grind [sleepuLate, mem_wake]

theorem memOk_execSleepu (f : FmtD) (s : State) {u : State} (hs : s.memOk) (h : execSleepu f s = .next u) :
    u.memOk := by
  grind [execSleepu, memOk_onCore, memOk_beginWait, testKeeps_sleepuTest, lateKeeps_sleepuLate]

theorem memOk_execEngdl (f : FmtQ) (s : State) {u : State} (hs : s.memOk) (h : execEngdl f s = .next u) :
    u.memOk := by
  grind [execEngdl, memOk_onCore, retire_mem, modFg_mem]

theorem memOk_execEngst (f : FmtQ) (s : State) {u : State} (hs : s.memOk) (h : execEngst f s = .next u) :
    u.memOk := by
  grind [execEngst, memOk_onCore, modFg_mem, mem_doneQ]

@[simp] theorem testKeeps_engsyncTest (f : FmtD) : testKeeps (engsyncTest f) := by
  intro s n w t hs h
  grind [engsyncTest, memOk_doneD]

theorem memOk_execEngsync (f : FmtD) (s : State) {u : State} (hs : s.memOk) (h : execEngsync f s = .next u) :
    u.memOk := by
  grind [execEngsync, memOk_onCore, memOk_beginWait, testKeeps_engsyncTest, lateKeeps_lateD]

@[simp] theorem testKeeps_semwaitTest (f : FmtD) : testKeeps (semwaitTest f) := by
  intro s n w t hs h
  grind [semwaitTest, memOk_doneD, modFg_mem]

theorem memOk_execSemwait (f : FmtD) (s : State) {u : State} (hs : s.memOk) (h : execSemwait f s = .next u) :
    u.memOk := by
  grind [execSemwait, memOk_onCore, memOk_beginWait, testKeeps_semwaitTest, lateKeeps_lateD]

theorem memOk_seqSignal (s : State) (n sem k : Nat) (hs : s.memOk) : (s.seqSignal n sem k).memOk := by
  grind [State.seqSignal, retire_mem, setFg_mem, memOk_trapHere]

theorem memOk_execSemsig (f : FmtQ) (s : State) {u : State} (hs : s.memOk) (h : execSemsig f s = .next u) :
    u.memOk := by
  grind [execSemsig, memOk_onCore, memOk_seqSignal]

theorem memOk_execSemadd (f : FmtQ) (s : State) {u : State} (hs : s.memOk) (h : execSemadd f s = .next u) :
    u.memOk := by
  grind [execSemadd, memOk_onCore, memOk_seqSignal]

theorem memOk_execSemrd (f : FmtQ) (s : State) {u : State} (hs : s.memOk) (h : execSemrd f s = .next u) :
    u.memOk := by
  grind [execSemrd, memOk_onCore, mem_doneQ]

theorem memOk_ringOp (s : State) (f : FmtQ) (i : Instr) (op : Engine → Option (Engine × Word)) (hs : s.memOk) :
    (s.ringOp f i op).memOk := by
  grind [State.ringOp, memOk_onCore, mem_doneQ, modFg_mem]

theorem memOk_execEngringOn (f : FmtQ) (s : State) {u : State} (hs : s.memOk) (h : execEngringOn f s = .next u) :
    u.memOk := by
  grind [execEngringOn, memOk_ringOp]

@[simp] theorem testKeeps_spoolTest (f : FmtQ) (whole : Bool) (op : Spool → Spool → Word → Option (Spool × Word)) :
    testKeeps (spoolTest f whole op) := by
  intro s n w t hs h
  grind [spoolTest, mem_doneQW, modFg_mem, mem_putSpool, tick_mem, memOk_takeTrap]

theorem memOk_spoolIssue (s : State) (f : FmtQ) (i : Instr) (whole : Bool)
    (op : Spool → Spool → Word → Option (Spool × Word)) (hs : s.memOk) : (s.spoolIssue f i whole op).memOk := by
  refine memOk_onCore _ _ _ hs fun n => memOk_beginWait _ _ _ _ _ hs (testKeeps_spoolTest _ _ _) fun s n w hs => ?_
  rwa [State.memOk, mem_setWait]

theorem memOk_execTaglk (f : FmtQ) (s : State) {u : State} (hs : s.memOk) (h : execTaglk f s = .next u) :
    u.memOk := by
  grind [execTaglk, memOk_onCore, mem_doneQ]

theorem memOk_execTagset (f : FmtQ) (s : State) {u : State} (hs : s.memOk) (h : execTagset f s = .next u) :
    u.memOk := by
  grind [execTagset, memOk_onCore, mem_doneQ, modFg_mem]

theorem memOk_execTagclr (f : FmtQ) (s : State) {u : State} (hs : s.memOk) (h : execTagclr f s = .next u) :
    u.memOk := by
  grind [execTagclr, memOk_onCore, mem_doneQ, modFg_mem]

theorem memOk_execTagclrAll (f : FmtQ) (s : State) {u : State} (hs : s.memOk) (h : execTagclrAll f s = .next u) :
    u.memOk := by
  grind [execTagclrAll, memOk_onCore, mem_doneQ, modFg_mem]

theorem memOk_execTagvic (f : FmtQ) (s : State) {u : State} (hs : s.memOk) (h : execTagvic f s = .next u) :
    u.memOk := by
  grind [execTagvic, memOk_onCore, mem_doneQ, modFg_mem]

theorem memOk_execMark (f : FmtQ) (s : State) {u : State} (hs : s.memOk) (h : execMark f s = .next u) : u.memOk := by
  grind [execMark, memOk_onCore, retire_mem, setCore_mem]

theorem memOk_execCutrd (f : FmtQ) (s : State) {u : State} (hs : s.memOk) (h : execCutrd f s = .next u) :
    u.memOk := by
  grind [execCutrd, memOk_onCore, memOk_trapHere, mem_doneQ]

@[simp] theorem mem_tretNow (s : State) (n : Nat) (skip : Bool) : (s.tretNow n skip).mem = s.mem := by
  simp [State.tretNow]

@[simp] theorem testKeeps_tretTest (skip : Bool) : testKeeps (tretTest skip) := by
  intro s n w t hs h
  grind [tretTest, mem_tretNow]

@[simp] theorem lateKeeps_tretLate : lateKeeps tretLate := by
  intro s n w hs
  grind [tretLate, tick_mem, memOk_takeTrap]

theorem memOk_tret (s : State) (f : FmtQ) (i : Instr) (skip : Bool) (hs : s.memOk) : (s.tret f i skip).memOk := by
  grind [State.tret, memOk_onCore, memOk_trapHere, memOk_beginWait, testKeeps_tretTest, lateKeeps_tretLate]

theorem memOk_jump (s : State) (rd : BitVec 5) (len : Nat) (target : Word) (hs : s.memOk) :
    (s.jump rd len target).memOk := by
  grind [State.jump, memOk_trapHere, tick_mem, setPc_mem, setXr_mem]

theorem memOk_execRv64IntegerOp (o : RvOp) (e : RvEnc) (s : State) {u : State} (hs : s.memOk)
    (h : execRv64IntegerOp o e s = .next u) : u.memOk := by
  cases h
  cases o <;> grind [retire_mem, setXr_mem, memOk_jump]

theorem memOk_execScalarLoad (f : LoadF) (s : State) {u : State} (hs : s.memOk) (h : execScalarLoad f s = .next u) :
    u.memOk := by
  grind [execScalarLoad, memOk_onCore, memOk_trapHere, retire_mem, setXr_mem]

theorem memOk_execScalarStore (f : StoreF) (s : State) {u : State} (hs : s.memOk)
    (h : execScalarStore f s = .next u) : u.memOk := by
  grind [execScalarStore, memOk_onCore, memOk_trapHere, retire_mem, memOk_spadWrite]

theorem memOk_execFenceI (f : FenceF) (s : State) {u : State} (hs : s.memOk) (h : execFenceI f s = .next u) :
    u.memOk := by
  grind [execFenceI, memOk_onCore, retire_mem, setCore_mem]

theorem memOk_execEcall (s : State) {u : State} (hs : s.memOk) (h : execEcall s = .next u) : u.memOk := by
  grind [execEcall, memOk_onCore, memOk_trapHere, retire_mem, setXr_mem, setPort_mem, setCore_mem]

theorem memOk_breakAt (s : State) (len : Nat) (hs : s.memOk) : (s.breakAt len).memOk := by
  grind [State.breakAt, memOk_trapHere, modFg_mem]

theorem memOk_execCsrAccess (f : CsrF) (s : State) {u : State} (hs : s.memOk) (h : execCsrAccess f s = .next u) :
    u.memOk := by
  grind [execCsrAccess, memOk_trapHere, retire_mem, setXr_mem, setFg_mem, setThread_mem]

@[simp] theorem mem_bfmtLand (s : State) (n : Nat) (b : BfmtPend) : (s.bfmtLand n b).mem = s.mem := by
  simp [State.bfmtLand]

end Sys2Proof.Machine
end

section
/-! SUPPORT. What the memory system and the accesses of agents do with memory's canonical form. -/

namespace Sys2Proof.Machine

set_option Elab.async false

@[simp] theorem mem_cxlEvent (s : State) (a cause : Nat) : (s.cxlEvent a cause).mem = s.mem := by
  unfold State.cxlEvent
  split <;> simp

theorem memOk_storeBits (s : State) (cells part : List (Nat × Byte)) (fresh : Nat → Bool) (hs : s.memOk) :
    (s.storeBits cells part fresh).1.memOk :=
  memWriteCells_wf _ _ hs

theorem memOk_storeCells (s : State) (cells : List (Nat × Byte)) (fresh : Nat → Bool) (hs : s.memOk) :
    (s.storeCells cells fresh).1.memOk := by
  grind [State.storeCells, memOk_storeBits]

@[simp] theorem mem_mark (s : State) (as : List Nat) : (s.mark as).mem = s.mem := by
  simp [State.mark]

theorem memOk_writeCells (s : State) (cells : List (Nat × Byte)) (hs : s.memOk) : (s.writeCells cells).memOk :=
  memWriteCells_wf _ _ hs

@[simp] theorem mem_keepTlb (s : State) (n : Nat) (t : Tlb) : (s.keepTlb n t).mem = s.mem := by
  simp [State.keepTlb]

@[simp] theorem mem_translate (s : State) (n slot va need : Nat) : (s.translate n slot va need).2.mem = s.mem := by
  grind [State.translate, mem_keepTlb]

@[simp] theorem mem_fetchByte (s : State) (n : Nat) (va : Word) : (s.fetchByte n va).state.mem = s.mem := by
  grind [State.fetchByte, Fetch.state, mem_translate, setCore_mem, mem_cxlEvent]

@[simp] theorem mem_fetchN (s : State) (n : Nat) (va : Word) (k : Nat) : (s.fetchN n va k).state.mem = s.mem := by
  induction k generalizing s va with
  | zero => rfl
  | succ k ih => grind [State.fetchN, Fetch.state, mem_fetchByte]

@[simp] theorem mem_fetchAt (s : State) (n : Nat) (va : Word) : (s.fetchAt n va).state.mem = s.mem := by
  grind [State.fetchAt, Fetch.state, mem_fetchN]

theorem memOk_execInstructionFetch (s : State) {u : State} (hs : s.memOk) (h : execInstructionFetch s = .next u) :
    u.memOk := by
  grind [execInstructionFetch, Fetch.state, mem_fetchAt, tick_mem, memOk_takeTrap]

@[simp] theorem mem_dropTlb (s : State) (cls : List Nat) (f : Tlb → Bool) : (s.dropTlb cls f).mem = s.mem := by
  simp [State.dropTlb]

@[simp] theorem testKeeps_tlbinvTest (f : FmtD) (kind : Nat) : testKeeps (tlbinvTest f kind) := by
  intro s n w t hs h
  grind [tlbinvTest, memOk_doneD]

@[simp] theorem mem_tellTlb (s : State) (kind va asid : Nat) : (s.tellTlb kind va asid).mem = s.mem := by
  simp [State.tellTlb, mem_foldl]

@[simp] theorem mem_tlbAsked (s : State) (pkg kind va asid : Nat) : (s.tlbAsked pkg kind va asid).mem = s.mem := by
  simp [State.tlbAsked]

@[simp] theorem mem_tlbTaken (s : State) (pkg kind va asid : Nat) : (s.tlbTaken pkg kind va asid).mem = s.mem := by
  simp [State.tlbTaken]

@[simp] theorem mem_tlbAnswer (s : State) : s.tlbAnswer.mem = s.mem := by
  simp [State.tlbAnswer, mem_foldl]

theorem memOk_tlbinv (s : State) (f : FmtD) (i : Instr) (kind : Nat) (hs : s.memOk) : (s.tlbinv f i kind).memOk := by
  grind [State.tlbinv, memOk_onSup, mem_dropTlb, mem_tellTlb, memOk_beginWait, testKeeps_tlbinvTest, lateKeeps_lateD]

theorem memOk_execMatset (f : FmtQ) (s : State) {u : State} (hs : s.memOk) (h : execMatset f s = .next u) :
    u.memOk := by
  grind [execMatset, memOk_onSup, mem_doneQ]

theorem memOk_execHbmFrameBoundary (s : State) {u : State} (hs : s.memOk) (h : execHbmFrameBoundary s = .next u) :
    u.memOk := by
  grind [execHbmFrameBoundary, mem_mapCores]

theorem memOk_execSbset (f : FmtQ) (s : State) {u : State} (hs : s.memOk) (h : execSbset f s = .next u) :
    u.memOk := by
  grind [execSbset, memOk_onSup, mem_doneQ, setCore_mem]

@[simp] theorem mem_takeSlot (s : State) (st n : Nat) : (s.takeSlot st n).mem = s.mem := by
  simp [State.takeSlot]

theorem mem_takeReads (s : State) (n st k : Nat) {u : State} (h : s.takeReads n st k = some u) : u.mem = s.mem := by
  grind [State.takeReads]

@[simp] theorem mem_performed (s : State) (n : Nat) (e : SqEntry) (fl : BitVec 6) (bad : Option Nat) :
    (s.performed n e fl bad).mem = s.mem := by
  simp [State.performed]

@[simp] theorem mem_countAtom (s : State) (pa agent : Nat) : (s.countAtom pa agent).mem = s.mem := by
  unfold State.countAtom
  split <;> simp

theorem memOk_performStore (s : State) (n : Nat) (e : SqEntry) (fresh : Nat → Bool) (hs : s.memOk) :
    (s.performStore n e fresh).1.memOk := by
  grind [State.performStore, memOk_foldl, memOk_storeBits, memOk_atomsAt, mem_countAtom, memOk_spadWrite]

theorem memOk_performNext (s : State) (st n : Nat) (fresh : Nat → Bool) (hs : s.memOk) :
    (s.performNext st n fresh).memOk := by
  grind [State.performNext, memOk_performStore, setCore_mem, mem_performed]

@[simp] theorem mem_ackWrite (s : State) (p : FabPkt) (cause : Nat) (bad : Option Nat) :
    (s.ackWrite p cause bad).mem = s.mem := by
  simp [State.ackWrite]

@[simp] theorem mem_answerAtom (s : State) (p : FabPkt) (cause : Nat) (old : List Nat) (fl : BitVec 6)
    (bad : Option Nat) : (s.answerAtom p cause old fl bad).mem = s.mem := by
  simp [State.answerAtom]

theorem memOk_runAtom (s : State) (p : FabPkt) (a : Nat) (fresh : Nat → Bool) (hs : s.memOk) :
    (s.runAtom p a fresh).st.memOk := by
  grind [State.runAtom, memOk_atomsAt, mem_mark]

theorem memOk_performRemote (s : State) (x : InStore) (fresh : Nat → Bool) (hs : s.memOk) :
    (s.performRemote x fresh).memOk := by
  grind [State.performRemote, memOk_runAtom, mem_answerAtom, memOk_storeBits, mem_mark, mem_ackWrite]

theorem memOk_execStorePerformedInSlot (stack n : Nat) (bad : BitVec 4) (s : State) {u : State} (hs : s.memOk)
    (h : execStorePerformedInSlot stack n bad s = .next u) : u.memOk := by
  grind [execStorePerformedInSlot, memOk_performRemote, mem_takeSlot, memOk_performNext]

theorem memOk_execMigrationCheck (page : Nat) (s : State) {u : State} (hs : s.memOk)
    (h : execMigrationCheck page s = .next u) : u.memOk := by
  grind [execMigrationCheck, mem_nextFree]

theorem memOk_drainPage (s : State) (n old size : Nat) (hs : s.memOk) : (s.drainPage n old size).memOk := by
  grind [State.drainPage, memOk_foldl, memOk_performStore, mem_performed, setCore_mem]

theorem memOk_drainIn (s : State) (st k : Nat) (hs : s.memOk) : (s.drainIn st k).memOk := by
  induction k generalizing s with
  | zero => exact hs
  | succ k ih => grind [State.drainIn, memOk_performRemote]

theorem memOk_execMigrationSwitch (page : Nat) (s : State) {u : State} (hs : s.memOk)
    (h : execMigrationSwitch page s = .next u) : u.memOk := by
  cases h
  split
  · exact hs
  · next m _ =>
    extract_lets t v pte pte' x y z
    have ht : t.memOk := memOk_foldl _ (fun a c ha => memOk_drainPage _ _ _ _ ha) _ _ hs
    have hv : v.memOk := memOk_drainIn _ _ _ ht
    have hx : x.memOk := moveCells_wf _ _ _ _ hv
    have hy : y.memOk := memOk_putBytes _ _ _ hx
    have hz : z.memOk := memOk_of_mem (mem_dropTlb _ _ _) hy
    exact memOk_foldl _ (fun a c ha => memOk_of_mem (mem_inject _ _ _ _ _ _ _ _) ha) _ _ hz

@[simp] theorem mem_locate (s : State) (w : Who) (a : Int) (need : Nat) : (s.locate w a need).2.mem = s.mem := by
  grind [State.locate, mem_translate]

@[simp] theorem mem_readLoc (s : State) (w : Who) (a : Int) (l : Loc) : (s.readLoc w a l).2.mem = s.mem := by
  unfold State.readLoc
  cases l <;> grind [mem_cxlEvent]

@[simp] theorem mem_readVa (s : State) (w : Who) (a : Int) (k : Nat) : (s.readVa w a k).2.mem = s.mem := by
  induction k generalizing s a with
  | zero => rfl
  | succ k ih => grind [State.readVa, mem_locate, mem_readLoc]

theorem memOk_padCells (s : State) (core : Nat) (cells : List (Nat × Byte)) (pois : List Nat) (hs : s.memOk) :
    (s.padCells core cells pois).memOk := by
  grind [State.padCells, memOk_foldl, markDirty_mem, mem_mark, memOk_writeCells]

@[simp] theorem mem_queueStore (s : State) (n : Nat) (e : SqEntry) : (s.queueStore n e).mem = s.mem := by
  simp [State.queueStore]

theorem memOk_writePhys (s : State) (pa : Nat) (cells part : List (Nat × Byte)) (pois : List Nat) (hs : s.memOk) :
    (s.writePhys pa cells part pois).memOk := by
  grind [State.writePhys, mem_mark, memOk_storeBits, memOk_writeCells]

theorem memOk_writeVa (s : State) (w : Who) (a : Int) (cells part : List (Nat × Byte)) (pois : List Nat)
    (hs : s.memOk) : (s.writeVa w a cells part pois).state.memOk := by
  grind [State.writeVa, Wrote.state, mem_locate, memOk_padCells, mem_cxlEvent, memOk_writePhys, mem_injectWrite]

@[simp] theorem mem_hEntry (s : State) (slot k : Nat) : (s.hEntry slot k).2.mem = s.mem := by
  unfold State.hEntry
  split <;> simp

@[simp] theorem mem_readBits (s : State) (w : Who) (bit wd : Nat) : (s.readBits w bit wd).2.2.mem = s.mem := by
  grind [State.readBits, mem_readVa]

@[simp] theorem mem_boxReadGo (w : Who) (e : Hent) (org : List Int) (l : List Nat) (conv m k : Nat) (s : State) :
    (boxReadGo w e org l conv m k s).2.mem = s.mem := by
  induction m generalizing k s with
  | zero => rfl
  | succ m ih => grind [boxReadGo, mem_readBits]

@[simp] theorem mem_boxRead (s : State) (w : Who) (e : Hent) (org : List Int) (n : List Nat) (conv : Nat) :
    (s.boxRead w e org n conv).2.mem = s.mem := by
  grind [State.boxRead, mem_boxReadGo]

end Sys2Proof.Machine
end

section
/-! SUPPORT. What vector memory words and the sequencer's memory instructions do with memory's canonical form. -/

namespace Sys2Proof.Machine

set_option Elab.async false

@[simp] theorem mem_post (s : State) (n k pkg tgt ring : Nat) (cells : List (Nat × Byte)) :
    (s.post n k pkg tgt ring cells).mem = s.mem := by
  grind [State.post, setCore_mem, modFg_mem, mem_injectWrite]

theorem memOk_vStore (s : State) (n : Nat) (kd : VKind) (us : List VUnit) (v : VReg) (hs : s.memOk) :
    (s.vStore n kd us v).memOk := by
  unfold State.vStore
  split
  · exact memOk_padCells _ _ _ _ hs
  · exact memOk_foldl _ (fun t x ht => memOk_padCells _ _ _ _ ht) _ _ hs

@[simp] theorem effKeeps_vmEff (f : FmtVM) (kd : VKind) (load : Bool) : effKeeps (vmEff f kd load) := by
  intro s n q t p hs h
  unfold vmEff at h
  extract_lets x u w ea pr us zone store cross mis src data cl go away old own at h
  have hgo {r : Try} (hr : go r = .run t p) : r = .run t p := by
    simp only [go] at hr
    split at hr
    · cases hr
    · split at hr
      · cases hr
      · cases hr
      · exact hr
  have haway {k pkg tgt off : Nat} (h : away k pkg tgt off = .run t p) : t.memOk := by
    simp only [away] at h
    split at h
    · cases hgo h; exact hs
    · split at h
      · cases h
      · cases hgo h; rwa [State.memOk, mem_post]
  have hown {us : List VUnit} (h : own us = .run t p) : t.memOk := by
    simp only [own] at h
    split at h
    · cases h
    · split at h
      · split at h
        · cases hgo h
        · cases hgo h; exact hs
      · cases hgo h; exact memOk_vStore _ _ _ _ _ hs
  clear_value go away own mis
  split at h
  · cases h
  · split at h
    · cases h
    · split at h
      · exact hown h
      · exact hown h
      · exact haway h
      · exact haway h
      · cases h
      · split at h
        · exact hown h
        · cases h

theorem memOk_issueVM (s : State) (i : Instr) (f : FmtVM) (kd : VKind) (load : Bool) (hs : s.memOk) :
    (s.issueVM i f kd load).memOk :=
  memOk_issueEng _ _ _ _ _ _ _ _ _ hs (effKeeps_vmEff _ _ _)

@[simp] theorem mem_modOwner (s : State) (n own : Nat) (f : Ctx → Ctx) : (s.modOwner n own f).mem = s.mem := by
  simp [State.modOwner, apply_ite State.mem]

theorem memOk_performPost (s : State) (n : Nat) (p : Posted) (hs : s.memOk) : (s.performPost n p).1.memOk := by
  grind [State.performPost, memOk_padCells]

@[simp] theorem mem_postDone (s : State) (n i : Nat) (p : Posted) (bad : Option Nat) :
    (s.postDone n i p bad).mem = s.mem := by
  simp only [State.postDone]
  generalize (if p.win = 255 then none else bad) = c
  cases c <;> simp

theorem memOk_execPostedWritePerformed (n : Nat) (s : State) {u : State} (hs : s.memOk)
    (h : execPostedWritePerformed n s = .next u) : u.memOk := by
  grind [execPostedWritePerformed, mem_nextFree, memOk_performPost, mem_postDone]

theorem memOk_execPostedWriteAck (n w : Nat) (s : State) {u : State} (hs : s.memOk)
    (h : execPostedWriteAck n w s = .next u) : u.memOk := by
  grind [execPostedWriteAck, setCore_mem, mem_modOwner]

@[simp] theorem mem_endRead (s : State) (n : Nat) (v : VRead) (code detail : Nat) (bs : Option (List Byte)) :
    (s.endRead n v code detail bs).mem = s.mem := by
  unfold State.endRead
  split <;> simp

@[simp] theorem mem_refuseRead (s : State) (n : Nat) (v : VRead) (cause : Nat) (val : Word) :
    (s.refuseRead n v cause val).mem = s.mem := by
  simp [State.refuseRead]

@[simp] theorem mem_landRead (s : State) (n : Nat) (v : VRead) (r : ReadAns) : (s.landRead n v r).mem = s.mem := by
  unfold State.landRead
  split <;> simp

theorem mem_startRead (s : State) (n : Nat) (i : Instr) (q : QEntry) (loc pkg : Nat) (ans : Option ReadAns)
    (hent : Nat) (blk : List Byte) {p : Pending} {u : State} (h : s.startRead n i q loc pkg ans hent blk = .run u p) :
    u.mem = s.mem := by
  grind [State.startRead, setFg_mem]

@[simp] theorem effKeeps_vldwEff (f : FmtD) : effKeeps (vldwEff f) := by
  intro s n q t p hs h
  grind [vldwEff, mem_startRead, mem_inject]

@[simp] theorem effKeeps_vtrdEff (f : FmtD) : effKeeps (vtrdEff f) := by
  intro s n q t p hs h
  grind [vtrdEff, mem_hEntry, mem_startRead, mem_boxRead]

@[simp] theorem mem_vreadAnswer (s : State) (n : Nat) (v : VRead) : (s.vreadAnswer n v).2.2.mem = s.mem := by
  grind [State.vreadAnswer, mem_boxRead]

@[simp] theorem mem_replyRead (s : State) (n : Nat) (v : VRead) (a : ReadAns) (at_ : Word) :
    (s.replyRead n v a at_).mem = s.mem := by
  grind [State.replyRead, mem_landRead, modFg_mem]

@[simp] theorem mem_settleRead (s : State) (n id : Nat) : (s.settleRead n id).mem = s.mem := by
  grind [State.settleRead, mem_replyRead]

theorem memOk_issueRead (s : State) (i : Instr) (f : FmtD) (eff : Eff) (hs : s.memOk) (heff : effKeeps eff) :
    (s.issueRead i f eff).memOk := by
  grind [State.issueRead, memOk_issueEng, mem_settleRead]

@[simp] theorem testKeeps_dldTest (f : FmtD) : testKeeps (dldTest f) := by
  intro s n w t hs h
  grind [dldTest, memOk_finishDk, modFg_mem, tick_mem, memOk_takeTrap]

theorem memOk_execDld (f : FmtD) (s : State) {u : State} (hs : s.memOk) (h : execDld f s = .next u) : u.memOk := by
  grind [execDld, memOk_onCore, memOk_beginWait, testKeeps_dldTest, lateKeeps_lateD, memOk_trapHere, mem_locate,
    mem_inject]

theorem memOk_replyDld (s : State) (n : Nat) (f : FmtD) (w : Wait) (a : ReadAns) (hs : s.memOk) :
    (s.replyDld n f w a).memOk := by
  unfold State.replyDld
  dsimp only
  split
  · exact hs
  · cases h : dldTest f s n { w with ans := some a } with
    | none => exact hs
    | some u => exact testKeeps_dldTest _ _ _ _ _ hs h

theorem memOk_execReadReplyArrival (n k : Nat) (r : Option ReadAns) (s : State) {u : State} (hs : s.memOk)
    (h : execReadReplyArrival n k r s = .next u) : u.memOk := by
  simp only [execReadReplyArrival] at h
  cases h
  have hm := mem_vreadAnswer s n
  cases r with
  | some a => grind [memOk_replyDld, mem_replyRead]
  | none => grind [memOk_replyDld, mem_replyRead, mem_cxlEvent, mem_vreadAnswer]

theorem memOk_fenceReport (s : State) (n : Nat) (f : FmtD) (w : Wait) (p c detail : Nat) (hs : s.memOk) :
    (s.fenceReport n f w p c detail).memOk := by
  grind [State.fenceReport, memOk_doneD, setFg_mem]

@[simp] theorem testKeeps_fenceTest (f : FmtD) : testKeeps (fenceTest f) := by
  intro s n w t hs h
  grind [fenceTest, memOk_fenceReport]

@[simp] theorem lateKeeps_fenceLate (f : FmtD) : lateKeeps (fenceLate f) := by
  intro s n w hs
  grind [fenceLate, memOk_fenceReport]

theorem memOk_fence (s : State) (f : FmtD) (i : Instr) (hs : s.memOk) : (s.fence f i).memOk := by
  grind [State.fence, memOk_onCore, memOk_beginWait, testKeeps_fenceTest, lateKeeps_fenceLate]

end Sys2Proof.Machine
end

section
/-! SUPPORT. What barriers, launches and the Mangle do with memory's canonical form. -/

namespace Sys2Proof.Machine

set_option Elab.async false

@[simp] theorem mem_setBar (s : State) (b : Bar) : (s.setBar b).mem = s.mem := by
  simp [State.setBar]

@[simp] theorem mem_barAnswer (s : State) (k : BarKey) (g : Nat) (a : BarAns) : (s.barAnswer k g a).mem = s.mem := by
  grind [State.barAnswer, mem_tellPkg]

@[simp] theorem mem_closePhase (s : State) (b : Bar) (a : BitVec 16 → BarAns) (except : Nat → Bool) :
    (s.closePhase b a except).mem = s.mem := by
  simp [State.closePhase, mem_foldl]

@[simp] theorem mem_arrive (s : State) (a : BarArr) : (s.arrive a).mem = s.mem := by
  grind [State.arrive, mem_barAnswer, mem_setBar, mem_closePhase]

theorem memOk_execBarrierArrivalAtHome (a : BarArr) (s : State) {u : State} (hs : s.memOk)
    (h : execBarrierArrivalAtHome a s = .next u) : u.memOk := by
  grind [execBarrierArrivalAtHome, mem_arrive]

@[simp] theorem mem_withdraw (s : State) (w : BarWdr) : (s.withdraw w).mem = s.mem := by
  grind [State.withdraw, mem_barAnswer, mem_setBar]

theorem memOk_execBarrierWithdrawalAtHome (w : BarWdr) (s : State) {u : State} (hs : s.memOk)
    (h : execBarrierWithdrawalAtHome w s = .next u) : u.memOk := by
  grind [execBarrierWithdrawalAtHome, mem_withdraw]

@[simp] theorem mem_sendArrival (s : State) (k : BarKey) (g : Nat) (n : BitVec 32) (wait : Bool) :
    (s.sendArrival k g n wait).mem = s.mem := by
  unfold State.sendArrival
  split <;> simp

@[simp] theorem mem_sendWithdrawal (s : State) (g : Nat) (r : BarRec) : (s.sendWithdrawal g r).mem = s.mem := by
  unfold State.sendWithdrawal
  split <;> simp

@[simp] theorem mem_withdrawAll (s : State) (n : Nat) : (s.withdrawAll n).mem = s.mem := by
  simp [State.withdrawAll, mem_foldl]

@[simp] theorem mem_breakPhase (s : State) (k : BarKey) (g : Nat) : (s.breakPhase k g).mem = s.mem := by
  grind [State.breakPhase, mem_closePhase]

@[simp] theorem mem_breakBars (s : State) (c : Ctx) : (s.breakBars c).mem = s.mem := by
  grind [State.breakBars, mem_foldl, mem_breakPhase, mem_tellPkg]

@[simp] theorem testKeeps_barTest : testKeeps barTest := by
  intro s n w t hs h
  grind [barTest]

@[simp] theorem lateKeeps_barLate (sc : Nat) : lateKeeps (barLate sc) := by
  intro s n w hs
  grind [barLate, mem_setWait, mem_sendWithdrawal]

theorem memOk_execBar (f : FmtD) (s : State) {u : State} (hs : s.memOk) (h : execBar f s = .next u) : u.memOk := by
  grind [execBar, memOk_onCore, memOk_finishDk, mem_sendArrival, setFg_mem, memOk_beginWait, testKeeps_barTest,
    lateKeeps_barLate]

theorem memOk_execBara (f : FmtQ) (s : State) {u : State} (hs : s.memOk) (h : execBara f s = .next u) : u.memOk := by
  grind [execBara, memOk_onCore, mem_doneQ, mem_sendArrival, setFg_mem, retire_mem]

theorem memOk_execBarw (f : FmtD) (s : State) {u : State} (hs : s.memOk) (h : execBarw f s = .next u) : u.memOk := by
  grind [execBarw, memOk_onCore, memOk_finishDk, modFg_mem, setFg_mem, memOk_beginWait, testKeeps_barTest,
    lateKeeps_barLate]

theorem memOk_execBarx (f : FmtQ) (s : State) {u : State} (hs : s.memOk) (h : execBarx f s = .next u) : u.memOk := by
  grind [execBarx, memOk_onCore, mem_doneQ, setFg_mem, retire_mem, mem_sendWithdrawal]

theorem memOk_barReplyCore (s : State) (n : Nat) (k : BarKey) (a : BarAns) (hs : s.memOk) :
    (s.barReplyCore n k a).memOk := by
  grind [State.barReplyCore, modFg_mem, memOk_finishDk]

theorem memOk_execBarrierReply (r : BarReply) (s : State) {u : State} (hs : s.memOk)
    (h : execBarrierReply r s = .next u) : u.memOk := by
  grind [execBarrierReply, memOk_barReplyCore]

@[simp] theorem mem_setLaunch (s : State) (l : Launch) : (s.setLaunch l).mem = s.mem := by
  simp [State.setLaunch]

theorem mem_accept (s : State) (job grp : Nat) (d : Desc) {k' : Nat} {u : State}
    (h : s.accept job grp d = some (k', u)) : u.mem = s.mem := by
  grind [State.accept, mem_nextFree, setJob_mem]

@[simp] theorem mem_handShare (s : State) (l : Launch) (p : Nat × Nat) (lo n : Nat) :
    (s.handShare l p lo n).mem = s.mem := by
  unfold State.handShare
  split <;> simp

@[simp] theorem mem_divideOver (s : State) (l : Launch) (us : List ((Nat × Nat) × Nat))
    (put : Launch → Nat → Nat → Nat → Launch) : (s.divideOver l us put).mem = s.mem := by
  grind [State.divideOver, mem_foldl, mem_setLaunch, mem_handShare]

@[simp] theorem mem_divide (s : State) (l : Launch) : (s.divide l).mem = s.mem := by
  grind [State.divide, mem_divideOver, mem_setLaunch]

@[simp] theorem mem_setSlot (s : State) (cl k : Nat) (v : NSlot) : (s.setSlot cl k v).mem = s.mem := by
  simp [State.setSlot]

@[simp] theorem mem_decDep (s : State) (cl slot amt : Nat) : (s.decDep cl slot amt).1.mem = s.mem := by
  simp [State.decDep]

@[simp] theorem mem_sendDep (s : State) (dep : Word) : (s.sendDep dep).mem = s.mem := by
  grind [State.sendDep, mem_inject]

@[simp] theorem mem_answerSig (s : State) (x : Sig) (code v : Nat) : (s.answerSig x code v).mem = s.mem := by
  unfold State.answerSig
  split <;> simp

theorem memOk_execDepCounterDecrement (cl slot amt : Nat) (s : State) {u : State} (hs : s.memOk)
    (h : execDepCounterDecrement cl slot amt s = .next u) : u.memOk := by
  grind [execDepCounterDecrement, mem_decDep, event_mem, mem_answerSig]

theorem mem_runTile (s : State) (n t : Nat) (l : List (Nat × Nat)) (pz : Bool) (f : Nat → Nat → Nat) {p : Pending}
    {u : State} (h : runTile s n t l pz f = .run u p) : u.mem = s.mem := by
  grind [runTile, modFg_mem]

@[simp] theorem mem_mmaBlock (s : State) (n : Nat) (p : Pending) (o : MmaOp) (ovw : Bool) (q : Nat) :
    (s.mmaBlock n p o ovw q).1.mem = s.mem := by
  grind [State.mmaBlock, modFg_mem]

@[simp] theorem mem_rampStep (s : State) (n : Nat) : (s.rampStep n).mem = s.mem := by
  unfold State.rampStep
  split <;> simp

@[simp] theorem mem_mmaStep (s0 : State) (n : Nat) (p : Pending) (o : MmaOp) (ovw : Bool) (st : Nat) :
    (s0.mmaStep n p o ovw st).1.mem = s0.mem := by
  unfold State.mmaStep
  split <;> simp

@[simp] theorem mem_mmaCycle (s : State) (n : Nat) (p : Pending) (o : MmaOp) (ovw : Bool) :
    (s.mmaCycle n p o ovw).1.mem = s.mem := by
  grind [State.mmaCycle, mem_mmaStep]

@[simp] theorem mem_mmaDrain (n : Nat) (o : MmaOp) (ovw : Bool) (k : Nat) (x : State × Pending) :
    (mmaDrain n o ovw k x).1.mem = x.1.mem := by
  induction k generalizing x with
  | zero => rfl
  | succ k ih => grind [mmaDrain, mem_mmaStep]

@[simp] theorem effKeeps_mmaEff (f : FmtM) (ovw : Bool) : effKeeps (mmaEff f ovw) := by
  intro s n q t p hs h
  simp only [mmaEff, withTile, badStart, tilePoison] at h
  grind [modFg_mem]

@[simp] theorem effKeeps_mzeroEff (f : FmtM) : effKeeps (mzeroEff f) := by
  intro s n q t p hs h
  simp only [mzeroEff, withTile] at h
  grind [mem_runTile, modFg_mem]

@[simp] theorem effKeeps_mcfgEff (f : FmtM) : effKeeps (mcfgEff f) := by
  intro s n q t p hs h
  simp only [mcfgEff] at h
  grind [mem_runTile, modFg_mem]

@[simp] theorem effKeeps_mgetrEff (f : FmtM) : effKeeps (mgetrEff f) := by
  intro s n q t p hs h
  simp only [mgetrEff, withTile, badStart, tilePoison] at h
  grind [mem_runTile, modFg_mem]

@[simp] theorem effKeeps_msetrEff (f : FmtM) : effKeeps (msetrEff f) := by
  intro s n q t p hs h
  simp only [msetrEff, withTile, badStart] at h
  grind [mem_runTile, modFg_mem]

@[simp] theorem effKeeps_mgetcEff (f : FmtM) : effKeeps (mgetcEff f) := by
  intro s n q t p hs h
  simp only [mgetcEff, withTile, badStart, tilePoison] at h
  grind [mem_runTile, modFg_mem]

@[simp] theorem effKeeps_msetcEff (f : FmtM) : effKeeps (msetcEff f) := by
  intro s n q t p hs h
  simp only [msetcEff, withTile, badStart] at h
  grind [mem_runTile, modFg_mem]

@[simp] theorem effKeeps_mloadEff (f : FmtM) : effKeeps (mloadEff f) := by
  intro s n q t p hs h
  simp only [mloadEff, withTile, badStart] at h
  grind [mem_runTile, modFg_mem]

@[simp] theorem mem_mloadCycle (s : State) (n : Nat) (p : Pending) (f : FmtM) :
    (s.mloadCycle n p f).1.mem = s.mem := by
  grind [State.mloadCycle, modFg_mem]

theorem memOk_drainPiece (s : State) (n : Nat) (l : List (Nat × List Byte)) (hs : s.memOk) :
    (s.drainPiece n l).memOk := by
  grind [State.drainPiece, memOk_foldl, memOk_spadWrite]

@[simp] theorem effKeeps_mdrainEff (f : FmtM) : effKeeps (mdrainEff f) := by
  intro s n q t p hs h
  simp only [mdrainEff, withTile, badStart, tilePoison] at h
  grind [memOk_foldl, memOk_drainPiece, modFg_mem]

theorem memOk_workCycle (s : State) (n : Nat) (p : Pending) (hs : s.memOk) : (s.workCycle n p).1.memOk := by
  grind [State.workCycle, memOk_drainPiece, mem_mloadCycle, mem_mmaCycle]

@[simp] theorem mem_loadDrain (n : Nat) (f : FmtM) (k : Nat) (x : State × Pending) :
    (loadDrain n f k x).1.mem = x.1.mem := by
  induction k generalizing x with
  | zero => rfl
  | succ k ih => grind [loadDrain, mem_mloadCycle]

theorem memOk_drainWork (s : State) (n : Nat) (p : Pending) (hs : s.memOk) : (s.drainWork n p).1.memOk := by
  grind [State.drainWork, memOk_foldl, memOk_drainPiece, mem_loadDrain, mem_mmaDrain]

@[simp] theorem effKeeps_mhadEff (f : FmtM) (row : Bool) : effKeeps (mhadEff f row) := by
  intro s n q t p hs h
  simp only [mhadEff, withTile, badStart, tilePoison] at h
  grind [mem_runTile, modFg_mem]

@[simp] theorem effKeeps_mcopyEff (f : FmtM) (plus : Bool) : effKeeps (mcopyEff f plus) := by
  intro s n q t p hs h
  simp only [mcopyEff, withTile, badStart, tilePoison] at h
  grind [mem_runTile, modFg_mem]

@[simp] theorem effKeeps_mcbldEff (f : FmtM) : effKeeps (mcbldEff f) := by
  intro s n q t p hs h
  simp only [mcbldEff, badStart] at h
  grind [mem_runTile, modFg_mem]

@[simp] theorem effKeeps_mbindEff (f : FmtM) : effKeeps (mbindEff f) := by
  intro s n q t p hs h
  simp only [mbindEff] at h
  grind [mem_runTile, modFg_mem]

theorem effKeeps_mtEff {i : Instr} {eff : Eff} (h : mtEff i = some eff) : effKeeps eff := by
  unfold mtEff at h
  split at h <;> cases h
  · exact effKeeps_mmaEff _ _
  · exact effKeeps_mmaEff _ _
  · exact effKeeps_mmaEff _ _
  · exact effKeeps_mmaEff _ _
  · exact effKeeps_mzeroEff _
  · exact effKeeps_mcfgEff _
  · exact effKeeps_mgetrEff _
  · exact effKeeps_msetrEff _
  · exact effKeeps_mgetcEff _
  · exact effKeeps_msetcEff _
  · exact effKeeps_mloadEff _
  · exact effKeeps_mhadEff _ _
  · exact effKeeps_mhadEff _ _
  · exact effKeeps_mdrainEff _
  · exact effKeeps_mcbldEff _
  · exact effKeeps_mbindEff _
  · exact effKeeps_mcopyEff _ _
  · exact effKeeps_mcopyEff _ _

theorem memOk_issueM (s : State) (i : Instr) (f : FmtM) (eff : Eff) (hs : s.memOk) (heff : effKeeps eff) :
    (s.issueM i f eff).memOk :=
  memOk_issueEng _ _ _ _ _ _ _ _ _ hs heff

end Sys2Proof.Machine
end

section
/-! SUPPORT. What copy packets do with memory's canonical form, piece by piece. -/

namespace Sys2Proof.Machine

set_option Elab.async false

@[simp] theorem mem_readPlain (s : State) (w : Who) (f : EFmt) (cb : List Nat) (a : Int) (k m : Nat) :
    (s.readPlain w f cb a k m).2.mem = s.mem := by
  grind [State.readPlain, mem_readVa]

@[simp] theorem mem_readRaw (s : State) (w : Who) (f : EFmt) (a b : Nat) : (s.readRaw w f a b).2.mem = s.mem := by
  grind [State.readRaw, mem_readVa]

@[simp] theorem mem_readBlock (s : State) (w : Who) (f : EFmt) (cb : List Nat) (a b : Nat) (st : FpSt) :
    (s.readBlock w f cb a b st).2.mem = s.mem := by
  simp [State.readBlock]

@[simp] theorem mem_readBlocks (w : Who) (f : EFmt) (cb : List Nat) (a k b : Nat) (s : State) :
    (readBlocks w f cb a k b s).2.mem = s.mem := by
  induction k generalizing b s with
  | zero => rfl
  | succ k ih => simp [readBlocks, ih]

@[simp] theorem mem_readEls (s : State) (w : Who) (f : EFmt) (cb : List Nat) (a k m : Nat) :
    (s.readEls w f cb a k m).2.mem = s.mem := by
  grind [State.readEls, mem_readPlain, mem_readBlocks]

theorem mem_markHold (s : State) (x : Cx) (ord : Nat) (a : Int) (need : Nat) {u : State}
    (h : s.markHold x ord a need = some u) : u.mem = s.mem := by
  grind [State.markHold, mem_locate, setCore_mem]

theorem mem_readSlots (s : State) (x : Cx) (a : Int) (k : Nat) {u : State} (h : s.readSlots x a k = some u) :
    u.mem = s.mem := by
  grind [State.readSlots, mem_locate, mem_takeReads]

theorem memOk_readPiece (x : Cx) (base a : Int) (k : Nat) (s : State) (q : QEntry) (go : Got → State → QEntry → PRes)
    (hs : s.memOk) (hgo : ∀ e t u, State.memOk t → (go e t u).state.memOk) :
    (readPiece x base a k s q go).state.memOk := by
  unfold readPiece
  split
  · exact hs
  · split
    · exact hs
    · next u hu =>
      obtain ⟨v, hv, hvu⟩ := Option.bind_eq_some_iff.1 hu
      have hk : (u.readVa x.who a k).2.memOk := by
        rwa [State.memOk, mem_readVa, mem_readSlots _ _ _ _ hvu, mem_markHold _ _ _ _ _ hv]
      dsimp only
      split
      · exact hk
      · exact hgo _ _ _ hk

theorem mem_flushAgg (s : State) (x : Cx) (q : QEntry) {q' : QEntry} {u : State} (h : s.flushAgg x q = some (u, q')) :
    u.mem = s.mem := by
  grind [State.flushAgg, mem_foldl, mem_queueStore, mem_injectWrite]

theorem memOk_gather (x : Cx) (key : Nat) (cells part : List (Nat × Byte)) (pois : List Nat) (page : Option Tlb)
    (last : Bool) (a : Int) (s : State) (q : QEntry) (go : State → QEntry → PRes) (hs : s.memOk)
    (hgo : ∀ t u, State.memOk t → (go t u).state.memOk) :
    (gather x key cells part pois page last a s q go).state.memOk := by
  grind [gather, PRes.state, mem_flushAgg]

theorem memOk_writeVaThen {s : State} {w : Who} {a : Int} {cells part : List (Nat × Byte)} {pois : List Nat}
    {q : QEntry} {go : State → QEntry → PRes} (hs : s.memOk)
    (hgo : ∀ t u, State.memOk t → (go t u).state.memOk) :
    (match s.writeVa w a cells part pois with
        | .ok s => go s { q with fullAt := none }
        | .fault c s => PRes.stop s q c (wOfInt a)).state.memOk := by
  have hw := memOk_writeVa s w a cells part pois hs
  split
  · next h => rw [h] at hw; exact hgo _ _ hw
  · next h => rw [h] at hw; exact hw

theorem mem_farEntry (s : State) (x : Cx) (n ord pkg b : Nat) (page : Option Tlb) {u : State}
    (h : s.farEntry x n ord pkg b page = some u) : u.mem = s.mem := by
  grind [State.farEntry, setCore_mem]

theorem memOk_putCells (x : Cx) (w : Who) (base a : Int) (cells part : List (Nat × Byte)) (pois : List Nat)
    (last : Nat → Bool) (s : State) (q : QEntry) (go : State → QEntry → PRes) (hs : s.memOk)
    (hgo : ∀ t u, State.memOk t → (go t u).state.memOk) :
    (putCells x w base a cells part pois last s q go).state.memOk := by
  unfold putCells
  split
  · exact hs
  · split
    · exact hs
    · next u hu =>
      have hu : u.memOk := by rwa [State.memOk, mem_markHold _ _ _ _ _ hu]
      have hl (l : Loc) (t : State) (h : u.locate w a needW = (l, t)) : t.memOk := by
        rwa [State.memOk, show t = (u.locate w a needW).2 by rw [h], mem_locate]
      dsimp only
      split
      · next h _ =>
        split
        · split
          · exact hl _ _ h
          · exact memOk_gather _ _ _ _ _ _ _ _ _ _ _ (hl _ _ h) hgo
        · exact memOk_writeVaThen hu hgo
      · next h _ =>
        split
        · exact hu
        · next e =>
          have hf := memOk_of_mem (mem_farEntry _ _ _ _ _ _ _ e) (hl _ _ h)
          exact memOk_gather _ _ _ _ _ _ _ _ _ _ _ hf hgo
      · next h _ => exact memOk_gather _ _ _ _ _ _ _ _ _ _ _ (hl _ _ h) hgo
      · exact memOk_writeVaThen hu hgo

theorem memOk_writeUnit (x : Cx) (d k : Nat) (cells : List (Nat × Byte)) (pois : List Nat) (s : State) (q : QEntry)
    (go : State → QEntry → PRes) (hs : s.memOk) (hgo : ∀ t u, State.memOk t → (go t u).state.memOk) :
    (writeUnit x d k cells pois s q go).state.memOk := by
  unfold writeUnit
  exact memOk_putCells _ _ _ _ _ _ _ _ _ _ _ hs hgo

theorem memOk_pieceDone (r : Nat) (s : State) (q : QEntry) (hs : s.memOk) : (pieceDone r s q).state.memOk := by
  grind [pieceDone, PRes.state]

theorem memOk_rawPiece (x : Cx) (p : Packet) (s : State) (q : QEntry) (hs : s.memOk) :
    (rawPiece x p s q).state.memOk := by
  grind [rawPiece, PRes.state, memOk_readPiece, memOk_writeUnit, memOk_pieceDone]

theorem memOk_writeBlock (x : Cx) (fd : EFmt) (a b : Nat) (codes : List Nat) (sc : Nat) (pz : Bool) (s : State)
    (q : QEntry) (go : State → QEntry → PRes) (hs : s.memOk) (hgo : ∀ t u, State.memOk t → (go t u).state.memOk) :
    (writeBlock x fd a b codes sc pz s q go).state.memOk := by
  unfold writeBlock
  dsimp only
  split
  · exact hs
  · exact hgo _ _ (memOk_padCells _ _ _ _ (memOk_padCells _ _ _ _ hs))

theorem memOk_elsPiece (x : Cx) (f : EFmt) (a k m : Nat) (s : State) (q : QEntry) (go : Els → State → QEntry → PRes)
    (hs : s.memOk) (hgo : ∀ e t u, State.memOk t → (go e t u).state.memOk) :
    (elsPiece x f a k m s q go).state.memOk := by
  grind [elsPiece, PRes.state, mem_readEls]

theorem memOk_convBlocks (x : Cx) (f : EFmt) (cb : List Nat) (a m b : Nat) (e : Els) (s : State) (q : QEntry)
    (go : Els → State → QEntry → PRes) (hs : s.memOk) (hgo : ∀ e t u, State.memOk t → (go e t u).state.memOk) :
    (convBlocks x f cb a m b e s q go).state.memOk := by
  induction m generalizing b e s q with
  | zero => exact hgo _ _ _ hs
  | succ m ih => grind [convBlocks, PRes.state, mem_readRaw]

theorem memOk_convEls (x : Cx) (f : EFmt) (a k m : Nat) (s : State) (q : QEntry) (go : Els → State → QEntry → PRes)
    (hs : s.memOk) (hgo : ∀ e t u, State.memOk t → (go e t u).state.memOk) :
    (convEls x f a k m s q go).state.memOk := by
  unfold convEls
  split
  · exact memOk_elsPiece _ _ _ _ _ _ _ _ hs hgo
  · exact memOk_convBlocks _ _ _ _ _ _ _ _ _ _ hs fun e t u ht => hgo _ _ _ ht

theorem memOk_convPiece (x : Cx) (p : Packet) (fs fd : EFmt) (s : State) (q : QEntry) (hs : s.memOk) :
    (convPiece x p fs fd s q).state.memOk := by
  grind [convPiece, PRes.state, memOk_convEls, memOk_writeUnit, memOk_pieceDone, memOk_writeBlock]

theorem memOk_copyPiece (x : Cx) (p : Packet) (s : State) (q : QEntry) (hs : s.memOk) :
    (copyPiece x p s q).state.memOk := by
  grind [copyPiece, PRes.state, memOk_convPiece, memOk_rawPiece]

theorem memOk_fillPiece (x : Cx) (p : Packet) (s : State) (q : QEntry) (hs : s.memOk) :
    (fillPiece x p s q).state.memOk := by
  grind [fillPiece, PRes.state, memOk_writeUnit, memOk_pieceDone]

theorem memOk_putOld (s : State) (x : Cx) (res : Option Nat) (old : List Nat) (es : Nat) (hs : s.memOk) :
    (s.putOld x res old es).memOk := by
  unfold State.putOld
  split
  · split
    · exact memOk_putBytes _ _ _ hs
    · exact memOk_spadWrite _ _ _ _ hs
  · exact hs

theorem memOk_atomPiece (x : Cx) (op ty cmp : Nat) (a : Int) (bs : List Byte) (pois : List Nat) (res : Option Nat)
    (s : State) (q : QEntry) (go : State → QEntry → PRes) (hs : s.memOk)
    (hgo : ∀ t u, State.memOk t → (go t u).state.memOk) :
    (atomPiece x op ty cmp a bs pois res s q go).state.memOk := by
  unfold atomPiece
  dsimp only
  split
  · exact hs
  · next u hu =>
    have hu : u.memOk := by rwa [State.memOk, mem_markHold _ _ _ _ _ hu]
    have hl : (u.locate x.who a needAt).2.memOk := by rwa [State.memOk, mem_locate]
    generalize u.locate x.who a needAt = l at hl
    obtain ⟨l, t⟩ := l
    dsimp only at hl
    cases l <;> grind [PRes.state, memOk_atomsAt, mem_mark, memOk_putOld, markDirty_mem, mem_cxlEvent, mem_queueStore,
        mem_countAtom, mem_injectWith, mem_farEntry]

theorem memOk_accwPiece (x : Cx) (p : Packet) (s : State) (q : QEntry) (hs : s.memOk) :
    (accwPiece x p s q).state.memOk := by
  grind [accwPiece, PRes.state, memOk_readPiece, memOk_atomPiece, memOk_pieceDone]

theorem memOk_fopPiece (x : Cx) (p : Packet) (s : State) (q : QEntry) (hs : s.memOk) :
    (fopPiece x p s q).state.memOk := by
  grind [fopPiece, PRes.state, memOk_atomPiece, memOk_pieceDone]

theorem memOk_casPiece (x : Cx) (p : Packet) (s : State) (q : QEntry) (hs : s.memOk) :
    (casPiece x p s q).state.memOk := by
  grind [casPiece, PRes.state, memOk_atomPiece, memOk_pieceDone]

theorem memOk_redPiece (x : Cx) (p : Packet) (s : State) (q : QEntry) (hs : s.memOk) :
    (redPiece x p s q).state.memOk := by
  grind [redPiece, PRes.state, memOk_readPiece, memOk_writeUnit, memOk_pieceDone]

theorem memOk_writeRun (x : Cx) (base a : Int) (bs : List Byte) (pois : List Nat) (r fuel : Nat) (s : State)
    (q : QEntry) (hs : s.memOk) : (writeRun x base a bs pois r fuel s q).state.memOk := by
  induction fuel generalizing s q with
  | zero => exact memOk_pieceDone _ _ _ hs
  | succ k ih =>
    unfold writeRun
    have hput := memOk_putCells x x.who base
    grind [memOk_pieceDone, PRes.state]

theorem memOk_boxBlocks (x : Cx) (fs fd : EFmt) (cbS cbD : List Nat) (a : Nat) (b : TBox) (els pois : List Nat)
    (m j : Nat) (s : State) (q : QEntry) (hs : s.memOk) :
    (boxBlocks x fs fd cbS cbD a b els pois m j s q).state.memOk := by
  induction m generalizing j s q with
  | zero => exact memOk_pieceDone _ _ _ hs
  | succ k ih => grind [boxBlocks, memOk_writeBlock, PRes.state]

theorem memOk_deliver (x : Cx) (hf : BitVec 5) (a n0 : Nat) (b : TBox) (r : Box) (s : State) (q : QEntry)
    (hs : s.memOk) : (deliver x hf a n0 b r s q).state.memOk := by
  grind [deliver, PRes.state, memOk_writeRun, memOk_boxBlocks]

theorem memOk_stale (s : State) (q : QEntry) (hs : s.memOk) : (stale s q).state.memOk := by
  grind [stale, PRes.state]

theorem memOk_boxAt (x : Cx) (hdl : Word) (count : BitVec 5 → Option Nat) (s : State) (q : QEntry)
    (go : Hent → State → QEntry → PRes) (hs : s.memOk) (hgo : ∀ e t u, State.memOk t → (go e t u).state.memOk) :
    (boxAt x hdl count s q go).state.memOk := by
  grind [boxAt, PRes.state, mem_hEntry, memOk_stale]

theorem mem_boxSlots (s : State) (x : Cx) (e : Hent) (els : Nat) {u : State} (h : s.boxSlots x e els = some u) :
    u.mem = s.mem := by
  grind [State.boxSlots, mem_readSlots]

theorem mem_heldBoxSlots {s u : State} {x : Cx} {e : Hent} {k ord need : Nat} {a : Int}
    (h : (s.markHold x ord a need).bind (fun s => s.boxSlots x e k) = some u) : u.mem = s.mem := by
  obtain ⟨v, hv, hu⟩ := Option.bind_eq_some_iff.1 h
  rw [mem_boxSlots _ _ _ _ hu, mem_markHold _ _ _ _ _ hv]

theorem memOk_tcopyRdPiece (x : Cx) (p : Packet) (s : State) (q : QEntry) (hs : s.memOk) :
    (tcopyRdPiece x p s q).state.memOk := by
  unfold tcopyRdPiece
  refine memOk_boxAt _ _ _ _ _ _ hs fun e t u ht => ?_
  dsimp only
  split
  · exact ht
  · next v hv =>
    have hv : v.memOk := by rwa [State.memOk, mem_heldBoxSlots hv]
    split
    · rwa [State.memOk, PRes.state, mem_boxRead]
    · exact memOk_deliver _ _ _ _ _ _ _ _ (by rwa [State.memOk, mem_boxRead])

theorem memOk_im2Piece (x : Cx) (p : Packet) (s : State) (q : QEntry) (hs : s.memOk) :
    (im2Piece x p s q).state.memOk := by
  unfold im2Piece
  refine memOk_boxAt _ _ _ _ _ _ hs fun e t u ht => ?_
  dsimp only
  split
  · exact ht
  · next v hv =>
    have hv : v.memOk := by rwa [State.memOk, mem_heldBoxSlots hv]
    generalize hr : List.foldl _ _ _ = r
    have hr : r.2.memOk := by
      rw [← hr]
      refine List.foldlRecOn (motive := fun b : Box × State => b.2.memOk) _ _ hv fun b hb j _ => ?_
      split
      · exact hb
      · rwa [State.memOk, mem_boxRead]
    split
    · exact hr
    · exact memOk_deliver _ _ _ _ _ _ _ _ hr

theorem memOk_writeBox (x : Cx) (m : BoxMem) (pois : List Nat) (bl : List Nat) (fuel : Nat) (s : State) (q : QEntry)
    (hs : s.memOk) : (writeBox x m pois bl fuel s q).state.memOk := by
  induction fuel generalizing s q with
  | zero => exact memOk_pieceDone _ _ _ hs
  | succ k ih => grind [writeBox, memOk_pieceDone, memOk_putCells, PRes.state]

theorem memOk_fetchBox (x : Cx) (hf : BitVec 5) (a n0 : Nat) (b : TBox) (k : Nat) (s : State) (q : QEntry)
    (go : List Nat → List Nat → State → QEntry → PRes) (hs : s.memOk)
    (hgo : ∀ e d t u, State.memOk t → (go e d t u).state.memOk) : (fetchBox x hf a n0 b k s q go).state.memOk := by
  unfold fetchBox
  dsimp only
  split
  · exact memOk_elsPiece _ _ _ _ _ _ _ _ hs fun e t u ht => hgo _ _ _ _ ht
  · exact memOk_readPiece _ _ _ _ _ _ _ hs fun e t u ht => hgo _ _ _ _ ht

theorem memOk_tcopyWrPiece (x : Cx) (p : Packet) (s : State) (q : QEntry) (hs : s.memOk) :
    (tcopyWrPiece x p s q).state.memOk := by
  grind [tcopyWrPiece, PRes.state, memOk_boxAt, memOk_fetchBox, memOk_writeBox]

@[simp] theorem mem_sendTiles (s : State) (x : Cx) (p : Packet) (ord : Nat) (bs : List Byte) (pois : List Nat)
    (to' : List (Nat × Nat)) : (s.sendTiles x p ord bs pois to').mem = s.mem := by
  grind [State.sendTiles, mem_foldl, setCore_mem]

theorem memOk_mcastPiece (x : Cx) (p : Packet) (am : Bool) (s : State) (q : QEntry) (hs : s.memOk) :
    (mcastPiece x p am s q).state.memOk := by
  grind [mcastPiece, PRes.state, memOk_readPiece, memOk_pieceDone, mem_sendTiles]

theorem memOk_spfillPiece (x : Cx) (p : Packet) (s : State) (q : QEntry) (hs : s.memOk) :
    (spfillPiece x p s q).state.memOk := by
  grind [spfillPiece, PRes.state, mem_putSpool, modFg_mem, memOk_pieceDone, memOk_readPiece, memOk_padCells]

theorem memOk_drainSlot (x : Cx) (p : Packet) (s : State) (q : QEntry) (hs : s.memOk) :
    (drainSlot x p s q).state.memOk := by
  grind [drainSlot, PRes.state, memOk_writeRun]

theorem memOk_spdrainPiece (x : Cx) (p : Packet) (s : State) (q : QEntry) (hs : s.memOk) :
    (spdrainPiece x p s q).state.memOk := by
  grind [spdrainPiece, PRes.state, memOk_drainSlot, mem_putSpool, memOk_readPiece]

theorem memOk_appendAt (s : State) (core off : Nat) (bs : List Byte) (pois : List Nat) {b' : Bool} {k' : Nat}
    {u : State} (hs : s.memOk) (h : s.appendAt core off bs pois = (.ok u k' b')) : u.memOk := by
  grind [State.appendAt, memOk_padCells, memOk_spadWrite, setFg_mem]

theorem memOk_qappendPiece (x : Cx) (p : Packet) (s : State) (q : QEntry) (hs : s.memOk) :
    (qappendPiece x p s q).state.memOk := by
  grind [qappendPiece, PRes.state, memOk_readPiece, mem_locate, memOk_appendAt, mem_inject]

theorem memOk_sigremPiece (x : Cx) (p : Packet) (s : State) (q : QEntry) (hs : s.memOk) :
    (sigremPiece x p s q).state.memOk := by
  grind [sigremPiece, PRes.state, setFg_mem, mem_inject]

theorem memOk_pieceOf (x : Cx) (i : Instr) (s : State) (q : QEntry) (hs : s.memOk) :
    (pieceOf x i s q).state.memOk := by
  unfold pieceOf
  split
  all_goals grind [memOk_copyPiece, memOk_tcopyRdPiece, memOk_tcopyWrPiece, memOk_im2Piece, memOk_fillPiece,
      memOk_accwPiece, memOk_fopPiece, memOk_casPiece, memOk_redPiece, memOk_mcastPiece, memOk_spfillPiece,
      memOk_spdrainPiece, memOk_qappendPiece, memOk_sigremPiece, PRes.state]

@[simp] theorem mem_tileBlk (s : State) (x : Cx) (i : Instr) : (s.tileBlk x i).2.mem = s.mem := by
  unfold State.tileBlk
  split <;> simp

end Sys2Proof.Machine
end

section
/-! SUPPORT. What the copy engines do with memory's canonical form as they run. -/

namespace Sys2Proof.Machine

set_option Elab.async false

@[simp] theorem mem_putHead (s : State) (n : Nat) (e : Eng) (lane : Bool) (q : QEntry) :
    (s.putHead n e lane q).mem = s.mem := by
  simp [State.putHead]

@[simp] theorem mem_copyDep (s : State) (mid : Nat) (p : Packet) : (s.copyDep mid p).1.mem = s.mem := by
  grind [State.copyDep, mem_decDep, mem_inject]

theorem memOk_copyComplete (s : State) (n : Nat) (e : Eng) (lane : Bool) (q : QEntry) (i : Instr) (p : Packet)
    (hs : s.memOk) : (s.copyComplete n e lane q i p).memOk := by
  grind [State.copyComplete, memOk_padCells, modFg_mem, mem_signal, mem_copyDep, mem_stopFault, mem_settle]

@[simp] theorem mem_backPressure (s : State) (n : Nat) (e : Eng) (lane : Bool) (q : QEntry) (at_ : Word) :
    (s.backPressure n e lane q at_).mem = s.mem := by
  simp [State.backPressure]

@[simp] theorem mem_holdStore (s : State) (n : Nat) (e : Eng) (lane : Bool) (q : QEntry) (a : Int) :
    (s.holdStore n e lane q a).mem = s.mem := by
  grind [State.holdStore, mem_backPressure, mem_putHead]

@[simp] theorem mem_stopPiece (s : State) (n : Nat) (e : Eng) (lane : Bool) (q : QEntry) (c : Nat) (v : Word) :
    (s.stopPiece n e lane q c v).mem = s.mem := by
  grind [State.stopPiece, mem_flushAgg, mem_stopFault, mem_putHead, mem_holdStore]

theorem memOk_tryPiece (s : State) (n : Nat) (e : Eng) (lane : Bool) (q : QEntry) (i : Instr) (hs : s.memOk) :
    (s.tryPiece n e lane q i).1.memOk := by
  grind [State.tryPiece, PRes.state, mem_backPressure, memOk_pieceOf, mem_putHead, mem_stopPiece, mem_holdStore]

theorem memOk_runPieces (n : Nat) (e : Eng) (lane : Bool) (i : Instr) (fuel : Nat) (s : State) (hs : s.memOk) :
    (runPieces n e lane i fuel s).memOk := by
  induction fuel generalizing s with
  | zero => exact hs
  | succ k ih => grind [runPieces, memOk_tryPiece]

theorem memOk_finishCopy (s : State) (n : Nat) (e : Eng) (hs : s.memOk) : (s.finishCopy n e).memOk := by
  grind [State.finishCopy, memOk_copyComplete]

@[simp] theorem mem_flushCopy (s : State) (n : Nat) (e : Eng) : (s.flushCopy n e).mem = s.mem := by
  grind [State.flushCopy, mem_flushAgg, mem_putHead]

theorem memOk_goOn (s : State) (n : Nat) (e : Eng) (lane : Bool) (q : QEntry) (i : Instr) (hs : s.memOk) :
    (s.goOn n e lane q i).memOk := by
  grind [State.goOn, memOk_finishCopy, memOk_runPieces, memOk_tryPiece]

theorem memOk_startPacket (s : State) (n : Nat) (e : Eng) (lane : Bool) (q : QEntry) (i : Instr) (hs : s.memOk) :
    (s.startPacket n e lane q i).memOk := by
  grind [State.startPacket, mem_tileBlk, modFg_mem, memOk_goOn]

@[simp] theorem mem_expireHead (s : State) (n : Nat) (e : Eng) (lane : Bool) :
    (s.expireHead n e lane).mem = s.mem := by
  unfold State.expireHead
  split <;> simp

theorem memOk_startCopy (s : State) (n : Nat) (e : Eng) (hs : s.memOk) : (s.startCopy n e).memOk := by
  grind [State.startCopy, mem_expireHead, mem_stopFault, memOk_startPacket, mem_putHead]

theorem memOk_workCopy (s : State) (n : Nat) (e : Eng) (hs : s.memOk) : (s.workCopy n e).memOk := by
  grind [State.workCopy, memOk_finishCopy, memOk_goOn]

theorem memOk_frozenCopy (s : State) (n : Nat) (e : Eng) (hs : s.memOk) : (s.frozenCopy n e).memOk := by
  grind [State.frozenCopy, memOk_finishCopy, memOk_tryPiece, mem_putHead, mem_flushCopy]

theorem memOk_moveCopy (s : State) (n : Nat) (e : Eng) (hs : s.memOk) : (s.moveCopy n e).memOk := by
  grind [State.moveCopy, memOk_workCopy, memOk_startCopy]

theorem memOk_forwardCopy (s : State) (n : Nat) (e : Eng) (q : QEntry) (hs : s.memOk) :
    (s.forwardCopy n e q).memOk := by
  grind [State.forwardCopy, mem_push, memOk_moveCopy]

theorem memOk_issueCP (s : State) (i : Instr) (p : Packet) (hs : s.memOk) : (s.issueCP i p).memOk := by
  grind [State.issueCP, memOk_onCore, tick_mem, memOk_takeTrap, mem_holdAt, retire_mem, memOk_forwardCopy]

@[simp] theorem mem_appendQ (s : State) (n : Nat) (e : Eng) (q : QEntry) : (s.appendQ n e q).mem = s.mem := by
  simp [State.appendQ]

@[simp] theorem testKeeps_cpputTest (f : FmtD) (prom : Bool) : testKeeps (cpputTest f prom) := by
  intro s n w t hs h
  grind [cpputTest, mem_appendQ, memOk_moveCopy, modFg_mem, memOk_doneD]

theorem memOk_cpput (s : State) (f : FmtD) (i : Instr) (prom : Bool) (hs : s.memOk) : (s.cpput f i prom).memOk := by
  grind [State.cpput, memOk_onCore, memOk_trapHere, memOk_beginWait, testKeeps_cpputTest, lateKeeps_lateD]

@[simp] theorem mem_setHcopy (s : State) (h : HCopy) : (s.setHcopy h).mem = s.mem := by
  grind [State.setHcopy]

@[simp] theorem mem_dropHcopy (s : State) (e : Nat) : (s.dropHcopy e).mem = s.mem := by
  simp [State.dropHcopy]

@[simp] theorem mem_hcopyEnd (s : State) (h : HCopy) : (s.hcopyEnd h).mem = s.mem := by
  grind [State.hcopyEnd, mem_dropHcopy, mem_copyDep, mem_setHcopy]

theorem memOk_tryHpiece (s : State) (h : HCopy) (i : Instr) (hs : s.memOk) : (s.tryHpiece h i).1.memOk := by
  have hp := memOk_pieceOf h.cx i s h.entry hs
  unfold State.tryHpiece
  split
  · next e => rw [e] at hp; exact hp
  · next e => rw [e] at hp; exact hp
  · next t q c _ e =>
    rw [e] at hp
    cases hf : t.flushAgg h.cx q with
    | none => exact hp
    | some r => exact (congrArg (fun m => Memory.wf m = true) (mem_flushAgg _ _ _ hf)).mpr hp
  · next e => rw [e] at hp; exact hp

theorem memOk_runHpieces (e : Nat) (i : Instr) (fuel : Nat) (s : State) (hs : s.memOk) :
    (runHpieces e i fuel s).memOk := by
  induction fuel generalizing s with
  | zero => exact hs
  | succ k ih => grind [runHpieces, memOk_tryHpiece]

theorem memOk_moveHcopy (s : State) (e : Nat) (hs : s.memOk) : (s.moveHcopy e).memOk := by
  grind [State.moveHcopy, memOk_runHpieces, mem_hcopyEnd]

theorem mem_modPacket (s : State) (a : CopyAgent) (ord : Nat) (f : QEntry → QEntry) :
    (s.modPacket a ord f).mem = s.mem := by
  unfold State.modPacket
  cases a with
  | core n ce1 => rfl
  | hamper e => grind [mem_setHcopy]

theorem memOk_execMulticastTileArrival (n : Nat) (s : State) {u : State} (hs : s.memOk)
    (h : execMulticastTileArrival n s = .next u) : u.memOk := by
  grind [execMulticastTileArrival, setCore_mem, modFg_mem, memOk_padCells, mem_modPacket, setFg_mem]

theorem memOk_execAmcastRetry (e : Nat) (s : State) {u : State} (hs : s.memOk) (h : execAmcastRetry e s = .next u) :
    u.memOk := by
  grind [execAmcastRetry, mem_readVa, mem_setHcopy, mem_sendTiles]

theorem memOk_execQappendAtTarget (c : CopyAgent) (s : State) {u : State} (hs : s.memOk)
    (h : execQappendAtTarget c s = .next u) : u.memOk := by
  cases h
  cases c with
  | core n ce1 =>
    dsimp only
    grind [memOk_tryPiece]
  | hamper e =>
    dsimp only
    grind [memOk_moveHcopy]

theorem memOk_execRemoteSignalArrival (n sem amt : Nat) (s : State) {u : State} (hs : s.memOk)
    (h : execRemoteSignalArrival n sem amt s = .next u) : u.memOk := by
  grind [execRemoteSignalArrival, mem_answerSig, setFg_mem]

theorem memOk_execCopyPacketCompletion (c : CopyAgent) (s : State) {u : State} (hs : s.memOk)
    (h : execCopyPacketCompletion c s = .next u) : u.memOk := by
  cases h
  cases c with
  | core n ce1 =>
    dsimp only
    grind [memOk_finishCopy]
  | hamper e =>
    dsimp only
    grind [mem_hcopyEnd]

theorem memOk_execMissedPromise (n : Nat) (ce1 : Bool) (s : State) {u : State} (hs : s.memOk)
    (h : execMissedPromise n ce1 s = .next u) : u.memOk := by
  grind [execMissedPromise, setFg_mem]

theorem memOk_execSpoolOrAmcastWaitPassesD (c : CopyAgent) (s : State) {u : State} (hs : s.memOk)
    (h : execSpoolOrAmcastWaitPassesD c s = .next u) : u.memOk := by
  cases h
  cases c with
  | core n ce1 =>
    dsimp only
    generalize (if ce1 then Eng.ce1 else Eng.ce0) = e
    split
    · exact hs
    · next lane q _ =>
      split
      · next i t0 _ _ =>
        split
        · have hp := memOk_pieceOf (s.cxOf n e q.ord) i s q hs
          split
          · next hq =>
            rw [hq] at hp
            exact memOk_of_mem (mem_putHead _ _ _ _ _) hp
          · exact hs
        · exact hs
      · exact hs
  | hamper e =>
    dsimp only
    grind [mem_hcopyEnd]

theorem memOk_execStoreBackpressure (n : Nat) (ce1 : Bool) (s : State) {u : State} (hs : s.memOk)
    (h : execStoreBackpressure n ce1 s = .next u) : u.memOk := by
  grind [execStoreBackpressure, mem_backPressure]

theorem memOk_wakeStores (s : State) (n : Nat) (hs : s.memOk) : (s.wakeStores n).memOk := by
  grind [State.wakeStores, memOk_workCopy]

theorem memOk_copyTurn (s : State) (n : Nat) (hs : s.memOk) : (s.copyTurn n).memOk := by
  grind [State.copyTurn, memOk_frozenCopy, memOk_wakeStores]

theorem memOk_execBfmtWrite (f : CsrF) (s : State) {u : State} (hs : s.memOk) (h : execBfmtWrite f s = .next u) :
    u.memOk := by
  grind [execBfmtWrite, memOk_onCore, tick_mem, setFg_mem, mem_bfmtLand]

theorem memOk_execBfmtTakesEffect (n : Nat) (s : State) {u : State} (hs : s.memOk)
    (h : execBfmtTakesEffect n s = .next u) : u.memOk := by
  grind [execBfmtTakesEffect, mem_bfmtLand]

end Sys2Proof.Machine
end

section
/-! SUPPORT. What counters, triggers and messages do with memory's canonical form. -/

namespace Sys2Proof.Machine

set_option Elab.async false

@[simp] theorem mem_send (s : State) (x : Sent) : (s.send x).mem = s.mem := by
  simp [State.send]

@[simp] theorem mem_sendParts (s : State) (dst key fuel off : Nat) (bs : List Byte) :
    (sendParts s dst key fuel off bs).mem = s.mem := by
  induction fuel generalizing s off bs with
  | zero => rfl
  | succ k ih => grind [sendParts, mem_inject]

theorem mem_route (s : State) (y : Sent) {u : State} (h : s.route y = some u) : u.mem = s.mem := by
  grind [State.route, mem_send, mem_sendParts]

theorem mem_routeOr (s : State) (x : Sent) : ((s.route x).getD s).mem = s.mem := by
  cases h : s.route x with
  | none => rfl
  | some u => exact mem_route _ _ h

theorem memOk_runHcopy (s : State) (e : Nat) (hs : s.memOk) : (s.runHcopy e).memOk := by
  grind [State.runHcopy, memOk_moveHcopy, mem_tileBlk, mem_setHcopy]

theorem memOk_addHcopy (s : State) (slot : Nat) (thr : Option Nat) (q : QEntry) (d : Word) (hs : s.memOk) :
    (s.addHcopy slot thr q d).2.memOk := by
  grind [State.addHcopy, memOk_runHcopy]

@[simp] theorem mem_setTrg (s : State) (e : Nat) (t : Trg) : (s.setTrg e t).mem = s.mem := by
  unfold State.setTrg
  split <;> simp

@[simp] theorem mem_trgFail (s : State) (e code slot : Nat) : (s.trgFail e code slot).mem = s.mem := by
  simp [State.trgFail]

theorem mem_hlaunch {s u : State} {slot grp raw k : Nat} (h : s.hlaunch slot grp raw = .inr (k, u)) :
    u.mem = s.mem := by
  grind [State.hlaunch, mem_accept]

@[simp] theorem mem_trgSend (s : State) (e : Nat) (t : Trg) : (s.trgSend e t).mem = s.mem := by
  simp only [State.trgSend]
  grind [mem_trgFail, mem_routeOr, mem_nextFree]

theorem memOk_trgAct (s : State) (e : Nat) (hs : s.memOk) : (s.trgAct e).memOk := by
  unfold State.trgAct
  grind [mem_trgFail, mem_hlaunch, memOk_addHcopy, mem_trgSend]

theorem memOk_trgReach (s : State) (e : Nat) (hs : s.memOk) : (s.trgReach e).memOk := by
  grind [State.trgReach, mem_setTrg, memOk_trgAct]

theorem memOk_fireCtr (s : State) (k : Nat) (hs : s.memOk) : (s.fireCtr k).memOk := by
  grind [State.fireCtr, memOk_foldl, memOk_trgReach]

theorem memOk_releaseTrg (s : State) (slot : Nat) (hs : s.memOk) : (s.releaseTrg slot).memOk := by
  grind [State.releaseTrg, memOk_foldl, memOk_trgReach]

theorem memOk_setCtr (s : State) (k : Nat) (c : Ctr) (hs : s.memOk) : (s.setCtr k c).memOk := by
  grind [State.setCtr, memOk_fireCtr]

theorem memOk_bumpCtr (s : State) (k jid : Nat) (hs : s.memOk) : (s.bumpCtr k jid).memOk := by
  grind [State.bumpCtr, event_mem, memOk_setCtr]

theorem memOk_dropExp (s : State) (k n : Nat) (hs : s.memOk) : (s.dropExp k n).memOk := by
  grind [State.dropExp, memOk_setCtr]

theorem memOk_writeTw (w : Who) (k : Nat) (a : Int) (bs : List Byte) (s : State) {u : State} (hs : s.memOk)
    (h : writeTw w k a bs s = .inr u) : u.memOk := by
  induction k generalizing s a bs with
  | zero => grind [writeTw]
  | succ k ih => grind [writeTw, memOk_writeVa, Wrote.state]

theorem memOk_putTw (s : State) (slot : Nat) (dst : Word) (bs : List Byte) {u : State} (hs : s.memOk)
    (h : s.putTw slot dst bs = .inr u) : u.memOk := by
  grind [State.putTw, memOk_writeTw]

theorem memOk_placeMsg (s : State) (slot : Nat) (dst : Word) (pc : Nat) (m : Msg) (hs : s.memOk) :
    (s.placeMsg slot dst pc m).1.memOk := by
  grind [State.placeMsg, memOk_putTw, memOk_bumpCtr, memOk_dropExp, event_mem]

theorem memOk_postTakes (s : State) (p : Post) (m : Msg) (hs : s.memOk) : (s.postTakes p m).1.memOk := by
  grind [State.postTakes, memOk_placeMsg]

theorem memOk_arriveMsg (s : State) (m : Msg) (hs : s.memOk) : (s.arriveMsg m).1.memOk := by
  grind [State.arriveMsg, mem_nextFree, event_mem, memOk_bumpCtr, setPort_mem, memOk_postTakes]

@[simp] theorem mem_endSend (s : State) (x : Sent) (a : ReadAns) : (s.endSend x a).mem = s.mem := by
  unfold State.endSend
  grind [setThread_mem, mem_trgFail]

@[simp] theorem mem_ackSend (s : State) (x : Sent) (ok : Bool) : (s.ackSend x ok).mem = s.mem := by
  simp [State.ackSend]

@[simp] theorem mem_dropSent (s : State) (x : Sent) : (s.dropSent x).mem = s.mem := by
  simp [State.dropSent]

theorem memOk_messageArrival (s : State) (m : Msg) (hs : s.memOk) : (s.messageArrival m).memOk := by
  grind [State.messageArrival, memOk_arriveMsg, mem_dropSent, mem_ackSend]

theorem memOk_execMessageArrivalData (m : Msg) (s : State) {u : State} (hs : s.memOk)
    (h : execMessageArrivalData m s = .next u) : u.memOk := by
  grind [execMessageArrivalData, memOk_messageArrival]

theorem memOk_execMessageArrivalCount (m : Msg) (s : State) {u : State} (hs : s.memOk)
    (h : execMessageArrivalCount m s = .next u) : u.memOk := by
  grind [execMessageArrivalCount, memOk_messageArrival]

theorem memOk_takeUnexp (p : Post) (slot : Nat) (l : List (Msg × Bool)) (m : Nat) (s : State) (hs : s.memOk) :
    (takeUnexp p slot l m s).2.memOk := by
  induction l generalizing m s with
  | nil => exact hs
  | cons x r ih => grind [takeUnexp, memOk_placeMsg]

theorem memOk_npost (s : State) (slot off : Nat) (hs : s.memOk) : (s.npost slot off).2.1.memOk := by
  grind [State.npost, memOk_setCtr, memOk_takeUnexp]

theorem memOk_execTailWrite (page : Nat) (t : BitVec 32) (s : State) {u : State} (hs : s.memOk)
    (h : execTailWrite page t s = .next u) : u.memOk := by
  simp only [execTailWrite] at h
  cases h
  have hp (a : Nat) (bs : List Byte) := memOk_putBytes s a bs hs
  split
  · split
    · rw [State.memOk, event_mem]; exact memOk_setCtr _ _ _ (hp _ _)
    · exact memOk_setCtr _ _ _ (hp _ _)
  · rwa [State.memOk, mem_pushPort]

theorem memOk_execUetWriteOrRead (job region off : Nat) (write : Bool) (data : List Byte) (s : State) {u : State}
    (hs : s.memOk) (h : execUetWriteOrRead job region off write data s = .next u) : u.memOk := by
  grind [execUetWriteOrRead, memOk_putTw, memOk_bumpCtr, mem_readVa]

theorem memOk_execReceivedFrameDropped (port : Nat) (s : State) {u : State} (hs : s.memOk)
    (h : execReceivedFrameDropped port s = .next u) : u.memOk := by
  grind [execReceivedFrameDropped]

end Sys2Proof.Machine
end

section
/-! SUPPORT. What Hamper threads do with memory's canonical form. -/

namespace Sys2Proof.Machine

set_option Elab.async false

@[simp] theorem mem_freeNat (s : State) (k : Nat) : (s.freeNat k).2.mem = s.mem := by
  simp [State.freeNat]

theorem memOk_jobCreate (s : State) (j : Nat) (hs : s.memOk) : (s.jobCreate j).memOk := by
  grind [State.jobCreate, setJob_mem, mem_mapCores, memOk_setRs]

theorem memOk_hstore (s : State) (a : Nat) (bs : List Byte) (hs : s.memOk) : (s.hstore a bs).memOk := by
  grind [State.hstore, memOk_putBytes, memOk_jobCreate]

theorem memOk_execHamperScalarAccess (store : Bool) (f3 : BitVec 3) (r rs1 : BitVec 5) (off : BitVec 12) (enc : RvEnc)
    (s : State) {u : State} (hs : s.memOk) (h : execHamperScalarAccess store f3 r rs1 off enc s = .next u) :
    u.memOk := by
  grind [execHamperScalarAccess, memOk_onThread, memOk_trapHere, memOk_hstore, retire_mem, mem_freeNat, setXr_mem]

@[simp] theorem mem_detachThread (s : State) (h : Nat) : (s.detachThread h).mem = s.mem := by
  grind [State.detachThread, mem_foldl, mem_dropHcopy]

theorem memOk_execHamperThreadTrap (h : Nat) (cause : Byte) (val : Word) (s : State) {u : State} (hs : s.memOk)
    (h : execHamperThreadTrap h cause val s = .next u) : u.memOk := by
  grind [execHamperThreadTrap, mem_threadTrap, mem_detachThread]

theorem memOk_onJob (s : State) (w : Word) (f : Nat → Nat → State) (hs : s.memOk) (hf : ∀ n m, (f n m).memOk) :
    (s.onJob w f).memOk := by
  grind [State.onJob, memOk_onThread, memOk_trapHere]

theorem memOk_hoff (s : State) (a : Word) (al k : Nat) (f : Nat → State) (hs : s.memOk) (hf : ∀ n, (f n).memOk) :
    (s.hoff a al k f).memOk := by
  grind [State.hoff, memOk_trapHere]

@[simp] theorem mem_doneDT (s : State) (h : Nat) (f : FmtD) (w : Wait) (code detail : Nat) :
    (s.doneDT h f w code detail).mem = s.mem := by
  grind [State.doneDT, mem_finishDT]

@[simp] theorem lateKeeps_lateDT (f : FmtD) : lateKeeps (lateDT f) := by
  intro s n w hs
  grind [lateDT, mem_doneDT]

theorem memOk_onCtr (s : State) (i : Instr) (xa : Word) (f : Nat → Nat → State) (hs : s.memOk)
    (hf : ∀ n m, (f n m).memOk) : (s.onCtr i xa f).memOk := by
  grind [State.onCtr, memOk_onThread, memOk_trapHere]

theorem memOk_execCtradd (f : FmtQ) (s : State) {u : State} (hs : s.memOk) (h : execCtradd f s = .next u) :
    u.memOk := by
  grind [execCtradd, memOk_onCtr, memOk_trapHere, mem_doneQ, memOk_setCtr]

theorem memOk_execCtrrd (f : FmtQ) (s : State) {u : State} (hs : s.memOk) (h : execCtrrd f s = .next u) :
    u.memOk := by
  grind [execCtrrd, memOk_onCtr, mem_doneQ]

theorem memOk_execCtrset (f : FmtQ) (s : State) {u : State} (hs : s.memOk) (h : execCtrset f s = .next u) :
    u.memOk := by
  grind [execCtrset, memOk_onCtr, mem_doneQ, memOk_setCtr]

@[simp] theorem testKeeps_ctrwaitTest (f : FmtD) : testKeeps (ctrwaitTest f) := by
  intro s n w t hs h
  grind [ctrwaitTest, mem_doneDT, setXr_mem]

theorem memOk_execCtrwait (f : FmtD) (s : State) {u : State} (hs : s.memOk) (h : execCtrwait f s = .next u) :
    u.memOk := by
  grind [execCtrwait, memOk_onCtr, memOk_beginWait, testKeeps_ctrwaitTest, lateKeeps_lateDT]

theorem memOk_onTrg (s : State) (i : Instr) (xa : Word) (f : Nat → Nat → State) (hs : s.memOk)
    (hf : ∀ n m, (f n m).memOk) : (s.onTrg i xa f).memOk := by
  grind [State.onTrg, memOk_onJob, memOk_trapHere]

theorem memOk_execTrgarm (f : FmtQ) (s : State) {u : State} (hs : s.memOk) (h : execTrgarm f s = .next u) :
    u.memOk := by
  grind [execTrgarm, memOk_onTrg, memOk_trapHere, mem_doneQ, mem_setTrg, memOk_trgReach]

theorem memOk_execTrgdis (f : FmtQ) (s : State) {u : State} (hs : s.memOk) (h : execTrgdis f s = .next u) :
    u.memOk := by
  grind [execTrgdis, memOk_onTrg, mem_doneQ, mem_setTrg]

theorem memOk_execTrgrd (f : FmtQ) (s : State) {u : State} (hs : s.memOk) (h : execTrgrd f s = .next u) :
    u.memOk := by
  grind [execTrgrd, memOk_onTrg, mem_doneQ]

theorem memOk_execTrgrdBlk (f : FmtQ) (s : State) {u : State} (hs : s.memOk) (h : execTrgrdBlk f s = .next u) :
    u.memOk := by
  grind [execTrgrdBlk, memOk_onTrg, mem_doneQ]

theorem memOk_execNpost (f : FmtQ) (s : State) {u : State} (hs : s.memOk) (h : execNpost f s = .next u) :
    u.memOk := by
  grind [execNpost, memOk_onJob, memOk_hoff, memOk_trapHere, memOk_npost, mem_doneQ]

theorem memOk_execNpostCancel (f : FmtQ) (s : State) {u : State} (hs : s.memOk) (h : execNpostCancel f s = .next u) :
    u.memOk := by
  grind [execNpostCancel, memOk_onJob, mem_doneQ, memOk_dropExp]

theorem memOk_hput (s : State) (off : Nat) (bs : List Byte) (hs : s.memOk) : (s.hput off bs).memOk := by
  grind [State.hput, memOk_putBytes]

@[simp] theorem testKeeps_nrecvTest (f : FmtD) : testKeeps (nrecvTest f) := by
  intro s n w t hs h
  grind [nrecvTest, setXr_mem, memOk_hput, setPort_mem, mem_doneDT]

@[simp] theorem testKeeps_nprobeTest (f : FmtD) : testKeeps (nprobeTest f) := by
  intro s n w t hs h
  grind [nprobeTest, mem_doneDT, setXr_mem, memOk_hput]

theorem memOk_execNrecv (f : FmtD) (s : State) {u : State} (hs : s.memOk) (h : execNrecv f s = .next u) :
    u.memOk := by
  grind [execNrecv, memOk_onThread, memOk_hoff, memOk_trapHere, memOk_beginWait, testKeeps_nrecvTest,
    lateKeeps_lateDT]

theorem memOk_execNprobe (f : FmtD) (s : State) {u : State} (hs : s.memOk) (h : execNprobe f s = .next u) :
    u.memOk := by
  grind [execNprobe, memOk_onThread, memOk_hoff, memOk_trapHere, memOk_beginWait, testKeeps_nprobeTest,
    lateKeeps_lateDT]

theorem mem_nsendAnswer (s : State) (h : Nat) (x : Sent) {b' : Bool} {u : State}
    (h : s.nsendAnswer h x = some (u, b')) : u.mem = s.mem := by
  grind [State.nsendAnswer, mem_nextFree, mem_dropSent]

@[simp] theorem testKeeps_nsendTest (f : FmtD) : testKeeps (nsendTest f) := by
  intro s n w t hs h
  grind [nsendTest, mem_route, mem_setWait, mem_doneDT, mem_nsendAnswer]

@[simp] theorem lateKeeps_nsendLate (f : FmtD) : lateKeeps (nsendLate f) := by
  intro s n w hs
  grind [nsendLate, mem_dropSent, mem_doneDT]

theorem memOk_execNsend (f : FmtD) (s : State) {u : State} (hs : s.memOk) (h : execNsend f s = .next u) :
    u.memOk := by
  grind [execNsend, memOk_onThread, memOk_hoff, mem_doneDT, memOk_trapHere, memOk_beginWait, testKeeps_nsendTest,
    lateKeeps_nsendLate]

theorem memOk_execEcallReply (n : Nat) (reply : List Byte) (s : State) {u : State} (hs : s.memOk)
    (h : execEcallReply n reply s = .next u) : u.memOk := by
  grind [execEcallReply, mem_ackSend, memOk_padCells, setCore_mem, setFg_mem]

theorem memOk_execNlaunch (f : FmtQ) (s : State) {u : State} (hs : s.memOk) (h : execNlaunch f s = .next u) :
    u.memOk := by
  grind [execNlaunch, memOk_onJob, memOk_hoff, mem_hlaunch, mem_doneQ]

@[simp] theorem testKeeps_ncopyTest (f : FmtD) : testKeeps (ncopyTest f) := by
  intro s n w t hs h
  grind [ncopyTest, mem_doneDT, setXr_mem, mem_dropHcopy]

@[simp] theorem lateKeeps_ncopyLate (f : FmtD) : lateKeeps (ncopyLate f) := by
  intro s n w hs
  grind [ncopyLate, mem_doneDT]

theorem memOk_execNcopy (f : FmtD) (s : State) {u : State} (hs : s.memOk) (h : execNcopy f s = .next u) :
    u.memOk := by
  grind [execNcopy, memOk_onJob, memOk_hoff, mem_doneDT, setXr_mem, memOk_beginWait, memOk_addHcopy,
    testKeeps_ncopyTest, lateKeeps_ncopyLate]

theorem memOk_execRetentionEnter (u : Nat) (s : State) {t : State} (hs : s.memOk)
    (h : execRetentionEnter u s = .next t) : t.memOk := by
  cases h
  dsimp only
  grind

theorem threadWait_keeps {i : Instr} {x : Test × Expiry} (h : threadWait i = some x) :
    testKeeps x.1 ∧ lateKeeps x.2 := by
  unfold threadWait at h
  split at h <;> cases h <;> simp

theorem memOk_asAgent (s : State) (a : Agent) (f : State → State) (hs : s.memOk)
    (hf : ∀ t : State, t.memOk → (f t).memOk) : (s.asAgent a f).memOk :=
  hf _ hs

theorem memOk_wakeThread (s : State) (h : Nat) (hs : s.memOk) : (s.wakeThread h).memOk := by
  grind [State.wakeThread, setThread_mem]

theorem memOk_execRetentionWake (n : Nat) (s : State) {u : State} (hs : s.memOk)
    (h : execRetentionWake n s = .next u) : u.memOk := by
  simp only [execRetentionWake] at h
  have hw : (if n < 64 then (unitThreads n).foldl (fun s h => s.wakeThread h) s else s).memOk := by
    split
    · exact memOk_foldl _ (fun t x ht => memOk_wakeThread _ _ ht) _ _ hs
    · exact hs
  generalize (if n < 64 then (unitThreads n).foldl (fun s h => s.wakeThread h) s else s) = v at hw h
  split at h <;> cases h
  · exact hw
  · exact hs

theorem memOk_wakeUnits (s : State) (hs : s.memOk) : s.wakeUnits.memOk := by
  unfold State.wakeUnits
  refine memOk_foldl _ (fun t x ht => ?_) _ _ hs
  grind [memOk_execRetentionWake]

theorem memOk_jcfgHandle (s : State) (f : FmtQ) (j sel blk : Nat) (hs : s.memOk) :
    (s.jcfgHandle f j sel blk).memOk := by
  grind [State.jcfgHandle, mem_doneQ, memOk_trapHere, memOk_writeCells]

@[simp] theorem mem_jcfgContext (s : State) (f : FmtQ) (j n w : Nat) (v : Word) :
    (s.jcfgContext f j n w v).mem = s.mem := by
  grind [State.jcfgContext, mem_doneQ, setFg_mem, setCore_mem]

theorem memOk_jcfg (s : State) (f : FmtQ) (i : Instr) (hs : s.memOk) : (s.jcfg f i).memOk := by
  grind [State.jcfg, memOk_onJob, memOk_hoff, mem_doneQ, memOk_jcfgHandle, setJob_mem, mem_jcfgContext]

end Sys2Proof.Machine
end

section
/-! SUPPORT. What tasks, the scheduler and an engine's step do with memory's canonical form. -/

namespace Sys2Proof.Machine

set_option Elab.async false

theorem memOk_launchDone (s : State) (job : Nat) (d : Desc) (hs : s.memOk) : (s.launchDone job d).memOk := by
  grind [State.launchDone, memOk_bumpCtr, mem_inject, mem_tellPkg, mem_sendDep]

@[simp] theorem mem_countEnded (s : State) (job num cl : Nat) : (s.countEnded job num cl).mem = s.mem := by
  unfold State.countEnded
  split <;> simp

theorem memOk_descAt (s : State) (n : Nat) (a : Word) (f : Nat → State) (hs : s.memOk) (hf : ∀ n, (f n).memOk) :
    (s.descAt n a f).memOk := by
  grind [State.descAt, memOk_trapHere]

@[simp] theorem testKeeps_tlaunchTest (f : FmtD) : testKeeps (tlaunchTest f) := by
  intro s n w t hs h
  grind [tlaunchTest, mem_accept, memOk_finishDk, modFg_mem]

theorem memOk_execTlaunch (f : FmtD) (s : State) {u : State} (hs : s.memOk) (h : execTlaunch f s = .next u) :
    u.memOk := by
  grind [execTlaunch, memOk_onCore, memOk_descAt, memOk_finishDk, memOk_beginWait, testKeeps_tlaunchTest,
    lateKeeps_lateD]

theorem memOk_execTexit (f : FmtQ) (s : State) {u : State} (hs : s.memOk) (h : execTexit f s = .next u) :
    u.memOk := by
  grind [execTexit, memOk_onCore, tick_mem, modFg_mem]

theorem memOk_taskCounts (s : State) (i : Machine.Ident) (cl : Nat) (hs : s.memOk) : (s.taskCounts i cl).memOk := by
  grind [State.taskCounts, memOk_launchDone, mem_countEnded]

theorem memOk_begins (s : State) (n : Nat) (hs : s.memOk) : (s.begins n).memOk := by
  grind [State.begins, memOk_taskCounts, setFg_mem]

theorem memOk_taskEnds (s : State) (n : Nat) (c : Ctx) (hs : s.memOk) : (s.taskEnds n c).memOk := by
  grind [State.taskEnds, mem_setSlot, memOk_taskCounts]

theorem memOk_settleEnding (s : State) (hs : s.memOk) : s.settleEnding.memOk := by
  grind [State.settleEnding, memOk_foldl, memOk_taskCounts]

theorem memOk_endTask (s : State) (n : Nat) (hs : s.memOk) : (s.endTask n).memOk := by
  grind [State.endTask, memOk_taskEnds, setCore_mem]

theorem memOk_execTaskEnd (n : Nat) (s : State) {u : State} (hs : s.memOk) (h : execTaskEnd n s = .next u) :
    u.memOk := by
  grind [execTaskEnd, mem_withdrawAll, memOk_endTask]

theorem memOk_execTarm (f : FmtQ) (s : State) {u : State} (hs : s.memOk) (h : execTarm f s = .next u) : u.memOk := by
  grind [execTarm, memOk_onCore, memOk_descAt, mem_doneQ, mem_setSlot]

theorem memOk_execTyield (f : FmtQ) (s : State) {u : State} (hs : s.memOk) (h : execTyield f s = .next u) :
    u.memOk := by
  grind [execTyield, memOk_onCore, tick_mem, setCore_mem, mem_doneQ]

theorem memOk_execLaunchDivide (s : State) {u : State} (hs : s.memOk) (h : execLaunchDivide s = .next u) :
    u.memOk := by
  grind [execLaunchDivide, mem_divide]

theorem memOk_execLeafLaunchTake (cl : Nat) (s : State) {u : State} (hs : s.memOk)
    (h : execLeafLaunchTake cl s = .next u) : u.memOk := by
  grind [execLeafLaunchTake, mem_setLaunch]

theorem memOk_execSteal (die job num : Nat) (s : State) {u : State} (hs : s.memOk)
    (h : execSteal die job num s = .next u) : u.memOk := by
  grind [execSteal, mem_nextFree, mem_tellPkg, mem_setLaunch]

@[simp] theorem mem_stolenFrom (s : State) (job num key die : Nat) : (s.stolenFrom job num key die).mem = s.mem := by
  grind [State.stolenFrom, mem_tellPkg, mem_setLaunch]

@[simp] theorem mem_stolenBy (s : State) (job num die lo n : Nat) (rdy : Word) :
    (s.stolenBy job num die lo n rdy).mem = s.mem := by
  unfold State.stolenBy
  split <;> simp

theorem memOk_wipePad (s : State) (n : Nat) (mask : BitVec 128) (hs : s.memOk) : (s.wipePad n mask).memOk :=
  tableOk_filter _ _ _ hs

theorem memOk_fillImg (s : State) (n : Nat) (img : Word) (g : Nat) (hs : s.memOk) : (s.fillImg n img g).memOk := by
  simp only [State.fillImg]
  split
  · rwa [State.memOk, event_mem]
  · exact moveCells_wf _ _ _ _ hs

theorem memOk_fillImgs (s : State) (n : Nat) (img : Word) (mask : BitVec 128) (hs : s.memOk) :
    (s.fillImgs n img mask).memOk := by
  grind [State.fillImgs, memOk_foldl, memOk_fillImg]

theorem memOk_prepPad (s : State) (n job : Nat) (img : Word) (mask : BitVec 128) (hs : s.memOk) :
    (s.prepPad n job img mask).memOk := by
  grind [State.prepPad, memOk_wipePad, setCore_mem, memOk_fillImgs]

theorem memOk_startTask (s : State) (n : Nat) (t : Cand) (num : Nat) (named : Option Nat) (hs : s.memOk) :
    (s.startTask n t num named).memOk := by
  grind [State.startTask, memOk_prepPad, setCore_mem]

@[simp] theorem mem_takeIndex (s : State) (job num cl lo : Nat) : (s.takeIndex job num cl lo).mem = s.mem := by
  unfold State.takeIndex
  split <;> simp

theorem memOk_backOn (s : State) (n i : Nat) (y : Yielded) (hs : s.memOk) : (s.backOn n i y).memOk := by
  unfold State.backOn
  have h1 : (if (s.core n).sjob = some y.ctx.ident.job then s else s.wipePad n (BitVec.allOnes 128)).memOk := by
    split
    · exact hs
    · exact memOk_wipePad _ _ _ hs
  exact memWriteCells_wf _ _ (memOk_wipePad _ _ _ (memOk_fillImgs _ _ _ _ h1))

theorem memOk_execTaskDispatch (cl : Nat) (s : State) {u : State} (hs : s.memOk)
    (h : execTaskDispatch cl s = .next u) : u.memOk := by
  grind [execTaskDispatch, memOk_startTask, mem_takeIndex, mem_setSlot, memOk_backOn]

theorem memOk_addReport (s : State) (job num extra : Nat) (hs : s.memOk) : (s.addReport job num extra).memOk := by
  grind [State.addReport, memOk_launchDone, mem_setLaunch]

theorem memOk_execCompletionReport (cl job num : Nat) (s : State) {u : State} (hs : s.memOk)
    (h : execCompletionReport cl job num s = .next u) : u.memOk := by
  grind [execCompletionReport, mem_setLaunch, memOk_addReport, mem_tellPkg]

theorem memOk_execDomainDeclare (rcd : List Byte) (s : State) {u : State} (hs : s.memOk)
    (h : execDomainDeclare rcd s = .next u) : u.memOk := by
  grind [execDomainDeclare]

theorem memOk_execSwallowRateUpdate (dom sw : Nat) (s : State) {u : State} (hs : s.memOk)
    (h : execSwallowRateUpdate dom sw s = .next u) : u.memOk := by
  grind [execSwallowRateUpdate, mem_mapCores]

theorem memOk_execRampWindowBoundary (n : Nat) (s : State) {u : State} (hs : s.memOk)
    (h : execRampWindowBoundary n s = .next u) : u.memOk := by
  grind [execRampWindowBoundary, setCore_mem]

theorem memOk_execWordForward (w : Word) (rest : BitVec 448) (s : State) {u : State} (hs : s.memOk)
    (h : execWordForward w rest s = .next u) : u.memOk := by
  grind [execWordForward, memOk_onCore, memOk_trapHere, tick_mem, memOk_takeTrap, mem_holdAt, retire_mem, mem_push]

theorem memOk_execForwardHoldRelease (n : Nat) (s : State) {u : State} (hs : s.memOk)
    (h : execForwardHoldRelease n s = .next u) : u.memOk := by
  grind [execForwardHoldRelease, tick_mem, modFg_mem, mem_push]

theorem memOk_execForwardHoldTimeout (n : Nat) (s : State) {u : State} (hs : s.memOk)
    (h : execForwardHoldTimeout n s = .next u) : u.memOk := by
  grind [execForwardHoldTimeout, memOk_takeTrap]

@[simp] theorem mem_ringFetch (s : State) (n : Nat) (e : Eng) : (s.ringFetch n e).mem = s.mem := by
  grind [State.ringFetch, mem_stopFault, modFg_mem]

theorem effKeeps_effOf {s : State} {n : Nat} {i : Instr} {q : QEntry} {x : Eff × Nat × Nat}
    (h : s.effOf n i q = some x) : effKeeps x.1 := by
  unfold State.effOf at h
  dsimp only at h
  split at h
  · cases h; exact effKeeps_vmEff _ _ _
  · cases h; exact effKeeps_vmEff _ _ _
  · cases h; exact effKeeps_vmEff _ _ _
  · cases h; exact effKeeps_vmEff _ _ _
  · cases h; exact effKeeps_vmEff _ _ _
  · cases h; exact effKeeps_vmEff _ _ _
  · cases h; exact effKeeps_vldwEff _
  · cases h; exact effKeeps_vtrdEff _
  · split at h
    · next hm => cases h; exact effKeeps_mtEff hm
    · exact effKeeps_vxPure h

theorem memOk_firstCycle (s : State) (n : Nat) (hs : s.memOk) : (s.firstCycle n).memOk := by
  grind [State.firstCycle, memOk_workCycle, modFg_mem]

theorem memOk_moveUnit (s : State) (n : Nat) (e : Eng) (hs : s.memOk) : (s.moveUnit n e).memOk := by
  unfold State.moveUnit
  dsimp only
  split
  · exact hs
  · split
    · exact hs
    · split
      · rwa [State.memOk, mem_expireHead]
      · split
        · rwa [State.memOk, mem_stopFault]
        · split
          · rwa [State.memOk, mem_stopFault]
          · next h =>
            have he := effKeeps_effOf h
            split
            · rwa [State.memOk, mem_stopFault]
            · next u p hu =>
              have hu := memOk_tryEntry hs he hu
              grind [modFg_mem, memOk_started, mem_settleRead, memOk_firstCycle]
            · grind [mem_putHead]
            · exact hs

theorem memOk_startHead (s : State) (n : Nat) (e : Eng) (hs : s.memOk) : (s.startHead n e).memOk := by
  have hr : (s.ringFetch n e).memOk := by rwa [State.memOk, mem_ringFetch]
  cases e
  · exact memOk_moveUnit _ _ _ hr
  · exact memOk_moveUnit _ _ _ hr
  · exact memOk_startCopy _ _ _ hr
  · exact memOk_startCopy _ _ _ hr

theorem memOk_execEngineEntryStart (n : Nat) (e : Eng) (s : State) {u : State} (hs : s.memOk)
    (h : execEngineEntryStart n e s = .next u) : u.memOk := by
  grind [execEngineEntryStart, memOk_runHcopy, memOk_workCopy, memOk_startHead]

theorem memOk_execEngineWaitTimeout (n : Nat) (e : Eng) (s : State) {u : State} (hs : s.memOk)
    (h : execEngineWaitTimeout n e s = .next u) : u.memOk := by
  grind [execEngineWaitTimeout, mem_expireHead]

theorem memOk_execEngineCommandComplete (n : Nat) (e : Eng) (s : State) {u : State} (hs : s.memOk)
    (h : execEngineCommandComplete n e s = .next u) : u.memOk := by
  grind [execEngineCommandComplete, mem_settle, memOk_complete, modFg_mem]

theorem memOk_execInFlightReinject (n : Nat) (s : State) {u : State} (hs : s.memOk)
    (h : execInFlightReinject n s = .next u) : u.memOk := by
  grind [execInFlightReinject, setFg_mem, mem_stopFault, mem_settle, memOk_complete]

end Sys2Proof.Machine
end

section
/-! SUPPORT. What preemption and containment do with memory's canonical form. -/

namespace Sys2Proof.Machine

set_option Elab.async false

theorem memOk_Exch_spill (x : Exch) (n a g : Nat) (hs : x.s.memOk) : (x.spill n a g).s.memOk := by
  grind [Exch.spill, mem_mark, memOk_putBytes]

@[simp] theorem mem_Exch_fillBad (x : Exch) (n g cause : Nat) : (x.fillBad n g cause).s.mem = x.s.mem := by
  simp [Exch.fillBad]

theorem memOk_Exch_fill (x : Exch) (n a g : Nat) (hs : x.s.memOk) : (x.fill n a g).s.memOk := by
  grind [Exch.fill, mem_Exch_fillBad, memOk_putBytes]

theorem memOk_Exch_granule (n : Nat) (out inc : Option Ctx) (sjob : Option Nat) (x : Exch) (g : Nat)
    (hs : x.s.memOk) : (Exch.granule n out inc sjob x g).s.memOk := by
  cases out <;> cases inc <;> grind [Exch.granule, memOk_Exch_spill, memOk_Exch_fill, memOk_fillImg, memOk_wipePad]

@[simp] theorem mem_resumeFg (s : State) (n : Nat) : (s.resumeFg n).mem = s.mem := by
  grind [State.resumeFg, setFg_mem]

@[simp] theorem mem_tellFirst (s : State) (slot : Nat) (payload : List Byte) :
    (s.tellFirst slot payload).mem = s.mem := by
  simp [State.tellFirst]

@[simp] theorem mem_gangReport (s : State) (slot key : Nat) : (s.gangReport slot key).mem = s.mem := by
  simp [State.gangReport]

@[simp] theorem mem_gangCheck (s : State) (slot : Nat) : (s.gangCheck slot).mem = s.mem := by
  grind [State.gangCheck, mem_gangReport, mem_tellFirst, setJob_mem]

theorem memOk_finishExch (s : State) (n : Nat) (hs : s.memOk) : (s.finishExch n).memOk := by
  unfold State.finishExch
  dsimp only
  split
  · exact hs
  · generalize hx : List.foldl _ _ _ = x
    have hx : x.s.memOk := by
      rw [← hx]
      refine List.foldlRecOn (motive := fun b : Exch => b.s.memOk) _ _ ?_ fun b hb g _ => memOk_Exch_granule _ _ _ _ _
          _ hb
      grind [memOk_putBytes]
    grind [memOk_putBytes, event_mem, setCore_mem, mem_resumeFg, mem_gangCheck]

theorem memOk_execContextExchangeComplete (n : Nat) (s : State) {u : State} (hs : s.memOk)
    (h : execContextExchangeComplete n s = .next u) : u.memOk := by
  grind [execContextExchangeComplete, memOk_finishExch]

@[simp] theorem mem_swapBanks (s : State) (t : Nat) (xb : Word) : (s.swapBanks t xb).mem = s.mem := by
  simp [State.swapBanks]

theorem memOk_execCtxswap (f : FmtQ) (s : State) {u : State} (hs : s.memOk) (h : execCtxswap f s = .next u) :
    u.memOk := by
  grind [execCtxswap, memOk_onSup, mem_doneQ, mem_swapBanks, memOk_finishExch]

theorem memOk_writeImage (s : State) (c : Ctx) (hs : s.memOk) : (s.writeImage c).1.memOk := by
  grind [State.writeImage, memOk_foldl, memOk_putBytes]

@[simp] theorem mem_ctxAnswer (s : State) (t : Nat) (r : ReadAns) : (s.ctxAnswer t r).mem = s.mem := by
  unfold State.ctxAnswer
  split <;> simp

@[simp] theorem testKeeps_ctxTest (f : FmtD) : testKeeps (ctxTest f) := by
  intro s n w t hs h
  grind [ctxTest, memOk_doneD]

@[simp] theorem lateKeeps_ctxLate (f : FmtD) (back : ShadowSt) : lateKeeps (ctxLate f back) := by
  intro s n w hs
  grind [ctxLate, memOk_doneD, setCore_mem]

theorem memOk_execCtxload (f : FmtD) (s : State) {u : State} (hs : s.memOk) (h : execCtxload f s = .next u) :
    u.memOk := by
  grind [execCtxload, memOk_onSup, memOk_doneD, memOk_beginWait, setCore_mem, testKeeps_ctxTest, lateKeeps_ctxLate]

theorem memOk_execContextFillComplete (n : Nat) (s : State) {u : State} (hs : s.memOk)
    (h : execContextFillComplete n s = .next u) : u.memOk := by
  grind [execContextFillComplete, mem_ctxAnswer, setCore_mem]

theorem memOk_ctxsave (s : State) (f : FmtD) (i : Instr) (keep : Bool) (hs : s.memOk) :
    (s.ctxsave f i keep).memOk := by
  grind [State.ctxsave, memOk_onSup, memOk_doneD, memOk_finishExch, setCore_mem, memOk_putBytes, memOk_beginWait,
    testKeeps_ctxTest, lateKeeps_ctxLate]

theorem memOk_execContextSaveComplete (n : Nat) (s : State) {u : State} (hs : s.memOk)
    (h : execContextSaveComplete n s = .next u) : u.memOk := by
  grind [execContextSaveComplete, mem_ctxAnswer, setCore_mem, memOk_writeImage]

@[simp] theorem mem_preemptCores (s : State) (slot : Nat) : (s.preemptCores slot).mem = s.mem := by
  simp [State.preemptCores]

theorem memOk_stopAtTs (s : State) (job : Nat) (hs : s.memOk) : (s.stopAtTs job).memOk := by
  grind [State.stopAtTs, setJob_mem, memOk_setRs, mem_preemptCores]

@[simp] theorem mem_resumeCores (s : State) (slot : Nat) : (s.resumeCores slot).mem = s.mem := by
  simp [State.resumeCores, apply_ite State.mem, mem_foldl]

theorem memOk_gangAtTr (s : State) (job : Nat) (hs : s.memOk) : (s.gangAtTr job).memOk := by
  grind [State.gangAtTr, memOk_setRs, setJob_mem, mem_gangCheck, memOk_releaseTrg, mem_resumeCores]

@[simp] theorem mem_graceEnds (s : State) (job : Nat) : (s.graceEnds job).mem = s.mem := by
  grind [State.graceEnds, setJob_mem, event_mem, mem_castJob]

theorem memOk_execTrapTake (n : Nat) (s : State) {u : State} (hs : s.memOk) (h : execTrapTake n s = .next u) :
    u.memOk := by
  grind [execTrapTake, memOk_takeTrap, setFg_mem]

theorem memOk_completeAll (s : State) (n k : Nat) (l : List Pending) (hs : s.memOk) :
    (completeAll s n k l).memOk := by
  induction k generalizing s l with
  | zero => exact hs
  | succ k ih => grind [completeAll, memOk_complete]

theorem memOk_killTask (s : State) (n : Nat) (hs : s.memOk) : (s.killTask n).memOk := by
  grind [State.killTask, memOk_foldl, memOk_drainWork, mem_flushCopy, memOk_completeAll, setFg_mem, mem_breakBars,
    setCore_mem]

theorem memOk_execTkill (f : FmtQ) (s : State) {u : State} (hs : s.memOk) (h : execTkill f s = .next u) :
    u.memOk := by
  grind [execTkill, memOk_onSup, mem_doneQ, memOk_endTask, memOk_killTask]

@[simp] theorem mem_msgFirst (s : State) (slot : Nat) (tag imm : Word) (payload : List Byte) :
    (s.msgFirst slot tag imm payload).mem = s.mem := by
  grind [State.msgFirst, mem_pushPort, mem_routeOr, mem_send]

theorem memOk_relaunch (s : State) (n : Nat) (i : Machine.Ident) (begun : Bool) (hs : s.memOk) :
    (s.relaunch n i begun).memOk := by
  grind [State.relaunch, modFg_mem, memOk_startTask]

theorem memOk_killShadow (s : State) (n : Nat) (retry : Bool) (hs : s.memOk) : (s.killShadow n retry).memOk := by
  grind [State.killShadow, setCore_mem, mem_breakBars, memOk_taskEnds]

theorem memOk_killGroup (s : State) (i : Machine.Ident) (lv grp : Nat) (retry : Bool) (hs : s.memOk) :
    (s.killGroup i lv grp retry).memOk := by
  grind [State.killGroup, memOk_foldl, memOk_killTask, memOk_relaunch, setCore_mem, memOk_endTask, mem_breakBars,
    memOk_killShadow, memOk_taskEnds]

@[simp] theorem mem_nameLevel (s : State) (n lv : Nat) : (s.nameLevel n lv).mem = s.mem := by
  simp [State.nameLevel]

theorem memOk_haltBy (s : State) (n : Nat) (hs : s.memOk) : (s.haltBy n).memOk := by
  grind [State.haltBy, memOk_originateCore, setFg_mem]

theorem memOk_absorbAt (s : State) (n lv code : Nat) (hs : s.memOk) : (s.absorbAt n lv code).memOk := by
  grind [State.absorbAt, mem_nameLevel, mem_msgFirst, setCore_mem, setFg_mem, modFg_mem, memOk_haltBy, mem_castJob,
    memOk_killGroup]

@[simp] theorem mem_useRetry (s : State) (k : Nat) : (s.useRetry k).mem = s.mem := by
  simp [State.useRetry]

theorem memOk_execContainmentDecision (n : Nat) (s : State) {u : State} (hs : s.memOk)
    (h : execContainmentDecision n s = .next u) : u.memOk := by
  grind [execContainmentDecision, memOk_absorbAt, mem_useRetry, memOk_haltBy, mem_tellFirst, setCore_mem]

@[simp] theorem mem_decideFar (s : State) (slot pkg n num : Nat) (pol : BitVec 14) :
    (s.decideFar slot pkg n num pol).mem = s.mem := by
  grind [State.decideFar, mem_useRetry, mem_castJob]

theorem memOk_decidedFar (s : State) (n lv code : Nat) (hs : s.memOk) : (s.decidedFar n lv code).memOk := by
  grind [State.decidedFar, memOk_haltBy, setCore_mem, memOk_absorbAt]

theorem memOk_execSpareCoreRemap (n : Nat) (s : State) {u : State} (hs : s.memOk)
    (h : execSpareCoreRemap n s = .next u) : u.memOk := by
  grind [execSpareCoreRemap, setCore_mem, memOk_wipePad]

end Sys2Proof.Machine
end

section
/-! SUPPORT. What halts, deadlines and collectives do with memory's canonical form. -/

namespace Sys2Proof.Machine

set_option Elab.async false

theorem memOk_execHaltgo (f : FmtQ) (s : State) {u : State} (hs : s.memOk) (h : execHaltgo f s = .next u) :
    u.memOk := by
  grind [execHaltgo, memOk_onJob, mem_doneQ, memOk_takeWave]

theorem memOk_execHreq (f : FmtQ) (s : State) {u : State} (hs : s.memOk) (h : execHreq f s = .next u) : u.memOk := by
  grind [execHreq, memOk_onSup, mem_doneQ, memOk_originateCore]

theorem memOk_execHaltWaveArrival (job : Nat) (origin jt : Word) (s : State) {u : State} (hs : s.memOk)
    (h : execHaltWaveArrival job origin jt s = .next u) : u.memOk := by
  grind [execHaltWaveArrival, memOk_takeWave]

@[simp] theorem mem_reportIn (s : State) (slot key : Nat) (jt : Word) (l : List (Word × Word)) :
    (s.reportIn slot key jt l).mem = s.mem := by
  simp [State.reportIn]

@[simp] theorem mem_tellOrigins (s : State) (slot k : Nat) (l : List (Word × Word)) :
    (s.tellOrigins slot k l).mem = s.mem := by
  induction k generalizing s l with
  | zero => rfl
  | succ k ih => grind [State.tellOrigins, mem_tellFirst]

theorem memOk_execHaltReport (job : Nat) (s : State) {u : State} (hs : s.memOk) (h : execHaltReport job s = .next u) :
    u.memOk := by
  grind [execHaltReport, setJob_mem, mem_reportIn, mem_tellFirst, mem_tellOrigins]

theorem memOk_execCauseRecordSettle (job : Nat) (s : State) {u : State} (hs : s.memOk)
    (h : execCauseRecordSettle job s = .next u) : u.memOk := by
  grind [execCauseRecordSettle, mem_castJob, setJob_mem]

@[simp] theorem mem_settleIn (s : State) (slot : Nat) (jz : Word) (n : Nat) (l : List (Word × Word)) :
    (s.settleIn slot jz n l).mem = s.mem := by
  simp [State.settleIn, apply_ite State.mem]

theorem memOk_execHcause (f : FmtQ) (s : State) {u : State} (hs : s.memOk) (h : execHcause f s = .next u) :
    u.memOk := by
  grind [execHcause, memOk_onJob, mem_doneQ]

theorem memOk_execHcauseCore (f : FmtQ) (s : State) {u : State} (hs : s.memOk) (h : execHcauseCore f s = .next u) :
    u.memOk := by
  grind [execHcauseCore, memOk_onJob, memOk_trapHere, mem_doneQ]

@[simp] theorem mem_startStep (s : State) (n u : Nat) : (s.startStep n u).mem = s.mem := by
  simp [State.startStep]

theorem memOk_execHstep (f : FmtQ) (s : State) {u : State} (hs : s.memOk) (h : execHstep f s = .next u) :
    u.memOk := by
  grind [execHstep, memOk_onJob, mem_doneQ, mem_startStep]

theorem memOk_execStepEnd (n : Nat) (s : State) {u : State} (hs : s.memOk) (h : execStepEnd n s = .next u) :
    u.memOk := by
  grind [execStepEnd, setCore_mem, event_mem]

theorem memOk_execHresume (f : FmtQ) (s : State) {u : State} (hs : s.memOk) (h : execHresume f s = .next u) :
    u.memOk := by
  grind [execHresume, memOk_onJob, mem_doneQ, mem_castJob, setJob_mem]

theorem memOk_execResumeWaveArrival (job : Nat) (tr jz : Word) (s : State) {u : State} (hs : s.memOk)
    (h : execResumeWaveArrival job tr jz s = .next u) : u.memOk := by
  grind [execResumeWaveArrival, setJob_mem, mem_tellFirst]

theorem memOk_resumeAtTr (s : State) (job : Nat) (hs : s.memOk) : (s.resumeAtTr job).memOk := by
  grind [State.resumeAtTr, mem_mapCores, memOk_setRs, setJob_mem, memOk_releaseTrg, mem_resumeCores]

theorem memOk_dueJob (s : State) (job : Nat) (hs : s.memOk) : (s.dueJob job).memOk := by
  grind [State.dueJob, mem_graceEnds, memOk_gangAtTr, memOk_resumeAtTr, memOk_stopAtTs]

theorem memOk_dueJobs (s : State) (hs : s.memOk) : s.dueJobs.memOk := by
  grind [State.dueJobs, memOk_foldl, memOk_dueJob]

theorem coreWait_keeps {i : Instr} {x : Test × Expiry} (h : coreWait i = some x) :
    testKeeps x.1 ∧ lateKeeps x.2 := by
  unfold coreWait at h
  split at h <;> cases h <;> simp

theorem waiting_keeps {s : State} {a : Agent} {k : Nat} {w : Wait} {test : Test} {late : Expiry}
    (h : s.waiting a = some (k, w, test, late)) : testKeeps test ∧ lateKeeps late := by
  cases a with
  | core n =>
    simp only [State.waiting] at h
    split at h
    · cases h
    · obtain ⟨v, -, h⟩ := Option.bind_eq_some_iff.1 h
      obtain ⟨x, hx, h⟩ := Option.map_eq_some_iff.1 h
      cases h
      exact coreWait_keeps hx
  | thread n =>
    simp only [State.waiting] at h
    split at h
    · cases h
    · obtain ⟨v, -, h⟩ := Option.bind_eq_some_iff.1 h
      obtain ⟨x, hx, h⟩ := Option.map_eq_some_iff.1 h
      cases h
      exact threadWait_keeps hx

@[simp] theorem mem_tested (s : State) : s.tested.mem = s.mem := by
  unfold State.tested
  split <;> simp

theorem memOk_execWaitConditionMet (a : Agent) (s : State) {u : State} (hs : s.memOk)
    (h : execWaitConditionMet a s = .next u) : u.memOk := by
  cases h
  extract_lets wait
  have hw : wait.memOk := by
    simp only [wait]
    split
    · exact hs
    · next k w test late hq =>
      refine memOk_asAgent _ _ _ hs fun t ht => ?_
      split
      · cases hr : test t k w with
        | none => exact memOk_of_mem (mem_tested t) ht
        | some v => exact (waiting_keeps hq).1 _ _ _ _ ht hr
      · exact ht
  clear_value wait
  cases a with
  | core n =>
    dsimp only
    split
    · exact memOk_of_mem (mem_landRead _ _ _ _) hs
    · exact hw
  | thread n => exact hw

theorem memOk_execDeadlineExpiry (a : Agent) (s : State) {u : State} (hs : s.memOk)
    (h : execDeadlineExpiry a s = .next u) : u.memOk := by
  cases h
  extract_lets reads
  have hw : reads.memOk := by
    simp only [reads]
    cases a with
    | core n =>
      dsimp only
      split
      · exact memOk_of_mem (mem_endRead _ _ _ _ _ _) hs
      · exact hs
    | thread n => exact hs
  clear_value reads
  split
  · exact hw
  · next k w test late hq =>
    refine memOk_asAgent _ _ _ hs fun t ht => ?_
    split
    · exact hw
    · exact (waiting_keeps hq).2 _ _ _ ht

@[simp] theorem mem_setColl (s : State) (slot : Nat) (c : Coll) : (s.setColl slot c).mem = s.mem := by
  simp [State.setColl]

@[simp] theorem mem_collPut (s : State) (slot : Nat) (c : Coll) (code rank : Nat) (rail : Option Nat)
    (rest : List Byte) : (s.collPut slot c code rank rail rest).mem = s.mem := by
  simp only [State.collPut]
  split <;> exact mem_routeOr _ _

@[simp] theorem mem_collSend (s : State) (slot : Nat) (c : Coll) (code rank : Nat) (rest : List Byte) :
    (s.collSend slot c code rank rest).mem = s.mem := by
  simp [State.collSend]

@[simp] theorem mem_collData (s : State) (slot : Nat) (c : Coll) (code : Nat) (l : List (Nat × List (Option Nat))) :
    (s.collData slot c code l).mem = s.mem := by
  simp [State.collData, mem_foldl]

@[simp] theorem mem_coordinate (s : State) (slot : Nat) (crc : BitVec 32) (ordinal : Nat) :
    (s.coordinate slot crc ordinal).mem = s.mem := by
  grind [State.coordinate, mem_foldl, setJob_mem, mem_setColl, mem_collSend]

@[simp] theorem mem_shakeIn (s : State) (slot : Nat) (h : Handshake) : (s.shakeIn slot h).mem = s.mem := by
  grind [State.shakeIn, mem_coordinate, setJob_mem]

theorem memOk_execCollectiveHandshake (h : Handshake) (s : State) {u : State} (hs : s.memOk)
    (h : execCollectiveHandshake h s = .next u) : u.memOk := by
  grind [execCollectiveHandshake, mem_shakeIn]

theorem memOk_execCollst (f : FmtQ) (s : State) {u : State} (hs : s.memOk) (h : execCollst f s = .next u) :
    u.memOk := by
  grind [execCollst, memOk_onJob, memOk_hoff, mem_doneQ, setJob_mem, mem_shakeIn, mem_collSend]

@[simp] theorem mem_collRead (s : State) (slot : Nat) (c : Coll) (tw : Word) (k : Nat) :
    (s.collRead slot c tw k).2.2.mem = s.mem := by
  grind [State.collRead, mem_readVa]

theorem memOk_writeEls (w : Who) (bs : List Byte) (pois : List Nat) (tw k off : Nat) (s : State) {u : State}
    (hs : s.memOk) (h : writeEls w bs pois tw k off s = .inr u) : u.memOk := by
  induction k generalizing s off with
  | zero => grind [writeEls]
  | succ k ih => grind [writeEls, memOk_writeVa, Wrote.state]

theorem memOk_collWrite (s : State) (slot : Nat) (c : Coll) (tw : Word) (l : List (Option Nat)) {u : State}
    (hs : s.memOk) (h : s.collWrite slot c tw l = .inr u) : u.memOk := by
  grind [State.collWrite, memOk_writeEls]

@[simp] theorem mem_foldAll (s : State) (rop ty : Nat) (l : List (List (Option Nat))) :
    (s.foldAll rop ty l).1.mem = s.mem := by
  simp [State.foldAll]

@[simp] theorem mem_spread (s : State) (slot : Nat) (c : Coll) : (s.spread slot c).mem = s.mem := by
  grind [State.spread, mem_foldl, mem_setColl, mem_collSend]

@[simp] theorem mem_collFault (s : State) (slot : Nat) (c : Coll) (cause : Nat) (own : Bool) :
    (s.collFault slot c cause own).mem = s.mem := by
  grind [State.collFault, mem_setColl, mem_spread]

@[simp] theorem mem_coordFault (s : State) (slot : Nat) (crc : BitVec 32) (ordinal cause : Nat) :
    (s.coordFault slot crc ordinal cause).mem = s.mem := by
  simp [State.coordFault]

theorem memOk_collStart (s : State) (slot : Nat) (c : Coll) (hs : s.memOk) : (s.collStart slot c).memOk := by
  unfold State.collStart
  extract_lets parts rd r
  have hr : r.2.2.memOk := by
    refine List.foldlRecOn
      (motive := fun a : (Nat ⊕ List (List (Option Nat))) × Option Word × State => a.2.2.memOk) _ _ hs
      fun a ha x _ => ?_
    simp only [rd]
    grind [mem_collRead]
  clear_value r
  split
  · rwa [State.memOk, mem_collFault]
  · next l _ =>
    extract_lets y bs src staged c'
    have hy : y.1.memOk := by rwa [State.memOk, mem_foldAll]
    have hst (u : State) (hu : staged = .inr u) : u.memOk := by
      simp only [staged] at hu
      split at hu
      · exact memOk_writeEls _ _ _ _ _ _ _ (by exact hy) hu
      · cases hu
        exact hy
    clear_value staged c'
    cases staged with
    | inl e => rwa [State.memOk, mem_collFault]
    | inr u =>
      have hu := hst u rfl
      dsimp only
      split
      · rwa [State.memOk, mem_collData, mem_setColl]
      · split
        · rwa [State.memOk, mem_collData, mem_setColl]
        · rwa [State.memOk, mem_setColl]

@[simp] theorem mem_collPod (s : State) (slot : Nat) (c : Coll) (l : List (List (Option Nat))) :
    (s.collPod slot c l).mem = s.mem := by
  simp [State.collPod, apply_ite State.mem]

@[simp] theorem mem_collAcross (s : State) (slot : Nat) (c : Coll) (l : List (List (Option Nat))) :
    (s.collAcross slot c l).mem = s.mem := by
  simp [State.collAcross, apply_ite State.mem]

theorem memOk_collOut (s : State) (slot : Nat) (c : Coll) (hs : s.memOk) : (s.collOut slot c).memOk := by
  simp only [State.collOut]
  generalize hr : List.foldl _ _ _ = r
  have hr : ∀ u, r = .inr u → u.memOk := by
    rw [← hr]
    refine List.foldlRecOn (motive := fun a : Nat ⊕ State => ∀ u, a = .inr u → u.memOk) _ _ ?_ fun a ha x _ u hu => ?_
    · rintro u ⟨⟩
      exact hs
    · cases a with
      | inl e => cases hu
      | inr v => exact memOk_collWrite _ _ _ _ _ (ha v rfl) hu
  cases r with
  | inl e => rwa [State.memOk, mem_collFault]
  | inr u =>
    rw [State.memOk, mem_setColl]
    exact hr u rfl

theorem memOk_collStep (s : State) (slot : Nat) (c : Coll) {u : State} (hs : s.memOk)
    (h : s.collStep slot c = some u) : u.memOk := by
  grind [State.collStep, Option.map_eq_some_iff, memOk_collStart, memOk_collOut, mem_collPod, mem_collAcross,
    mem_setColl, mem_collData]

theorem memOk_collRun (slot num k : Nat) (s : State) (hs : s.memOk) : (collRun slot num k s).memOk := by
  induction k generalizing s with
  | zero => exact hs
  | succ k ih => grind [collRun, memOk_collStep]

theorem memOk_collIn (s : State) (jid : Nat) (bs : List Byte) (hs : s.memOk) : (s.collIn jid bs).memOk := by
  grind [State.collIn, mem_shakeIn, mem_coordFault, mem_setColl, mem_collFault, memOk_collRun]

theorem memOk_execCollectiveGo (job num : Nat) (ok : Bool) (s : State) {u : State} (hs : s.memOk)
    (h : execCollectiveGo job num ok s = .next u) : u.memOk := by
  grind [execCollectiveGo, memOk_collRun]

theorem memOk_collEnd (s : State) (job num : Nat) (hs : s.memOk) : (s.collEnd job num).memOk := by
  grind [State.collEnd, setJob_mem, memOk_putBytes, memOk_bumpCtr, mem_sendDep]

theorem memOk_dueColl (s : State) (slot : Nat) (hs : s.memOk) : (s.dueColl slot).memOk := by
  grind [State.dueColl, memOk_foldl, memOk_collEnd, setJob_mem, mem_spread, mem_coordinate]

theorem memOk_dueColls (s : State) (hs : s.memOk) : s.dueColls.memOk := by
  grind [State.dueColls, memOk_foldl, memOk_dueColl]

end Sys2Proof.Machine
end

section
/-! SUPPORT. What the fabric does with memory's canonical form. -/

namespace Sys2Proof.Machine

set_option Elab.async false

theorem memOk_outState (s : State) (o : Out) (hs : s.memOk) (ho : ∀ u, o = .next u → u.memOk) :
    (outState s o).memOk := by
  cases o with
  | next t => exact ho t rfl
  | fault => exact hs
  | refused => exact hs

theorem memOk_writeIn (s : State) (p : FabPkt) (hs : s.memOk) : (s.writeIn p).memOk := by
  grind [State.writeIn, mem_ackWrite, memOk_padCells, mem_cxlEvent, mem_mark, memOk_writeCells]

@[simp] theorem mem_sendRead (s : State) (p : FabPkt) (r : ReadAns) : (s.sendRead p r).mem = s.mem := by
  unfold State.sendRead
  split <;> simp

theorem memOk_atomIn (s : State) (p : FabPkt) (hs : s.memOk) : (s.atomIn p).memOk := by
  grind [State.atomIn, mem_answerAtom, memOk_runAtom, markDirty_mem, mem_cxlEvent]

theorem memOk_appendIn (s : State) (p : FabPkt) (hs : s.memOk) : (s.appendIn p).1.memOk := by
  grind [State.appendIn, memOk_appendAt]

@[simp] theorem mem_ackPosted (s : State) (n src addr cause : Nat) : (s.ackPosted n src addr cause).mem = s.mem := by
  grind [State.ackPosted, mem_postDone]

@[simp] theorem mem_ceAnswer (s : State) (n : Nat) (e : Eng) (src addr cause : Nat) (fl : BitVec 6)
    (bad : Option Word) : (s.ceAnswer n e src addr cause fl bad).mem = s.mem := by
  grind [State.ceAnswer, modFg_mem, setCore_mem, mem_stopFault]

theorem memOk_hcAnswer (s : State) (cause : Nat) (fl : BitVec 6) (old : Option Nat) (bad : Option Word)
    (hs : s.memOk) : (s.hcAnswer cause fl old bad).memOk := by
  grind [State.hcAnswer, memOk_putOld, memOk_moveHcopy, mem_setHcopy]

@[simp] theorem mem_ackMsg (s : State) (src key : Nat) (ok : Bool) : (s.ackMsg src key ok).mem = s.mem := by
  unfold State.ackMsg
  split <;> simp

theorem memOk_ackIn (s : State) (p : FabPkt) (hs : s.memOk) : (s.ackIn p).memOk := by
  grind [State.ackIn, mem_ackPosted, mem_ceAnswer, mem_ackMsg, memOk_hcAnswer]

@[simp] theorem mem_appendAnswer (s : State) (n : Nat) (e : Eng) (q : QEntry) (retry : Bool) (code v : Nat) :
    (s.appendAnswer n e q retry code v).mem = s.mem := by
  grind [State.appendAnswer, modFg_mem, mem_stopFault]

theorem memOk_respIn (s : State) (p : FabPkt) (hs : s.memOk) : (s.respIn p).memOk := by
  grind [State.respIn, mem_stopFault, mem_ceAnswer, mem_appendAnswer, memOk_putOld, memOk_moveHcopy, mem_setHcopy,
    memOk_hcAnswer]

@[simp] theorem mem_shareIn (s : State) (slot num lo n : Nat) (rdy : Word) (d : Desc) :
    (s.shareIn slot num lo n rdy d).mem = s.mem := by
  generalize hF : @State.shareIn = F
  delta State.shareIn at hF
  obtain ⟨top, htop⟩ : ∃ k, k = 2 ^ 32 := ⟨_, rfl⟩
  rw [← htop] at hF
  clear htop
  subst hF
  dsimp only
  have hu : (if (num + top - (s.job slot).launches) % top < 2 ^ 31 then
      s.setJob slot { s.job slot with launches := (num + 1) % top } else s).mem = s.mem := by
    simp [apply_ite State.mem]
  generalize (if (num + top - (s.job slot).launches) % top < 2 ^ 31 then
      s.setJob slot { s.job slot with launches := (num + 1) % top } else s) = u at hu ⊢
  cases u.launch slot num <;> simp [apply_ite State.mem, hu]

theorem memOk_reportSum (s : State) (slot num extra : Nat) (d : Desc) (hs : s.memOk) :
    (s.reportSum slot num extra d).memOk := by
  unfold State.reportSum
  refine memOk_addReport _ _ _ _ ?_
  split <;> exact hs

theorem memOk_killIn (s : State) (slot num : Nat) (retry : Bool) (hs : s.memOk) :
    (s.killIn slot num retry).memOk := by
  grind [State.killIn, memOk_killGroup]

theorem memOk_ctrlIn (s : State) (bs : List Byte) (hs : s.memOk) : (s.ctrlIn bs).memOk := by
  grind [State.ctrlIn, outState, memOk_takeWave, mem_breakPhase, mem_shareIn, memOk_reportSum, mem_gangReport,
    setJob_mem, memOk_outState, memOk_execResumeWaveArrival, mem_settleIn, mem_reportIn, event_mem, memOk_killIn,
    mem_decideFar, memOk_decidedFar, memOk_bumpCtr, mem_stolenFrom, mem_stolenBy]

theorem memOk_messageIn (s : State) (m : Msg) (hs : s.memOk) : (s.messageIn m).1.memOk := by
  grind [State.messageIn, memOk_ctrlIn, memOk_collIn, memOk_arriveMsg]

theorem memOk_execMessageArrivalCtrl (m : Msg) (s : State) {u : State} (hs : s.memOk)
    (h : execMessageArrivalCtrl m s = .next u) : u.memOk := by
  grind [execMessageArrivalCtrl, memOk_messageIn, memOk_messageArrival]

theorem memOk_partIn (s : State) (p : FabPkt) (hs : s.memOk) : (s.partIn p).memOk := by
  grind [State.partIn, memOk_messageIn, mem_inject]

theorem memOk_signalIn (s : State) (p : FabPkt) (hs : s.memOk) : (s.signalIn p).memOk := by
  grind [State.signalIn, memOk_appendIn, mem_inject, mem_answerSig, memOk_bumpCtr]

theorem memOk_State_deliver (s : State) (p : FabPkt) (hs : s.memOk) : (s.deliver p).memOk := by
  grind [State.deliver, outState, memOk_writeIn, memOk_ackIn, mem_sendRead, memOk_outState,
    memOk_execReadReplyArrival, memOk_atomIn, memOk_respIn, memOk_signalIn, memOk_partIn, mem_tlbAsked, mem_tlbTaken,
    memOk_ctrlIn]

@[simp] theorem mem_sendLoose (s : State) (dst : Nat) (payload : List Byte) :
    (s.sendLoose dst payload).mem = s.mem := by
  simp [State.sendLoose, apply_ite State.mem]

@[simp] theorem mem_sendAck (s : State) (src : Nat) : (s.sendAck src).mem = s.mem := by
  simp [State.sendAck]

@[simp] theorem mem_owe (s : State) (src : Nat) : (s.owe src).mem = s.mem := by
  simp [State.owe, apply_ite State.mem]

theorem memOk_drainRx (src k : Nat) (s : State) (hs : s.memOk) : (drainRx src k s).memOk := by
  induction k generalizing s with
  | zero => exact hs
  | succ k ih => grind [drainRx, mem_owe, memOk_State_deliver]

@[simp] theorem mem_pumpGo (l : List FabPkt) (s : State) : (pumpGo l s).mem = s.mem := by
  induction l generalizing s with
  | nil => rfl
  | cons p r ih => grind [pumpGo, mem_injectNow]

@[simp] theorem mem_pump (s : State) : s.pump.mem = s.mem := by
  grind [State.pump, mem_pumpGo]

@[simp] theorem mem_acked (s : State) (src seq : Nat) : (s.acked src seq).mem = s.mem := by
  simp [State.acked]

theorem memOk_arrive' (s : State) (p : FabPkt) (hs : s.memOk) : (s.arrive' p).memOk := by
  grind [State.arrive', mem_owe, memOk_drainRx]

@[simp] theorem mem_transit (s : State) (p : FabPkt) : (s.transit p).mem = s.mem := by
  simp [State.transit, apply_ite State.mem]

theorem memOk_execFabricPacketReceive (p : FabPkt) (s : State) {u : State} (hs : s.memOk)
    (h : execFabricPacketReceive p s = .next u) : u.memOk := by
  grind [execFabricPacketReceive, mem_transit, mem_acked, memOk_arrive']

theorem memOk_execFabricAckTimer (src : Nat) (s : State) {u : State} (hs : s.memOk)
    (h : execFabricAckTimer src s = .next u) : u.memOk := by
  grind [execFabricAckTimer, mem_sendAck]

theorem memOk_abandon (s : State) (p : FabPkt) (hs : s.memOk) : (s.abandon p).memOk := by
  grind [State.abandon, mem_ackPosted, mem_ceAnswer, mem_appendAnswer, mem_stopFault, memOk_hcAnswer, mem_dropSent,
    mem_collFault, mem_endSend]

theorem memOk_resend (s : State) (t : TxPkt) (hs : s.memOk) : (s.resend t).memOk := by
  grind [State.resend, mem_pump, memOk_abandon, mem_sendLoose, mem_emit]

theorem memOk_execPacketResendTimeout (dst : Nat) (s : State) {u : State} (hs : s.memOk)
    (h : execPacketResendTimeout dst s = .next u) : u.memOk := by
  grind [execPacketResendTimeout, memOk_resend]

theorem memOk_execFlitReceive (port : Nat) (f : Flit) (s : State) {u : State} (hs : s.memOk)
    (h : execFlitReceive port f s = .next u) : u.memOk := by
  grind [execFlitReceive, mem_setPort', mem_pump]

theorem memOk_execLaneDown (port lane : Nat) (s : State) {u : State} (hs : s.memOk)
    (h : execLaneDown port lane s = .next u) : u.memOk := by
  grind [execLaneDown, mem_setPort']

@[simp] theorem mem_widthEvent (s : State) (tag port : Nat) (st : LinkSt) :
    (s.widthEvent tag port st).mem = s.mem := by
  simp [State.widthEvent]

theorem memOk_loseLink (s : State) (port : Nat) (hs : s.memOk) : (s.loseLink port).memOk := by
  grind [State.loseLink, memOk_foldl, mem_widthEvent, memOk_resend]

@[simp] theorem mem_setWidth (s : State) (port : Nat) (st : LinkSt) (grp : Nat) :
    (s.setWidth port st grp).mem = s.mem := by
  simp [State.setWidth]

theorem memOk_execRetrainComplete (port : Nat) (s : State) {u : State} (hs : s.memOk)
    (h : execRetrainComplete port s = .next u) : u.memOk := by
  grind [execRetrainComplete, mem_setWidth, memOk_loseLink]

theorem memOk_execRetrainTimeout (port : Nat) (s : State) {u : State} (hs : s.memOk)
    (h : execRetrainTimeout port s = .next u) : u.memOk := by
  grind [execRetrainTimeout, memOk_loseLink]

theorem memOk_dueFabric (s : State) (hs : s.memOk) : s.dueFabric.memOk := by
  grind [State.dueFabric, memOk_foldl, mem_sendAck, memOk_resend, memOk_loseLink]

theorem memOk_execSeamLinkFail (link : Nat) (s : State) {u : State} (hs : s.memOk)
    (h : execSeamLinkFail link s = .next u) : u.memOk := by
  grind [execSeamLinkFail, event_mem]

theorem memOk_execTimeSyncMeasure (t0 t1 t2 t3 : Word) (s : State) {u : State} (hs : s.memOk)
    (h : execTimeSyncMeasure t0 t1 t2 t3 s = .next u) : u.memOk := by
  grind [execTimeSyncMeasure]

@[simp] theorem mem_slewTick (s : State) : s.slewTick.mem = s.mem := by
  simp [State.slewTick, apply_ite State.mem]

end Sys2Proof.Machine
end

section
/-! SUPPORT. What management, the host and boot do with memory's canonical form. -/

namespace Sys2Proof.Machine

set_option Elab.async false

@[simp] theorem mem_hostRefused (s : State) : s.hostRefused.mem = s.mem := by
  simp [State.hostRefused]

theorem memOk_pageWrite (s : State) (f page off : Nat) (data : List Byte) (hs : s.memOk) :
    (s.pageWrite f page off data).memOk := by
  unfold State.pageWrite
  split
  · exact memOk_of_mem (mem_hostRefused _) hs
  · dsimp only
    have hw := memOk_writeCells s (slotCells page off data) hs
    split
    · exact hw
    · exact memOk_outState _ _ hw fun u hu => memOk_execTailWrite _ _ _ (by exact hw) hu

theorem memOk_execQueuePageWrite (func page off : Nat) (data : List Byte) (s : State) {u : State} (hs : s.memOk)
    (h : execQueuePageWrite func page off data s = .next u) : u.memOk := by
  grind [execQueuePageWrite, memOk_pageWrite]

theorem memOk_execVecStoreMsix (page : Nat) (s : State) {u : State} (hs : s.memOk)
    (h : execVecStoreMsix page s = .next u) : u.memOk := by
  grind [execVecStoreMsix]

@[simp] theorem mem_reply (s : State) (res : Nat) (data : List Byte) : (s.reply res data).mem = s.mem := by
  simp [State.reply]

@[simp] theorem mem_doorbell (s : State) (v : Nat) : (s.doorbell v).mem = s.mem := by
  simp [State.doorbell, apply_ite State.mem]

theorem memOk_execIdent (s : State) {u : State} (hs : s.memOk) (h : execIdent s = .next u) : u.memOk := by
  grind [execIdent, State.onCommand, mem_reply]

theorem memOk_execRead (s : State) {u : State} (hs : s.memOk) (h : execRead s = .next u) : u.memOk := by
  grind [execRead, State.onCommand, mem_reply]

theorem memOk_execAttest (s : State) {u : State} (hs : s.memOk) (h : execAttest s = .next u) : u.memOk := by
  grind [execAttest, State.onCommand, mem_reply]

theorem memOk_execHbmerr (s : State) {u : State} (hs : s.memOk) (h : execHbmerr s = .next u) : u.memOk := by
  grind [execHbmerr, State.onCommand, mem_reply]

theorem memOk_execWindow (s : State) {u : State} (hs : s.memOk) (h : execWindow s = .next u) : u.memOk := by
  grind [execWindow, State.onCommand, mem_reply]

@[simp] theorem mem_restoreRoutes (s : State) (port : Nat) : (s.restoreRoutes port).mem = s.mem := by
  simp [State.restoreRoutes]

theorem memOk_retrain (s : State) (port : Nat) (hs : s.memOk) : (s.retrain port).memOk := by
  grind [State.retrain, mem_nextFree, mem_setPort', memOk_loseLink, mem_setWidth, mem_restoreRoutes]

theorem memOk_execLink (s : State) {u : State} (hs : s.memOk) (h : execLink s = .next u) : u.memOk := by
  cases h
  unfold State.onCommand
  split
  · extract_lets kind i many f v
    clear_value many
    split
    · exact memOk_of_mem (mem_reply _ _ _) hs
    · refine memOk_of_mem (mem_reply _ _ _) ?_
      have hf : f.2.memOk := memOk_of_mem (mem_nextFree _) hs
      clear_value f
      grind [memOk_retrain]
  · exact hs

theorem memOk_execCommit (s : State) {u : State} (hs : s.memOk) (h : execCommit s = .next u) : u.memOk := by
  grind [execCommit, State.onCommand, mem_reply]

theorem memOk_execBootld (s : State) {u : State} (hs : s.memOk) (h : execBootld s = .next u) : u.memOk := by
  grind [execBootld, State.onCommand, mem_reply]

theorem memOk_execPower (s : State) {u : State} (hs : s.memOk) (h : execPower s = .next u) : u.memOk := by
  grind [execPower, State.onCommand, mem_reply]

theorem memOk_execTherm (s : State) {u : State} (hs : s.memOk) (h : execTherm s = .next u) : u.memOk := by
  grind [execTherm, State.onCommand, mem_reply]

@[simp] theorem mem_duePower (s : State) : s.duePower.mem = s.mem := by
  grind [State.duePower]

theorem memOk_execPowerStateChange (s : State) {u : State} (hs : s.memOk) (h : execPowerStateChange s = .next u) :
    u.memOk := by
  grind [execPowerStateChange, mem_duePower]

theorem memOk_execPowerMeasure (share watts : Nat) (s : State) {u : State} (hs : s.memOk)
    (h : execPowerMeasure share watts s = .next u) : u.memOk := by
  grind [execPowerMeasure, mem_nextFree]

theorem memOk_haltAll (s : State) (hs : s.memOk) : s.haltAll.memOk := by
  grind [State.haltAll, memOk_foldl, memOk_takeWave]

theorem memOk_execThermalThreshold (temp : Nat) (s : State) {u : State} (hs : s.memOk)
    (h : execThermalThreshold temp s = .next u) : u.memOk := by
  grind [execThermalThreshold, mem_nextFree, event_mem, memOk_haltAll]

@[simp] theorem mem_complete' (s : State) (c : CplSt) (bs : List Byte) : (s.complete' c bs).mem = s.mem := by
  simp [State.complete']

theorem memOk_windowAccess (s : State) (f off : Nat) (write : Bool) (data : List Byte) (hs : s.memOk) :
    (s.windowAccess f off write data).memOk := by
  grind [State.windowAccess, mem_hostRefused, mem_cxlEvent, mem_complete', memOk_storeCells, memOk_writeCells]

@[simp] theorem mem_boxWrite (s : State) (off : Nat) (data : List Byte) : (s.boxWrite off data).mem = s.mem := by
  simp [State.boxWrite, apply_ite State.mem]

theorem memOk_execHostWindowAccess (func off : Nat) (write : Bool) (data : List Byte) (s : State) {u : State}
    (hs : s.memOk) (h : execHostWindowAccess func off write data s = .next u) : u.memOk := by
  grind [execHostWindowAccess, mem_complete', memOk_windowAccess, mem_boxWrite, memOk_pageWrite]

theorem memOk_execCxlLinkDownAccess (port : Nat) (s : State) {u : State} (hs : s.memOk)
    (h : execCxlLinkDownAccess port s = .next u) : u.memOk := by
  grind [execCxlLinkDownAccess, event_mem]

@[simp] theorem mem_countCore (s : State) (n : Nat) : (s.countCore n).mem = s.mem := by
  simp [State.countCore]

@[simp] theorem mem_countErr (s : State) (a : Nat) : (s.countErr a).mem = s.mem := by
  unfold State.countErr
  split <;> simp

@[simp] theorem mem_arrayErr (s : State) (code n k : Nat) (ok : Bool) : (s.arrayErr code n k ok).mem = s.mem := by
  simp [State.arrayErr, apply_ite State.mem]

theorem memOk_execScrubbing (g : Nat) (ok : Bool) (s : State) {u : State} (hs : s.memOk)
    (h : execScrubbing g ok s = .next u) : u.memOk := by
  grind [execScrubbing, mem_arrayErr, mem_countErr]

theorem memOk_execDeviceReset (s : State) {u : State} (_ : s.memOk) (h : execDeviceReset s = .next u) : u.memOk := by
  cases h
  dsimp only
  have hr : State.reset.memOk := by decide
  split
  · exact hr
  · exact memOk_putBytes _ _ _ (memOk_putBytes _ _ _ (by exact hr))

end Sys2Proof.Machine
end

section
/-! SUPPORT. Every instruction, cycle, turn and step keeps memory's canonical form. -/

namespace Sys2Proof.Machine

set_option Elab.async false

theorem memOk_exec (i : Instr) (s : State) {u : State} (hs : s.memOk) (h : exec i s = .next u) : u.memOk := by
  cases i with
  | scalarLoad _ => exact memOk_execScalarLoad _ _ hs h
  | scalarStore _ => exact memOk_execScalarStore _ _ hs h
  | rv64IntegerOp _ _ => exact memOk_execRv64IntegerOp _ _ _ hs h
  | instructionFetch => exact memOk_execInstructionFetch _ hs h
  | fence _ => exact memOk_next (memOk_of_mem (retire_mem _ _ _) hs) h
  | fenceI _ => exact memOk_execFenceI _ _ hs h
  | ecall => exact memOk_execEcall _ hs h
  | ebreak | cEbreak => exact memOk_next (memOk_breakAt _ _ hs) h
  | csrAccess _ => exact memOk_execCsrAccess _ _ hs h
  | bfmtWrite _ => exact memOk_execBfmtWrite _ _ hs h
  | bfmtTakesEffect _ => exact memOk_execBfmtTakesEffect _ _ hs h
  | sleepu _ => exact memOk_execSleepu _ _ hs h
  | engdl _ => exact memOk_execEngdl _ _ hs h
  | engst _ => exact memOk_execEngst _ _ hs h
  | engsync _ => exact memOk_execEngsync _ _ hs h
  | semwait _ => exact memOk_execSemwait _ _ hs h
  | semsig _ => exact memOk_execSemsig _ _ hs h
  | semadd _ => exact memOk_execSemadd _ _ hs h
  | semrd _ => exact memOk_execSemrd _ _ hs h
  | engringOff _ | engringGo _ | engringSkip _ | engringDrop _ => exact memOk_next (memOk_ringOp _ _ _ _ hs) h
  | engringOn _ => exact memOk_execEngringOn _ _ hs h
  | slcfg _ | sladvCons _ | sladvProd _ | sltokRd _ | sltokPut _ | sltokTake _ =>
    exact memOk_next (memOk_spoolIssue _ _ _ _ _ hs) h
  | bar _ => exact memOk_execBar _ _ hs h
  | bara _ => exact memOk_execBara _ _ hs h
  | barw _ => exact memOk_execBarw _ _ hs h
  | barx _ => exact memOk_execBarx _ _ hs h
  | barrierArrivalAtHome _ => exact memOk_execBarrierArrivalAtHome _ _ hs h
  | barrierWithdrawalAtHome _ => exact memOk_execBarrierWithdrawalAtHome _ _ hs h
  | barrierReply _ => exact memOk_execBarrierReply _ _ hs h
  | tlaunch _ => exact memOk_execTlaunch _ _ hs h
  | texit _ => exact memOk_execTexit _ _ hs h
  | taskEnd _ => exact memOk_execTaskEnd _ _ hs h
  | tyield _ => exact memOk_execTyield _ _ hs h
  | tarm _ => exact memOk_execTarm _ _ hs h
  | depCounterDecrement _ _ _ => exact memOk_execDepCounterDecrement _ _ _ _ hs h
  | mark _ => exact memOk_execMark _ _ hs h
  | pfence _ | xfence _ => exact memOk_next (memOk_fence _ _ _ hs) h
  | dld _ => exact memOk_execDld _ _ hs h
  | taglk _ => exact memOk_execTaglk _ _ hs h
  | tagset _ => exact memOk_execTagset _ _ hs h
  | tagclr _ => exact memOk_execTagclr _ _ hs h
  | tagclrAll _ => exact memOk_execTagclrAll _ _ hs h
  | tagvic _ => exact memOk_execTagvic _ _ hs h
  | cpput _ | cpputP _ => exact memOk_next (memOk_cpput _ _ _ _ hs) h
  | tret _ | tretSkip _ => exact memOk_next (memOk_tret _ _ _ _ hs) h
  | cutrd _ => exact memOk_execCutrd _ _ hs h
  | ctxswap _ => exact memOk_execCtxswap _ _ hs h
  | contextExchangeComplete _ => exact memOk_execContextExchangeComplete _ _ hs h
  | ctxsave _ | ctxsaveKeep _ => exact memOk_next (memOk_ctxsave _ _ _ _ hs) h
  | contextSaveComplete _ => exact memOk_execContextSaveComplete _ _ hs h
  | ctxload _ => exact memOk_execCtxload _ _ hs h
  | contextFillComplete _ => exact memOk_execContextFillComplete _ _ hs h
  | sbset _ => exact memOk_execSbset _ _ hs h
  | tkill _ => exact memOk_execTkill _ _ hs h
  | matset _ => exact memOk_execMatset _ _ hs h
  | tlbinvPg _ | tlbinvAs _ | tlbinvAll _ => exact memOk_next (memOk_tlbinv _ _ _ _ hs) h
  | hreq _ => exact memOk_execHreq _ _ hs h
  | vadd _ | vsub _ | vmul _ | vmulh _ | vfma _ | vfms _ | vfnma _ | vdiv _ | vsqrt _ | vmin _ | vmax _ | vabs _
  | vneg _ | vadds _ | vsubs _ | vshl _ | vshr _ | vsra _ | vcmp _ | vredsum _ | vredmin _ | vredmax _ | vand _
  | vandNb _ | vor _ | vorNb _ | vxor _ | vxorNb _ | vfsh _ | vfshw _ | vrot _ | vpopc _ | vclz _ | vshuf _
  | vbcast _ | vbcastEl _ | vzip _ | vzipHi _ | vunzip _ | vunzipOdd _ | vsel _ | vmvx _ | vmxv _ | pand _ | por _
  | pxor _ | pandn _ | pcnt _ | vcvt _ | vcvtSat _ | vpack _ | vunpk _ | vqmx _ | vdqmx _ | vcbl _ | vcblEnc _ =>
    exact memOk_next (memOk_issueV _ _ _ _ _ _ hs) h
  | vaddi _ | vlrot _ | vslide _ | pset _ => exact memOk_next (memOk_issueVI _ _ _ _ _ _ hs) h
  | vlut3 _ => (refine memOk_next (memOk_issueEng _ _ _ _ _ _ _ _ _ hs ?_) h; simp)
  | vld _ | vlds _ | vldx _ | vst _ | vsts _ | vstx _ => exact memOk_next (memOk_issueVM _ _ _ _ _ hs) h
  | vldw _ | vtrd _ => (refine memOk_next (memOk_issueRead _ _ _ _ hs ?_) h; simp)
  | readReplyArrival _ _ _ => exact memOk_execReadReplyArrival _ _ _ _ hs h
  | postedWritePerformed _ => exact memOk_execPostedWritePerformed _ _ hs h
  | postedWriteAck _ _ => exact memOk_execPostedWriteAck _ _ _ hs h
  | mmaAcc _ | mmaOvw _ | mmaSacc _ | mmaSovw _ | mzero _ | mcfg _ | mgetr _ | msetr _ | mgetc _ | msetc _ | mload _
  | mhadRow _ | mhadCol _ | mdrain _ | mcbld _ | mbind _ | mcopy _ | mcopyAdd _ =>
    (refine memOk_next (memOk_issueM _ _ _ _ hs ?_) h; simp)
  | copy _ | tcopyRd _ | tcopyWr _ | im2colw _ | fill _ | accw _ | fop _ | cas _ | redcopy _ | mcast _ | amcast _
  | spfill _ | spdrain _ | qappend _ | sigrem _ =>
    exact memOk_next (memOk_issueCP _ _ _ hs) h
  | multicastTileArrival _ => exact memOk_execMulticastTileArrival _ _ hs h
  | amcastRetry _ => exact memOk_execAmcastRetry _ _ hs h
  | qappendAtTarget _ => exact memOk_execQappendAtTarget _ _ hs h
  | remoteSignalArrival _ _ _ => exact memOk_execRemoteSignalArrival _ _ _ _ hs h
  | copyPacketCompletion _ => exact memOk_execCopyPacketCompletion _ _ hs h
  | missedPromise _ _ => exact memOk_execMissedPromise _ _ _ hs h
  | wordForward _ _ => exact memOk_execWordForward _ _ _ hs h
  | forwardHoldRelease _ => exact memOk_execForwardHoldRelease _ _ hs h
  | forwardHoldTimeout _ => exact memOk_execForwardHoldTimeout _ _ hs h
  | engineEntryStart _ _ => exact memOk_execEngineEntryStart _ _ _ hs h
  | engineWaitTimeout _ _ => exact memOk_execEngineWaitTimeout _ _ _ hs h
  | engineCommandComplete _ _ => exact memOk_execEngineCommandComplete _ _ _ hs h
  | waitConditionMet _ => exact memOk_execWaitConditionMet _ _ hs h
  | deadlineExpiry _ => exact memOk_execDeadlineExpiry _ _ hs h
  | trapTake _ => exact memOk_execTrapTake _ _ hs h
  | containmentDecision _ => exact memOk_execContainmentDecision _ _ hs h
  | inFlightReinject _ => exact memOk_execInFlightReinject _ _ hs h
  | launchDivide => exact memOk_execLaunchDivide _ hs h
  | leafLaunchTake _ => exact memOk_execLeafLaunchTake _ _ hs h
  | steal _ _ _ => exact memOk_execSteal _ _ _ _ hs h
  | taskDispatch _ => exact memOk_execTaskDispatch _ _ hs h
  | completionReport _ _ _ => exact memOk_execCompletionReport _ _ _ _ hs h
  | hbmFrameBoundary => exact memOk_execHbmFrameBoundary _ hs h
  | storePerformedInSlot _ _ _ => exact memOk_execStorePerformedInSlot _ _ _ _ hs h
  | storeBackpressure _ _ => exact memOk_execStoreBackpressure _ _ _ hs h
  | migrationCheck _ => exact memOk_execMigrationCheck _ _ hs h
  | migrationSwitch _ => exact memOk_execMigrationSwitch _ _ hs h
  | hamperScalarAccess _ _ _ _ _ _ => exact memOk_execHamperScalarAccess _ _ _ _ _ _ _ hs h
  | hamperThreadTrap _ _ _ => exact memOk_execHamperThreadTrap _ _ _ _ hs h
  | messageArrivalData _ => exact memOk_execMessageArrivalData _ _ hs h
  | messageArrivalCtrl _ => exact memOk_execMessageArrivalCtrl _ _ hs h
  | messageArrivalCount _ => exact memOk_execMessageArrivalCount _ _ hs h
  | nrecv _ => exact memOk_execNrecv _ _ hs h
  | nsend _ => exact memOk_execNsend _ _ hs h
  | nprobe _ => exact memOk_execNprobe _ _ hs h
  | npost _ => exact memOk_execNpost _ _ hs h
  | npostCancel _ => exact memOk_execNpostCancel _ _ hs h
  | trgarm _ => exact memOk_execTrgarm _ _ hs h
  | trgdis _ => exact memOk_execTrgdis _ _ hs h
  | trgrd _ => exact memOk_execTrgrd _ _ hs h
  | trgrdBlk _ => exact memOk_execTrgrdBlk _ _ hs h
  | ctradd _ => exact memOk_execCtradd _ _ hs h
  | ctrrd _ => exact memOk_execCtrrd _ _ hs h
  | ctrwait _ => exact memOk_execCtrwait _ _ hs h
  | ctrset _ => exact memOk_execCtrset _ _ hs h
  | nlaunch _ => exact memOk_execNlaunch _ _ hs h
  | ncopy _ => exact memOk_execNcopy _ _ hs h
  | collst _ => exact memOk_execCollst _ _ hs h
  | jcfgHandle _ | jcfgWindowTemplate _ | jcfgWindowContext _ => exact memOk_next (memOk_jcfg _ _ _ hs) h
  | haltgo _ => exact memOk_execHaltgo _ _ hs h
  | hstep _ => exact memOk_execHstep _ _ hs h
  | stepEnd _ => exact memOk_execStepEnd _ _ hs h
  | hresume _ => exact memOk_execHresume _ _ hs h
  | hcause _ => exact memOk_execHcause _ _ hs h
  | hcauseCore _ => exact memOk_execHcauseCore _ _ hs h
  | tailWrite _ _ => exact memOk_execTailWrite _ _ _ hs h
  | ecallReply _ _ => exact memOk_execEcallReply _ _ _ hs h
  | retentionEnter _ => exact memOk_execRetentionEnter _ _ hs h
  | retentionWake _ => exact memOk_execRetentionWake _ _ hs h
  | domainDeclare _ => exact memOk_execDomainDeclare _ _ hs h
  | swallowRateUpdate _ _ => exact memOk_execSwallowRateUpdate _ _ _ hs h
  | rampWindowBoundary _ => exact memOk_execRampWindowBoundary _ _ hs h
  | jobStopInstant _ => exact memOk_next (memOk_stopAtTs _ _ hs) h
  | gangResumeInstant _ => exact memOk_next (memOk_gangAtTr _ _ hs) h
  | gangGraceExpiry _ => exact memOk_next (memOk_of_mem (mem_graceEnds _ _) hs) h
  | haltWaveArrival _ _ _ => exact memOk_execHaltWaveArrival _ _ _ _ hs h
  | haltReport _ => exact memOk_execHaltReport _ _ hs h
  | causeRecordSettle _ => exact memOk_execCauseRecordSettle _ _ hs h
  | resumeWaveArrival _ _ _ => exact memOk_execResumeWaveArrival _ _ _ _ hs h
  | resumeInstant _ => exact memOk_next (memOk_resumeAtTr _ _ hs) h
  | seamLinkFail _ => exact memOk_execSeamLinkFail _ _ hs h
  | fabricPacketReceive _ => exact memOk_execFabricPacketReceive _ _ hs h
  | fabricAckTimer _ => exact memOk_execFabricAckTimer _ _ hs h
  | packetResendTimeout _ => exact memOk_execPacketResendTimeout _ _ hs h
  | flitReceive _ _ => exact memOk_execFlitReceive _ _ _ hs h
  | laneDown _ _ => exact memOk_execLaneDown _ _ _ hs h
  | retrainComplete _ => exact memOk_execRetrainComplete _ _ hs h
  | retrainTimeout _ => exact memOk_execRetrainTimeout _ _ hs h
  | timeSyncMeasure _ _ _ _ => exact memOk_execTimeSyncMeasure _ _ _ _ _ hs h
  | collectiveHandshake _ => exact memOk_execCollectiveHandshake _ _ hs h
  | collectiveGo _ _ _ => exact memOk_execCollectiveGo _ _ _ _ hs h
  | collectiveCompletion _ _ => exact memOk_next (memOk_collEnd _ _ _ hs) h
  | hostWindowAccess _ _ _ _ => exact memOk_execHostWindowAccess _ _ _ _ _ hs h
  | queuePageWrite _ _ _ _ => exact memOk_execQueuePageWrite _ _ _ _ _ hs h
  | vecStoreMsix _ => exact memOk_execVecStoreMsix _ _ hs h
  | ident => exact memOk_execIdent _ hs h
  | read => exact memOk_execRead _ hs h
  | attest => exact memOk_execAttest _ hs h
  | hbmerr => exact memOk_execHbmerr _ hs h
  | window => exact memOk_execWindow _ hs h
  | link => exact memOk_execLink _ hs h
  | commit => exact memOk_execCommit _ hs h
  | bootld => exact memOk_execBootld _ hs h
  | power => exact memOk_execPower _ hs h
  | therm => exact memOk_execTherm _ hs h
  | powerStateChange => exact memOk_execPowerStateChange _ hs h
  | powerMeasure _ _ => exact memOk_execPowerMeasure _ _ _ hs h
  | thermalThreshold _ => exact memOk_execThermalThreshold _ _ hs h
  | deviceReset => exact memOk_execDeviceReset _ hs h
  | cxlLinkDownAccess _ => exact memOk_execCxlLinkDownAccess _ _ hs h
  | spoolOrAmcastWaitPassesD _ => exact memOk_execSpoolOrAmcastWaitPassesD _ _ hs h
  | uetWriteOrRead _ _ _ _ _ => exact memOk_execUetWriteOrRead _ _ _ _ _ _ hs h
  | receivedFrameDropped _ => exact memOk_execReceivedFrameDropped _ _ hs h
  | doorbellWrite _ => exact memOk_next (memOk_of_mem (mem_doorbell _ _) hs) h
  | spareCoreRemap _ => exact memOk_execSpareCoreRemap _ _ hs h
  | scrubbing _ _ => exact memOk_execScrubbing _ _ _ hs h

theorem memOk_after (s : State) (i : Instr) (hs : s.memOk) : (s.after i).memOk := by
  grind [State.after, memOk_exec]

theorem memOk_inCycle (s : State) (t : Nat) (f : State → State) (hs : s.memOk)
    (hf : ∀ t : State, t.memOk → (f t).memOk) : (s.inCycle t f).memOk :=
  hf _ hs

theorem memOk_landAll (s : State) (n : Nat) (hs : s.memOk) : (s.landAll n).memOk := by
  grind [State.landAll, memOk_foldl, memOk_after, mem_landRead, mem_endRead]

theorem memOk_landCopies (s : State) (n : Nat) (hs : s.memOk) : (s.landCopies n).memOk := by
  grind [State.landCopies, memOk_after]

theorem memOk_workAll (s : State) (n : Nat) (hs : s.memOk) : (s.workAll n).memOk := by
  unfold State.workAll
  refine List.foldlRecOn (motive := fun a : State × List Pending => a.1.memOk) _ _ hs fun a ha p _ => ?_
  exact memOk_workCycle _ _ _ ha

theorem memOk_signalsOf (s : State) (n : Nat) (hs : s.memOk) : (s.signalsOf n).memOk := by
  grind [State.signalsOf, memOk_landCopies, memOk_landAll, memOk_workAll]

theorem memOk_headOf (s : State) (n : Nat) (e : Eng) (hs : s.memOk) : (s.headOf n e).memOk := by
  grind [State.headOf, memOk_after]

theorem memOk_unitHeads (s : State) (n : Nat) (hs : s.memOk) : (s.unitHeads n).memOk := by
  grind [State.unitHeads, memOk_headOf, modFg_mem]

theorem memOk_headsOf (s : State) (n : Nat) (hs : s.memOk) : (s.headsOf n).memOk := by
  grind [State.headsOf, memOk_headOf, memOk_unitHeads]

theorem memOk_testWait (s : State) (sem : Bool) (a : Agent) (hs : s.memOk) : (s.testWait sem a).memOk := by
  grind [State.testWait, memOk_inCycle, memOk_after]

theorem memOk_testHold (s : State) (a : Agent) (hs : s.memOk) : (s.testHold a).memOk := by
  cases a with
  | core n =>
    refine memOk_inCycle _ _ _ hs fun t ht => ?_
    grind [memOk_after]
  | thread h => exact hs

theorem memOk_cycleFirst (s : State) (me : Option Agent) (hs : s.memOk) : (s.cycleFirst me).memOk := by
  grind [State.cycleFirst, memOk_foldl, memOk_testWait, memOk_signalsOf]

theorem memOk_cycleRest (s : State) (me : Option Agent) (hs : s.memOk) : (s.cycleRest me).memOk := by
  grind [State.cycleRest, memOk_foldl, memOk_testHold, memOk_testWait, memOk_headsOf]

theorem memOk_catchGo (k : Nat) (s : State) (hs : s.memOk) : (State.catchGo k s).memOk := by
  induction k generalizing s with
  | zero => exact hs
  | succ k ih => exact ih _ (memOk_inCycle _ _ _ hs fun t ht => memOk_cycleRest _ _ (memOk_cycleFirst _ _ ht))

theorem memOk_catchUp (s : State) (hs : s.memOk) : s.catchUp.memOk := by
  grind [State.catchUp, memOk_catchGo]

theorem memOk_drainFrozen (s : State) (n : Nat) (hs : s.memOk) : (s.drainFrozen n).memOk := by
  unfold State.drainFrozen
  split
  · refine List.foldlRecOn (motive := fun a : State × List Pending => a.1.memOk) _ _ hs fun a ha p _ => ?_
    split
    · exact memOk_drainWork _ _ _ ha
    · exact ha
  · exact hs

theorem memOk_turnFirst (s : State) (n : Nat) (hs : s.memOk) : (s.turnFirst n).memOk := by
  grind [State.turnFirst, memOk_signalsOf, memOk_cycleFirst]

theorem memOk_turnRest (s : State) (n t : Nat) (hs : s.memOk) : (s.turnRest n t).memOk := by
  grind [State.turnRest, memOk_inCycle, memOk_headsOf, memOk_cycleRest]

theorem memOk_issue (s : State) (n : Nat) (bs : List Byte) {u : State} (hs : s.memOk) (h : s.issue n bs = .next u) :
    u.memOk := by
  grind [State.issue, memOk_trapHere, memOk_exec, tick_mem, memOk_begins]

theorem memOk_waitTurn (s : State) (a : Agent) (waits : State → Bool) (hs : s.memOk) :
    (s.waitTurn a waits).memOk := by
  grind [State.waitTurn, memOk_after, tick_mem]

theorem memOk_seqTurn (s : State) (n : Nat) {u : State} (hs : s.memOk) (h : s.seqTurn n = .next u) : u.memOk := by
  grind [State.seqTurn, mem_pass, memOk_exec, memOk_after, tick_mem, memOk_waitTurn, memOk_issue]

@[simp] theorem mem_stepResult (s : State) (n r : Nat) : (s.stepResult n r).mem = s.mem := by
  simp [State.stepResult]

theorem memOk_landReady (s : State) (n : Nat) (hs : s.memOk) : (s.landReady n).memOk := by
  grind [State.landReady, memOk_turnRest, memOk_turnFirst]

theorem memOk_stepSeq (s : State) (n : Nat) {u : State} (hs : s.memOk) (h : s.stepSeq n = some u) : u.memOk := by
  unfold State.stepSeq at h
  extract_lets c t v at h
  have ht : t.memOk := memOk_after _ _ hs
  clear_value t
  split at h
  · split at h
    · cases h
      exact memOk_of_mem (mem_stepResult _ _ _) ht
    · cases h
  · split at h
    · cases h
    · split at h
      · split at h
        · cases h
        · next k w test late hq =>
          obtain ⟨v, hv, hu⟩ := Option.map_eq_some_iff.1 h
          have hv := (waiting_keeps hq).1 _ _ _ _ hs hv
          rw [← hu]
          split
          · exact hv
          · exact memOk_of_mem (mem_stepResult _ _ _) hv
      · have hv : v.memOk := by
          simp only [v]
          split
          · exact hs
          · exact memOk_after _ _ hs
        clear_value v
        grind [memOk_issue, memOk_after, mem_stepResult, tick_mem]

theorem memOk_tryHead (s : State) (n : Nat) (e : Eng) (hs : s.memOk) : (s.tryHead n e).memOk := by
  cases e
  · exact memOk_moveUnit _ _ _ hs
  · exact memOk_moveUnit _ _ _ hs
  · exact memOk_moveCopy _ _ _ hs
  · exact memOk_moveCopy _ _ _ hs

theorem memOk_stepTrap (s : State) (n : Nat) (e : Eng) (hs : s.memOk) : (s.stepTrap n e).memOk := by
  grind [State.stepTrap, memOk_takeTrap, setFg_mem, mem_stepResult]

theorem memOk_stepEng (s : State) (n : Nat) (e : Eng) (hs : s.memOk) : (s.stepEng n e).memOk := by
  grind [State.stepEng, mem_stepResult, mem_ringFetch, memOk_stepTrap, memOk_tryHead, tick_mem]

theorem memOk_stepTurn (s : State) (n u : Nat) (res : Option (Nat × Byte)) (hs : s.memOk) :
    (s.stepTurn n u res).memOk := by
  have hr := memOk_landReady s n hs
  unfold State.stepTurn
  extract_lets t
  have hr : t.memOk := hr
  clear_value t
  split
  · split
    · split
      · next v hv =>
        have hv := memOk_stepSeq _ _ (by exact hr) hv
        exact hv
      · exact memOk_of_mem (mem_stepResult _ _ _) hr
    · exact memOk_stepEng _ _ _ hr
  · exact memOk_after _ _ hr
  · grind [memOk_after, memOk_tryHead, tick_mem, memOk_stepTrap]

theorem memOk_threadTurn (s : State) (h : Nat) {u : State} (hs : s.memOk) (h : s.threadTurn h = .next u) :
    u.memOk := by
  grind [State.threadTurn, memOk_waitTurn, tick_mem, memOk_trapHere, memOk_exec]

theorem memOk_agentTurn (s : State) {u : State} (hs : s.memOk) (h : s.agentTurn = .next u) : u.memOk := by
  grind [State.agentTurn, mem_pass, memOk_stepTurn, memOk_turnFirst, memOk_seqTurn, memOk_turnRest, tick_mem,
    memOk_threadTurn]

theorem memOk_turn (s : State) {u : State} (hs : s.memOk) (h : s.turn = .next u) : u.memOk := by
  unfold State.turn at h
  split at h
  · exact memOk_agentTurn _ hs h
  · exact memOk_agentTurn _ (by exact hs) h
  · split at h
    · exact memOk_exec _ _ (by exact hs) h
    · cases h
      exact hs
  · cases h
    exact memOk_of_mem (mem_pass _ _) hs

theorem memOk_settleTurn (s : State) (hs : s.memOk) : s.settleTurn.memOk := by
  grind [State.settleTurn, memOk_foldl, memOk_catchUp, memOk_drainFrozen, mem_duePower, memOk_dueFabric,
    memOk_dueColls, memOk_dueJobs, mem_slewTick, memOk_wakeUnits, memOk_settleEnding, mem_tlbAnswer, memOk_copyTurn]

theorem memOk_afterTurn {o : Out} {t : State} (ho : ∀ u, o = .next u → u.memOk) (h : afterTurn o = .next t) :
    t.memOk := by
  cases o with
  | next u =>
    have ht : u.settleTurn = t := Host.Outcome.next.inj h
    rw [← ht]
    exact memOk_settleTurn u (ho u rfl)
  | fault _ => simp [afterTurn] at h
  | refused _ => simp [afterTurn] at h

theorem memOk_step {s t : State} (hs : s.memOk) (h : step s = .next t) : t.memOk := by
  unfold step at h
  split at h
  · cases h
  · exact memOk_afterTurn (fun _ => memOk_turn s hs) h

/-- Settles O5: every operation reachable from `step` either leaves memory alone or writes it through the table's own
writes, which keep it canonical; the cases are those of the dispatch and of the turn. -/
theorem everyStepKeepsMemoryCanonical : Obligations.EveryStepKeepsMemoryCanonical :=
  fun _ _ hs h => memOk_step hs h

end Sys2Proof.Machine
end

section
/-! SUPPORT. Fences and markers: which paths a fence's mask names and finds complete, what it reports, and where
`MARK` puts its markers (R245, R261, R262, R263). -/

namespace Sys2Proof.Machine

/-! ## The paths that a fence names (R262) -/

/-- A sum of distinct powers of two, added in rising order, is the number with those bits. -/
theorem maskSum_bits (g : Nat → Bool) (k : Nat) :
    let m := (List.range k).foldl (fun m i => if g i then m + 2 ^ i else m) 0
    m < 2 ^ k ∧ ∀ j, m.testBit j = (decide (j < k) && g j) := by
  induction k with
  | zero => simp
  | succ k ih =>
    obtain ⟨hlt, hbit⟩ := ih
    simp only [List.range_succ, List.foldl_append, List.foldl_cons, List.foldl_nil]
    generalize (List.range k).foldl (fun m i => if g i then m + 2 ^ i else m) 0 = m at hlt hbit
    cases hg : g k with
    | false =>
      refine ⟨by simp; omega, fun j => ?_⟩
      rcases Nat.lt_trichotomy j k with h | rfl | h
      · simp [hbit, h, Nat.lt_succ_of_lt h]
      · simp [hbit, hg]
      · simp [hbit, Nat.not_lt.2 (Nat.le_of_lt h), Nat.not_lt.2 h]
    | true =>
      rw [if_pos rfl, Nat.add_comm]
      refine ⟨by omega, fun j => ?_⟩
      rcases Nat.lt_trichotomy j k with h | rfl | h
      · rw [Nat.testBit_two_pow_add_gt h, hbit]
        simp [h, Nat.lt_succ_of_lt h]
      · rw [Nat.testBit_two_pow_add_eq, hbit]
        simp [hg]
      · have hj : 2 ^ k + m < 2 ^ j :=
          calc 2 ^ k + m < 2 ^ (k + 1) := by omega
            _ ≤ 2 ^ j := Nat.pow_le_pow_right (by decide) h
        simp [Nat.testBit_lt_two_pow hj, Nat.not_lt.2 h]

/-- All paths of a mask are complete exactly when each path it names is. -/
theorem pathsDone_eq_self_iff {s : State} {n p : Nat} {w : Wait} (hp : p < 64) :
    s.pathsDone n p w = p ↔ ∀ j, p.testBit j = true → s.pathDone n j w.ord w.since = true := by
  have hbit (j : Nat) :
      (s.pathsDone n p w).testBit j = (decide (j < 6) && (p.testBit j && s.pathDone n j w.ord w.since)) :=
    (maskSum_bits (fun i => p.testBit i && s.pathDone n i w.ord w.since) 6).2 j
  have hhigh (j : Nat) (hj : 6 ≤ j) : p.testBit j = false :=
    Nat.testBit_lt_two_pow (Nat.lt_of_lt_of_le hp (Nat.pow_le_pow_right (by decide) hj : 2 ^ 6 ≤ 2 ^ j))
  constructor
  · intro h j hj
    have hb := hbit j
    rw [h, hj] at hb
    simp only [Bool.true_and, Bool.true_eq, Bool.and_eq_true] at hb
    exact hb.2
  · intro h
    refine Nat.eq_of_testBit_eq fun j => (hbit j).trans ?_
    by_cases hj : j < 6
    · cases hb : p.testBit j <;> simp_all
    · simp [hhigh j (Nat.not_lt.1 hj)]

/-- Nothing of core n's task is under way on any path that a fence can name. -/
structure State.pathsIdle (s : State) (n : Nat) : Prop where
  eng : ∀ e, ((s.fg n).eng e).q = [] ∧ ((s.fg n).eng e).lane = [] ∧ ((s.fg n).eng e).run = []
  inflight : (s.fg n).inflight = []
  vreads : (s.fg n).vreads = []
  winCnt : ∀ w, w ∈ (s.fg n).winCnt → w.2 = 0
  sq : (s.core n).sq = []
  farw : (s.core n).farw = []

theorem State.pathsIdle.pathDone {s : State} {n : Nat} (h : s.pathsIdle n) (path ord since : Nat) :
    s.pathDone n path ord since = true := by
  have hrun : (s.core n).fg.inRun = [] := by
    simp only [Ctx.inRun, List.append_eq_nil_iff]
    exact ⟨⟨(h.eng .vx).2.2, (h.eng .mt).2.2⟩, h.inflight⟩
  have heng (e : Eng) : ((s.core n).fg.eng e).q ++ ((s.core n).fg.eng e).lane = [] := by
    simp only [List.append_eq_nil_iff]
    exact ⟨(h.eng e).1, (h.eng e).2.1⟩
  have hwin : (s.core n).fg.winCnt.all (fun w => decide (w.2 = 0)) = true :=
    List.all_eq_true.2 fun w hw => decide_eq_true (h.winCnt w hw)
  have hv : (s.core n).fg.vreads = [] := h.vreads
  simp only [State.pathDone, heng, hrun, hv, hwin, h.sq, h.farw]
  split <;> rfl

theorem fenceTest_idle {s : State} {n : Nat} (h : s.pathsIdle n) (f : FmtD) (w : Wait) :
    fenceTest f s n w = some (s.fenceReport n f w (w.a.toNat % 64) 0 0) :=
  if_pos ((pathsDone_eq_self_iff (Nat.mod_lt _ (by decide))).2 fun _ _ => h.pathDone _ _ _)

/-- An earlier entry of the Mangle's queue, and not of its ring, keeps path 2 from being complete. -/
theorem pathDone_mt_queued {s : State} {n ord since : Nat} {q : QEntry} (hq : q ∈ (s.fg n).mt.q) (ho : q.ord < ord)
    (hr : q.ring = 0) (hm : (s.fg n).mt.inRing = false) : s.pathDone n 2 ord since = false := by
  have hq' : q ∈ (s.core n).fg.mt.q := hq
  have hm' : (s.core n).fg.mt.inRing = false := hm
  simp only [State.pathDone, Ctx.eng, Bool.and_eq_false_iff, List.all_eq_false]
  exact .inl ⟨q, List.mem_append_left _ hq', by simp [Nat.not_le.2 ho, hr, hm']⟩

theorem fenceTest_none {s : State} {n j : Nat} {w : Wait} (f : FmtD) (hj : (w.a.toNat % 64).testBit j = true)
    (h : s.pathDone n j w.ord w.since = false) : fenceTest f s n w = none := by
  refine if_neg fun hall => ?_
  simp [(pathsDone_eq_self_iff (Nat.mod_lt _ (by decide))).1 hall j hj] at h

/-- A bit of the low six of a word, as the mask of a fence has it. -/
theorem testBit_mask (v : Word) {j : Nat} (hj : j < 6) : (v.toNat % 64).testBit j = v.getLsbD j :=
  (Nat.testBit_mod_two_pow _ 6 j).trans (by simp [hj, BitVec.getLsbD])

/-! ## What a fence reports (R263) -/

section
variable {s : State} {n p c detail : Nat} {f : FmtD} {w : Wait}

theorem fenceReport_window {k : Nat} {cause : Byte} {r : List (Nat × Byte)} (hsc : 6 ≤ f.aux.toNat % 16)
    (hp : p.testBit 1 = true) (h : (s.fg n).winFail = (k, cause) :: r) :
    s.fenceReport n f w p c detail =
      (s.setFg n { s.fg n with winFail := tset 0 (s.fg n).winFail k 0 }).doneD n f w 7 cause.toNat := by
  simp [State.fenceReport, hsc, hp, h]

theorem fenceReport_store (hw : ¬(6 ≤ f.aux.toNat % 16 ∧ p.testBit 1 = true) ∨ (s.fg n).winFail = []) {d : Word}
    (hp : p.testBit 3 = true) (h : (s.fg n).storeErr = some d) :
    s.fenceReport n f w p c detail = (s.setFg n { s.fg n with storeErr := none }).doneD n f w 6 d.toNat := by
  have hnone : (if 6 ≤ f.aux.toNat % 16 ∧ p.testBit 1 = true then (s.fg n).winFail.head? else none) = none := by
    rcases hw with hw | hw <;> simp [hw]
  simp only [State.fenceReport, hnone, hp, h, if_true]

theorem fenceReport_none (hw : ¬(6 ≤ f.aux.toNat % 16 ∧ p.testBit 1 = true) ∨ (s.fg n).winFail = [])
    (h : (s.fg n).storeErr = none ∨ ¬p.testBit 3 = true) :
    s.fenceReport n f w p c detail = s.doneD n f w c detail := by
  have hnone : (if 6 ≤ f.aux.toNat % 16 ∧ p.testBit 1 = true then (s.fg n).winFail.head? else none) = none := by
    rcases hw with hw | hw <;> simp [hw]
  have herr : (if p.testBit 3 then (s.fg n).storeErr else none) = none := by
    rcases h with h | h <;> simp [h]
  simp only [State.fenceReport, hnone, herr]

end


/-- A fence of either name whose test holds reports at once. -/
theorem exec_fences_now {s : State} {n : Nat} {f : FmtD} {t : Instr → State} (hc : s.cur = .core n)
    (h : ∀ i, fenceTest f s n (s.waitOf f i) = some (t i)) :
    exec (.pfence f) s = .next (t (.pfence f)) ∧ exec (.xfence f) s = .next (t (.xfence f)) := by
  have hf (i : Instr) : s.fence f i = t i := (onCore_core hc _ _).trans (beginWait_now _ (h i))
  exact ⟨congrArg Host.Outcome.next (hf _), congrArg Host.Outcome.next (hf _)⟩

/-- One whose test fails before its deadline waits. -/
theorem exec_fences_wait {s : State} {n : Nat} {f : FmtD} (hc : s.cur = .core n) (hs : (s.core n).stepping = none)
    (hd : s.agentTime.toNat ≤ (deadlineAt s.agentTime (s.xr f.dl)).toNat)
    (h : ∀ i, fenceTest f s n (s.waitOf f i) = none) :
    exec (.pfence f) s = .next (s.setWait (s.waitOf f (.pfence f))) ∧
      exec (.xfence f) s = .next (s.setWait (s.waitOf f (.xfence f))) := by
  have hf (i : Instr) : s.fence f i = s.setWait (s.waitOf f i) :=
    (onCore_core hc _ _).trans (beginWait_setWait _ (h i) hc hs hd)
  exact ⟨congrArg Host.Outcome.next (hf _), congrArg Host.Outcome.next (hf _)⟩

theorem waitOf_ord {s : State} {n : Nat} (hc : s.cur = .core n) (f : FmtD) (i : Instr) :
    (s.waitOf f i).ord = (s.fg n).ord := by simp [State.waitOf, hc]

/-! ## `MARK` (R245, R261) -/

/-- What `MARK` does to its core: a marker behind queued stores, and one before later packets. -/
def Core.marked (k : Core) : Core :=
  { k with
    sq := if k.sq = [] then [] else k.sq ++ [{ marker := true }]
    fg := if k.fg.ce0.q = [] ∧ k.fg.ce0.lane = [] ∧ k.fg.ce1.q = [] ∧ k.fg.ce1.lane = [] then k.fg
      else { k.fg with marks := k.fg.marks ++ [k.fg.ord] } }

theorem marked_marks_idle {k : Core} (h : k.fg.ce0.q = [] ∧ k.fg.ce0.lane = [] ∧ k.fg.ce1.q = [] ∧ k.fg.ce1.lane = []) :
    k.marked.fg.marks = k.fg.marks :=
  congrArg Ctx.marks (if_pos h)

theorem marked_marks_queued {k : Core}
    (h : ¬(k.fg.ce0.q = [] ∧ k.fg.ce0.lane = [] ∧ k.fg.ce1.q = [] ∧ k.fg.ce1.lane = [])) :
    k.marked.fg.marks = k.fg.marks ++ [k.fg.ord] :=
  congrArg Ctx.marks (if_neg h)

theorem exec_mark {s : State} {n : Nat} (hc : s.cur = .core n) (g : FmtQ) :
    exec (.mark g) s = .next ((s.setCore n (s.core n).marked).retire 8 1) := by
  refine congrArg Host.Outcome.next ((onCore_core hc _ _).trans ?_)
  cases hq : (s.core n).sq <;> simp [Core.marked, hq, Bool.and_eq_true, List.isEmpty_iff, and_assoc]


/-- Settles O28: what the mask names decides the fence's test and its report, and `MARK` writes its two markers. -/
theorem fencesAndMarkers : Obligations.FencesAndMarkers := by
  unfold Obligations.FencesAndMarkers
  intro s n f hc hst c both window stores
  have h1 : ((s.xr f.a).toNat % 64).testBit 1 = (s.xr f.a).getLsbD 1 := testBit_mask _ (by decide)
  have h3 : ((s.xr f.a).toNat % 64).testBit 3 = (s.xr f.a).getLsbD 3 := testBit_mask _ (by decide)
  refine ⟨fun heng hin hv hwin hsq hfar => ?_, ?_, ?_⟩
  · have hidle : s.pathsIdle n := ⟨heng, hin, hv, hwin, hsq, hfar⟩
    have hnow {t : State} (h : ∀ i, s.fenceReport n f (s.waitOf f i) ((s.xr f.a).toNat % 64) 0 0 = t) :
        both (fun _ => t) :=
      exec_fences_now hc fun i => (fenceTest_idle hidle f _).trans (congrArg some (h i))
    refine ⟨fun k cause r hw hf => hnow fun i => ?_, fun hw he => hnow fun i => ?_, fun d hw he hp => hnow fun i => ?_⟩
    · exact fenceReport_window hw.1 (h1.trans hw.2) hf
    · exact fenceReport_none (h1 ▸ hw) (h3 ▸ he)
    · exact fenceReport_store (h1 ▸ hw) (h3.trans hp) he
  · rintro h2 hring ⟨q, hq, ho, hr⟩ hd
    refine exec_fences_wait hc hst hd fun i => fenceTest_none f ((testBit_mask _ (by decide)).trans h2) ?_
    exact pathDone_mt_queued hq (waitOf_ord hc f i ▸ ho) hr hring
  · intro g
    have hm : (s.setCore n (s.core n).marked).cur = .core n := hc
    refine ⟨_, exec_mark hc g, ?_, ?_, ?_, fun h => ?_, fun h => ?_⟩
    · rw [pc_retire hm, pc_core hm, pc_core hc, fg_setCore_self]
      simp only [Core.marked]
      split <;> rfl
    · simp
    · rw [retire_core hm, core_tick, State.modFg, core_setFg_self, core_setCore_self]
      rfl
    · rw [fg_retire hm, fg_setCore_self]
      exact marked_marks_idle h
    · rw [fg_retire hm, fg_setCore_self]
      exact marked_marks_queued h

end Sys2Proof.Machine
end

section
/-! SUPPORT. Invalidations of translations, and completions that are no timeouts (R39, R40, R239). -/

namespace Sys2Proof.Machine

/-! ## A completion that is no timeout (R39, R40) -/

/-- A completion with a code other than TIMEOUT writes its status, and never escalates. -/
theorem finishD_done (s : State) (n : Nat) (st : BitVec 5) (x : Bool) (pc : Word) {code : Nat} (detail : Nat)
    (h : code ≠ 1) : ∃ c : Ctx, c.regs.x = ((s.fg n).setX st (statusWord code detail)).regs.x ∧
      s.finishD n st x pc code detail = s.statusDone n pc c := by
  let c₀ := (s.fg n).setX st (statusWord code detail)
  have hesc : (c₀.countD x (s.fg n).ord pc code).2 = false := by
    unfold Ctx.countD
    split
    · simp [h]
    · simp [h, countOne_other pc h]
  obtain ⟨csr, prev, wait, late, hk⟩ := countKeeps_countD c₀ x (s.fg n).ord pc code
  have heq := finishD_eq (Prod.ext hk hesc : c₀.countD x (s.fg n).ord pc code = (_, _))
  refine ⟨_, ?_, heq.trans (if_neg Bool.false_ne_true)⟩
  rfl

@[simp] theorem utlb_statusDone (s : State) (n m : Nat) (pc : Word) (c : Ctx) :
    ((s.statusDone n pc c).core m).utlb = (s.core m).utlb := by
  rw [State.statusDone, core_tick, core_setFg]
  split
  · next h => rw [h]
  · rfl

/-! ## TLBINV (R239) -/

theorem core_dropTlb (s : State) (cls : List Nat) (f : Tlb → Bool) (m : Nat) :
    (s.dropTlb cls f).core m =
      if cls.contains (m / 256) then { s.core m with utlb := (s.core m).utlb.filter (fun t => !f t) } else s.core m :=
  core_mapCores s (fun m k => if cls.contains (m / 256) then { k with utlb := k.utlb.filter (fun t => !f t) } else k)
    (by dsimp only; split <;> rfl)

theorem mem_utlb_dropTlb (s : State) {cls : List Nat} (f : Tlb → Bool) {m : Nat} (h : cls.contains (m / 256) = true)
    (t : Tlb) : t ∈ ((s.dropTlb cls f).core m).utlb ↔ t ∈ (s.core m).utlb ∧ ¬f t = true := by
  rw [core_dropTlb, if_pos h]
  simp

theorem exists_of_mem_tget {α : Type} {x : α} {t : Tbl (List α)} {k : Nat} (h : x ∈ tget [] t k) :
    ∃ l, (k, l) ∈ t ∧ x ∈ l := by
  induction t with
  | nil => cases h
  | cons c r ih =>
    obtain ⟨j, l⟩ := c
    by_cases hj : j = k
    · exact ⟨l, by simp [hj], by simpa [tget, hj] using h⟩
    · obtain ⟨l, hl, hx⟩ := ih (by simpa [tget, hj] using h)
      exact ⟨l, List.mem_cons_of_mem _ hl, hx⟩

/-- What a cluster's TLB holds after the drop comes from a list that the drop has filtered. -/
theorem not_hit_of_mem_ctlb {s : State} {cls : List Nat} {f : Tlb → Bool} {cl : Nat} (h : cls.contains cl = true) :
    ∀ t, t ∈ tget [] (s.dropTlb cls f).ctlb cl → ¬f t = true := by
  intro t ht
  obtain ⟨l, hl, ht⟩ := exists_of_mem_tget ht
  obtain ⟨⟨j, l'⟩, -, he⟩ := List.mem_map.1 (List.mem_filter.1 hl).1
  by_cases hj : cls.contains j = true
  · rw [if_pos hj, Prod.mk.injEq] at he
    rw [← he.2] at ht
    simpa using (List.mem_filter.1 ht).2
  · rw [if_neg hj, Prod.mk.injEq] at he
    exact absurd (he.1 ▸ h) hj

/-- No core has an access under way, nor a wait. -/
def State.coresQuiet (s : State) : Prop :=
  ∀ x ∈ s.cores, x.2.sq = [] ∧ x.2.farw = [] ∧ x.2.fg.vreads = [] ∧ x.2.fg.wait = none

theorem tlbQuiet_dropTlb {s : State} (h : s.coresQuiet) (cls : List Nat) (f g : Tlb → Bool) (since : Nat) :
    (s.dropTlb cls f).tlbQuiet cls g since = true := by
  refine List.all_eq_true.2 fun c hc => ?_
  obtain ⟨x, hx, rfl⟩ := List.mem_map.1 hc
  obtain ⟨hsq, hfar, hv, hw⟩ := h x hx
  have hno (k : Core) (e : k.sq = [] ∧ k.farw = [] ∧ k.fg.vreads = [] ∧ k.fg.wait = none) :
      k.usesTlb g since = false := by
    obtain ⟨e1, e2, e3, e4⟩ := e
    simp [Core.usesTlb, e1, e2, e3, e4]
  rw [Bool.or_eq_true, Bool.not_eq_true', Bool.not_eq_true']
  refine .inr (hno _ ?_)
  dsimp only
  split <;> exact ⟨hsq, hfar, hv, hw⟩

theorem tellTlb_alone {s : State} (h : s.podPkgs = []) (kind va asid : Nat) : s.tellTlb kind va asid = s := by
  rw [State.tellTlb, h]
  rfl

theorem onSup_sup {s : State} {n : Nat} (hc : s.cur = .core n) (hs : (s.fg n).ident.desc.sup = true) (w : Word)
    (f : Nat → State) : s.onSup w f = f n := by
  rw [State.onSup, onCore_core hc, if_pos hs]

theorem onSup_user {s : State} {n : Nat} (hc : s.cur = .core n) (hs : (s.fg n).ident.desc.sup = false) (w : Word)
    (f : Nat → State) : s.onSup w f = s.trapHere 0x01 w := by
  rw [State.onSup, onCore_core hc, hs]
  rfl

section
variable {s : State} {n : Nat} {f : FmtD}

/-- With no access under way the group has acknowledged at once, and the instruction completes. -/
theorem tlbinv_done (hc : s.cur = .core n) (hsup : (s.fg n).ident.desc.sup = true) (hq : s.coresQuiet)
    (h6 : f.aux.toNat % 16 = 6 → s.podPkgs = [] ∧ s.tlbWant = []) (i : Instr) (kind : Nat) :
    s.tlbinv f i kind =
      (s.dropTlb (groupOf (n / 256) (f.aux.toNat % 16))
        (tlbMatch kind ((s.xr f.a).toNat % 2 ^ 48) ((s.xr f.b).toNat % 2 ^ 14))).doneD n f (s.waitOf f i) 0 0 := by
  refine (onSup_sup hc hsup _ _).trans ?_
  extract_lets w sc va asid t u
  have hu : u = t := by
    by_cases h : sc = 6
    · exact (if_pos h).trans (tellTlb_alone (s := t) (h6 h).1 _ _ _)
    · exact if_neg h
  rw [hu]
  refine beginWait_now _ (if_pos ?_)
  rw [Bool.and_eq_true, Bool.or_eq_true]
  refine ⟨tlbQuiet_dropTlb hq _ _ _ _, ?_⟩
  by_cases h : sc = 6
  · right
    rw [show t.tlbWant = [] from (h6 h).2]
    rfl
  · exact .inl (decide_eq_true h)

/-- What the completion leaves of the drop: the PC has moved on, xst holds status 0, memory is as before, and no
translation that is dropped is left in the group. -/
theorem tlbinv_drops (hc : s.cur = .core n) (hsup : (s.fg n).ident.desc.sup = true) (hq : s.coresQuiet)
    (h6 : f.aux.toNat % 16 = 6 → s.podPkgs = [] ∧ s.tlbWant = []) (i : Instr) (kind : Nat) {hit : Tlb → Prop}
    (hhit : ∀ t, tlbMatch kind ((s.xr f.a).toNat % 2 ^ 48) ((s.xr f.b).toNat % 2 ^ 14) t = true ↔ hit t)
    (hi : exec i s = .next (s.tlbinv f i kind)) :
    let cls := groupOf (n / 256) (f.aux.toNat % 16)
    ∃ u : State, exec i s = .next u ∧ u.pc = s.pc + 8 ∧ u.mem = s.mem ∧ (f.st ≠ 0 → u.xr f.st = 0) ∧
      (∀ m, cls.contains (m / 256) = true → ∀ t, t ∈ (u.core m).utlb ↔ t ∈ (s.core m).utlb ∧ ¬hit t) ∧
      (∀ cl, cls.contains cl = true → ∀ t, t ∈ tget [] u.ctlb cl → ¬hit t) := by
  intro cls
  let t := s.dropTlb cls (tlbMatch kind ((s.xr f.a).toNat % 2 ^ 48) ((s.xr f.b).toNat % 2 ^ 14))
  obtain ⟨c, hx, hdone⟩ := finishD_done t n f.st f.x (s.waitOf f i).pc (code := 0) 0 (by decide)
  obtain ⟨hpc, -, hmem, hxr⟩ := statusDone_moved (s := t) hc f.st (s.waitOf f i).pc (by decide) hx
  refine ⟨_, hi.trans (congrArg _ ((tlbinv_done hc hsup hq h6 i kind).trans hdone)), hpc, hmem, fun h0 => ?_,
    fun m hm x => ?_, fun cl hcl x hmem => ?_⟩
  · rw [hxr, if_neg h0, if_pos rfl]
    rfl
  · rw [utlb_statusDone, ← hhit]
    exact mem_utlb_dropTlb s _ hm x
  · rw [← hhit]
    exact not_hit_of_mem_ctlb hcl x hmem

end

end Sys2Proof.Machine
end

section
/-! SUPPORT. The supervisor's entries of access tables and budgets, frames, and write slots that are not taken (R232
to R236, R399). -/

namespace Sys2Proof.Machine

/-! ## MATSET and SBSET (R236, R399) -/

section
variable {s : State} {n : Nat}

/-- In user mode an instruction of the supervisor's traps as illegal. -/
theorem exec_supervisor_user (hc : s.cur = .core n) (hu : (s.fg n).ident.desc.sup = false) {f : FmtD} {q : FmtQ} {i : Instr}
    (hi : i ∈ [Instr.tlbinvPg f, .tlbinvAs f, .tlbinvAll f, .matset q, .sbset q]) :
    exec i s = .next (s.trapHere 0x01 (encodeWord i)) := by
  simp only [List.mem_cons, List.not_mem_nil, or_false] at hi
  rcases hi with rfl | rfl | rfl | rfl | rfl <;> exact congrArg Host.Outcome.next (onSup_user hc hu _ _)

/-- The operands that `MATSET` takes (R399): reserved fields 0, and a target that exists. -/
def matOperandsOk (a : Nat) (b : Word) : Prop :=
  wfld b 62 51 = 0 ∧ wfld b 31 16 = 0 ∧ fld a 7 4 = 0 ∧ fld a 15 12 = 0 ∧ a < 2 ^ 22 ∧ a % 16 < 5 ∧
    fld a 11 8 < matUnits (a % 16)

theorem exec_matset (hc : s.cur = .core n) (hsup : (s.fg n).ident.desc.sup = true) (f : FmtQ) :
    let a := (s.xr f.a).toNat
    let b := s.xr f.b
    let key := matKey (a % 16) (fld a 11 8) (fld a 21 16)
    (matOperandsOk a b → exec (.matset f) s =
      .next ((({ s with mat := tset 0 s.mat key b } : State).setXr f.d (tget 0 s.mat key)).retire 8 1)) ∧
    (¬matOperandsOk a b → exec (.matset f) s = .next ((s.setXr f.d 0xFFFFFFFFFFFFFFFF).retire 8 1)) := by
  intro a b key
  have hbad : (wfld b 62 51 ≠ 0 ∨ wfld b 31 16 ≠ 0 ∨ fld a 7 4 ≠ 0 ∨ fld a 15 12 ≠ 0 ∨ a / 2 ^ 22 ≠ 0 ∨ 5 ≤ a % 16 ∨
      matUnits (a % 16) ≤ fld a 11 8) ↔ ¬matOperandsOk a b := by
    unfold matOperandsOk
    omega
  exact ⟨fun h => congrArg Host.Outcome.next ((onSup_sup hc hsup _ _).trans (if_neg (hbad.not.2 (not_not.2 h)))),
    fun h => congrArg Host.Outcome.next ((onSup_sup hc hsup _ _).trans (if_pos (hbad.2 h)))⟩

theorem exec_sbset (hc : s.cur = .core n) (hsup : (s.fg n).ident.desc.sup = true) (f : FmtQ) :
    let a := (s.xr f.a).toNat
    let b := (s.xr f.b).toNat
    let t := coreNum (n / 256) b
    let k := (s.core t).settleCredit (frameAt (s.now + s.span 4 - 1))
    (b < 256 → a ≤ 8192 → a % 128 = 0 → exec (.sbset f) s = .next (((s.setCore t { k with fg :=
        { k.fg with csr := { k.fg.csr with sbud := s.xr f.a } } }).setXr f.d (s.fg t).csr.sbud).retire 8 4)) ∧
    ((256 ≤ b ∨ 8192 < a ∨ a % 128 ≠ 0) → exec (.sbset f) s = .next ((s.setXr f.d 0xFFFFFFFFFFFFFFFF).retire 8 4)) := by
  intro a b t k
  have hbad : (b / 2 ^ 8 ≠ 0 ∨ 8192 < a ∨ a % 128 ≠ 0) ↔ (256 ≤ b ∨ 8192 < a ∨ a % 128 ≠ 0) := by omega
  refine ⟨fun hb ha hm => ?_, fun h => ?_⟩
  · have hok : ¬(b / 2 ^ 8 ≠ 0 ∨ 8192 < a ∨ a % 128 ≠ 0) := by omega
    exact congrArg Host.Outcome.next ((onSup_sup hc hsup _ _).trans (if_neg hok))
  · exact congrArg Host.Outcome.next ((onSup_sup hc hsup _ _).trans (if_pos (hbad.2 h)))

end

/-! ## Frames (R232, R234) -/

theorem exec_hbmFrameBoundary_early {s : State} (h : s.now < frameStart (s.frame + 1)) :
    exec .hbmFrameBoundary s = .next s :=
  congrArg Host.Outcome.next (if_pos h)

/-- A boundary brings every core's credit up to the new frame. -/
theorem exec_hbmFrameBoundary_due {s : State} (h : frameStart (s.frame + 1) ≤ s.now) :
    exec .hbmFrameBoundary s =
      .next { s.mapCores (fun _ k => k.settleCredit (s.frame + 1)) with frame := s.frame + 1 } :=
  congrArg Host.Outcome.next (if_neg (Nat.not_lt.2 h))

/-- One frame on, the credit has grown by the budget, up to twice the budget. -/
theorem creditAt_succ {k : Core} {f : Nat} (h : k.cframe = f) :
    k.creditAt (f + 1) = min (k.credit + k.fg.csr.sbud.toNat) (2 * k.fg.csr.sbud.toNat) := by
  simp only [Core.creditAt, h]
  rw [if_neg (by omega), Nat.add_sub_cancel_left, Nat.one_mul]

/-- What a property reads of a mapped table, where the map leaves it of the default. -/
theorem apply_tget_map {α β : Type} (φ : α → β) (d : α) (g : α → α) (h : φ d = φ (g d)) (t : Tbl α) (m : Nat) :
    φ (tget d (t.map (fun c => (c.1, g c.2))) m) = φ (g (tget d t m)) := by
  induction t with
  | nil => exact h
  | cons c r ih =>
    by_cases e : c.1 = m
    · simp [tget, e]
    · simpa [tget, e] using ih

/-- The credit of a core after a boundary; a core that the table does not list has none before and none after. -/
theorem credit_mapCores_settle (s : State) {f m : Nat} (h : (s.core m).cframe = f) :
    ((s.mapCores (fun _ k => k.settleCredit (f + 1))).core m).credit =
      min ((s.core m).credit + (s.fg m).csr.sbud.toNat) (2 * (s.fg m).csr.sbud.toNat) := by
  refine Eq.trans ?_ (creditAt_succ h)
  exact apply_tget_map Core.credit {} (fun k => k.settleCredit (f + 1))
    (by simp [Core.settleCredit, Core.creditAt]) s.cores m

/-! ## Write slots (R232 to R235, R245) -/

theorem slotTurn_full {s : State} {st : Nat} (h : 64 ≤ (s.stackAt st).wr) : s.slotTurn st = none := if_pos h

theorem exec_storePerformed_other {s : State} {st n : Nat} (h : s.slotTurn st ≠ some n) (bad : BitVec 4) :
    exec (.storePerformedInSlot st n bad) s = .next s :=
  congrArg Host.Outcome.next (if_pos h)

end Sys2Proof.Machine
end

section
/-! SUPPORT. A store performed in its write slot (R233 to R235, R245). -/

namespace Sys2Proof.Machine

/-! ## A store performed in its slot (R233 to R235, R245) -/

theorem map_cellsAt (a : Nat) (bs : List Byte) : ∀ off,
    (cellsAt off bs).map (fun c => (a + c.1, c.2)) = cellsAt (a + off) bs := by
  induction bs with
  | nil => exact fun _ => rfl
  | cons b r ih =>
    intro off
    simp only [cellsAt, List.map_cons, ih]
    rfl

theorem wholeCells_nil (cells : List (Nat × Byte)) : wholeCells cells [] = cells := by simp [wholeCells]

/-- Where no granule is poisoned and no read meets an error, a store writes all its cells. -/
theorem mem_storeBits_clean {s : State} {fresh : Nat → Bool} (cells : List (Nat × Byte))
    (hp : ∀ b, poisonedByte s.poison b = false) (hf : ∀ g, fresh g = false) :
    (s.storeBits cells [] fresh).1.mem = memWriteCells s.mem cells := by
  have hs (c : List (Nat × Byte)) (a : Nat) : s.suppressed c fresh a = false := by simp [State.suppressed, hp, hf]
  have hm : mergeCell s.mem [] = id := rfl
  simp only [State.storeBits, wholeCells_nil, hs, Bool.not_false, List.filter_true, hm, List.map_id]

/-- A plain store of whole bytes changes memory, and poison, and nothing else. -/
theorem performStore_clean {s : State} {e : SqEntry} {fresh : Nat → Bool} (n : Nat) (hat : e.atom = none)
    (hbits : e.bits = []) (hp : ∀ b, poisonedByte s.poison b = false) (hf : ∀ g, fresh g = false) :
    let t := (s.performStore n e fresh).1
    t.mem = memWriteCells s.mem e.cells ∧ t.cores = s.cores ∧ t.hbm = s.hbm ∧ t.now = s.now := by
  simp only [State.performStore, hat, hbits]
  exact ⟨mem_storeBits_clean e.cells hp hf, rfl, rfl, rfl⟩

/-- The core when its head store has been taken from the lane: 128 bytes of credit are spent (R235). -/
def Core.headTaken (k : Core) (r : List SqEntry) (f : Nat) : Core :=
  let k1 : Core := { k.settleCredit f with sq := r, credit := (k.settleCredit f).credit - 128 }
  { k1 with sq := k1.lane }

theorem sq_headTaken {k : Core} (h : k.farw = []) (r : List SqEntry) (f : Nat) : (k.headTaken r f).sq = dropMarks r := by
  have hl (x : Core) (hx : x.farw = []) : x.lane = dropMarks x.sq := by simp [Core.lane, hx]
  exact hl _ h

theorem credit_headTaken (k : Core) (r : List SqEntry) (f : Nat) : (k.headTaken r f).credit = k.creditAt f - 128 := rfl

section
variable {s : State} {n : Nat} {e : SqEntry} {r : List SqEntry}

theorem performNext_head (hsq : (s.core n).sq = e :: r) (hm : e.marker = false) (hf : (s.core n).farw = [])
    {st : Nat} (hst : e.stack s.pkgid = st) (fresh : Nat → Bool) :
    s.performNext st n fresh =
      let x := (s.setCore n ((s.core n).headTaken r s.frameNow)).performStore n e fresh
      x.1.performed n e x.2.1 x.2.2 := by
  have hl : (s.core n).lane = e :: r := by simp [Core.lane, hf, hsq, dropMarks, hm]
  have hnext : nextStore st s.pkgid (e :: r) 0 = some 0 := by simp [nextStore, hm, hst]
  have hls : ((s.core n).settleCredit s.frameNow).lane = e :: r := hl
  simp only [State.performNext, hl, hls, hnext, List.getElem?_cons_zero, dropAt]
  rfl

/-- A whole store of bytes that no error meets: memory holds them, and nothing else of what is read here changes. -/
theorem performNext_stores {bs : List Byte} {a : Nat} (hsq : (s.core n).sq = e :: r) (hm : e.marker = false)
    (hat : e.atom = none) (haddr : e.addr = s.pkgid * 2 ^ 45 + a) (ha : a < 2 ^ 40) (hd : e.data = cellsAt 0 bs)
    (hpart : e.part = []) (hp : ∀ b, poisonedByte s.poison b = false) (hf : (s.core n).farw = [])
    {fresh : Nat → Bool} (hfresh : ∀ g, fresh g = false) :
    let u := s.performNext (a / 2 ^ 36) n fresh
    u.mem = memWrite s.mem a bs ∧ (u.core n).sq = dropMarks r ∧
      (u.core n).credit = (s.core n).creditAt s.frameNow - 128 ∧ u.hbm = s.hbm ∧ u.now = s.now := by
  have hst : e.stack s.pkgid = a / 2 ^ 36 := by
    have h1 : (s.pkgid * 2 ^ 45 + a) / 2 ^ 45 = s.pkgid := by omega
    have h2 : (s.pkgid * 2 ^ 45 + a) % 2 ^ 45 / 2 ^ 36 % 16 = a / 2 ^ 36 := by omega
    simp only [SqEntry.stack, haddr, h1, h2, if_true]
  have hcells : e.cells = cellsAt a bs := by
    have h : (s.pkgid * 2 ^ 45 + a) % 2 ^ 45 = a := by omega
    rw [SqEntry.cells, haddr, h, hd, map_cellsAt, Nat.add_zero]
  have hbits : e.bits = [] := by rw [SqEntry.bits, hpart, List.map_nil]
  intro u
  let k := (s.core n).headTaken r s.frameNow
  obtain ⟨hmem, hcores, hhbm, hnow⟩ := performStore_clean (s := s.setCore n k) n hat hbits hp hfresh
  have hk : ((s.setCore n k).performStore n e fresh).1.core n = k :=
    (congrArg (fun t => tget ({} : Core) t n) hcores).trans (core_setCore_self s n k)
  have hcore : (u.core n).sq = k.sq ∧ (u.core n).credit = k.credit := by
    rw [show u = _ from performNext_head hsq hm hf hst fresh]
    simp only [State.performed, State.modFg, core_setFg_self]
    exact ⟨congrArg Core.sq hk, congrArg Core.credit hk⟩
  rw [hcells, memWriteCells_cellsAt] at hmem
  have hu : u = _ := performNext_head hsq hm hf hst fresh
  refine ⟨?_, hcore.1.trans (sq_headTaken hf r _), hcore.2.trans (credit_headTaken _ r _), ?_, ?_⟩
  · rw [hu]
    exact hmem
  · rw [hu]
    exact hhbm
  · rw [hu]
    exact hnow

end

/-- A slot that is taken counts, in the frame that is now. -/
theorem stackAt_takeSlot {s u : State} {st n : Nat} (hh : u.hbm = (s.takeSlot st n).hbm) (hn : u.now = s.now) :
    (u.stackAt st).wr = (s.stackAt st).wr + 1 := by
  have hx : (s.stackAt st).frame = s.frameNow := by
    unfold State.stackAt
    dsimp only
    split
    · assumption
    · rfl
  have hf : u.frameNow = s.frameNow := by rw [State.frameNow, hn, State.frameNow]
  obtain ⟨y, hy, hyf, hyw⟩ : ∃ y : Stack, (s.takeSlot st n).hbm = tset {} s.hbm st y ∧ y.frame = s.frameNow ∧
      y.wr = (s.stackAt st).wr + 1 := by
    refine ⟨_, rfl, ?_⟩
    split <;> exact ⟨hx, rfl⟩
  rw [State.stackAt, hh, hy, tget_tset_self, hf, if_pos hyf, hyw]

end Sys2Proof.Machine
end

section
/-! SUPPORT. Pages that are checked and moved, and the memory system's events together (R241, R242). -/

namespace Sys2Proof.Machine

/-! ## A page is checked (R241) -/

section
variable {s : State} {page : Nat} {p : PgCnt}

theorem exec_migrationCheck_early (hp : tget {} s.pages page = p) (h : s.ccyc.toNat / 2 ^ 20 ≤ p.per) :
    exec (.migrationCheck page) s = .next s := by
  subst hp
  exact congrArg Host.Outcome.next (if_pos h)

/-- The move that a check orders: to a frame of the leading agent's die, which the free value picks. -/
def State.migOf (s : State) (page : Nat) (p : PgCnt) (a at_ : Nat) : Mig :=
  { va := p.va, asid := s.asidOf p.job, pteAt := at_, old := page * 2 ^ 14
    new := 2 * a * 2 ^ 36 + (Config.freeWord s.free).toNat % (2 ^ 37 / p.size) * p.size, size := p.size }

/-- The page's counts cleared for a new period, and a move added. -/
def State.checked (s : State) (page : Nat) (p : PgCnt) (m : Mig) : State :=
  { s with
    pages := tset {} s.pages page { p with cnt := [], per := s.ccyc.toNat / 2 ^ 20 }
    free := s.free + 1
    migs := s.migs ++ [m] }

theorem exec_migrationCheck_moves {a at_ : Nat} (hp : tget {} s.pages page = p) (hper : p.per < s.ccyc.toNat / 2 ^ 20)
    (hlead : leadingGo p.cnt 9 = some a) (hleaf : leafAtGo s p.va levels (s.ptroot p.job) = some at_)
    (hgo : (wOf (s.num at_ 8)).getLsbD 6 = false ∧ a < 8 ∧ a ≠ page * 2 ^ 14 / 2 ^ 37 ∧ s.mthr p.job ≠ 0 ∧
      s.mthr p.job ≤ tget 0 p.cnt a ∧ 2 * tget 0 p.cnt (page * 2 ^ 14 / 2 ^ 37) ≤ tget 0 p.cnt a ∧
      memKind (page * 2 ^ 14) = .hbm ∧ ptePa (wOf (s.num at_ 8)) = s.pkgid * 2 ^ 45 + page * 2 ^ 14 ∧
      s.migs.all (fun m => decide (m.old ≠ page * 2 ^ 14)) = true) :
    exec (.migrationCheck page) s = .next (s.checked page p (s.migOf page p a at_)) := by
  subst hp
  refine congrArg Host.Outcome.next ((if_neg (Nat.not_le.2 hper)).trans ?_)
  simp only [hlead, hleaf]
  exact if_pos hgo

theorem mod_div_mul_lt {N k : Nat} (h0 : 0 < k) (hk : k ≤ N) (x : Nat) : x % (N / k) * k < N :=
  calc x % (N / k) * k < N / k * k := Nat.mul_lt_mul_of_pos_right (Nat.mod_lt _ (Nat.div_pos hk h0)) h0
    _ ≤ N := Nat.div_mul_le_self _ _

/-- The new frame lies in the leading agent's die. -/
theorem migOf_new {a at_ : Nat} (h0 : 0 < p.size) (hk : p.size ≤ 2 ^ 37) : (s.migOf page p a at_).new / 2 ^ 37 = a := by
  have hlt : (Config.freeWord s.free).toNat % (2 ^ 37 / p.size) * p.size < 2 ^ 37 := mod_div_mul_lt h0 hk _
  simp only [State.migOf]
  omega

end

/-! ## A page is moved (R241, R242) -/

theorem memByte_memWriteCells_ne {a : Nat} (cs : List (Nat × Byte)) : ∀ (m : List Host.Cell), (∀ c ∈ cs, c.1 ≠ a) →
    memByte (memWriteCells m cs) a = memByte m a := by
  induction cs with
  | nil => exact fun _ _ => rfl
  | cons c r ih =>
    intro m h
    rw [memWriteCells, ih _ fun c hc => h c (List.mem_cons_of_mem _ hc)]
    exact memByte_memSet_ne _ _ _ _ (h c List.mem_cons_self)

theorem tget_filter_none {α : Type} (d : α) (t : Tbl α) (f : Nat × α → Bool) {k : Nat} (h : ∀ v, f (k, v) = false) :
    tget d (t.filter f) k = d := by
  induction t with
  | nil => rfl
  | cons c r ih =>
    obtain ⟨j, w⟩ := c
    rw [List.filter_cons]
    split
    · next hf =>
      by_cases hj : j = k
      · subst hj
        simp [h] at hf
      · simpa [tget, hj] using ih
    · exact ih

/-- The listed bytes of a frame written at another: each byte of the new frame is the old frame's, where it read 0. -/
theorem memByte_shifted {old new size x : Nat} (hx : old ≤ x ∧ x < old + size) (m : List Host.Cell)
    (hm : Memory.wf m = true) : ∀ k : List Host.Cell, memByte k (x - old + new) = memDefault →
    memByte (memWriteCells k ((m.filter (fun c => decide (old ≤ c.1 ∧ c.1 < old + size))).map
      (fun c => (c.1 - old + new, c.2)))) (x - old + new) = memByte m x := by
  induction m with
  | nil => exact fun k hk => hk
  | cons c r ih =>
    obtain ⟨j, v⟩ := c
    obtain ⟨-, hkeys, hr⟩ := (tableOk_cons _ j v r).1 hm
    intro k hk
    rw [List.filter_cons]
    by_cases hj : j = x
    · subst hj
      rw [if_pos (decide_eq_true hx), List.map_cons, memWriteCells, memByte_memWriteCells_ne]
      · simp [memByte, tget, memSet]
      · rintro c hc
        obtain ⟨d, hd, rfl⟩ := List.mem_map.1 hc
        have hin := of_decide_eq_true (List.mem_filter.1 hd).2
        have hlt := hkeys d (List.mem_filter.1 hd).1
        dsimp only
        omega
    · have hr' : memByte ((j, v) :: r) x = memByte r x := by simp [memByte, tget, hj]
      rw [hr']
      split
      · next hin =>
        have hin := of_decide_eq_true hin
        rw [List.map_cons, memWriteCells]
        refine ih hr _ ((memByte_memSet_ne _ _ _ _ ?_).trans hk)
        dsimp only at hin ⊢
        omega
      · exact ih hr k hk

theorem memByte_moveCells {m : List Host.Cell} (hm : Memory.wf m = true) {old new size j : Nat} (hj : j < size) :
    memByte (moveCells m old new size) (new + j) = memByte m (old + j) := by
  have h := memByte_shifted (old := old) (new := new) (size := size) (x := old + j) (by omega) m hm
    (m.filter (fun c => decide (c.1 < new ∨ new + size ≤ c.1)))
  rw [Nat.add_sub_cancel_left, Nat.add_comm j new] at h
  exact h (tget_filter_none _ _ _ fun v => decide_eq_false (by omega))


/-- The state after a change of the cores' table that no read of a core tells. -/
structure State.sameCores (s t : State) : Prop where
  rest : { t with cores := s.cores } = s
  core : ∀ k, t.core k = s.core k

theorem State.sameCores.trans {s t u : State} (h : s.sameCores t) (g : t.sameCores u) : s.sameCores u where
  rest := by rw [← h.rest, ← g.rest]
  core k := (g.core k).trans (h.core k)

/-- A core without stores has none that are queued for the page. -/
theorem sameCores_drainPage {s : State} {n : Nat} (h : (s.core n).sq = []) (old size : Nat) :
    s.sameCores (s.drainPage n old size) := by
  have hd : s.drainPage n old size = s.setCore n (s.core n) := by
    simp only [State.drainPage, h, lastHit, List.take_nil, List.filter_nil, List.foldl_nil, List.drop_nil]
    rw [← h]
  rw [hd]
  refine ⟨rfl, fun k => ?_⟩
  rw [core_setCore]
  split
  · next e => rw [e]
  · rfl

theorem sameCores_drainPages (old size : Nat) (l : List (Nat × Core)) :
    ∀ s : State, (∀ k, (s.core k).sq = []) → s.sameCores (l.foldl (fun s c => s.drainPage c.1 old size) s) := by
  induction l with
  | nil => exact fun s _ => ⟨rfl, fun _ => rfl⟩
  | cons c r ih =>
    intro s h
    have h1 := sameCores_drainPage (h c.1) old size
    exact h1.trans (ih _ fun k => (congrArg Core.sq (h1.core k)).trans (h k))

theorem drainIn_nil {s : State} (h : s.inq = []) (st : Nat) (k : Nat) : s.drainIn st k = s := by
  cases k with
  | zero => rfl
  | succ k => simp [State.drainIn, h]

/-- The page-table entry of a page that has moved. -/
def State.movedPte (s : State) (m : Mig) : Nat :=
  s.num m.pteAt 8 - fld (s.num m.pteAt 8) 55 14 * 2 ^ 14 + (s.pkgid * 2 ^ 45 + m.new)

/-- The page moved: its bytes, its poison, its entry and the translations of it. -/
def State.switched (s : State) (m : Mig) : State :=
  (({ s with
      mem := moveCells s.mem m.old m.new m.size
      poison := movePoison s.poison m.old m.new m.size
      moved := movedOn m s.moved
      migs := s.migs.filter (fun x => decide (x.old ≠ m.old)) } : State).putBytes m.pteAt
    (leBytes 8 (s.movedPte m))).dropTlb (List.range 16) (tlbMatch 0 m.va m.asid)

/-- The other packages of the pod are told to drop a page's translations. -/
def State.tellMoved (s : State) (m : Mig) : State :=
  s.podPkgs.foldl (fun s p => s.inject 8 p 0 4 0 0 (tlbPayload 0 m.va m.asid)) s

theorem sends_tellMoved (s : State) (m : Mig) : s.sends (s.tellMoved m) :=
  State.sends.foldl (fun s p => sends_injectWith s 8 p 0 4 0 0 _ [] []) _ _

/-- With no store queued for the page, nothing is performed before the move, and the other packages are told after. -/
theorem exec_migrationSwitch {s : State} {page : Nat} {m : Mig}
    (hm : s.migs.find? (fun x => decide (x.old = page * 2 ^ 14)) = some m) (hsq : ∀ k, (s.core k).sq = [])
    (hin : s.inq = []) :
    ∃ t : State, s.sameCores t ∧ exec (.migrationSwitch page) s = .next ((t.switched m).tellMoved m) := by
  have hsame := sameCores_drainPages m.old m.size s.cores s hsq
  have hin' : (s.cores.foldl (fun s c => s.drainPage c.1 m.old m.size) s).inq = [] :=
    (congrArg State.inq hsame.rest).trans hin
  refine ⟨_, hsame, congrArg Host.Outcome.next ?_⟩
  simp only [hm, drainIn_nil hin']
  rfl

section
variable {s : State} {m : Mig}

theorem memByte_switched (hw : Memory.wf s.mem = true) (hd : m.pteAt + 8 ≤ m.new ∨ m.new + m.size ≤ m.pteAt) {j : Nat}
    (hj : j < m.size) : memByte (s.switched m).mem (m.new + j) = memByte s.mem (m.old + j) :=
  (memByte_memWrite_out _ _ _ _ (by rw [leBytes_length]; omega)).trans (memByte_moveCells hw hj)

theorem memNat_switched : memNat (s.switched m).mem m.pteAt 8 = s.movedPte m % 2 ^ 64 := by
  have hread := memRead_memWrite_same (leBytes 8 (s.movedPte m)) (moveCells s.mem m.old m.new m.size) m.pteAt
  rw [leBytes_length] at hread
  exact (congrArg leNat hread).trans (leNat_leBytes 8 _)

theorem not_hits_of_mem_switched {k : Nat} (hk : k < 4096) {t : Tlb} (ht : t ∈ ((s.switched m).core k).utlb) :
    ¬(t.asid = m.asid ∧ t.va ≤ m.va ∧ m.va < t.va + t.size) := by
  have hc : (List.range 16).contains (k / 256) = true := by
    rw [List.contains_iff_mem, List.mem_range]
    omega
  have h := ((mem_utlb_dropTlb _ _ hc t).1 ht).2
  rwa [tlbMatch, Tlb.hits, decide_eq_true_iff] at h

end

theorem exec_storePerformed_core {s : State} {st n : Nat} (h : s.slotTurn st = some n) (hn : n < 4096) (bad : BitVec 4) :
    exec (.storePerformedInSlot st n bad) s =
      .next ((s.takeSlot st n).performNext st n (fun g => bad.getLsbD (g % 128 / 32))) :=
  congrArg Host.Outcome.next ((if_neg (not_not.2 h)).trans (if_neg (Nat.ne_of_lt hn)))

/-- Settles O47, clause by clause: the group's translations, the entries, the frames, the slots and the pages. -/
theorem memoryEventsComplete : Obligations.MemoryEventsComplete := by
  unfold Obligations.MemoryEventsComplete
  intro s n hc c
  refine ⟨fun f hsup _ h6 hq => ?_, fun f q hu i hi => exec_supervisor_user hc hu hi, fun f hsup => ?_, ⟨?_, ?_⟩,
    fun st bad h => ?_, fun st bad h => exec_storePerformed_other h bad, ?_, ?_, ?_⟩
  · intro cls va asid drops
    exact ⟨tlbinv_drops hc hsup hq h6 _ 0 (fun t => decide_eq_true_iff) rfl,
      tlbinv_drops hc hsup hq h6 _ 1 (fun t => decide_eq_true_iff) rfl,
      tlbinv_drops hc hsup hq h6 _ 2 (fun t => iff_of_true rfl trivial) rfl⟩
  · obtain ⟨hok, hbad⟩ := exec_matset hc hsup f
    obtain ⟨hset, hrefused⟩ := exec_sbset hc hsup f
    exact ⟨hok, hbad, hset, hrefused⟩
  · exact exec_hbmFrameBoundary_early
  · exact fun h => ⟨_, exec_hbmFrameBoundary_due h, rfl, rfl, fun m hm => credit_mapCores_settle s hm⟩
  · exact exec_storePerformed_other (by rw [slotTurn_full h]; exact nofun) bad
  · intro e r bs a hsq hm hat haddr ha _ hd _ hpart hp hf hn hturn
    obtain ⟨hmem, hq, hcredit, hhbm, hnow⟩ := performNext_stores (s := s.takeSlot (a / 2 ^ 36) n) hsq hm hat haddr ha hd
      hpart hp hf (fresh := fun g => (0 : BitVec 4).getLsbD (g % 128 / 32)) fun _ => BitVec.getLsbD_zero
    refine ⟨_, exec_storePerformed_core hturn hn 0, ?_, fun b hb => ?_, hcredit, hq, stackAt_takeSlot hhbm hnow⟩
    · exact hmem ▸ memRead_memWrite_same bs s.mem a
    · exact hmem ▸ memByte_memWrite_out bs s.mem a b hb
  · intro page p hp
    refine ⟨exec_migrationCheck_early hp, ?_⟩
    intro a at_ hper hlead hleaf base pte hgo ha hne hthr hle h2 hlt hpa hold h0 hk
    refine ⟨_, _, exec_migrationCheck_moves hp hper hlead hleaf ⟨hgo, ha, hne, hthr, hle, h2, if_pos hlt, hpa, ?_⟩, rfl,
      rfl, migOf_new h0 hk, rfl, rfl, rfl, ?_, rfl⟩
    · exact List.all_eq_true.2 fun m hm => decide_eq_true (hold m hm)
    · exact congrArg PgCnt.cnt (tget_tset_self _ _ _ _)
  · intro page m hm hw hsq hin hd
    obtain ⟨t, hsame, hexec⟩ := exec_migrationSwitch hm hsq hin
    have ht : t.mem = s.mem := (congrArg State.mem hsame.rest :)
    have hs := sends_tellMoved (t.switched m) m
    have hu : ((t.switched m).tellMoved m).mem = (t.switched m).mem := (congrArg State.mem hs.rest :)
    have hpte : t.movedPte m = s.movedPte m := by
      rw [State.movedPte, State.num, ht, show t.pkgid = s.pkgid from (congrArg State.pkgid hsame.rest :)]
      rfl
    refine ⟨_, hexec, fun j hj => ?_, ?_, fun x hx => ?_, fun k x hx hk => ?_⟩
    · rw [hu, memByte_switched (ht ▸ hw) hd hj, ht]
    · rw [hu, memNat_switched, hpte]
      rfl
    · rw [(congrArg State.migs hs.rest :)] at hx
      exact of_decide_eq_true (List.mem_filter.1 hx).2
    · rw [hs.core] at hx
      exact not_hits_of_mem_switched hk hx

end Sys2Proof.Machine
end

section
/-! SUPPORT. The mailbox: what a command's reply leaves, the ten commands and the doorbell (R243, R467, R471, R473 to
R478). -/

namespace Sys2Proof.Machine

/-! ## The mailbox's reply (R475) -/

/-- The data of a response is cut or filled up to 56 bytes. -/
theorem take_fill (data : List Byte) :
    data.take 56 ++ List.replicate (56 - data.length) 0 = (data ++ List.replicate 56 0).take 56 := by
  rw [List.take_append, List.take_replicate, Nat.min_eq_left (Nat.sub_le _ _)]

/-- A command that ends in a reply has answered: its response, its result and its interrupt. -/
theorem answers_of_reply {s t : State} {i : Instr} {res : Nat} {data : List Byte} {more : State → Prop}
    (he : exec i s = .next (t.reply res data)) (hreq : t.mgmt.req = s.mgmt.req) (hmsix : t.mgmt.msix = s.mgmt.msix)
    (hmem : t.mem = s.mem) (hmore : more (t.reply res data)) :
    ∃ u : State, exec i s = .next u ∧ u.mgmt.busy = false ∧ u.mgmt.res = BitVec.ofNat 8 res ∧
      u.mgmt.msix = s.mgmt.msix ++ [(0, 0)] ∧ u.mem = s.mem ∧
      u.mgmt.resp = leBytes 2 (leNat (s.mgmt.req.take 2)) ++ leBytes 2 res ++ leBytes 4 0 ++
        (data ++ List.replicate 56 0).take 56 ∧ more u := by
  refine ⟨_, he, rfl, rfl, congrArg (· ++ [(0, 0)]) hmsix, hmem, ?_, hmore⟩
  rw [← take_fill, ← hreq, ← List.append_assoc]
  rfl

/-- What `Obligations.MailboxCommandsComplete` says that a command leaves. -/
def State.mailKeeps (s u : State) : Prop := u.cores = s.cores ∧ u.jobs = s.jobs ∧ u.hamper = s.hamper ∧ u.fab = s.fab

theorem mailKeeps_reply (s : State) (m : Mgmt) (res : Nat) (data : List Byte) :
    s.mailKeeps (({ s with mgmt := m } : State).reply res data) := ⟨rfl, rfl, rfl, rfl⟩

theorem onCommand_run {s : State} {k : Nat} (hb : s.mgmt.busy = true) (hk : s.command = k) (f : State) :
    s.onCommand k f = f := if_pos ⟨hb, hk⟩

/-! ## The commands (R243, R467, R471, R473 to R478) -/

section
variable {s : State}

/-- A command that has been started runs. -/
theorem exec_command {i : Instr} {k : Nat} {f t : State} (hb : s.mgmt.busy = true) (hk : s.command = k)
    (hi : exec i s = .next (s.onCommand k f)) (hf : f = t) : exec i s = .next t :=
  hi.trans (congrArg Host.Outcome.next ((onCommand_run hb hk f).trans hf))

/-- The reply to `READ` of object k: its bytes from the offset on. -/
def State.readReply (s : State) : Nat → State
  | 0 => s.reply 0 ((Config.publicKey.drop (s.arg 1)).take 56)
  | 1 => s.reply 0 ((Config.certificate.drop (s.arg 1)).take 56)
  | 2 => s.reply 0 ((s.mgmt.report.drop (s.arg 1)).take 56)
  | _ => s.reply 4 []

theorem exec_read {k : Nat} (hb : s.mgmt.busy = true) (hk : s.command = 2) (ha : s.arg 0 = k) :
    exec .read s = .next (s.readReply k) := by
  subst ha
  exact exec_command hb hk rfl rfl

theorem exec_read_bad (hb : s.mgmt.busy = true) (hk : s.command = 2) (h : 2 < s.arg 0) :
    exec .read s = .next (s.reply 4 []) := by
  obtain ⟨k, hk3⟩ : ∃ k, s.arg 0 = k + 3 := ⟨s.arg 0 - 3, by omega⟩
  exact exec_read hb hk hk3

/-- The bank counts of a pseudo-channel after `HBMERR`, cleared where it asks so. -/
def State.bankCounts (s : State) (st ch pc clear : Nat) : Tbl Nat :=
  if clear = 1 then (List.range 32).foldl (fun t b => tset 0 t (bankKey st ch pc b) 0) s.mgmt.hbmErr else s.mgmt.hbmErr

theorem tget_clearAll (key : Nat → Nat) (b : Nat) (l : List Nat) : ∀ t : Tbl Nat, b ∈ l ∨ tget 0 t (key b) = 0 →
    tget 0 (l.foldl (fun t b => tset 0 t (key b) 0) t) (key b) = 0 := by
  induction l with
  | nil => exact fun t h => h.resolve_left List.not_mem_nil
  | cons c r ih =>
    intro t h
    refine ih _ ?_
    rw [tget_tset]
    by_cases hc : key c = key b
    · exact .inr (if_pos hc)
    · rw [if_neg hc]
      exact h.imp_left fun hb => (List.mem_cons.1 hb).resolve_left fun e => hc (congrArg key e.symm)

theorem tget_bankCounts (s : State) (st ch pc clear : Nat) {b : Nat} (hb : b < 32) :
    tget 0 (s.bankCounts st ch pc clear) (bankKey st ch pc b) =
      if clear = 1 then 0 else tget 0 s.mgmt.hbmErr (bankKey st ch pc b) := by
  unfold State.bankCounts
  split
  · exact tget_clearAll _ b _ _ (.inl (List.mem_range.2 hb))
  · rfl

theorem exec_hbmerr (hb : s.mgmt.busy = true) (hk : s.command = 4) (h0 : s.arg 0 < 16) (h1 : s.arg 1 < 32)
    (h2 : s.arg 2 < 2) (h3 : s.arg 3 < 2) :
    exec .hbmerr s =
      .next (({ s with mgmt := { s.mgmt with
          hbmErr := s.bankCounts (s.arg 0) (s.arg 1) (s.arg 2) (s.arg 3) } } : State).reply 0
        ((List.range 32).map (fun b =>
          BitVec.ofNat 8 (tget 0 s.mgmt.hbmErr (bankKey (s.arg 0) (s.arg 1) (s.arg 2) b))))) :=
  exec_command hb hk rfl (if_neg (by omega))

/-- The memories that a window may open: HBM, and the second tier. -/
theorem windowKind {w : Nat} (h : w < 2 ^ 40 ∨ (0x040000000000 ≤ w ∧ w < 0x080000000000)) :
    memKind w = .hbm ∨ memKind w = .cxl := by
  rcases h with h | h
  · exact .inl (if_pos h)
  · exact .inr ((if_neg (by omega)).trans (if_pos h))

theorem exec_window (hb : s.mgmt.busy = true) (hk : s.command = 5) (h0 : s.arg 0 < 64) (h1 : s.arg 1 % 2 ^ 34 = 0)
    (h : s.arg 1 < 2 ^ 40 ∨ (0x040000000000 ≤ s.arg 1 ∧ s.arg 1 < 0x080000000000)) :
    exec .window s =
      .next (({ s with mgmt := { s.mgmt with wbase := tset 0 s.mgmt.wbase (s.arg 0) (wOf (s.arg 1)) } } : State).reply 0
        (wordsOf [(tget 0 s.mgmt.wbase (s.arg 0)).toNat])) := by
  refine exec_command hb hk rfl (if_neg ?_)
  rintro (h64 | hm | ⟨hh, hc⟩)
  · omega
  · exact hm h1
  · exact (windowKind h).elim hh hc

theorem exec_link (hb : s.mgmt.busy = true) (hk : s.command = 6) (h2 : s.arg 2 = 0)
    (h : (s.arg 0 = 0 ∧ s.arg 1 < 33) ∨ (s.arg 0 = 1 ∧ s.arg 1 < 20) ∨ (s.arg 0 = 2 ∧ s.arg 1 < 8) ∨
      (s.arg 0 = 3 ∧ s.arg 1 < 8)) :
    exec .link s = .next (s.reply 0 (wordsOf (s.linkWords (s.arg 0) (s.arg 1)))) := by
  refine exec_command hb hk rfl ?_
  rcases h with ⟨h0, h1⟩ | ⟨h0, h1⟩ | ⟨h0, h1⟩ | ⟨h0, h1⟩ <;>
    simp [h0, h2, Nat.not_le.2 h1]

theorem exec_bootld (hb : s.mgmt.busy = true) (hk : s.command = 8) (h0 : 64 ≤ s.arg 0) (h1 : s.arg 0 ≤ 2 ^ 25) :
    exec .bootld s =
      .next (({ s with mgmt := { s.mgmt with offered := s.bytes (tget 0 s.mgmt.wbase 0).toNat (s.arg 0) } } : State).reply
        0 []) :=
  exec_command hb hk rfl (if_neg (by omega))

theorem exec_power (hb : s.mgmt.busy = true) (hk : s.command = 9) (h3 : s.arg 0 < 3)
    (h : s.arg 0 ≠ 2 ∨ s.anyTask = false) :
    exec .power s =
      .next (({ s with mgmt := { s.mgmt with
          pnext := some (4 * ((s.ccyc.toNat / 1050 + 1) * 1050) + s.arg 0) } } : State).reply 0
        (wordsOf [s.mgmt.pstate])) := by
  refine exec_command hb hk rfl ((if_neg (Nat.not_le.2 h3)).trans (if_neg ?_))
  rintro ⟨h2, ht⟩
  exact h.elim (fun hn => hn h2) (fun hf => by simp [hf] at ht)

theorem exec_power_refused (hb : s.mgmt.busy = true) (hk : s.command = 9) (h2 : s.arg 0 = 2) (ht : s.anyTask = true) :
    exec .power s = .next (s.reply 2 []) :=
  exec_command hb hk rfl ((if_neg (by omega)).trans (if_pos ⟨h2, ht⟩))

/-! ## The doorbell (R475) -/

theorem exec_doorbell_other {v : BitVec 32} (h : v ≠ 1) : exec (.doorbellWrite v) s = .next s := by
  refine congrArg Host.Outcome.next (if_pos fun hv => h ?_)
  exact BitVec.eq_of_toNat_eq hv

theorem exec_doorbell_starts (hb : s.mgmt.busy = false) (h1 : 1 ≤ s.command) (h10 : s.command ≤ 10) :
    exec (.doorbellWrite 1) s = .next { s with mgmt := { s.mgmt with busy := true } } := by
  refine congrArg Host.Outcome.next ((if_neg (not_not.2 rfl)).trans ?_)
  rw [hb]
  exact (if_neg Bool.false_ne_true).trans (if_neg (by omega))

theorem exec_doorbell_busy (hb : s.mgmt.busy = true) :
    exec (.doorbellWrite 1) s = .next { s with mgmt := { s.mgmt with res := 3 } } :=
  congrArg Host.Outcome.next ((if_neg (not_not.2 rfl)).trans (if_pos hb))

end

/-- Settles O53: the doorbell, and the ten commands by their replies. -/
theorem mailboxCommandsComplete : Obligations.MailboxCommandsComplete := by
  unfold Obligations.MailboxCommandsComplete
  intro s m cmd arg
  refine ⟨fun v => ⟨exec_doorbell_other, ?_, ?_⟩, fun hb => ?_⟩
  · rintro rfl hb h1 h10
    exact exec_doorbell_starts hb h1 h10
  · rintro rfl hb
    exact exec_doorbell_busy hb
  intro answers words keeps
  have plain {i : Instr} {res : Nat} {data : List Byte} (he : exec i s = .next (s.reply res data)) :
      answers i res data keeps := answers_of_reply he rfl rfl rfl (mailKeeps_reply s s.mgmt res data)
  refine ⟨fun hk => plain (exec_command hb hk rfl rfl), fun hk => ⟨fun ha => plain (exec_read hb hk ha),
    fun ha => plain (exec_read hb hk ha), fun ha => plain (exec_read hb hk ha), fun ha => plain (exec_read_bad hb hk ha)⟩,
    fun hk => ?_, fun hk h0 h1 h2 h3 => ?_, fun hk h0 h1 h => ?_, fun hk h2 h => plain (exec_link hb hk h2 h),
    fun hk => ?_, fun hk h0 h1 => ?_, fun hk h3 => ⟨fun h => ?_, fun h2 ht => ?_⟩, fun hk => ?_⟩
  · intro body rep
    exact answers_of_reply (exec_command hb hk rfl rfl) rfl rfl rfl ⟨mailKeeps_reply _ _ _ _, rfl⟩
  · intro key
    exact answers_of_reply (exec_hbmerr hb hk h0 h1 h2 h3) rfl rfl rfl
      ⟨mailKeeps_reply _ _ _ _, fun b hb => tget_bankCounts s _ _ _ _ hb⟩
  · exact answers_of_reply (exec_window hb hk h0 h1 h) rfl rfl rfl
      ⟨mailKeeps_reply _ _ _ _, tget_tset_self _ _ _ _⟩
  · exact answers_of_reply (exec_command hb hk rfl rfl) rfl rfl rfl ⟨mailKeeps_reply _ _ _ _, rfl⟩
  · exact answers_of_reply (exec_bootld hb hk h0 h1) rfl rfl rfl ⟨mailKeeps_reply _ _ _ _, rfl⟩
  · exact answers_of_reply (exec_power hb hk h3 h) rfl rfl rfl ⟨mailKeeps_reply _ _ _ _, rfl⟩
  · exact answers_of_reply (exec_power_refused hb hk h2 ht) rfl rfl rfl ⟨mailKeeps_reply s s.mgmt _ _, rfl⟩
  · exact ⟨(List.range 56).map (fun k => Config.freeByte (s.free + k)), by simp,
      answers_of_reply (exec_command hb hk rfl rfl) rfl rfl rfl ⟨rfl, rfl, rfl, rfl⟩⟩

end Sys2Proof.Machine
end

section
/-! SUPPORT. The host's accesses, queue pages, power, cooling, scrubbing and boot (R243, R466 to R479). -/

namespace Sys2Proof.Machine

/-! ## The host's window (R466, R467) -/

section
variable {s : State} {f off : Nat} {data : List Byte}

theorem exec_hostWindow (hf : f < 64) (ho : off < 2 ^ 34) (write : Bool) :
    exec (.hostWindowAccess f off write data) s = .next (s.windowAccess f off write data) :=
  congrArg Host.Outcome.next ((if_neg (Nat.not_le.2 hf)).trans (if_pos ho))

theorem exec_hostWindow_noFunction {k : Nat} (hk : 64 ≤ k) : exec (.hostWindowAccess k off true data) s = .next s :=
  congrArg Host.Outcome.next (if_pos hk)

theorem windowAccess_read (hd : s.hostDenied f .r = false)
    (hr : s.refuses (midHost f) ((tget 0 s.mgmt.wbase f).toNat + off) data.length .r = none) :
    s.windowAccess f off false data =
      s.complete' (if (firstPoison s.poison ((tget 0 s.mgmt.wbase f).toNat + off) data.length).isSome then .poisoned
        else .ok) (s.bytes ((tget 0 s.mgmt.wbase f).toNat + off) data.length) := by
  simp only [State.windowAccess, Bool.false_eq_true, if_false, hd, hr]

theorem windowAccess_denied (hd : s.hostDenied f .r = true) :
    s.windowAccess f off false data = s.complete' .abort [] := by
  simp [State.windowAccess, hd, State.cxlEvent]

/-- A write that meets no error stores its bytes, in HBM as elsewhere, and leaves the cores and the management state. -/
theorem windowAccess_write (hd : s.hostDenied f .w = false)
    (hr : s.refuses (midHost f) ((tget 0 s.mgmt.wbase f).toNat + off) data.length .w = none)
    (hp : ∀ b, poisonedByte s.poison b = false) :
    let u := s.windowAccess f off true data
    u.mem = memWrite s.mem ((tget 0 s.mgmt.wbase f).toNat + off) data ∧ u.mgmt = s.mgmt ∧ u.cores = s.cores := by
  simp only [State.windowAccess, hd, hr, if_true, Bool.false_eq_true, if_false]
  rw [← memWriteCells_cellsAt]
  split
  · exact ⟨mem_storeBits_clean _ hp fun _ => rfl, rfl, rfl⟩
  · exact ⟨rfl, rfl, rfl⟩

end

/-! ## Queue pages (R468 to R470) -/

/-- A write within a page's slots puts all its bytes in the backing. -/
theorem slotCells_slots {page : Nat} (data : List Byte) : ∀ off, 0x800 ≤ off → off + data.length ≤ 0x1000 →
    slotCells page off data = cellsAt (pageBase page + off) data := by
  induction data with
  | nil => exact fun _ _ _ => rfl
  | cons b r ih =>
    intro off h1 h2
    rw [List.length_cons] at h2
    have hr := ih (off + 1) (by omega) (by omega)
    have hoff : 0x800 ≤ off ∧ off < 0x1000 := by omega
    rw [slotCells] at hr ⊢
    simp only [cellsAt, List.filterMap_cons, if_pos hoff, hr]
    rfl

theorem mem_cellsAt_ge {c : Nat × Byte} {bs : List Byte} : ∀ {a : Nat}, c ∈ cellsAt a bs → a ≤ c.1 ∧ c.1 < a + bs.length := by
  induction bs with
  | nil => exact fun h => absurd h List.not_mem_nil
  | cons b r ih =>
    intro a h
    rw [List.length_cons]
    rcases List.mem_cons.1 h with rfl | h
    · dsimp only
      omega
    · have := ih h
      omega

/-- A write beyond the first four bytes leaves the tail. -/
theorem tailAfter_slots (old : BitVec 32) {off : Nat} (h : 4 ≤ off) (data : List Byte) : tailAfter old off data = none := by
  have hnil : (cellsAt off data).filter (fun c => decide (c.1 < 4)) = [] :=
    List.filter_eq_nil_iff.2 fun c hc => by
      have := (mem_cellsAt_ge hc).1
      simp
      omega
  simp [tailAfter, hnil]

theorem foldl_range_four (g w : Nat → Nat) :
    (List.range 4).foldl (fun a j => a + g j * w j) 0 = g 0 * w 0 + g 1 * w 1 + g 2 * w 2 + g 3 * w 3 := by
  simp [List.range_succ]

theorem tailAfter_four (old : BitVec 32) (b0 b1 b2 b3 : Byte) :
    tailAfter old 0 [b0, b1, b2, b3] = some (BitVec.ofNat 32 (leNat [b0, b1, b2, b3])) := by
  have hcs : (cellsAt 0 [b0, b1, b2, b3]).filter (fun c => decide (c.1 < 4)) = [(0, b0), (1, b1), (2, b2), (3, b3)] := rfl
  have hval : b0.toNat * 2 ^ (8 * 0) + b1.toNat * 2 ^ (8 * 1) + b2.toNat * 2 ^ (8 * 2) + b3.toNat * 2 ^ (8 * 3) =
      leNat [b0, b1, b2, b3] := by
    simp only [leNat]
    omega
  rw [tailAfter, hcs]
  refine (if_neg Bool.false_ne_true).trans (congrArg (fun x => some (BitVec.ofNat 32 x)) (Eq.trans ?_ hval))
  exact foldl_range_four _ _

theorem leBytes_four (n : Nat) : ∃ b0 b1 b2 b3, leBytes 4 n = [b0, b1, b2, b3] := ⟨_, _, _, _, rfl⟩

/-- A write of the whole tail replaces it. -/
theorem tailAfter_whole (old t : BitVec 32) : tailAfter old 0 (leBytes 4 t.toNat) = some t := by
  obtain ⟨b0, b1, b2, b3, hb⟩ := leBytes_four t.toNat
  have ht : t.toNat % 256 ^ 4 = t.toNat := Nat.mod_eq_of_lt t.isLt
  rw [hb, tailAfter_four, ← hb, leNat_leBytes, ht, BitVec.ofNat_toNat, BitVec.setWidth_eq]

section
variable {s : State} {f page : Nat}

theorem exec_queuePageWrite (hf : f < 64) (hp : page < 1024) (off : Nat) (data : List Byte) :
    exec (.queuePageWrite f page off data) s = .next (s.pageWrite f page off data) :=
  congrArg Host.Outcome.next (if_neg (by omega))

theorem pageWrite_slots (hd : s.hostDenied f .w = false) {off : Nat} {data : List Byte} (h1 : 0x800 ≤ off)
    (h2 : off + data.length ≤ 0x1000) :
    s.pageWrite f page off data = s.writeCells (cellsAt (pageBase page + off) data) := by
  simp only [State.pageWrite, hd, slotCells_slots data off h1 h2, tailAfter_slots _ (Nat.le_trans (by decide) h1)]
  rfl

theorem pageWrite_tail (hd : s.hostDenied f .w = false) (t : BitVec 32) :
    .next (s.pageWrite f page 0 (leBytes 4 t.toNat)) =
      exec (.tailWrite page t) { s with mgmt := { s.mgmt with tails := tset 0 s.mgmt.tails page t } } := by
  have hs : s.writeCells (slotCells page 0 (leBytes 4 t.toNat)) = s := rfl
  simp only [State.pageWrite, hd, hs, tailAfter_whole]
  rfl

end

/-! ## Power, cooling, the second tier and scrubbing (R243, R471, R476 to R479) -/

section
variable {s : State}

theorem exec_vecStoreMsix {d : Nat × Nat} (hd : s.mgmt.due.find? (fun x => decide (x.1 = d.1)) = some d)
    (ho : tget 0 s.mgmt.owner d.1 ≠ 0) :
    exec (.vecStoreMsix d.1) s = .next { s with mgmt := { s.mgmt with
      due := s.mgmt.due.erase d, msix := s.mgmt.msix ++ [(tget 0 s.mgmt.owner d.1 - 1, d.2)] } } := by
  refine congrArg Host.Outcome.next ?_
  simp only [hd, if_neg ho]

theorem duePower_early {v : Nat} (hv : s.mgmt.pnext = some v) (h : s.ccyc.toNat < v / 4) : s.duePower = s := by
  simp only [State.duePower, hv, if_pos h]

theorem duePower_due {v : Nat} (hv : s.mgmt.pnext = some v) (h : v / 4 ≤ s.ccyc.toNat)
    (hok : v % 4 ≠ 2 ∨ s.anyTask = false) :
    s.duePower = { s with mgmt := { s.mgmt with pnext := none, pstate := v % 4 } } := by
  have hno : ¬(v % 4 = 2 ∧ s.anyTask = true) := by
    rintro ⟨h2, ht⟩
    exact hok.elim (fun hn => hn h2) (fun hf => by simp [hf] at ht)
  simp only [State.duePower, hv, if_neg (Nat.not_lt.2 h), if_neg hno]

/-- A share's draw is kept; a die below its limit has its full ceiling, one at it a ceiling from the free value. -/
theorem exec_powerMeasure {share : Nat} (hs : share < 8) (watts : Nat) :
    ∃ u : State, exec (.powerMeasure share watts) s = .next u ∧ tget 0 u.mgmt.watts share = watts ∧ u.mem = s.mem ∧
      u.cores = s.cores ∧ (watts < 230 → tget 1050 u.mgmt.dieCeil share = 1050) ∧
      (230 ≤ watts → 525 ≤ tget 1050 u.mgmt.dieCeil share ∧ tget 1050 u.mgmt.dieCeil share ≤ 1050) := by
  by_cases hw : watts < 230
  · refine ⟨_, congrArg Host.Outcome.next ((if_neg (Nat.not_le.2 hs)).trans (if_pos hw)), ?_, rfl, rfl, fun _ => ?_,
      fun h => absurd hw (Nat.not_lt.2 h)⟩
    · exact tget_tset_self 0 s.mgmt.watts share watts
    · exact tget_tset_self 1050 s.mgmt.dieCeil share 1050
  · refine ⟨_, congrArg Host.Outcome.next ((if_neg (Nat.not_le.2 hs)).trans (if_neg hw)), ?_, rfl, rfl,
      fun h => absurd h hw, fun _ => ?_⟩
    · exact tget_tset_self 0 s.mgmt.watts share watts
    · have hc := tget_tset_self 1050 s.mgmt.dieCeil share (525 + (Config.freeWord s.free).toNat % 526)
      have hlt : (Config.freeWord s.free).toNat % 526 < 526 := Nat.mod_lt _ (by decide)
      exact ⟨hc.symm ▸ Nat.le_add_right _ _, hc.symm ▸ by omega⟩

theorem exec_thermalThreshold {temp : Nat} (h : temp < 105 ∨ 105 ≤ s.mgmt.temp) :
    exec (.thermalThreshold temp) s = .next { s with mgmt := { s.mgmt with
      temp := temp, hot := if 95 ≤ temp then true else if temp < 90 then false else s.mgmt.hot
      off := s.mgmt.off || decide (115 ≤ temp) } } := by
  have hup : decide (s.mgmt.temp < 105 ∧ 105 ≤ temp) = false := decide_eq_false (by omega)
  refine congrArg Host.Outcome.next ?_
  simp only [hup, Bool.false_eq_true, if_false]

theorem exec_cxlLinkDown {port : Nat} (h : port < 8) :
    exec (.cxlLinkDownAccess port) s =
      .next (({ s with mgmt := { s.mgmt with cxlDown := tset false s.mgmt.cxlDown port true } } : State).event 0x22
        (wOf (40 + port)) 0 []) :=
  congrArg Host.Outcome.next (if_neg (Nat.not_le.2 h))

variable {g : Nat}

theorem exec_scrubbing (h : 32 * g < 2 ^ 40) (ok : Bool) :
    exec (.scrubbing g ok) s =
      .next (if ok then s.countErr (32 * g) else { s with poison := poisonGranule s.poison (32 * g) }) := by
  refine congrArg Host.Outcome.next ((if_neg (by omega)).trans (if_neg ?_))
  rw [memKind_hbm h]
  decide

/-- A corrected error of HBM counts for a bank of the granule's stack. -/
theorem countErr_hbm (h : 32 * g < 2 ^ 40) :
    let u := s.countErr (32 * g)
    ∃ k, u.mem = s.mem ∧ u.poison = s.poison ∧ k / 2048 = 32 * g / 2 ^ 36 ∧
      u.mgmt.hbmErr = tset 0 s.mgmt.hbmErr k (min 255 (tget 0 s.mgmt.hbmErr k + 1)) := by
  simp only [State.countErr, memKind_hbm h]
  refine ⟨_, rfl, rfl, ?_, rfl⟩
  omega

end

/-! ## Boot (R473) -/

/-- What `DEVICE_RESET` keeps: what is fused, cabled or physical, or offered by the host. -/
def State.resetKeeping (s : State) : State :=
  { State.reset with
    pkgid := s.pkgid
    podid := s.podid
    sched := s.sched
    lockstep := s.lockstep
    free := s.free
    spares := s.spares
    mgmt := { fusedSvn := s.mgmt.fusedSvn, offered := s.mgmt.offered, cxlCap := s.mgmt.cxlCap, cxlDown := s.mgmt.cxlDown,
              ethDown := s.mgmt.ethDown, temp := s.mgmt.temp, watts := s.mgmt.watts } }

/-- What boot has loaded when its firmware runs. -/
def State.booted (s : State) (code d : List Byte) (ver svn : Nat) : State :=
  let r := (s.putBytes (hamperBase + 0x42000) code).putBytes hamperBase (leBytes 4 jalFirmware)
  { r with
    fab := { r.fab with route := podRoutes s.pkgid Config.podPackages }
    mgmt := { r.mgmt with measure := d, ver := BitVec.ofNat 32 ver, svn := svn, up := true } }

section
variable {s : State}

/-- The verdict of boot's check of the image the host offered, or of the flash. -/
def State.verdict (s : State) : Nat ⊕ (List Byte × List Byte × Nat × Nat) :=
  bootImage (if s.mgmt.offered = [] then Config.flash else s.mgmt.offered) s.mgmt.fusedSvn

theorem exec_deviceReset_refused {k : Nat} (ho : s.verdict = .inl k) :
    exec .deviceReset s = .next
      { s.resetKeeping with mgmt := { s.resetKeeping.mgmt with boot := BitVec.ofNat 8 (0x40 + k) } } := by
  refine congrArg Host.Outcome.next ?_
  rw [State.verdict] at ho
  simp only [List.isEmpty_iff, ho]
  rfl

theorem exec_deviceReset_accepted {code d : List Byte} {ver svn : Nat} (ho : s.verdict = .inr (code, d, ver, svn)) :
    exec .deviceReset s = .next (s.resetKeeping.booted code d ver svn) := by
  refine congrArg Host.Outcome.next ?_
  rw [State.verdict] at ho
  simp only [List.isEmpty_iff, ho]
  rfl

theorem memRead_booted (code d : List Byte) (ver svn : Nat) :
    memRead (s.booted code d ver svn).mem (hamperBase + 0x42000) code.length = code := by
  have h : memRead (memWrite (memWrite s.mem (hamperBase + 0x42000) code) hamperBase (leBytes 4 jalFirmware))
      (hamperBase + 0x42000) code.length = code := by
    rw [memRead_memWrite_out _ _ _ _ _ (.inr (by rw [leBytes_length]; omega)), memRead_memWrite_same]
  exact h

theorem memNat_booted (code d : List Byte) (ver svn : Nat) :
    memNat (s.booted code d ver svn).mem hamperBase 4 = jalFirmware := by
  have h := memRead_memWrite_same (leBytes 4 jalFirmware) (memWrite s.mem (hamperBase + 0x42000) code) hamperBase
  rw [leBytes_length] at h
  exact (congrArg leNat h).trans (leNat_leBytes 4 _)

end

/-- Settles O54, each event through the lemma about the state it leaves: a host write stores its cells, and boot keeps
what is fused, cabled or physical and loads the image it accepted. -/
theorem hostAndModuleEventsComplete : Obligations.HostAndModuleEventsComplete := by
  intro s m
  refine ⟨?window, ?slots, ?tail, ?msix, ?powerState, ?power, ?thermal, ?link, ?scrub, ?boot⟩
  case window =>
    intro f off k data hf _ ho a st
    refine ⟨fun hd hr => (exec_hostWindow hf ho false).trans (congrArg _ (windowAccess_read hd hr)),
      fun hd => (exec_hostWindow hf ho false).trans (congrArg _ (windowAccess_denied hd)),
      fun hd hr _ hp => ?_, fun hk => exec_hostWindow_noFunction hk⟩
    obtain ⟨hmem, hmgmt, hcores⟩ := windowAccess_write hd hr hp
    refine ⟨_, exec_hostWindow hf ho true, ?_, fun b hb => ?_, hmgmt, hcores⟩
    · rw [hmem, memRead_memWrite_same]
    · rw [hmem, memByte_memWrite_out _ _ _ _ hb]
  case slots =>
    intro f page off data hf hp hd h1 h2
    have hmem : (s.pageWrite f page off data).mem = memWrite s.mem (pageBase page + off) data := by
      rw [pageWrite_slots hd h1 h2, ← memWriteCells_cellsAt]
      rfl
    refine ⟨_, exec_queuePageWrite hf hp off data, ?_, fun b hb => ?_⟩
    · rw [hmem, memRead_memWrite_same]
    · rw [hmem, memByte_memWrite_out _ _ _ _ hb]
  case tail => exact fun f page t hf hp hd => (exec_queuePageWrite hf hp 0 _).trans (pageWrite_tail hd t)
  case msix => exact fun d hd ho => exec_vecStoreMsix hd ho
  case powerState =>
    exact fun v hv => ⟨fun h => congrArg _ (duePower_early hv h), fun h hok => congrArg _ (duePower_due hv h hok)⟩
  case power => exact fun share watts hs => exec_powerMeasure hs watts
  case thermal => exact fun temp h => exec_thermalThreshold h
  case link => exact fun port h => exec_cxlLinkDown h
  case scrub =>
    intro g h
    obtain ⟨k, hmem, hpoison, hk, herr⟩ := countErr_hbm (s := s) h
    exact ⟨exec_scrubbing h false, _, k, exec_scrubbing h true, hmem, hpoison, hk, herr⟩
  case boot =>
    refine ⟨fun k hk => ⟨_, exec_deviceReset_refused hk, rfl, rfl, rfl, rfl, rfl, rfl⟩, fun code d ver svn ho _ => ?_⟩
    exact ⟨_, exec_deviceReset_accepted ho, rfl, rfl, rfl, rfl, rfl, rfl, rfl, memRead_booted code d ver svn,
      memNat_booted code d ver svn, fun _ => rfl⟩

end Sys2Proof.Machine
end

section
/-! SUPPORT. The Tag Table: what the two searches find, what a cleared table holds, and its instructions. -/

namespace Sys2Proof.Machine

/-! ## The searches (R258, R260) -/

/-- The lowest entry with a property is found. -/
theorem tagFind_lowest {t : Tbl Word} {f : Word → Bool} {e : Nat} (he : f (tget 0 t e) = true) :
    ∀ {m k : Nat}, k ≤ e → e < k + m → (∀ j, k ≤ j → j < e → f (tget 0 t j) = false) →
      tagFind t f m k = some e
  | 0, k, hk, hm, _ => by omega
  | m + 1, k, hk, hm, hlow => by
    rw [tagFind]
    obtain rfl | hlt := Nat.eq_or_lt_of_le hk
    · rw [if_pos he]
    · rw [if_neg (ne_true_of_eq_false (hlow k le_rfl hlt))]
      exact tagFind_lowest he hlt (by omega) (fun j hj => hlow j (by omega))

/-- Where no entry has it, none is found. -/
theorem tagFind_none {t : Tbl Word} {f : Word → Bool} :
    ∀ {m k : Nat}, (∀ j, k ≤ j → j < k + m → f (tget 0 t j) = false) → tagFind t f m k = none
  | 0, _, _ => rfl
  | m + 1, k, h => by
    rw [tagFind, if_neg (ne_true_of_eq_false (h k le_rfl (by omega)))]
    exact tagFind_none (fun j hj hm => h j (by omega) (by omega))

/-- The first unlocked entry from the victim pointer is found. -/
theorem tagVictim_next {t : Tbl Word} {p e : Nat} (he : (tget 0 t ((p + e) % 256)).getLsbD 62 = false) :
    ∀ {m k : Nat}, k ≤ e → e < k + m →
      (∀ j, k ≤ j → j < e → (tget 0 t ((p + j) % 256)).getLsbD 62 = true) →
      tagVictim t p m k = some ((p + e) % 256)
  | 0, k, hk, hm, _ => by omega
  | m + 1, k, hk, hm, hlow => by
    simp only [tagVictim]
    obtain rfl | hlt := Nat.eq_or_lt_of_le hk
    · rw [if_neg (ne_true_of_eq_false he)]
    · rw [if_pos (hlow k le_rfl hlt)]
      exact tagVictim_next he hlt (by omega) (fun j hj => hlow j (by omega))

/-- Where every entry is locked, none is found. -/
theorem tagVictim_none {t : Tbl Word} {p : Nat} (h : ∀ j, j < 256 → (tget 0 t j).getLsbD 62 = true) :
    ∀ m k : Nat, tagVictim t p m k = none
  | 0, _ => rfl
  | m + 1, k => by
    simp only [tagVictim]
    rw [if_pos (h _ (Nat.mod_lt _ (by decide)))]
    exact tagVictim_none h m (k + 1)

/-! ## A table of which some values are kept (R259) -/

/-- A table whose keys all lie above k has the default at k. -/
theorem tget_below {α : Type} (d : α) {t : Tbl α} {k : Nat} (h : keysFrom (k + 1) t) : tget d t k = d := by
  induction t with
  | nil => rfl
  | cons c r ih =>
    obtain ⟨j, v⟩ := c
    have hj : k + 1 ≤ j := h (j, v) List.mem_cons_self
    rw [tget, if_neg (by omega)]
    exact ih fun c hc => h c (List.mem_cons_of_mem _ hc)

/-- A canonical table of which only the values with a property are kept reads the default elsewhere. -/
theorem tget_filter_values {α : Type} [DecidableEq α] (d : α) (q : α → Bool) {t : Tbl α} (h : tableOk d t = true)
    (k : Nat) : tget d (t.filter (fun c => q c.2)) k = if q (tget d t k) then tget d t k else d := by
  induction t with
  | nil => exact (ite_self d).symm
  | cons c r ih =>
    obtain ⟨j, v⟩ := c
    obtain ⟨-, hkeys, hr⟩ := (tableOk_cons d j v r).1 h
    have hrest := ih hr
    by_cases hj : j = k
    · subst hj
      have hnone : tget d (r.filter (fun c => q c.2)) j = d :=
        tget_below d fun c hc => hkeys c (List.mem_filter.1 hc).1
      cases hq : q v <;> simp [hq, tget, hnone]
    · cases hq : q v <;> simp [hq, tget, hj, hrest]

/-! ## The instructions (R258 to R260) -/

/-- What an instruction that changes the context and completes with a value leaves. -/
theorem doneQ_modFg {s : State} {n : Nat} (hc : s.cur = .core n) {g : Ctx → Ctx} (hpc : (g (s.fg n)).pc = (s.fg n).pc)
    (f : FmtQ) (v : Word) (cyc : Nat) :
    let u := (s.modFg n g).doneQ f v cyc
    u.pc = s.pc + 8 ∧ u.mem = s.mem ∧ (f.d ≠ 0 → u.xr f.d = v) ∧ (u.fg n).tag = (g (s.fg n)).tag := by
  intro u
  have hcur : (s.modFg n g).cur = .core n := hc
  have hu : u.cur = .core n := (retire_cur _ 8 cyc).trans ((setXr_cur _ f.d v).trans hcur)
  have hfg : u.fg n = { (g (s.fg n)).setX f.d v with pc := (g (s.fg n)).pc + 8 } :=
    (fg_setXr_retire hcur f.d v 8 cyc).trans (by rw [fg_modFg_self]; rfl)
  refine ⟨?_, by simp [u, State.doneQ], fun h0 => ?_, by rw [hfg]; rfl⟩
  · rw [pc_core hu, hfg, hpc, pc_core hc]
  · rw [xr_core hu, hfg]
    exact (x_setX _ f.d f.d v).trans (by rw [if_neg h0, if_pos rfl])

/-- A valid entry with a key (R258). -/
def tagHit (key : Nat) (w : Word) : Bool := w.getLsbD 63 && decide (w.toNat % 2 ^ 48 = key)

theorem tagHit_iff (key : Nat) (w : Word) : tagHit key w = true ↔ w.getLsbD 63 = true ∧ w.toNat % 2 ^ 48 = key := by
  rw [tagHit, Bool.and_eq_true, decide_eq_true_iff]

section
variable {s : State} {n : Nat} (hc : s.cur = .core n) (f : FmtQ)
include hc

/-- `TAGLK` with the key in a valid entry. -/
theorem taglk_hit {k : Nat} (h : tagFind (s.fg n).tag (tagHit ((s.xr f.a).toNat % 2 ^ 48)) 256 0 = some k) :
    exec (.taglk f) s = .next (s.doneQ f (wOf k) 3) := by
  show execTaglk f s = _
  delta tagHit at h
  simp only [execTaglk, onCore_core hc, h]

/-- `TAGLK` with the key in none. -/
theorem taglk_miss (h : tagFind (s.fg n).tag (tagHit ((s.xr f.a).toNat % 2 ^ 48)) 256 0 = none) :
    exec (.taglk f) s = .next (s.doneQ f ones64 3) := by
  show execTaglk f s = _
  delta tagHit at h
  simp only [execTaglk, onCore_core hc, h]

theorem exec_tagset : exec (.tagset f) s = .next ((s.modFg n (fun c => c.setTag ((s.xr f.b).toNat % 256)
    (wOf (2 ^ 63 + boolNat ((s.xr f.b).getLsbD 8) * 2 ^ 62 + (s.xr f.a).toNat % 2 ^ 48)))).doneQ f
      (tget 0 (s.fg n).tag ((s.xr f.b).toNat % 256)) 2) := (congrArg Host.Outcome.next (onCore_core hc _ _) :)

theorem exec_tagclr : exec (.tagclr f) s = .next ((s.modFg n (fun c => c.setTag ((s.xr f.a).toNat % 256) 0)).doneQ f
    (tget 0 (s.fg n).tag ((s.xr f.a).toNat % 256)) 2) :=
  (congrArg Host.Outcome.next (onCore_core hc _ _) :)

/-- `TAGCLR.all` of a table in canonical form: the locked entries stay. -/
theorem tagclrAll_done (ht : tableOk 0 (s.fg n).tag = true) : ∃ u : State, exec (.tagclrAll f) s = .next u ∧
    u.pc = s.pc + 8 ∧ u.mem = s.mem ∧
    (f.d ≠ 0 → u.xr f.d = wOf (256 - ((s.fg n).tag.filter (fun p => p.2.getLsbD 62)).length)) ∧
    ∀ j, tget 0 (u.fg n).tag j = if (tget 0 (s.fg n).tag j).getLsbD 62 then tget 0 (s.fg n).tag j else 0 := by
  obtain ⟨g, hpc, htag, hx⟩ : ∃ g : Ctx → Ctx, (g (s.fg n)).pc = (s.fg n).pc ∧
      (g (s.fg n)).tag = (s.fg n).tag.filter (fun p => p.2.getLsbD 62) ∧ exec (.tagclrAll f) s =
        .next ((s.modFg n g).doneQ f (wOf (256 - ((s.fg n).tag.filter (fun p => p.2.getLsbD 62)).length)) 4) :=
    ⟨_, rfl, rfl, (congrArg Host.Outcome.next (onCore_core hc _ _) :)⟩
  obtain ⟨upc, umem, ux, utag⟩ := doneQ_modFg hc hpc f
    (wOf (256 - ((s.fg n).tag.filter (fun p => p.2.getLsbD 62)).length)) 4
  refine ⟨_, hx, upc, umem, ux, fun j => ?_⟩
  rw [utag, htag]
  exact tget_filter_values 0 (fun w : Word => w.getLsbD 62) ht j

/-- `TAGVIC` by the lowest invalid entry. -/
theorem tagvic_free {k : Nat} (h : tagFind (s.fg n).tag (fun w => !w.getLsbD 63) 256 0 = some k) :
    exec (.tagvic f) s = .next (s.doneQ f (wOf k) 3) := by
  show execTagvic f s = _
  simp only [execTagvic, onCore_core hc, h]

/-- `TAGVIC` of a full table by the next unlocked entry. -/
theorem tagvic_unlocked {e : Nat} (h : tagFind (s.fg n).tag (fun w => !w.getLsbD 63) 256 0 = none)
    (he : tagVictim (s.fg n).tag (s.fg n).tvp 256 0 = some e) : exec (.tagvic f) s =
      .next ((s.modFg n (fun c => { c with tvp := (e + 1) % 256 })).doneQ f (wOf e) 3) := by
  show execTagvic f s = _
  simp only [execTagvic, onCore_core hc, h, he]

/-- `TAGVIC` of a full table that is locked throughout. -/
theorem tagvic_locked (h : tagFind (s.fg n).tag (fun w => !w.getLsbD 63) 256 0 = none)
    (he : tagVictim (s.fg n).tag (s.fg n).tvp 256 0 = none) : exec (.tagvic f) s = .next (s.doneQ f ones64 3) := by
  show execTagvic f s = _
  simp only [execTagvic, onCore_core hc, h, he]

theorem exec_cutrd : exec (.cutrd f) s = .next (if (s.fg n).regs.pois.contains (poisCsr 0x1000) = true
    then s.trapHere 0x0A (wOf (2 ^ 63 + 2)) else s.doneQ f ((s.fg n).rcd.field (f.imm.toNat % 16)) 2) :=
  (congrArg Host.Outcome.next (onCore_core hc _ _) :)

end

/-- Settles O26: the instructions by what their searches find, and the three that clear or replace entries by the table
that they leave. -/
theorem tagTableInstructions : Obligations.TagTableInstructions := by
  unfold Obligations.TagTableInstructions
  intro s n f hc c t key hit answers
  have missed {k : Nat} (h : ¬hit k) : tagHit key (t k) = false :=
    Bool.eq_false_iff.2 fun e => h ((tagHit_iff key (t k)).1 e)
  have full (h : ∀ k, k < 256 → (t k).getLsbD 63 = true) :
      tagFind c.tag (fun w => !w.getLsbD 63) 256 0 = none :=
    tagFind_none fun j _ hj => congrArg not (h j (by omega))
  refine ⟨fun k hk hhit hlow => ?lookupHit, fun hmiss => ?lookupMiss, by decide +kernel, ?set, ?clear,
    tagclrAll_done hc f, fun k hk hk0 hlow => ?free, fun hval j hj hj0 hlow => ?victim, fun hall => ?locked,
    fun hp => ?poisoned, fun hp => ?field⟩
  case lookupHit =>
    exact taglk_hit hc f (tagFind_lowest ((tagHit_iff key (t k)).2 hhit) (Nat.zero_le k) (by omega)
      fun j _ hj => missed (hlow j hj))
  case lookupMiss => exact taglk_miss hc f (tagFind_none fun j _ hj => missed (hmiss j (by omega)))
  case set =>
    intro k
    obtain ⟨upc, umem, ux, utag⟩ := doneQ_modFg hc (g := fun c => c.setTag k
      (wOf (2 ^ 63 + boolNat ((s.xr f.b).getLsbD 8) * 2 ^ 62 + key))) rfl f (t k) 2
    refine ⟨_, exec_tagset hc f, upc, umem, ux, fun j => ?_⟩
    rw [utag]
    simp only [eq_comm (a := j)]
    exact tget_tset 0 c.tag k j _
  case clear =>
    intro k
    obtain ⟨upc, umem, ux, utag⟩ := doneQ_modFg hc (g := fun c => c.setTag k 0) rfl f (t k) 2
    refine ⟨_, exec_tagclr hc f, upc, umem, ux, fun j => ?_⟩
    rw [utag]
    simp only [eq_comm (a := j)]
    exact tget_tset 0 c.tag k j 0
  case free =>
    exact tagvic_free hc f
      (tagFind_lowest (congrArg not hk0) (Nat.zero_le k) (by omega) fun j _ hj => congrArg not (hlow j hj))
  case victim =>
    exact tagvic_unlocked hc f (full hval)
      (tagVictim_next hj0 (Nat.zero_le j) (by omega) fun i _ hi => hlow i hi)
  case locked =>
    exact tagvic_locked hc f (full fun k hk => (hall k hk).1) (tagVictim_none (fun j hj => (hall j hj).2) 256 0)
  case poisoned => exact (exec_cutrd hc f).trans (by rw [if_pos hp]; rfl)
  case field =>
    refine (exec_cutrd hc f).trans ?_
    rw [if_neg (Bool.eq_false_iff.1 hp)]
    rfl

end Sys2Proof.Machine
end

section
/-! SUPPORT. `DLD` of the own scratchpad, and the reply to one whose request left the package. -/

namespace Sys2Proof.Machine

theorem zoneOf_own {a : Nat} (h : a < 0x80000) : zoneOf (a : Int) = .loc := by
  unfold zoneOf
  rw [if_neg (by omega)]
  exact if_pos (by omega)

/-- The value that a `DLD` makes of the number in its bytes: signed below size code 4 (R257). -/
theorem extend_aux (f : FmtD) (x : Nat) : extend (BitVec.ofNat 3 f.aux.toNat) x =
    if f.aux.toNat % 8 < 4 then wOfInt (sextN x (8 * 2 ^ (f.aux.toNat % 4))) else wOf x := by
  have h3 : (BitVec.ofNat 3 f.aux.toNat).toNat = f.aux.toNat % 8 := BitVec.toNat_ofNat _ _
  have h4 : f.aux.toNat % 8 % 4 = f.aux.toNat % 4 := by omega
  simp only [extend, accSize, h3, h4]

/-! ## The own scratchpad (R257) -/

section
variable {s : State} {n : Nat} {f : FmtD} (hc : s.cur = .core n)
include hc

theorem dld_misaligned (h : (s.xr f.a).toNat % dldSize f ≠ 0) :
    exec (.dld f) s = .next (s.trapHere 0x0F (s.xr f.a)) := by
  show execDld f s = _
  rw [execDld, onCore_core hc]
  exact congrArg Host.Outcome.next (if_pos h)

variable (h : (s.xr f.a).toNat % dldSize f = 0) (ha : (s.xr f.a).toNat < 0x80000)
include h ha

theorem dld_leased {b : Nat} (hl : s.leasedAt n (s.xr f.a).toNat (dldSize f) = some b) :
    exec (.dld f) s = .next (s.trapHere 0x02 (wOf b)) := by
  show execDld f s = _
  simp only [execDld, onCore_core hc, State.waitOf, if_neg (not_not_intro h), zoneOf_own ha,
    localLoad_leased h ha hl]

variable (hl : s.leasedAt n (s.xr f.a).toNat (dldSize f) = none)
include hl

/-- A clean read completes at its issue with the bytes. -/
theorem dld_reads (hp : s.spadPoison n (s.xr f.a).toNat (dldSize f) = false) : exec (.dld f) s =
    .next ((s.modFg n (fun c => c.setX f.d (extend (BitVec.ofNat 3 f.aux.toNat)
      (memNat s.mem (spadKey n (s.xr f.a).toNat) (dldSize f))))).finishDk n 3 f.st f.x s.pc 0 0) := by
  show execDld f s = _
  simp only [execDld, onCore_core hc, State.waitOf, if_neg (not_not_intro h), zoneOf_own ha,
    localLoad_spad h ha hl hp]
  refine congrArg Host.Outcome.next (beginWait_now _ ?_)
  simp only [dldTest, dldValue, leNat_leBytes, Nat.mod_eq_of_lt (memNat_lt _ _ _), modFg_now, if_true]

/-- A poisoned read completes at its issue with POISON. -/
theorem dld_poisoned (hp : s.spadPoison n (s.xr f.a).toNat (dldSize f) = true) :
    exec (.dld f) s = .next (s.finishDk n 3 f.st f.x s.pc 6 0) := by
  show execDld f s = _
  simp only [execDld, onCore_core hc, State.waitOf, if_neg (not_not_intro h), zoneOf_own ha,
    localLoad_poisoned h ha hl hp]
  refine congrArg Host.Outcome.next (beginWait_now _ ?_)
  simp only [dldTest, if_true]
  rfl

end

/-! ## A reply (R255, R257) -/

section
variable {s : State} {n : Nat} {f : FmtD} {w : Wait} (hw : (s.fg n).wait = some w) (hi : w.instr = .dld f)
  (hn : w.ans = none)
include hw hi hn

/-- The `DLD` that waits takes a reply up to D. -/
theorem openDld_waiting : s.openDld n =
    if w.d.toNat < (s.jtime (s.fg n).ident.job).toNat then none else some (f, w) := by
  simp only [State.openDld, hw, hi, hn, Option.isSome_none, Bool.false_eq_true, or_false]

theorem reply_late {key : Nat} (hk : 2 ^ 63 ≤ key) (hd : w.d.toNat < (s.jtime (s.fg n).ident.job).toNat)
    (a : ReadAns) : exec (.readReplyArrival n key (some a)) s = .next s := by
  show execReadReplyArrival n key (some a) s = _
  simp only [execReadReplyArrival, if_pos hk, openDld_waiting hw hi hn, if_pos hd]

theorem reply_other {key : Nat} (hk : 2 ^ 63 ≤ key) (hb : w.b.toNat ≠ key) (a : ReadAns) :
    exec (.readReplyArrival n key (some a)) s = .next s := by
  show execReadReplyArrival n key (some a) s = _
  simp only [execReadReplyArrival, if_pos hk, openDld_waiting hw hi hn]
  split
  · next _ g w' e =>
    obtain ⟨-, ho⟩ := Option.ite_none_left_eq_some.1 e
    obtain rfl : w = w' := congrArg Prod.snd (Option.some.inj ho)
    rw [if_neg hb]
  · rfl

/-- A reply in time, to the request that left, is what the `DLD` is tested with. -/
theorem reply_taken (hb : 2 ^ 63 ≤ w.b.toNat) (hd : ¬ w.d.toNat < (s.jtime (s.fg n).ident.job).toNat)
    (hstop : (s.fg n).stop = none) (a : ReadAns) : exec (.readReplyArrival n w.b.toNat (some a)) s =
      .next ((dldTest f s n { w with ans := some a }).getD s) := by
  show execReadReplyArrival n w.b.toNat (some a) s = _
  simp only [execReadReplyArrival, if_pos hb, openDld_waiting hw hi hn, if_neg hd, if_true, State.replyDld, hstop,
    Option.isSome_none, Bool.false_eq_true, if_false]

end

/-- Settles O27: a `DLD` by what the read of its own scratchpad answers, and a reply by whether it is in time and names
the request. -/
theorem deadlineLoadCompletes : Obligations.DeadlineLoadCompletes := by
  unfold Obligations.DeadlineLoadCompletes
  intro s n f hc v k value
  have hvalue (x : Nat) : extend (BitVec.ofNat 3 f.aux.toNat) x = value x := extend_aux f x
  refine ⟨fun h => dld_misaligned hc h, fun b h ha hl => dld_leased hc h ha hl, fun h ha hl hp => ?clean,
    fun h ha hl hp => dld_poisoned hc h ha hl hp, fun w hw hi hn hb hsince hstop => ?reply⟩
  case clean => exact (dld_reads hc h ha hl hp).trans (by rw [hvalue]; rfl)
  case reply =>
    intro late reply
    have hnow : ¬ s.now = w.since := by omega
    have taken (hd : ¬late) (a : ReadAns) : reply a = .next ((dldTest f s n { w with ans := some a }).getD s) :=
      reply_taken hw hi hn hb hd hstop a
    refine ⟨fun a hd => reply_late hw hi hn hb hd a, fun a key hk hne => reply_other hw hi hn hk hne.symm a,
      fun bs hd => ?data, fun d hd => ?poison, fun hd => ?stale, fun c hd => taken hd _⟩
    case data =>
      rw [taken hd]
      simp only [dldTest, dldValue, hvalue, modFg_now, if_neg hnow]
      rfl
    case poison | stale =>
      rw [taken hd]
      simp only [dldTest, if_neg hnow]
      rfl

end Sys2Proof.Machine
end

section
/-! SUPPORT. A `VLDW` whose answer is known at its start, at a core that is stopped. -/

namespace Sys2Proof.Machine

/-- Core 0 with its units at rest, frozen by containment (R383). -/
def frozenCore : State := { cores := [(0, { fg := { stop := some .containment } })] }

/-- A `VLDW` (R253) all of whose fields are 0: it reads the 128 bytes from 0. -/
def vldwZero : FmtD := { wait := 0, sig := 0, x := false, aux := 0, st := 0, dl := 0, b := 0, a := 0, d := 0 }

theorem unitsAtRest_frozenCore : frozenCore.unitsAtRest 0 :=
  ⟨rfl, rfl, rfl, ⟨rfl, rfl, rfl, rfl⟩, ⟨rfl, rfl, rfl, rfl⟩, rfl, rfl, rfl, fun _ => Nat.le_refl 0, by decide⟩

/-- The state that the word leaves there. -/
def frozenVldw : State := frozenCore.issueRead (.vldw vldwZero) vldwZero (vldwEff vldwZero)

/-- The answer that a frozen core gets is held (R441): the read is still under way after the word. -/
theorem vreads_frozenVldw : (frozenVldw.fg 0).vreads.length = 1 := by decide +kernel

/-- Refutes O37: the statement lets the core be stopped, as its premise `unitsAtRest` does not speak of `stop`. A frozen
core's `VLDW` keeps its answer for the resume (R441), where the statement has no read left. -/
theorem not_vectorLoadsReadTheScratchpad : ¬ Obligations.VectorLoadsReadTheScratchpad := by
  unfold Obligations.VectorLoadsReadTheScratchpad
  intro h
  obtain ⟨-, hvldw⟩ := h frozenCore 0 unitsAtRest_frozenCore
  obtain ⟨t, ht, -, -, -, -, -, hreads⟩ := hvldw vldwZero ⟨.inl rfl, .inl rfl⟩ (by decide) (by decide)
    (by decide +kernel) (by decide +kernel)
  obtain rfl : frozenVldw = t := Host.Outcome.next.inj ht
  exact absurd (vreads_frozenVldw.symm.trans (congrArg List.length hreads)) (by decide)

end Sys2Proof.Machine
end

section
/-! SUPPORT. Elements of a vector as bytes, and memory in which the active ones of a row of elements have been written
in ascending order. -/

namespace Sys2Proof.Machine

/-! ## The bytes of an element (R5, R24) -/

/-- k bytes of a register from byte rb. -/
def regBytes (v : VReg) (rb k : Nat) : List Byte := (List.range k).map (fun j => BitVec.ofNat 8 (getEl v 8 (rb + j)))

theorem length_regBytes (v : VReg) (rb k : Nat) : (regBytes v rb k).length = k := by simp [regBytes]

theorem regBytes_eq_leBytes (v : VReg) (k : Nat) : ∀ rb, regBytes v rb k = leBytes k (v.toNat / 2 ^ (8 * rb)) := by
  induction k with
  | zero => exact fun _ => rfl
  | succ k ih =>
    intro rb
    have hnext : v.toNat / 2 ^ (8 * (rb + 1)) = v.toNat / 2 ^ (8 * rb) / 256 := by
      rw [Nat.mul_succ, Nat.pow_add, Nat.div_div_eq_div_mul]
    have hfirst : BitVec.ofNat 8 (getEl v 8 rb) = BitVec.ofNat 8 (v.toNat / 2 ^ (8 * rb)) := by
      apply BitVec.eq_of_toNat_eq
      simp [getEl]
    rw [leBytes, ← hnext, ← ih (rb + 1), ← hfirst]
    simp only [regBytes, List.range_succ_eq_map, List.map_cons, List.map_map, Function.comp_def, Nat.add_zero,
      Nat.succ_eq_add_one, Nat.add_comm 1, Nat.add_assoc]

/-- The number in the bytes of element j of width 8 L. -/
theorem leNat_regBytes (v : VReg) (j L : Nat) : leNat (regBytes v (j * L) L) = getEl v (8 * L) j := by
  rw [regBytes_eq_leBytes, leNat_leBytes, getEl, show (256 : Nat) = 2 ^ 8 from rfl, ← Nat.pow_mul, Nat.mul_assoc,
    Nat.mul_comm L j]

/-! ## The active elements in memory (R250) -/

/-- The memory in which the active ones of r elements have been written, in ascending order. -/
def memElems (m : List Host.Cell) (act : Nat → Bool) (key : Nat → Nat) (bytes : Nat → List Byte) (r : Nat) :
    List Host.Cell :=
  ((List.range r).filter act).foldl (fun m i => memWrite m (key i) (bytes i)) m

theorem memElems_succ (m : List Host.Cell) (act : Nat → Bool) (key : Nat → Nat) (bytes : Nat → List Byte) (r : Nat) :
    memElems m act key bytes (r + 1) =
      if act r then memWrite (memElems m act key bytes r) (key r) (bytes r) else memElems m act key bytes r := by
  cases h : act r <;> simp [memElems, List.range_succ, h]

section
variable (m : List Host.Cell) {act : Nat → Bool} {key : Nat → Nat} {bytes : Nat → List Byte} {L : Nat}
  (hL : ∀ i, (bytes i).length = L)
include hL

/-- A byte that no active element names keeps its value. -/
theorem memByte_memElems_out (b r : Nat) : (∀ i, i < r → act i = true → ¬(key i ≤ b ∧ b < key i + L)) →
    memByte (memElems m act key bytes r) b = memByte m b := by
  induction r with
  | zero => exact fun _ => rfl
  | succ r ih =>
    intro h
    have hrest := ih fun i hi => h i (by omega)
    rw [memElems_succ]
    split
    · next hact =>
      have hr := h r (Nat.lt_succ_self r) hact
      rw [memByte_memWrite_out _ _ _ _ (by rw [hL]; omega), hrest]
    · exact hrest

/-- An active element reads back where no higher one overlaps it. -/
theorem memRead_memElems {j r : Nat} (hj : act j = true) : j < r →
    (∀ k, j < k → k < r → act k = true → key k + L ≤ key j ∨ key j + L ≤ key k) →
    memRead (memElems m act key bytes r) (key j) L = bytes j := by
  induction r with
  | zero => exact fun h => absurd h (Nat.not_lt_zero j)
  | succ r ih =>
    intro hjr hsep
    rw [memElems_succ]
    obtain hlt | rfl := Nat.lt_succ_iff_lt_or_eq.1 hjr
    · have hrest := ih hlt fun k hk hkr => hsep k hk (by omega)
      split
      · next hact =>
        rw [memRead_memWrite_out _ _ _ _ _ (by rw [hL]; exact (hsep r hlt (Nat.lt_succ_self r) hact).symm), hrest]
      · exact hrest
    · rw [if_pos hj, ← hL j, memRead_memWrite_same]

end

/-! ## Cells of a scratchpad in a row -/

theorem cellsAt_map_range (g : Nat → Byte) (k : Nat) : ∀ a,
    cellsAt a ((List.range k).map g) = (List.range k).map (fun j => (a + j, g j)) := by
  induction k generalizing g with
  | zero => exact fun _ => rfl
  | succ k ih =>
    intro a
    simp only [List.range_succ_eq_map, List.map_cons, List.map_map, cellsAt, Function.comp_def, Nat.succ_eq_add_one,
      Nat.add_zero, ih (fun j => g (j + 1)), Nat.add_assoc, Nat.add_comm 1]

theorem memWriteCells_append (ys : List (Nat × Byte)) (xs : List (Nat × Byte)) : ∀ m : List Host.Cell,
    memWriteCells m (xs ++ ys) = memWriteCells (memWriteCells m xs) ys := by
  induction xs with
  | nil => exact fun _ => rfl
  | cons x r ih => exact fun m => ih _

theorem memWriteCells_flatten (ls : List (List (Nat × Byte))) : ∀ m : List Host.Cell,
    memWriteCells m ls.flatten = ls.foldl memWriteCells m := by
  induction ls with
  | nil => exact fun _ => rfl
  | cons l r ih => exact fun m => (memWriteCells_append _ l m).trans (ih _)

theorem onlyCtx_padCells (s : State) (n : Nat) (cells : List (Nat × Byte)) (ps : List Nat) :
    s.onlyCtx (s.padCells n cells ps) n := by
  have hfold (l : List (Nat × Byte)) : ∀ y : State, y.onlyCtx (l.foldl (fun s c => s.markDirty n c.1 1) y) n := by
    induction l with
    | nil => exact fun y => ⟨rfl, rfl, fun _ _ => rfl⟩
    | cons c r ih => exact fun y => (State.onlyCtx.markDirty y n c.1 1).trans (ih _)
  have hwrite : s.onlyCtx ((s.writeCells (cells.map (fun c => (spadKey n c.1, c.2)))).mark (ps.map (spadKey n))) n :=
    ⟨rfl, rfl, fun _ _ => rfl⟩
  exact hwrite.trans (hfold cells _)

theorem padWrote_padCells (s : State) (n : Nat) (cells : List (Nat × Byte)) (ps : List Nat) :
    s.padWrote (s.padCells n cells ps) n := by
  obtain ⟨d, hd⟩ := core_padCells s n n cells ps
  exact ⟨onlyCtx_padCells s n cells ps, d, congrArg Core.fg hd⟩

end Sys2Proof.Machine
end

section
/-! SUPPORT. What a store of the vector unit's active runs writes, and the effect of a store of the own scratchpad. -/

namespace Sys2Proof.Machine

/-! ## The runs of a store (R248 to R250) -/

/-- The offsets that a run writes, with their bytes. -/
def VUnit.offsets (u : VUnit) (v : VReg) : List (Nat × Byte) :=
  (List.range u.k).map (fun j => (u.a.toNat + j, BitVec.ofNat 8 (getEl v 8 (u.rb + j))))

/-- The cells of core n's scratchpad that a run writes. -/
def VUnit.cells (u : VUnit) (n : Nat) (v : VReg) : List (Nat × Byte) := (u.offsets v).map (fun c => (spadKey n c.1, c.2))

/-- The cells of a run in the scratchpad are its bytes in a row. -/
theorem cells_inPad {u : VUnit} (h : u.a.toNat + u.k ≤ 0x80000) (n : Nat) (v : VReg) :
    u.cells n v = cellsAt (spadKey n u.a.toNat) (regBytes v u.rb u.k) := by
  rw [regBytes, cellsAt_map_range, VUnit.cells, VUnit.offsets, List.map_map]
  refine List.map_congr_left fun j hj => ?_
  have := List.mem_range.1 hj
  rw [Function.comp_apply, spadKey_add (by omega)]

/-- Runs written one by one. -/
theorem foldl_padCells (n : Nat) (v : VReg) (us : List VUnit) : ∀ s : State,
    let t := us.foldl (fun s u => s.padCells n (u.offsets v) []) s
    s.padWrote t n ∧ t.mem = us.foldl (fun m u => memWriteCells m (u.cells n v)) s.mem := by
  induction us with
  | nil => exact fun s => ⟨.refl s n, rfl⟩
  | cons u r ih =>
    intro s
    obtain ⟨hw, hm⟩ := ih (s.padCells n (u.offsets v) [])
    rw [mem_padCells] at hm
    exact ⟨(padWrote_padCells s n _ _).trans hw, hm⟩

/-- A store changes memory by its runs, one after the other, and of the context only the mask of what is dirty. -/
theorem vStore_wrote (s : State) (n : Nat) (kd : VKind) (v : VReg) (us : List VUnit) :
    s.padWrote (s.vStore n kd us v) n ∧
      (s.vStore n kd us v).mem = us.foldl (fun m u => memWriteCells m (u.cells n v)) s.mem := by
  cases kd with
  | unit =>
    have hline : s.vStore n .unit us v = s.padCells n (us.map (fun u => u.offsets v)).flatten [] := rfl
    rw [hline]
    refine ⟨padWrote_padCells s n _ _, (mem_padCells s n _ _).trans ?_⟩
    rw [List.map_flatten, List.map_map, memWriteCells_flatten, List.foldl_map]
    rfl
  | strided => exact foldl_padCells n v us s
  | indexed => exact foldl_padCells n v us s

/-! ## The checks of a store (R247, R251) -/

theorem failing_none {us : List VUnit} {f : VUnit → Bool} (h : ∀ u ∈ us, f u = false) : failing us f = none := by
  rw [failing, List.find?_eq_none.2 fun u hu => ne_true_of_eq_false (h u hu)]
  rfl

/-- A run that passes the checks of its place: it lies in the scratchpad, in a bank whose format admits its elements. -/
def Ctx.unitFits (c : Ctx) (w : Nat) (u : VUnit) : Prop :=
  0 ≤ u.a ∧ u.a + u.k ≤ 0x80000 ∧ c.bankFits (u.a.toNat / 2 ^ 15) w = true

theorem vPlace_none {c : Ctx} {w : Nat} {us : List VUnit} (h : ∀ u ∈ us, c.unitFits w u) : c.vPlace w us = none := by
  have hin : failing us (fun u => !inPad u.a u.k) = none := failing_none fun u hu => by
    obtain ⟨h0, h1, -⟩ := h u hu
    simp [inPad, h0, h1]
  have hbank : failing us (fun u => !c.bankFits (u.a.toNat / 2 ^ 15) w) = none := failing_none fun u hu => by
    obtain ⟨-, -, hb⟩ := h u hu
    rw [hb]
    rfl
  simp only [Ctx.vPlace, hin, hbank, Option.map_none]

/-! ## The effect -/

/-- The effective address of a vector memory word (R248). -/
def State.vmEa (s : State) (f : FmtVM) : Int := ((s.xr f.a).toNat : Int) + 64 * f.off.toInt

/-- Its predicate, or all ones. -/
def Ctx.vmAct (c : Ctx) (f : FmtVM) : PReg := if f.pe then c.p f.pg.toNat else BitVec.allOnes 128

/-- Its active runs. -/
def State.vmUnits (s : State) (n : Nat) (f : FmtVM) (kd : VKind) : List VUnit :=
  vUnits kd (tyWidth f.ty) ((s.fg n).vmAct f) (s.vmEa f) (s.xr f.b) ((s.fg n).v f.b)

/-- The spool operand of a store, as a mode of a vector word. -/
def storeMode (f : FmtVM) : BitVec 2 := if f.sm.getLsbD 1 then 1 else 0

/-- What a store writes from: a register, or the head slot of a spool. -/
def State.vmSource (s : State) (n : Nat) (f : FmtVM) : VReg :=
  if f.sm.getLsbD 1 then BitVec.ofNat 1024 (memNat s.mem (spadKey n ((s.fg n).spool f.d.toNat).headAt) 128)
  else (s.fg n).v f.d

/-- The entry that a vector memory word makes. -/
def State.vmEntry (s : State) (n : Nat) (i : Instr) (f : FmtVM) : QEntry :=
  s.entry n .vx (encodeWord i) 0 (s.xr f.a) (s.xr f.b) 0

theorem vmSpool_store (f : FmtVM) : vmSpool f.sm f.d false = spoolUse (storeMode f) f.d 0 := by
  cases h : f.sm.getLsbD 1 <;> simp only [vmSpool, storeMode, h] <;> rfl

/-- What the alignment checks ask of a word's address, and of the runs of a scattered one (R248, R249). -/
def State.vmAligned (s : State) (n : Nat) (f : FmtVM) (kd : VKind) : Prop :=
  (kd = .unit ∧ s.vmEa f % 64 = 0 ∧ zoneOf (s.vmEa f) = .loc) ∨
    (kd ≠ .unit ∧ ∀ u ∈ s.vmUnits n f kd, u.a % (u.k : Int) = 0)

theorem srcSlot_store (c : Ctx) (f : FmtVM) : c.srcSlot (spoolUse (storeMode f) f.d 0) =
    if f.sm.getLsbD 1 then some (c.spool f.d.toNat).headAt else none := by
  cases h : f.sm.getLsbD 1 <;> simp only [storeMode, h] <;> rfl

/-- A source slot that a store may read: neither leased nor poisoned. -/
theorem srcSlot_readable {s : State} {n : Nat} {f : FmtVM} (hp : s.spoolsAllow n (storeMode f) f.d 0)
    (h : f.sm.getLsbD 1 = true) : s.leasedAt n ((s.fg n).spool f.d.toNat).headAt 128 = none ∧
      s.spadPoison n ((s.fg n).spool f.d.toNat).headAt 128 = false := by
  obtain ⟨-, -, -, hl, hz⟩ := hp.1 (by rw [storeMode, h]; rfl)
  exact ⟨hl, hz⟩

/-- A store of the own scratchpad that passes its checks writes its runs. -/
theorem vmEff_stores {s : State} {n : Nat} {f : FmtVM} {kd : VKind} (i : Instr) (hl : s.lockstep = true)
    (hp : s.spoolsAllow n (storeMode f) f.d 0) (hal : s.vmAligned n f kd)
    (hfit : ∀ u ∈ s.vmUnits n f kd, (s.fg n).unitFits (tyWidth f.ty) u) :
    vmEff f kd false s n (s.vmEntry n i f) =
      .run ((s.setFg n ((s.fg n).spoolClaim 0 (spoolUse (storeMode f) f.d 0)).1).vStore n kd (s.vmUnits n f kd)
        (s.vmSource n f)) (vmPend false f.d 0 none) := by
  have hcyc : s.spoolCycle = 0 := by simp [State.spoolCycle, hl]
  have hplace : (s.fg n).vPlace (tyWidth f.ty) (s.vmUnits n f kd) = none := vPlace_none hfit
  have hea : ((s.vmEntry n i f).xa.toNat : Int) + 64 * f.off.toInt = s.vmEa f := rfl
  have hus : vUnits kd (tyWidth f.ty) (if f.pe then (s.fg n).p f.pg.toNat else BitVec.allOnes 128) (s.vmEa f)
      (s.vmEntry n i f).xb ((s.fg n).v f.b) = s.vmUnits n f kd := rfl
  have hnum (a : Nat) : s.spadNum n a 128 = memNat s.mem (spadKey n a) 128 := rfl
  simp only [vmEff, hcyc, vmSpool_store, spoolFault_none hp, spoolReady_true hp, Bool.true_eq_false, if_false, hea, hus,
    hplace, srcSlot_store, State.vmSource, hnum]
  obtain ⟨rfl, ha, hz⟩ | ⟨hkd, hscattered⟩ := hal
  · cases hsm : f.sm.getLsbD 1
    case false => simp [ha, hz, State.aper]
    case true =>
      obtain ⟨hlease, hclean⟩ := srcSlot_readable hp hsm
      simp [ha, hz, hlease, hclean, State.aper]
  · have hmis : failing (s.vmUnits n f kd) (fun u => decide (u.a % (u.k : Int) ≠ 0)) = none :=
      failing_none fun u hu => by simp [hscattered u hu]
    simp only [hkd, if_false, decide_false, Bool.and_false, Bool.false_eq_true, hmis]
    cases hsm : f.sm.getLsbD 1
    case false => rfl
    case true =>
      obtain ⟨hlease, hclean⟩ := srcSlot_readable hp hsm
      simp only [if_true, Option.bind_some, Option.any_some, hlease, hclean]

end Sys2Proof.Machine
end

section
/-! SUPPORT. A store of the vector unit at rest, from its effect to the state it leaves, and the statement about the three
stores. -/

namespace Sys2Proof.Machine

/-! ## A word that writes no register -/

/-- What a vector word that writes no register leaves of core n and of the rest of the package, memory apart. -/
structure State.vxKept (s t : State) (n : Nat) (w sg : BitVec 8) : Prop where
  pc : t.pc = s.pc + 8
  sems : (s.fg n).semsMoved (t.fg n) w sg
  v : ∀ r, (t.fg n).v r = (s.fg n).v r
  x : ∀ r, (t.fg n).x r = (s.fg n).x r
  p : ∀ r, (t.fg n).p r = (s.fg n).p r
  elsewhere : s.sameElsewhere t n

/-- A vector word whose effect runs at a unit at rest, and which writes nothing when it completes. -/
theorem vxKept_issueEng {s s' : State} {n : Nat} {i : Instr} {w sg : BitVec 8} {ops : BitVec 32}
    {major cls lat gap : Nat} {xa xb xc : Word} {eff : Eff} {p : Pending} (h : s.unitsAtRest n)
    (hw : encodeWord i = putWord w sg ops major cls) (hs : (s.fg n).semsAllow w sg)
    (he : eff s n (s.entry n .vx (encodeWord i) 0 xa xb xc) = .run s' p) (hp : p.writesNothing)
    (only : s.onlyCtx s' n) (regs : (s.fg n).sameRegs (s'.fg n)) (sem : (s'.fg n).sem = (s.fg n).sem) :
    let t := s.issueEng .vx i xa xb xc lat gap eff
    s.vxKept t n w sg ∧ t.mem = s'.mem := by
  intro t
  obtain ⟨hcur, hl, -⟩ := id h
  have hk : p.kind ≠ 7 := by obtain ⟨hk | hk | hk, -⟩ := hp <;> simp [hk]
  have ht := issueEng_vx (lat := lat) (gap := gap) h (only.lockstep.trans hl) hw hs he hk
  obtain ⟨iregs, isem, -⟩ := issued_keeps (s'.fg n) w.toNat i (s.fg n).ord
  rw [← fg_begun] at iregs isem
  have yonly := onlyCtx_begun s' n w.toNat i (s.fg n).ord
  have ymem := mem_begun s' n w.toNat i (s.fg n).ord
  generalize s'.begun n w.toNat i (s.fg n).ord = y at ht iregs isem yonly ymem
  obtain ⟨q, hq⟩ : ∃ q : Pending, q = { p with
    sig := sg, ord := (s.fg n).ord, keys := heldKeys i, ring := 0, lease := 0 } := ⟨_, rfl⟩
  rw [← hq] at ht
  have hqn : q.writesNothing := hq ▸ hp
  have hland : y.landSpool n q = y := landSpool_none hqn.2
  obtain ⟨lregs, lsem, lpc⟩ := landReg_writesNothing hqn (y.fg n)
  obtain ⟨e, he, eregs, emoved⟩ := semAdd_after_take hs (lsem.trans (isem.trans (sem_semTake sem _)))
  have ycur : y.cur = .core n := yonly.cur.trans (only.cur.trans hcur)
  have hadd : (((y.landSpool n q).fg n).landReg q).semAdd q.sig.toNat 1 = some e := by
    rw [hland, show q.sig = sg by rw [hq]]
    exact he
  obtain ⟨tonly, tmem, -, u, uregs, usem, tfg⟩ := retire_complete (e := .vx) ycur hadd
  rw [← ht] at tonly tmem tfg
  obtain ⟨uv, up, ux, -, -, -, -, -, -, upc, -⟩ := sameRegs_trans eregs uregs
  obtain ⟨yv, yp, yx, -, -, -, -, -, -, ypc, -⟩ := sameRegs_trans regs iregs
  obtain ⟨-, -, -, -, -, -, -, -, -, epc, -⟩ := eregs
  rw [lregs] at uv up ux
  have tonly' : s.onlyCtx t n := only.trans (yonly.trans tonly)
  refine ⟨⟨?_, fun k => ?_, fun r => ?_, fun r => ?_, fun r => ?_, tonly'.sameElsewhere⟩, ?_⟩
  · rw [pc_core (tonly'.cur.trans hcur), tfg, pc_core hcur, ← ypc, ← lpc, ← epc]
  · rw [← emoved k, tfg]
    simp only [Ctx.semOf, usem]
  · rw [tfg]
    exact congrArg (fun m => tget 0 m r.toNat) (uv.trans yv)
  · rw [tfg]
    exact congrArg (fun m => xget m r) (ux.trans yx)
  · rw [tfg]
    exact congrArg (fun m => tget 0 m r) (up.trans yp)
  · rw [tmem, hland, ymem]

/-! ## A store -/

/-- Multiples of L that differ lie L apart. -/
theorem apart_of_aligned {a b : Int} {L : Nat} (ha : a % L = 0) (hb : b % L = 0) (h : b ≠ a) :
    b + L ≤ a ∨ a + L ≤ b := by
  obtain ⟨x, rfl⟩ := Int.dvd_of_emod_eq_zero ha
  obtain ⟨y, rfl⟩ := Int.dvd_of_emod_eq_zero hb
  have hL : (0 : Int) ≤ L := Int.natCast_nonneg L
  have step {u v : Int} (huv : u < v) : L * u + L ≤ L * v := by
    have := mul_le_mul_of_nonneg_left (Int.add_one_le_of_lt huv) hL
    rwa [mul_add, mul_one] at this
  obtain hlt | hlt := lt_or_gt_of_ne fun e : y = x => h (by rw [e])
  · exact .inl (step hlt)
  · exact .inr (step hlt)

section
variable {s : State} {n k r L : Nat} {f : FmtVM} {i : Instr} {kd : VKind} {act : Nat → Bool} {at_ : Nat → Int}
  (h : s.unitsAtRest n) (hs : (s.fg n).semsAllow f.wait f.sig) (hp : s.spoolsAllow n (storeMode f) f.d 0)
  (hw : encodeWord i = putVM f k)
  (hus : s.vmUnits n f kd = ((List.range r).filter act).map (fun j => ⟨j * L, at_ j, L⟩)) (hal : s.vmAligned n f kd)
  (hfit : ∀ j, j < r → act j = true → (s.fg n).unitFits (tyWidth f.ty) ⟨j * L, at_ j, L⟩)
include h hs hp hw hus hal hfit

/-- A store at a unit at rest whose active runs are elements of L bytes writes them in ascending order. -/
theorem issueVM_stores :
    let t := s.issueVM i f kd false
    s.vxKept t n f.wait f.sig ∧ t.mem = memElems s.mem act (fun j => spadKey n (at_ j).toNat)
      (fun j => regBytes (s.vmSource n f) (j * L) L) r := by
  intro t
  obtain ⟨hcur, hl, -⟩ := id h
  have hmem {j : Nat} (hj : j ∈ (List.range r).filter act) : j < r ∧ act j = true := by simpa using hj
  have he := vmEff_stores i hl hp hal (hus ▸ List.forall_mem_map.2 fun j hj => hfit j (hmem hj).1 (hmem hj).2)
  obtain ⟨-, cregs, csem, -⟩ := spoolClaim_now (s.fg n) (spoolUse (storeMode f) f.d 0)
  generalize ((s.fg n).spoolClaim 0 (spoolUse (storeMode f) f.d 0)).1 = c at he cregs csem
  obtain ⟨⟨wonly, m, wfg⟩, wmem⟩ := vStore_wrote (s.setFg n c) n kd (s.vmSource n f) (s.vmUnits n f kd)
  rw [fg_setFg_self] at wfg
  have ht : t = s.issueEng .vx i (s.xr f.a) (s.xr f.b) 0 (s.vmTime n f kd false (s.xr f.a)).1
      (s.vmTime n f kd false (s.xr f.a)).2 (vmEff f kd false) := by
    simp only [t, State.issueVM, hcur]
  obtain ⟨kept, tmem⟩ := vxKept_issueEng h hw hs he ⟨.inl rfl, rfl⟩ ((State.onlyCtx.setFg s n c).trans wonly)
    (by rw [wfg]; exact cregs) (by rw [wfg]; exact csem)
  rw [← ht] at kept tmem
  refine ⟨kept, tmem.trans (wmem.trans ?_)⟩
  rw [hus, List.foldl_map]
  refine List.foldl_ext _ _ _ fun m j hj => ?_
  obtain ⟨h0, h1, -⟩ := hfit j (hmem hj).1 (hmem hj).2
  rw [cells_inPad (u := ⟨j * L, at_ j, L⟩) (by simp only at h0 h1 ⊢; omega), memWriteCells_cellsAt]

/-- Each active element stands where no higher one overlaps it, and the rest of memory is as it was. -/
theorem issueVM_elements :
    let t := s.issueVM i f kd false
    s.vxKept t n f.wait f.sig ∧
      (∀ j, j < r → act j = true → (∀ k, j < k → k < r → act k = true → at_ k + L ≤ at_ j ∨ at_ j + L ≤ at_ k) →
        memNat t.mem (spadKey n (at_ j).toNat) L = getEl (s.vmSource n f) (8 * L) j) ∧
      (∀ b, (∀ j, j < r → act j = true → ¬(spadKey n (at_ j).toNat ≤ b ∧ b < spadKey n (at_ j).toNat + L)) →
        memByte t.mem b = memByte s.mem b) := by
  intro t
  obtain ⟨kept, hm⟩ := issueVM_stores h hs hp hw hus hal hfit
  have hlen (j : Nat) : (regBytes (s.vmSource n f) (j * L) L).length = L := length_regBytes _ _ _
  refine ⟨kept, fun j hj hact hsep => ?_, fun b hb => ?_⟩
  · obtain ⟨hj0, hj1, -⟩ := hfit j hj hact
    have hkeys (k : Nat) (hjk : j < k) (hk : k < r) (hka : act k = true) :
        spadKey n (at_ k).toNat + L ≤ spadKey n (at_ j).toNat ∨
          spadKey n (at_ j).toNat + L ≤ spadKey n (at_ k).toNat := by
      obtain ⟨hk0, hk1, -⟩ := hfit k hk hka
      have := hsep k hjk hk hka
      simp only [spadKey] at hj0 hj1 hk0 hk1 ⊢
      omega
    rw [memNat, hm, memRead_memElems s.mem hlen hact hj hkeys, leNat_regBytes]
  · rw [hm]
    exact memByte_memElems_out s.mem hlen b r hb

end

/-- Settles O38: each store by its active elements, which are the bytes of a line or what a stride or an index places. -/
theorem vectorStoresWriteTheirElements : Obligations.VectorStoresWriteTheirElements := by
  unfold Obligations.VectorStoresWriteTheirElements
  intro s n f h hs hp c w ea act p src key fits kept scatter
  have keeps {t : State} (ht : s.vxKept t n f.wait f.sig) : kept t :=
    ⟨ht.pc, ht.sems, ht.v, ht.x, ht.p, ht.elsewhere⟩
  have scatters {k : Nat} {i : Instr} {kd : VKind} {at_ : Nat → Int} (hx : exec i s = .next (s.issueVM i f kd false))
      (hw : encodeWord i = putVM f k) (hkd : kd ≠ .unit) (hus : s.vmUnits n f kd =
        ((List.range (1024 / w)).filter (activeEl act w)).map (fun j => ⟨j * (w / 8), at_ j, w / 8⟩)) :
      scatter i at_ := by
    intro hwidth hel
    have hmem {j : Nat} (hj : j ∈ (List.range (1024 / w)).filter (activeEl act w)) :
        j < 1024 / w ∧ activeEl act w j = true := by simpa using hj
    have hal : s.vmAligned n f kd := .inr ⟨hkd, hus ▸ List.forall_mem_map.2 fun j hj =>
      (hel j (hmem hj).1 (hmem hj).2).1⟩
    obtain ⟨hkept, hread, hout⟩ := issueVM_elements h hs hp hw hus hal fun j hj hact => (hel j hj hact).2
    have hbits : 8 * (w / 8) = w := by
      have : ∀ x ∈ [8, 16, 32, 64], 8 * (x / 8) = x := by decide
      exact this w hwidth
    rw [hbits] at hread
    exact ⟨_, hx, keeps hkept, fun j hj hact hlast => hread j hj hact fun k hjk hk hka =>
      apart_of_aligned (hel j hj hact).1 (hel k hk hka).1 (hlast k hjk hk hka), hout⟩
  refine ⟨fun _ ha h0 h1 hbank => ?line, scatters (k := 58) rfl rfl (by decide) rfl,
    scatters (k := 59) rfl rfl (by decide) rfl⟩
  case line =>
    have hz : zoneOf ea = .loc := by
      rw [← Int.toNat_of_nonneg h0]
      exact zoneOf_own (by omega)
    have hpos (j : Nat) : (ea + j).toNat = ea.toNat + j := by omega
    have hus : s.vmUnits n f .unit =
        ((List.range 128).filter (byteActive act w)).map (fun j => ⟨j * 1, ea + j, 1⟩) := by
      simp only [Nat.mul_one]
      rfl
    have hfit (j : Nat) (hj : j < 128) (hact : byteActive act w j = true) : c.unitFits w ⟨j * 1, ea + j, 1⟩ := by
      refine ⟨?_, ?_, ?_⟩ <;> simp only [hpos]
      · omega
      · omega
      · exact hbank j hj hact
    obtain ⟨hkept, hread, hout⟩ := issueVM_elements (i := .vst f) (k := 57) h hs hp rfl hus (.inl ⟨rfl, ha, hz⟩)
      hfit
    have hkey {j : Nat} (hj : j < 128) : spadKey n (ea + j).toNat = key ea + j := by
      rw [hpos]
      exact spadKey_add (by omega)
    refine ⟨_, rfl, keeps hkept, fun j hj hact => ?_, fun b hb => hout b fun j hj hact => ?_⟩
    · have hbyte := hread j hj hact fun k hjk _ _ => .inr (by omega)
      rw [hkey hj] at hbyte
      exact hbyte
    · have := hb j hj hact
      rw [hkey hj]
      omega

end Sys2Proof.Machine
end
